-- ==== Sys2Proof/Word.lean ====
section
/-! DEFINITION. The word types of the Koelama KX4 and their plainest arithmetic. -/

namespace Sys2Proof

/-- A 64-bit scalar register or system register (R45, R50). -/
abbrev Word := BitVec 64

/-- One byte of memory. -/
abbrev Byte := BitVec 8

/-- A 128-bit vector register (R46). -/
abbrev Vec := BitVec 128

/-- A scalar register field: x0 to x31 (R33). -/
abbrev Reg := BitVec 5

/-- A vector register field: v0 to v127 (R33). -/
abbrev VReg := BitVec 7

/-- An 11-bit system register number (R50). -/
abbrev SysNo := BitVec 11

/-- A context number (R22): 32 bits, kept as a number. -/
abbrev CtxNo := Nat

/-- A launch number (R333). -/
abbrev LaunchNo := Nat

/-- A tenant (R22). -/
abbrev TenantNo := Nat

/-- A core of the package: die, row and column packed as `coreid` packs them (R9), bits 12 to 0. -/
abbrev CoreId := Nat

/-- A cluster of the package: die * 256 + the number of R8. -/
abbrev ClusterId := Nat

/-- A protocol processor of the package: die * 37 + its index on the die (R12). -/
abbrev PpId := Nat

end Sys2Proof
end

