-- ==== Sys2Proof/Config.lean ====
section
/-! DEFINITION. What the world outside the machine hands to it, as operands of the events of the opcode table, and what an
implementation fixes: constants without a body. -/

namespace Sys2Proof

/-- How an operation at a peer package ended (R166, R167). -/
inductive RemoteResult where
  /-- Performed; for a read or an atomic, the value it read. -/
  | done (value : Vec)
  | unreachable
  | refused
  | peerFault
  deriving DecidableEq, Repr, Inhabited

/-- A 256-bit key. -/
abbrev Key256 := BitVec 256

/-- A SHA-256 digest. -/
abbrev Digest := BitVec 256

/-- A party of an SPDM session (R368). -/
inductive Party where
  | operator
  | tenant (n : TenantNo)
  deriving DecidableEq, Repr, Inhabited

/-- Limits of one tenant on a fabric port (R361, R362): minimum of flit slots, rate and depth of its token bucket. -/
structure TenantLimit where
  tenant : TenantNo
  slots : Nat
  rate : Nat
  depth : Nat
  deriving DecidableEq, Repr, Inhabited

/-- The fabric map that the operator loads (R357 to R363). -/
structure FabricMap where
  /-- The number of this package. -/
  self : Nat := 0
  /-- Extents of the dimensions A, B, C and D. -/
  extents : Vector Nat 4 := Vector.replicate 4 1
  /-- Failed packages, and links that are down: package and port (die * 3 + port). -/
  failed : List Nat := []
  down : List (Nat × Nat) := []
  /-- Threshold of corrected errors and floor of the eye margin of a lane (R360). -/
  threshold : Nat := 256
  floor : Nat := 0
  limits : List TenantLimit := []
  /-- Direction identifiers of the links of this package, by port (R363). -/
  directions : List (Nat × Nat) := []
  deriving DecidableEq, Repr, Inhabited

/-- A firmware image as the boot ROM sees it (R365): its digest, version and security version, and its signature with the public
key that verifies it. -/
structure FirmwareImage where
  digest : Digest
  version : Nat
  security : Nat
  signature : List Byte
  key : List Byte
  deriving DecidableEq, Repr, Inhabited

/-- What the self-test of a reset finds beyond repair (R422). -/
structure BootInputs where
  clusters : List ClusterId
  dies : List Nat
  deriving DecidableEq, Repr, Inhabited

/-- The control of a breakpoint (R378, R379). -/
structure BreakControl where
  addr : Word
  mask : BitVec 16
  control : Word
  deriving DecidableEq, Repr, Inhabited

/-- What the operator's debugger asks of a thread (R378). -/
inductive DebugCmd where
  | attach
  | stop
  | resume
  | breakpoint (n : Nat) (c : BreakControl)
  deriving DecidableEq, Repr, Inhabited

/-- Where a corrected error arose (R384): a DRAM row of a bank, a way of an L2 set, or a 32-byte block of L1, scratchpad or
tile storage, by the cluster and a number within it. -/
inductive ErrLoc where
  | dramRow (die channel bank row : Nat)
  | l2Way (slice set way : Nat)
  | block (cl : ClusterId) (n : Nat)
  deriving DecidableEq, Repr, Inhabited



/-! ## Free values and what an implementation fixes (log 2) -/

/-- The replacement victim of a full TLB (R145 gives no policy). -/
opaque Config.tlbVictim : Nat → Nat

/-- The line that a full L2 slice or RDC gives up (R1 and R12 give no policy). -/
opaque Config.lineVictim : Nat → Nat

/-- The set of a page in a cluster's TLB (R145 gives no index): its context and base address. -/
opaque Config.tlbSet : Nat → Nat → Nat

/-- In a step of this number, the walker has met the level-2 leaf that a miss asks for (R145). -/
opaque Config.leafMet : Nat → Bool

/-- The firmware in the flash of the device as it left the factory, which the first reset starts (R365). -/
opaque Config.shippedFirmware : FirmwareImage

/-- The digest of the public key that is fused into the device (R365). -/
opaque Config.fusedKey : Digest

/-- What the device's power table predicts in watts for cluster groups of one size on dies, at n values for M, V, N and D, at a
temperature of each stack (R348). -/
opaque Config.draw : List (Nat × Nat × Nat) → Nat → Nat → Vector Nat 4 → Vector Nat 4 → Nat

/-- The fixed draw of the package at the temperatures of its stacks (R348). -/
opaque Config.fixedDraw : Vector Nat 4 → Nat

/-- A byte of the plaintext of an image's granules outside the scratchpad section, by save and place (R330 leaves their contents to the context
engine). -/
opaque Config.sectionByte : Nat → Nat → Byte

/-- A byte of an image's tag area after the last tag (R328 gives none). -/
opaque Config.tagPadding : Nat → Nat → Byte

/-- Granules and bytes used of an image section, by save and kind (R330 leaves the contents to the context engine). -/
opaque Config.sectionGranules : Nat → Nat → Nat

/-- How many granules a paused context operation has finished (R332). -/
opaque Config.granulesDone : Nat → Nat

/-- What `ctxstat` gives as the state of a slot whose launch has ended (R326 names no code for it). -/
opaque Config.endedSlot : Nat → BitVec 4

/-- What a byte of host memory reads as: the function, the IOVA, and the number of the step that reads it. -/
opaque Config.hostRead : Nat → Nat → Nat → Byte

/-- The host refuses an access of a function at an IOVA, in a step of this number (R355). -/
opaque Config.hostFault : Nat → Nat → Nat → Bool

/-- A copy that overlaps itself reads a byte it has overwritten as it was (R160 promises neither): the step's number, the bytes
performed so far, and the address. -/
opaque Config.overlapKept : Nat → Nat → Nat → Bool

/-- A fetch uses what the instruction cache holds (R341 has later fetches miss, and no rule says which do): the step's number and
the address. -/
opaque Config.codeHit : Nat → Nat → Bool

/-- The block that a full instruction cache gives up. -/
opaque Config.codeVictim : Nat → Nat

/-- Set and way of a line in its L2 slice (R385). -/
opaque Config.l2Place : Nat → Nat × Nat

/-- Invocations that a link direction's messages have used, by the step's number (the spec gives no number of flits of a message). -/
opaque Config.flitsSent : Nat → Nat

/-- What the self-test of a reset that no event announces finds (R382, R366). -/
opaque Config.selfTest : Nat → BootInputs

/-- The parcel at an address of a peer package's memory: what the peer holds there is an input (log 9). -/
opaque Config.peerParcel : Nat → Nat → BitVec 16

/-- The control of a breakpoint as enable, length and the selector of writes, which R379 names without their bits. -/
opaque Config.breakControl : Word → Bool × Nat × Bool

/-- Spare rows of a DRAM bank (R383). -/
opaque Config.spareRows : Nat → Nat

/-- N-cycles that a post takes to its sync unit, by the step's number (R163 gives none). -/
opaque Config.postDelay : Nat → Nat

/-- A block of a peer's memory as it comes with a tag: the step's number and the address. -/
opaque Config.peerBlock : Nat → Nat → BitVec 256

/-- What a monitoring sensor of the platform reads (R423). -/
opaque Config.sensor : Nat → Nat → Nat

/-- The power in watts that the package has drawn over the latest 10 ms, by step (R423). -/
opaque Config.meanPower : Nat → Nat

end Sys2Proof
end

