-- ==== Sys2Proof/Syntax.lean ====
section
/-! DEFINITION. The instructions and events of the machine: one constructor per row of the opcode table.
Core and handler instructions carry the fields of their 32-bit format (R31); compact forms and queue-program operations
carry theirs (R37, R354); an event of the machine carries what names the thing it acts on. -/

namespace Sys2Proof

/-- One constructor per row of the opcode table (R39 to R41, R37, R354, and the events of the other chapters). -/
inductive Instr where
  | add (d a b : Reg) (w : Bool)
  | sub (d a b : Reg) (w : Bool)
  | and (d a b : Reg) (w : Bool)
  | or (d a b : Reg) (w : Bool)
  | xor (d a b : Reg) (w : Bool)
  | andn (d a b : Reg) (w : Bool)
  | sll (d a b : Reg) (w : Bool)
  | srl (d a b : Reg) (w : Bool)
  | sra (d a b : Reg) (w : Bool)
  | rol (d a b : Reg) (w : Bool)
  | ror (d a b : Reg) (w : Bool)
  | slt (d a b : Reg) (w : Bool)
  | sltu (d a b : Reg) (w : Bool)
  | min (d a b : Reg) (w : Bool)
  | max (d a b : Reg) (w : Bool)
  | minu (d a b : Reg) (w : Bool)
  | maxu (d a b : Reg) (w : Bool)
  | mul (d a b : Reg) (w : Bool)
  | mulh (d a b : Reg) (w : Bool)
  | mulhu (d a b : Reg) (w : Bool)
  | mulhsu (d a b : Reg) (w : Bool)
  | div (d a b : Reg) (w : Bool)
  | divu (d a b : Reg) (w : Bool)
  | rem (d a b : Reg) (w : Bool)
  | remu (d a b : Reg) (w : Bool)
  | sel (d a b : Reg) (w : Bool)
  | clz (d a : Reg) (w : Bool)
  | ctz (d a : Reg) (w : Bool)
  | popc (d a : Reg) (w : Bool)
  | bswap (d a : Reg) (w : Bool)
  | addi (d a : Reg) (imm : BitVec 14)
  | andi (d a : Reg) (imm : BitVec 14)
  | ori (d a : Reg) (imm : BitVec 14)
  | xori (d a : Reg) (imm : BitVec 14)
  | slti (d a : Reg) (imm : BitVec 14)
  | sltui (d a : Reg) (imm : BitVec 14)
  | slli (d a : Reg) (sh : BitVec 6) (w : Bool)
  | srli (d a : Reg) (sh : BitVec 6) (w : Bool)
  | srai (d a : Reg) (sh : BitVec 6) (w : Bool)
  | rori (d a : Reg) (sh : BitVec 6) (w : Bool)
  | ldhi (d : Reg) (imm : BitVec 19)
  | pcaddhi (d : Reg) (imm : BitVec 19)
  | crd (d : Reg) (n : BitVec 11)
  | cwr (n : BitVec 11) (a : Reg)
  | crs (d : Reg) (n : BitVec 11) (a : Reg)
  | crc (d : Reg) (n : BitVec 11) (a : Reg)
  | beq (a b : Reg) (off : BitVec 11)
  | bne (a b : Reg) (off : BitVec 11)
  | blt (a b : Reg) (off : BitVec 11)
  | bge (a b : Reg) (off : BitVec 11)
  | bltu (a b : Reg) (off : BitVec 11)
  | bgeu (a b : Reg) (off : BitVec 11)
  | jal (d : Reg) (off : BitVec 19)
  | jalr (d a : Reg) (imm : BitVec 11)
  | rep (cnt : BitVec 8) (sd sa sb : BitVec 3)
  | gang (d a : Reg) (w : BitVec 3)
  | gangFormation (core : Nat)
  | ungang
  | ldB (d a : Reg) (imm : BitVec 11)
  | ldH (d a : Reg) (imm : BitVec 11)
  | ldW (d a : Reg) (imm : BitVec 11)
  | ldD (d a : Reg) (imm : BitVec 11)
  | ldBz (d a : Reg) (imm : BitVec 11)
  | ldHz (d a : Reg) (imm : BitVec 11)
  | ldWz (d a : Reg) (imm : BitVec 11)
  | stB (b a : Reg) (imm : BitVec 11)
  | stH (b a : Reg) (imm : BitVec 11)
  | stW (b a : Reg) (imm : BitVec 11)
  | stD (b a : Reg) (imm : BitVec 11)
  | vld (vd : VReg) (a : Reg) (imm : BitVec 11) (nt : Bool)
  | vst (vd : VReg) (a : Reg) (imm : BitVec 11) (nt : Bool)
  | vldx (vd : VReg) (a : Reg) (vb : VReg) (st : Bool)
  | vstx (vd : VReg) (a : Reg) (vb : VReg) (st : Bool)
  | vlds (vd : VReg) (a b : Reg) (st : Bool)
  | vsts (vd : VReg) (a b : Reg) (st : Bool)
  | pref (a : Reg) (imm : BitVec 11)
  | prefl2 (a : Reg) (imm : BitVec 11)
  | discard (a : Reg) (imm : BitVec 11)
  | flush (a : Reg) (imm : BitVec 11)
  | clean (a : Reg) (imm : BitVec 11)
  | inval (a : Reg) (imm : BitVec 11)
  | amoaddW (d b a : Reg) (ord : BitVec 2) (scope : BitVec 3)
  | amoandW (d b a : Reg) (ord : BitVec 2) (scope : BitVec 3)
  | amoorW (d b a : Reg) (ord : BitVec 2) (scope : BitVec 3)
  | amoxorW (d b a : Reg) (ord : BitVec 2) (scope : BitVec 3)
  | amominW (d b a : Reg) (ord : BitVec 2) (scope : BitVec 3)
  | amomaxW (d b a : Reg) (ord : BitVec 2) (scope : BitVec 3)
  | amominuW (d b a : Reg) (ord : BitVec 2) (scope : BitVec 3)
  | amomaxuW (d b a : Reg) (ord : BitVec 2) (scope : BitVec 3)
  | amoswapW (d b a : Reg) (ord : BitVec 2) (scope : BitVec 3)
  | amocasW (d b a : Reg) (ord : BitVec 2) (scope : BitVec 3)
  | amoaddD (d b a : Reg) (ord : BitVec 2) (scope : BitVec 3)
  | amoandD (d b a : Reg) (ord : BitVec 2) (scope : BitVec 3)
  | amoorD (d b a : Reg) (ord : BitVec 2) (scope : BitVec 3)
  | amoxorD (d b a : Reg) (ord : BitVec 2) (scope : BitVec 3)
  | amominD (d b a : Reg) (ord : BitVec 2) (scope : BitVec 3)
  | amomaxD (d b a : Reg) (ord : BitVec 2) (scope : BitVec 3)
  | amominuD (d b a : Reg) (ord : BitVec 2) (scope : BitVec 3)
  | amomaxuD (d b a : Reg) (ord : BitVec 2) (scope : BitVec 3)
  | amoswapD (d b a : Reg) (ord : BitVec 2) (scope : BitVec 3)
  | amocasD (d b a : Reg) (ord : BitVec 2) (scope : BitVec 3)
  | cas128 (d b a : Reg) (ord : BitVec 2) (scope : BitVec 3)
  | atomicResult (core slot : Nat)
  | ldacq (d a : Reg) (scope : BitVec 3) (dbl : Bool)
  | strel (b a : Reg) (scope : BitVec 3) (dbl : Bool)
  | fenceAcq (scope : BitVec 3)
  | fenceRel (scope : BitVec 3)
  | fenceFull (scope : BitVec 3)
  | xfence (p q scope : BitVec 3)
  | cpy (d a : Reg) (nb : Bool)
  | cpys (d a b : Reg) (nb : Bool)
  | cpyg (d a b : Reg) (nb : Bool)
  | cfill (d a : Reg) (nb : Bool)
  | copyStart (cl : Nat)
  | copyComplete (cl k : Nat)
  | copyFault (cl k : Nat)
  | notify (a b : Reg)
  | syncw (d a b : Reg)
  | syncinit (a b : Reg)
  | syncrd (d a : Reg) (sel : BitVec 5)
  | syncBlockPost (cl : Nat)
  | syncwRecheck (core slot : Nat)
  | spawn (d a b : Reg) (nb : Bool)
  | join (d a : Reg)
  | joinRecheck (core slot : Nat)
  | callat (d a b : Reg) (nb : Bool)
  | callatAccept (core k : Nat)
  | callatRetry (core k : Nat)
  | callatReply (k : Nat) (peer : Word)
  | remoteCallFailed (core k : Nat) (reason : BitVec 4)
  | rett
  | yield
  | tcancel (d a : Reg)
  | taskCancelRequest (core slot : Nat)
  | tend
  | joinCounterFailure (k : Nat)
  | taskDispatch (core slot : Nat)
  | taskSteal (core slot : Nat)
  | send (d a b : Reg) (port nb : Bool)
  | sendDelivery (core slot : Nat)
  | sendRetry (core slot : Nat)
  | sendTimeOut (core slot : Nat)
  | sopen (a : Reg) (port : Bool)
  | sput (d a : Reg) (nb : Bool)
  | sclose
  | streamHeader (core slot : Nat)
  | streamWord (core k : Nat)
  | streamCloseMarker (core k : Nat)
  | qpop (d : Reg) (q : BitVec 2)
  | qprobe (d : Reg) (q : BitVec 2)
  | barw (d a : Reg)
  | barwa (d a : Reg)
  | barww (d a : Reg)
  | barwr (d a : Reg)
  | barrierRelease (core ch : Nat)
  | barrierTimeOut (core ch : Nat)
  | vadd (vd va vb : VReg)
  | vsub (vd va vb : VReg)
  | vmul (vd va vb : VReg)
  | vmulh (vd va vb : VReg)
  | vmulhu (vd va vb : VReg)
  | vabsd (vd va vb : VReg)
  | vqadd (vd va vb : VReg)
  | vqsub (vd va vb : VReg)
  | vmin (vd va vb : VReg)
  | vmax (vd va vb : VReg)
  | vminu (vd va vb : VReg)
  | vmaxu (vd va vb : VReg)
  | vand (vd va vb : VReg)
  | vor (vd va vb : VReg)
  | vxor (vd va vb : VReg)
  | vandn (vd va vb : VReg)
  | vsll (vd va vb : VReg)
  | vsrl (vd va vb : VReg)
  | vsra (vd va vb : VReg)
  | vmac (vd va vb : VReg)
  | vdot4 (vd va vb : VReg)
  | vslls (vd va : VReg) (b : Reg)
  | vsrls (vd va : VReg) (b : Reg)
  | vsras (vd va : VReg) (b : Reg)
  | vadds (vd va : VReg) (b : Reg)
  | vmuls (vd va : VReg) (b : Reg)
  | vceq (vd va vb : VReg)
  | vcne (vd va vb : VReg)
  | vclt (vd va vb : VReg)
  | vcle (vd va vb : VReg)
  | vcltu (vd va vb : VReg)
  | vcleu (vd va vb : VReg)
  | vsel (vd va vb : VReg)
  | vperm (vd va vb : VReg)
  | vrev (vd va : VReg)
  | vredadd (vd va : VReg)
  | vredmin (vd va : VReg)
  | vredmax (vd va : VReg)
  | vredminu (vd va : VReg)
  | vredmaxu (vd va : VReg)
  | vfredadd (vd va : VReg)
  | vfredmax (vd va : VReg)
  | vfadd (vd va vb : VReg)
  | vfsub (vd va vb : VReg)
  | vfmul (vd va vb : VReg)
  | vfma (vd va vb : VReg)
  | vfms (vd va vb : VReg)
  | vfmin (vd va vb : VReg)
  | vfmax (vd va vb : VReg)
  | vfdiv (vd va vb : VReg)
  | vfsqrt (vd va : VReg)
  | vfrcp (vd va : VReg)
  | vfrsq (vd va : VReg)
  | vfexp2 (vd va : VReg)
  | vflog2 (vd va : VReg)
  | vfabs (vd va : VReg)
  | vfneg (vd va : VReg)
  | vfclass (vd va : VReg)
  | vfceq (vd va vb : VReg)
  | vfclt (vd va vb : VReg)
  | vfcle (vd va vb : VReg)
  | vfcun (vd va vb : VReg)
  | vcvt (vd va : VReg)
  | vpack (vd va vb : VReg)
  | vunpkl (vd va : VReg)
  | vunpkh (vd va : VReg)
  | vqnt4 (vd va vb : VReg)
  | vdqnt4 (vd va : VReg)
  | vmadd (vd va vb : VReg)
  | vmsub (vd va vb : VReg)
  | vmmul (vd va vb : VReg)
  | vmmac (vd va vb : VReg)
  | vntbf (vd va vb : VReg)
  | vintbf (vd va vb : VReg)
  | vmred (vd va : VReg)
  | vmov (vd va : VReg)
  | vsplat (vd : VReg) (b : Reg)
  | vqpop (vd : VReg) (q : BitVec 2)
  | sputv (va : VReg)
  | vext (b : Reg) (va : VReg) (idx : BitVec 7)
  | vins (vd : VReg) (b : Reg) (idx : BitVec 7)
  | fmt (sp sc : BitVec 2) (sat : Bool) (rnd : BitVec 3) (cfmt bfmt afmt : BitVec 4)
  | mlease (d : Reg)
  | mrelease
  | mtry (d : Reg)
  | leaseGrant (cl : Nat)
  | leaseTimeLimit (cl : Nat)
  | leaseIdleEnd (cl : Nat)
  | leaseOverrunStop (cl : Nat)
  | mseta (a b : Reg)
  | msetb (a b : Reg)
  | msetc (a b : Reg)
  | mscla (a b : Reg)
  | msclb (a b : Reg)
  | msetm (a b : Reg)
  | mshape (a b : Reg)
  | msync (a : Reg)
  | mma (d : Reg) (t : BitVec 2)
  | mmaz (d : Reg) (t : BitVec 2)
  | mmas (d : Reg) (t : BitVec 2)
  | mmod (d : Reg) (t : BitVec 2)
  | mntt (d : Reg) (t : BitVec 2)
  | mintt (d : Reg) (t : BitVec 2)
  | mtwid (d : Reg) (t : BitVec 2)
  | matrixCommandStart (cl bank k : Nat)
  | matrixCommandComplete (cl bank k : Nat)
  | matrixSuspend (cl bank k : Nat) (mismatch : Bool)
  | mdrain (d a : Reg) (t : BitVec 2)
  | mdrainq (d a : Reg) (t : BitVec 2)
  | mzero (t : BitVec 2)
  | mresume (d : Reg) (t : BitVec 2)
  | mstat (d a : Reg) (t : BitVec 2)
  | mabort (d : Reg) (t : BitVec 2)
  | drainComplete (cl bank k : Nat)
  | drainqComplete (cl bank k : Nat)
  | drainFault (cl bank k : Nat)
  | gbadd (vd va vb : VReg) (dim : BitVec 2)
  | gbsub (vd va vb : VReg) (dim : BitVec 2)
  | gbschur (vd va : VReg) (keep joint : BitVec 2) (hi : Bool)
  | gbsolve (vd va : VReg) (dim : BitVec 2)
  | gbsolveVar (vd va : VReg) (dim : BitVec 2)
  | gbdamp (vd va : VReg) (dim : BitVec 2)
  | gbsend (va : VReg) (b : Reg) (dim : BitVec 2)
  | gbpoll (d : Reg)
  | gbpolln (d : Reg)
  | gbres (d a b : Reg)
  | gbclr (d a b : Reg)
  | mailboxConfigure (core slot : Nat)
  | gbld (vd : VReg) (a : Reg) (imm : BitVec 11) (take : Bool)
  | mailboxDelivery (cl k : Nat)
  | htag (a b : Reg) (tag : BitVec 2)
  | htagrd (d a : Reg)
  | hdirrd (d a : Reg)
  | hdirwr (d a b : Reg) (o : Bool)
  | hbusy (d a : Reg)
  | hfree (a : Reg)
  | hsendReq (a b : Reg) (pp : Bool)
  | hsendRep (a b : Reg)
  | hblk (d a b : Reg)
  | hblkComplete (pp : Nat)
  | hresume (a : Reg)
  | hend
  | hdefer
  | hfault (a : Reg)
  | handlerWatchdog (pp tid : Nat)
  | requestDeferred (pp : Nat)
  | handlerRd (pp tid : Nat)
  | handlerWr (pp tid : Nat)
  | handlerAmo (pp tid : Nat)
  | handlerWb (pp tid : Nat)
  | handlerEvs (pp tid : Nat)
  | handlerHint (pp tid : Nat)
  | handlerDone (pp tid : Nat)
  | handlerRecall (pp tid : Nat)
  | handlerProxyTag (pp tid : Nat)
  | handlerGrant (pp tid : Nat)
  | handlerBlkdone (pp tid : Nat)
  | handlerProtocolMsg (pp tid : Nat)
  | tagChange (k : Nat)
  | tagAck (k : Nat)
  | grantReceive (k : Nat)
  | releaseNotice (k : Nat)
  | resumeReceive (k : Nat)
  | accessRefused (k : Nat)
  | peerAckSubstitute (k : Nat)
  | loadFill (core k : Nat)
  | storePerform (core k : Nat)
  | mergeWindowClose (k : Nat)
  | pageWalk (k : Nat)
  | remoteOutcome (core k : Nat) (res : RemoteResult)
  | remoteTimeOut (core k : Nat)
  | trap (imm : BitVec 11)
  | sysc (imm : BitVec 11)
  | tret
  | wfe
  | brk (imm : BitVec 11)
  | eventInterrupt (core : Nat)
  | tlbinv (a : Reg)
  | tlbinva
  | rgnwr (d a b : Reg)
  | ctxsave (d a b : Reg)
  | ctxload (d a b : Reg)
  | ctxstat (d a : Reg)
  | gswitch (d a b : Reg)
  | gangSwitchAgreement (k : Nat)
  | gangSwitchStop (ctx : CtxNo)
  | contextImageWrite (ctx : CtxNo)
  | contextRestore (ctx : CtxNo)
  | guestOpPause (vf : Nat)
  | guestOpContinue (vf : Nat)
  | fatalStop (core slot : Nat)
  | haltTreeStop (ctx : CtxNo)
  | launch (d a : Reg)
  | lcancel (d a : Reg)
  | distributorRound
  | launchLoad (num : LaunchNo)
  | launchEnd (num : LaunchNo)
  | powerDecision
  | clockBoundary
  | dramRefresh (die ch : Nat)
  | stackTempSample (die : Nat) (sensors : List Int) (logic : Int)
  | packageReset (boot : BootInputs)
  | recoveryDoorbell (img : FirmwareImage)
  | raiseSecurityVersion
  | queueEnable (fn q : Nat)
  | queueDisable (fn q : Nat)
  | queueReset (fn q : Nat)
  | queueDescriptorWrite (fn q off : Nat) (val : Word)
  | doorbellWrite (fn q : Nat) (val : Word)
  | queuePacketStart
  | packetStepLimit (fn q : Nat)
  | qpLi (d : BitVec 4) (imm : BitVec 16)
  | qpLsh (d : BitVec 4) (imm : BitVec 16)
  | qpAdd (d a n : BitVec 4)
  | qpAddi (d a : BitVec 4) (imm : BitVec 16)
  | qpAnd (d a n : BitVec 4)
  | qpShr (d a : BitVec 4) (s : BitVec 6)
  | qpLd (d a : BitVec 4) (w : BitVec 2) (imm : BitVec 16)
  | qpSt (d a : BitVec 4) (w : BitVec 2) (imm : BitVec 16)
  | qpBeq (d a : BitVec 4) (imm : BitVec 16)
  | qpBne (d a : BitVec 4) (imm : BitVec 16)
  | qpSetlc (imm : BitVec 16)
  | qpLoop (imm : BitVec 16)
  | qpLaunch (d a : BitVec 4) (w : BitVec 2)
  | qpDma (a : BitVec 4) (ws wd : BitVec 2)
  | qpDwait
  | qpLwait (d a : BitVec 4)
  | qpSignal (d a : BitVec 4) (w : BitVec 2) (imm : BitVec 16)
  | qpIrq (imm : BitVec 16)
  | qpDone
  | qpFail (imm : BitVec 16)
  | dmaComplete (fn q k : Nat)
  | tdiConfigViolation (vf : Nat)
  | tdispStopInterface (vf : Nat) (tenant : TenantNo)
  | functionLevelReset (vf : Nat)
  | nonIdeRequest (vf : Nat)
  | setPowerCap (watts : Nat)
  | fabricMapUpdate (map : FabricMap)
  | vfBinding (vf : Nat) (tenant : TenantNo)
  | vtimeSet (vf : Nat) (o m : Word)
  | laneWeak (link lane count margin : Nat)
  | quietPointTimeout (link : Nat)
  | laneSwapMarker (link : Nat)
  | rekeyDue (link : Nat)
  | linkKeyLoad (link : Nat)
  | keySwitchMarker (link : Nat)
  | keyExhausted (link : Nat)
  | keyDownTimeout (link : Nat)
  | flitAuthFail (link seq : Nat)
  | replayRequest (link seq : Nat)
  | linkKeyUpdate (link : Nat) (key : Key256)
  | getMeasurements (party : Party) (index : Nat)
  | keyDeliver (tenant : TenantNo) (slot : BitVec 8) (key : Option Key256)
  | policyKey (tenant : TenantNo) (key : List Byte)
  | sessionEnd (tenant : TenantNo)
  | operatorCounterRead (ctx : CtxNo) (unit cls idx : Nat)
  | pcSample (core : Nat)
  | debugStop (core slot : Nat)
  | operatorDebugCommand (core slot : Nat) (cmd : DebugCmd)
  | obsRawCounter (core slot : Nat)
  | obsRecordRing (core slot : Nat)
  | obsSetBreakpoint (core slot : Nat)
  | obsDebugResume (core slot : Nat)
  | freeze
  | unfreeze
  | freezeMarker (link : Nat)
  | thawMarker (link : Nat)
  | freezeMarkerExpiry (link : Nat)
  | correctedError (loc : ErrLoc)
  | dramRowRepair (loc : ErrLoc)
  | l2WayRepair (loc : ErrLoc)
  | uncorrectedError (pa : Nat)
  | pldmMonitor (sensor : Nat)
  | cAddi (d : BitVec 4) (imm : BitVec 7)
  | cAdd (d a : BitVec 4)
  | cSub (d a : BitVec 4)
  | cMov (d a : BitVec 4)
  | cLi (d : BitVec 4) (imm : BitVec 7)
  | cSlli (d : BitVec 4) (sh : BitVec 6)
  | cAnd (d a : BitVec 4)
  | cLdD (d a : BitVec 4) (off : BitVec 3)
  | cStD (b a : BitVec 4) (off : BitVec 3)
  | cBeqz (a : BitVec 4) (off : BitVec 7)
  | cBnez (a : BitVec 4) (off : BitVec 7)
  | cJ (off : BitVec 11)
  | cJr (a : BitVec 4)
  | cNop
  | cQpop (d : BitVec 4) (q : BitVec 2)
  | tdiConfigLock (vf : Nat) (tenant : TenantNo)
  | tdiRunStart (vf : Nat) (tenant : TenantNo)
  | ideKmKeyProgram (fn stream : Nat) (key : Key256) (tenant : TenantNo)
  | spdmSessionStart (party : Party)
  | counterBucketBoundary (ctx : CtxNo) (cls : Nat)
  deriving DecidableEq, Repr, Inhabited

end Sys2Proof
end

