-- ==== Sys2Proof/WellFormed.lean ====
section
/-! DEFINITION. Which operands the encodings admit: the checks that stand beside the fields. A core or handler word that
fails one is an illegal instruction (R34). -/

namespace Sys2Proof

/-- The register number is even: it names a pair. -/
def Reg.even (r : Reg) : Bool := !r.getLsbD 0
/-- An even register other than x0. -/
def Reg.evenNZ (r : Reg) : Bool := r.even && r != 0#5
/-- A descriptor register: a multiple of 4 from x4 to x28. -/
def Reg.quad (r : Reg) : Bool := r.extractLsb' 0 2 == 0#2 && r != 0#5

/-- The operand checks of each instruction; an instruction that no arm names has none. -/
def wellFormed : Instr → Bool
  | .slli _ _ sh w => !w || decide (sh.toNat < 32)
  | .srli _ _ sh w => !w || decide (sh.toNat < 32)
  | .srai _ _ sh w => !w || decide (sh.toNat < 32)
  | .rori _ _ sh w => !w || decide (sh.toNat < 32)
  | .gang _ _ w => w != 0#3
  | .cas128 d b _ _ _ => d.evenNZ && b.evenNZ
  | .xfence p q _ => p != 7#3 && decide (q.toNat < 4)
  | .cpy d a nb => a.quad && (!nb || d != 0#5)
  | .cpys d a b nb => a.quad && b.quad && (!nb || d != 0#5)
  | .cpyg d a b nb => a.quad && b.quad && (!nb || d != 0#5)
  | .cfill d a nb => a.quad && (!nb || d != 0#5)
  | .syncrd _ _ sel => decide (sel.toNat < 4)
  | .spawn _ a b nb => decide (a.toNat ≤ 28) && b.even && (!nb || a != 0#5)
  | .callat _ a b nb => decide (a.toNat ≤ 28) && b.even && (!nb || a != 0#5)
  | .send d _ b _ nb => b.even && (nb || d == 0#5)
  | .sput d a nb => a.even && (nb || d == 0#5)
  | .gbschur _ _ keep joint _ => decide (keep.toNat < joint.toNat)
  | .gbsend _ b _ => b.evenNZ
  | .gbclr _ _ b => b.even
  | .hsendReq _ b _ => b.even
  | .hsendRep _ b => b.even
  | .hblk _ a _ => a.even
  | .rgnwr _ _ b => b.evenNZ
  | .gswitch _ _ b => b.evenNZ
  | _ => true

end Sys2Proof
end

