-- ==== Sys2Proof/Decode.lean ====
section
/-! DEFINITION. Decoding of core, handler, compact and queue-program words, total on any bits, and after it the encoder.
Both are written from the format tables R31, R32, R37, R39 to R41 and R354.
The decoders are marked noncomputable only because compiled code cannot hold more than 245 constructors with fields; the
kernel evaluates them. -/

namespace Sys2Proof

/-- Why a word is no instruction (R34, R35). Every one of these raises the illegal-instruction trap on a core and the
handler fault on a PP; in a queue program the op is refused when the queue is enabled (R354). -/
inductive DecodeError where
  /-- A primary opcode that R39 does not list. -/
  | unassignedPrimary
  /-- A function value that R39 to R41 do not list. -/
  | unassignedFunction
  /-- A field or bit that the format or the instruction reserves is not zero (R33, R34). -/
  | reservedField
  /-- The fields are assigned, but an operand of the instruction may not hold the value given. -/
  | illegalOperand
  /-- Compact form 0 (R35). -/
  | compactZero
  /-- A queue-program op code that R354 refuses. -/
  | unassignedQueueOp
  /-- The bytes end before the instruction does. -/
  | truncated
  deriving DecidableEq, Repr

/-- The code of an instruction: a 16-bit parcel, a 32-bit word, a queue-program op, or none (an event has no code). -/
inductive Code where
  | parcel (p : BitVec 16)
  | word (w : BitVec 32)
  | queueOp (w : BitVec 32)
  | noCode
  deriving DecidableEq, Repr

/-! ## Fields (R31) -/

/-- Primary opcode, bits 7:1. -/
def fOp (w : BitVec 32) : BitVec 7 := w.extractLsb' 1 7
/-- Field d, bits 12:8. -/
def fD (w : BitVec 32) : BitVec 5 := w.extractLsb' 8 5
/-- Field f3, bits 15:13. -/
def fF3 (w : BitVec 32) : BitVec 3 := w.extractLsb' 13 3
/-- Field a, bits 20:16. -/
def fA (w : BitVec 32) : BitVec 5 := w.extractLsb' 16 5
/-- Field b, bits 25:21. -/
def fB (w : BitVec 32) : BitVec 5 := w.extractLsb' 21 5
/-- Field f6, bits 31:26. -/
def fF6 (w : BitVec 32) : BitVec 6 := w.extractLsb' 26 6
/-- The 14-bit immediate of format I (R32). -/
def immI (w : BitVec 32) : BitVec 14 := w.extractLsb' 21 11 ++ w.extractLsb' 13 3
/-- imm11 of formats L and VM. -/
def imm11 (w : BitVec 32) : BitVec 11 := w.extractLsb' 21 11
/-- The 11-bit immediate of formats S and B. -/
def immS (w : BitVec 32) : BitVec 11 := w.extractLsb' 26 6 ++ w.extractLsb' 8 5
/-- The 19-bit immediate of formats U and J. -/
def imm19 (w : BitVec 32) : BitVec 19 := w.extractLsb' 13 19
/-- Field vd, bits 14:8. -/
def fVd (w : BitVec 32) : BitVec 7 := w.extractLsb' 8 7
/-- Field va, bits 21:15. -/
def fVa (w : BitVec 32) : BitVec 7 := w.extractLsb' 15 7
/-- Field vb, bits 28:22. -/
def fVb (w : BitVec 32) : BitVec 7 := w.extractLsb' 22 7
/-- Field f3 of formats V and VX, bits 31:29. -/
def fF3v (w : BitVec 32) : BitVec 3 := w.extractLsb' 29 3
/-- Field f5 of format VS, bits 31:27. -/
def fF5 (w : BitVec 32) : BitVec 5 := w.extractLsb' 27 5
/-- Field b of format VS, bits 26:22. -/
def fBv (w : BitVec 32) : BitVec 5 := w.extractLsb' 22 5
/-- Bit nt of format VM, bit 15. -/
def nt (w : BitVec 32) : BitVec 1 := w.extractLsb' 15 1
/-- Bit st of format VX, bit 21. -/
def st (w : BitVec 32) : BitVec 1 := w.extractLsb' 21 1
/-- The reserved bit 15 of format VX. -/
def fRsvX (w : BitVec 32) : BitVec 1 := w.extractLsb' 15 1
/-- The repeat count less one, bits 31:24. -/
def repCnt (w : BitVec 32) : BitVec 8 := w.extractLsb' 24 8
/-- Stride sd, bits 23:21. -/
def repD (w : BitVec 32) : BitVec 3 := w.extractLsb' 21 3
/-- Stride sa, bits 20:18. -/
def repA (w : BitVec 32) : BitVec 3 := w.extractLsb' 18 3
/-- Stride sb, bits 17:15. -/
def repB (w : BitVec 32) : BitVec 3 := w.extractLsb' 15 3
/-- The reserved bits 14:8 of format REP. -/
def fRsvRep (w : BitVec 32) : BitVec 7 := w.extractLsb' 8 7
/-- The reserved bits 31:28 of format P (R75). -/
def fRsvP (w : BitVec 32) : BitVec 4 := w.extractLsb' 28 4
def pSp (w : BitVec 32) : BitVec 2 := w.extractLsb' 26 2
def pSc (w : BitVec 32) : BitVec 2 := w.extractLsb' 24 2
def pSat (w : BitVec 32) : BitVec 1 := w.extractLsb' 23 1
def pRnd (w : BitVec 32) : BitVec 3 := w.extractLsb' 20 3
def pC (w : BitVec 32) : BitVec 4 := w.extractLsb' 16 4
def pB (w : BitVec 32) : BitVec 4 := w.extractLsb' 12 4
def pA (w : BitVec 32) : BitVec 4 := w.extractLsb' 8 4

/-! ## Core and handler words -/

/-- The instruction if the reserved bits are zero. -/
def checked (ok : Bool) (i : Instr) : Except DecodeError Instr :=
  if ok then .ok i else .error .reservedField

/-- Refuses an instruction whose operands the encoding does not admit (`wellFormed`). -/
def onlyWellFormed (r : Except DecodeError Instr) : Except DecodeError Instr :=
  match r with
  | .ok i => if wellFormed i then .ok i else .error .illegalOperand
  | .error e => .error e

/-- Primary 0x01 (add, sub, and ...). -/
noncomputable def decodeAlu (w : BitVec 32) : Except DecodeError Instr :=
  match fF6 w with
  | 0#6 => checked ((fF3 w).extractLsb' 1 2 == 0#2) (.add (fD w) (fA w) (fB w) ((fF3 w).getLsbD 0))
  | 1#6 => checked ((fF3 w).extractLsb' 1 2 == 0#2) (.sub (fD w) (fA w) (fB w) ((fF3 w).getLsbD 0))
  | 2#6 => checked ((fF3 w).extractLsb' 1 2 == 0#2) (.and (fD w) (fA w) (fB w) ((fF3 w).getLsbD 0))
  | 3#6 => checked ((fF3 w).extractLsb' 1 2 == 0#2) (.or (fD w) (fA w) (fB w) ((fF3 w).getLsbD 0))
  | 4#6 => checked ((fF3 w).extractLsb' 1 2 == 0#2) (.xor (fD w) (fA w) (fB w) ((fF3 w).getLsbD 0))
  | 5#6 => checked ((fF3 w).extractLsb' 1 2 == 0#2) (.andn (fD w) (fA w) (fB w) ((fF3 w).getLsbD 0))
  | 6#6 => checked ((fF3 w).extractLsb' 1 2 == 0#2) (.sll (fD w) (fA w) (fB w) ((fF3 w).getLsbD 0))
  | 7#6 => checked ((fF3 w).extractLsb' 1 2 == 0#2) (.srl (fD w) (fA w) (fB w) ((fF3 w).getLsbD 0))
  | 8#6 => checked ((fF3 w).extractLsb' 1 2 == 0#2) (.sra (fD w) (fA w) (fB w) ((fF3 w).getLsbD 0))
  | 9#6 => checked ((fF3 w).extractLsb' 1 2 == 0#2) (.rol (fD w) (fA w) (fB w) ((fF3 w).getLsbD 0))
  | 10#6 => checked ((fF3 w).extractLsb' 1 2 == 0#2) (.ror (fD w) (fA w) (fB w) ((fF3 w).getLsbD 0))
  | 11#6 => checked ((fF3 w).extractLsb' 1 2 == 0#2) (.slt (fD w) (fA w) (fB w) ((fF3 w).getLsbD 0))
  | 12#6 => checked ((fF3 w).extractLsb' 1 2 == 0#2) (.sltu (fD w) (fA w) (fB w) ((fF3 w).getLsbD 0))
  | 13#6 => checked ((fF3 w).extractLsb' 1 2 == 0#2) (.min (fD w) (fA w) (fB w) ((fF3 w).getLsbD 0))
  | 14#6 => checked ((fF3 w).extractLsb' 1 2 == 0#2) (.max (fD w) (fA w) (fB w) ((fF3 w).getLsbD 0))
  | 15#6 => checked ((fF3 w).extractLsb' 1 2 == 0#2) (.minu (fD w) (fA w) (fB w) ((fF3 w).getLsbD 0))
  | 16#6 => checked ((fF3 w).extractLsb' 1 2 == 0#2) (.maxu (fD w) (fA w) (fB w) ((fF3 w).getLsbD 0))
  | 17#6 => checked ((fF3 w).extractLsb' 1 2 == 0#2) (.mul (fD w) (fA w) (fB w) ((fF3 w).getLsbD 0))
  | 18#6 => checked ((fF3 w).extractLsb' 1 2 == 0#2) (.mulh (fD w) (fA w) (fB w) ((fF3 w).getLsbD 0))
  | 19#6 => checked ((fF3 w).extractLsb' 1 2 == 0#2) (.mulhu (fD w) (fA w) (fB w) ((fF3 w).getLsbD 0))
  | 20#6 => checked ((fF3 w).extractLsb' 1 2 == 0#2) (.mulhsu (fD w) (fA w) (fB w) ((fF3 w).getLsbD 0))
  | 21#6 => checked ((fF3 w).extractLsb' 1 2 == 0#2) (.div (fD w) (fA w) (fB w) ((fF3 w).getLsbD 0))
  | 22#6 => checked ((fF3 w).extractLsb' 1 2 == 0#2) (.divu (fD w) (fA w) (fB w) ((fF3 w).getLsbD 0))
  | 23#6 => checked ((fF3 w).extractLsb' 1 2 == 0#2) (.rem (fD w) (fA w) (fB w) ((fF3 w).getLsbD 0))
  | 24#6 => checked ((fF3 w).extractLsb' 1 2 == 0#2) (.remu (fD w) (fA w) (fB w) ((fF3 w).getLsbD 0))
  | 25#6 => checked ((fF3 w).extractLsb' 1 2 == 0#2) (.sel (fD w) (fA w) (fB w) ((fF3 w).getLsbD 0))
  | 26#6 => checked (fB w == 0#5 && (fF3 w).extractLsb' 1 2 == 0#2) (.clz (fD w) (fA w) ((fF3 w).getLsbD 0))
  | 27#6 => checked (fB w == 0#5 && (fF3 w).extractLsb' 1 2 == 0#2) (.ctz (fD w) (fA w) ((fF3 w).getLsbD 0))
  | 28#6 => checked (fB w == 0#5 && (fF3 w).extractLsb' 1 2 == 0#2) (.popc (fD w) (fA w) ((fF3 w).getLsbD 0))
  | 29#6 => checked (fB w == 0#5 && (fF3 w).extractLsb' 1 2 == 0#2) (.bswap (fD w) (fA w) ((fF3 w).getLsbD 0))
  | _ => .error .unassignedFunction

/-- Primary 0x08 (slli, srli, srai ...). -/
noncomputable def decodeShiftImm (w : BitVec 32) : Except DecodeError Instr :=
  match (fF3 w).extractLsb' 0 2 with
  | 0#2 => checked ((imm11 w).extractLsb' 6 5 == 0#5) (.slli (fD w) (fA w) ((imm11 w).extractLsb' 0 6) ((fF3 w).getLsbD 2))
  | 1#2 => checked ((imm11 w).extractLsb' 6 5 == 0#5) (.srli (fD w) (fA w) ((imm11 w).extractLsb' 0 6) ((fF3 w).getLsbD 2))
  | 2#2 => checked ((imm11 w).extractLsb' 6 5 == 0#5) (.srai (fD w) (fA w) ((imm11 w).extractLsb' 0 6) ((fF3 w).getLsbD 2))
  | 3#2 => checked ((imm11 w).extractLsb' 6 5 == 0#5) (.rori (fD w) (fA w) ((imm11 w).extractLsb' 0 6) ((fF3 w).getLsbD 2))

/-- Primary 0x0b (crd, cwr, crs ...). -/
def decodeSys (w : BitVec 32) : Except DecodeError Instr :=
  match fF3 w with
  | 0#3 => checked (fA w == 0#5) (.crd (fD w) (imm11 w))
  | 1#3 => checked (fD w == 0#5) (.cwr (imm11 w) (fA w))
  | 2#3 => .ok (.crs (fD w) (imm11 w) (fA w))
  | 3#3 => .ok (.crc (fD w) (imm11 w) (fA w))
  | _ => .error .unassignedFunction

/-- Primary 0x10 (beq, bne, blt ...). -/
noncomputable def decodeBranch (w : BitVec 32) : Except DecodeError Instr :=
  match fF3 w with
  | 0#3 => .ok (.beq (fA w) (fB w) (immS w))
  | 1#3 => .ok (.bne (fA w) (fB w) (immS w))
  | 2#3 => .ok (.blt (fA w) (fB w) (immS w))
  | 3#3 => .ok (.bge (fA w) (fB w) (immS w))
  | 4#3 => .ok (.bltu (fA w) (fB w) (immS w))
  | 5#3 => .ok (.bgeu (fA w) (fB w) (immS w))
  | _ => .error .unassignedFunction

/-- Primary 0x12 (jalr). -/
noncomputable def decodeJalr (w : BitVec 32) : Except DecodeError Instr :=
  match fF3 w with
  | 0#3 => .ok (.jalr (fD w) (fA w) (imm11 w))
  | _ => .error .unassignedFunction

/-- Primary 0x14 (gang, ungang). -/
noncomputable def decodeGang (w : BitVec 32) : Except DecodeError Instr :=
  match fF3 w with
  | 0#3 => checked ((imm11 w).extractLsb' 3 8 == 0#8) (.gang (fD w) (fA w) ((imm11 w).extractLsb' 0 3))
  | 1#3 => checked (imm11 w == 0#11 && fA w == 0#5 && fD w == 0#5) (.ungang)
  | _ => .error .unassignedFunction

/-- Primary 0x18 (ld_b, ld_h, ld_w ...). -/
noncomputable def decodeLoad (w : BitVec 32) : Except DecodeError Instr :=
  match fF3 w with
  | 0#3 => .ok (.ldB (fD w) (fA w) (imm11 w))
  | 1#3 => .ok (.ldH (fD w) (fA w) (imm11 w))
  | 2#3 => .ok (.ldW (fD w) (fA w) (imm11 w))
  | 3#3 => .ok (.ldD (fD w) (fA w) (imm11 w))
  | 4#3 => .ok (.ldBz (fD w) (fA w) (imm11 w))
  | 5#3 => .ok (.ldHz (fD w) (fA w) (imm11 w))
  | 6#3 => .ok (.ldWz (fD w) (fA w) (imm11 w))
  | _ => .error .unassignedFunction

/-- Primary 0x19 (st_b, st_h, st_w ...). -/
noncomputable def decodeStore (w : BitVec 32) : Except DecodeError Instr :=
  match fF3 w with
  | 0#3 => .ok (.stB (fB w) (fA w) (immS w))
  | 1#3 => .ok (.stH (fB w) (fA w) (immS w))
  | 2#3 => .ok (.stW (fB w) (fA w) (immS w))
  | 3#3 => .ok (.stD (fB w) (fA w) (immS w))
  | _ => .error .unassignedFunction

/-- Primary 0x1c (vldx, vstx, vlds ...). -/
noncomputable def decodeGather (w : BitVec 32) : Except DecodeError Instr :=
  match fF3v w with
  | 0#3 => checked (fRsvX w == 0#1) (.vldx (fVd w) (fA w) (fVb w) ((st w).getLsbD 0))
  | 1#3 => checked (fRsvX w == 0#1) (.vstx (fVd w) (fA w) (fVb w) ((st w).getLsbD 0))
  | 2#3 => checked (fRsvX w == 0#1 && (fVb w).extractLsb' 5 2 == 0#2) (.vlds (fVd w) (fA w) ((fVb w).extractLsb' 0 5) ((st w).getLsbD 0))
  | 3#3 => checked (fRsvX w == 0#1 && (fVb w).extractLsb' 5 2 == 0#2) (.vsts (fVd w) (fA w) ((fVb w).extractLsb' 0 5) ((st w).getLsbD 0))
  | _ => .error .unassignedFunction

/-- Primary 0x1d (pref, prefl2, discard ...). -/
noncomputable def decodeHint (w : BitVec 32) : Except DecodeError Instr :=
  match fF3 w with
  | 0#3 => checked (fD w == 0#5) (.pref (fA w) (imm11 w))
  | 1#3 => checked (fD w == 0#5) (.prefl2 (fA w) (imm11 w))
  | 2#3 => checked (fD w == 0#5) (.discard (fA w) (imm11 w))
  | 3#3 => checked (fD w == 0#5) (.flush (fA w) (imm11 w))
  | 4#3 => checked (fD w == 0#5) (.clean (fA w) (imm11 w))
  | 5#3 => checked (fD w == 0#5) (.inval (fA w) (imm11 w))
  | _ => .error .unassignedFunction

/-- Primary 0x20 (amoadd_w, amoand_w, amoor_w ...). -/
noncomputable def decodeAmoW (w : BitVec 32) : Except DecodeError Instr :=
  match (fF6 w).extractLsb' 2 4 with
  | 0#4 => .ok (.amoaddW (fD w) (fB w) (fA w) ((fF6 w).extractLsb' 0 2) (fF3 w))
  | 1#4 => .ok (.amoandW (fD w) (fB w) (fA w) ((fF6 w).extractLsb' 0 2) (fF3 w))
  | 2#4 => .ok (.amoorW (fD w) (fB w) (fA w) ((fF6 w).extractLsb' 0 2) (fF3 w))
  | 3#4 => .ok (.amoxorW (fD w) (fB w) (fA w) ((fF6 w).extractLsb' 0 2) (fF3 w))
  | 4#4 => .ok (.amominW (fD w) (fB w) (fA w) ((fF6 w).extractLsb' 0 2) (fF3 w))
  | 5#4 => .ok (.amomaxW (fD w) (fB w) (fA w) ((fF6 w).extractLsb' 0 2) (fF3 w))
  | 6#4 => .ok (.amominuW (fD w) (fB w) (fA w) ((fF6 w).extractLsb' 0 2) (fF3 w))
  | 7#4 => .ok (.amomaxuW (fD w) (fB w) (fA w) ((fF6 w).extractLsb' 0 2) (fF3 w))
  | 8#4 => .ok (.amoswapW (fD w) (fB w) (fA w) ((fF6 w).extractLsb' 0 2) (fF3 w))
  | 9#4 => .ok (.amocasW (fD w) (fB w) (fA w) ((fF6 w).extractLsb' 0 2) (fF3 w))
  | _ => .error .unassignedFunction

/-- Primary 0x21 (amoadd_d, amoand_d, amoor_d ...). -/
noncomputable def decodeAmoD (w : BitVec 32) : Except DecodeError Instr :=
  match (fF6 w).extractLsb' 2 4 with
  | 0#4 => .ok (.amoaddD (fD w) (fB w) (fA w) ((fF6 w).extractLsb' 0 2) (fF3 w))
  | 1#4 => .ok (.amoandD (fD w) (fB w) (fA w) ((fF6 w).extractLsb' 0 2) (fF3 w))
  | 2#4 => .ok (.amoorD (fD w) (fB w) (fA w) ((fF6 w).extractLsb' 0 2) (fF3 w))
  | 3#4 => .ok (.amoxorD (fD w) (fB w) (fA w) ((fF6 w).extractLsb' 0 2) (fF3 w))
  | 4#4 => .ok (.amominD (fD w) (fB w) (fA w) ((fF6 w).extractLsb' 0 2) (fF3 w))
  | 5#4 => .ok (.amomaxD (fD w) (fB w) (fA w) ((fF6 w).extractLsb' 0 2) (fF3 w))
  | 6#4 => .ok (.amominuD (fD w) (fB w) (fA w) ((fF6 w).extractLsb' 0 2) (fF3 w))
  | 7#4 => .ok (.amomaxuD (fD w) (fB w) (fA w) ((fF6 w).extractLsb' 0 2) (fF3 w))
  | 8#4 => .ok (.amoswapD (fD w) (fB w) (fA w) ((fF6 w).extractLsb' 0 2) (fF3 w))
  | 9#4 => .ok (.amocasD (fD w) (fB w) (fA w) ((fF6 w).extractLsb' 0 2) (fF3 w))
  | _ => .error .unassignedFunction

/-- Primary 0x22 (cas128). -/
noncomputable def decodeCas128 (w : BitVec 32) : Except DecodeError Instr :=
  match (fF6 w).extractLsb' 2 4 with
  | 0#4 => .ok (.cas128 (fD w) (fB w) (fA w) ((fF6 w).extractLsb' 0 2) (fF3 w))
  | _ => .error .unassignedFunction

/-- Primary 0x23 (ldacq). -/
noncomputable def decodeLdacq (w : BitVec 32) : Except DecodeError Instr :=
  match (fF3 w).extractLsb' 1 2 with
  | 1#2 => checked ((imm11 w).extractLsb' 3 8 == 0#8) (.ldacq (fD w) (fA w) ((imm11 w).extractLsb' 0 3) ((fF3 w).getLsbD 0))
  | _ => .error .unassignedFunction

/-- Primary 0x24 (strel). -/
noncomputable def decodeStrel (w : BitVec 32) : Except DecodeError Instr :=
  match (fF3 w).extractLsb' 1 2 with
  | 1#2 => checked (fF6 w == 0#6 && (fD w).extractLsb' 3 2 == 0#2) (.strel (fB w) (fA w) ((fD w).extractLsb' 0 3) ((fF3 w).getLsbD 0))
  | _ => .error .unassignedFunction

/-- Primary 0x25 (fence_acq, fence_rel, fence_full ...). -/
noncomputable def decodeFence (w : BitVec 32) : Except DecodeError Instr :=
  match fF3 w with
  | 0#3 =>
    if (imm11 w).extractLsb' 5 6 == 0#6 && fA w == 0#5 && fD w == 0#5 then
      match (imm11 w).extractLsb' 3 2 with
      | 0#2 => .ok (.fenceAcq ((imm11 w).extractLsb' 0 3))
      | 1#2 => .ok (.fenceRel ((imm11 w).extractLsb' 0 3))
      | 2#2 => .ok (.fenceFull ((imm11 w).extractLsb' 0 3))
      | _ => .error .unassignedFunction
    else .error .reservedField
  | 1#3 => checked ((imm11 w).extractLsb' 3 2 == 0#2 && fA w == 0#5 && fD w == 0#5) (.xfence ((imm11 w).extractLsb' 5 3) ((imm11 w).extractLsb' 8 3) ((imm11 w).extractLsb' 0 3))
  | _ => .error .unassignedFunction

/-- Primary 0x26 (cpy, cpys, cpyg ...). -/
noncomputable def decodeCopy (w : BitVec 32) : Except DecodeError Instr :=
  match fF6 w with
  | 0#6 => checked (fB w == 0#5 && (fF3 w).extractLsb' 1 2 == 0#2) (.cpy (fD w) (fA w) ((fF3 w).getLsbD 0))
  | 1#6 => checked ((fF3 w).extractLsb' 1 2 == 0#2) (.cpys (fD w) (fA w) (fB w) ((fF3 w).getLsbD 0))
  | 2#6 => checked ((fF3 w).extractLsb' 1 2 == 0#2) (.cpyg (fD w) (fA w) (fB w) ((fF3 w).getLsbD 0))
  | 3#6 => checked (fB w == 0#5 && (fF3 w).extractLsb' 1 2 == 0#2) (.cfill (fD w) (fA w) ((fF3 w).getLsbD 0))
  | _ => .error .unassignedFunction

/-- Primary 0x27 (notify, syncw, syncinit ...). -/
noncomputable def decodeSync (w : BitVec 32) : Except DecodeError Instr :=
  match fF3 w with
  | 0#3 => checked (fF6 w == 0#6 && fD w == 0#5) (.notify (fA w) (fB w))
  | 1#3 => checked (fF6 w == 0#6) (.syncw (fD w) (fA w) (fB w))
  | 2#3 => checked (fF6 w == 0#6 && fD w == 0#5) (.syncinit (fA w) (fB w))
  | 3#3 => checked (fF6 w == 0#6) (.syncrd (fD w) (fA w) (fB w))
  | _ => .error .unassignedFunction

/-- Primary 0x28 (spawn, join, callat ...). -/
noncomputable def decodeTask (w : BitVec 32) : Except DecodeError Instr :=
  match fF3 w with
  | 0#3 => checked ((fF6 w).extractLsb' 1 5 == 0#5) (.spawn (fD w) (fA w) (fB w) ((fF6 w).getLsbD 0))
  | 1#3 => checked (fF6 w == 0#6 && fB w == 0#5) (.join (fD w) (fA w))
  | 2#3 => checked ((fF6 w).extractLsb' 1 5 == 0#5) (.callat (fD w) (fA w) (fB w) ((fF6 w).getLsbD 0))
  | 3#3 => checked (fF6 w == 0#6 && fB w == 0#5 && fA w == 0#5 && fD w == 0#5) (.rett)
  | 4#3 => checked (fF6 w == 0#6 && fB w == 0#5 && fA w == 0#5 && fD w == 0#5) (.yield)
  | 5#3 => checked (fF6 w == 0#6 && fB w == 0#5) (.tcancel (fD w) (fA w))
  | 6#3 => checked (fF6 w == 0#6 && fB w == 0#5 && fA w == 0#5 && fD w == 0#5) (.tend)
  | _ => .error .unassignedFunction

/-- Primary 0x29 (send, sopen, sput ...). -/
noncomputable def decodeMessage (w : BitVec 32) : Except DecodeError Instr :=
  match fF3 w with
  | 0#3 => checked ((fF6 w).extractLsb' 2 4 == 0#4) (.send (fD w) (fA w) (fB w) ((fF6 w).getLsbD 0) ((fF6 w).getLsbD 1))
  | 1#3 => checked ((fF6 w).extractLsb' 1 5 == 0#5 && fB w == 0#5 && fD w == 0#5) (.sopen (fA w) ((fF6 w).getLsbD 0))
  | 2#3 => checked ((fF6 w).extractLsb' 2 4 == 0#4 && (fF6 w).extractLsb' 0 1 == 0#1 && fB w == 0#5) (.sput (fD w) (fA w) ((fF6 w).getLsbD 1))
  | 3#3 => checked (fF6 w == 0#6 && fB w == 0#5 && fA w == 0#5 && fD w == 0#5) (.sclose)
  | 4#3 => checked (fF6 w == 0#6 && fB w == 0#5 && (fA w).extractLsb' 2 3 == 0#3) (.qpop (fD w) ((fA w).extractLsb' 0 2))
  | 5#3 => checked (fF6 w == 0#6 && fB w == 0#5 && (fA w).extractLsb' 2 3 == 0#3) (.qprobe (fD w) ((fA w).extractLsb' 0 2))
  | _ => .error .unassignedFunction

/-- Primary 0x2b (barw, barwa, barww ...). -/
noncomputable def decodeBarrier (w : BitVec 32) : Except DecodeError Instr :=
  match fF3 w with
  | 0#3 => checked (fF6 w == 0#6 && fB w == 0#5) (.barw (fD w) (fA w))
  | 1#3 => checked (fF6 w == 0#6 && fB w == 0#5) (.barwa (fD w) (fA w))
  | 2#3 => checked (fF6 w == 0#6 && fB w == 0#5) (.barww (fD w) (fA w))
  | 3#3 => checked (fF6 w == 0#6 && fB w == 0#5) (.barwr (fD w) (fA w))
  | _ => .error .unassignedFunction

/-- Primary 0x30 (vadd, vsub, vmul ...). -/
noncomputable def decodeVArith (w : BitVec 32) : Except DecodeError Instr :=
  match fF3v w with
  | 0#3 => .ok (.vadd (fVd w) (fVa w) (fVb w))
  | 1#3 => .ok (.vsub (fVd w) (fVa w) (fVb w))
  | 2#3 => .ok (.vmul (fVd w) (fVa w) (fVb w))
  | 3#3 => .ok (.vmulh (fVd w) (fVa w) (fVb w))
  | 4#3 => .ok (.vmulhu (fVd w) (fVa w) (fVb w))
  | 5#3 => .ok (.vabsd (fVd w) (fVa w) (fVb w))
  | 6#3 => .ok (.vqadd (fVd w) (fVa w) (fVb w))
  | 7#3 => .ok (.vqsub (fVd w) (fVa w) (fVb w))

/-- Primary 0x31 (vmin, vmax, vminu ...). -/
noncomputable def decodeVLogic (w : BitVec 32) : Except DecodeError Instr :=
  match fF3v w with
  | 0#3 => .ok (.vmin (fVd w) (fVa w) (fVb w))
  | 1#3 => .ok (.vmax (fVd w) (fVa w) (fVb w))
  | 2#3 => .ok (.vminu (fVd w) (fVa w) (fVb w))
  | 3#3 => .ok (.vmaxu (fVd w) (fVa w) (fVb w))
  | 4#3 => .ok (.vand (fVd w) (fVa w) (fVb w))
  | 5#3 => .ok (.vor (fVd w) (fVa w) (fVb w))
  | 6#3 => .ok (.vxor (fVd w) (fVa w) (fVb w))
  | 7#3 => .ok (.vandn (fVd w) (fVa w) (fVb w))

/-- Primary 0x32 (vsll, vsrl, vsra ...). -/
noncomputable def decodeVShift (w : BitVec 32) : Except DecodeError Instr :=
  match fF3v w with
  | 0#3 => .ok (.vsll (fVd w) (fVa w) (fVb w))
  | 1#3 => .ok (.vsrl (fVd w) (fVa w) (fVb w))
  | 2#3 => .ok (.vsra (fVd w) (fVa w) (fVb w))
  | 3#3 => .ok (.vmac (fVd w) (fVa w) (fVb w))
  | 4#3 => .ok (.vdot4 (fVd w) (fVa w) (fVb w))
  | _ => .error .unassignedFunction

/-- Primary 0x33 (vslls, vsrls, vsras ...). -/
noncomputable def decodeVScalar (w : BitVec 32) : Except DecodeError Instr :=
  match fF5 w with
  | 0#5 => .ok (.vslls (fVd w) (fVa w) (fBv w))
  | 1#5 => .ok (.vsrls (fVd w) (fVa w) (fBv w))
  | 2#5 => .ok (.vsras (fVd w) (fVa w) (fBv w))
  | 3#5 => .ok (.vadds (fVd w) (fVa w) (fBv w))
  | 4#5 => .ok (.vmuls (fVd w) (fVa w) (fBv w))
  | _ => .error .unassignedFunction

/-- Primary 0x34 (vceq, vcne, vclt ...). -/
noncomputable def decodeVCompare (w : BitVec 32) : Except DecodeError Instr :=
  match fF3v w with
  | 0#3 => .ok (.vceq (fVd w) (fVa w) (fVb w))
  | 1#3 => .ok (.vcne (fVd w) (fVa w) (fVb w))
  | 2#3 => .ok (.vclt (fVd w) (fVa w) (fVb w))
  | 3#3 => .ok (.vcle (fVd w) (fVa w) (fVb w))
  | 4#3 => .ok (.vcltu (fVd w) (fVa w) (fVb w))
  | 5#3 => .ok (.vcleu (fVd w) (fVa w) (fVb w))
  | 6#3 => .ok (.vsel (fVd w) (fVa w) (fVb w))
  | _ => .error .unassignedFunction

/-- Primary 0x35 (vperm, vrev). -/
noncomputable def decodeVPermute (w : BitVec 32) : Except DecodeError Instr :=
  match fF3v w with
  | 0#3 => .ok (.vperm (fVd w) (fVa w) (fVb w))
  | 1#3 => checked (fVb w == 0#7) (.vrev (fVd w) (fVa w))
  | _ => .error .unassignedFunction

/-- Primary 0x37 (vredadd, vredmin, vredmax ...). -/
noncomputable def decodeVReduce (w : BitVec 32) : Except DecodeError Instr :=
  match fF3v w with
  | 0#3 => checked (fVb w == 0#7) (.vredadd (fVd w) (fVa w))
  | 1#3 => checked (fVb w == 0#7) (.vredmin (fVd w) (fVa w))
  | 2#3 => checked (fVb w == 0#7) (.vredmax (fVd w) (fVa w))
  | 3#3 => checked (fVb w == 0#7) (.vredminu (fVd w) (fVa w))
  | 4#3 => checked (fVb w == 0#7) (.vredmaxu (fVd w) (fVa w))
  | 5#3 => checked (fVb w == 0#7) (.vfredadd (fVd w) (fVa w))
  | 6#3 => checked (fVb w == 0#7) (.vfredmax (fVd w) (fVa w))
  | _ => .error .unassignedFunction

/-- Primary 0x38 (vfadd, vfsub, vfmul ...). -/
noncomputable def decodeVFloat (w : BitVec 32) : Except DecodeError Instr :=
  match fF3v w with
  | 0#3 => .ok (.vfadd (fVd w) (fVa w) (fVb w))
  | 1#3 => .ok (.vfsub (fVd w) (fVa w) (fVb w))
  | 2#3 => .ok (.vfmul (fVd w) (fVa w) (fVb w))
  | 3#3 => .ok (.vfma (fVd w) (fVa w) (fVb w))
  | 4#3 => .ok (.vfms (fVd w) (fVa w) (fVb w))
  | 5#3 => .ok (.vfmin (fVd w) (fVa w) (fVb w))
  | 6#3 => .ok (.vfmax (fVd w) (fVa w) (fVb w))
  | 7#3 => .ok (.vfdiv (fVd w) (fVa w) (fVb w))

/-- Primary 0x39 (vfsqrt, vfrcp, vfrsq ...). -/
noncomputable def decodeVFloatOne (w : BitVec 32) : Except DecodeError Instr :=
  match fF3v w with
  | 0#3 => checked (fVb w == 0#7) (.vfsqrt (fVd w) (fVa w))
  | 1#3 => checked (fVb w == 0#7) (.vfrcp (fVd w) (fVa w))
  | 2#3 => checked (fVb w == 0#7) (.vfrsq (fVd w) (fVa w))
  | 3#3 => checked (fVb w == 0#7) (.vfexp2 (fVd w) (fVa w))
  | 4#3 => checked (fVb w == 0#7) (.vflog2 (fVd w) (fVa w))
  | 5#3 => checked (fVb w == 0#7) (.vfabs (fVd w) (fVa w))
  | 6#3 => checked (fVb w == 0#7) (.vfneg (fVd w) (fVa w))
  | 7#3 => checked (fVb w == 0#7) (.vfclass (fVd w) (fVa w))

/-- Primary 0x3a (vfceq, vfclt, vfcle ...). -/
noncomputable def decodeVFloatCompare (w : BitVec 32) : Except DecodeError Instr :=
  match fF3v w with
  | 0#3 => .ok (.vfceq (fVd w) (fVa w) (fVb w))
  | 1#3 => .ok (.vfclt (fVd w) (fVa w) (fVb w))
  | 2#3 => .ok (.vfcle (fVd w) (fVa w) (fVb w))
  | 3#3 => .ok (.vfcun (fVd w) (fVa w) (fVb w))
  | _ => .error .unassignedFunction

/-- Primary 0x3b (vcvt, vpack, vunpkl ...). -/
def decodeVConvert (w : BitVec 32) : Except DecodeError Instr :=
  match fF3v w with
  | 0#3 => checked (fVb w == 0#7) (.vcvt (fVd w) (fVa w))
  | 1#3 => .ok (.vpack (fVd w) (fVa w) (fVb w))
  | 2#3 => checked (fVb w == 0#7) (.vunpkl (fVd w) (fVa w))
  | 3#3 => checked (fVb w == 0#7) (.vunpkh (fVd w) (fVa w))
  | 4#3 => .ok (.vqnt4 (fVd w) (fVa w) (fVb w))
  | 5#3 => checked (fVb w == 0#7) (.vdqnt4 (fVd w) (fVa w))
  | _ => .error .unassignedFunction

/-- Primary 0x3c (vmadd, vmsub, vmmul ...). -/
noncomputable def decodeVModular (w : BitVec 32) : Except DecodeError Instr :=
  match fF3v w with
  | 0#3 => .ok (.vmadd (fVd w) (fVa w) (fVb w))
  | 1#3 => .ok (.vmsub (fVd w) (fVa w) (fVb w))
  | 2#3 => .ok (.vmmul (fVd w) (fVa w) (fVb w))
  | 3#3 => .ok (.vmmac (fVd w) (fVa w) (fVb w))
  | 4#3 => .ok (.vntbf (fVd w) (fVa w) (fVb w))
  | 5#3 => .ok (.vintbf (fVd w) (fVa w) (fVb w))
  | 6#3 => checked (fVb w == 0#7) (.vmred (fVd w) (fVa w))
  | _ => .error .unassignedFunction

/-- Primary 0x3d (vmov, vsplat, vqpop ...). -/
def decodeVMove (w : BitVec 32) : Except DecodeError Instr :=
  match fF5 w with
  | 0#5 => checked (fBv w == 0#5) (.vmov (fVd w) (fVa w))
  | 1#5 => checked (fVa w == 0#7) (.vsplat (fVd w) (fBv w))
  | 2#5 => checked ((fBv w).extractLsb' 2 3 == 0#3 && fVa w == 0#7) (.vqpop (fVd w) ((fBv w).extractLsb' 0 2))
  | 3#5 => checked (fBv w == 0#5 && fVd w == 0#7) (.sputv (fVa w))
  | 4#5 => .ok (.vext (fBv w) (fVa w) (fVd w))
  | 5#5 => .ok (.vins (fVd w) (fBv w) (fVa w))
  | _ => .error .unassignedFunction

/-- Primary 0x50 (mlease, mrelease, mtry). -/
noncomputable def decodeMLease (w : BitVec 32) : Except DecodeError Instr :=
  match fF3 w with
  | 0#3 => checked (fF6 w == 0#6 && fB w == 0#5 && fA w == 0#5) (.mlease (fD w))
  | 1#3 => checked (fF6 w == 0#6 && fB w == 0#5 && fA w == 0#5 && fD w == 0#5) (.mrelease)
  | 2#3 => checked (fF6 w == 0#6 && fB w == 0#5 && fA w == 0#5) (.mtry (fD w))
  | _ => .error .unassignedFunction

/-- Primary 0x51 (mseta, msetb, msetc ...). -/
noncomputable def decodeMSet (w : BitVec 32) : Except DecodeError Instr :=
  match fF3 w with
  | 0#3 => checked (fF6 w == 0#6 && fD w == 0#5) (.mseta (fA w) (fB w))
  | 1#3 => checked (fF6 w == 0#6 && fD w == 0#5) (.msetb (fA w) (fB w))
  | 2#3 => checked (fF6 w == 0#6 && fD w == 0#5) (.msetc (fA w) (fB w))
  | 3#3 => checked (fF6 w == 0#6 && fD w == 0#5) (.mscla (fA w) (fB w))
  | 4#3 => checked (fF6 w == 0#6 && fD w == 0#5) (.msclb (fA w) (fB w))
  | 5#3 => checked (fF6 w == 0#6 && fD w == 0#5) (.msetm (fA w) (fB w))
  | 6#3 => checked (fF6 w == 0#6 && fD w == 0#5) (.mshape (fA w) (fB w))
  | 7#3 => checked (fF6 w == 0#6 && fB w == 0#5 && fD w == 0#5) (.msync (fA w))

/-- Primary 0x52 (mma, mmaz, mmas ...). -/
noncomputable def decodeMCommand (w : BitVec 32) : Except DecodeError Instr :=
  match fF3 w with
  | 0#3 => checked ((fF6 w).extractLsb' 2 4 == 0#4 && fB w == 0#5 && fA w == 0#5) (.mma (fD w) ((fF6 w).extractLsb' 0 2))
  | 1#3 => checked ((fF6 w).extractLsb' 2 4 == 0#4 && fB w == 0#5 && fA w == 0#5) (.mmaz (fD w) ((fF6 w).extractLsb' 0 2))
  | 2#3 => checked ((fF6 w).extractLsb' 2 4 == 0#4 && fB w == 0#5 && fA w == 0#5) (.mmas (fD w) ((fF6 w).extractLsb' 0 2))
  | 3#3 => checked ((fF6 w).extractLsb' 2 4 == 0#4 && fB w == 0#5 && fA w == 0#5) (.mmod (fD w) ((fF6 w).extractLsb' 0 2))
  | 4#3 => checked ((fF6 w).extractLsb' 2 4 == 0#4 && fB w == 0#5 && fA w == 0#5) (.mntt (fD w) ((fF6 w).extractLsb' 0 2))
  | 5#3 => checked ((fF6 w).extractLsb' 2 4 == 0#4 && fB w == 0#5 && fA w == 0#5) (.mintt (fD w) ((fF6 w).extractLsb' 0 2))
  | 6#3 => checked ((fF6 w).extractLsb' 2 4 == 0#4 && fB w == 0#5 && fA w == 0#5) (.mtwid (fD w) ((fF6 w).extractLsb' 0 2))
  | _ => .error .unassignedFunction

/-- Primary 0x53 (mdrain, mdrainq, mzero ...). -/
noncomputable def decodeMTile (w : BitVec 32) : Except DecodeError Instr :=
  match fF3 w with
  | 0#3 => checked ((fF6 w).extractLsb' 2 4 == 0#4 && fB w == 0#5) (.mdrain (fD w) (fA w) ((fF6 w).extractLsb' 0 2))
  | 1#3 => checked ((fF6 w).extractLsb' 2 4 == 0#4 && fB w == 0#5) (.mdrainq (fD w) (fA w) ((fF6 w).extractLsb' 0 2))
  | 2#3 => checked ((fF6 w).extractLsb' 2 4 == 0#4 && fB w == 0#5 && fA w == 0#5 && fD w == 0#5) (.mzero ((fF6 w).extractLsb' 0 2))
  | 3#3 => checked ((fF6 w).extractLsb' 2 4 == 0#4 && fB w == 0#5 && fA w == 0#5) (.mresume (fD w) ((fF6 w).extractLsb' 0 2))
  | 4#3 => checked ((fF6 w).extractLsb' 2 4 == 0#4 && fB w == 0#5) (.mstat (fD w) (fA w) ((fF6 w).extractLsb' 0 2))
  | 5#3 => checked ((fF6 w).extractLsb' 2 4 == 0#4 && fB w == 0#5 && fA w == 0#5) (.mabort (fD w) ((fF6 w).extractLsb' 0 2))
  | _ => .error .unassignedFunction

/-- Primary 0x60 (gbadd, gbsub). -/
noncomputable def decodeGbAdd (w : BitVec 32) : Except DecodeError Instr :=
  match (fF3v w).extractLsb' 2 1 with
  | 0#1 => .ok (.gbadd (fVd w) (fVa w) (fVb w) ((fF3v w).extractLsb' 0 2))
  | 1#1 => .ok (.gbsub (fVd w) (fVa w) (fVb w) ((fF3v w).extractLsb' 0 2))

/-- Primary 0x62 (gbsolve, gbsolve_var). -/
noncomputable def decodeGbSolve (w : BitVec 32) : Except DecodeError Instr :=
  match (fF3v w).extractLsb' 2 1 with
  | 0#1 => checked (fVb w == 0#7) (.gbsolve (fVd w) (fVa w) ((fF3v w).extractLsb' 0 2))
  | 1#1 => checked (fVb w == 0#7) (.gbsolveVar (fVd w) (fVa w) ((fF3v w).extractLsb' 0 2))

/-- Primary 0x65 (gbpoll, gbpolln, gbres ...). -/
noncomputable def decodeGbPoll (w : BitVec 32) : Except DecodeError Instr :=
  match fF3 w with
  | 0#3 => checked (fF6 w == 0#6 && fB w == 0#5 && fA w == 0#5) (.gbpoll (fD w))
  | 1#3 => checked (fF6 w == 0#6 && fB w == 0#5 && fA w == 0#5) (.gbpolln (fD w))
  | 2#3 => checked (fF6 w == 0#6) (.gbres (fD w) (fA w) (fB w))
  | 3#3 => checked (fF6 w == 0#6) (.gbclr (fD w) (fA w) (fB w))
  | _ => .error .unassignedFunction

/-- Primary 0x68 (htag, htagrd, hdirrd ...). -/
noncomputable def decodeHDir (w : BitVec 32) : Except DecodeError Instr :=
  match fF3 w with
  | 0#3 => checked ((fF6 w).extractLsb' 2 4 == 0#4 && fD w == 0#5) (.htag (fA w) (fB w) ((fF6 w).extractLsb' 0 2))
  | 1#3 => checked (fF6 w == 0#6 && fB w == 0#5) (.htagrd (fD w) (fA w))
  | 2#3 => checked (fF6 w == 0#6 && fB w == 0#5) (.hdirrd (fD w) (fA w))
  | 3#3 => checked ((fF6 w).extractLsb' 1 5 == 0#5) (.hdirwr (fD w) (fA w) (fB w) ((fF6 w).getLsbD 0))
  | 4#3 => checked (fF6 w == 0#6 && fB w == 0#5) (.hbusy (fD w) (fA w))
  | 5#3 => checked (fF6 w == 0#6 && fB w == 0#5 && fD w == 0#5) (.hfree (fA w))
  | _ => .error .unassignedFunction

/-- Primary 0x69 (hsend_req, hsend_rep, hblk ...). -/
noncomputable def decodeHSend (w : BitVec 32) : Except DecodeError Instr :=
  match fF3 w with
  | 0#3 => checked ((fF6 w).extractLsb' 1 5 == 0#5 && fD w == 0#5) (.hsendReq (fA w) (fB w) ((fF6 w).getLsbD 0))
  | 1#3 => checked (fF6 w == 0#6 && fD w == 0#5) (.hsendRep (fA w) (fB w))
  | 2#3 => checked (fF6 w == 0#6) (.hblk (fD w) (fA w) (fB w))
  | 3#3 => checked (fF6 w == 0#6 && fB w == 0#5 && fD w == 0#5) (.hresume (fA w))
  | _ => .error .unassignedFunction

/-- Primary 0x6a (hend, hdefer, hfault). -/
noncomputable def decodeHEnd (w : BitVec 32) : Except DecodeError Instr :=
  match fF3 w with
  | 0#3 => checked (fF6 w == 0#6 && fB w == 0#5 && fA w == 0#5 && fD w == 0#5) (.hend)
  | 1#3 => checked (fF6 w == 0#6 && fB w == 0#5 && fA w == 0#5 && fD w == 0#5) (.hdefer)
  | 2#3 => checked (fF6 w == 0#6 && fB w == 0#5 && fD w == 0#5) (.hfault (fA w))
  | _ => .error .unassignedFunction

/-- Primary 0x70 (trap, sysc, tret ...). -/
noncomputable def decodeTrap (w : BitVec 32) : Except DecodeError Instr :=
  match fF3 w with
  | 0#3 => checked (fA w == 0#5 && fD w == 0#5) (.trap (imm11 w))
  | 1#3 => checked (fA w == 0#5 && fD w == 0#5) (.sysc (imm11 w))
  | 2#3 => checked (imm11 w == 0#11 && fA w == 0#5 && fD w == 0#5) (.tret)
  | 3#3 => checked (imm11 w == 0#11 && fA w == 0#5 && fD w == 0#5) (.wfe)
  | 4#3 => checked (fA w == 0#5 && fD w == 0#5) (.brk (imm11 w))
  | _ => .error .unassignedFunction

/-- Primary 0x71 (tlbinv, tlbinva, rgnwr). -/
noncomputable def decodeTlb (w : BitVec 32) : Except DecodeError Instr :=
  match fF3 w with
  | 0#3 => checked (fF6 w == 0#6 && fB w == 0#5 && fD w == 0#5) (.tlbinv (fA w))
  | 1#3 => checked (fF6 w == 0#6 && fB w == 0#5 && fA w == 0#5 && fD w == 0#5) (.tlbinva)
  | 2#3 => checked (fF6 w == 0#6) (.rgnwr (fD w) (fA w) (fB w))
  | _ => .error .unassignedFunction

/-- Primary 0x72 (ctxsave, ctxload, ctxstat ...). -/
noncomputable def decodeCtx (w : BitVec 32) : Except DecodeError Instr :=
  match fF3 w with
  | 0#3 => checked (fF6 w == 0#6) (.ctxsave (fD w) (fA w) (fB w))
  | 1#3 => checked (fF6 w == 0#6) (.ctxload (fD w) (fA w) (fB w))
  | 2#3 => checked (fF6 w == 0#6 && fB w == 0#5) (.ctxstat (fD w) (fA w))
  | 3#3 => checked (fF6 w == 0#6) (.gswitch (fD w) (fA w) (fB w))
  | _ => .error .unassignedFunction

/-- Primary 0x73 (launch, lcancel). -/
noncomputable def decodeLaunch (w : BitVec 32) : Except DecodeError Instr :=
  match fF3 w with
  | 0#3 => checked (fF6 w == 0#6 && fB w == 0#5) (.launch (fD w) (fA w))
  | 1#3 => checked (fF6 w == 0#6 && fB w == 0#5) (.lcancel (fD w) (fA w))
  | _ => .error .unassignedFunction

/-- Reads a core or handler instruction word; bit 0 of the word is 1 (R31, R39). -/
noncomputable def decodeFields (w : BitVec 32) : Except DecodeError Instr :=
  match fOp w with
  | 0x01#7 => decodeAlu w
  | 0x02#7 => .ok (.addi (fD w) (fA w) (immI w))
  | 0x03#7 => .ok (.andi (fD w) (fA w) (immI w))
  | 0x04#7 => .ok (.ori (fD w) (fA w) (immI w))
  | 0x05#7 => .ok (.xori (fD w) (fA w) (immI w))
  | 0x06#7 => .ok (.slti (fD w) (fA w) (immI w))
  | 0x07#7 => .ok (.sltui (fD w) (fA w) (immI w))
  | 0x08#7 => decodeShiftImm w
  | 0x09#7 => .ok (.ldhi (fD w) (imm19 w))
  | 0x0a#7 => .ok (.pcaddhi (fD w) (imm19 w))
  | 0x0b#7 => decodeSys w
  | 0x10#7 => decodeBranch w
  | 0x11#7 => .ok (.jal (fD w) (imm19 w))
  | 0x12#7 => decodeJalr w
  | 0x13#7 => checked (fRsvRep w == 0#7) (.rep (repCnt w) (repD w) (repA w) (repB w))
  | 0x14#7 => decodeGang w
  | 0x18#7 => decodeLoad w
  | 0x19#7 => decodeStore w
  | 0x1a#7 => .ok (.vld (fVd w) (fA w) (imm11 w) ((nt w).getLsbD 0))
  | 0x1b#7 => .ok (.vst (fVd w) (fA w) (imm11 w) ((nt w).getLsbD 0))
  | 0x1c#7 => decodeGather w
  | 0x1d#7 => decodeHint w
  | 0x20#7 => decodeAmoW w
  | 0x21#7 => decodeAmoD w
  | 0x22#7 => decodeCas128 w
  | 0x23#7 => decodeLdacq w
  | 0x24#7 => decodeStrel w
  | 0x25#7 => decodeFence w
  | 0x26#7 => decodeCopy w
  | 0x27#7 => decodeSync w
  | 0x28#7 => decodeTask w
  | 0x29#7 => decodeMessage w
  | 0x2b#7 => decodeBarrier w
  | 0x30#7 => decodeVArith w
  | 0x31#7 => decodeVLogic w
  | 0x32#7 => decodeVShift w
  | 0x33#7 => decodeVScalar w
  | 0x34#7 => decodeVCompare w
  | 0x35#7 => decodeVPermute w
  | 0x37#7 => decodeVReduce w
  | 0x38#7 => decodeVFloat w
  | 0x39#7 => decodeVFloatOne w
  | 0x3a#7 => decodeVFloatCompare w
  | 0x3b#7 => decodeVConvert w
  | 0x3c#7 => decodeVModular w
  | 0x3d#7 => decodeVMove w
  | 0x50#7 => decodeMLease w
  | 0x51#7 => decodeMSet w
  | 0x52#7 => decodeMCommand w
  | 0x53#7 => decodeMTile w
  | 0x60#7 => decodeGbAdd w
  | 0x61#7 => checked ((fVb w).extractLsb' 2 5 == 0#5) (.gbschur (fVd w) (fVa w) ((fF3v w).extractLsb' 0 2) ((fVb w).extractLsb' 0 2) ((fF3v w).getLsbD 2))
  | 0x62#7 => decodeGbSolve w
  | 0x63#7 => checked ((fF3v w).extractLsb' 2 1 == 0#1 && fVb w == 0#7) (.gbdamp (fVd w) (fVa w) ((fF3v w).extractLsb' 0 2))
  | 0x64#7 => checked ((fF5 w).extractLsb' 2 3 == 0#3 && fVd w == 0#7) (.gbsend (fVa w) (fBv w) ((fF5 w).extractLsb' 0 2))
  | 0x65#7 => decodeGbPoll w
  | 0x66#7 => .ok (.gbld (fVd w) (fA w) (imm11 w) ((nt w).getLsbD 0))
  | 0x68#7 => decodeHDir w
  | 0x69#7 => decodeHSend w
  | 0x6a#7 => decodeHEnd w
  | 0x70#7 => decodeTrap w
  | 0x71#7 => decodeTlb w
  | 0x72#7 => decodeCtx w
  | 0x73#7 => decodeLaunch w
  | 0x78#7 => checked (fRsvP w == 0#4) (.fmt (pSp w) (pSc w) ((pSat w).getLsbD 0) (pRnd w) (pC w) (pB w) (pA w))
  | _ => .error .unassignedPrimary

/-- The instruction of a 32-bit word whose bit 0 is 1. -/
noncomputable def decodeWord (w : BitVec 32) : Except DecodeError Instr := onlyWellFormed (decodeFields w)

/-! ## Compact forms (R37) -/

def cForm (p : BitVec 16) : BitVec 4 := p.extractLsb' 1 4
def cD (p : BitVec 16) : BitVec 4 := p.extractLsb' 5 4
def cA (p : BitVec 16) : BitVec 4 := p.extractLsb' 9 4
def cHi3 (p : BitVec 16) : BitVec 3 := p.extractLsb' 13 3
def cImm7 (p : BitVec 16) : BitVec 7 := p.extractLsb' 9 7
def cOff11 (p : BitVec 16) : BitVec 11 := p.extractLsb' 5 11

/-- The instruction of a parcel whose bit 0 is 0. -/
noncomputable def decodeParcel (p : BitVec 16) : Except DecodeError Instr :=
  match cForm p with
  | 0#4 => .error .compactZero
  | 1#4 => .ok (.cAddi (cD p) (cImm7 p))
  | 2#4 => checked (cHi3 p == 0#3) (.cAdd (cD p) (cA p))
  | 3#4 => checked (cHi3 p == 0#3) (.cSub (cD p) (cA p))
  | 4#4 => checked (cHi3 p == 0#3) (.cMov (cD p) (cA p))
  | 5#4 => .ok (.cLi (cD p) (cImm7 p))
  | 6#4 => checked (!(cImm7 p).getLsbD 6) (.cSlli (cD p) ((cImm7 p).extractLsb' 0 6))
  | 7#4 => checked (cHi3 p == 0#3) (.cAnd (cD p) (cA p))
  | 8#4 => .ok (.cLdD (cD p) (cA p) (cHi3 p))
  | 9#4 => .ok (.cStD (cD p) (cA p) (cHi3 p))
  | 10#4 => .ok (.cBeqz (cD p) (cImm7 p))
  | 11#4 => .ok (.cBnez (cD p) (cImm7 p))
  | 12#4 => .ok (.cJ (cOff11 p))
  | 13#4 => checked (cImm7 p == 0#7) (.cJr (cD p))
  | 14#4 => checked (cOff11 p == 0#11) .cNop
  | _ => checked ((cImm7 p).extractLsb' 2 5 == 0#5) (.cQpop (cD p) ((cImm7 p).extractLsb' 0 2))

/-! ## The rows of the opcode table as masks and values
The capture of a repeat frame (R98) checks words without building instructions; this is the table it reads. -/

/-- The fixed bits of each row of a primary: mask and value. -/
def opcodeRows (op : BitVec 7) : List (BitVec 32 × BitVec 32) :=
  match op with
  | 0x01#7 => [(0xfc00c0ff#32, 0x3#32),
      (0xfc00c0ff#32, 0x4000003#32),
      (0xfc00c0ff#32, 0x8000003#32),
      (0xfc00c0ff#32, 0xc000003#32),
      (0xfc00c0ff#32, 0x10000003#32),
      (0xfc00c0ff#32, 0x14000003#32),
      (0xfc00c0ff#32, 0x18000003#32),
      (0xfc00c0ff#32, 0x1c000003#32),
      (0xfc00c0ff#32, 0x20000003#32),
      (0xfc00c0ff#32, 0x24000003#32),
      (0xfc00c0ff#32, 0x28000003#32),
      (0xfc00c0ff#32, 0x2c000003#32),
      (0xfc00c0ff#32, 0x30000003#32),
      (0xfc00c0ff#32, 0x34000003#32),
      (0xfc00c0ff#32, 0x38000003#32),
      (0xfc00c0ff#32, 0x3c000003#32),
      (0xfc00c0ff#32, 0x40000003#32),
      (0xfc00c0ff#32, 0x44000003#32),
      (0xfc00c0ff#32, 0x48000003#32),
      (0xfc00c0ff#32, 0x4c000003#32),
      (0xfc00c0ff#32, 0x50000003#32),
      (0xfc00c0ff#32, 0x54000003#32),
      (0xfc00c0ff#32, 0x58000003#32),
      (0xfc00c0ff#32, 0x5c000003#32),
      (0xfc00c0ff#32, 0x60000003#32),
      (0xfc00c0ff#32, 0x64000003#32),
      (0xffe0c0ff#32, 0x68000003#32),
      (0xffe0c0ff#32, 0x6c000003#32),
      (0xffe0c0ff#32, 0x70000003#32),
      (0xffe0c0ff#32, 0x74000003#32)]
  | 0x02#7 => [(0xff#32, 0x5#32)]
  | 0x03#7 => [(0xff#32, 0x7#32)]
  | 0x04#7 => [(0xff#32, 0x9#32)]
  | 0x05#7 => [(0xff#32, 0xb#32)]
  | 0x06#7 => [(0xff#32, 0xd#32)]
  | 0x07#7 => [(0xff#32, 0xf#32)]
  | 0x08#7 => [(0xf80060ff#32, 0x11#32),
      (0xf80060ff#32, 0x2011#32),
      (0xf80060ff#32, 0x4011#32),
      (0xf80060ff#32, 0x6011#32)]
  | 0x09#7 => [(0xff#32, 0x13#32)]
  | 0x0a#7 => [(0xff#32, 0x15#32)]
  | 0x0b#7 => [(0x1fe0ff#32, 0x17#32),
      (0xffff#32, 0x2017#32),
      (0xe0ff#32, 0x4017#32),
      (0xe0ff#32, 0x6017#32)]
  | 0x10#7 => [(0xe0ff#32, 0x21#32),
      (0xe0ff#32, 0x2021#32),
      (0xe0ff#32, 0x4021#32),
      (0xe0ff#32, 0x6021#32),
      (0xe0ff#32, 0x8021#32),
      (0xe0ff#32, 0xa021#32)]
  | 0x11#7 => [(0xff#32, 0x23#32)]
  | 0x12#7 => [(0xe0ff#32, 0x25#32)]
  | 0x13#7 => [(0x7fff#32, 0x27#32)]
  | 0x14#7 => [(0xff00e0ff#32, 0x29#32),
      (0xffffffff#32, 0x2029#32)]
  | 0x18#7 => [(0xe0ff#32, 0x31#32),
      (0xe0ff#32, 0x2031#32),
      (0xe0ff#32, 0x4031#32),
      (0xe0ff#32, 0x6031#32),
      (0xe0ff#32, 0x8031#32),
      (0xe0ff#32, 0xa031#32),
      (0xe0ff#32, 0xc031#32)]
  | 0x19#7 => [(0xe0ff#32, 0x33#32),
      (0xe0ff#32, 0x2033#32),
      (0xe0ff#32, 0x4033#32),
      (0xe0ff#32, 0x6033#32)]
  | 0x1a#7 => [(0xff#32, 0x35#32)]
  | 0x1b#7 => [(0xff#32, 0x37#32)]
  | 0x1c#7 => [(0xe00080ff#32, 0x39#32),
      (0xe00080ff#32, 0x20000039#32),
      (0xf80080ff#32, 0x40000039#32),
      (0xf80080ff#32, 0x60000039#32)]
  | 0x1d#7 => [(0xffff#32, 0x3b#32),
      (0xffff#32, 0x203b#32),
      (0xffff#32, 0x403b#32),
      (0xffff#32, 0x603b#32),
      (0xffff#32, 0x803b#32),
      (0xffff#32, 0xa03b#32)]
  | 0x20#7 => [(0xf00000ff#32, 0x41#32),
      (0xf00000ff#32, 0x10000041#32),
      (0xf00000ff#32, 0x20000041#32),
      (0xf00000ff#32, 0x30000041#32),
      (0xf00000ff#32, 0x40000041#32),
      (0xf00000ff#32, 0x50000041#32),
      (0xf00000ff#32, 0x60000041#32),
      (0xf00000ff#32, 0x70000041#32),
      (0xf00000ff#32, 0x80000041#32),
      (0xf00000ff#32, 0x90000041#32)]
  | 0x21#7 => [(0xf00000ff#32, 0x43#32),
      (0xf00000ff#32, 0x10000043#32),
      (0xf00000ff#32, 0x20000043#32),
      (0xf00000ff#32, 0x30000043#32),
      (0xf00000ff#32, 0x40000043#32),
      (0xf00000ff#32, 0x50000043#32),
      (0xf00000ff#32, 0x60000043#32),
      (0xf00000ff#32, 0x70000043#32),
      (0xf00000ff#32, 0x80000043#32),
      (0xf00000ff#32, 0x90000043#32)]
  | 0x22#7 => [(0xf00000ff#32, 0x45#32)]
  | 0x23#7 => [(0xff00c0ff#32, 0x4047#32)]
  | 0x24#7 => [(0xfc00d8ff#32, 0x4049#32)]
  | 0x25#7 => [(0xff1fffff#32, 0x4b#32),
      (0xff1fffff#32, 0x100004b#32),
      (0xff1fffff#32, 0x200004b#32),
      (0x31fffff#32, 0x204b#32)]
  | 0x26#7 => [(0xffe0c0ff#32, 0x4d#32),
      (0xfc00c0ff#32, 0x400004d#32),
      (0xfc00c0ff#32, 0x800004d#32),
      (0xffe0c0ff#32, 0xc00004d#32)]
  | 0x27#7 => [(0xfc00ffff#32, 0x4f#32),
      (0xfc00e0ff#32, 0x204f#32),
      (0xfc00ffff#32, 0x404f#32),
      (0xfc00e0ff#32, 0x604f#32)]
  | 0x28#7 => [(0xf800e0ff#32, 0x51#32),
      (0xffe0e0ff#32, 0x2051#32),
      (0xf800e0ff#32, 0x4051#32),
      (0xffffffff#32, 0x6051#32),
      (0xffffffff#32, 0x8051#32),
      (0xffe0e0ff#32, 0xa051#32),
      (0xffffffff#32, 0xc051#32)]
  | 0x29#7 => [(0xf000e0ff#32, 0x53#32),
      (0xfbe0ffff#32, 0x2053#32),
      (0xf7e0e0ff#32, 0x4053#32),
      (0xffffffff#32, 0x6053#32),
      (0xfffce0ff#32, 0x8053#32),
      (0xfffce0ff#32, 0xa053#32)]
  | 0x2b#7 => [(0xffe0e0ff#32, 0x57#32),
      (0xffe0e0ff#32, 0x2057#32),
      (0xffe0e0ff#32, 0x4057#32),
      (0xffe0e0ff#32, 0x6057#32)]
  | 0x30#7 => [(0xe00000ff#32, 0x61#32),
      (0xe00000ff#32, 0x20000061#32),
      (0xe00000ff#32, 0x40000061#32),
      (0xe00000ff#32, 0x60000061#32),
      (0xe00000ff#32, 0x80000061#32),
      (0xe00000ff#32, 0xa0000061#32),
      (0xe00000ff#32, 0xc0000061#32),
      (0xe00000ff#32, 0xe0000061#32)]
  | 0x31#7 => [(0xe00000ff#32, 0x63#32),
      (0xe00000ff#32, 0x20000063#32),
      (0xe00000ff#32, 0x40000063#32),
      (0xe00000ff#32, 0x60000063#32),
      (0xe00000ff#32, 0x80000063#32),
      (0xe00000ff#32, 0xa0000063#32),
      (0xe00000ff#32, 0xc0000063#32),
      (0xe00000ff#32, 0xe0000063#32)]
  | 0x32#7 => [(0xe00000ff#32, 0x65#32),
      (0xe00000ff#32, 0x20000065#32),
      (0xe00000ff#32, 0x40000065#32),
      (0xe00000ff#32, 0x60000065#32),
      (0xe00000ff#32, 0x80000065#32)]
  | 0x33#7 => [(0xf80000ff#32, 0x67#32),
      (0xf80000ff#32, 0x8000067#32),
      (0xf80000ff#32, 0x10000067#32),
      (0xf80000ff#32, 0x18000067#32),
      (0xf80000ff#32, 0x20000067#32)]
  | 0x34#7 => [(0xe00000ff#32, 0x69#32),
      (0xe00000ff#32, 0x20000069#32),
      (0xe00000ff#32, 0x40000069#32),
      (0xe00000ff#32, 0x60000069#32),
      (0xe00000ff#32, 0x80000069#32),
      (0xe00000ff#32, 0xa0000069#32),
      (0xe00000ff#32, 0xc0000069#32)]
  | 0x35#7 => [(0xe00000ff#32, 0x6b#32),
      (0xffc000ff#32, 0x2000006b#32)]
  | 0x37#7 => [(0xffc000ff#32, 0x6f#32),
      (0xffc000ff#32, 0x2000006f#32),
      (0xffc000ff#32, 0x4000006f#32),
      (0xffc000ff#32, 0x6000006f#32),
      (0xffc000ff#32, 0x8000006f#32),
      (0xffc000ff#32, 0xa000006f#32),
      (0xffc000ff#32, 0xc000006f#32)]
  | 0x38#7 => [(0xe00000ff#32, 0x71#32),
      (0xe00000ff#32, 0x20000071#32),
      (0xe00000ff#32, 0x40000071#32),
      (0xe00000ff#32, 0x60000071#32),
      (0xe00000ff#32, 0x80000071#32),
      (0xe00000ff#32, 0xa0000071#32),
      (0xe00000ff#32, 0xc0000071#32),
      (0xe00000ff#32, 0xe0000071#32)]
  | 0x39#7 => [(0xffc000ff#32, 0x73#32),
      (0xffc000ff#32, 0x20000073#32),
      (0xffc000ff#32, 0x40000073#32),
      (0xffc000ff#32, 0x60000073#32),
      (0xffc000ff#32, 0x80000073#32),
      (0xffc000ff#32, 0xa0000073#32),
      (0xffc000ff#32, 0xc0000073#32),
      (0xffc000ff#32, 0xe0000073#32)]
  | 0x3a#7 => [(0xe00000ff#32, 0x75#32),
      (0xe00000ff#32, 0x20000075#32),
      (0xe00000ff#32, 0x40000075#32),
      (0xe00000ff#32, 0x60000075#32)]
  | 0x3b#7 => [(0xffc000ff#32, 0x77#32),
      (0xe00000ff#32, 0x20000077#32),
      (0xffc000ff#32, 0x40000077#32),
      (0xffc000ff#32, 0x60000077#32),
      (0xe00000ff#32, 0x80000077#32),
      (0xffc000ff#32, 0xa0000077#32)]
  | 0x3c#7 => [(0xe00000ff#32, 0x79#32),
      (0xe00000ff#32, 0x20000079#32),
      (0xe00000ff#32, 0x40000079#32),
      (0xe00000ff#32, 0x60000079#32),
      (0xe00000ff#32, 0x80000079#32),
      (0xe00000ff#32, 0xa0000079#32),
      (0xffc000ff#32, 0xc0000079#32)]
  | 0x3d#7 => [(0xffc000ff#32, 0x7b#32),
      (0xf83f80ff#32, 0x800007b#32),
      (0xff3f80ff#32, 0x1000007b#32),
      (0xffc07fff#32, 0x1800007b#32),
      (0xf80000ff#32, 0x2000007b#32),
      (0xf80000ff#32, 0x2800007b#32)]
  | 0x50#7 => [(0xffffe0ff#32, 0xa1#32),
      (0xffffffff#32, 0x20a1#32),
      (0xffffe0ff#32, 0x40a1#32)]
  | 0x51#7 => [(0xfc00ffff#32, 0xa3#32),
      (0xfc00ffff#32, 0x20a3#32),
      (0xfc00ffff#32, 0x40a3#32),
      (0xfc00ffff#32, 0x60a3#32),
      (0xfc00ffff#32, 0x80a3#32),
      (0xfc00ffff#32, 0xa0a3#32),
      (0xfc00ffff#32, 0xc0a3#32),
      (0xffe0ffff#32, 0xe0a3#32)]
  | 0x52#7 => [(0xf3ffe0ff#32, 0xa5#32),
      (0xf3ffe0ff#32, 0x20a5#32),
      (0xf3ffe0ff#32, 0x40a5#32),
      (0xf3ffe0ff#32, 0x60a5#32),
      (0xf3ffe0ff#32, 0x80a5#32),
      (0xf3ffe0ff#32, 0xa0a5#32),
      (0xf3ffe0ff#32, 0xc0a5#32)]
  | 0x53#7 => [(0xf3e0e0ff#32, 0xa7#32),
      (0xf3e0e0ff#32, 0x20a7#32),
      (0xf3ffffff#32, 0x40a7#32),
      (0xf3ffe0ff#32, 0x60a7#32),
      (0xf3e0e0ff#32, 0x80a7#32),
      (0xf3ffe0ff#32, 0xa0a7#32)]
  | 0x60#7 => [(0x800000ff#32, 0xc1#32),
      (0x800000ff#32, 0x800000c1#32)]
  | 0x61#7 => [(0x1f0000ff#32, 0xc3#32)]
  | 0x62#7 => [(0x9fc000ff#32, 0xc5#32),
      (0x9fc000ff#32, 0x800000c5#32)]
  | 0x63#7 => [(0x9fc000ff#32, 0xc7#32)]
  | 0x64#7 => [(0xe0007fff#32, 0xc9#32)]
  | 0x65#7 => [(0xffffe0ff#32, 0xcb#32),
      (0xffffe0ff#32, 0x20cb#32),
      (0xfc00e0ff#32, 0x40cb#32),
      (0xfc00e0ff#32, 0x60cb#32)]
  | 0x66#7 => [(0xff#32, 0xcd#32)]
  | 0x68#7 => [(0xf000ffff#32, 0xd1#32),
      (0xffe0e0ff#32, 0x20d1#32),
      (0xffe0e0ff#32, 0x40d1#32),
      (0xf800e0ff#32, 0x60d1#32),
      (0xffe0e0ff#32, 0x80d1#32),
      (0xffe0ffff#32, 0xa0d1#32)]
  | 0x69#7 => [(0xf800ffff#32, 0xd3#32),
      (0xfc00ffff#32, 0x20d3#32),
      (0xfc00e0ff#32, 0x40d3#32),
      (0xffe0ffff#32, 0x60d3#32)]
  | 0x6a#7 => [(0xffffffff#32, 0xd5#32),
      (0xffffffff#32, 0x20d5#32),
      (0xffe0ffff#32, 0x40d5#32)]
  | 0x70#7 => [(0x1fffff#32, 0xe1#32),
      (0x1fffff#32, 0x20e1#32),
      (0xffffffff#32, 0x40e1#32),
      (0xffffffff#32, 0x60e1#32),
      (0x1fffff#32, 0x80e1#32)]
  | 0x71#7 => [(0xffe0ffff#32, 0xe3#32),
      (0xffffffff#32, 0x20e3#32),
      (0xfc00e0ff#32, 0x40e3#32)]
  | 0x72#7 => [(0xfc00e0ff#32, 0xe5#32),
      (0xfc00e0ff#32, 0x20e5#32),
      (0xffe0e0ff#32, 0x40e5#32),
      (0xfc00e0ff#32, 0x60e5#32)]
  | 0x73#7 => [(0xffe0e0ff#32, 0xe7#32),
      (0xffe0e0ff#32, 0x20e7#32)]
  | 0x78#7 => [(0xf00000ff#32, 0xf1#32)]
  | _ => []

/-- The operand checks of `wellFormed`, read from the word. -/
def legalOperands (w : BitVec 32) : Bool :=
  let d : Reg := fD w
  let a : Reg := fA w
  let b : Reg := fB w
  match fOp w with
  | 0x08#7 => !w.getLsbD 15 || !w.getLsbD 26
  | 0x14#7 => fF3 w != 0#3 || (imm11 w).extractLsb' 0 3 != 0#3
  | 0x22#7 => d.evenNZ && b.evenNZ
  | 0x25#7 => fF3 w != 1#3 || ((imm11 w).extractLsb' 5 3 != 7#3 && !w.getLsbD 31)
  | 0x26#7 => a.quad && (!w.getLsbD 13 || d != 0#5) && (b == 0#5 || b.quad) &&
      (fF6 w == 0#6 || fF6 w == 3#6 || b != 0#5)
  | 0x27#7 => fF3 w != 3#3 || decide (b.toNat < 4)
  | 0x28#7 => (fF3 w != 0#3 && fF3 w != 2#3) ||
      (decide (a.toNat ≤ 28) && b.even && (!w.getLsbD 26 || a != 0#5))
  | 0x29#7 => (fF3 w != 0#3 || (b.even && (w.getLsbD 27 || d == 0#5))) &&
      (fF3 w != 2#3 || (a.even && (w.getLsbD 27 || d == 0#5)))
  | 0x61#7 => decide (((fF3v w).extractLsb' 0 2).toNat < ((fVb w).extractLsb' 0 2).toNat)
  | 0x64#7 => Reg.evenNZ (fBv w)
  | 0x65#7 => fF3 w != 3#3 || b.even
  | 0x69#7 => (fF3 w != 0#3 && fF3 w != 1#3 || b.even) && (fF3 w != 2#3 || a.even)
  | 0x71#7 => fF3 w != 2#3 || b.evenNZ
  | 0x72#7 => fF3 w != 3#3 || b.evenNZ
  | _ => true

/-- The word is an instruction (R34). -/
def legalWord (w : BitVec 32) : Bool :=
  (opcodeRows (fOp w)).any (fun r => (w &&& r.1) == r.2) && legalOperands w

/-- The parcel is a compact instruction (R35, R37). -/
def legalParcel (p : BitVec 16) : Bool :=
  match cForm p with
  | 0#4 => false
  | 2#4 | 3#4 | 4#4 | 7#4 => cHi3 p == 0#3
  | 6#4 => !(cImm7 p).getLsbD 6
  | 13#4 => cImm7 p == 0#7
  | 14#4 => cOff11 p == 0#11
  | 15#4 => (cImm7 p).extractLsb' 2 5 == 0#5
  | _ => true

/-! ## Queue-program ops (R354) -/

def qOp (w : BitVec 32) : BitVec 6 := w.extractLsb' 0 6
def qW (w : BitVec 32) : BitVec 2 := w.extractLsb' 6 2
def qD (w : BitVec 32) : BitVec 4 := w.extractLsb' 8 4
def qA (w : BitVec 32) : BitVec 4 := w.extractLsb' 12 4
def qImm (w : BitVec 32) : BitVec 16 := w.extractLsb' 16 16

/-- A queue-program op. A field that the op does not use must be zero; the checks that need the whole program are made
when the queue is enabled. -/
noncomputable def decodeQueueOp (w : BitVec 32) : Except DecodeError Instr :=
  match qOp w with
  | 0x01#6 => checked (qA w == 0#4 && qW w == 0#2) (.qpLi (qD w) (qImm w))
  | 0x02#6 => checked (qA w == 0#4 && qW w == 0#2) (.qpLsh (qD w) (qImm w))
  | 0x03#6 => checked ((qImm w).extractLsb' 4 12 == 0#12 && qW w == 0#2) (.qpAdd (qD w) (qA w) ((qImm w).extractLsb' 0 4))
  | 0x04#6 => checked (qW w == 0#2) (.qpAddi (qD w) (qA w) (qImm w))
  | 0x05#6 => checked ((qImm w).extractLsb' 4 12 == 0#12 && qW w == 0#2) (.qpAnd (qD w) (qA w) ((qImm w).extractLsb' 0 4))
  | 0x06#6 => checked ((qImm w).extractLsb' 6 10 == 0#10 && qW w == 0#2) (.qpShr (qD w) (qA w) ((qImm w).extractLsb' 0 6))
  | 0x07#6 => .ok (.qpLd (qD w) (qA w) (qW w) (qImm w))
  | 0x08#6 => .ok (.qpSt (qD w) (qA w) (qW w) (qImm w))
  | 0x09#6 => checked (qW w == 0#2) (.qpBeq (qD w) (qA w) (qImm w))
  | 0x0a#6 => checked (qW w == 0#2) (.qpBne (qD w) (qA w) (qImm w))
  | 0x0b#6 => checked (qA w == 0#4 && qD w == 0#4 && qW w == 0#2) (.qpSetlc (qImm w))
  | 0x0c#6 => checked (qA w == 0#4 && qD w == 0#4 && qW w == 0#2) (.qpLoop (qImm w))
  | 0x0d#6 => checked (qImm w == 0#16) (.qpLaunch (qD w) (qA w) (qW w))
  | 0x0e#6 => checked ((qImm w).extractLsb' 4 12 == 0#12 && qD w == 0#4 && qW w == 0#2) (.qpDma (qA w) ((qImm w).extractLsb' 2 2) ((qImm w).extractLsb' 0 2))
  | 0x0f#6 => checked (qImm w == 0#16 && qA w == 0#4 && qD w == 0#4 && qW w == 0#2) (.qpDwait)
  | 0x10#6 => checked (qImm w == 0#16 && qW w == 0#2) (.qpLwait (qD w) (qA w))
  | 0x11#6 => .ok (.qpSignal (qD w) (qA w) (qW w) (qImm w))
  | 0x12#6 => checked (qA w == 0#4 && qD w == 0#4 && qW w == 0#2) (.qpIrq (qImm w))
  | 0x13#6 => checked (qImm w == 0#16 && qA w == 0#4 && qD w == 0#4 && qW w == 0#2) (.qpDone)
  | 0x14#6 => checked (qA w == 0#4 && qD w == 0#4 && qW w == 0#2) (.qpFail (qImm w))
  | _ => .error .unassignedQueueOp

/-! ## Bytes -/

/-- Joins two parcels, the first lower (R29). -/
def joinParcels (lo hi : BitVec 16) : BitVec 32 := hi ++ lo

/-- Joins two bytes, the first lower (R4, R29). -/
def joinBytes (lo hi : Byte) : BitVec 16 := hi ++ lo

/-- Reads one instruction from a list of bytes and answers it with the bytes that follow it (R29). -/
noncomputable def decodeBytes : List Byte → Except DecodeError (Instr × List Byte)
  | b0 :: b1 :: rest =>
    if b0.getLsbD 0 then
      match rest with
      | b2 :: b3 :: rest' => (decodeWord (joinParcels (joinBytes b0 b1) (joinBytes b2 b3))).map (fun i => (i, rest'))
      | _ => .error .truncated
    else (decodeParcel (joinBytes b0 b1)).map (fun i => (i, rest))
  | _ => .error .truncated

/-- Reads one queue-program op from four bytes, little-endian. -/
noncomputable def decodeQueueBytes : List Byte → Except DecodeError (Instr × List Byte)
  | b0 :: b1 :: b2 :: b3 :: rest =>
    (decodeQueueOp (joinParcels (joinBytes b0 b1) (joinBytes b2 b3))).map (fun i => (i, rest))
  | _ => .error .truncated

/-- The `n` bytes of `w`, the lowest first. -/
def bytesOfNat : Nat → Nat → List Byte
  | 0, _ => []
  | n + 1, w => BitVec.ofNat 8 w :: bytesOfNat n (w / 256)

/-- The instruction of a row of the opcode table whose bits are `w`. A 16-bit row is a compact form. A 32-bit row is a
core or handler word when its bit 0 is 1 and the core decoder takes it, and a queue-program op otherwise: the words of the
queue programs, which another agent reads, overlap the core's (log 5). -/
noncomputable def decodeTableWord (nbits w : Nat) : Option Instr :=
  let bs := bytesOfNat (nbits / 8) w
  let core := (decodeBytes bs).toOption.map Prod.fst
  let queue := (decodeQueueBytes bs).toOption.map Prod.fst
  if nbits = 16 then core
  else if w % 2 = 1 then core.or queue
  else queue

/-! ## The encoder -/

/-- Format A. -/
def fmtA (f6 : BitVec 6) (b a : BitVec 5) (f3 : BitVec 3) (d : BitVec 5) (op : BitVec 7) : BitVec 32 :=
  f6 ++ b ++ a ++ f3 ++ d ++ op ++ 1#1
/-- Format I. -/
def fmtI (imm : BitVec 14) (a d : BitVec 5) (op : BitVec 7) : BitVec 32 :=
  imm.extractLsb' 3 11 ++ a ++ imm.extractLsb' 0 3 ++ d ++ op ++ 1#1
/-- Format L. -/
def fmtL (imm : BitVec 11) (a : BitVec 5) (f3 : BitVec 3) (d : BitVec 5) (op : BitVec 7) : BitVec 32 :=
  imm ++ a ++ f3 ++ d ++ op ++ 1#1
/-- Formats S and B. -/
def fmtS (imm : BitVec 11) (b a : BitVec 5) (f3 : BitVec 3) (op : BitVec 7) : BitVec 32 :=
  imm.extractLsb' 5 6 ++ b ++ a ++ f3 ++ imm.extractLsb' 0 5 ++ op ++ 1#1
/-- Formats U and J. -/
def fmtU (imm : BitVec 19) (d : BitVec 5) (op : BitVec 7) : BitVec 32 := imm ++ d ++ op ++ 1#1
/-- Format REP. -/
def fmtRep (cnt : BitVec 8) (sd sa sb : BitVec 3) (op : BitVec 7) : BitVec 32 :=
  cnt ++ sd ++ sa ++ sb ++ 0#7 ++ op ++ 1#1
/-- Format V. -/
def fmtV (f3 : BitVec 3) (vb va vd : BitVec 7) (op : BitVec 7) : BitVec 32 := f3 ++ vb ++ va ++ vd ++ op ++ 1#1
/-- Format VS. -/
def fmtVS (f5 b : BitVec 5) (va vd : BitVec 7) (op : BitVec 7) : BitVec 32 := f5 ++ b ++ va ++ vd ++ op ++ 1#1
/-- Format VM. -/
def fmtVM (imm : BitVec 11) (a : BitVec 5) (nt : Bool) (vd : BitVec 7) (op : BitVec 7) : BitVec 32 :=
  imm ++ a ++ BitVec.ofBool nt ++ vd ++ op ++ 1#1
/-- Format VX. -/
def fmtVX (f3 : BitVec 3) (vb : BitVec 7) (st : Bool) (a : BitVec 5) (vd : BitVec 7) (op : BitVec 7) : BitVec 32 :=
  f3 ++ vb ++ BitVec.ofBool st ++ a ++ 0#1 ++ vd ++ op ++ 1#1
/-- Format P. -/
def fmtP (sp sc : BitVec 2) (sat : Bool) (rnd : BitVec 3) (cfmt bfmt afmt : BitVec 4) (op : BitVec 7) : BitVec 32 :=
  0#4 ++ sp ++ sc ++ BitVec.ofBool sat ++ rnd ++ cfmt ++ bfmt ++ afmt ++ op ++ 1#1
/-- A queue-program op. -/
def fmtQ (imm : BitVec 16) (a d : BitVec 4) (w : BitVec 2) (op : BitVec 6) : BitVec 32 := imm ++ a ++ d ++ w ++ op
/-- Bit 0 of f3 from a flag such as `.w` or `.nb`; the other two bits are zero. -/
def wBit (w : Bool) : BitVec 3 := 0#2 ++ BitVec.ofBool w

/-- The code of an instruction. -/
def encode : Instr → Code
  | .add d a b w => .word (fmtA 0#6 b a (wBit w) d 0x01#7)
  | .sub d a b w => .word (fmtA 1#6 b a (wBit w) d 0x01#7)
  | .and d a b w => .word (fmtA 2#6 b a (wBit w) d 0x01#7)
  | .or d a b w => .word (fmtA 3#6 b a (wBit w) d 0x01#7)
  | .xor d a b w => .word (fmtA 4#6 b a (wBit w) d 0x01#7)
  | .andn d a b w => .word (fmtA 5#6 b a (wBit w) d 0x01#7)
  | .sll d a b w => .word (fmtA 6#6 b a (wBit w) d 0x01#7)
  | .srl d a b w => .word (fmtA 7#6 b a (wBit w) d 0x01#7)
  | .sra d a b w => .word (fmtA 8#6 b a (wBit w) d 0x01#7)
  | .rol d a b w => .word (fmtA 9#6 b a (wBit w) d 0x01#7)
  | .ror d a b w => .word (fmtA 10#6 b a (wBit w) d 0x01#7)
  | .slt d a b w => .word (fmtA 11#6 b a (wBit w) d 0x01#7)
  | .sltu d a b w => .word (fmtA 12#6 b a (wBit w) d 0x01#7)
  | .min d a b w => .word (fmtA 13#6 b a (wBit w) d 0x01#7)
  | .max d a b w => .word (fmtA 14#6 b a (wBit w) d 0x01#7)
  | .minu d a b w => .word (fmtA 15#6 b a (wBit w) d 0x01#7)
  | .maxu d a b w => .word (fmtA 16#6 b a (wBit w) d 0x01#7)
  | .mul d a b w => .word (fmtA 17#6 b a (wBit w) d 0x01#7)
  | .mulh d a b w => .word (fmtA 18#6 b a (wBit w) d 0x01#7)
  | .mulhu d a b w => .word (fmtA 19#6 b a (wBit w) d 0x01#7)
  | .mulhsu d a b w => .word (fmtA 20#6 b a (wBit w) d 0x01#7)
  | .div d a b w => .word (fmtA 21#6 b a (wBit w) d 0x01#7)
  | .divu d a b w => .word (fmtA 22#6 b a (wBit w) d 0x01#7)
  | .rem d a b w => .word (fmtA 23#6 b a (wBit w) d 0x01#7)
  | .remu d a b w => .word (fmtA 24#6 b a (wBit w) d 0x01#7)
  | .sel d a b w => .word (fmtA 25#6 b a (wBit w) d 0x01#7)
  | .clz d a w => .word (fmtA 26#6 0#5 a (wBit w) d 0x01#7)
  | .ctz d a w => .word (fmtA 27#6 0#5 a (wBit w) d 0x01#7)
  | .popc d a w => .word (fmtA 28#6 0#5 a (wBit w) d 0x01#7)
  | .bswap d a w => .word (fmtA 29#6 0#5 a (wBit w) d 0x01#7)
  | .addi d a imm => .word (fmtI imm a d 0x2#7)
  | .andi d a imm => .word (fmtI imm a d 0x3#7)
  | .ori d a imm => .word (fmtI imm a d 0x4#7)
  | .xori d a imm => .word (fmtI imm a d 0x5#7)
  | .slti d a imm => .word (fmtI imm a d 0x6#7)
  | .sltui d a imm => .word (fmtI imm a d 0x7#7)
  | .slli d a sh w => .word (fmtL (0#5 ++ sh) a (BitVec.ofBool w ++ 0#2) d 0x08#7)
  | .srli d a sh w => .word (fmtL (0#5 ++ sh) a (BitVec.ofBool w ++ 1#2) d 0x08#7)
  | .srai d a sh w => .word (fmtL (0#5 ++ sh) a (BitVec.ofBool w ++ 2#2) d 0x08#7)
  | .rori d a sh w => .word (fmtL (0#5 ++ sh) a (BitVec.ofBool w ++ 3#2) d 0x08#7)
  | .ldhi d imm => .word (fmtU imm d 0x09#7)
  | .pcaddhi d imm => .word (fmtU imm d 0x0A#7)
  | .crd d n => .word (fmtL n 0#5 0#3 d 0x0B#7)
  | .cwr n a => .word (fmtL n a 1#3 0#5 0x0B#7)
  | .crs d n a => .word (fmtL n a 2#3 d 0x0B#7)
  | .crc d n a => .word (fmtL n a 3#3 d 0x0B#7)
  | .beq a b off => .word (fmtS off b a 0#3 0x10#7)
  | .bne a b off => .word (fmtS off b a 1#3 0x10#7)
  | .blt a b off => .word (fmtS off b a 2#3 0x10#7)
  | .bge a b off => .word (fmtS off b a 3#3 0x10#7)
  | .bltu a b off => .word (fmtS off b a 4#3 0x10#7)
  | .bgeu a b off => .word (fmtS off b a 5#3 0x10#7)
  | .jal d off => .word (fmtU off d 0x11#7)
  | .jalr d a imm => .word (fmtL imm a 0#3 d 0x12#7)
  | .rep cnt sd sa sb => .word (fmtRep cnt sd sa sb 0x13#7)
  | .gang d a w => .word (fmtL (0#8 ++ w) a 0#3 d 0x14#7)
  | .gangFormation _ => .noCode
  | .ungang => .word (fmtL 0#11 0#5 1#3 0#5 0x14#7)
  | .ldB d a imm => .word (fmtL imm a 0#3 d 0x18#7)
  | .ldH d a imm => .word (fmtL imm a 1#3 d 0x18#7)
  | .ldW d a imm => .word (fmtL imm a 2#3 d 0x18#7)
  | .ldD d a imm => .word (fmtL imm a 3#3 d 0x18#7)
  | .ldBz d a imm => .word (fmtL imm a 4#3 d 0x18#7)
  | .ldHz d a imm => .word (fmtL imm a 5#3 d 0x18#7)
  | .ldWz d a imm => .word (fmtL imm a 6#3 d 0x18#7)
  | .stB b a imm => .word (fmtS imm b a 0#3 0x19#7)
  | .stH b a imm => .word (fmtS imm b a 1#3 0x19#7)
  | .stW b a imm => .word (fmtS imm b a 2#3 0x19#7)
  | .stD b a imm => .word (fmtS imm b a 3#3 0x19#7)
  | .vld vd a imm nt => .word (fmtVM imm a nt vd 0x1A#7)
  | .vst vd a imm nt => .word (fmtVM imm a nt vd 0x1B#7)
  | .vldx vd a vb st => .word (fmtVX 0#3 vb st a vd 0x1C#7)
  | .vstx vd a vb st => .word (fmtVX 1#3 vb st a vd 0x1C#7)
  | .vlds vd a b st => .word (fmtVX 2#3 (0#2 ++ b) st a vd 0x1C#7)
  | .vsts vd a b st => .word (fmtVX 3#3 (0#2 ++ b) st a vd 0x1C#7)
  | .pref a imm => .word (fmtL imm a 0#3 0#5 0x1D#7)
  | .prefl2 a imm => .word (fmtL imm a 1#3 0#5 0x1D#7)
  | .discard a imm => .word (fmtL imm a 2#3 0#5 0x1D#7)
  | .flush a imm => .word (fmtL imm a 3#3 0#5 0x1D#7)
  | .clean a imm => .word (fmtL imm a 4#3 0#5 0x1D#7)
  | .inval a imm => .word (fmtL imm a 5#3 0#5 0x1D#7)
  | .amoaddW d b a ord scope => .word (fmtA (0#4 ++ ord) b a scope d 0x20#7)
  | .amoandW d b a ord scope => .word (fmtA (1#4 ++ ord) b a scope d 0x20#7)
  | .amoorW d b a ord scope => .word (fmtA (2#4 ++ ord) b a scope d 0x20#7)
  | .amoxorW d b a ord scope => .word (fmtA (3#4 ++ ord) b a scope d 0x20#7)
  | .amominW d b a ord scope => .word (fmtA (4#4 ++ ord) b a scope d 0x20#7)
  | .amomaxW d b a ord scope => .word (fmtA (5#4 ++ ord) b a scope d 0x20#7)
  | .amominuW d b a ord scope => .word (fmtA (6#4 ++ ord) b a scope d 0x20#7)
  | .amomaxuW d b a ord scope => .word (fmtA (7#4 ++ ord) b a scope d 0x20#7)
  | .amoswapW d b a ord scope => .word (fmtA (8#4 ++ ord) b a scope d 0x20#7)
  | .amocasW d b a ord scope => .word (fmtA (9#4 ++ ord) b a scope d 0x20#7)
  | .amoaddD d b a ord scope => .word (fmtA (0#4 ++ ord) b a scope d 0x21#7)
  | .amoandD d b a ord scope => .word (fmtA (1#4 ++ ord) b a scope d 0x21#7)
  | .amoorD d b a ord scope => .word (fmtA (2#4 ++ ord) b a scope d 0x21#7)
  | .amoxorD d b a ord scope => .word (fmtA (3#4 ++ ord) b a scope d 0x21#7)
  | .amominD d b a ord scope => .word (fmtA (4#4 ++ ord) b a scope d 0x21#7)
  | .amomaxD d b a ord scope => .word (fmtA (5#4 ++ ord) b a scope d 0x21#7)
  | .amominuD d b a ord scope => .word (fmtA (6#4 ++ ord) b a scope d 0x21#7)
  | .amomaxuD d b a ord scope => .word (fmtA (7#4 ++ ord) b a scope d 0x21#7)
  | .amoswapD d b a ord scope => .word (fmtA (8#4 ++ ord) b a scope d 0x21#7)
  | .amocasD d b a ord scope => .word (fmtA (9#4 ++ ord) b a scope d 0x21#7)
  | .cas128 d b a ord scope => .word (fmtA (0#4 ++ ord) b a scope d 0x22#7)
  | .atomicResult _ _ => .noCode
  | .ldacq d a scope dbl => .word (fmtL (0#8 ++ scope) a (1#2 ++ BitVec.ofBool dbl) d 0x23#7)
  | .strel b a scope dbl => .word (fmtA 0#6 b a (1#2 ++ BitVec.ofBool dbl) (0#2 ++ scope) 0x24#7)
  | .fenceAcq scope => .word (fmtL (0#6 ++ 0#2 ++ scope) 0#5 0#3 0#5 0x25#7)
  | .fenceRel scope => .word (fmtL (0#6 ++ 1#2 ++ scope) 0#5 0#3 0#5 0x25#7)
  | .fenceFull scope => .word (fmtL (0#6 ++ 2#2 ++ scope) 0#5 0#3 0#5 0x25#7)
  | .xfence p q scope => .word (fmtL (q ++ p ++ 0#2 ++ scope) 0#5 1#3 0#5 0x25#7)
  | .cpy d a nb => .word (fmtA 0#6 0#5 a (wBit nb) d 0x26#7)
  | .cpys d a b nb => .word (fmtA 1#6 b a (wBit nb) d 0x26#7)
  | .cpyg d a b nb => .word (fmtA 2#6 b a (wBit nb) d 0x26#7)
  | .cfill d a nb => .word (fmtA 3#6 0#5 a (wBit nb) d 0x26#7)
  | .copyStart _ => .noCode
  | .copyComplete _ _ => .noCode
  | .copyFault _ _ => .noCode
  | .notify a b => .word (fmtA 0#6 b a 0#3 0#5 0x27#7)
  | .syncw d a b => .word (fmtA 0#6 b a 1#3 d 0x27#7)
  | .syncinit a b => .word (fmtA 0#6 b a 2#3 0#5 0x27#7)
  | .syncrd d a sel => .word (fmtA 0#6 sel a 3#3 d 0x27#7)
  | .syncBlockPost _ => .noCode
  | .syncwRecheck _ _ => .noCode
  | .spawn d a b nb => .word (fmtA (0#5 ++ BitVec.ofBool nb) b a 0#3 d 0x28#7)
  | .join d a => .word (fmtA 0#6 0#5 a 1#3 d 0x28#7)
  | .joinRecheck _ _ => .noCode
  | .callat d a b nb => .word (fmtA (0#5 ++ BitVec.ofBool nb) b a 2#3 d 0x28#7)
  | .callatAccept _ _ => .noCode
  | .callatRetry _ _ => .noCode
  | .callatReply _ _ => .noCode
  | .remoteCallFailed _ _ _ => .noCode
  | .rett => .word (fmtA 0#6 0#5 0#5 3#3 0#5 0x28#7)
  | .yield => .word (fmtA 0#6 0#5 0#5 4#3 0#5 0x28#7)
  | .tcancel d a => .word (fmtA 0#6 0#5 a 5#3 d 0x28#7)
  | .taskCancelRequest _ _ => .noCode
  | .tend => .word (fmtA 0#6 0#5 0#5 6#3 0#5 0x28#7)
  | .joinCounterFailure _ => .noCode
  | .taskDispatch _ _ => .noCode
  | .taskSteal _ _ => .noCode
  | .send d a b port nb => .word (fmtA (0#4 ++ BitVec.ofBool nb ++ BitVec.ofBool port) b a 0#3 d 0x29#7)
  | .sendDelivery _ _ => .noCode
  | .sendRetry _ _ => .noCode
  | .sendTimeOut _ _ => .noCode
  | .sopen a port => .word (fmtA (0#5 ++ BitVec.ofBool port) 0#5 a 1#3 0#5 0x29#7)
  | .sput d a nb => .word (fmtA (0#4 ++ BitVec.ofBool nb ++ 0#1) 0#5 a 2#3 d 0x29#7)
  | .sclose => .word (fmtA 0#6 0#5 0#5 3#3 0#5 0x29#7)
  | .streamHeader _ _ => .noCode
  | .streamWord _ _ => .noCode
  | .streamCloseMarker _ _ => .noCode
  | .qpop d q => .word (fmtA 0#6 0#5 (0#3 ++ q) 4#3 d 0x29#7)
  | .qprobe d q => .word (fmtA 0#6 0#5 (0#3 ++ q) 5#3 d 0x29#7)
  | .barw d a => .word (fmtA 0#6 0#5 a 0#3 d 0x2B#7)
  | .barwa d a => .word (fmtA 0#6 0#5 a 1#3 d 0x2B#7)
  | .barww d a => .word (fmtA 0#6 0#5 a 2#3 d 0x2B#7)
  | .barwr d a => .word (fmtA 0#6 0#5 a 3#3 d 0x2B#7)
  | .barrierRelease _ _ => .noCode
  | .barrierTimeOut _ _ => .noCode
  | .vadd vd va vb => .word (fmtV 0#3 vb va vd 0x30#7)
  | .vsub vd va vb => .word (fmtV 1#3 vb va vd 0x30#7)
  | .vmul vd va vb => .word (fmtV 2#3 vb va vd 0x30#7)
  | .vmulh vd va vb => .word (fmtV 3#3 vb va vd 0x30#7)
  | .vmulhu vd va vb => .word (fmtV 4#3 vb va vd 0x30#7)
  | .vabsd vd va vb => .word (fmtV 5#3 vb va vd 0x30#7)
  | .vqadd vd va vb => .word (fmtV 6#3 vb va vd 0x30#7)
  | .vqsub vd va vb => .word (fmtV 7#3 vb va vd 0x30#7)
  | .vmin vd va vb => .word (fmtV 0#3 vb va vd 0x31#7)
  | .vmax vd va vb => .word (fmtV 1#3 vb va vd 0x31#7)
  | .vminu vd va vb => .word (fmtV 2#3 vb va vd 0x31#7)
  | .vmaxu vd va vb => .word (fmtV 3#3 vb va vd 0x31#7)
  | .vand vd va vb => .word (fmtV 4#3 vb va vd 0x31#7)
  | .vor vd va vb => .word (fmtV 5#3 vb va vd 0x31#7)
  | .vxor vd va vb => .word (fmtV 6#3 vb va vd 0x31#7)
  | .vandn vd va vb => .word (fmtV 7#3 vb va vd 0x31#7)
  | .vsll vd va vb => .word (fmtV 0#3 vb va vd 0x32#7)
  | .vsrl vd va vb => .word (fmtV 1#3 vb va vd 0x32#7)
  | .vsra vd va vb => .word (fmtV 2#3 vb va vd 0x32#7)
  | .vmac vd va vb => .word (fmtV 3#3 vb va vd 0x32#7)
  | .vdot4 vd va vb => .word (fmtV 4#3 vb va vd 0x32#7)
  | .vslls vd va b => .word (fmtVS 0#5 b va vd 0x33#7)
  | .vsrls vd va b => .word (fmtVS 1#5 b va vd 0x33#7)
  | .vsras vd va b => .word (fmtVS 2#5 b va vd 0x33#7)
  | .vadds vd va b => .word (fmtVS 3#5 b va vd 0x33#7)
  | .vmuls vd va b => .word (fmtVS 4#5 b va vd 0x33#7)
  | .vceq vd va vb => .word (fmtV 0#3 vb va vd 0x34#7)
  | .vcne vd va vb => .word (fmtV 1#3 vb va vd 0x34#7)
  | .vclt vd va vb => .word (fmtV 2#3 vb va vd 0x34#7)
  | .vcle vd va vb => .word (fmtV 3#3 vb va vd 0x34#7)
  | .vcltu vd va vb => .word (fmtV 4#3 vb va vd 0x34#7)
  | .vcleu vd va vb => .word (fmtV 5#3 vb va vd 0x34#7)
  | .vsel vd va vb => .word (fmtV 6#3 vb va vd 0x34#7)
  | .vperm vd va vb => .word (fmtV 0#3 vb va vd 0x35#7)
  | .vrev vd va => .word (fmtV 1#3 0#7 va vd 0x35#7)
  | .vredadd vd va => .word (fmtV 0#3 0#7 va vd 0x37#7)
  | .vredmin vd va => .word (fmtV 1#3 0#7 va vd 0x37#7)
  | .vredmax vd va => .word (fmtV 2#3 0#7 va vd 0x37#7)
  | .vredminu vd va => .word (fmtV 3#3 0#7 va vd 0x37#7)
  | .vredmaxu vd va => .word (fmtV 4#3 0#7 va vd 0x37#7)
  | .vfredadd vd va => .word (fmtV 5#3 0#7 va vd 0x37#7)
  | .vfredmax vd va => .word (fmtV 6#3 0#7 va vd 0x37#7)
  | .vfadd vd va vb => .word (fmtV 0#3 vb va vd 0x38#7)
  | .vfsub vd va vb => .word (fmtV 1#3 vb va vd 0x38#7)
  | .vfmul vd va vb => .word (fmtV 2#3 vb va vd 0x38#7)
  | .vfma vd va vb => .word (fmtV 3#3 vb va vd 0x38#7)
  | .vfms vd va vb => .word (fmtV 4#3 vb va vd 0x38#7)
  | .vfmin vd va vb => .word (fmtV 5#3 vb va vd 0x38#7)
  | .vfmax vd va vb => .word (fmtV 6#3 vb va vd 0x38#7)
  | .vfdiv vd va vb => .word (fmtV 7#3 vb va vd 0x38#7)
  | .vfsqrt vd va => .word (fmtV 0#3 0#7 va vd 0x39#7)
  | .vfrcp vd va => .word (fmtV 1#3 0#7 va vd 0x39#7)
  | .vfrsq vd va => .word (fmtV 2#3 0#7 va vd 0x39#7)
  | .vfexp2 vd va => .word (fmtV 3#3 0#7 va vd 0x39#7)
  | .vflog2 vd va => .word (fmtV 4#3 0#7 va vd 0x39#7)
  | .vfabs vd va => .word (fmtV 5#3 0#7 va vd 0x39#7)
  | .vfneg vd va => .word (fmtV 6#3 0#7 va vd 0x39#7)
  | .vfclass vd va => .word (fmtV 7#3 0#7 va vd 0x39#7)
  | .vfceq vd va vb => .word (fmtV 0#3 vb va vd 0x3a#7)
  | .vfclt vd va vb => .word (fmtV 1#3 vb va vd 0x3a#7)
  | .vfcle vd va vb => .word (fmtV 2#3 vb va vd 0x3a#7)
  | .vfcun vd va vb => .word (fmtV 3#3 vb va vd 0x3a#7)
  | .vcvt vd va => .word (fmtV 0#3 0#7 va vd 0x3b#7)
  | .vpack vd va vb => .word (fmtV 1#3 vb va vd 0x3b#7)
  | .vunpkl vd va => .word (fmtV 2#3 0#7 va vd 0x3b#7)
  | .vunpkh vd va => .word (fmtV 3#3 0#7 va vd 0x3b#7)
  | .vqnt4 vd va vb => .word (fmtV 4#3 vb va vd 0x3b#7)
  | .vdqnt4 vd va => .word (fmtV 5#3 0#7 va vd 0x3b#7)
  | .vmadd vd va vb => .word (fmtV 0#3 vb va vd 0x3c#7)
  | .vmsub vd va vb => .word (fmtV 1#3 vb va vd 0x3c#7)
  | .vmmul vd va vb => .word (fmtV 2#3 vb va vd 0x3c#7)
  | .vmmac vd va vb => .word (fmtV 3#3 vb va vd 0x3c#7)
  | .vntbf vd va vb => .word (fmtV 4#3 vb va vd 0x3c#7)
  | .vintbf vd va vb => .word (fmtV 5#3 vb va vd 0x3c#7)
  | .vmred vd va => .word (fmtV 6#3 0#7 va vd 0x3c#7)
  | .vmov vd va => .word (fmtVS 0#5 0#5 va vd 0x3D#7)
  | .vsplat vd b => .word (fmtVS 1#5 b 0#7 vd 0x3D#7)
  | .vqpop vd q => .word (fmtVS 2#5 (0#3 ++ q) 0#7 vd 0x3D#7)
  | .sputv va => .word (fmtVS 3#5 0#5 va 0#7 0x3D#7)
  | .vext b va idx => .word (fmtVS 4#5 b va idx 0x3D#7)
  | .vins vd b idx => .word (fmtVS 5#5 b idx vd 0x3D#7)
  | .fmt sp sc sat rnd cfmt bfmt afmt => .word (fmtP sp sc sat rnd cfmt bfmt afmt 0x78#7)
  | .mlease d => .word (fmtA 0#6 0#5 0#5 0#3 d 0x50#7)
  | .mrelease => .word (fmtA 0#6 0#5 0#5 1#3 0#5 0x50#7)
  | .mtry d => .word (fmtA 0#6 0#5 0#5 2#3 d 0x50#7)
  | .leaseGrant _ => .noCode
  | .leaseTimeLimit _ => .noCode
  | .leaseIdleEnd _ => .noCode
  | .leaseOverrunStop _ => .noCode
  | .mseta a b => .word (fmtA 0#6 b a 0#3 0#5 0x51#7)
  | .msetb a b => .word (fmtA 0#6 b a 1#3 0#5 0x51#7)
  | .msetc a b => .word (fmtA 0#6 b a 2#3 0#5 0x51#7)
  | .mscla a b => .word (fmtA 0#6 b a 3#3 0#5 0x51#7)
  | .msclb a b => .word (fmtA 0#6 b a 4#3 0#5 0x51#7)
  | .msetm a b => .word (fmtA 0#6 b a 5#3 0#5 0x51#7)
  | .mshape a b => .word (fmtA 0#6 b a 6#3 0#5 0x51#7)
  | .msync a => .word (fmtA 0#6 0#5 a 7#3 0#5 0x51#7)
  | .mma d t => .word (fmtA (0#4 ++ t) 0#5 0#5 0#3 d 0x52#7)
  | .mmaz d t => .word (fmtA (0#4 ++ t) 0#5 0#5 1#3 d 0x52#7)
  | .mmas d t => .word (fmtA (0#4 ++ t) 0#5 0#5 2#3 d 0x52#7)
  | .mmod d t => .word (fmtA (0#4 ++ t) 0#5 0#5 3#3 d 0x52#7)
  | .mntt d t => .word (fmtA (0#4 ++ t) 0#5 0#5 4#3 d 0x52#7)
  | .mintt d t => .word (fmtA (0#4 ++ t) 0#5 0#5 5#3 d 0x52#7)
  | .mtwid d t => .word (fmtA (0#4 ++ t) 0#5 0#5 6#3 d 0x52#7)
  | .matrixCommandStart _ _ _ => .noCode
  | .matrixCommandComplete _ _ _ => .noCode
  | .matrixSuspend _ _ _ _ => .noCode
  | .mdrain d a t => .word (fmtA (0#4 ++ t) 0#5 a 0#3 d 0x53#7)
  | .mdrainq d a t => .word (fmtA (0#4 ++ t) 0#5 a 1#3 d 0x53#7)
  | .mzero t => .word (fmtA (0#4 ++ t) 0#5 0#5 2#3 0#5 0x53#7)
  | .mresume d t => .word (fmtA (0#4 ++ t) 0#5 0#5 3#3 d 0x53#7)
  | .mstat d a t => .word (fmtA (0#4 ++ t) 0#5 a 4#3 d 0x53#7)
  | .mabort d t => .word (fmtA (0#4 ++ t) 0#5 0#5 5#3 d 0x53#7)
  | .drainComplete _ _ _ => .noCode
  | .drainqComplete _ _ _ => .noCode
  | .drainFault _ _ _ => .noCode
  | .gbadd vd va vb dim => .word (fmtV (0#1 ++ dim) vb va vd 0x60#7)
  | .gbsub vd va vb dim => .word (fmtV (1#1 ++ dim) vb va vd 0x60#7)
  | .gbschur vd va keep joint hi => .word (fmtV (BitVec.ofBool hi ++ keep) (0#5 ++ joint) va vd 0x61#7)
  | .gbsolve vd va dim => .word (fmtV (0#1 ++ dim) 0#7 va vd 0x62#7)
  | .gbsolveVar vd va dim => .word (fmtV (1#1 ++ dim) 0#7 va vd 0x62#7)
  | .gbdamp vd va dim => .word (fmtV (0#1 ++ dim) 0#7 va vd 0x63#7)
  | .gbsend va b dim => .word (fmtVS (0#3 ++ dim) b va 0#7 0x64#7)
  | .gbpoll d => .word (fmtA 0#6 0#5 0#5 0#3 d 0x65#7)
  | .gbpolln d => .word (fmtA 0#6 0#5 0#5 1#3 d 0x65#7)
  | .gbres d a b => .word (fmtA 0#6 b a 2#3 d 0x65#7)
  | .gbclr d a b => .word (fmtA 0#6 b a 3#3 d 0x65#7)
  | .mailboxConfigure _ _ => .noCode
  | .gbld vd a imm take => .word (fmtVM imm a take vd 0x66#7)
  | .mailboxDelivery _ _ => .noCode
  | .htag a b tag => .word (fmtA (0#4 ++ tag) b a 0#3 0#5 0x68#7)
  | .htagrd d a => .word (fmtA 0#6 0#5 a 1#3 d 0x68#7)
  | .hdirrd d a => .word (fmtA 0#6 0#5 a 2#3 d 0x68#7)
  | .hdirwr d a b o => .word (fmtA (0#5 ++ BitVec.ofBool o) b a 3#3 d 0x68#7)
  | .hbusy d a => .word (fmtA 0#6 0#5 a 4#3 d 0x68#7)
  | .hfree a => .word (fmtA 0#6 0#5 a 5#3 0#5 0x68#7)
  | .hsendReq a b pp => .word (fmtA (0#5 ++ BitVec.ofBool pp) b a 0#3 0#5 0x69#7)
  | .hsendRep a b => .word (fmtA 0#6 b a 1#3 0#5 0x69#7)
  | .hblk d a b => .word (fmtA 0#6 b a 2#3 d 0x69#7)
  | .hblkComplete _ => .noCode
  | .hresume a => .word (fmtA 0#6 0#5 a 3#3 0#5 0x69#7)
  | .hend => .word (fmtA 0#6 0#5 0#5 0#3 0#5 0x6A#7)
  | .hdefer => .word (fmtA 0#6 0#5 0#5 1#3 0#5 0x6A#7)
  | .hfault a => .word (fmtA 0#6 0#5 a 2#3 0#5 0x6A#7)
  | .handlerWatchdog _ _ => .noCode
  | .requestDeferred _ => .noCode
  | .handlerRd _ _ => .noCode
  | .handlerWr _ _ => .noCode
  | .handlerAmo _ _ => .noCode
  | .handlerWb _ _ => .noCode
  | .handlerEvs _ _ => .noCode
  | .handlerHint _ _ => .noCode
  | .handlerDone _ _ => .noCode
  | .handlerRecall _ _ => .noCode
  | .handlerProxyTag _ _ => .noCode
  | .handlerGrant _ _ => .noCode
  | .handlerBlkdone _ _ => .noCode
  | .handlerProtocolMsg _ _ => .noCode
  | .tagChange _ => .noCode
  | .tagAck _ => .noCode
  | .grantReceive _ => .noCode
  | .releaseNotice _ => .noCode
  | .resumeReceive _ => .noCode
  | .accessRefused _ => .noCode
  | .peerAckSubstitute _ => .noCode
  | .loadFill _ _ => .noCode
  | .storePerform _ _ => .noCode
  | .mergeWindowClose _ => .noCode
  | .pageWalk _ => .noCode
  | .remoteOutcome _ _ _ => .noCode
  | .remoteTimeOut _ _ => .noCode
  | .trap imm => .word (fmtL imm 0#5 0#3 0#5 0x70#7)
  | .sysc imm => .word (fmtL imm 0#5 1#3 0#5 0x70#7)
  | .tret => .word (fmtL 0#11 0#5 2#3 0#5 0x70#7)
  | .wfe => .word (fmtL 0#11 0#5 3#3 0#5 0x70#7)
  | .brk imm => .word (fmtL imm 0#5 4#3 0#5 0x70#7)
  | .eventInterrupt _ => .noCode
  | .tlbinv a => .word (fmtA 0#6 0#5 a 0#3 0#5 0x71#7)
  | .tlbinva => .word (fmtA 0#6 0#5 0#5 1#3 0#5 0x71#7)
  | .rgnwr d a b => .word (fmtA 0#6 b a 2#3 d 0x71#7)
  | .ctxsave d a b => .word (fmtA 0#6 b a 0#3 d 0x72#7)
  | .ctxload d a b => .word (fmtA 0#6 b a 1#3 d 0x72#7)
  | .ctxstat d a => .word (fmtA 0#6 0#5 a 2#3 d 0x72#7)
  | .gswitch d a b => .word (fmtA 0#6 b a 3#3 d 0x72#7)
  | .gangSwitchAgreement _ => .noCode
  | .gangSwitchStop _ => .noCode
  | .contextImageWrite _ => .noCode
  | .contextRestore _ => .noCode
  | .guestOpPause _ => .noCode
  | .guestOpContinue _ => .noCode
  | .fatalStop _ _ => .noCode
  | .haltTreeStop _ => .noCode
  | .launch d a => .word (fmtA 0#6 0#5 a 0#3 d 0x73#7)
  | .lcancel d a => .word (fmtA 0#6 0#5 a 1#3 d 0x73#7)
  | .distributorRound => .noCode
  | .launchLoad _ => .noCode
  | .launchEnd _ => .noCode
  | .powerDecision => .noCode
  | .clockBoundary => .noCode
  | .dramRefresh _ _ => .noCode
  | .stackTempSample _ _ _ => .noCode
  | .packageReset _ => .noCode
  | .recoveryDoorbell _ => .noCode
  | .raiseSecurityVersion => .noCode
  | .queueEnable _ _ => .noCode
  | .queueDisable _ _ => .noCode
  | .queueReset _ _ => .noCode
  | .queueDescriptorWrite _ _ _ _ => .noCode
  | .doorbellWrite _ _ _ => .noCode
  | .queuePacketStart => .noCode
  | .packetStepLimit _ _ => .noCode
  | .qpLi d imm => .queueOp (fmtQ imm 0#4 d 0#2 0x01#6)
  | .qpLsh d imm => .queueOp (fmtQ imm 0#4 d 0#2 0x02#6)
  | .qpAdd d a n => .queueOp (fmtQ (0#12 ++ n) a d 0#2 0x03#6)
  | .qpAddi d a imm => .queueOp (fmtQ imm a d 0#2 0x04#6)
  | .qpAnd d a n => .queueOp (fmtQ (0#12 ++ n) a d 0#2 0x05#6)
  | .qpShr d a s => .queueOp (fmtQ (0#10 ++ s) a d 0#2 0x06#6)
  | .qpLd d a w imm => .queueOp (fmtQ imm a d w 0x07#6)
  | .qpSt d a w imm => .queueOp (fmtQ imm a d w 0x08#6)
  | .qpBeq d a imm => .queueOp (fmtQ imm a d 0#2 0x09#6)
  | .qpBne d a imm => .queueOp (fmtQ imm a d 0#2 0x0A#6)
  | .qpSetlc imm => .queueOp (fmtQ imm 0#4 0#4 0#2 0x0B#6)
  | .qpLoop imm => .queueOp (fmtQ imm 0#4 0#4 0#2 0x0C#6)
  | .qpLaunch d a w => .queueOp (fmtQ 0#16 a d w 0x0D#6)
  | .qpDma a ws wd => .queueOp (fmtQ (0#12 ++ ws ++ wd) a 0#4 0#2 0x0E#6)
  | .qpDwait => .queueOp (fmtQ 0#16 0#4 0#4 0#2 0x0F#6)
  | .qpLwait d a => .queueOp (fmtQ 0#16 a d 0#2 0x10#6)
  | .qpSignal d a w imm => .queueOp (fmtQ imm a d w 0x11#6)
  | .qpIrq imm => .queueOp (fmtQ imm 0#4 0#4 0#2 0x12#6)
  | .qpDone => .queueOp (fmtQ 0#16 0#4 0#4 0#2 0x13#6)
  | .qpFail imm => .queueOp (fmtQ imm 0#4 0#4 0#2 0x14#6)
  | .dmaComplete _ _ _ => .noCode
  | .tdiConfigViolation _ => .noCode
  | .tdispStopInterface _ _ => .noCode
  | .functionLevelReset _ => .noCode
  | .nonIdeRequest _ => .noCode
  | .setPowerCap _ => .noCode
  | .fabricMapUpdate _ => .noCode
  | .vfBinding _ _ => .noCode
  | .vtimeSet _ _ _ => .noCode
  | .laneWeak _ _ _ _ => .noCode
  | .quietPointTimeout _ => .noCode
  | .laneSwapMarker _ => .noCode
  | .rekeyDue _ => .noCode
  | .linkKeyLoad _ => .noCode
  | .keySwitchMarker _ => .noCode
  | .keyExhausted _ => .noCode
  | .keyDownTimeout _ => .noCode
  | .flitAuthFail _ _ => .noCode
  | .replayRequest _ _ => .noCode
  | .linkKeyUpdate _ _ => .noCode
  | .getMeasurements _ _ => .noCode
  | .keyDeliver _ _ _ => .noCode
  | .policyKey _ _ => .noCode
  | .sessionEnd _ => .noCode
  | .operatorCounterRead _ _ _ _ => .noCode
  | .pcSample _ => .noCode
  | .debugStop _ _ => .noCode
  | .operatorDebugCommand _ _ _ => .noCode
  | .obsRawCounter _ _ => .noCode
  | .obsRecordRing _ _ => .noCode
  | .obsSetBreakpoint _ _ => .noCode
  | .obsDebugResume _ _ => .noCode
  | .freeze => .noCode
  | .unfreeze => .noCode
  | .freezeMarker _ => .noCode
  | .thawMarker _ => .noCode
  | .freezeMarkerExpiry _ => .noCode
  | .correctedError _ => .noCode
  | .dramRowRepair _ => .noCode
  | .l2WayRepair _ => .noCode
  | .uncorrectedError _ => .noCode
  | .pldmMonitor _ => .noCode
  | .cAddi d imm => .parcel (imm ++ d ++ 1#4 ++ 0#1)
  | .cAdd d a => .parcel (0#3 ++ a ++ d ++ 2#4 ++ 0#1)
  | .cSub d a => .parcel (0#3 ++ a ++ d ++ 3#4 ++ 0#1)
  | .cMov d a => .parcel (0#3 ++ a ++ d ++ 4#4 ++ 0#1)
  | .cLi d imm => .parcel (imm ++ d ++ 5#4 ++ 0#1)
  | .cSlli d sh => .parcel (0#1 ++ sh ++ d ++ 6#4 ++ 0#1)
  | .cAnd d a => .parcel (0#3 ++ a ++ d ++ 7#4 ++ 0#1)
  | .cLdD d a off => .parcel (off ++ a ++ d ++ 8#4 ++ 0#1)
  | .cStD b a off => .parcel (off ++ a ++ b ++ 9#4 ++ 0#1)
  | .cBeqz a off => .parcel (off ++ a ++ 10#4 ++ 0#1)
  | .cBnez a off => .parcel (off ++ a ++ 11#4 ++ 0#1)
  | .cJ off => .parcel (off ++ 12#4 ++ 0#1)
  | .cJr a => .parcel (0#7 ++ a ++ 13#4 ++ 0#1)
  | .cNop => .parcel (0#11 ++ 14#4 ++ 0#1)
  | .cQpop d q => .parcel (0#5 ++ q ++ d ++ 15#4 ++ 0#1)
  | .tdiConfigLock _ _ => .noCode
  | .tdiRunStart _ _ => .noCode
  | .ideKmKeyProgram _ _ _ _ => .noCode
  | .spdmSessionStart _ => .noCode
  | .counterBucketBoundary _ _ => .noCode

end Sys2Proof
end

