-- ==== Sys2Proof/Machine/State.lean ====
section
/-! DEFINITION. The state of the machine: plain data, everything the spec gives the KX4, and the state right after reset.
Tables that are sparse in practice (threads, cores, clusters, PPs) are lists of keyed records; a key that no record of the
list has reads as the record of a unit right after reset. -/

namespace Sys2Proof.Machine

open Sys2Proof

/-! ## Threads -/

/-- Which hardware thread: a barrel slot of a core (R14), or a handler thread of a PP (R281). -/
inductive Who where
  | core (c : CoreId) (slot : Nat)
  | pp (p : PpId) (tid : Nat)
  deriving DecidableEq, Repr, Inhabited

/-- Occupancy of a slot: vacant (R14), holding a thread, stopped by a fatal trap (R319), or removed by a debug stop (R378). -/
inductive Life where
  | vacant
  | live
  | stopped
  | debug
  deriving DecidableEq, Repr, Inhabited

/-- The kind of an access, as the rights of R144 tell them apart. -/
inductive Right where
  | read
  | write
  | fetch
  deriving DecidableEq, Repr, Inhabited

/-- Why an address fails its checks (R155). -/
inductive MemFault where
  | alignment
  | addressForm
  | page
  | tableFormat
  | permission
  | physical
  | protection
  deriving DecidableEq, Repr, Inhabited

/-- What an access of the core path does at its target (R151, R182 to R186). -/
inductive AccKind where
  | load
  | store
  | amo (op : Nat)
  deriving DecidableEq, Repr, Inhabited

/-- Where the result of an access goes. -/
inductive Dest where
  | nowhere
  /-- Index into `Hart.x`. -/
  | scalar (i : Nat)
  /-- Two scalar registers, for `cas128`. -/
  | pair (i j : Nat)
  | vector (j : Nat)
  deriving DecidableEq, Repr, Inhabited

/-- The region attributes of an access (R275, R277): binding, argument, home, flags. -/
structure Region where
  ctx : CtxNo
  proto : Nat
  arg : Nat
  /-- The physical address whose channel is the home (R275, home policy). -/
  homePa : Nat
  evs : Bool
  hint : Bool
  deriving DecidableEq, Repr, Inhabited

/-- What a write or a message covers (R174): releasing threads, scopes, and numbers of writes. -/
abbrev Cover := List (Who × Nat × Nat)

/-- One access: an element of a vector instruction (R153) or the whole of another one. -/
structure Access where
  slot : Nat
  kind : AccKind
  va : Nat
  pa : Nat
  size : Nat
  /-- Of a store or an atomic, the operand. Of a load, the bytes forwarded from older stores of its slot (R148). -/
  data : Nat
  /-- Of a compare-and-swap, the expected value. Of a load, which bytes of `data` count. -/
  expect : Nat
  uncached : Bool
  region : Region
  /-- Bypass the L1 (`nt`, R152). -/
  nt : Bool
  /-- Of a write, its number, and what it covers when it is a release (R174). -/
  stamp : Nat := 0
  cover : Cover := []
  /-- Of a read, the scope of an acquire (R173). -/
  acquire : Option Nat := .none
  /-- The value of `State.turn` when it was issued (R177). -/
  issued : Nat := 0
  deriving DecidableEq, Repr, Inhabited

/-- What has to free, or to be over, before an instruction that waits out of the rotation is executed again. -/
inductive Room where
  /-- An entry of the own task queue; a reply tag and an entry of the call buffer (R113, R114). -/
  | tasks
  | calls
  /-- An entry of the walk queue of the die, or a walk to join, for an address (R145). -/
  | walks (va : Nat)
  /-- An entry of the cluster's copy queue, its send queue, or a bank's command queue (R160, R218, R266). -/
  | copies
  | sends
  | commands (cl : ClusterId) (bank : Nat)
  /-- The thread's accesses are over at a scope (R177). -/
  | quiet (scope : Nat)
  /-- No access uses a dropped translation: those of a page, or of the whole context (R318). -/
  | unused (va : Option Nat)
  /-- A recall of the thread's `rgnwr` can begin, or is over (R276). -/
  | recall
  /-- The context engine is done with a context (R326). -/
  | image (ctx : CtxNo)
  /-- A launch has ended (R340). -/
  | launch (num : LaunchNo)
  deriving DecidableEq, Repr, Inhabited

/-- What a waiting thread waits for (R108). -/
inductive Wait where
  /-- In the rotation. -/
  | none
  /-- A scalar register (index into `Hart.x`) that a producer has still to fill. -/
  | scalar (i : Nat)
  /-- A vector register that a producer has still to fill. -/
  | vector (j : Nat)
  /-- An entry of queue register q0 to q3, and the register that it goes to. -/
  | queue (q : Nat) (d : Dest)
  /-- A translation: the walk that covers the address ends (R145). -/
  | walk (va : Nat) (r : Right)
  /-- The home's handler, after which a scatter is judged again (R150, R153). -/
  | tag (rtag : Nat)
  /-- Not ready, and in the rotation: the instruction is executed again (a store-buffer entry, a miss slot, a fence, a unit). -/
  | again
  /-- Likewise, on a full store buffer or full miss slots (R148, R375). -/
  | full
  /-- Out of the rotation until something frees; then the instruction is executed again (R108, R145, R160, R218, R266, R276). -/
  | room (r : Room)
  /-- The completion of an access: one suspended for its tag, a remote one, an acquire load (R150, R166, R186). -/
  | access
  /-- The outcome of a message or a cancel request (R126, R129, R122). -/
  | outcome
  /-- A join counter that was above zero (R120), and where its value goes. -/
  | join (a : Access) (d : Dest)
  /-- The status of a cancel request for a handle (R122). -/
  | cancel (handle : Word) (d : Reg)
  /-- A claim or room on the route of the thread's stream (R129). -/
  | put
  /-- The release of a phase on a barrier channel (R137, R138). -/
  | barrier (ch : Nat) (phase : Nat) (d : Reg)
  /-- A held barrier arrival, by `barwa` or not: the release of the phase before it (R138). -/
  | barrierHeld (ch : Nat) (goesOn : Bool) (d : Reg)
  /-- A sync block's generation (R164): physical address, the generation compared with, where its value goes, and whether the
  sync unit holds a waiter record. -/
  | sync (pa : Nat) (gen : Nat) (d : Reg) (recorded : Bool)
  /-- A matrix lease, and the register that says it is held (R212). -/
  | lease (d : Reg)
  /-- `mrelease`: the compute commands of a bank queued before the given number (R212). -/
  | mrelease (cl : ClusterId) (bank : Nat) (below : Nat)
  /-- `mabort`: the commands of a tile that are still stopping, how many are aborted, and where the number goes (R236). -/
  | mabort (cl : ClusterId) (bank : Nat) (tile : Nat) (count : Nat) (d : Reg)
  /-- The old value of an atomic (R184). -/
  | atomic
  /-- The store buffer, for a fence (R179): the threads' own stores, or those of every slot. -/
  | drain
  /-- `wfe` (R316). -/
  | event
  /-- Formation of a gang with this leader and width, the code going to register d (R102). -/
  | gang (leader : CoreId) (width : Nat) (d : Reg)
  /-- The last slot's `ungang` (R103). -/
  | ungang
  /-- `gbclr`: base, count, sync block, and where the status goes (R265). -/
  | mailbox (base count sync : Word) (d : Reg)
  /-- A request to the context engine, the management processor or the PPs that reports when done. -/
  | service (kind : Nat)
  /-- A fatal trap was taken, or (true) poisoned data was consumed (R386); the stop of R319 has still to reach the thread. -/
  | fatal (poison : Bool)
  deriving DecidableEq, Repr, Inhabited

/-- One captured instruction of a repeat frame (R97). -/
structure FrameInst where
  addr : Word
  word : BitVec 32
  len : Nat
  deriving DecidableEq, Repr, Inhabited

/-- An open stream (R129). -/
structure Stream where
  target : CoreId
  port : Bool
  /-- The header flit has claimed the route and the port. -/
  claimed : Bool
  /-- The claims were lost at a gang switch (R322). -/
  unrouted : Bool
  deriving DecidableEq, Repr, Inhabited

/-- The reply designation of a task: the caller's core, slot and register (an index into `Hart.x`), and the reply tag held
(R114, R115). -/
structure Reply where
  core : CoreId
  slot : Nat
  reg : Nat
  tag : Nat
  deriving DecidableEq, Repr, Inhabited

/-- What a running task reports at its end (R117). -/
structure TaskTag where
  reply : Option Reply
  join : Word
  /-- A peer package's `callat` sent the task: its reply goes there. -/
  away : Bool := false
  deriving DecidableEq, Repr, Inhabited

/-- The per-thread system registers that R50 names, with their reset values. -/
structure SysRegs where
  status : Word := 0
  tcause : Word := 0
  tval : Word := 0
  tepc : Word := 0
  pfx : Word := 0
  repst : Word := 0
  fflags : Word := 0
  temaskX : Word := 0
  temaskV : Vector Word 4 := Vector.replicate 4 0
  modq : Word := 0
  modk : Word := 0
  gbeps : Word := 0
  gbmode : Word := 0
  gbbeta : Word := 0
  barwRect : Word := 0
  barwCnt : Word := 0
  barwTo : Word := 0
  sendto : Word := 0x00100000
  launchid : Word := 0
  lvl : Vector Word 8 := Vector.replicate 8 0x0000000100000000
  deriving DecidableEq, Repr, Inhabited

/-- A message to a PP or a cache (R284, R293, R294). The fields a kind does not use are 0. -/
structure PpMsg where
  /-- Message type 0 to 63. -/
  type : Nat
  /-- Reply lane (true) or request lane. -/
  reply : Bool
  /-- Physical address of the block, 32-byte aligned. -/
  block : Nat
  /-- Requester's agent designation (R287). -/
  agent : Word
  /-- The physical address whose channel is the home (R275). -/
  home : Nat
  /-- Binding: context and protocol, with the region's argument byte. -/
  ctx : CtxNo
  proto : Nat
  arg : Nat
  /-- The region asks to be told of clean drops (R275). -/
  evs : Bool
  /-- Path code of R187, hint kind, read-only copy held, log2 of the access size. -/
  path : Nat
  hint : Nat
  holdsRo : Bool
  size : Nat
  /-- Payload of types 9 and 16 to 63, acknowledgement count of type 6, length of type 10. -/
  payload : Word
  /-- The directory entry removed by an eviction or by `rgnwr`, for type 7. -/
  removed : Word
  /-- The PP acts for a remote home (R306). -/
  proxy : Bool
  /-- The PP that sent it with `hsend.req`, to which a refusal returns (R302). -/
  sender : Option PpId
  /-- It counts as the acknowledgement of an `htag` (R294). -/
  ack : Bool := false
  /-- The D-cycle of its arrival (R285, R346). -/
  at' : Nat := 0
  /-- It stands in the request queue again after a block was freed, ahead of any new request for its own (R292). -/
  replayed : Bool := false
  deriving DecidableEq, Repr, Inhabited

/-- What a handler thread keeps beside its registers (R286, R297 to R301). -/
structure HandlerCtx where
  msg : PpMsg
  /-- Which queue the message came from: 0 request, 1 forward, 2 reply. -/
  lane : Nat
  steps : Nat
  /-- The handler's own `hbusy` succeeded, a counted `htag` was sent, an `hfree` was executed. -/
  ownBusy : Bool
  counted : Bool
  freed : Bool
  /-- `hsend.req` used; reply-buffer entries used. -/
  sentReq : Bool
  replies : Nat
  deriving DecidableEq, Repr, Inhabited

/-- How an instruction of a thread ended, which gangs and the profiler read. -/
inductive Ended where
  | done
  | waited
  | trapped
  deriving DecidableEq, Repr, Inhabited

/-- A hardware thread. -/
structure Hart where
  who : Who
  life : Life := .vacant
  wait : Wait := .none
  /-- x0 to x31, and at index 32 the S bank of x31 (R311). Index 0 is never written. -/
  x : Vector Word 33 := Vector.replicate 33 0
  /-- Bit i is 1 when the register is empty (R16), and when it is empty and marked refused (R302). -/
  xe : BitVec 33 := 0
  xr : BitVec 33 := 0
  v : Vector Vec 128 := Vector.replicate 128 0
  ve : BitVec 128 := 0
  vr : BitVec 128 := 0
  pc : Word := 0
  /-- The instruction word being executed, zero-extended for a compact form. -/
  word : BitVec 32 := 0
  /-- The prefix latch (R76). -/
  latch : Option (BitVec 32) := .none
  sys : SysRegs := {}
  /-- The sequencer buffer of an active repeat frame; empty outside one (R97). -/
  frame : List FrameInst := []
  /-- The generator of R72. -/
  rng : BitVec 32 := 0
  /-- The descriptor set (R215): eight pairs of words. -/
  desc : Vector Word 16 := Vector.replicate 16 0
  stream : Option Stream := .none
  task : TaskTag := ⟨.none, 0, false⟩
  /-- Phase of the latest `barwa` of each barrier channel since the last `barwr` (R137). -/
  barwa : Vector (Option Nat) 4 := Vector.replicate 4 .none
  handler : Option HandlerCtx := .none
  ended : Ended := .done
  /-- The fault that ended the latest walk for this thread: address, right, fault (R144). -/
  walkFault : Option (Nat × Right × MemFault) := .none
  /-- V-cycle count of the core when the instruction that waits for its stream first did so (R129). -/
  since : Option Nat := .none
  /-- It came back inside a frame: the sequencer is filled again before its next instruction (R100, R323). -/
  recapture : Bool := false
  /-- A debug stop was resumed: the next instruction is not stopped again (R378). -/
  resumed : Bool := false
  /-- A debug stop or a gang switch has moved the prefix latch to `pfx`; the thread loads it again when it goes on (R79). -/
  prefixSaved : Bool := false
  /-- In a gang, the part of the instruction that had to wait has landed, and the commit waits for the other members (R104,
  R105): the instruction's length, its destination, and what the destination held, should the gang discard it (R106). -/
  landed : Option (Nat × Dest × Nat) := .none
  /-- Virtual addresses of the elements of the current scatter that the home has performed (R153). -/
  elemsDone : List Nat := []
  /-- A debug command has named the thread, and one has asked for a debug stop that has not come yet (R378). -/
  debugger : Bool := false
  stopAsked : Bool := false
  /-- Class-0 counters (R375): issue, memory, message, vacant. -/
  counters : Vector (BitVec 48) 4 := Vector.replicate 4 0
  deriving DecidableEq, Repr, Inhabited

/-! ## Cores -/

/-- A line of the L1 (R147, R278). Its list order is the order of last use, most recent first. -/
structure Line where
  block : Nat
  tag : Nat
  dirty : Bool
  data : BitVec 256
  region : Region
  deriving DecidableEq, Repr, Inhabited

/-- A store or an atomic without a waited result, in the store buffer (R148, R184). -/
structure StoreEntry where
  acc : Access
  /-- The scope of a release, which leaves only after the accesses it orders (R186). -/
  release : Option Nat
  /-- Suspended at CK (R150): its thread waits for it, and its instruction has this many bytes. -/
  waits : Option Nat
  /-- The request of an atomic performed at the home. -/
  req : Option Nat
  /-- Performed at the home, or sent to its peer, at this device time; the outcome is outstanding. -/
  sent : Option Nat
  deriving DecidableEq, Repr, Inhabited

/-- A load whose data is outstanding (R109): its elements, and what each has read so far. -/
structure PendingLoad where
  slot : Nat
  dest : Dest
  /-- Sign-extend a scalar result. -/
  signed : Bool
  elems : List (Access × Option Nat)
  /-- Its thread waits for it (R150, R166, R302), and its instruction has this many bytes. -/
  waits : Option Nat
  /-- The device time at which it was issued (R166). -/
  sentAt : Nat
  /-- The read of a `join`, which goes on waiting while the value is above zero (R120). -/
  counter : Bool := false
  /-- Suspended for the tag of its lowest element that violates it; the other elements do nothing meanwhile (R153). -/
  suspended : Bool := false
  deriving DecidableEq, Repr, Inhabited

/-- An atomic whose thread waits for the old value (R184). -/
structure PendingAtomic where
  slot : Nat
  acc : Access
  dest : Dest
  /-- Its request, when the home performs it. -/
  req : Option Nat
  /-- The old value, once performed. -/
  result : Option Nat
  sentAt : Nat
  deriving DecidableEq, Repr, Inhabited

/-- A request of a core for a block (R279): a miss slot when `slotUsed`. -/
structure Request where
  rtag : Nat
  block : Nat
  type : Nat
  slotUsed : Bool
  /-- `pref` only: nothing waits on it. -/
  prefetch : Bool
  /-- The element whose suspended scatter is executed again once the tag is there, or without it when the home has performed the
  element (R153). -/
  retry : Option Access
  region : Region
  va : Nat
  size : Nat
  deriving DecidableEq, Repr, Inhabited

/-- A request of an engine of the core's cluster, counted as the lowest core's (R279, R287). -/
structure EngineRequest where
  rtag : Nat
  block : Nat
  write : Bool
  /-- Answered: the grant, or a refusal's code. -/
  granted : Bool
  refused : Option Nat
  /-- An access to a peer package: its operand or the value it read, when it was sent, and the reason it failed. -/
  remote : Bool := false
  pa : Nat := 0
  value : Nat := 0
  sentAt : Nat := 0
  failed : Option Nat := .none
  deriving DecidableEq, Repr, Inhabited

/-- Why an engine's access ends without its effect. -/
inductive EngineFail where
  | fault (f : MemFault)
  | refused (code : Nat)
  /-- The reason of R167, and the peer package. -/
  | remote (reason peer : Nat)
  | poison
  /-- What it read is malformed: a sparsity mask, a scale packet out of sequence, a value that is no root. -/
  | operand
  deriving DecidableEq, Repr, Inhabited

/-- A copy of a cluster's copy engine (R158 to R161). -/
structure Copy where
  id : Nat
  cl : ClusterId
  ctx : CtxNo
  /-- The issuing thread, and its level. -/
  core : CoreId
  slot : Nat
  user : Bool
  /-- 0 `cpy`, 1 `cpys`, 2 `cpyg`, 3 `cfill`. -/
  op : Nat
  dst : Word
  /-- Source, source base, or pattern. -/
  src : Word
  bytes : Nat
  rows : Nat
  srcStride : Word
  dstStride : Word
  table : Word
  /-- Physical address of the sync block, and the virtual address that names it. -/
  sync : Option Nat
  syncVa : Word := 0
  /-- Device time at which the post to a peer's block was sent. -/
  postedAt : Option Nat := .none
  ticket : Dest
  running : Bool := false
  /-- Rows finished, bytes moved of the row, and of `cpyg` the bytes of the row's index read so far, with their value. -/
  row : Nat := 0
  off : Nat := 0
  indexGot : Nat := 0
  index : Nat := 0
  /-- Bytes read and not yet written: count and value. -/
  buf : Option (Nat × Nat) := .none
  /-- The original bytes, by physical address, of what the copy has overwritten. -/
  orig : List Host.Cell := []
  /-- The request outstanding, by its tag. -/
  req : Option Nat := .none
  /-- Bytes performed. -/
  done : Nat := 0
  /-- The writes it has made, and those that an `xfence` orders before it (R180, R181). -/
  cover : List Nat := []
  /-- The first failure: ticket status, virtual address, and why; and the bytes of the access. -/
  fault : Option (Nat × Word × EngineFail) := .none
  faultSize : Nat := 0
  /-- The access that failed was a write. -/
  faultWrite : Bool := false
  deriving DecidableEq, Repr, Inhabited

/-- A post on its way to a sync unit (R163): block, bytes, status bits, whether the broken flag is set with it, and the thread
of a `notify`. -/
structure Post where
  pa : Nat
  bytes : Nat
  bits : Nat
  broken : Bool
  source : Option (CoreId × Nat)
  /-- The writes that it covers (R181), its path (R23), and the N-cycle of its arrival at the unit (R163). -/
  cover : List Nat := []
  path : Nat := 0
  arrives : Nat := 0
  deriving DecidableEq, Repr, Inhabited

/-! ## The matrix array (R209 to R249) -/

/-- What the last command issued to a tile made of it (R242); of a modular tile the modulus. -/
inductive TileKind where
  | zero
  | plain
  | modular (q : Nat)
  deriving DecidableEq, Repr, Inhabited

/-- An accumulator tile: 64 × 64 words, row by row, and its status (R209, R232 to R234). -/
structure Tile where
  words : Vector (BitVec 32) 4096 := Vector.replicate 4096 0
  kind : TileKind := .plain
  flags : BitVec 7 := 0
  iov : Bool := false
  cause : Nat := 0
  /-- Virtual address of the last stop. -/
  addr : Word := 0
  /-- A command was aborted, and none has started since. -/
  aborted : Bool := false
  /-- The last compute command was suspended or aborted (R226). -/
  incomplete : Bool := false
  /-- The progress point. -/
  kpos : Nat := 0
  row : Nat := 0
  deriving DecidableEq, Repr, Inhabited

/-- What a matrix command does: a compute command by its f3, or one of the tile port. -/
inductive MatrixOp where
  | compute (f3 : Nat)
  | drain
  | drainq
  | zero
  deriving DecidableEq, Repr, Inhabited

/-- One piece of a command's operands: the stream (A rows, B columns, their scales, masks, twiddles), the row or column, the
virtual address and the number of bytes, which lie in one 32-byte block. -/
structure Piece where
  stream : Nat
  line : Nat
  va : Nat
  bytes : Nat
  deriving DecidableEq, Repr, Inhabited

/-- A command in a bank's queue, with all that it captured at issue (R215, R218, R241). -/
structure MatrixCommand where
  id : Nat
  op : MatrixOp
  tile : Nat
  ctx : CtxNo
  /-- The thread that issued it, to which its accesses are attached (R180). -/
  core : CoreId
  slot : Nat
  user : Bool
  /-- Where its ticket goes: the thread that issued or resumed it last. -/
  toCore : CoreId
  toSlot : Nat
  ticket : Dest
  /-- The prefix word, and the control word of a drain. -/
  fmt : Option (BitVec 32)
  control : Word
  desc : Vector Word 16
  /-- The kind of the tile for this command: a modular command's own modulus, or what a drain finds. -/
  kind : TileKind
  /-- It found its tile of kind zero, whose accumulators read as 0 (R243). -/
  fromZero : Bool := false
  /-- The draw of an `rsr` command (R72). -/
  seed : Nat
  sync : Option Nat
  running : Bool := false
  begun : Bool := false
  suspended : Bool := false
  /-- `mabort` stops it once the writes it has issued are performed. -/
  aborting : Bool := false
  /-- The number of the lease of which it has taken a unit, and the M-cycle count at which the lease that it still runs under
  ended (R213). -/
  charged : Option Nat := .none
  overSince : Option Nat := .none
  /-- Row groups or block steps completed since this issue or resume. -/
  groups : Nat := 0
  epoch : Nat := 0
  /-- Operand pieces read and not yet used up, and requests outstanding by their tags. -/
  got : List (Piece × Nat) := []
  reqs : List (Piece × Nat) := []
  /-- Of a transform, the blocks resolved for the writes of its block step, with their physical addresses. -/
  ready : List (Piece × Nat × Bool) := []
  /-- Pieces written, by number, and how many bytes. -/
  put : List Nat := []
  bytes : Nat := 0
  /-- As for a copy (R180, R181). -/
  cover : List Nat := []
  /-- A compute command has no row group left. -/
  finished : Bool := false
  /-- The failure met: cause code of R232, virtual address, and why; and the bytes of the access. -/
  failed : Option (Nat × Word × EngineFail) := .none
  failedSize : Nat := 0
  deriving DecidableEq, Repr, Inhabited

/-- A bank of a matrix array with the lease of its partition (R209, R211, R233). -/
structure Bank where
  tiles : Vector Tile 4 := Vector.replicate 4 {}
  queue : List MatrixCommand := []
  /-- The number of the next command. -/
  next : Nat := 0
  /-- `mlease`: 0 none, 1 requested, 2 held; weight, units left, and the limits for the next grant. -/
  lease : Nat := 0
  weight : Nat := 1
  left : Nat := 0
  tlim : Nat := 0
  max : Nat := 0
  credit : Int := 0
  /-- The tile that `mprog` shows. -/
  shown : Nat := 0
  /-- A command has entered the queue since the partition was placed (R238). -/
  used : Bool := false
  deriving DecidableEq, Repr, Inhabited

/-- A matrix array with its lease arbiter (R209, R213, R214, R346). -/
structure MatrixArray where
  cl : ClusterId
  banks : Vector Bank 2 := Vector.replicate 2 {}
  /-- The bank that holds the lease, and the one that held the lease before. -/
  holder : Option Nat := .none
  last : Option Nat := .none
  /-- A bank whose lease has ended while another competes: the arbiter has still to grant. -/
  ending : Option Nat := .none
  /-- Leases granted so far, and the tenant that took the previous reserved grant. -/
  grants : Nat := 0
  reserved : Option TenantNo := .none
  /-- M-cycle counts of the holder's partition: at the grant, and since when it has been idle while another competes. -/
  grantedAt : Nat := 0
  limit : Nat := 0
  idleSince : Option Nat := .none
  deriving DecidableEq, Repr, Inhabited

/-- A task queue entry (text before R111). -/
structure TaskEntry where
  index : Nat
  pc : Word
  args : Vector Word 4
  tag : TaskTag
  pinned : Bool
  launch : LaunchNo
  /-- The writes that the release of its spawn or call covers (R113, R114). -/
  cover : List Nat := []
  deriving DecidableEq, Repr, Inhabited

/-- A task in the call buffer (R115). -/
structure CallEntry where
  slot : Nat
  pc : Word
  args : Vector Word 4
  target : Word
  reply : Option Reply
  /-- Refused by a full queue: the N-cycle after which the core tries again. -/
  retryAt : Nat
  /-- Sent to a peer package; its outcome is outstanding since this device time. -/
  sentAt : Option Nat
  cover : List Nat := []
  /-- The number of the write that the thread would have made next: what it orders has a smaller one. -/
  stamp : Nat := 0
  deriving DecidableEq, Repr, Inhabited

/-- A word that a thread sends by `send` while it waits for the outcome (R126). -/
structure Sending where
  slot : Nat
  target : CoreId
  port : Bool
  word : Vec
  /-- `.nb` form with its destination. -/
  nb : Option Reg
  /-- V-cycle count of the core at issue. -/
  started : Nat
  /-- Refused: the N-cycle count after which it is sent again; 0 while a flit is on its way. -/
  retryAt : Nat
  /-- What the word covers for a receiver's acquire fence (R135). -/
  cover : Cover := []
  /-- In a gang: the port has kept an entry for the word until every member's word is accepted (R105). -/
  accepted : Bool := false
  deriving DecidableEq, Repr, Inhabited

/-- A stream whose header flit has set out (R129): how many links of its route it has claimed, whether it has claimed the port, the
words that have left the core and not arrived, oldest first, with what they cover (R135), whether the closing marker follows them,
and how many links the marker has released. -/
structure Flow where
  slot : Nat
  target : CoreId
  port : Bool
  links : Nat := 0
  arrived : Bool := false
  words : List (Vec × Cover) := []
  closing : Bool := false
  freed : Nat := 0
  deriving DecidableEq, Repr, Inhabited

/-- A barrier channel of a core (R136 to R139). The count, phase, broken state and timer are the root's. -/
structure Channel where
  /-- The group's rectangle as `barw.rect` holds it, with the die; none when the channel belongs to no group. -/
  group : Option (Nat × Word)
  count : Nat
  limit : Nat
  arrived : Nat
  phase : Nat
  broken : Bool
  /-- V-cycle count at the first arrival of the phase. -/
  firstAt : Option Nat
  /-- Threads that have arrived in the current phase, and those held for the next one. -/
  members : List Who
  held : List Who
  /-- The writes that the arrivals of the current phase cover, and those of the phases before (R137). -/
  cover : List Nat
  done : List Nat
  deriving DecidableEq, Repr, Inhabited

/-- Membership of a gang (R101, R102). -/
structure Gang where
  leader : CoreId
  width : Nat
  deriving DecidableEq, Repr, Inhabited

/-- A core's stop record (R321). -/
structure StopRecord where
  time : Word
  sent : Word
  recv : Word
  pc : Word
  cause : Word
  slot : Word
  deriving DecidableEq, Repr, Inhabited

/-- What the delivery unit keeps of a mailbox slot (R263). -/
structure Shadow where
  seq : BitVec 32 := 0
  res : BitVec 32 := 0
  fresh : Bool := false
  valid : Bool := false
  /-- The writes that its latest delivery covers (R269). -/
  cover : List Nat := []
  deriving DecidableEq, Repr, Inhabited

/-- A pending poll of `gbpoll` (R270): its thread, where the result goes, and the captured threshold and mode. -/
structure Poll where
  slot : Nat
  dest : Dest
  threshold : BitVec 32
  rr : Bool
  /-- The number of the write that the thread would have made next. -/
  stamp : Nat := 0
  deriving DecidableEq, Repr, Inhabited

/-- A core's mailbox (R263): descriptor, one shadow for each slot, round-robin position, and pending polls, oldest first. -/
structure Mailbox where
  /-- Physical address of slot 0. -/
  base : Nat := 0
  sync : Option Nat := .none
  shadows : List Shadow := []
  position : Nat := 0
  polls : List Poll := []
  deriving DecidableEq, Repr, Inhabited

/-- What a core reads at another cluster's sync or delivery unit: a field of a sync block into a register, or a slot into six,
which it may take (R164, R272). -/
inductive UnitRead where
  | sync (pa sel : Nat)
  | slot (pa : Nat) (take : Bool)
  deriving DecidableEq, Repr, Inhabited

/-- Such a read on its way, with its thread, its destinations, and the number of the write that the thread would have made next. -/
structure PendingUnit where
  slot : Nat
  op : UnitRead
  dests : List Dest
  stamp : Nat
  deriving DecidableEq, Repr, Inhabited

/-- A message in a cluster's send queue (R266), or accepted by its target's delivery unit at an N-cycle (R273). -/
structure GbMessage where
  core : CoreId
  slot : Nat
  target : CoreId
  index : Nat
  edge : Nat
  beta : Nat
  dim : Nat
  eta : Vec
  rows : Vector Vec 4
  accepted : Option Nat := .none
  /-- The writes that an `xfence` orders before it (R269). -/
  cover : List Nat := []
  deriving DecidableEq, Repr, Inhabited

/-- An instruction breakpoint (0 to 3) or a data breakpoint (4 and 5) of a core (R378). -/
structure Breakpoint where
  addr : Word := 0
  slots : BitVec 16 := 0
  enabled : Bool := false
  /-- Bytes covered, and whether it watches writes rather than reads; data breakpoints only. -/
  len : Nat := 1
  write : Bool := false
  deriving DecidableEq, Repr, Inhabited

/-- A core (R14, R8). -/
structure Core where
  id : CoreId
  /-- The partition the core belongs to. -/
  part : Option Nat := .none
  /-- The number of slots of its mode: 16, 8, 4 or 2. -/
  threads : Nat := 16
  lastSlot : Nat := 0
  tasks : List TaskEntry := []
  /-- Sequence number of each queue entry (R111). -/
  seqs : Vector (BitVec 24) 32 := Vector.replicate 32 0
  calls : List CallEntry := []
  replyTags : List Nat := []
  /-- Queues q0 to q3, head first, and their half pointers (R125, R130). -/
  queues : Vector (List Vec) 4 := Vector.replicate 4 []
  halves : BitVec 4 := 0
  /-- How many entries have entered each queue; and of entries in q1 and q2, by queue and number, what their words cover (R135). -/
  entered : Vector Nat 4 := Vector.replicate 4 0
  carried : List (Nat × Nat × Cover) := []
  /-- The drain buffer behind q0 (R227). -/
  drainBuf : List Vec := []
  /-- The stream that holds q1 and q2 (R125, R129). -/
  holders : Vector (Option Who) 2 := Vector.replicate 2 .none
  sending : List Sending := []
  flows : List Flow := []
  /-- Replies that accepted tasks on peer packages still owe (R114). -/
  owed : List Reply := []
  channels : Vector Channel 4 := Vector.replicate 4 ⟨.none, 0, 0, 0, 0, false, .none, [], [], [], []⟩
  gang : Option Gang := .none
  mailbox : Mailbox := {}
  l1 : List Line := []
  /-- The instruction cache (R1, R341): 32-byte blocks of physical memory with their values, the newest first. -/
  icache : List (Nat × Nat) := []
  stores : List StoreEntry := []
  loads : List PendingLoad := []
  atomics : List PendingAtomic := []
  requests : List Request := []
  /-- Messages of hints that the core holds back while a write-back of their block is unacknowledged (R279). -/
  hints : List (PpId × PpMsg) := []
  units : List PendingUnit := []
  engine : List EngineRequest := []
  /-- Words put into the networks, and words entered into q1 and q2, since the launch started (R321). -/
  sentWords : Nat := 0
  recvWords : Nat := 0
  stop : Option StopRecord := .none
  breaks : Vector Breakpoint 6 := Vector.replicate 6 {}
  /-- The ready-thread histogram (R376). -/
  ready : Vector (BitVec 48) 17 := Vector.replicate 17 0
  /-- The sampling period 2^s in V-cycles, when samples are taken (R377). -/
  sample : Option Nat := .none
  /-- The number of the period that the latest sample was taken in. -/
  sampledAt : Nat := 0
  deriving DecidableEq, Repr, Inhabited

/-! ## Memory side -/

/-- A cached translation (R145). -/
structure TlbEntry where
  /-- Where it is held: 0 a core, 1 a cluster, 2 a die; and which one. -/
  level : Nat
  unit : Nat
  ctx : CtxNo
  /-- First virtual address, and 512 MiB page or 64 KiB page. -/
  base : Nat
  large : Bool
  pa : Nat
  uncached : Bool
  dirty : Bool
  superOnly : Bool
  exec : Bool
  write : Bool
  read : Bool
  deriving DecidableEq, Repr, Inhabited

/-- A walk in progress or queued (R145). -/
structure Walk where
  die : Nat
  core : CoreId
  ctx : CtxNo
  va : Nat
  /-- The N-cycle at which it reached the queue. -/
  at' : Nat := 0
  deriving DecidableEq, Repr, Inhabited

/-- What the L2 or an RDC holds of a 256-byte line: sector mask, the tenant that filled it (R9, R374). -/
structure CacheLine where
  /-- Slice holder: die * 2, or die * 2 + 1 for the RDC. -/
  holder : Nat
  line : Nat
  sectors : BitVec 8
  tenant : TenantNo
  deriving DecidableEq, Repr, Inhabited

/-- An RDC block with its tag and data (R12, R306). -/
structure RdcBlock where
  die : Nat
  block : Nat
  tag : Nat
  dirty : Bool
  data : BitVec 256
  region : Region
  deriving DecidableEq, Repr, Inhabited

/-- A write that some agents may still read beneath: what the memory model of ch. 7 needs to know of it (R171 to R177). -/
structure Past where
  /-- Its number, drawn from `State.stamps`. -/
  id : Nat
  pa : Nat
  size : Nat
  /-- What its bytes held before, lowest first. -/
  old : Nat
  /-- The thread that wrote, or that issued the work of the engine on path `path` (R23, R187; 0 the core path). -/
  owner : Who
  path : Nat
  /-- How far it is performed (R177): 1 in the issuing core's L1, 2 in those of its gang, 3 at the home or bank. -/
  level : Nat
  /-- Of a write that a release makes, or an atomic of its chain: the releasing thread, the scope, and a write covered (R174). -/
  cover : Cover
  /-- Threads whose reads return it or a later write (R171, R175). -/
  seen : List Who
  /-- Threads and paths before whose later accesses it happens. -/
  before : List (Who × Nat)
  /-- Threads whose `fence.rel` of a scope stands between it and their later writes (R174). -/
  released : List (Who × Nat)
  /-- Threads that have read a write that covers it, with the releasing thread and the scope, for a `fence.acq` (R174). -/
  heard : List (Who × Who × Nat)
  /-- Full fences after which every later full fence of the domain sees it (R176): the fence's scope and thread. -/
  fenced : List (Nat × Who)
  /-- Scopes at which its thread has waited for it to be performed, and the turn of that (R177). -/
  performed : List (Nat × Nat) := []
  deriving DecidableEq, Repr, Inhabited

/-- What the posts to a sync block cover: writes of the posts since the generation changed last, and of those before (R181). -/
structure SyncCover where
  pa : Nat
  since : List Nat
  done : List Nat
  deriving DecidableEq, Repr, Inhabited

/-- The recalls of a thread's `rgnwr` (R276): the entries of the old binding that the scan has found and not recalled yet, by PP and block,
and those that it has recalled. -/
structure RegionScan where
  who : Who
  left : List (PpId × Nat)
  recalled : List (PpId × Nat)
  deriving DecidableEq, Repr, Inhabited

/-- An open merge window (R149). -/
structure MergeWindow where
  holder : Nat
  line : Nat
  sectors : BitVec 8
  openedAt : Nat
  /-- The window is closed, and its burst is on its way. -/
  inFlight : Bool
  tenant : TenantNo
  deriving DecidableEq, Repr, Inhabited

/-- The home's record of a block: its summary (R278), and the directory entry with the binding that wrote it (R276). -/
structure HomeBlock where
  block : Nat
  summary : Nat
  entry : Word
  ctx : CtxNo
  proto : Nat
  arg : Nat
  /-- Which PP keeps it: the home's, or a proxy's store (R306). -/
  pp : PpId
  /-- Under protocol 4, the context and the virtual address of the write that it has had since its region was bound (R189). -/
  written : Option (CtxNo × Nat) := .none
  deriving DecidableEq, Repr, Inhabited

/-- A message between caches and PPs that has been sent and has not arrived (R280). -/
inductive NetMsg where
  /-- `htag` to a cache: from a PP, to an agent, block, new tag, counted, the handler's binding, and when it was sent. -/
  | tagChange (pp : PpId) (agent : Nat) (block tag : Nat) (counted : Bool) (region : Region) (sentAt : Nat)
  /-- Its acknowledgement, with the dirty data that came with it. -/
  | tagAck (pp : PpId) (agent : Nat) (block : Nat) (counted : Bool) (data : Option (BitVec 256)) (sentAt : Nat)
  /-- A grant: to an agent designation, block, tag or home, the data read at the home, the payload word. -/
  | grant (pp : PpId) (agent : Word) (block tag : Nat) (home : Bool) (data : BitVec 256) (payload : Word)
  /-- A release notice, a resume, and a refusal with its code. -/
  | release (pp : PpId) (agent : Word) (block : Nat)
  | resume (pp : PpId) (agent : Word) (block : Nat)
  | refuse (pp : PpId) (agent : Word) (block : Nat) (code : Nat) (ctx : CtxNo)
  /-- A refusal that returns to the PP that sent the request (R302). -/
  | refusePp (pp : PpId) (dst : PpId) (block : Nat) (code : Nat)
  /-- A message on the reply lane for a PP: write-backs, evictions, what `hsend.rep` sends, proxy tags. The sender is its agent's
  number. -/
  | message (sender : Nat) (dst : PpId) (m : PpMsg)
  deriving DecidableEq, Repr, Inhabited

/-- A busy block at a PP (R292). -/
structure Busy where
  block : Nat
  count : Nat
  /-- At least one counted `htag` was sent. -/
  any : Bool
  list : List PpMsg
  recalled : Bool
  ctx : CtxNo
  proto : Nat
  arg : Nat
  /-- Acknowledgements counted since the latest type 6. -/
  acks : Nat := 0
  deriving DecidableEq, Repr, Inhabited

/-- A binding slot (R283): context and protocol, dispatch entries by message type, code and data areas. -/
structure Binding where
  slot : Nat
  ctx : CtxNo
  proto : Nat
  /-- (message type, start address in instruction memory). -/
  dispatch : List (Nat × Nat)
  codeBase : Nat
  codeSize : Nat
  dataBase : Nat
  dataSize : Nat
  faulted : Bool
  deriving DecidableEq, Repr, Inhabited

/-- A block transfer of `hblk` (R295). -/
structure BlockMove where
  src : Nat
  dst : Nat
  srcLocal : Bool
  dstLocal : Bool
  left : Nat
  total : Nat
  block : Nat
  ctx : CtxNo
  proto : Nat
  arg : Nat
  deriving DecidableEq, Repr, Inhabited

/-- A protocol processor (R281). -/
structure Pp where
  id : PpId
  /-- Instruction memory above the library part, and data memory, as sparse bytes. -/
  imem : List Host.Cell := []
  dmem : List Host.Cell := []
  bindings : List Binding := []
  reqQueue : List PpMsg := []
  fwdQueue : List PpMsg := []
  repQueue : List PpMsg := []
  busy : List Busy := []
  retry : List PpMsg := []
  lastThread : Nat := 0
  move : Option BlockMove := .none
  /-- Messages dispatched so far, and the tenant that took the previous reserved grant (R346). -/
  grants : Nat := 0
  reserved : Option TenantNo := .none
  deriving DecidableEq, Repr, Inhabited

/-! ## Contexts, partitions, launches -/

/-- State of a context slot, as `ctxstat` numbers it (R326). -/
inductive CtxState where
  | free
  | running
  | stop
  | agreed
  | saving
  | saved
  | restoring
  | loading
  deriving DecidableEq, Repr, Inhabited

/-- An accepted disclosure policy (R371). -/
structure Policy where
  agran : Nat := 0
  st : Bool := false
  /-- Level and parameter of each class, from class 0. -/
  classes : List (Nat × Nat) := []
  deriving DecidableEq, Repr, Inhabited

/-- A gang switch that is asked for or agreed (R322, R324): its time, the image address, and the context whose tables translate
it. -/
structure SwitchPlan where
  ctx : CtxNo
  time : Nat
  image : Word
  via : CtxNo
  deriving DecidableEq, Repr, Inhabited

/-- An operation of the context engine that is in progress (R326, R332): kind 0 `ctxsave`, 1 `ctxload`, 2 the image write of a
gang switch; the thread that waits on it; the address of the image and the context whose tables translate it; the number of the
image, its first nonce, how many granules are done, and whether the guest's function is switched out. -/
structure CtxOp where
  kind : Nat
  who : Option Who
  image : Word
  via : CtxNo
  save : Nat
  nonce : Nat
  granule : Nat
  paused : Bool
  deriving DecidableEq, Repr, Inhabited

/-- A remote store or atomic whose outcome came while its partition was on its way out (R322); no result is a time-out. -/
inductive AbsorbedOp where
  | store (e : StoreEntry)
  | atomic (a : PendingAtomic)
  deriving DecidableEq, Repr, Inhabited

structure Absorbed where
  core : CoreId
  op : AbsorbedOp
  result : Option RemoteResult
  deriving DecidableEq, Repr, Inhabited

/-- A context slot (R327) with the properties of its context (R143, R167, R275, R315, R373, R380). -/
structure Ctx where
  num : CtxNo
  tenant : TenantNo
  key : Nat
  save : Nat := 0
  state : CtxState := .free
  last : Nat := 0
  /-- The registered policy and its digest. -/
  policy : Policy := {}
  digest : Digest := 0
  launch : LaunchNo := 0
  root : Word := 0
  tbase : Word := 0
  errq : Word := 0
  /-- The ring could not be written, and event 2 has been posted for it (R168). -/
  muted : Bool := false
  regions : Vector (Word × Word) 64 := Vector.replicate 64 (0, 0)
  /-- Physical address of each region's base at its `rgnwr`, for the home policy `one` (R275). -/
  regionPa : Vector Nat 64 := Vector.replicate 64 0
  /-- The function whose guest-time offset and scale apply (R380), when the context belongs to a guest. -/
  vf : Option Nat := .none
  /-- Device time spent switched out, and since when it is out (R380). -/
  stolen : Nat := 0
  outAt : Nat := 0
  plan : Option SwitchPlan := .none
  op : Option CtxOp := .none
  absorbed : List Absorbed := []
  /-- Events that arrived while the context was out: code, detail and time (R133, R323). -/
  heldEvents : List (Nat × Nat × Nat) := []
  /-- N-cycle count of die D0 when it began to wait for its placement (R346). -/
  restoreAt : Nat := 0
  /-- Its tenant's session has ended: the slot goes with its launch (R370). -/
  leaving : Bool := false
  deriving DecidableEq, Repr, Inhabited

/-- One cluster group of a placement: die, lowest cluster number, half (0 whole, 1 upper, 2 lower) (R21, R335). -/
structure Group where
  die : Nat
  cluster : Nat
  half : Nat
  deriving DecidableEq, Repr, Inhabited

/-- Where a partition stands between placement and release. -/
inductive PartState where
  | loading
  | running
  /-- A fatal stop of partition scope is on its way down the halt tree (R320). -/
  | halting
  | stopped
  | saving
  /-- Resident and stopped by a gang switch whose image could not be written (R326). -/
  | held
  deriving DecidableEq, Repr, Inhabited

/-- A placed partition (R21). -/
structure Partition where
  id : Nat
  launch : LaunchNo
  ctx : CtxNo
  tenant : TenantNo
  state : PartState
  groups : List Group
  gw : Nat
  gh : Nat
  /-- Stop scope (R319): 0 thread, 1 core, 2 gang, 3 partition. -/
  stopScope : Nat
  seed : BitVec 32
  priority : Nat
  weight : Nat
  clkreq : Word := 0
  clkgrant : Word := 0
  /-- Cycles of the M and the V domain since placement, in 1/64 (R2). -/
  mTicks : Nat := 0
  vTicks : Nat := 0
  /-- Those V-cycles in which its cores issue, which the barrier timers count (R139). -/
  bTicks : Nat := 0
  /-- A decision of the power arbiter that takes effect at the next boundary (R348). -/
  nextGrant : Option Word := .none
  deriving DecidableEq, Repr, Inhabited

/-- A level entry of a launch record (R334). -/
structure LevelEntry where
  used : Bool
  alongY : Bool
  ex : Nat
  ey : Nat
  deriving DecidableEq, Repr, Inhabited

/-- A launch record (R333). -/
structure LaunchRecord where
  tenant : TenantNo
  ctx : CtxNo
  prio : Nat
  pwt : Nat
  mode : Nat
  stop : Nat
  clk : Vector Nat 4
  lmax : Nat
  ltim : Nat
  lwt : Nat
  key : Nat
  seed : BitVec 32
  image : Word
  args : Word
  argsz : Nat
  done : Word
  rgn : Word
  root : Word
  tbase : Word
  errq : Word
  pol : Word
  pold : Digest
  unit : Nat
  gw : Nat
  gh : Nat
  gn : Nat
  dies : Nat
  fidx : Nat
  fcnt : Nat
  ftab : Word
  stk : Word
  stksz : Nat
  cdp : Word
  levels : Vector LevelEntry 8
  deriving DecidableEq, Repr, Inhabited

/-- The tables of a Glitas image (R337): roles, placement entries, handlers and boot-tree entries. -/
structure Role where
  text : Nat
  entry : Nat
  sdata : Nat
  sdsz : Nat
  sdofs : Nat
  level : Nat
  deriving DecidableEq, Repr, Inhabited

structure PlaceEntry where
  x : Nat
  y : Nat
  w : Nat
  h : Nat
  role : Nat
  deriving DecidableEq, Repr, Inhabited

structure HandlerImage where
  proto : Nat
  type : Nat
  dkib : Nat
  csz : Nat
  code : Nat
  deriving DecidableEq, Repr, Inhabited

structure BootEntry where
  x : Nat
  y : Nat
  dir : Nat
  deriving DecidableEq, Repr, Inhabited

structure Glitas where
  roles : List Role
  places : List PlaceEntry
  handlers : List HandlerImage
  boot : List BootEntry
  size : Nat
  deriving DecidableEq, Repr, Inhabited

/-- Where a launch stands (R340, R343). -/
inductive LaunchState where
  | queued
  | loading
  | running
  /-- 0 completed, 1 stopped, 2 cancelled, 3 load failed. -/
  | ended (how : Nat)
  deriving DecidableEq, Repr, Inhabited

/-- An accepted launch. -/
structure Launch where
  num : LaunchNo
  record : LaunchRecord
  image : Glitas
  regions : List (Word × Word)
  /-- The packages that `ftab` lists, in member order; of a launch on one package its own. -/
  members : List Nat := []
  prio : Nat
  weight : Nat
  /-- The context through which the completion block is posted. -/
  via : CtxNo
  /-- N-cycle count of die D0 at acceptance, and the place of its issuer among those of one N-cycle (R346, R355). -/
  arrived : Nat
  origin : Nat := 0
  state : LaunchState
  /-- `lcancel` has acted on it, and the threads that wait for the outcome (R340). -/
  cancelled : Bool := false
  cancellers : List Who := []
  /-- A reset of its function or the end of its session releases it when it ends (R351, R370). -/
  discarded : Bool := false
  deriving DecidableEq, Repr, Inhabited

/-- What waits in the distributor's queues (R344). -/
inductive Waiting where
  | launch (num : LaunchNo)
  | resume (ctx : CtxNo)
  deriving DecidableEq, Repr, Inhabited

/-- The distributor (R344 to R346). -/
structure Distributor where
  launches : List Launch := []
  next : LaunchNo := 1
  /-- In order of arrival. -/
  queue : List Waiting := []
  /-- The placement in progress: what is placed, and the groups reserved so far. -/
  placing : Option (Waiting × List Group) := .none
  grants : Nat := 0
  reserved : Option TenantNo := .none
  deriving DecidableEq, Repr, Inhabited

/-- What a context image holds (R330), as plain data: the context engine's own form is not given (log 8). -/
structure Payload where
  part : Partition
  ctx : Ctx
  harts : List Hart
  cores : List Core
  banks : List (ClusterId × Nat × Bank)
  copies : List Copy
  sends : List GbMessage
  scratch : List Host.Cell
  deriving DecidableEq, Repr, Inhabited

/-- An image that the context engine has written: its number, the key it was encrypted under, its save counter, its header
as 256 bytes, its granule count and what it holds. -/
structure Image where
  id : Nat
  ctx : CtxNo
  key : Key256
  save : Nat
  header : Nat
  granules : Nat
  payload : Payload
  deriving DecidableEq, Repr, Inhabited

/-! ## Trust: sessions, keys, functions (R349 to R351, R365 to R370) -/

/-- A key slot in use (R327, R369). -/
structure KeySlot where
  slot : Nat
  tenant : TenantNo
  key : Key256
  nonce : Nat
  deriving DecidableEq, Repr, Inhabited

/-- An item extended into a measurement (R368). -/
inductive Measured where
  | cap (watts : Nat)
  | map (m : FabricMap)
  | binding (vf : Nat) (tenant : TenantNo)
  /-- Digests of the record, the Glitas image, the region-table image and the policy. -/
  | launch (tenant : TenantNo) (record image regions policy : Digest)
  deriving DecidableEq, Repr, Inhabited

/-- State of a TDI (R351). -/
inductive Tdi where
  | unlocked
  | locked
  | run
  | error
  deriving DecidableEq, Repr, Inhabited

/-- A virtual function (R350, R351, R380). -/
structure Vf where
  num : Nat
  tenant : Option TenantNo := .none
  tdi : Tdi := .unlocked
  offset : Word := 0
  scale : Word := 0
  /-- IDE streams with their keys (R349). -/
  streams : List (Nat × Key256) := []
  /-- The hypervisor has switched the function out (R332). -/
  out : Bool := false
  deriving DecidableEq, Repr, Inhabited

/-- What leaves the device for a party outside it. -/
inductive Output where
  /-- A posted write of a function to host memory (R356). -/
  | hostWrite (fn iova : Nat) (bytes : Nat) (value : Nat)
  | interrupt (fn vector : Nat)
  /-- A request of a function completed with Unsupported Request (R351). -/
  | unsupported (fn : Nat)
  /-- The status of a request of a party. -/
  | status (party : Party) (code : Nat)
  /-- Measurements, with a signature or an error in its place (R367, R368). -/
  | measurements (party : Party) (firmware : Option FirmwareImage) (items : List Measured) (signed : Bool)
  /-- An error in place of a signature that a party asked for (R367). -/
  | unsigned (party : Party)
  /-- A counter the operator reads: withheld bit and value (R374). -/
  | counter (withheld : Bool) (value : Nat)
  /-- An answer to a monitoring request: a sensor, the temperatures of the stacks, the log of thermal trips, and whether the alert
  output asserts (R423). -/
  | monitor (n value : Nat) (temps : Vector Nat 4) (trips : List (Nat × Int)) (alert : Bool)
  /-- A DRAM row that no spare is left for (R385). -/
  | noSpare (loc : ErrLoc)
  /-- A key-switch marker or a replayed flit on a link: its key slot and its nonce (R363, R364). -/
  | flit (link slot : Nat) (iv : List Byte)
  /-- A freeze marker or (false) a thaw marker on a link (R382). -/
  | marker (link : Nat) (frozen : Bool)
  deriving DecidableEq, Repr, Inhabited

structure Trust where
  sessions : List Party := []
  keys : List KeySlot := []
  /-- The policy key that each tenant has registered (R369). -/
  policyKeys : List (TenantNo × List Byte) := []
  vfs : List Vf := []
  measured : List Measured := []
  /-- Signatures that the device key has left (R367). -/
  signatures : Nat := 2 ^ 40
  /-- IDE streams of the physical function, with their keys (R349). -/
  streams : List (Nat × Key256) := []
  out : List Output := []
  deriving DecidableEq, Repr

/-! ## Host queues (R352 to R356) -/

/-- What a queue's packet waits for. -/
inductive QueueWait where
  | none
  | dma
  | room
  | launch (d : Nat) (num : LaunchNo)
  /-- Of a write to host memory, behind the writes of an earlier `dma` (R356). -/
  | posted
  deriving DecidableEq, Repr, Inhabited

/-- A `dma` in flight: destination and source, each with its host bit, its length, and the index of its op. -/
structure Dma where
  dst : Nat
  dstHost : Bool
  src : Nat
  srcHost : Bool
  bytes : Nat
  op : Nat
  deriving DecidableEq, Repr, Inhabited

/-- A host queue: function and number, its descriptor (R352), and its interpreter's state (R354). -/
structure HostQueue where
  fn : Nat
  num : Nat
  ring : Word := 0
  lgn : Nat := 0
  vec : Nat := 0
  enable : Bool := false
  st : Nat := 0
  ctx : CtxNo := 0
  prog : Word := 0
  plen : Nat := 0
  head : Nat := 0
  err : Nat := 0
  win : Vector (Word × Word) 4 := Vector.replicate 4 (0, 0)
  tail : Nat := 0
  /-- A write has cleared enable: it takes effect at the packet boundary. -/
  closing : Bool := false
  ops : List (BitVec 32) := []
  b : Vector Word 8 := Vector.replicate 8 0
  p : Vector Word 8 := Vector.replicate 8 0
  /-- The packet is being run, at this op, after this many steps. -/
  active : Bool := false
  pc : Nat := 0
  steps : Nat := 0
  counter : Nat := 0
  wait : QueueWait := .none
  dmas : List Dma := []
  deriving DecidableEq, Repr, Inhabited

structure HostSide where
  queues : List HostQueue := []
  /-- The queue whose packet is being run, and the one taken last: function * 16 + number. -/
  current : Option Nat := .none
  last : Nat := 0
  deriving DecidableEq, Repr, Inhabited

/-! ## Fabric links (R360 to R364, R382) -/

/-- A direction of a fabric link, by the port die * 3 + port: what the transmitter and the receiver of this package keep. -/
structure Link where
  port : Nat
  /-- Lanes moved to the spare or out of use, and a weak lane that waits for a quiet point since an N-cycle. -/
  swapped : List Nat := []
  weak : Option Nat := .none
  weakAt : Nat := 0
  /-- Request injection is held to make a quiet point, since an N-cycle and for 64. -/
  held : Bool := false
  heldAt : Nat := 0
  /-- It runs at half its rate; it is down. -/
  half : Bool := false
  down : Bool := false
  /-- The transmitter's key slots, the slot in use, its invocation count, and a key obtained and not yet loaded. -/
  keys : Vector (Option Key256) 2 := Vector.replicate 2 .none
  slot : Nat := 0
  count : Nat := 0
  fetched : Option Key256 := .none
  rekeyDue : Bool := false
  /-- Exhausted since this device time: it sends no flits. -/
  exhausted : Option Nat := .none
  /-- The receiver's key slot, the slot it has retired, flits failed in a row, and the number it asks to be replayed. -/
  rxSlot : Nat := 0
  retired : Option Nat := .none
  fails : Nat := 0
  asked : Option Nat := .none
  /-- The peer has frozen since this device time, and N-cycle (R382). -/
  frozenAt : Option Nat := .none
  frozenCycle : Nat := 0
  deriving DecidableEq, Repr, Inhabited

structure Fabric where
  map : FabricMap := {}
  links : List Link := []
  deriving DecidableEq, Repr, Inhabited

/-! ## Power, bring-up and repair (R348, R365, R366, R382 to R386, R417 to R422) -/

/-- An entry of a table of corrected errors (R384): the unit that keeps it, the location, its first error and its count. -/
structure ErrEntry where
  unit : Nat
  loc : ErrLoc
  first : Nat
  count : Nat
  deriving DecidableEq, Repr, Inhabited

structure Plant where
  cap : Nat := 2200
  /-- Of each stack: the latest temperature in °C, doubled refresh, and the reduction of the budget (R419). -/
  temps : Vector Nat 4 := Vector.replicate 4 0
  hot : BitVec 4 := 0
  reduced : BitVec 4 := 0
  /-- Boundaries at which each stack's reduction has counted. -/
  cut : Nat := 0
  /-- Refreshes granted by each controller: die * 32 + channel (R346, R419). -/
  refreshes : List (Nat × Nat) := []
  /-- The thermal trips, with sensor (8 * stack + number, or 32 + die for the logic) and temperature (R420); the supply is off. -/
  trips : List (Nat × Int) := []
  /-- The log of trips has not been read since the latest one (R423). -/
  unread : Bool := false
  off : Bool := false
  /-- The latest boundary taken (R348). -/
  boundary : Nat := 0
  /-- Real time since the freeze, when frozen (R382). -/
  frozen : Option Nat := .none
  unavailable : List ClusterId := []
  /-- The two flash slots, the image that runs, the fused minimum, recovery and its status register (R365, R366). -/
  flash : Vector (Option FirmwareImage) 2 := Vector.replicate 2 .none
  firmware : Option FirmwareImage := .none
  fused : Nat := 0
  recovery : Bool := false
  recoveryStatus : Nat := 0
  errors : List ErrEntry := []
  lasting : List ErrLoc := []
  repaired : List ErrLoc := []
  deriving DecidableEq, Repr

/-! ## Observation (R371 to R381) -/

/-- A sample or trace record (R377). -/
structure TraceRecord where
  time : Nat
  pc : Word
  core : CoreId
  slot : Nat
  type : Nat
  ctx : CtxNo
  detail : Word
  deriving DecidableEq, Repr, Inhabited

/-- An operator fault record (R381), before it is coarsened. -/
structure FaultRecord where
  time : Nat
  ctx : CtxNo
  cause : Nat
  addr : Word
  deriving DecidableEq, Repr, Inhabited

/-- A ring that a tenant has set up (R379): context, kind, address, size, and sampling exponent or type mask. -/
structure Ring where
  ctx : CtxNo
  kind : Nat
  base : Word
  size : Nat
  arg : Nat
  deriving DecidableEq, Repr, Inhabited

structure Operator where
  /-- Records that trace units and error reporting have still to deliver. -/
  traced : List TraceRecord := []
  faults : List FaultRecord := []
  stops : List (CtxNo × StopRecord) := []
  /-- What stands in the operator's buffer, coarsened. -/
  records : List TraceRecord := []
  faultRecords : List FaultRecord := []
  stopRecords : List StopRecord := []
  /-- Unattributed counters: records dropped by policy, corrected errors (R377, R384). -/
  dropped : Nat := 0
  corrected : Nat := 0
  rings : List Ring := []
  /-- Level-2 values latched at bucket boundaries (R374). -/
  buckets : List ((CtxNo × Nat × Nat × Nat) × BitVec 48) := []
  deriving DecidableEq, Repr, Inhabited

/-! ## What fabric peers send (R12, R23, R179, R287, R306; log 48) -/

/-- What arrives from a fabric peer. -/
inductive PeerOp where
  /-- An access of a peer to uncached memory or scratchpad: a read, a write of some bytes, an atomic operation. -/
  | read (pa size : Nat)
  | write (pa size value : Nat)
  | atomic (op pa size value compare : Nat)
  /-- The sync-block post of a fabric put. -/
  | post (pa bytes bits : Nat)
  /-- A task that a peer's `callat` sends, whether a reply is due, and a cancel request. -/
  | task (target pc : Word) (args : Vector Word 4) (reply : Bool)
  | cancel (handle : Word)
  /-- A request of a peer for a block homed here, under a request tag, and data that it gives back. -/
  | request (pkg type block rtag : Nat) (region : Region)
  | writeBack (pkg block : Nat) (data : Option (BitVec 256)) (region : Region)
  /-- It acknowledges the tag change that is message `k` on its way, with dirty data. -/
  | ack (k : Nat) (data : Option (BitVec 256))
  /-- What a peer's home answers to the PP of a fabric port: a grant, a tag change, a refusal. -/
  | grant (pp : PpId) (block tag : Nat) (data : BitVec 256) (payload : Word) (region : Region)
  | tagChange (pp : PpId) (block tag : Nat) (counted : Bool) (region : Region)
  | refuse (pp : PpId) (block code : Nat)
  deriving DecidableEq, Repr, Inhabited

/-! ## What acts next (log 2) -/

/-- One thing that the package does in a step. -/
inductive Activity where
  /-- A core issues one instruction, from the slot that R15 selects. -/
  | issue (c : CoreId)
  /-- A PP issues one handler instruction, from the thread that R15's search selects (R281). -/
  | handler (p : PpId)
  /-- The command processor takes one queue-program step (R355). -/
  | queue
  /-- An event of the opcode table happens. -/
  | event (i : Instr)
  /-- The copy engine of a cluster moves one piece of a running copy (R160). -/
  | copyPiece (cl : ClusterId) (k : Nat)
  /-- The matrix array of a cluster does the next row group of a running command (R219). -/
  | rowGroup (cl : ClusterId) (bank k : Nat)
  /-- A matrix command moves one piece out of turn: it fetches piece `i` of the operands of a row group of chunk `kc` ahead of
  its use (R239), or a drain writes its piece `i`. -/
  | matrixPiece (cl : ClusterId) (bank k kc g i : Nat)
  /-- The instruction cache of a core takes the block of code at a virtual address (R341). -/
  | codeFill (c : CoreId) (va : Nat)
  /-- Write `k` of `State.past` is performed one step further on its way (R177). -/
  | spread (k : Nat)
  /-- Write `k` of `State.past` is now read by every agent. -/
  | settle (k : Nat)
  /-- The delivery unit serves the pending polls of a core (R273). -/
  | polls (c : CoreId)
  /-- A sync or delivery unit serves read `k` that a core has sent to it. -/
  | unitRead (c : CoreId) (k : Nat)
  /-- An operation arrives from a fabric peer. -/
  | peer (op : PeerOp)
  deriving DecidableEq, Repr, Inhabited

/-- Which activity comes next when the agenda is empty: the spec fixes no order of events from different sources (R25). -/
opaque Config.nextActivity : Nat → Activity

/-- Which of the writes that an agent need not see yet its read passes over: by the turn and the place in `State.past` (R175). -/
opaque Config.stale : Nat → Nat → Bool

/-- How many units of device time pass before an activity chosen so. -/
opaque Config.elapsed : Nat → Nat

/-! ## Stops -/

/-- Why a step stops the model with a fault. -/
inductive Fault where
  /-- Raised by a step whose agenda names an agent that the package does not have. Safe: the hardware has no such step. -/
  | noSuchAgent
  deriving DecidableEq, Repr

/-- Why a step is refused. -/
inductive Refusal where
  /-- Raised by `exec` for an instruction whose meaning is not modelled. Safe: no claim about it can be proved. -/
  | notModelled (mnemonic : String)
  deriving DecidableEq, Repr

/-! ## The machine -/

/-- The state of the package. -/
structure State where
  /-- The thread that is executing. -/
  cur : Hart
  harts : List Hart := []
  cores : List Core := []
  mem : List Host.Cell := []
  /-- Writes that some agent may still read beneath, the newest first. -/
  past : List Past := []
  /-- The number of the next write. -/
  stamps : Nat := 0
  syncs : List SyncCover := []
  tlb : List TlbEntry := []
  walks : List Walk := []
  /-- Blocks whose data is poisoned (R386). -/
  poison : List Nat := []
  lines : List CacheLine := []
  rdc : List RdcBlock := []
  windows : List MergeWindow := []
  home : List HomeBlock := []
  net : List NetMsg := []
  pps : List Pp := []
  scans : List RegionScan := []
  /-- Replies on their way, with their values and the writes that they cover (R117), and join counters that could not be decremented (R117). -/
  replies : List (Reply × Word × List Nat) := []
  joinFails : List (CtxNo × Word) := []
  copies : List Copy := []
  posts : List Post := []
  arrays : List MatrixArray := []
  /-- The clusters' send queues, oldest first. -/
  sends : List GbMessage := []
  ctxs : List Ctx := []
  parts : List Partition := []
  /-- Gang switches asked for, that have not reached the root (R322). -/
  switches : List SwitchPlan := []
  /-- Images written, and the number of the next save (log 8). -/
  images : List Image := []
  saves : Nat := 0
  dist : Distributor := {}
  trust : Trust := {}
  host : HostSide := {}
  fabric : Fabric := {}
  plant : Plant := {}
  oper : Operator := {}
  /-- Device time (R3), in units of 1 ns. -/
  time : Nat := 0
  /-- Cycles of the N and the D domain of each die since reset, in 1/64 (R2). -/
  nTicks : Vector Nat 4 := Vector.replicate 4 0
  dTicks : Vector Nat 4 := Vector.replicate 4 0
  /-- Counters of classes 2 to 7 (R372, R374): context, unit, class and index, and the raw count modulo 2^48. -/
  tally : List ((CtxNo × Nat × Nat × Nat) × BitVec 48) := []
  /-- The package number of the fabric map; 0 when the package has joined none (R9). -/
  pkg : Nat := 0
  /-- The model's own: the activities that come next, and the counter to which free values are applied (log 2). -/
  agenda : List Activity := []
  turn : Nat := 0
  deriving DecidableEq, Repr

/-- Right after reset (R421): nothing has run, memory reads as zero, and the firmware that the flash holds runs. -/
def State.reset : State :=
  { cur := { who := .core 0 0 }
    plant := { flash := #v[.some Config.shippedFirmware, .none], firmware := .some Config.shippedFirmware } }

end Sys2Proof.Machine
end

