-- ==== Sys2Proof/Machine/Mem.lean ====
section
/-! DEFINITION. Bytes of memory in one canonical form, the physical map, the scratchpad windows, and the page tables. -/

namespace Sys2Proof.Machine

open Sys2Proof

/-! ## Bytes -/

/-- What an address that no cell lists reads as: the reset contents, zero (R421). -/
def unlisted : Byte := 0

/-- The byte at an address. -/
def readByte : List Host.Cell → Nat → Byte
  | [], _ => unlisted
  | (a, v) :: rest, k => if k = a then v else readByte rest k

/-- Puts a byte into a sorted list of cells. -/
def insertByte : List Host.Cell → Nat → Byte → List Host.Cell
  | [], k, v => [(k, v)]
  | (a, w) :: rest, k, v =>
    if k < a then (k, v) :: (a, w) :: rest
    else if k = a then (a, v) :: rest
    else (a, w) :: insertByte rest k v

/-- Removes what is listed for an address. -/
def eraseByte : List Host.Cell → Nat → List Host.Cell
  | [], _ => []
  | (a, w) :: rest, k => if k = a then eraseByte rest k else (a, w) :: eraseByte rest k

/-- Writes one byte, keeping the canonical form. -/
def writeByte (m : List Host.Cell) (k : Nat) (v : Byte) : List Host.Cell :=
  if v = unlisted then eraseByte m k else insertByte m k v

/-- The canonical form from a lower bound on: addresses strictly rising, no cell equal to the unlisted value. -/
def wfFrom : Nat → List Host.Cell → Bool
  | _, [] => true
  | lo, (a, v) :: rest => decide (lo ≤ a) && v != unlisted && wfFrom (a + 1) rest

/-- The canonical form of memory. -/
def Memory.wf (m : List Host.Cell) : Bool := wfFrom 0 m

/-- The `n` bytes from `a` on, lowest first, as one number (R4). -/
def readBytes (m : List Host.Cell) (a : Nat) : Nat → Nat
  | 0 => 0
  | n + 1 => (readByte m a).toNat + 256 * readBytes m (a + 1) n

/-- Stores the `n` lowest bytes of a number from `a` on, lowest first (R4). -/
def writeBytes (m : List Host.Cell) (a : Nat) : Nat → Nat → List Host.Cell
  | 0, _ => m
  | n + 1, v => writeBytes (writeByte m a (BitVec.ofNat 8 v)) (a + 1) n (v / 256)

/-! ## The physical map (R11, R141) -/

/-- What a physical address reaches. -/
inductive Place where
  | dram
  | scratch
  | device
  | peerScratch
  | peerDram
  | nothing
  deriving DecidableEq, Repr

def scratchBase : Nat := 0x8000000000

/-- R141. -/
def placeOf (pa : Nat) : Place :=
  if pa < 0x8000000000 then .dram
  else if pa < 0x8040000000 then .scratch
  else if pa < 0x10000000000 then .nothing
  else if pa < 0x20000000000 then .device
  else if pa < 0x4000000000000 then .nothing
  else if pa < 0x4040000000000 then .peerScratch
  else if pa < 0x8000000000000 then .nothing
  else if pa < 0x10000000000000 then .peerDram
  else .nothing

/-- The package number in a peer address. -/
def peerPkg (pa : Nat) : Nat :=
  match placeOf pa with
  | .peerScratch => (pa - 0x4000000000000) / 2 ^ 30
  | .peerDram => (pa - 0x8000000000000) / 2 ^ 39
  | _ => 0

/-- A peer address of the package itself is the matching local address (R141). -/
def localise (pkg pa : Nat) : Nat :=
  match placeOf pa with
  | .peerScratch => if peerPkg pa = pkg then scratchBase + (pa - 0x4000000000000) % 2 ^ 30 else pa
  | .peerDram => if peerPkg pa = pkg then (pa - 0x8000000000000) % 2 ^ 39 else pa
  | _ => pa

/-- The address lies on another package. -/
def isRemote (pkg pa : Nat) : Bool :=
  match placeOf pa with
  | .peerScratch | .peerDram => peerPkg pa != pkg
  | _ => false

/-- The home die of a DRAM address, and its channel (R11). -/
def homeDie (pa : Nat) : Nat := pa / 2 ^ 37 % 4

def homeChannel (pa : Nat) : Nat := (pa / 2 ^ 8 % 32) ^^^ (pa / 2 ^ 13 % 32) ^^^ (pa / 2 ^ 18 % 32)

/-- The home PP of a block (R11): PPs 0 to 31 of a die are those of its channels. -/
def homePp (pa : Nat) : PpId := homeDie pa * 37 + homeChannel pa

/-- The 32-byte block of an address. -/
def blockOf (pa : Nat) : Nat := pa / 32 * 32

/-! ## Cores, clusters and halves (R8, R9, R21) -/

def coreX (c : CoreId) : Nat := c % 64
def coreY (c : CoreId) : Nat := c / 64 % 32
def coreDie (c : CoreId) : Nat := c / 2048 % 4
def coreAt (die x y : Nat) : CoreId := die * 2048 + y * 64 + x

/-- The core's cluster: die * 256 + 16·cy + cx. -/
def clusterOf (c : CoreId) : ClusterId := coreDie c * 256 + 16 * (coreY c / 2) + coreX c / 4
/-- The index of a core within its cluster. -/
def coreIndex (c : CoreId) : Nat := 4 * (coreY c % 2) + coreX c % 4
/-- Core `i` of a cluster. -/
def clusterCore (cl : ClusterId) (i : Nat) : CoreId :=
  coreAt (cl / 256) (4 * (cl % 16) + i % 4) (2 * (cl / 16 % 16) + i / 4)
/-- The half a core lies in: 0 upper (even y), 1 lower. -/
def coreHalf (c : CoreId) : Nat := coreY c % 2

/-- Cluster and half of a scratchpad address. -/
def scratchCluster (pa : Nat) : ClusterId := (pa - scratchBase) / 2 ^ 20 % 1024
def scratchHalf (pa : Nat) : Nat := pa / 2 ^ 19 % 2
def scratchPa (cl : ClusterId) (off : Nat) : Nat := scratchBase + cl * 2 ^ 20 + off

/-- The clusters of a group of `gw` by `gh` clusters (R335). -/
def groupClusters (g : Group) (gw gh : Nat) : List ClusterId :=
  (List.range gh).flatMap fun r => (List.range gw).map fun q => g.die * 256 + g.cluster + 16 * r + q

/-- The partition owns this half of this cluster. -/
def Partition.owns (p : Partition) (cl half : Nat) : Bool :=
  p.groups.any fun g => (groupClusters g p.gw p.gh).contains cl && (g.half == 0 || g.half == half + 1)

/-- The core belongs to the partition. -/
def Partition.hasCore (p : Partition) (c : CoreId) : Bool := p.owns (clusterOf c) (coreHalf c)

/-- What the partition holds of a cluster: 1 its upper half, 2 its lower half, 0 all of it. -/
def Partition.halfAt (p : Partition) (cl : ClusterId) : Nat :=
  match p.owns cl 0, p.owns cl 1 with
  | true, false => 1
  | false, true => 2
  | _, _ => 0

/-! ## Keyed tables -/

/-- The record of a key, or the default. -/
def lookupBy {α : Type} (key : α → Nat) (dflt : α) (k : Nat) (l : List α) : α :=
  (l.find? fun r => key r == k).getD dflt

/-- Replaces the record of the same key, or adds it. -/
def storeBy {α : Type} (key : α → Nat) (r : α) : List α → List α
  | [] => [r]
  | q :: rest => if key q = key r then r :: rest else q :: storeBy key r rest

/-! ## Virtual addresses (R140) -/

/-- Bits 63:55 all equal bit 54. -/
def canonical (va : Nat) : Bool := va < 2 ^ 54 || (2 ^ 64 - 2 ^ 54 ≤ va && va < 2 ^ 64)

/-- What a canonical address is, before any table is read. -/
inductive Window where
  | ownScratch (off : Nat)
  | global (pa : Nat)
  | unmapped
  | translated
  deriving DecidableEq, Repr

def windowOf (va : Nat) : Window :=
  if va < 0xfffffff000000000 then .translated
  else if va ≤ 0xfffffff03fffffff then .global (scratchBase + va % 2 ^ 30)
  else if 0xfffffffffff00000 ≤ va then .ownScratch (va % 2 ^ 20)
  else .unmapped

/-! ## Page tables (R143, R144) -/

/-- The leaf a walk ends at: where the entry stands, the entry, and whether it maps 512 MiB. -/
structure Leaf where
  at' : Nat
  entry : Nat
  large : Bool
  deriving DecidableEq, Repr

/-- A reserved or contradictory bit pattern at a level (R144, R143). -/
def badEntry (level e : Nat) : Bool :=
  let leaf := e.testBit 1
  e / 2 ^ 52 != 0 || e / 2 ^ 10 % 64 != 0 ||
  (leaf && level == 1) || (!leaf && level == 3) ||
  (leaf && e.testBit 3 && !e.testBit 2) ||
  (leaf && 2 ≤ e / 256 % 4) ||
  (leaf && level == 2 && e / 2 ^ 16 % 2 ^ 13 != 0) ||
  (!leaf && e / 4 % 256 != 0)

/-- Reads the tables from `level` on; `table` is the physical address of that level's table, and `rd` reads one entry. -/
def walkFrom (rd : Nat → Nat) (va : Nat) : Nat → Nat → Nat → Except MemFault Leaf
  | 0, _, _ => .error .page
  | fuel + 1, level, table =>
    let index := va / 2 ^ (16 + 13 * (3 - level)) % 2 ^ 13
    let at' := table + 8 * index
    let e := rd at'
    if !e.testBit 0 then .error .page
    else if badEntry level e then .error .tableFormat
    else if e.testBit 1 then .ok ⟨at', e, level == 2⟩
    else walkFrom rd va fuel (level + 1) (e / 2 ^ 16 % 2 ^ 36 * 2 ^ 16)

/-- The walk of a virtual address from the translation root. -/
def walkTables (rd : Nat → Nat) (root va : Nat) : Except MemFault Leaf := walkFrom rd va 3 1 root

/-- The addresses of the entries that a walk reads. -/
def walkReads (rd : Nat → Nat) (va : Nat) : Nat → Nat → Nat → List Nat
  | 0, _, _ => []
  | fuel + 1, level, table =>
    let at' := table + 8 * (va / 2 ^ (16 + 13 * (3 - level)) % 2 ^ 13)
    let e := rd at'
    if !e.testBit 0 || badEntry level e || e.testBit 1 then [at']
    else at' :: walkReads rd va fuel (level + 1) (e / 2 ^ 16 % 2 ^ 36 * 2 ^ 16)

/-- The rights of a leaf cover the access (R144). -/
def rightsCover (entry : Nat) (r : Right) (user : Bool) : Bool :=
  (match r with
   | .read => entry.testBit 2
   | .write => entry.testBit 2 && entry.testBit 3
   | .fetch => entry.testBit 4) && !(user && entry.testBit 5)

/-- A number as `n` bytes, most significant byte first: the form that nonces and authenticated data have (R4). -/
def bigEndian (n v : Nat) : List Byte := (List.range n).map fun i => BitVec.ofNat 8 (v / 256 ^ (n - 1 - i))

end Sys2Proof.Machine
end

