-- ==== Sys2Proof/Machine/Access.lean ====
section
/-! DEFINITION. Looking things up in the state, coherent access to a block, cached translations, and the checks of R155. -/

namespace Sys2Proof.Machine

open Sys2Proof

/-! ## Records by key -/

/-- The core of a designation; a core that no record lists is as reset left it. -/
def State.coreOf (s : State) (c : CoreId) : Core := lookupBy Core.id { id := c } c s.cores

def State.setCore (s : State) (c : Core) : State := { s with cores := storeBy Core.id c s.cores }

def State.withCore (s : State) (c : CoreId) (f : Core → Core) : State := s.setCore (f (s.coreOf c))

/-- A number for each thread of the package. -/
def Who.key : Who → Nat
  | .core c slot => 2 * (c * 16 + slot)
  | .pp p tid => 2 * (p * 8 + tid) + 1

def Hart.key (h : Hart) : Nat := h.who.key

/-- The thread of a designation. -/
def State.hartOf (s : State) (w : Who) : Hart :=
  if s.cur.who = w then s.cur else lookupBy Hart.key { who := w } w.key s.harts

def State.setHart (s : State) (h : Hart) : State :=
  if s.cur.who = h.who then { s with cur := h } else { s with harts := storeBy Hart.key h s.harts }

def State.withHart (s : State) (w : Who) (f : Hart → Hart) : State := s.setHart (f (s.hartOf w))

/-- Makes `w` the executing thread. -/
def State.focus (s : State) (w : Who) : State :=
  if s.cur.who = w then s
  else { s with cur := s.hartOf w,
                harts := storeBy Hart.key s.cur (s.harts.filter fun h => h.who != w) }

def State.ppOf (s : State) (p : PpId) : Pp := lookupBy Pp.id { id := p } p s.pps

def State.setPp (s : State) (p : Pp) : State := { s with pps := storeBy Pp.id p s.pps }

def State.withPp (s : State) (p : PpId) (f : Pp → Pp) : State := s.setPp (f (s.ppOf p))

def State.ctxOf? (s : State) (n : CtxNo) : Option Ctx := s.ctxs.find? fun c => c.num == n

def State.withCtx (s : State) (n : CtxNo) (f : Ctx → Ctx) : State :=
  { s with ctxs := s.ctxs.map fun c => if c.num = n then f c else c }

def State.partOf? (s : State) (p : Nat) : Option Partition := s.parts.find? fun q => q.id == p

def State.withPart (s : State) (p : Nat) (f : Partition → Partition) : State :=
  { s with parts := s.parts.map fun q => if q.id = p then f q else q }

/-- The core of a core thread (a PP thread has none; it reads as core 0). -/
def Who.core' : Who → CoreId
  | .core c _ => c
  | .pp _ _ => 0

def Who.slot' : Who → Nat
  | .core _ k => k
  | .pp _ t => t

def Who.isPp : Who → Bool
  | .core _ _ => false
  | .pp _ _ => true

/-- The partition of a core. -/
def State.partOfCore (s : State) (c : CoreId) : Option Partition := (s.coreOf c).part.bind s.partOf?

/-- The context that a core runs. -/
def State.ctxOfCore (s : State) (c : CoreId) : Option Ctx := (s.partOfCore c).bind fun p => s.ctxOf? p.ctx

/-! ## Cycles and counters (R2, R374) -/

/-- Whole N-cycles and D-cycles of a die, and V-cycles and M-cycles of a core's partition. -/
def State.nCycles (s : State) (die : Nat) : Nat := s.nTicks.getD die 0 / 64
def State.dCycles (s : State) (die : Nat) : Nat := s.dTicks.getD die 0 / 64
def State.vCycles (s : State) (c : CoreId) : Nat := ((s.partOfCore c).map (·.vTicks)).getD 0 / 64
def State.mCycles (s : State) (c : CoreId) : Nat := ((s.partOfCore c).map (·.mTicks)).getD 0 / 64

/-- The raw value of a counter. -/
def State.countOf (s : State) (key : CtxNo × Nat × Nat × Nat) : BitVec 48 :=
  ((s.tally.find? fun e => e.1 == key).map (·.2)).getD 0

/-- Adds to a counter. -/
def State.count (s : State) (ctx : CtxNo) (unit cls idx n : Nat) : State :=
  let key := (ctx, unit, cls, idx)
  { s with tally := (key, s.countOf key + BitVec.ofNat 48 n) :: s.tally.filter fun e => e.1 != key }

/-- Adds to a counter of each context of a tenant. -/
def State.countTenant (s : State) (t : TenantNo) (unit cls idx : Nat) : State :=
  (s.ctxs.filter fun c => c.tenant == t).foldl (fun s c => s.count c.num unit cls idx 1) s

/-- A trace unit notes a traced event of a core (R377); what becomes of the record is decided when it is delivered. -/
def State.trace (s : State) (type : Nat) (c : CoreId) (slot : Nat) (pc : Word) (detail : Word) : State :=
  { s with oper := { s.oper with traced := s.oper.traced ++
    [⟨s.time, pc, c, slot, type, ((s.ctxOfCore c).map (·.num)).getD 0, detail⟩] } }

/-- A failure, stop or repair that concerns a context also yields an operator fault record (R381). -/
def State.noteFault (s : State) (ctx : CtxNo) (cause : Nat) (addr : Word) : State :=
  { s with oper := { s.oper with faults := s.oper.faults ++ [⟨s.time, ctx, cause, addr⟩] } }

/-! ## Coherent access to the bytes of a block -/

/-- A block as home memory holds it. -/
def homeData (m : List Host.Cell) (block : Nat) : BitVec 256 := BitVec.ofNat 256 (readBytes m block 32)

def putHomeData (m : List Host.Cell) (block : Nat) (d : BitVec 256) : List Host.Cell := writeBytes m block 32 d.toNat

/-- The `n` bytes at offset `off` of a block. -/
def blockBytes (d : BitVec 256) (off n : Nat) : Nat := d.toNat / 2 ^ (8 * off) % 2 ^ (8 * n)

/-- The block with `n` bytes at offset `off` replaced. -/
def patchBlock (d : BitVec 256) (off n v : Nat) : BitVec 256 :=
  let mask := BitVec.ofNat 256 ((2 ^ (8 * n) - 1) * 2 ^ (8 * off))
  (d &&& ~~~mask) ||| (BitVec.ofNat 256 (v % 2 ^ (8 * n) * 2 ^ (8 * off)))

/-- The dirty copy of a block, wherever a cache holds one. -/
def State.dirtyCopy (s : State) (block : Nat) : Option (BitVec 256) :=
  (s.cores.findSome? fun c => (c.l1.find? fun l => l.block == block && l.dirty).map (·.data)).or
    ((s.rdc.find? fun r => r.block == block && r.dirty).map (·.data))

/-- A block as a coherent reader sees it. -/
def State.blockData (s : State) (block : Nat) : BitVec 256 := (s.dirtyCopy block).getD (homeData s.mem block)

/-- `n` bytes within one block, or within scratchpad, as a coherent reader sees them. -/
def State.coherentRead (s : State) (pa n : Nat) : Nat :=
  match placeOf pa with
  | .dram => blockBytes (s.blockData (blockOf pa)) (pa % 32) n
  | _ => readBytes s.mem pa n

/-- The data of a block that a message carries, changed: of a grant that brings the block, and of dirty data that returns. -/
def NetMsg.mapData (m : NetMsg) (b : Nat) (f : BitVec 256 → BitVec 256) : NetMsg :=
  match m with
  | .grant p a k t false d w => if k = b then .grant p a k t false (f d) w else m
  | .tagAck p a k c (.some d) t => if k = b then .tagAck p a k c (.some (f d)) t else m
  | _ => m

/-- Writes `n` bytes within one block at the home, in every cached copy, and in what brings or returns the block. -/
def State.writeThrough (s : State) (pa n v : Nat) : State :=
  let b := blockOf pa
  let fix := fun d => patchBlock d (pa % 32) n v
  { s with
    mem := writeBytes s.mem pa n v
    cores := s.cores.map fun c =>
      { c with l1 := c.l1.map fun l => if l.block = b then { l with data := fix l.data } else l }
    rdc := s.rdc.map fun r => if r.block = b then { r with data := fix r.data } else r
    net := s.net.map fun m => m.mapData b fix }

/-- The same for a write that every agent reads from then on (log 42): no earlier write to the bytes can be read again. -/
def State.coherentWrite (s : State) (pa n v : Nat) : State :=
  { s.writeThrough pa n v with past := s.past.filter fun e => !(e.pa < pa + n && pa < e.pa + e.size) }

/-- A write at the home that leaves cached copies alone. -/
def State.homeWrite (s : State) (pa n v : Nat) : State :=
  { s with mem := writeBytes s.mem pa n v, past := s.past.filter fun e => !(e.pa < pa + n && pa < e.pa + e.size) }

/-! ## Regions (R275, R277) -/

/-- Memory that no valid entry covers: protocol 0, argument 0, flags 0. -/
def plainRegion (ctx : CtxNo) (pa : Nat) : Region := ⟨ctx, 0, 0, pa, false, false⟩

def regionLg (w : Word) : Nat := w.toNat / 2 ^ 6 % 2 ^ 6

/-- The entry covers the address. -/
def regionCovers (e : Word × Word) (va : Nat) : Bool :=
  e.2.getLsbD 8 && (va % 2 ^ 55) / 2 ^ regionLg e.1 == (e.1.toNat % 2 ^ 55) / 2 ^ regionLg e.1

/-- The region of an access. -/
def Ctx.region (c : Ctx) (va pa : Nat) : Region :=
  match (List.range 64).find? fun i => regionCovers (c.regions.getD i (0, 0)) va with
  | .none => plainRegion c.num pa
  | .some i =>
    let w := (c.regions.getD i (0, 0)).2.toNat
    { ctx := c.num, proto := w % 16, arg := w / 2 ^ 24 % 256
      homePa := if w.testBit 11 then c.regionPa.getD i 0 else pa
      evs := w.testBit 9, hint := w.testBit 10 }

/-! ## Cached translations (R145) -/

def TlbEntry.size (e : TlbEntry) : Nat := if e.large then 2 ^ 29 else 2 ^ 16

def TlbEntry.covers (e : TlbEntry) (ctx : CtxNo) (va : Nat) : Bool :=
  e.ctx == ctx && e.base ≤ va && va < e.base + e.size

/-- The entry that a core's access meets: its own, its cluster's, its die's. -/
def State.tlbFind (s : State) (c : CoreId) (ctx : CtxNo) (va : Nat) : Option TlbEntry :=
  let at' := fun l u => s.tlb.find? fun e => e.level == l && e.unit == u && e.covers ctx va
  (at' 0 c).or ((at' 1 (clusterOf c)).or (at' 2 (coreDie c)))

/-- The places that an entry of a level can take: any of a core's or a die's, or its set of a cluster's. -/
def tlbPlaces : Nat → Nat
  | 0 => 32
  | 1 => 8
  | _ => 4096

/-- Two entries compete for the same places: the cluster's TLB is 8-way, with 64 sets (R145). -/
def TlbEntry.competes (e q : TlbEntry) : Bool :=
  q.level == e.level && q.unit == e.unit &&
    (e.level != 1 || Config.tlbSet e.ctx e.base % 64 == Config.tlbSet q.ctx q.base % 64)

/-- Puts an entry into one TLB, which drops the entry it replaces and, when no place is left, a victim. -/
def tlbInsert (turn : Nat) (e : TlbEntry) (l : List TlbEntry) : List TlbEntry :=
  let same := fun (q : TlbEntry) => q.level == e.level && q.unit == e.unit && q.ctx == e.ctx && q.base == e.base
  let mine := l.filter fun q => e.competes q && !same q
  let others := l.filter fun q => !e.competes q && !same q
  let kept := if mine.length < tlbPlaces e.level then mine else mine.eraseIdx (Config.tlbVictim turn % mine.length)
  e :: kept ++ others

def TlbEntry.rights (e : TlbEntry) (r : Right) (user : Bool) : Bool :=
  (match r with
   | .read => e.read
   | .write => e.read && e.write
   | .fetch => e.exec) && !(user && e.superOnly)

/-- The cached form of a leaf. -/
def tlbOfLeaf (level unit : Nat) (ctx : CtxNo) (va : Nat) (l : Leaf) (dirty : Bool) : TlbEntry :=
  let e := l.entry
  { level := level, unit := unit, ctx := ctx
    base := if l.large then va / 2 ^ 29 * 2 ^ 29 else va / 2 ^ 16 * 2 ^ 16
    large := l.large
    pa := if l.large then e / 2 ^ 29 % 2 ^ 23 * 2 ^ 29 else e / 2 ^ 16 % 2 ^ 36 * 2 ^ 16
    uncached := e / 256 % 4 == 1
    dirty := dirty || e.testBit 7
    superOnly := e.testBit 5, exec := e.testBit 4, write := e.testBit 3, read := e.testBit 2 }

/-! ## The checks of R155 -/

/-- How the checks of an address end without a physical address. -/
inductive NoAddress where
  | fault (f : MemFault)
  /-- No cached translation: a walk is needed. -/
  | miss
  deriving DecidableEq, Repr

/-- A checked address. -/
structure Target where
  va : Nat
  pa : Nat
  uncached : Bool
  deriving DecidableEq, Repr, Inhabited

/-- Physical-address, device, and protection checks of a translated address (steps 4 to 6 of R155). -/
def State.checkPhysical (s : State) (part : Option Partition) (va pa : Nat) (uncached : Bool) (r : Right) :
    Except NoAddress Target :=
  let pa := localise s.pkg pa
  match placeOf pa with
  | .device => .error (.fault .permission)
  | .nothing => .error (.fault .physical)
  | .scratch =>
    if r = .fetch then .error (.fault .permission)
    else if part.any fun p => p.owns (scratchCluster pa) (scratchHalf pa) then .ok ⟨va, pa, uncached⟩
    else .error (.fault .protection)
  | .peerScratch => if r = .fetch then .error (.fault .permission) else .ok ⟨va, pa, uncached⟩
  | .peerDram | .dram => .ok ⟨va, pa, uncached⟩

/-- An access through one of the scratchpad windows (R140, R142). -/
def checkWindow (part : Option Partition) (c : CoreId) (va : Nat) (r : Right) : Window → Except NoAddress Target
  | .unmapped => .error (.fault .page)
  | .translated => .error (.fault .page)
  | .global pa =>
    if r = .fetch then .error (.fault .permission)
    else if part.any fun p => p.owns (scratchCluster pa) (scratchHalf pa) then .ok ⟨va, pa, false⟩
    else .error (.fault .protection)
  | .ownScratch off =>
    if r = .fetch then .error (.fault .permission)
    else match part with
      | .none => .error (.fault .protection)
      | .some p =>
        let half := p.halfAt (clusterOf c)
        let pa := scratchPa (clusterOf c) (if half = 2 then 0x80000 + off else off)
        if half ≠ 0 ∧ 0x80000 ≤ off then .error (.fault .protection)
        else if p.owns (clusterOf c) (scratchHalf pa) then .ok ⟨va, pa, false⟩
        else .error (.fault .protection)

/-- The checks of R155 for one access by a core: alignment, form, translation, rights, physical address, protection. -/
def State.check (s : State) (c : CoreId) (user : Bool) (va size : Nat) (r : Right) : Except NoAddress Target :=
  let part := s.partOfCore c
  if va % size ≠ 0 then .error (.fault .alignment)
  else if !canonical va then .error (.fault .addressForm)
  else match windowOf va with
    | .translated =>
      match s.ctxOfCore c with
      | .none => .error (.fault .page)
      | .some ctx =>
        match s.tlbFind c ctx.num va with
        | .none => .error .miss
        | .some e =>
          if !e.rights r user then .error (.fault .permission)
          else if r = .write ∧ !e.dirty then .error .miss
          else s.checkPhysical part va (e.pa + (va - e.base)) e.uncached r
    | w => checkWindow part c va r w

/-- A translation made by an engine or by the context engine straight from the tables, which marks the leaf accessed and,
for a write, dirty. It answers the physical address before the checks of steps 5 and 6. -/
def State.walkNow (s : State) (ctx : Ctx) (user : Bool) (va : Nat) (r : Right) :
    Except MemFault (State × Leaf) :=
  match walkTables (fun a => s.coherentRead a 8) ctx.root.toNat va with
  | .error f => .error f
  | .ok l =>
    if !rightsCover l.entry r user then .error .permission
    else
      let e := l.entry ||| 64 ||| (if r = .write then 128 else 0)
      .ok (s.coherentWrite l.at' 8 e, l)

/-- A walk for an address reads poisoned data (R386). -/
def State.walkPoisoned (s : State) (ctx : Ctx) (va : Nat) : Bool :=
  (walkReads (fun a => s.coherentRead a 8) va 3 1 ctx.root.toNat).any fun a => s.poison.contains (blockOf a)

def Leaf.pa (l : Leaf) (va : Nat) : Nat :=
  if l.large then l.entry / 2 ^ 29 % 2 ^ 23 * 2 ^ 29 + va % 2 ^ 29
  else l.entry / 2 ^ 16 % 2 ^ 36 * 2 ^ 16 + va % 2 ^ 16

def Leaf.uncached (l : Leaf) : Bool := l.entry / 256 % 4 == 1

/-- The checks of R155 for an access that waits for no walk: a missing translation is read from the tables at once. -/
def State.checkWalk (s : State) (c : CoreId) (user : Bool) (va size : Nat) (r : Right) : Except MemFault (State × Target) :=
  match s.check c user va size r with
  | .ok t => .ok (s, t)
  | .error (.fault f) => .error f
  | .error .miss =>
    match s.ctxOfCore c with
    | .none => .error .page
    | .some ctx =>
      match s.walkNow ctx user va r with
      | .error f => .error f
      | .ok (s, l) =>
        match s.checkPhysical (s.partOfCore c) va (l.pa va) l.uncached r with
        | .ok t => .ok (s, t)
        | .error (.fault f) => .error f
        | .error .miss => .error .page

/-! ## Instruction caches (R1, R341; log 11) -/

/-- The blocks that an instruction cache of 16 KiB holds. -/
def codeBlocks : Nat := 512

/-- A block enters the instruction cache of a core. -/
def State.cacheCode (s : State) (c : CoreId) (pa : Nat) : State :=
  let kept := (s.coreOf c).icache.filter fun e => e.1 != pa / 32
  let kept := if kept.length < codeBlocks then kept else kept.eraseIdx (Config.codeVictim s.turn % codeBlocks)
  s.withCore c fun k => { k with icache := (pa / 32, s.coherentRead (pa / 32 * 32) 32) :: kept }

/-- What the instruction cache of a core holds of a parcel. -/
def State.cachedParcel (s : State) (c : CoreId) (pa : Nat) : Option (BitVec 16) :=
  ((s.coreOf c).icache.find? fun e => e.1 == pa / 32).map fun e => BitVec.ofNat 16 (e.2 / 256 ^ (pa % 32))

/-- The region of an access by a core (R275, R277). -/
def State.regionAt (s : State) (c : CoreId) (t : Target) : Region :=
  match s.ctxOfCore c with
  | .none => plainRegion 0 t.pa
  | .some k => k.region t.va t.pa

end Sys2Proof.Machine
end

