-- ==== Sys2Proof/Machine/Order.lean ====
section
/-! DEFINITION. The memory model: which writes a thread may read, what releases, acquires and full fences order, and where a
write is performed (R169 to R177; log 42). -/

namespace Sys2Proof.Machine

open Sys2Proof

/-! ## Domains of a scope (R19, R170) -/

/-- Width and height in cores of the domains of a level: the product of the extents of the used levels below it (R334). -/
def LaunchRecord.domain (r : LaunchRecord) (n : Nat) : Nat × Nat :=
  (List.range n).foldl (fun d i =>
    let e := r.levels.getD i default
    if 1 ≤ i ∧ e.used then (d.1 * e.ex, d.2 * e.ey) else d) (1, 1)

/-- The record of the launch that a core runs. -/
def State.coreRecord (s : State) (c : CoreId) : Option LaunchRecord :=
  (s.partOfCore c).bind fun p => (s.dist.launches.find? fun l => l.num == p.launch).map (·.record)

/-- The level-4 domain of a core within its die: the group and the rectangle in it, in rows of the partition plane (R335); with no level-4
entry the die. -/
def State.block4 (s : State) (c : CoreId) : Option (Group × Nat × Nat) :=
  match s.partOfCore c, s.coreRecord c with
  | .some p, .some r =>
    if !(r.levels.getD 4 default).used then .none
    else
      let d := r.domain 4
      (p.groups.find? fun g =>
        (groupClusters g p.gw p.gh).contains (clusterOf c) && (g.half == 0 || g.half == coreHalf c + 1)).map fun g =>
        let row := if g.half = 0 then coreY c - 2 * (g.cluster / 16) else coreY c / 2 - g.cluster / 16
        (g, (coreX c - 4 * (g.cluster % 16)) / d.1, row / d.2)
  | _, _ => .none

/-- Two cores lie in one domain of a scope; a core that is not ganged is its own gang. -/
def State.sameDomain (s : State) (scope : Nat) (c d : CoreId) : Bool :=
  match scope with
  | 0 | 1 => c == d
  | 2 => c == d || ((s.coreOf c).gang.isSome && (s.coreOf c).gang == (s.coreOf d).gang)
  | 3 => clusterOf c == clusterOf d
  | 4 => coreDie c == coreDie d && s.block4 c == s.block4 d
  | 5 => coreDie c == coreDie d
  | _ => true

/-- The command processor as an agent of the memory model (R169). -/
def commandProcessor : Who := .pp 148 0

/-- A scope includes two agents; the command processor lies in the domains of scope 6 and above (R170). -/
def State.includes (s : State) (scope : Nat) (a b : Who) : Bool :=
  if a = b then true
  else if a = commandProcessor ∨ b = commandProcessor then decide (6 ≤ scope)
  else if scope = 0 then false
  else s.sameDomain scope a.core' b.core'

/-! ## Which write a read returns (R171, R175) -/

def overlaps (a n b m : Nat) : Bool := a < b + m && b < a + n

/-- The low `n` bytes of `base` with those of `data` that the mask names. -/
def overlay (mask data base : Nat) : Nat → Nat
  | 0 => 0
  | n + 1 => (if mask % 2 = 1 then data % 256 else base % 256) + 256 * overlay (mask / 2) (data / 256) (base / 256) n

def Past.covers (e : Past) (a : Nat) : Bool := e.pa ≤ a && a < e.pa + e.size

/-- A read that an agent issued at a turn returns the write or a later one: the agent has seen it, or it was performed before at a
scope that includes the agent (R175, R177). -/
def State.mustRead (s : State) (w : Who) (issued : Nat) (e : Past) : Bool :=
  e.seen.contains w || e.performed.any fun (sc, t) => decide (t ≤ issued) && s.includes sc e.owner w

/-- Of each write, newest first, whether a read of `n` bytes at `pa` passes over it: it may unless it has to return the write. -/
def State.judged (s : State) (must : Past → Bool) (pa n : Nat) : List (Past × Bool) :=
  s.past.mapIdx fun i e => (e, overlaps e.pa e.size pa n && !must e && Config.stale s.turn i)

/-- The bytes at `pa` before a write, but for those that a later write which the read keeps has written. -/
def Past.undo (e : Past) (kept : List Past) (pa n v : Nat) : Nat :=
  let mask := ((List.range n).map fun i =>
    if e.covers (pa + i) && !(kept.any fun k => k.covers (pa + i)) then 2 ^ i else 0).sum
  overlay mask (if e.pa ≤ pa then e.old / 256 ^ (pa - e.pa) else e.old * 256 ^ (e.pa - pa)) v n

/-- Takes from the bytes the writes passed over, newest first. -/
def undoAll (pa n : Nat) : List Past → Nat → List (Past × Bool) → Nat
  | _, v, [] => v
  | kept, v, (e, true) :: rest => undoAll pa n kept (e.undo kept pa n v) rest
  | kept, v, (e, false) :: rest => undoAll pa n (e :: kept) v rest

/-- What a read of `n` bytes returns where the newest writes have left `v`. -/
def State.readUnder (s : State) (must : Past → Bool) (pa n v : Nat) : Nat := undoAll pa n [] v (s.judged must pa n)

/-- What a read that an agent issued at a turn returns. -/
def State.readPast (s : State) (w : Who) (issued pa n v : Nat) : Nat := s.readUnder (s.mustRead w issued) pa n v

/-- What an access of the engine on a path, in the work of a thread, reads: the writes that happen before it and those of its own
work, `own`, or older ones where none does (R169, R175, R180, R248). -/
def State.enginePast (s : State) (w : Who) (path : Nat) (own : List Nat) (pa n v : Nat) : Nat :=
  s.readUnder (fun e => e.before.contains (w, path) || own.contains e.id) pa n v

/-- The writes, newest first, whose values the bytes have. -/
def topmost (ps : List Past) (pa n : Nat) : List Past :=
  ((List.range n).filterMap fun i => ps.find? fun e => e.covers (pa + i)).eraseDups

/-- The write happens before the thread's later accesses. -/
def Past.order (e : Past) (w : Who) : Past :=
  { e with seen := w :: e.seen.erase w, before := (w, 0) :: e.before.erase (w, 0) }

/-- The writes of some numbers happen before a thread's later accesses. -/
def State.orderIds (s : State) (w : Who) (ids : List Nat) : State :=
  { s with past := s.past.map fun e => if ids.contains e.id then e.order w else e }

/-- Both scopes reach (R174): the release of thread `a` at scope `sw` and the acquire of `w` at scope `sr`. -/
def State.meets (s : State) (w : Who) (sr : Nat) (a : Who) (sw : Nat) : Bool := s.includes sw a w && s.includes sr w a

/-- A thread has read the values of some writes, or taken a word: it hears what they cover, and an acquire at a scope orders it
(R135, R174). -/
def State.hear (s : State) (w : Who) (acquire : Option Nat) (cs : Cover) : State :=
  if cs = [] then s
  else { s with past := s.past.map fun e =>
    let mine := cs.filter fun c => c.2.2 == e.id
    let e := { e with heard := mine.map (fun c => (w, c.1, c.2.1)) ++ e.heard }
    if acquire.any fun sr => mine.any fun c => s.meets w sr c.1 c.2.1 then e.order w else e }

/-- A thread has read: it never again reads beneath the writes that it did not pass over. -/
def State.sawPast (s : State) (w : Who) (acquire : Option Nat) (issued pa n : Nat) : State :=
  let js := s.judged (s.mustRead w issued) pa n
  let mark := fun (j : Past × Bool) =>
    if !j.2 && overlaps j.1.pa j.1.size pa n then { j.1 with seen := w :: j.1.seen.erase w } else j.1
  ({ s with past := js.map mark } : State).hear w acquire ((topmost ((js.filter fun j => !j.2).map (·.1)) pa n).flatMap (·.cover))

/-- A write over bytes that held `old`, made by a thread or by the engine of a path for it. A thread's write stands after every
write to its bytes that has been made (R171). -/
def State.notePast (s : State) (w : Who) (path level id : Nat) (cover : Cover) (pa n old : Nat) : State :=
  let later := fun (e : Past) =>
    if path = 0 ∧ overlaps e.pa e.size pa n then { e with seen := w :: e.seen.erase w } else e
  let e : Past :=
    { id := id, pa := pa, size := n, old := old, owner := w, path := path, level := level, cover := cover
      seen := if path = 0 then [w] else [], before := if path = 0 then [(w, 0)] else [], released := [], heard := [], fenced := [] }
  { s with past := e :: s.past.map later }

/-- Write `k` and the older ones to its bytes are read by every agent from now on, once that holds of all that it covers. -/
def State.settlePast (s : State) (k : Nat) : State :=
  match s.past[k]? with
  | .none => s
  | .some e =>
    if e.cover.any fun c => c.2.2 != e.id && s.past.any fun q => q.id == c.2.2 then s
    else { s with past := s.past.take k ++ (s.past.drop (k + 1)).filter fun q => !overlaps q.pa q.size e.pa e.size }

/-! ## Where a write is performed (R177) -/

/-- How far a write has to be performed for a scope. -/
def levelFor (ganged : Bool) (scope : Nat) : Nat :=
  if scope = 0 then 0 else if scope = 1 ∨ (scope = 2 ∧ !ganged) then 1 else if scope = 2 then 2 else 3

/-- The thread's writes numbered below a bound that have left its store buffer, or those of an engine's path for it, are performed
at the scope. -/
def State.performedAt (s : State) (w : Who) (path scope below : Nat) : Bool :=
  s.past.all fun e => !(e.owner == w && e.path == path && decide (e.id < below)) || levelFor (s.coreOf w.core').gang.isSome scope ≤ e.level

/-- The thread has waited until its writes numbered below a bound were performed at a scope: every read by an agent in that scope
that is issued from now on returns them or later ones (R177). -/
def State.markPerformed (s : State) (w : Who) (scope below : Nat) : State :=
  { s with past := s.past.map fun e =>
      if e.owner == w && e.path == 0 && decide (e.id < below) then { e with performed := (scope, s.turn) :: e.performed } else e }

/-- The writes of releasing threads that a write covers have been waited for at the scopes of the releases (R177). -/
def State.markCover (s : State) (cs : Cover) : State :=
  if cs = [] then s
  else { s with past := s.past.map fun e =>
    { e with performed := ((cs.filter fun c => c.2.2 == e.id && c.1 == e.owner && e.path == 0).map fun c => (c.2.1, s.turn)) ++ e.performed } }

/-- Write `k` is performed one step further. -/
def State.spreadPast (s : State) (k : Nat) : State :=
  { s with past := s.past.mapIdx fun i e => if i = k then { e with level := min 3 (e.level + 1) } else e }

/-! ## Releases, acquires and full fences (R173 to R176) -/

/-- The numbers of the writes that happen before a thread's later accesses on a path. -/
def State.coverOf (s : State) (w : Who) (path : Nat) : List Nat :=
  s.past.filterMap fun e => if e.before.contains (w, path) then .some e.id else .none

/-- What the `fence.rel`s of a thread make its later writes and messages cover (R135, R174). -/
def State.fenceCover (s : State) (w : Who) : Cover :=
  s.past.flatMap fun e => (e.released.filter fun r => r.1 == w).map fun r => (w, r.2, e.id)

/-- What a write of a thread covers that is issued now as number `id`, by its own release and by the thread's `fence.rel`s; with
`waiting`, the numbers of the thread's writes that stand in its store buffer. -/
def State.writeCover (s : State) (w : Who) (release : Option Nat) (id : Nat) (waiting : List Nat) : Cover :=
  let own := match release with
    | .some sc => (id :: s.coverOf w 0 ++ waiting).map fun n => (w, sc, n)
    | .none => []
  let fences := s.fenceCover w
  own ++ fences ++ (fences.map (·.2.1)).eraseDups.map fun sc => (w, sc, id)

/-- `fence.rel` of a thread. -/
def State.fenceRel (s : State) (w : Who) (scope : Nat) : State :=
  let s := s.markPerformed w scope s.stamps
  { s with past := s.past.map fun e =>
      if e.before.contains (w, 0) then { e with released := (w, scope) :: e.released.erase (w, scope) } else e }

/-- `fence.acq` of a thread. -/
def State.fenceAcq (s : State) (w : Who) (scope : Nat) : State :=
  { s with past := s.past.map fun e =>
      if e.heard.any fun (b, a, sw) => b == w && s.meets w scope a sw then e.order w else e }

/-- A full fence of a thread releases and acquires (R173), and takes its place in the order of its scope: it passes on what happens
before it and what its thread has read, and sees what the fences before it passed on (R176). -/
def State.fullFence (s : State) (w : Who) (scope : Nat) : State :=
  let s := (s.fenceRel w scope).fenceAcq w scope
  { s with past := s.past.map fun e =>
      let e := if e.before.contains (w, 0) || e.seen.contains w then { e with fenced := (scope, w) :: e.fenced } else e
      if e.fenced.any fun (t, f) => t == scope && s.includes scope f w then { e with seen := w :: e.seen.erase w } else e }

/-- `xfence`: the attached accesses on path `p` of a thread happen before its later accesses on path `q` (R180). -/
def State.orderPath (s : State) (w : Who) (p q : Nat) : State :=
  { s with past := s.past.map fun e =>
      if !(e.before.contains (w, p) || (e.owner == w && e.path == p)) then e
      else if q = 0 then e.order w
      else { e with before := (w, q) :: e.before.erase (w, q) } }

end Sys2Proof.Machine
end

