-- ==== Sys2Proof/Machine/Ops.lean ====
section
/-! DEFINITION. The named operations every meaning is built from: register access under the full/empty bits, the event and
error queues, taking a trap and returning from one, waiting, and moving past an instruction. -/

namespace Sys2Proof.Machine

open Sys2Proof

/-! ## Fields of words -/

/-- Bits `lo + n - 1` to `lo`, as a number. -/
def field (w : Word) (lo n : Nat) : Nat := w.toNat / 2 ^ lo % 2 ^ n

/-- The word with those bits replaced by `v`. -/
def setField (w : Word) (lo n v : Nat) : Word :=
  (w &&& ~~~(BitVec.ofNat 64 ((2 ^ n - 1) * 2 ^ lo))) ||| BitVec.ofNat 64 (v % 2 ^ n * 2 ^ lo)

/-- The bits of a mask from `new`, the others from `old`: a write to a register with read-only fields (R5, R92). -/
def writeMasked (mask old new : Word) : Word := (old &&& ~~~mask) ||| (new &&& mask)

/-! ## Status (R310) -/

def Hart.pl (h : Hart) : Nat := field h.sys.status 0 2
/-- The thread runs at U. -/
def Hart.user (h : Hart) : Bool := h.pl == 0
def Hart.ie (h : Hart) : Bool := h.sys.status.getLsbD 3
def Hart.rf (h : Hart) : Bool := h.sys.status.getLsbD 11
def Hart.pp (h : Hart) : Bool := h.sys.status.getLsbD 10

def Hart.setStatus (h : Hart) (v : Word) : Hart := { h with sys := { h.sys with status := v } }

/-! ## Scalar and vector registers (R45, R46, R311) -/

/-- Where a scalar register stands: x31 has an S bank, at index 32. -/
def Hart.xIdx (h : Hart) (r : Reg) : Fin 33 :=
  if r = 31#5 then (if h.pl = 0 then 31 else 32) else ⟨r.toNat, by have := r.isLt; omega⟩

/-- A scalar register; x0 reads 0. -/
def Hart.readX (h : Hart) (r : Reg) : Word := if r = 0#5 then 0 else h.x[h.xIdx r]

def clearBit33 (b : BitVec 33) (i : Nat) : BitVec 33 := b &&& ~~~(1#33 <<< i)
def clearBit128 (b : BitVec 128) (i : Nat) : BitVec 128 := b &&& ~~~(1#128 <<< i)

/-- Fills the register at an index: the value lands with the full bit (R109). -/
def Hart.fillX (h : Hart) (i : Fin 33) (v : Word) : Hart :=
  { h with x := h.x.set i v, xe := clearBit33 h.xe i, xr := clearBit33 h.xr i }

/-- Writes a scalar register; a write to x0 is ignored. -/
def Hart.setX (h : Hart) (r : Reg) (v : Word) : Hart := if r = 0#5 then h else h.fillX (h.xIdx r) v

/-- Marks a scalar register empty (R109). -/
def Hart.markX (h : Hart) (r : Reg) : Hart :=
  if r = 0#5 then h else { h with xe := h.xe ||| (1#33 <<< (h.xIdx r).val) }

/-- The register is empty. -/
def Hart.emptyX (h : Hart) (r : Reg) : Bool := r != 0#5 && h.xe.getLsbD (h.xIdx r)

def Hart.readV (h : Hart) (r : VReg) : Vec := h.v[r.toNat]'r.isLt

def Hart.setV (h : Hart) (r : VReg) (v : Vec) : Hart :=
  { h with v := h.v.set r.toNat v r.isLt, ve := clearBit128 h.ve r.toNat, vr := clearBit128 h.vr r.toNat }

def Hart.markV (h : Hart) (r : VReg) : Hart := { h with ve := h.ve ||| (1#128 <<< r.toNat) }

def Hart.emptyV (h : Hart) (r : VReg) : Bool := h.ve.getLsbD r.toNat

/-! ## Trap causes (R312) and what ends an instruction before its effect -/

/-- The causes of R312, in the order of their codes from 1. -/
inductive Cause where
  | illegalInstruction | illegalPrefix | illegalInFrame | privilege | illegalRegister | emptyRegister
  | alignment | addressForm | pageFault | tableFormat | permission | physicalAddress | protection
  | remoteAccess | refusedAccess | sendTimeOut | target | streamState | copyArgument | syncAddress
  | invalidModulus | matrixArgument | noLease | singularBlock | gangStop | softwareTrap | systemCall
  | breakpoint | eventInterrupt
  deriving DecidableEq, Repr, Inhabited

/-- The code of a cause. -/
def Cause.code : Cause → Nat
  | .illegalInstruction => 1 | .illegalPrefix => 2 | .illegalInFrame => 3 | .privilege => 4
  | .illegalRegister => 5 | .emptyRegister => 6 | .alignment => 7 | .addressForm => 8 | .pageFault => 9
  | .tableFormat => 10 | .permission => 11 | .physicalAddress => 12 | .protection => 13
  | .remoteAccess => 14 | .refusedAccess => 15 | .sendTimeOut => 16 | .target => 17 | .streamState => 18
  | .copyArgument => 19 | .syncAddress => 20 | .invalidModulus => 21 | .matrixArgument => 22
  | .noLease => 23 | .singularBlock => 24 | .gangStop => 25 | .softwareTrap => 26 | .systemCall => 27
  | .breakpoint => 28 | .eventInterrupt => 29

def MemFault.cause : MemFault → Cause
  | .alignment => .alignment | .addressForm => .addressForm | .page => .pageFault
  | .tableFormat => .tableFormat | .permission => .permission | .physical => .physicalAddress
  | .protection => .protection

/-- A trap as its detector reports it: cause, value, and the flag bits of `tcause`. -/
structure Trap where
  cause : Cause
  tval : Word
  write : Bool := false
  fetch : Bool := false
  intr : Bool := false
  deriving DecidableEq, Repr

/-- `tcause` of a trap (R312). -/
def Trap.word (t : Trap) : Word :=
  BitVec.ofNat 64 (t.cause.code + (if t.fetch then 256 else 0) + (if t.intr then 512 else 0) +
    (if t.write then 1024 else 0))

/-- What ends an instruction before it has any effect. -/
inductive Exc where
  | trap (t : Trap)
  /-- A read of a register marked refused: it becomes full with 0, and the refused-access trap is taken (R302). -/
  | refusedX (i : Fin 33) (r : Reg)
  | refusedV (r : VReg)
  /-- The thread waits, and executes the instruction again. -/
  | wait (w : Wait)
  /-- The thread waits for a walk (R145). -/
  | walk (va : Nat) (r : Right)
  /-- The fault of a handler, by kind (R301). -/
  | handler (kind : Nat)
  /-- Poisoned data was consumed: a fatal trap that leaves the trap registers alone (R386). -/
  | poison
  /-- A breakpoint, by its number, stops the thread before the instruction (R378). -/
  | debug (n : Nat)
  deriving DecidableEq, Repr

/-- The cause of a code; codes outside the table are never written (R312). -/
def Cause.ofCode : Nat → Cause
  | 2 => .illegalPrefix | 3 => .illegalInFrame | 4 => .privilege
  | 5 => .illegalRegister | 6 => .emptyRegister | 7 => .alignment | 8 => .addressForm | 9 => .pageFault
  | 10 => .tableFormat | 11 => .permission | 12 => .physicalAddress | 13 => .protection
  | 14 => .remoteAccess | 15 => .refusedAccess | 16 => .sendTimeOut | 17 => .target | 18 => .streamState
  | 19 => .copyArgument | 20 => .syncAddress | 21 => .invalidModulus | 22 => .matrixArgument
  | 23 => .noLease | 24 => .singularBlock | 25 => .gangStop | 26 => .softwareTrap | 27 => .systemCall
  | 28 => .breakpoint | 29 => .eventInterrupt | _ => .illegalInstruction

/-- The trap that a `tcause` and a `tval` record. -/
def Trap.ofWords (cause tval : Word) : Trap :=
  { cause := Cause.ofCode (cause.toNat % 256), tval := tval, fetch := cause.getLsbD 8, intr := cause.getLsbD 9
    write := cause.getLsbD 10 }

def trapOf (c : Cause) (tval : Word) : Exc := .trap { cause := c, tval := tval }

/-- The registers an instruction names are examined in the order d, a, b, then vd, va, vb; the first empty one decides
(R110). A refused one traps, an empty one traps when its trap-if-empty bit is 1 and waits otherwise (R16, R86). -/
def Hart.needX (h : Hart) (r : Reg) : Except Exc Unit :=
  if !h.emptyX r then .ok ()
  else if h.xr.getLsbD (h.xIdx r) then .error (.refusedX (h.xIdx r) r)
  else if h.sys.temaskX.getLsbD r.toNat then .error (trapOf .emptyRegister (BitVec.ofNat 64 r.toNat))
  else .error (.wait (.scalar (h.xIdx r)))

def Hart.temaskV (h : Hart) (r : VReg) : Bool :=
  (h.sys.temaskV.getD (r.toNat / 32) 0).getLsbD (r.toNat % 32)

def Hart.needV (h : Hart) (r : VReg) : Except Exc Unit :=
  if !h.emptyV r then .ok ()
  else if h.vr.getLsbD r.toNat then .error (.refusedV r)
  else if h.temaskV r then .error (trapOf .emptyRegister (BitVec.ofNat 64 (0x100 + r.toNat)))
  else .error (.wait (.vector r.toNat))

/-- Reads a scalar register that has to be full. -/
def Hart.getX (h : Hart) (r : Reg) : Except Exc Word :=
  match h.needX r with
  | .ok _ => .ok (h.readX r)
  | .error e => .error e

def Hart.getV (h : Hart) (r : VReg) : Except Exc Vec :=
  match h.needV r with
  | .ok _ => .ok (h.readV r)
  | .error e => .error e

/-! ## Repeat frames and the next instruction (R97, R99) -/

def Hart.iter (h : Hart) : Nat := field h.sys.repst 24 8
def Hart.pos (h : Hart) : Nat := field h.sys.repst 20 4
def Hart.frameCount (h : Hart) : Nat := field h.sys.repst 12 8
def Hart.bofs (h : Hart) : Nat := field h.sys.repst 32 6

/-- `repst` with a new iteration, position and offset. -/
def Hart.setFramePos (h : Hart) (iter pos bofs : Nat) : Hart :=
  { h with sys := { h.sys with repst := setField (setField (setField h.sys.repst 24 8 iter) 20 4 pos) 32 6 bofs } }

/-- The next position of the frame, or its end (R97). -/
def Hart.frameNext (h : Hart) (len : Nat) : Hart :=
  if h.pos < 15 then
    { h.setFramePos h.iter (h.pos + 1) (h.bofs + len / 2) with pc := h.pc + BitVec.ofNat 64 len }
  else if h.iter < h.frameCount then
    { h.setFramePos (h.iter + 1) 0 0 with pc := h.pc - BitVec.ofNat 64 (2 * h.bofs) }
  else
    { h.setStatus (setField h.sys.status 11 1 0) with frame := [], pc := h.pc + BitVec.ofNat 64 len }

/-- What every instruction leaves behind when it completes: an empty latch, and no wait. -/
def Hart.settle (h : Hart) : Hart :=
  { h with latch := .none, walkFault := .none, wait := .none, ended := .done, resumed := false, since := .none
           landed := .none, elemsDone := [] }

/-- Moves past an instruction of `len` bytes. -/
def Hart.advance (h : Hart) (len : Nat) : Hart :=
  if h.frame = [] then { h.settle with pc := h.pc + BitVec.ofNat 64 len } else h.settle.frameNext len

/-- Completes a transfer of control. -/
def Hart.jump (h : Hart) (t : Word) : Hart := { h.settle with pc := t &&& ~~~1#64 }

/-! ## Queue registers (R47, R108, R125, R130, R132) -/

/-- The length of the instruction being executed. -/
def Hart.len (h : Hart) : Nat := if h.word.getLsbD 0 then 4 else 2

/-- The slots in search order, from the one after the slot that last issued (R15). -/
def searchOrder (last n : Nat) : List Nat := (List.range n).map fun i => (last + 1 + i) % n

def Core.queue (k : Core) (q : Nat) : List Vec := k.queues.getD q []

/-- q0 refills from the drain buffer (R227). -/
def Core.refill (k : Core) : Core :=
  let n := 8 - k.queues[0].length
  { k with queues := k.queues.set 0 (k.queues[0] ++ k.drainBuf.take n), drainBuf := k.drainBuf.drop n }

/-- The half pointer of a queue. -/
def Core.half (k : Core) (q : Nat) : Bool := k.halves.getLsbD q

def Core.setHalf (k : Core) (q : Nat) (b : Bool) : Core :=
  { k with halves := if b then k.halves ||| (1#4 <<< q) else k.halves &&& ~~~(1#4 <<< q) }

/-- The head entry leaves a queue. -/
def Core.dropHead (k : Core) (q : Nat) : Core :=
  (({ k with queues := k.queues.setIfInBounds q (k.queue q).tail } : Core).setHalf q false).refill

/-- Takes one half of the head entry (R130). -/
def Core.popHalf (k : Core) (q : Nat) : Option (Word × Core) :=
  match k.queue q with
  | [] => .none
  | e :: _ =>
    if k.half q then .some (e.extractLsb' 64 64, k.dropHead q) else .some (e.setWidth 64, k.setHalf q true)

/-- Takes the head entry, or what is left of it (R132). -/
def Core.popWhole (k : Core) (q : Nat) : Option (Vec × Core) :=
  match k.queue q with
  | [] => .none
  | e :: _ => .some (if k.half q then (e.extractLsb' 64 64).setWidth 128 else e, k.dropHead q)

/-- Pops for a destination: a half for a scalar register, an entry for a vector register. -/
def Core.popFor (k : Core) (q : Nat) : Dest → Option (Vec × Core)
  | .vector _ => k.popWhole q
  | _ => (k.popHalf q).map fun (v, k) => (v.setWidth 128, k)

/-- Fills the destination of a pop. -/
def Hart.fillPop (h : Hart) (d : Dest) (v : Vec) : Hart :=
  match d with
  | .scalar i => if hi : i < 33 then h.fillX ⟨i, hi⟩ (v.setWidth 64) else h
  | .vector j => if j < 128 then h.setV (BitVec.ofNat 7 j) v else h
  | .nowhere | .pair _ _ => h

/-- The thread waits to pop the queue. -/
def Hart.popWait (h : Hart) (q : Nat) : Option Dest :=
  match h.wait with
  | .queue q' d => if q' = q ∧ h.life = .live then .some d else .none
  | _ => .none

/-- The number of a queue's head entry among those that have entered it. -/
def Core.headNo (k : Core) (q : Nat) : Nat := k.entered.getD q 0 - (k.queue q).length

/-- What the word at the head of a queue covers (R135). -/
def Core.headCover (k : Core) (q : Nat) : Cover :=
  ((k.carried.find? fun e => e.1 == q && e.2.1 == k.headNo q).map (·.2.2)).getD []

/-- Forgets what the words that have left a queue covered. -/
def Core.forgetCarried (k : Core) (q : Nat) : Core :=
  { k with carried := k.carried.filter fun e => e.1 != q || decide (k.headNo q ≤ e.2.1) }

/-- A thread takes from the head of a queue of its core: for its acquire fences it hears what the word covers. -/
def State.hearHead (s : State) (c : CoreId) (slot q : Nat) : State :=
  s.hear (.core c slot) .none ((s.coreOf c).headCover q)

/-- An entry that arrives at a queue goes to the first thread that waits on it, in search order; in a gang that thread
executes its pop again with the other members (R104, R108). -/
def State.serveQueue (s : State) (c : CoreId) (q : Nat) : State :=
  let k := s.coreOf c
  match (searchOrder k.lastSlot k.threads).findSome? fun i =>
      ((s.hartOf (.core c i)).popWait q).map fun d => (i, d) with
  | .none => s
  | .some (i, d) =>
    if k.gang.isSome then s.withHart (.core c i) fun h => { h with wait := .none }
    else match k.popFor q d with
      | .none => s
      | .some (v, k) =>
        (((s.hearHead c i q).setCore (k.forgetCarried q))).withHart (.core c i) fun h => (h.fillPop d v).advance h.len

/-- An entry arrives at the end of a queue; while the core's partition is on its way out no thread takes it (R322). -/
def State.arrive (s : State) (c : CoreId) (q : Nat) (e : Vec) : State :=
  let s := s.withCore c fun k =>
    { k with queues := k.queues.setIfInBounds q (k.queue q ++ [e]), entered := k.entered.setIfInBounds q (k.entered.getD q 0 + 1) }
  if (s.partOfCore c).any fun p => p.state == .saving then s else s.serveQueue c q

/-! ## The event queue (R133) -/

def eventEntry (code detail time : Nat) : Vec := BitVec.ofNat 128 (code + detail % 2 ^ 56 * 2 ^ 8 + time % 2 ^ 64 * 2 ^ 64)

/-- Posts an event of a time to a core; an entry of the same code is replaced in place. -/
def State.postEventAt (s : State) (c : CoreId) (code detail time : Nat) : State :=
  let e := eventEntry code detail time
  let same := fun (x : Vec) => x.toNat % 256 == code
  if ((s.coreOf c).queue 3).any same then
    s.withCore c fun k => { k with queues := k.queues.set 3 (k.queues[3].map fun x => if same x then e else x) }
  else s.arrive c 3 e

/-- Posts an event to a core now. -/
def State.postEvent (s : State) (c : CoreId) (code detail : Nat) : State := s.postEventAt c code detail s.time

/-- The cores of a partition, in plane order of its groups. -/
def Partition.cores (p : Partition) : List CoreId :=
  p.groups.flatMap fun g => (groupClusters g p.gw p.gh).flatMap fun cl =>
    ((List.range 8).filter fun i => g.half == 0 || g.half == i / 4 + 1).map (clusterCore cl)

/-- Posts an event to every core of a partition. -/
def State.postEvents (s : State) (p : Partition) (code detail : Nat) : State :=
  p.cores.foldl (fun s c => s.postEvent c code detail) s

def State.partOfCtx (s : State) (n : CtxNo) : Option Partition := s.parts.find? fun p => p.ctx == n

/-- Events of a context go to its cores; while it is switched out they are held, merged by code (R133, R323). -/
def State.postEventsCtx (s : State) (n : CtxNo) (code detail : Nat) : State :=
  match s.partOfCtx n with
  | .none => s.withCtx n fun k => { k with heldEvents := k.heldEvents.filter (fun e => e.1 != code) ++ [(code, detail, s.time)] }
  | .some p => s.postEvents p code detail

/-- Posts events that were held, with the times at which they arrived, to every core of a partition (R133, R323). -/
def State.postHeld (s : State) (p : Partition) (es : List (Nat × Nat × Nat)) : State :=
  es.foldl (fun s e => p.cores.foldl (fun s m => s.postEventAt m e.1 e.2.1 e.2.2) s) s

/-! ## Virtual addresses on the host path (R168, R339): tables and the global window, at level S -/

/-- The physical address of a host-path access of a context, or nothing when it faults. -/
def State.hostPath (s : State) (ctx : Ctx) (va : Nat) (r : Right) : Option (State × Nat) :=
  let part := s.partOfCtx ctx.num
  if !canonical va then .none
  else match windowOf va with
    | .unmapped | .ownScratch _ => .none
    | .global pa =>
      if part.any fun p => p.owns (scratchCluster pa) (scratchHalf pa) then .some (s, pa) else .none
    | .translated =>
      if s.walkPoisoned ctx va then .none
      else match s.walkNow ctx false va r with
      | .error _ => .none
      | .ok (s', l) =>
        match s'.checkPhysical part va (l.pa va) l.uncached r with
        | .ok t => .some (s', t.pa)
        | .error _ => .none

/-! ## The error queue (R167, R168) -/

/-- Entry bytes 16 to 23: cause and detail. -/
structure ErrorEntry where
  addr : Word
  peer : Word
  cause : Nat
  detail : Nat
  deriving DecidableEq, Repr

/-- The ring cannot be written: it is disabled, and event 2 is posted once. -/
def State.dropErrorQueue (s : State) (c : Ctx) : State :=
  (s.withCtx c.num fun k => { k with errq := setField k.errq 0 4 0, muted := true }).postEventsCtx c.num 2 0

/-- Posts an entry, or counts it as lost when the ring is full (R168). -/
def State.postError (s : State) (n : CtxNo) (e : ErrorEntry) : State :=
  match s.ctxOf? n with
  | .none => s
  | .some c =>
    let lgn := field c.errq 0 4
    if lgn = 0 then (if c.muted then s else s.dropErrorQueue c)
    else
      let base := c.errq.toNat / 4096 * 4096
      match s.hostPath c base .write with
      | .none => s.dropErrorQueue c
      | .some (s, hd) =>
        let widx := s.coherentRead hd 8
        let ridx := s.coherentRead (hd + 8) 8
        if (widx + 2 ^ 64 - ridx) % 2 ^ 64 = 2 ^ lgn - 1 then
          s.coherentWrite (hd + 16) 8 (s.coherentRead (hd + 16) 8 + 1)
        else
          match s.hostPath c (base + 32 * (1 + widx % (2 ^ lgn - 1))) .write with
          | .none => s.dropErrorQueue c
          | .some (s, at') =>
            let s := s.coherentWrite at' 8 e.addr.toNat
            let s := s.coherentWrite (at' + 8) 8 e.peer.toNat
            let s := s.coherentWrite (at' + 16) 4 e.cause
            let s := s.coherentWrite (at' + 20) 4 e.detail
            let s := s.coherentWrite (at' + 24) 8 s.time
            let s := s.coherentWrite hd 8 (widx + 1)
            let s := s.noteFault c.num e.cause e.addr
            if widx = ridx then s.postEventsCtx c.num 2 0 else s

/-! ## Messages of PPs: refusing, freeing (R285, R292, R301, R302) -/

/-- Refuses a message: to the PP that sent it, or to the requester. Only requests are refused. -/
def State.refuseMsg (s : State) (p : PpId) (m : PpMsg) (code : Nat) : State :=
  match m.sender with
  | .some q => { s with net := s.net ++ [.refusePp p q m.block code] }
  | .none =>
    if m.reply then s else { s with net := s.net ++ [.refuse p m.agent m.block code m.ctx] }

/-- The summary a block's record gives when the block is not busy: from its entry, or open when it was left open. -/
def HomeBlock.settled (b : HomeBlock) : Nat := if b.entry ≠ 0 then 1 else if b.summary = 3 then 3 else 0

def State.homeOf (s : State) (p : PpId) (block : Nat) : HomeBlock :=
  (s.home.find? fun b => b.block == block && b.pp == p).getD ⟨block, 0, 0, 0, 0, 0, p, .none⟩

def State.setHome (s : State) (b : HomeBlock) : State :=
  { s with home := b :: s.home.filter fun q => !(q.block == b.block && q.pp == b.pp) }

/-- The block's busy entry at a PP. -/
def Pp.busyOf (p : Pp) (block : Nat) : Option Busy := p.busy.find? fun b => b.block == block

/-- Frees a busy block: the busy list, then the retry list when `retry`, are put ahead of the request queue (R292). -/
def State.freeBlock (s : State) (p : PpId) (block : Nat) (retry : Bool) : State :=
  let q := s.ppOf p
  match q.busyOf block with
  | .none => s
  | .some b =>
    s.setPp { q with
      busy := q.busy.filter fun k => k.block != block
      reqQueue := ((b.list ++ (if retry then q.retry else [])).map fun m => { m with replayed := true }) ++ q.reqQueue
      retry := if retry then [] else q.retry }

/-- Slots 0 to 5 hold the library protocols (R283). -/
def isLibrary (proto : Nat) : Bool := decide (proto ≤ 5)

/-- The handler fault (R301): the handler ends, its message is refused with code 0xff, a loadable binding is marked faulted
at every PP and its busy blocks are freed, and an error-queue entry with cause 10 is posted. -/
def State.handlerFault (s : State) (kind : Nat) : State :=
  let h := s.cur
  match h.who, h.handler with
  | .pp p _, .some k =>
    let s := { s with cur := { h with life := .vacant, handler := .none, wait := .none, ended := .trapped } }
    let s := s.refuseMsg p k.msg 0xff
    let s : State :=
      if isLibrary k.msg.proto then s
      else
        let mine := fun (b : Binding) => b.ctx == k.msg.ctx && b.proto == k.msg.proto
        let s : State := { s with pps := s.pps.map fun q =>
          { q with bindings := q.bindings.map fun b => if mine b then { b with faulted := true } else b } }
        s.pps.foldl (fun (s : State) (q : Pp) => (q.busy.filter fun b => b.ctx == k.msg.ctx && b.proto == k.msg.proto).foldl
          (fun (s : State) (b : Busy) => s.freeBlock q.id b.block true) s) s
    s.postError k.msg.ctx ⟨h.pc, 0, 10, kind * 256⟩
  | _, _ => s

/-! ## Taking a trap (R315) -/

/-- The trap base of the thread's context; 0 when it runs none. -/
def State.trapBase (s : State) : Word :=
  match s.ctxOfCore s.cur.who.core' with
  | .none => 0
  | .some c => c.tbase

/-- Where a core at S would fetch a parcel, judged by the cached translation or by the tables; nothing when that faults. -/
def State.fetchPlace (s : State) (c : CoreId) (va : Nat) : Option Target :=
  match s.check c false va 2 .fetch with
  | .ok t => .some t
  | .error (.fault _) => .none
  | .error .miss =>
    match s.ctxOfCore c with
    | .none => .none
    | .some ctx =>
      match walkTables (fun a => s.coherentRead a 8) ctx.root.toNat va with
      | .error _ => .none
      | .ok l =>
        if !rightsCover l.entry .fetch false then .none
        else (s.checkPhysical (s.partOfCore c) va (l.pa va) l.uncached .fetch).toOption

/-- The parcel at a place opens an instruction of four bytes (R29). -/
def State.opensWord (s : State) (t : Target) : Bool :=
  if isRemote s.pkg t.pa then (Config.peerParcel s.turn t.pa).getLsbD 0 else s.coherentRead t.pa 2 % 2 == 1

/-- A fetch of the instruction at an address by a core at S would fault: of its first parcel, or of the second where it has one. -/
def State.fetchFaults (s : State) (c : CoreId) (va : Nat) : Bool :=
  match s.fetchPlace c va with
  | .none => true
  | .some t => s.opensWord t && (s.fetchPlace c ((va + 2) % 2 ^ 64)).isNone

/-- The three registers that every trap writes, fatal or not. -/
def Hart.recordTrap (h : Hart) (t : Trap) (epc : Word) : Hart :=
  { h with sys := { h.sys with tepc := epc, tcause := t.word, tval := t.tval } }

/-- `status` at trap entry: ppl and pie saved, ie cleared, level S. -/
def trapStatus (st : Word) : Word :=
  let st := setField st 9 1 (field st 0 2)
  let st := setField st 4 1 (field st 3 1)
  setField (setField st 3 1 0) 0 2 1

/-- A full latch goes to `pfx` (R79). -/
def Hart.savePrefix (h : Hart) : Hart :=
  match h.latch with
  | .none => h
  | .some w => { h with latch := .none, sys := { h.sys with pfx := w.setWidth 64, status := setField h.sys.status 10 1 1 } }

/-- Trap entry of one thread at a handler address (R315). -/
def Hart.enterTrap (h : Hart) (t : Trap) (base : Word) : Hart :=
  let h := (h.recordTrap t h.pc).savePrefix
  { h with
    sys := { h.sys with status := trapStatus h.sys.status }
    frame := [], walkFault := .none, wait := .none, since := .none, ended := .trapped, resumed := false, recapture := false
    landed := .none, elemsDone := [], pc := base &&& ~~~1#64 }

/-- A debug stop or a gang switch takes the latch away (R79). -/
def Hart.parkPrefix (h : Hart) : Hart :=
  if h.latch.isSome then { h.savePrefix with prefixSaved := true } else h

/-- The thread goes on under the prefix that was pending, as `tret` would load it. -/
def Hart.loadPrefix (h : Hart) : Hart :=
  if h.prefixSaved then
    { h with prefixSaved := false, latch := .some (h.sys.pfx.setWidth 32)
             sys := { h.sys with status := setField h.sys.status 10 1 0 } }
  else h

/-- The instruction completes whose prefix has been put away: it is pending no longer. -/
def Hart.usePrefix (h : Hart) : Hart :=
  if h.prefixSaved then { h with prefixSaved := false, sys := { h.sys with status := setField h.sys.status 10 1 0 } } else h

/-- A `syncw` that is undone leaves its register full again: it is executed anew (R164). -/
def Hart.dropSyncw (h : Hart) : Hart :=
  match h.wait with
  | .sync _ _ d _ => if d = 0#5 then h else { h with xe := clearBit33 h.xe (h.xIdx d) }
  | _ => h

/-- A debug stop removes the thread from its slot before the instruction (R378). -/
def Hart.stopDebug (h : Hart) : Hart :=
  { h.dropSyncw.parkPrefix with life := .debug, stopAsked := false, wait := .none, landed := .none, elemsDone := [], ended := .waited }

/-- A fatal trap leaves the entry undone; the stop follows (R315, R319). -/
def Hart.fatalTrap (h : Hart) (t : Trap) : Hart := { h.recordTrap t h.pc with wait := .fatal false, ended := .trapped }

/-- Takes a trap in the executing thread. -/
def State.trap (s : State) (t : Trap) : State :=
  let base := s.trapBase
  if base = 0 ∨ s.fetchFaults s.cur.who.core' (base &&& ~~~1#64).toNat then { s with cur := s.cur.fatalTrap t }
  else ({ s with cur := s.cur.enterTrap t base } : State).trace 1 s.cur.who.core' s.cur.who.slot' s.cur.pc t.word

/-- The executing thread waits; its instruction has had no effect. -/
def State.waitFor (s : State) (w : Wait) : State :=
  { s with cur := { s.cur with wait := w, ended := .waited } }

/-- One walk serves two addresses: they lie in one 64 KiB page, or in one 512 MiB page whose leaf the walker has met (R145). -/
def State.oneWalk (s : State) (ctx : Ctx) (a b : Nat) : Bool :=
  a / 2 ^ 16 == b / 2 ^ 16 || (a / 2 ^ 29 == b / 2 ^ 29 && Config.leafMet s.turn &&
    (match walkTables (fun a => s.coherentRead a 8) ctx.root.toNat a with
     | .ok l => l.large
     | .error _ => false))

/-- A walk of the context that serves an address is under way on a die. -/
def State.walkToJoin (s : State) (die : Nat) (ctx : Ctx) (va : Nat) : Bool :=
  s.walks.any fun w => w.die == die && w.ctx == ctx.num && s.oneWalk ctx w.va va

/-- The walker of a die and its queue have room. -/
def State.walkRoom (s : State) (die : Nat) : Bool := (s.walks.filter fun w => w.die == die).length < 1024 + 64

/-- A walk enters its queue; of one N-cycle those of lower core numbers stand first. -/
def enterWalks (l : List Walk) (w : Walk) : List Walk :=
  let later := fun (v : Walk) => v.die == w.die && v.at' == w.at' &&
    decide (64 * coreY w.core + coreX w.core < 64 * coreY v.core + coreX v.core)
  l.filter (fun v => !later v) ++ [w] ++ l.filter later

/-- Queues a walk for the executing thread, or joins one. -/
def State.startWalk (s : State) (va : Nat) (r : Right) : State :=
  let c := s.cur.who.core'
  match s.ctxOfCore c with
  | .none => s.waitFor .again
  | .some ctx =>
    if s.walkToJoin (coreDie c) ctx va then s.waitFor (.walk va r)
    else if s.walkRoom (coreDie c) then
      ({ s with walks := enterWalks s.walks ⟨coreDie c, c, ctx.num, va, s.nCycles (coreDie c)⟩ } : State).waitFor (.walk va r)
    else s.waitFor (.room (.walks va))

/-- What the machine does with an instruction that ends before its effect. -/
def State.raise (s : State) : Exc → State
  | .trap t => s.trap t
  | .refusedX i r =>
    ({ s with cur := s.cur.fillX i 0 } : State).trap { cause := .refusedAccess, tval := BitVec.ofNat 64 r.toNat }
  | .refusedV r =>
    ({ s with cur := s.cur.setV r 0 } : State).trap { cause := .refusedAccess, tval := BitVec.ofNat 64 (0x100 + r.toNat) }
  | .wait w => s.waitFor w
  | .walk va r => s.startWalk va r
  | .handler k => s.handlerFault k
  | .poison => s.waitFor (.fatal true)
  | .debug n =>
    ({ s with cur := s.cur.stopDebug } : State).trace 8 s.cur.who.core'
      s.cur.who.slot' s.cur.pc (BitVec.ofNat 64 n)

/-! ## Return from a trap (R317) -/

/-- `status` after `tret`: level and ie restored, pp consumed. -/
def tretStatus (st : Word) : Word :=
  setField (setField (setField st 0 2 (field st 9 1)) 3 1 (field st 4 1)) 10 1 0

/-- `tret` without the recapture of a frame: pc, status and latch. -/
def Hart.returnTrap (h : Hart) : Hart :=
  { h with
    pc := h.sys.tepc &&& ~~~1#64
    latch := if h.pp then .some (h.sys.pfx.setWidth 32) else .none
    sys := { h.sys with status := tretStatus h.sys.status }
    walkFault := .none, wait := .none, ended := .done }

/-! ## Issuing an instruction -/

/-- Which agents execute an instruction, and whether a prefix may stand before it (R42, R44, R282). -/
structure Shape where
  /-- A core executes it. -/
  onCore : Bool
  /-- A handler may execute it. -/
  onPp : Bool
  /-- It takes a prefix. -/
  prefixed : Bool
  deriving DecidableEq, Repr

/-- Scalar instructions that handlers use too. -/
def Shape.both : Shape := ⟨true, true, false⟩
def Shape.coreOnly : Shape := ⟨true, false, false⟩
/-- Primaries 0x30 to 0x3D and 0x52. -/
def Shape.vector : Shape := ⟨true, false, true⟩
def Shape.handler : Shape := ⟨false, true, false⟩

/-- The conditions 2 and 3 of R36 that hold before any instruction's own: an agent that does not execute the instruction,
and a prefix it does not take. -/
def State.mayIssue (s : State) (sh : Shape) : Except Exc Unit :=
  if s.cur.who.isPp then
    if sh.onPp then .ok () else .error (.handler 2)
  else if !sh.onCore then .error (trapOf .illegalInstruction (s.cur.word.setWidth 64))
  else match s.cur.latch with
    | .some w => if sh.prefixed then .ok () else .error (trapOf .illegalPrefix (w.setWidth 64))
    | .none => .ok ()

/-- The outcome of an instruction whose effect is `r`. -/
def State.conclude (s : State) (r : Except Exc State) : Host.Outcome State Fault Refusal :=
  match r with
  | .ok t => .next t
  | .error e => .next (s.raise e)

/-- What an illegal encoding does (R34): a trap on a core, a handler fault on a PP. -/
def State.illegal (s : State) : State :=
  if s.cur.who.isPp then s.raise (.handler 2)
  else s.raise (trapOf .illegalInstruction (s.cur.word.setWidth 64))

/-- Runs the effect of an instruction under the shared checks. -/
def State.issue (s : State) (sh : Shape) (body : State → Except Exc State) : Host.Outcome State Fault Refusal :=
  s.conclude (match s.mayIssue sh with
    | .ok _ => body s
    | .error e => .error e)

/-- Runs an effect that concerns the executing thread alone. -/
def State.issueHart (s : State) (sh : Shape) (body : Hart → Except Exc Hart) : Host.Outcome State Fault Refusal :=
  s.issue sh fun s => (body s.cur).map fun h => { s with cur := h }

/-- The privilege check of R43: least level S. -/
def Hart.needS (h : Hart) : Except Exc Unit :=
  if h.user then .error (trapOf .privilege (h.word.setWidth 64)) else .ok ()

end Sys2Proof.Machine
end

