-- ==== Sys2Proof/Machine/Operands.lean ====
section
/-! DEFINITION. Operand forms: the width of `.w`, immediates and offsets, register groups, lanes of a vector. -/

namespace Sys2Proof.Machine

open Sys2Proof

/-! ## Width of an ALU operation (R87) -/

/-- Applies an operation of any width to both sources in 64 bits, or in 32 bits with a sign-extended result. -/
def inWidth (w : Bool) (f : (n : Nat) → BitVec n → BitVec n → BitVec n) (x y : Word) : Word :=
  if w then (f 32 (x.setWidth 32) (y.setWidth 32)).signExtend 64 else f 64 x y

/-! ## Immediates and offsets (R32) -/

/-- A branch or jump target: the address of the first parcel plus a signed count of halfwords. -/
def target (pc : Word) {n : Nat} (off : BitVec n) : Word := pc + off.signExtend 64 * 2

/-- `sext(imm19) << 13`. -/
def upper (imm : BitVec 19) : Word := imm.signExtend 64 <<< 13

/-- The compact register field names x0 to x15 (R37). -/
def wideReg (r : BitVec 4) : Reg := r.setWidth 5

/-- The register `k` places above (R112, R158): the fields that use it never pass x31. -/
def regPlus (r : Reg) (k : Nat) : Reg := r + BitVec.ofNat 5 k

/-! ## Register groups -/

/-- Reads consecutive registers. -/
def Hart.getRun (h : Hart) (r : Reg) : Nat → Except Exc (List Word)
  | 0 => .ok []
  | n + 1 =>
    match h.getX r with
    | .error e => .error e
    | .ok v =>
      match h.getRun (regPlus r 1) n with
      | .error e => .error e
      | .ok vs => .ok (v :: vs)

/-- `x[r+1] : x[r]`. -/
def Hart.getPair (h : Hart) (r : Reg) : Except Exc (Word × Word) :=
  match h.getX r with
  | .error e => .error e
  | .ok lo =>
    match h.getX (regPlus r 1) with
    | .error e => .error e
    | .ok hi => .ok (lo, hi)

/-! ## Lanes (R63) -/

/-- Element `i` of width `w`. -/
def lane (w : Nat) (v : Vec) (i : Nat) : BitVec w := v.extractLsb' (w * i) w

/-- The vector whose elements, from 0 up, are given. -/
def packLanes (w : Nat) (l : List (BitVec w)) : Vec :=
  BitVec.ofNat 128 (l.foldr (fun e acc => e.toNat + 2 ^ w * acc) 0)

/-- Applies an operation lane by lane. -/
def mapLanes (w : Nat) (f : BitVec w → BitVec w → BitVec w) (x y : Vec) : Vec :=
  packLanes w ((List.range (128 / w)).map fun i => f (lane w x i) (lane w y i))

end Sys2Proof.Machine
end

