-- ==== Sys2Proof/Machine/Routes.lean ====
section
/-! DEFINITION. Routes over the fabric: coordinates of packages, the order of dimensions, detours, and the port a message leaves
by (R13, R357 to R359). -/

namespace Sys2Proof.Machine

open Sys2Proof

/-- The dimensions in the order of a package number's fields: A, B, C, D (R357). -/
def dimShift : Nat → Nat × Nat
  | 0 => (0, 2)
  | 1 => (2, 2)
  | 2 => (4, 4)
  | _ => (8, 4)

def coordOf (pkg dim : Nat) : Nat := pkg / 2 ^ (dimShift dim).1 % 2 ^ (dimShift dim).2

def setCoord (pkg dim v : Nat) : Nat := pkg - coordOf pkg dim * 2 ^ (dimShift dim).1 + v * 2 ^ (dimShift dim).1

/-- The order in which a message corrects its coordinates: C, D, B, A (R358). -/
def dimOrder : List Nat := [2, 3, 1, 0]

/-- Whether a message goes up in a dimension: the shorter way round in C and D, ties up; directly in A and B. -/
def goesUp (ext dim from' to' : Nat) : Bool :=
  if dim < 2 then from' < to' else 2 * ((to' + ext - from') % ext) ≤ ext

/-- The next package along a dimension, when there is one. -/
def alongDim (m : FabricMap) (pkg dim : Nat) (up : Bool) : Option Nat :=
  let ext := m.extents.getD dim 1
  let x := coordOf pkg dim
  if 2 ≤ dim then .some (setCoord pkg dim (if up then (x + 1) % ext else (x + ext - 1) % ext))
  else if up then (if x + 1 < ext then .some (setCoord pkg dim (x + 1)) else .none)
  else if x = 0 then .none else .some (setCoord pkg dim (x - 1))

/-- The ports of a direction: die * 3 + port, the second one for the dimensions with two links (R13). -/
def portsOf (dim : Nat) (up : Bool) : List Nat :=
  match dim, up with
  | 0, true => [0]
  | 0, false => [3]
  | 1, true => [6]
  | 1, false => [9]
  | 2, true => [1, 4]
  | 2, false => [7, 10]
  | _, true => [2, 5]
  | _, false => [8, 11]

/-- The port of a direction: of the two links of C and D, the one that a bit of the message chooses (R358). -/
def portFor (dim : Nat) (up bit : Bool) : Option Nat := if bit then (portsOf dim up).getLast? else (portsOf dim up).head?

/-- A hop of a message from a package to its neighbour can be made: its link is up, and the neighbour has not failed. -/
def hopOpen (m : FabricMap) (bit : Bool) (pkg dim : Nat) (up : Bool) : Option Nat :=
  match alongDim m pkg dim up with
  | .none => .none
  | .some n =>
    if m.failed.contains n || (portFor dim up bit).all fun p => m.down.contains (pkg, p) then .none else .some n

/-- The hop within the chassis to the package beside, in dimension A or B. -/
def crossHop (m : FabricMap) (bit : Bool) (pkg side : Nat) : Option Nat := hopOpen m bit pkg side (coordOf pkg side % 2 == 0)

/-- Goes along a parallel ring until the package beside it in the message's own ring stands, and returns to it. -/
def pastFailure (m : FabricMap) (bit : Bool) (own side dim : Nat) (up : Bool) : Nat → Nat → Option Nat
  | 0, _ => .none
  | fuel + 1, pkg =>
    match hopOpen m bit pkg dim up with
    | .none => .none
    | .some n =>
      if m.failed.contains (setCoord n side own) then pastFailure m bit own side dim up fuel n else crossHop m bit n side

/-- The detour of R359 in dimension C or D, by the ring at a xor 1, then by the one at b xor 1: the dimension of its first hop, and
the package at which it ends. -/
def detour (m : FabricMap) (bit : Bool) (pkg dim : Nat) (up : Bool) : Option (Nat × Nat) :=
  [0, 1].findSome? fun side =>
    (crossHop m bit pkg side).bind fun n => (pastFailure m bit (coordOf pkg side) side dim up 16 n).map fun e => (side, e)

/-- One hop of the route to a package. -/
def nextHop (m : FabricMap) (bit : Bool) (pkg dst : Nat) : Option Nat :=
  match dimOrder.find? fun d => coordOf pkg d != coordOf dst d with
  | .none => .some dst
  | .some d =>
    let up := goesUp (m.extents.getD d 1) d (coordOf pkg d) (coordOf dst d)
    match hopOpen m bit pkg d up with
    | .some n => .some n
    | .none => if 2 ≤ d then (detour m bit pkg d up).map (·.2) else .none

/-- The map gives a message a route from one package to another. -/
def routed (m : FabricMap) (bit : Bool) (dst : Nat) : Nat → Nat → Bool
  | 0, _ => false
  | fuel + 1, pkg =>
    if pkg = dst then true
    else match nextHop m bit pkg dst with
      | .none => false
      | .some n => routed m bit dst fuel n

/-- A message to a peer has a route on the map that the fabric ports hold (R359). -/
def State.reachable (s : State) (pkg : Nat) (bit : Bool) : Bool :=
  let m := s.fabric.map
  !m.failed.contains pkg && routed m bit pkg 64 m.self

/-- The bit that chooses among two links: bit 8 of a memory line's address, and for any other message bit 0 of the source core's x
(R358). -/
def routeBit (c : CoreId) (pa : Nat) : Bool := if placeOf pa = .peerDram then pa.testBit 8 else coreX c % 2 == 1

/-- A peer's address can be reached from a core. -/
def State.canReach (s : State) (c : CoreId) (pa : Nat) : Bool := s.reachable (peerPkg pa) (routeBit c pa)

/-- The port that a message to a peer leaves by; a message that has to go round a failure begins with the detour (R359). A bit of the
message chooses the link, whichever die it comes from, so that the messages of one line keep one path (R358; DEDUCED, log 53). -/
def State.portTo (s : State) (pkg : Nat) (bit : Bool) : Option Nat :=
  let m := s.fabric.map
  match dimOrder.find? fun d => coordOf m.self d != coordOf pkg d with
  | .none => .none
  | .some d =>
    let up := goesUp (m.extents.getD d 1) d (coordOf m.self d) (coordOf pkg d)
    match (hopOpen m bit m.self d up).isSome, detour m bit m.self d up with
    | false, .some (side, _) => portFor side (coordOf m.self side % 2 == 0) bit
    | _, _ => portFor d up bit

/-- The port of a message for a memory line, and of a core's message for a peer's address. -/
def State.portOfLine (s : State) (pa : Nat) : Option Nat := s.portTo (peerPkg pa) (pa.testBit 8)
def State.portFrom (s : State) (c : CoreId) (pa : Nat) : Option Nat := s.portTo (peerPkg pa) (routeBit c pa)

def State.linkOf (s : State) (p : Nat) : Link := lookupBy Link.port { port := p } p s.fabric.links

def State.withLink (s : State) (p : Nat) (f : Link → Link) : State :=
  { s with fabric := { s.fabric with links := storeBy Link.port (f (s.linkOf p)) s.fabric.links } }

/-- A flit has passed on a link: the failures in a row end (R364). -/
def State.flitPasses (s : State) (p : Option Nat) : State :=
  match p with
  | .none => s
  | .some p => s.withLink p fun l => { l with fails := 0, asked := .none }

/-- The direction takes request flits: its key is not exhausted, and injection is not held (R360, R363). -/
def State.injects (s : State) (p : Option Nat) : Bool :=
  p.all fun p => let l := s.linkOf p; l.exhausted.isNone && !(l.held && decide (s.nCycles (p / 3) < l.heldAt + 64))

/-- A message sent at a device time has not left: its direction had sent its last flit by then (R363). -/
def State.unsent (s : State) (p : Option Nat) (sentAt : Nat) : Bool := p.any fun p => (s.linkOf p).exhausted.any (· ≤ sentAt)

/-- The time-out of a message is suspended: its link's peer has frozen (R382). -/
def State.suspended (s : State) (p : Option Nat) : Bool := p.any fun p => (s.linkOf p).frozenAt.isSome

end Sys2Proof.Machine
end

