-- ==== Sys2Proof/Machine/Paths.lean ====
section
/-! DEFINITION. The core path and the handler path to memory: translation of the executing thread's accesses, the L1 and the
store buffer, requests to homes, loads, stores and atomics as far as an instruction itself carries them (R146 to R157, R182
to R186, R279, R282), and the fetch of instructions. -/

namespace Sys2Proof.Machine

open Sys2Proof

/-! ## Translation for the executing thread (R155) -/

def memTrap (f : MemFault) (va : Word) (r : Right) : Exc :=
  .trap { cause := f.cause, tval := va, write := r == .write, fetch := r == .fetch }

/-- The breakpoint of a core, among some of its numbers, that is enabled for the executing thread and meets a condition. -/
def State.breakHit (s : State) (ns : List Nat) (ok : Breakpoint → Bool) : Option Nat :=
  if s.cur.resumed then .none
  else ns.find? fun n =>
    let b := (s.coreOf s.cur.who.core').breaks.getD n {}
    b.enabled && b.slots.getLsbD s.cur.who.slot' && ok b

/-- A data breakpoint of the executing thread's core covers the access (R378). -/
def State.dataBreak (s : State) (va : Word) (size : Nat) (r : Right) : Option Nat :=
  if s.cur.who.isPp then .none
  else s.breakHit [4, 5] fun b =>
    b.write == (r == .write) && r != .fetch && decide (va.toNat < b.addr.toNat + b.len ∧ b.addr.toNat < va.toNat + size)

/-- An instruction breakpoint covers the pc of the executing thread. -/
def State.fetchBreak (s : State) : Option Nat := s.breakHit [0, 1, 2, 3] fun b => b.addr == s.cur.pc

/-- The checks of R155 for one access of the executing thread. A fault that the walk for it found is raised when the access
is executed again; a missing translation starts a walk. -/
def State.translate (s : State) (va : Word) (size : Nat) (r : Right) : Except Exc Target :=
  match s.dataBreak va size r with
  | .some n => .error (.debug n)
  | .none => match s.check s.cur.who.core' s.cur.user va.toNat size r with
  | .ok t => .ok t
  | .error (.fault f) => .error (memTrap f va r)
  | .error .miss =>
    match s.cur.walkFault with
    | .some (va', r', f) => if va' = va.toNat ∧ r' = r then .error (memTrap f va r) else .error (.walk va.toNat r)
    | .none => .error (.walk va.toNat r)

/-- The region of an access of the executing thread (R275, R277). -/
def State.regionOf (s : State) (t : Target) : Region :=
  match s.ctxOfCore s.cur.who.core' with
  | .none => plainRegion 0 t.pa
  | .some k => k.region t.va t.pa

/-- Poisoned data lies in the bytes (R386). -/
def State.poisoned (s : State) (pa : Nat) : Bool := s.poison.contains (blockOf pa)

/-! ## The L1 (R147, R150) -/

def Core.ganged (c : Core) : Bool := c.gang.isSome

def Core.line? (c : Core) (block : Nat) : Option Line := c.l1.find? fun l => l.block == block

/-- The block becomes the most recently used. -/
def Core.touch (c : Core) (block : Nat) : Core :=
  match c.line? block with
  | .none => c
  | .some l => { c with l1 := l :: c.l1.filter fun q => q.block != block }

def Core.dropLine (c : Core) (block : Nat) : Core := { c with l1 := c.l1.filter fun l => l.block != block }

def Core.setLine (c : Core) (l : Line) : Core := { c with l1 := l :: c.l1.filter fun q => q.block != l.block }

/-- The set of a block among 128. -/
def l1Set (block : Nat) : Nat := block / 32 % 128

/-! ## Agents and homes (R11, R287, R306) -/

/-- The designation of a core's L1, with the tag of the request it waits for. -/
def agentOfCore (c : CoreId) (rtag : Nat) : Word := BitVec.ofNat 64 (c % 2048 + rtag % 2 ^ 16 * 2 ^ 48)

/-- What an agent number names, seen by a PP. -/
inductive Agent where
  | core (c : CoreId)
  | rdc (die : Nat)
  | peer (pkg : Nat)
  | pp (p : PpId)
  deriving DecidableEq, Repr

def agentAt (p : PpId) (n : Nat) : Agent :=
  match n / 2 ^ 14 % 4 with
  | 0 => .core (p / 37 * 2048 + n % 2048)
  | 1 => .rdc (n % 4)
  | 2 => .peer (n % 2 ^ 12)
  | _ => .pp (n / 64 % 4 * 37 + n % 64)

def agentOfRdc (die : Nat) : Nat := 2 ^ 14 + die
def agentOfPp (p : PpId) : Nat := 3 * 2 ^ 14 + p / 37 * 64 + p % 37

/-- The PP of the die-to-die port on the first hop from one die to another (R7, R306): PP 32 of a die stands at the port of
the edge that changes die bit 0, PP 33 at the other. -/
def proxyPp (die home : Nat) : PpId := die * 37 + (if die % 2 ≠ home % 2 then 32 else 33)

/-- The PP of a fabric port. -/
def fabricPp (port : Nat) : PpId := port / 3 * 37 + 34 + port % 3

/-- Where a request of a core for a block of a region goes, and whether that PP acts for a remote home: for a peer's line the
port that the route leaves by, or the die-to-die port on the way to it. -/
def State.requestPp (s : State) (c : CoreId) (r : Region) : PpId × Bool :=
  if isRemote s.pkg r.homePa then
    let port := (s.portOfLine r.homePa).getD 0
    (if port / 3 = coreDie c then fabricPp port else proxyPp (coreDie c) (port / 3), true)
  else if homeDie r.homePa = coreDie c then (homePp r.homePa, false)
  else (proxyPp (coreDie c) (homeDie r.homePa), true)

/-- A number for each agent. -/
def Agent.code : Agent → Nat
  | .core c => 4 * c
  | .rdc d => 4 * d + 1
  | .peer p => 4 * p + 2
  | .pp p => 4 * p + 3

/-- A message to a PP with every optional field 0. -/
def plainMsg (type block : Nat) (agent : Word) (r : Region) : PpMsg :=
  { type := type, reply := false, block := block, agent := agent, home := r.homePa, ctx := r.ctx, proto := r.proto, arg := r.arg,
    evs := r.evs, path := 0, hint := 0, holdsRo := false, size := 0, payload := 0, removed := 0, proxy := false, sender := .none }

/-- The region attributes that a message carries. -/
def PpMsg.region (m : PpMsg) : Region := ⟨m.ctx, m.proto, m.arg, m.home, m.evs, false⟩

/-- A message enters a queue: those of one D-cycle stand in ascending agent number (R285). -/
def enterQueue (q : List PpMsg) (m : PpMsg) : List PpMsg :=
  let later := fun (e : PpMsg) => e.at' == m.at' && decide (m.agent.toNat % 2 ^ 16 < e.agent.toNat % 2 ^ 16)
  q.filter (fun e => !later e) ++ [m] ++ q.filter later

/-- A message arrives at a PP now. -/
def State.arrived (s : State) (p : PpId) (m : PpMsg) : PpMsg := { m with at' := s.dCycles (p / 37) }

def State.pushRequest (s : State) (p : PpId) (m : PpMsg) : State :=
  s.withPp p fun q => { q with reqQueue := enterQueue q.reqQueue (s.arrived p m) }

def State.pushForward (s : State) (p : PpId) (m : PpMsg) : State :=
  s.withPp p fun q => { q with fwdQueue := enterQueue q.fwdQueue (s.arrived p m) }

/-- A message on the reply lane leaves its sender, an agent's number, behind what that has sent before (R280). -/
def State.pushReply (s : State) (sender : Nat) (p : PpId) (m : PpMsg) : State :=
  { s with net := s.net ++ [.message sender p { m with reply := true }] }

/-- The lowest request tag that no request of the core uses. -/
def Core.freeTag (c : Core) : Nat :=
  ((List.range 65536).find? fun t => 0 < t ∧ !(c.requests.any (·.rtag == t)) ∧ !(c.engine.any (·.rtag == t))).getD 0

def logSize (n : Nat) : Nat := n.log2

/-- Sends a core's request for a block (R279). -/
def State.sendRequest (s : State) (c : CoreId) (q : Request) : State :=
  let k := s.coreOf c
  let (p, proxy) := s.requestPp c q.region
  let m := { plainMsg q.type q.block (agentOfCore c q.rtag) q.region with
    holdsRo := (k.line? q.block).any (fun l => l.tag == 1), size := logSize q.size, proxy := proxy }
  (s.withCore c fun k => { k with requests := k.requests ++ [q] }).pushRequest p m

/-- Returns dirty data to its home: to the home L2, or to the die's RDC for a block homed on another die (R307). -/
def State.returnData (s : State) (c : CoreId) (block : Nat) (r : Region) (d : BitVec 256) : State :=
  let die := coreDie c
  if homeDie r.homePa = die ∨ !(s.rdc.any fun q => q.die == die && q.block == block) then
    { s with mem := putHomeData s.mem block d }
  else
    { s with rdc := s.rdc.map fun q => if q.die = die ∧ q.block = block then { q with dirty := true, data := d } else q }

/-- A line leaves the L1: dirty data goes back with a type 3 message, and a clean drop is told when the region asks (R279,
R284). -/
def State.evict (s : State) (c : CoreId) (l : Line) : State :=
  let s := s.withCore c fun k => k.dropLine l.block
  let (p, proxy) := s.requestPp c l.region
  let m := { plainMsg 3 l.block (agentOfCore c 0) l.region with proxy := proxy }
  if l.dirty then (s.returnData c l.block l.region l.data).pushReply (Agent.core c).code p m
  else if l.region.evs then s.pushReply (Agent.core c).code p { m with type := 4 }
  else s

/-- A write-back of the core for the block is on its way or in its queue, so a request for it is held back (R279). -/
def State.writeBackOpen (s : State) (c : CoreId) (block : Nat) (r : Region) : Bool :=
  let p := (s.requestPp c r).1
  let mine := fun (m : PpMsg) => m.type == 3 && m.block == block && m.agent == agentOfCore c 0
  (s.ppOf p).repQueue.any mine || s.net.any fun q => match q with
    | .message _ p' m => p' == p && mine m
    | _ => false

/-- Puts a line into the L1; a full set gives up its least recently used line. -/
def State.install (s : State) (c : CoreId) (l : Line) : State :=
  let k := s.coreOf c
  let others := k.l1.filter fun q => l1Set q.block == l1Set l.block && q.block != l.block
  let s := if others.length < 8 then s else match others.getLast? with
    | .none => s
    | .some victim => s.evict c victim
  s.withCore c fun k => k.setLine l

/-! ## Where an access finds its bytes -/

inductive Reach where
  /-- In the issuing core's L1 with a sufficient tag, or in the own cluster's scratchpad. -/
  | now
  /-- At a home or bank that needs no request: another cluster's scratchpad, uncached memory. -/
  | later
  /-- Not in the L1. -/
  | miss
  /-- In the L1 with a tag that does not allow the access. -/
  | violation
  | remote
  deriving DecidableEq, Repr

def State.reach (s : State) (c : CoreId) (write : Bool) (t : Target) : Reach :=
  if isRemote s.pkg t.pa ∧ (t.uncached ∨ placeOf t.pa ≠ .peerDram) then .remote
  else if placeOf t.pa = .scratch then (if scratchCluster t.pa = clusterOf c then .now else .later)
  else if t.uncached then .later
  else match (s.coreOf c).line? (blockOf t.pa) with
    | .none => if isRemote s.pkg t.pa then .remote else .miss
    | .some l => if l.tag = 2 ∨ (l.tag = 1 ∧ !write) then .now else .violation

/-- The bytes as the core sees them in its L1, or as their home or bank holds them. -/
def State.bytesAt (s : State) (c : CoreId) (pa n : Nat) : Nat :=
  match (s.coreOf c).line? (blockOf pa) with
  | .some l => blockBytes l.data (pa % 32) n
  | .none => s.coherentRead pa n

/-! ## Forwarding from the store buffer (R148) -/

/-- Byte `i` of a number. -/
def byteOf (v i : Nat) : Nat := v / 256 ^ i % 256

/-- The byte at a physical address that the youngest older store of the slot would put there. -/
def Core.forwardByte (c : Core) (slot a : Nat) : Option Nat :=
  c.stores.foldl (fun r e =>
    if e.acc.slot = slot ∧ e.acc.kind = .store ∧ e.acc.pa ≤ a ∧ a < e.acc.pa + e.acc.size then
      .some (byteOf e.acc.data (a - e.acc.pa))
    else r) .none

/-- Mask and bytes forwarded to a load of `n` bytes. -/
def Core.forward (c : Core) (slot pa : Nat) : Nat → Nat × Nat
  | 0 => (0, 0)
  | n + 1 =>
    let (m, d) := c.forward slot (pa + 1) n
    match c.forwardByte slot pa with
    | .some b => (1 + 2 * m, b + 256 * d)
    | .none => (2 * m, 256 * d)

/-- An atomic of the slot that waits in the buffer covers some of the bytes. -/
def Core.amoPending (c : Core) (slot pa n : Nat) : Bool :=
  c.stores.any fun e => e.acc.slot == slot && e.acc.kind != .store && overlaps e.acc.pa e.acc.size pa n

/-- A store or atomic of the slot that waits in the buffer covers some of the bytes. -/
def Core.storePending (c : Core) (slot pa n : Nat) : Bool :=
  c.stores.any fun e => e.acc.slot == slot && overlaps e.acc.pa e.acc.size pa n

/-- The reads that the slot issued before write `below` have returned, those of atomics in the store buffer among them (R173). -/
def Core.readsBack (c : Core) (slot below : Nat) : Bool :=
  !(c.loads.any fun l => l.slot == slot && l.elems.any fun e => decide (e.1.stamp < below)) &&
  !(c.atomics.any fun a => a.slot == slot && decide (a.acc.stamp < below)) &&
  !(c.mailbox.polls.any fun p => p.slot == slot && decide (p.stamp < below)) &&
  !(c.units.any fun u => u.slot == slot && decide (u.stamp < below)) &&
  !(c.stores.any fun e => e.acc.slot == slot && e.acc.kind != .store && decide (e.acc.stamp < below))

/-- The thread's accesses before write `below` are over: its reads have returned, and its writes are performed at the scope (R177);
at scope 0 a write is performed when it commits. -/
def State.quietBefore (s : State) (w : Who) (scope below : Nat) : Bool :=
  let k := s.coreOf w.core'
  k.readsBack w.slot' below &&
    (scope == 0 || !k.stores.any fun e => e.acc.slot == w.slot' && decide (e.acc.stamp < below)) && s.performedAt w 0 scope below

/-- What a release or a full fence at a scope waits for. -/
def State.quiet (s : State) (w : Who) (scope : Nat) : Bool := s.quietBefore w scope (s.stamps + 1)

/-! ## Loads -/

/-- Sign-extends the low `n` bytes. -/
def extend (signed : Bool) (n v : Nat) : Word :=
  if signed then (BitVec.ofNat (8 * n) v).signExtend 64 else BitVec.ofNat 64 (v % 2 ^ (8 * n))

/-- The bytes of several elements, element 0 lowest. -/
def joinElems : List (Nat × Nat) → Nat
  | [] => 0
  | (n, v) :: rest => v % 2 ^ (8 * n) + 2 ^ (8 * n) * joinElems rest

/-- Writes a result and makes the register full. -/
def Hart.fillDest (h : Hart) (d : Dest) (signed : Bool) (n v : Nat) : Hart :=
  match d with
  | .nowhere => h
  | .scalar i => if hi : i < 33 then h.fillX ⟨i, hi⟩ (extend signed n v) else h
  | .pair i j =>
    if hi : i < 33 then if hj : j < 33 then
      (h.fillX ⟨i, hi⟩ (BitVec.ofNat 64 v)).fillX ⟨j, hj⟩ (BitVec.ofNat 64 (v / 2 ^ 64)) else h else h
  | .vector j => if j < 128 then h.setV (BitVec.ofNat 7 j) (BitVec.ofNat 128 v) else h

/-- Marks the destination of a producer empty (R109). -/
def Hart.markDest (h : Hart) (d : Dest) : Hart :=
  match d with
  | .nowhere => h
  | .scalar i => { h with xe := h.xe ||| (1#33 <<< i) }
  | .pair i j => { h with xe := h.xe ||| (1#33 <<< i) ||| (1#33 <<< j) }
  | .vector j => { h with ve := h.ve ||| (1#128 <<< j) }

/-- The destination that a scalar register field names. -/
def Hart.destX (h : Hart) (r : Reg) : Dest := if r = 0#5 then .nowhere else .scalar (h.xIdx r)

/-- Sends the request of an access for its block, in a miss slot, unless a request for the block is out already (R148). A
violation takes no miss slot (R150). -/
def State.wantBlock (s : State) (c : CoreId) (type : Nat) (slotUsed : Bool) (a : Access) : Option State :=
  let k := s.coreOf c
  let b := blockOf a.pa
  if k.requests.any (fun q => q.block == b && decide (q.type ≤ 1) && (q.slotUsed || q.type == type)) then .some s
  else if s.writeBackOpen c b a.region then .none
  else if slotUsed ∧ 16 ≤ (k.requests.filter (·.slotUsed)).length then .none
  else .some (s.sendRequest c
    { rtag := k.freeTag, block := b, type := type, slotUsed := slotUsed, prefetch := false, retry := .none,
      region := a.region, va := a.va, size := a.size })

/-- The wait, in the rotation, of an access that finds no entry of the store buffer, `more` of which it needs, or no miss slot; or that waits for
something else (R375). -/
def Core.fullWait (k : Core) (more : Nat) : Exc :=
  .wait (if 16 < k.stores.length + more || 16 ≤ (k.requests.filter (·.slotUsed)).length then .full else .again)

/-- Asks for the blocks that several loads miss; nothing when a miss slot is missing. -/
def State.wantBlocks (s : State) (c : CoreId) : List Access → Option State
  | [] => .some s
  | a :: rest =>
    match s.wantBlock c 0 true a with
    | .none => .none
    | .some s => s.wantBlocks c rest

/-- A load access of the executing thread, with what the store buffer forwards. -/
def State.loadAccess (s : State) (t : Target) (n : Nat) (nt : Bool) : Access :=
  let f := (s.coreOf s.cur.who.core').forward s.cur.who.slot' t.pa n
  { slot := s.cur.who.slot', kind := .load, va := t.va, pa := t.pa, size := n, data := f.2, expect := f.1,
    uncached := t.uncached, region := s.regionOf t, nt := nt, stamp := s.stamps, issued := s.turn }

def Access.target (a : Access) : Target := ⟨a.va, a.pa, a.uncached⟩

/-- What a load access reads where the newest writes have left `v`. -/
def State.readOf (s : State) (c : CoreId) (a : Access) (v : Nat) : Nat :=
  overlay a.expect a.data (s.readPast (.core c a.slot) a.issued a.pa a.size v) a.size

/-- What a load access reads now: any of the writes that R175 permits, also a newer one than an own earlier write, which R171's third
bullet by itself would forbid (DEDUCED, log 42). -/
def State.readNow (s : State) (c : CoreId) (a : Access) : Nat := s.readOf c a (s.bytesAt c a.pa a.size)

/-- The load access has read; of an acquire, at its scope. Its line, if the L1 holds it, is the most recently used one. -/
def State.hasRead (s : State) (c : CoreId) (a : Access) : State :=
  (s.withCore c fun k => k.touch (blockOf a.pa)).sawPast (.core c a.slot) a.acquire a.issued a.pa a.size

/-- An acquire of the slot has still to read at a sync or delivery unit, so that later accesses wait (R173, R270). -/
def Core.acquiring (c : Core) (slot : Nat) : Bool :=
  (c.mailbox.polls.any fun p => p.slot == slot) || c.units.any fun u => u.slot == slot

/-- The loads of the bytes wait: for an acquire, or for an atomic of the slot that is on its way to them (R171). -/
def Core.loadWaits (c : Core) (slot pa n : Nat) : Bool := c.amoPending slot pa n || c.acquiring slot

/-- The load is cacheable, so that its block can come from an RDC or a home. -/
def Access.byBlock (a : Access) : Bool := !a.uncached && (placeOf a.pa == .dram || placeOf a.pa == .peerDram)

/-- The requests that a load's elements need. A tag violation stops the whole instruction: only the lowest element concerned is
reported (R153). -/
def State.wantLoad (s : State) (c : CoreId) (accs : List Access) : Option State :=
  match accs.find? fun a => s.reach c false a.target == .violation with
  | .some a => s.wantBlock c 0 false a
  | .none => s.wantBlocks c (accs.filter fun a =>
      s.reach c false a.target == .miss || (s.reach c false a.target == .remote && a.byBlock))

/-- Loads one or several elements (R151 to R153): all at once when each is at hand; otherwise the destination is marked
empty and the load stays outstanding. With `blocking`, or when an access is suspended or remote, the thread waits. -/
def State.load (s : State) (accs : List Access) (dest : Dest) (signed blocking : Bool) (len : Nat) : Except Exc State :=
  let c := s.cur.who.core'
  let k := s.coreOf c
  let reach := fun (a : Access) => s.reach c false a.target
  if accs.any fun a => k.loadWaits a.slot a.pa a.size then .error (.wait .again)
  else if accs.all fun a => reach a == .now then
    if accs.any fun a => s.poisoned a.pa then .error .poison
    else
      let v := joinElems (accs.map fun a => (a.size, s.readNow c a))
      let n := accs.foldl (fun t a => t + a.size) 0
      let s := accs.foldl (fun s a => s.hasRead c a) s
      .ok { s with cur := (s.cur.fillDest dest signed n v).advance len }
  else
    match s.wantLoad c accs with
    | .none => .error (k.fullWait 0)
    | .some s' =>
      let held := accs.any fun a => reach a == .violation
      let waits := blocking || held || accs.any fun a => reach a == .remote
      let early := fun a => reach a == .now && !held
      let p : PendingLoad :=
        { slot := s.cur.who.slot', dest := dest, signed := signed
          elems := accs.map fun a => (a, if early a then .some (s.readNow c a) else .none)
          waits := if waits then .some len else .none, sentAt := s.time, suspended := held }
      let s' := (accs.filter early).foldl (fun s a => s.hasRead c a) s'
      let s' := s'.withCore c fun k => { k with loads := k.loads ++ [p] }
      .ok { s' with cur := if waits then { s'.cur with wait := .access, ended := .waited }
                           else (s'.cur.markDest dest).advance len }

/-! ## What an access does to its bytes (R182 to R185) -/

/-- The value an atomic writes, if it writes one: operations 0 to 9 of R182. -/
def amoNew (op n old b e : Nat) : Option Nat :=
  let w := 8 * n
  let x := BitVec.ofNat w old
  let y := BitVec.ofNat w b
  match op with
  | 0 => .some (x + y).toNat
  | 1 => .some (x &&& y).toNat
  | 2 => .some (x ||| y).toNat
  | 3 => .some (x ^^^ y).toNat
  | 4 => .some (if x.slt y then x else y).toNat
  | 5 => .some (if x.slt y then y else x).toNat
  | 6 => .some (if x.ult y then x else y).toNat
  | 7 => .some (if x.ult y then y else x).toNat
  | 8 => .some y.toNat
  | _ => if old = e then .some y.toNat else .none

/-- The value that an access leaves where it finds `old`, if it writes. -/
def Access.newValue (a : Access) (old : Nat) : Option Nat :=
  match a.kind with
  | .load => .none
  | .store => .some a.data
  | .amo op => amoNew op a.size old a.data a.expect

/-- Takes note of an access that has found `old` and been performed so far: an atomic has read the newest write, whose chain its
own write goes on (R171, R174). -/
def State.noteAccess (s : State) (c : CoreId) (a : Access) (level old : Nat) : State :=
  let w := Who.core c a.slot
  let read := if a.kind = .store then [] else topmost s.past a.pa a.size
  let s := s.markCover a.cover
  let s := s.hear w a.acquire (read.flatMap (·.cover))
  match a.newValue old with
  | .some _ => s.notePast w 0 level a.stamp (a.cover ++ read.flatMap (·.cover)) a.pa a.size old
  | .none => s

/-- Performs an atomic or a store of a core on the bytes at its home or bank and answers what they held. -/
def State.performHome (s : State) (c : CoreId) (a : Access) : State × Nat :=
  let old := s.coherentRead a.pa a.size
  let s := s.noteAccess c a 3 old
  (match a.newValue old with
   | .some v => s.writeThrough a.pa a.size v
   | .none => s, old)

/-- Performs a store or an atomic in the L1 line of the core, which is writable. -/
def State.performL1 (s : State) (c : CoreId) (a : Access) : State × Nat :=
  match (s.coreOf c).line? (blockOf a.pa) with
  | .none => (s, 0)
  | .some l =>
    let old := blockBytes l.data (a.pa % 32) a.size
    let s := s.noteAccess c a 1 old
    (match a.newValue old with
     | .some v => s.withCore c fun k => k.setLine { l with dirty := true, data := patchBlock l.data (a.pa % 32) a.size v }
     | .none => s.withCore c fun k => k.touch l.block, old)

/-- A write of a whole block clears its poison (R386). -/
def State.clearPoison (s : State) (pa n : Nat) : State :=
  if n = 32 then { s with poison := s.poison.filter fun b => b != blockOf pa } else s

/-! ## Stores -/

/-- The numbers of the thread's writes that stand in its store buffer. -/
def State.waitingWrites (s : State) (w : Who) : List Nat :=
  (s.coreOf w.core').stores.filterMap fun e => if e.acc.slot = w.slot' then .some e.acc.stamp else .none

/-- Gives a write of the executing thread its number, `i` after the next one, and what it covers (R174). -/
def State.stampWrite (s : State) (a : Access) (i : Nat) (release : Option Nat) : Access :=
  { a with stamp := s.stamps + i, cover := s.writeCover s.cur.who release (s.stamps + i) (s.waitingWrites s.cur.who) }

def State.storeAccess (s : State) (t : Target) (n v : Nat) (nt : Bool) : Access :=
  { slot := s.cur.who.slot', kind := .store, va := t.va, pa := t.pa, size := n, data := v % 2 ^ (8 * n), expect := 0,
    uncached := t.uncached, region := s.regionOf t, nt := nt }

/-- A store whose line is not writable asks for it when it enters the buffer; one that goes around the L1 does so in any case. -/
def State.wantWrite (s : State) (c : CoreId) (a : Access) : Option State :=
  match s.reach c true a.target with
  | .now | .later | .remote => .some s
  | .miss => s.wantBlock c 1 true a
  | .violation => s.wantBlock c 1 false a

/-- Sends the request, of a type, of an element that its block's tag suspends; the instruction is executed again once it is granted
(R153), and in a gang so is a scalar access, which acts only when every member's part can (R105). -/
def State.suspendScatter (s : State) (type : Nat) (a : Access) : Except Exc State :=
  let c := s.cur.who.core'
  let k := s.coreOf c
  if s.writeBackOpen c (blockOf a.pa) a.region || k.acquiring s.cur.who.slot' then .error (.wait .again)
  else
    let tag := k.freeTag
    let s' := s.sendRequest c
      { rtag := tag, block := blockOf a.pa, type := type, slotUsed := false, prefetch := false
        retry := .some (s.stampWrite a 0 .none), region := a.region, va := a.va, size := a.size }
    .ok { s' with stamps := s.stamps + 1, cur := { s'.cur with wait := .tag tag, ended := .waited } }

/-- Puts one store into the buffer (R148), with the scope of its release. A store that violates its block's tag is suspended: its
thread waits until the home has completed it (R150); a release first waits for what it orders, which the home could not. In a gang
the home's answer lets the store act when the gang commits (R105). -/
def State.store (s : State) (a : Access) (release : Option Nat) (len : Nat) : Except Exc State :=
  let c := s.cur.who.core'
  let k := s.coreOf c
  let held := s.reach c true a.target == .violation
  let early := release.all fun sc => s.quiet s.cur.who sc
  if 16 ≤ k.stores.length ∨ (held ∧ (!early ∨ k.acquiring s.cur.who.slot')) then .error (k.fullWait 1)
  else if k.ganged ∧ s.cur.elemsDone.contains a.va then
    if !early ∨ k.storePending s.cur.who.slot' a.pa a.size then .error (.wait .again)
    else
      let s' := ({ s with stamps := s.stamps + 1 } : State).performHome c (s.stampWrite a 0 release)
      let s' := s'.1.clearPoison a.pa a.size
      .ok { s' with cur := s'.cur.advance len }
  else if k.ganged ∧ held then s.suspendScatter 1 a
  else match (if early then s.wantWrite c a else .some s) with
    | .none => .error (k.fullWait 1)
    | .some s' =>
      let e : StoreEntry := ⟨s.stampWrite a 0 release, release, if held then .some len else .none, .none, .none⟩
      let s' := s'.withCore c fun k => { k with stores := k.stores ++ [e] }
      .ok { s' with stamps := s.stamps + 1
                    cur := if held then { s'.cur with wait := .access, ended := .waited } else s'.cur.advance len }

/-- Asks for the lines of several stores. -/
def State.wantWrites (s : State) (c : CoreId) : List Access → Option State
  | [] => .some s
  | a :: rest =>
    match s.wantWrite c a with
    | .none => .none
    | .some s => s.wantWrites c rest

/-- Several stores of one instruction, in ascending order, but for those that the home has performed already (R153), or in a gang has
answered, which act now. -/
def State.storeAll (s : State) (accs : List Access) (len : Nat) : Except Exc State :=
  let c := s.cur.who.core'
  let k := s.coreOf c
  let done := accs.filter fun a => k.ganged && s.cur.elemsDone.contains a.va
  let accs := accs.filter fun a => !s.cur.elemsDone.contains a.va
  match accs.find? fun a => s.reach c true a.target == .violation with
  | .some a => s.suspendScatter 1 a
  | .none =>
    if 16 < k.stores.length + accs.length ∨ done.any (fun a => k.storePending a.slot a.pa a.size) then .error (k.fullWait accs.length)
    else match s.wantWrites c accs with
      | .none => .error (k.fullWait accs.length)
      | .some s' =>
        let s' := done.foldl (fun s' a =>
          ({ (s'.performHome c (s'.stampWrite a accs.length .none)).1 with stamps := s'.stamps + 1 } : State)) s'
        let es := accs.zipIdx.map fun (a, i) => (⟨s.stampWrite a i .none, .none, .none, .none, .none⟩ : StoreEntry)
        let s' := s'.withCore c fun k => { k with stores := k.stores ++ es }
        .ok { s' with stamps := s'.stamps + accs.length, cur := s'.cur.advance len }

/-! ## Waited atomics (R183, R184) -/

/-- The request by which an atomic is performed at its line's home; held back while a write-back of the line is open. -/
def State.wantAtomic (s : State) (c : CoreId) (a : Access) : Option (State × Nat) :=
  if s.writeBackOpen c (blockOf a.pa) a.region then .none
  else
    let tag := (s.coreOf c).freeTag
    .some (s.sendRequest c { rtag := tag, block := blockOf a.pa, type := 2, slotUsed := false, prefetch := false
                             retry := .none, region := a.region, va := a.va, size := a.size }, tag)

/-- A load of the slot has still to read some of the bytes. -/
def Core.readPending (c : Core) (slot pa n : Nat) : Bool :=
  c.loads.any fun l => l.slot == slot && l.elems.any fun (a, v) => v == .none && overlaps a.pa a.size pa n

/-- An atomic of the executing thread (R183, R184), with the scope of its release. One whose result no one waits for enters the
store buffer; where its block's tag does not allow it, its thread is suspended. In a gang it acts when the gang commits, once its
line may be written or its home has answered (R105). -/
def State.atomic (s : State) (a : Access) (dest : Dest) (waits : Bool) (release : Option Nat) (len : Nat) : Except Exc State :=
  let c := s.cur.who.core'
  let slot := s.cur.who.slot'
  let k := s.coreOf c
  let held := s.reach c true a.target == .violation
  let a := s.stampWrite a 0 release
  let ready := release.all fun sc => s.quiet s.cur.who sc
  let s0 : State := { s with stamps := s.stamps + 1 }
  let fill := fun (r : State × Nat) => ({ r.1 with cur := (r.1.cur.fillDest dest true a.size r.2).advance len } : State)
  let permitted := k.ganged && s.cur.elemsDone.contains a.va
  if !waits && !permitted then
    if 16 ≤ k.stores.length ∨ (held ∧ (!ready ∨ k.acquiring slot)) then .error (k.fullWait 1)
    else if held ∧ k.ganged then s.suspendScatter 2 a
    else
      let enter := fun (s : State) (req waits : Option Nat) =>
        s.withCore c fun k => { k with stores := k.stores ++ [⟨a, release, waits, req, .none⟩] }
      if !held then .ok { enter s0 .none .none with cur := s.cur.advance len }
      else match s0.wantAtomic c a with
        | .none => .error (.wait .again)
        | .some (s', tag) =>
          .ok { enter s' (.some tag) (.some len) with cur := { s'.cur with wait := .access, ended := .waited } }
  else if !ready || k.storePending slot a.pa a.size || k.readPending slot a.pa a.size || k.acquiring slot then .error (.wait .again)
  else if s.poisoned a.pa then .error .poison
  else if permitted then .ok (fill (s0.performHome c a))
  else
    let pend := fun (s : State) (req : Option Nat) =>
      let s := s.withCore c fun k => { k with atomics := k.atomics ++ [⟨slot, a, dest, req, .none, s.time⟩] }
      ({ s with cur := { s.cur with wait := .atomic, ended := .waited } } : State)
    match s.reach c true a.target with
    | .now => .ok (fill (if placeOf a.pa = .scratch then s0.performHome c a else s0.performL1 c a))
    | .later => .ok (if k.ganged then fill (s0.performHome c a) else pend s0 .none)
    | .remote =>
      if a.byBlock then
        match s0.wantAtomic c a with
        | .none => .error (.wait .again)
        | .some (s', tag) => .ok (pend s' (.some tag))
      else .ok (pend s0 .none)
    | .miss | .violation =>
      if k.ganged then s.suspendScatter 2 a
      else match s0.wantAtomic c a with
        | .none => .error (.wait .again)
        | .some (s', tag) => .ok (pend s' (.some tag))

/-! ## The handler path (R282) -/

def dataMemory : Nat := 2 ^ 63

/-- The binding slot of a message at a PP, when its protocol is loadable. -/
def Pp.binding (p : Pp) (m : PpMsg) : Option Binding :=
  p.bindings.find? fun b => b.ctx == m.ctx && b.proto == m.proto

/-- A physical address that a handler may name: memory of the package, and for a loadable binding within the 64 KiB page of
its block. -/
def handlerPa (m : PpMsg) (pa : Nat) : Bool :=
  (placeOf pa == .dram || placeOf pa == .scratch) && (isLibrary m.proto || pa / 65536 == m.block / 65536)

/-- Where an address of a handler leads: data memory (true) or physical memory, with the offset or address. -/
def handlerAddress (p : Pp) (m : PpMsg) (va n : Nat) : Except Exc (Bool × Nat) :=
  if va % n ≠ 0 then .error (.handler 3)
  else if dataMemory ≤ va then
    if isLibrary m.proto then .ok (true, va % 2 ^ 18)
    else match p.binding m with
      | .none => .error (.handler 3)
      | .some b => if va - dataMemory + n ≤ b.dataSize then .ok (true, b.dataBase + (va - dataMemory)) else .error (.handler 3)
  else if handlerPa m va then .ok (false, va)
  else .error (.handler 3)

def State.handlerMsg (s : State) : PpMsg :=
  (s.cur.handler.map (·.msg)).getD (plainMsg 0 0 0 (plainRegion 0 0))

/-- The PP of the executing handler. -/
def State.curPp (s : State) : PpId :=
  match s.cur.who with
  | .pp i _ => i
  | .core _ _ => 0

/-- A load of a handler. Poisoned data is not returned: the handler ends with a fault (R386; DEDUCED, log 40). -/
def State.handlerLoad (s : State) (d : Reg) (va : Word) (n : Nat) (signed : Bool) (len : Nat) : Except Exc State := do
  let q := s.ppOf s.curPp
  let (data, a) ← handlerAddress q s.handlerMsg va.toNat n
  if !data && s.poisoned a then .error (.handler 3)
  let v := if data then readBytes q.dmem a n else readBytes s.mem a n
  .ok { s with cur := (s.cur.setX d (extend signed n v)).advance len }

/-- A store of a handler, performed at its home. -/
def State.handlerStore (s : State) (va : Word) (n v len : Nat) : Except Exc State := do
  let q := s.ppOf s.curPp
  let (data, a) ← handlerAddress q s.handlerMsg va.toNat n
  let s := if data then s.setPp { q with dmem := writeBytes q.dmem a n v } else s.homeWrite a n v
  .ok { s with cur := s.cur.advance len }

/-- An atomic of a handler, on data memory only. -/
def State.handlerAtomic (s : State) (op : Nat) (d : Reg) (va : Word) (n b e : Nat) : Except Exc State := do
  let q := s.ppOf s.curPp
  let (data, a) ← handlerAddress q s.handlerMsg va.toNat n
  if !data then .error (.handler 3)
  else
    let old := readBytes q.dmem a n
    let s := match amoNew op n old b e with
      | .some v => s.setPp { q with dmem := writeBytes q.dmem a n v }
      | .none => s
    .ok { s with cur := (s.cur.setX d (extend true n old)).advance 4 }

/-! ## Instruction fetch (R30, R96) -/

/-- The instruction cache of a core takes a block that the core may fetch from memory of this package. -/
def State.codeFill (s : State) (c : CoreId) (va : Nat) : State :=
  match s.checkWalk c false va 1 .fetch with
  | .error _ => s
  | .ok (_, t) => if isRemote s.pkg t.pa || s.poisoned t.pa then s else s.cacheCode c t.pa

/-- A parcel as it stands in memory. -/
def State.memoryParcel (s : State) (pa : Nat) : Except Exc (BitVec 16) :=
  if s.poisoned pa then .error .poison else .ok (BitVec.ofNat 16 (s.coherentRead pa 2))

/-- One parcel of a core thread's code, from its core's instruction cache or from memory. -/
def State.fetchParcel (s : State) (pc : Word) : Except Exc (BitVec 16) :=
  match s.translate pc 2 .fetch with
  | .error e => .error e
  | .ok t =>
    if isRemote s.pkg t.pa then
      if s.canReach s.cur.who.core' t.pa then .ok (Config.peerParcel s.turn t.pa) else .error (trapOf .remoteAccess pc)
    else match s.cachedParcel s.cur.who.core' t.pa with
      | .some p => if Config.codeHit s.turn t.pa then .ok p else s.memoryParcel t.pa
      | .none => s.memoryParcel t.pa

/-- The instruction at an address: its word, zero-extended for a compact form, and its length. -/
def State.fetch (s : State) (pc : Word) : Except Exc (BitVec 32 × Nat) :=
  match s.fetchParcel pc with
  | .error e => .error e
  | .ok lo =>
    if !lo.getLsbD 0 then .ok (lo.setWidth 32, 2)
    else match s.fetchParcel (pc + 2) with
      | .error e => .error e
      | .ok hi => .ok (hi.setWidth 32 <<< 16 ||| lo.setWidth 32, 4)

/-! ## Gangs: members, and traps in every one of them (R104 to R106) -/

/-- The cores from `x` on, `w` of them, in a core's row. -/
def gangCores (c : CoreId) (x w : Nat) : List CoreId :=
  (List.range w).map fun i => coreAt (coreDie c) (x + i) (coreY c)

/-- The cores of a core's gang; the core alone when it is in none. -/
def State.gangOf (s : State) (c : CoreId) : List CoreId :=
  match (s.coreOf c).gang with
  | .none => [c]
  | .some g => gangCores g.leader (coreX g.leader) g.width

/-- What a destination holds, as one number. -/
def Hart.destValue (h : Hart) (d : Dest) : Nat :=
  match d with
  | .nowhere => 0
  | .scalar i => (h.x.toList.getD i 0).toNat
  | .pair i j => (h.x.toList.getD i 0).toNat + 2 ^ 64 * (h.x.toList.getD j 0).toNat
  | .vector j => (h.v.toList.getD j 0).toNat

/-- A gang discards an instruction whose part in this member has landed: the destination holds again what it held (R106). -/
def Hart.takeBack (h : Hart) : Hart :=
  match h.landed with
  | .some (_, d, v) => { h.fillDest d false 8 v with landed := .none }
  | .none => h

/-- Bit j for each member of a gang that an event concerns. -/
def memberBits (ms : List CoreId) (hit : CoreId → Bool) : Nat :=
  (ms.zipIdx.map fun (c, j) => if hit c then 2 ^ j else 0).sum

/-- A core forgets what a slot's instruction has outstanding that its thread waits for: a load, a send, a request that would have it
executed again. -/
def Core.discard (k : Core) (slot : Nat) : Core :=
  { k with
    loads := k.loads.filter fun l => !(l.slot == slot && l.waits.isSome)
    sending := k.sending.filter fun e => e.slot != slot
    requests := k.requests.map fun q => if q.retry.any fun a => a.slot == slot then { q with retry := .none } else q }

/-- Slot `slot` of every member of a gang discards its instruction precisely, with the same `tepc` where one is given: a member that
detected a condition takes its own trap, or the fatal one (poisoned data or not) where `fatal` says so, and the others gang-stop with
a bit for each that did (R106, R319). -/
def State.gangStops (s : State) (leader : CoreId) (slot : Nat) (epc : Option Word) (own : CoreId → Option Trap)
    (fatal : CoreId → Option Bool) : State :=
  let ms := s.gangOf leader
  let bits := memberBits ms fun c => (own c).isSome || (fatal c).isSome
  ms.foldl (fun s c =>
    let t := (own c).getD { cause := .gangStop, tval := BitVec.ofNat 64 bits }
    let s := if (s.coreOf c).ganged then s.withCore c fun k => k.discard slot else s
    let f := s.focus (.core c slot)
    let f : State := { f with cur := { f.cur.takeBack with pc := epc.getD f.cur.pc } }
    match fatal c with
    | .some true => { f with cur := { f.cur with wait := .fatal true, ended := .trapped } }
    | .some false => { f with cur := f.cur.fatalTrap t }
    | .none => f.trap t) s

/-- The same where no trap is fatal by itself. -/
def State.gangTrap (s : State) (leader : CoreId) (slot : Nat) (epc : Option Word) (own : CoreId → Option Trap) : State :=
  s.gangStops leader slot epc own fun _ => .none

end Sys2Proof.Machine
end

