-- ==== Sys2Proof/Machine/Memory.lean ====
section
/-! DEFINITION. Loads, stores, vector memory and cache hints: primaries 0x18 to 0x1D (R151 to R157). -/

namespace Sys2Proof.Machine

open Sys2Proof

/-! ## Scalar loads and stores (R151) -/

/-- A scalar load of `n` bytes; on a PP it is the handler's (R282). -/
def loadScalar (n : Nat) (signed : Bool) (d a : Reg) (imm : Word) (len : Nat) (s : State) :
    Host.Outcome State Fault Refusal :=
  s.issue .both fun s => do
    s.cur.needX d
    let x ← s.cur.getX a
    if s.cur.who.isPp then s.handlerLoad d (x + imm) n signed len
    else
      let t ← s.translate (x + imm) n .read
      s.load [s.loadAccess t n false] (s.cur.destX d) signed false len

/-- A scalar store of `n` bytes. -/
def storeScalar (n : Nat) (b a : Reg) (imm : Word) (len : Nat) (s : State) : Host.Outcome State Fault Refusal :=
  s.issue .both fun s => do
    let x ← s.cur.getX a
    let v ← s.cur.getX b
    if s.cur.who.isPp then s.handlerStore (x + imm) n v.toNat len
    else
      let t ← s.translate (x + imm) n .write
      s.store (s.storeAccess t n v.toNat false) .none len

def execLdB (d a : Reg) (imm : BitVec 11) (s : State) : Host.Outcome State Fault Refusal := loadScalar 1 true d a (imm.signExtend 64) 4 s
def execLdH (d a : Reg) (imm : BitVec 11) (s : State) : Host.Outcome State Fault Refusal := loadScalar 2 true d a (imm.signExtend 64) 4 s
def execLdW (d a : Reg) (imm : BitVec 11) (s : State) : Host.Outcome State Fault Refusal := loadScalar 4 true d a (imm.signExtend 64) 4 s
def execLdD (d a : Reg) (imm : BitVec 11) (s : State) : Host.Outcome State Fault Refusal := loadScalar 8 true d a (imm.signExtend 64) 4 s
def execLdBz (d a : Reg) (imm : BitVec 11) (s : State) : Host.Outcome State Fault Refusal := loadScalar 1 false d a (imm.signExtend 64) 4 s
def execLdHz (d a : Reg) (imm : BitVec 11) (s : State) : Host.Outcome State Fault Refusal := loadScalar 2 false d a (imm.signExtend 64) 4 s
def execLdWz (d a : Reg) (imm : BitVec 11) (s : State) : Host.Outcome State Fault Refusal := loadScalar 4 false d a (imm.signExtend 64) 4 s
def execStB (b a : Reg) (imm : BitVec 11) (s : State) : Host.Outcome State Fault Refusal := storeScalar 1 b a (imm.signExtend 64) 4 s
def execStH (b a : Reg) (imm : BitVec 11) (s : State) : Host.Outcome State Fault Refusal := storeScalar 2 b a (imm.signExtend 64) 4 s
def execStW (b a : Reg) (imm : BitVec 11) (s : State) : Host.Outcome State Fault Refusal := storeScalar 4 b a (imm.signExtend 64) 4 s
def execStD (b a : Reg) (imm : BitVec 11) (s : State) : Host.Outcome State Fault Refusal := storeScalar 8 b a (imm.signExtend 64) 4 s

/-! ## Vector loads and stores (R152) -/

/-- Number of vector registers a thread owns (R46). -/
def State.vregs (s : State) : Nat := 256 / (s.coreOf s.cur.who.core').threads

/-- The register check of R46: outside a replay, a number of N or more traps. -/
def State.needReg (s : State) (r : VReg) : Except Exc Unit :=
  if s.vregs ≤ r.toNat then .error (trapOf .illegalRegister (r.setWidth 64)) else .ok ()

/-- The byte offset of format VM. -/
def vmOffset (imm : BitVec 11) : Word := imm.signExtend 64 * 16

def execVld (vd : VReg) (a : Reg) (imm : BitVec 11) (nt : Bool) (s : State) : Host.Outcome State Fault Refusal :=
  s.issue .coreOnly fun s => do
    s.needReg vd
    let x ← s.cur.getX a
    s.cur.needV vd
    let t ← s.translate (x + vmOffset imm) 16 .read
    s.load [s.loadAccess t 16 nt] (.vector vd.toNat) false false 4

def execVst (vd : VReg) (a : Reg) (imm : BitVec 11) (nt : Bool) (s : State) : Host.Outcome State Fault Refusal :=
  s.issue .coreOnly fun s => do
    s.needReg vd
    let x ← s.cur.getX a
    let v ← s.cur.getV vd
    let t ← s.translate (x + vmOffset imm) 16 .write
    s.store (s.storeAccess t 16 v.toNat nt) .none 4

/-! ## Gathers, scatters and strided forms (R153) -/

/-- Element size in bytes: four elements of 4, or two of 8. -/
def elemSize (st : Bool) : Nat := if st then 8 else 4

/-- Offsets from an index register, sign-extended. -/
def indexOffset (st : Bool) (v : Vec) (i : Nat) : Word :=
  if st then lane 64 v i else (lane 32 v i).signExtend 64

/-- Translates every element's address in ascending order. -/
def State.translateEach (s : State) (size : Nat) (r : Right) : List Word → Except Exc (List Target)
  | [] => .ok []
  | va :: rest =>
    match s.translate va size r with
    | .error e => .error e
    | .ok t =>
      match s.translateEach size r rest with
      | .error e => .error e
      | .ok ts => .ok (t :: ts)

/-- Checks every element's address: the data breakpoints of all of them come before the first fault (R378). -/
def State.translateAll (s : State) (size : Nat) (r : Right) (vas : List Word) : Except Exc (List Target) :=
  match vas.findSome? fun va => s.dataBreak va size r with
  | .some n => .error (.debug n)
  | .none => s.translateEach size r vas

/-- The addresses of the elements. -/
def elemAddrs (st : Bool) (base : Word) (off : Nat → Word) : List Word :=
  (List.range (16 / elemSize st)).map fun i => base + off i

def State.gather (s : State) (vd : VReg) (st : Bool) (addrs : List Word) : Except Exc State := do
  let ts ← s.translateAll (elemSize st) .read addrs
  s.load (ts.map fun t => s.loadAccess t (elemSize st) false) (.vector vd.toNat) false false 4

def State.scatter (s : State) (v : Vec) (st : Bool) (addrs : List Word) : Except Exc State := do
  let ts ← s.translateAll (elemSize st) .write addrs
  let n := elemSize st
  s.storeAll (ts.zipIdx.map fun (t, i) => s.storeAccess t n (v.toNat / 2 ^ (8 * n * i)) false) 4

def execVldx (vd : VReg) (a : Reg) (vb : VReg) (st : Bool) (s : State) : Host.Outcome State Fault Refusal :=
  s.issue .coreOnly fun s => do
    s.needReg vd; s.needReg vb
    let x ← s.cur.getX a
    s.cur.needV vd
    let ix ← s.cur.getV vb
    s.gather vd st (elemAddrs st x (indexOffset st ix))

def execVstx (vd : VReg) (a : Reg) (vb : VReg) (st : Bool) (s : State) : Host.Outcome State Fault Refusal :=
  s.issue .coreOnly fun s => do
    s.needReg vd; s.needReg vb
    let x ← s.cur.getX a
    let v ← s.cur.getV vd
    let ix ← s.cur.getV vb
    s.scatter v st (elemAddrs st x (indexOffset st ix))

def execVlds (vd : VReg) (a b : Reg) (st : Bool) (s : State) : Host.Outcome State Fault Refusal :=
  s.issue .coreOnly fun s => do
    s.needReg vd
    let x ← s.cur.getX a
    let y ← s.cur.getX b
    s.cur.needV vd
    s.gather vd st (elemAddrs st x fun i => BitVec.ofNat 64 i * y)

def execVsts (vd : VReg) (a b : Reg) (st : Bool) (s : State) : Host.Outcome State Fault Refusal :=
  s.issue .coreOnly fun s => do
    s.needReg vd
    let x ← s.cur.getX a
    let y ← s.cur.getX b
    let v ← s.cur.getV vd
    s.scatter v st (elemAddrs st x fun i => BitVec.ofNat 64 i * y)

/-! ## Hints (R156, R157) -/

/-- A hint reaches only cacheable memory. -/
def State.hintable (s : State) (t : Target) : Bool :=
  !t.uncached && (placeOf t.pa == .dram || isRemote s.pkg t.pa && placeOf t.pa == .peerDram)

/-- Tells the home of a hint when the region asks for it (R275, R284), once no write-back of the block is unacknowledged (R279). -/
def State.tellHint (s : State) (c : CoreId) (t : Target) (kind : Nat) : State :=
  let r := s.regionOf t
  if !r.hint then s
  else
    let tag := (s.coreOf c).freeTag
    let (p, proxy) := s.requestPp c r
    let q : Request := { rtag := tag, block := blockOf t.pa, type := 5, slotUsed := false, prefetch := true
                         retry := .none, region := r, va := t.va, size := 1 }
    let m := { plainMsg 5 (blockOf t.pa) (agentOfCore c tag) r with hint := kind, proxy := proxy }
    let s' := s.withCore c fun k => { k with requests := k.requests ++ [q] }
    if s.writeBackOpen c m.block r then s'.withCore c fun k => { k with hints := k.hints ++ [(p, m)] } else s'.pushRequest p m

/-- A hint of a kind waits: `discard` and `inval` for an outstanding fill of their line, and `discard` for an older store of its slot
to it (R157). -/
def Core.hintWaits (c : Core) (kind slot block : Nat) : Bool :=
  ((kind == 2 || kind == 5) && c.requests.any fun q => q.block == block && q.type != 5) || (kind == 2 && c.storePending slot block 32)

/-- The shape of the hints that fault: what becomes of the line in the core's L1, and of the copies in the die's caches. -/
def hint (kind : Nat) (r : Right) (eff : State → CoreId → Line → State) (away : State → CoreId → Target → State)
    (a : Reg) (imm : BitVec 11) (s : State) : Host.Outcome State Fault Refusal :=
  s.issue .coreOnly fun s => do
    let x ← s.cur.getX a
    let t ← s.translate (x + imm.signExtend 64) 1 r
    let c := s.cur.who.core'
    let done := fun (s : State) => ({ s with cur := s.cur.advance 4 } : State)
    if !s.hintable t then .ok (done s)
    else if (s.coreOf c).hintWaits kind s.cur.who.slot' (blockOf t.pa) then .error (.wait .again)
    else
      let s1 := match (s.coreOf c).line? (blockOf t.pa) with
        | .none => s
        | .some l => eff s c l
      .ok (done ((away s1 c t).tellHint c t kind))

/-- Drops the line; dirty data in it is lost. -/
def dropLine (s : State) (c : CoreId) (l : Line) : State := s.evict c { l with dirty := false }

/-- The line is kept, clean, and its data stands at its home and in the RDC of the die. The tag is not lowered, so no type 3 is
sent (R279). -/
def cleanLine (s : State) (c : CoreId) (l : Line) : State :=
  if !l.dirty then s
  else
    let here := fun (r : RdcBlock) => r.die == coreDie c && r.block == l.block
    ({ s with mem := putHomeData s.mem l.block l.data
              rdc := s.rdc.map fun r => if here r then { r with dirty := false, data := l.data } else r } : State).withCore c
      fun k => k.setLine { l with dirty := false }

/-- Writes the dirty data of a block that the die's RDC holds to its home. -/
def cleanRdc (s : State) (c : CoreId) (t : Target) : State :=
  match s.rdc.find? fun r => r.die == coreDie c && r.block == blockOf t.pa && r.dirty with
  | .none => s
  | .some r =>
    { s with mem := putHomeData s.mem r.block r.data
             rdc := s.rdc.map fun q => if q.die = r.die ∧ q.block = r.block then { q with dirty := false } else q }

/-- A block leaves an RDC: dirty data goes to its home with a type 3 message, and a clean drop is told when the region asks
(R279, R284). A peer's block is never dirty here; a message about it leaves the package. -/
def State.evictRdc (s : State) (r : RdcBlock) : State :=
  let s : State := { s with rdc := s.rdc.filter fun q => !(q.die == r.die && q.block == r.block) }
  if isRemote s.pkg r.block then s
  else
    let m := plainMsg 3 r.block (BitVec.ofNat 64 (agentOfRdc r.die)) r.region
    if r.dirty then
      ({ s with mem := putHomeData s.mem r.block r.data } : State).pushReply (Agent.rdc r.die).code (homePp r.region.homePa) m
    else if r.region.evs then s.pushReply (Agent.rdc r.die).code (homePp r.region.homePa) { m with type := 4 }
    else s

/-- The lines of 256 bytes that an RDC of 32 MiB holds, and those of an L2 slice of 3 MiB (R1). -/
def rdcLines : Nat := 131072
def sliceLines : Nat := 12288

/-- A line of 256 bytes leaves a cache: of an RDC, with its blocks. -/
def State.dropCacheLine (s : State) (holder line : Nat) : State :=
  let s : State := { s with lines := s.lines.filter fun l => !(l.holder == holder && l.line == line) }
  if holder % 2 = 0 then s
  else (s.rdc.filter fun r => r.die == holder / 2 && r.block / 256 == line).foldl State.evictRdc s

/-- An eviction counts for the evicted tenant: in its interference counter when another tenant's fill causes it (R374). -/
def State.countEviction (s : State) (holder : Nat) (filler evicted : TenantNo) : State :=
  if filler = evicted then s.countTenant evicted holder 4 3 else s.countTenant evicted holder 5 0

/-- The line of the L2 stands in a way; its slice is the one beside its home channel (R10, R11). -/
def CacheLine.inWay (l : CacheLine) (slice set way : Nat) : Bool :=
  l.holder % 2 == 0 && l.holder / 2 * 32 + homeChannel (256 * l.line) == slice && Config.l2Place l.line == (set, way)

/-- The way that a line would stand in has been repaired: it is disabled, and holds nothing (R385). -/
def State.wayOff (s : State) (holder line : Nat) : Bool :=
  s.plant.repaired.any fun e => match e with
    | .l2Way slice set way => (⟨holder, line, 0, 0⟩ : CacheLine).inWay slice set way
    | _ => false

/-- Sectors of a line enter an L2 or an RDC, but for a way that is disabled. A full slice or RDC gives up a victim, which is free (log 17). -/
def State.fillSectors (s : State) (holder line : Nat) (sectors : BitVec 8) (tenant : TenantNo) : State :=
  let mine := fun (l : CacheLine) => l.holder == holder && l.line == line
  if s.lines.any mine then { s with lines := s.lines.map fun l => if mine l then { l with sectors := l.sectors ||| sectors } else l }
  else if s.wayOff holder line then s
  else
    let rivals := s.lines.filter fun l => l.holder == holder &&
      (holder % 2 == 1 || homeChannel (256 * l.line) == homeChannel (256 * line))
    let places := if holder % 2 = 1 then rdcLines else sliceLines
    let s := if rivals.length < places then s
      else match rivals[Config.lineVictim s.turn % places]? with
        | .some v => (s.countEviction holder tenant v.tenant).dropCacheLine holder v.line
        | .none => s
    ({ s with lines := ⟨holder, line, sectors, tenant⟩ :: s.lines } : State).countTenant tenant holder 4 2

/-- The holder of a line's data for a die: its L2 when the line is homed there, else its RDC (R12). -/
def holderFor (s : State) (die pa : Nat) : Nat := if isRemote s.pkg pa ∨ homeDie pa ≠ die then 2 * die + 1 else 2 * die

/-- A cache drops one sector of a line, which no burst under way brings back. -/
def State.dropSector (s : State) (holder block : Nat) : State :=
  let rest := fun (b : BitVec 8) => b &&& ~~~(1#8 <<< (block / 32 % 8))
  let here := fun (h l : Nat) => h == holder && l == block / 256
  { s with
    lines := (s.lines.map fun l => if here l.holder l.line then { l with sectors := rest l.sectors } else l).filter (·.sectors != 0)
    windows := (s.windows.map fun w => if here w.holder w.line then { w with sectors := rest w.sectors } else w).filter (·.sectors != 0) }

/-- `flush` also drops the copies in the die's L2 or RDC. -/
def flushDie (s : State) (c : CoreId) (t : Target) : State :=
  let s := match s.rdc.find? fun r => r.die == coreDie c && r.block == blockOf t.pa with
    | .some r => s.evictRdc r
    | .none => s
  s.dropSector (holderFor s (coreDie c) t.pa) (blockOf t.pa)

def keepDie (s : State) (_ : CoreId) (_ : Target) : State := s

def execDiscard (a : Reg) (imm : BitVec 11) (s : State) : Host.Outcome State Fault Refusal := hint 2 .write dropLine keepDie a imm s
def execFlush (a : Reg) (imm : BitVec 11) (s : State) : Host.Outcome State Fault Refusal := hint 3 .read State.evict flushDie a imm s
def execClean (a : Reg) (imm : BitVec 11) (s : State) : Host.Outcome State Fault Refusal := hint 4 .read cleanLine cleanRdc a imm s
def execInval (a : Reg) (imm : BitVec 11) (s : State) : Host.Outcome State Fault Refusal := hint 5 .read State.evict keepDie a imm s

/-- A prefetch never faults: an address that would fault makes no access. -/
def prefetch (eff : State → CoreId → Target → Except Exc State) (a : Reg) (imm : BitVec 11) (s : State) :
    Host.Outcome State Fault Refusal :=
  s.issue .coreOnly fun s => do
    let x ← s.cur.getX a
    match s.translate (x + imm.signExtend 64) 1 .read with
    | .error (.trap _) => .ok { s with cur := s.cur.advance 4 }
    | .error e => .error e
    | .ok t =>
      if !s.hintable t then .ok { s with cur := s.cur.advance 4 }
      else do
        let s ← eff s s.cur.who.core' t
        .ok { s with cur := s.cur.advance 4 }

/-- Asks for the line as a load would; nothing waits on it. -/
def fetchLine (s : State) (c : CoreId) (t : Target) : Except Exc State :=
  let k := s.coreOf c
  let b := blockOf t.pa
  let r := s.regionOf t
  if (k.line? b).isSome || k.requests.any (fun q => q.block == b && q.type != 5) then .ok s
  else if s.writeBackOpen c b r || decide (16 ≤ (k.requests.filter (·.slotUsed)).length) then .error (k.fullWait 0)
  else .ok (s.sendRequest c { rtag := k.freeTag, block := b, type := 0, slotUsed := true, prefetch := true, retry := .none
                              region := r, va := t.va, size := 1 })

/-- The agent number in a designation. -/
def agentNo (a : Word) : Nat := a.toNat % 2 ^ 16

/-- A write-back of the RDC of a die for the block has not been taken by its home, so that a request for it is held back (R279). -/
def State.rdcWriteBack (s : State) (die : Nat) (hp : PpId) (block : Nat) : Bool :=
  let mine := fun (m : PpMsg) => m.type == 3 && m.block == block && agentNo m.agent == agentOfRdc die
  (s.ppOf hp).repQueue.any mine || s.net.any fun n => match n with
    | .message _ q m => q == hp && mine m
    | _ => false

/-- Where the RDC of a die asks for a block of a region: the home, or a peer's fabric port; none when the request leaves the package
at the die's own port, whose PP keeps the block busy until the peer answers. -/
def State.rdcHome (s : State) (die : Nat) (r : Region) : Option PpId :=
  if !isRemote s.pkg r.homePa then .some (homePp r.homePa)
  else
    let port := (s.portOfLine r.homePa).getD 0
    if port / 3 = die then .none else .some (fabricPp port)

/-- The RDC of a die asks for a block, unless it has it or has asked before. -/
def State.rdcAsk (s : State) (die block : Nat) (r : Region) : State :=
  match s.rdcHome die r with
  | .some hp => s.pushRequest hp (plainMsg 0 block (BitVec.ofNat 64 (agentOfRdc die)) r)
  | .none => s.withPp (fabricPp ((s.portOfLine r.homePa).getD 0)) fun q =>
      if (q.busyOf block).isSome then q
      else { q with busy := q.busy ++ [⟨block, 0, false, [], false, r.ctx, r.proto, r.arg, 0⟩] }

/-- Brings the 256-byte line into the L2 of its home die; an RDC asks the home for the blocks it lacks. -/
def fetchL2 (s : State) (c : CoreId) (t : Target) : Except Exc State :=
  let die := coreDie c
  let r := s.regionOf t
  if !isRemote s.pkg t.pa ∧ homeDie t.pa = die then .ok (s.fillSectors (2 * die) (t.pa / 256) 255 (((s.ctxOfCore c).map (·.tenant)).getD 0))
  else
    let blocks := ((List.range 8).map fun i => t.pa / 256 * 256 + 32 * i).filter fun b =>
      !s.rdc.any fun q => q.die == die && q.block == b
    let homes := fun (b : Nat) => { r with homePa := if r.homePa / 256 = t.pa / 256 then b else r.homePa }
    if blocks.any fun b => (s.rdcHome die r).any fun hp => s.rdcWriteBack die hp b then .error (.wait .again)
    else .ok (blocks.foldl (fun s b => s.rdcAsk die b (homes b)) s)

def execPref (a : Reg) (imm : BitVec 11) (s : State) : Host.Outcome State Fault Refusal := prefetch fetchLine a imm s
def execPrefl2 (a : Reg) (imm : BitVec 11) (s : State) : Host.Outcome State Fault Refusal := prefetch fetchL2 a imm s

end Sys2Proof.Machine
end

