-- ==== Sys2Proof/Machine/Atomics.lean ====
section
/-! DEFINITION. Atomics, acquire loads, release stores and the fence: primaries 0x20 to 0x25 (R182 to R187). -/

namespace Sys2Proof.Machine

open Sys2Proof

/-! ## Atomic read-modify-write (R182, R184) -/

/-- Order field: bit 0 acquire, bit 1 release. -/
def acquires (ord : BitVec 2) : Bool := ord.getLsbD 0
def releases (ord : BitVec 2) : Bool := ord.getLsbD 1

/-- An atomic access of the executing thread. -/
def State.amoAccess (s : State) (t : Target) (op n b e : Nat) (acquire : Bool) (scope : BitVec 3) : Access :=
  { slot := s.cur.who.slot', kind := .amo op, va := t.va, pa := t.pa, size := n, data := b, expect := e,
    uncached := t.uncached, region := s.regionOf t, nt := false, acquire := if acquire then .some scope.toNat else .none }

/-- Operation `op` of R182 on `n` bytes. Only a compare-and-swap reads x[d] as a value; every form needs it full (R86). -/
def atomicOp (op n : Nat) (d b a : Reg) (ord : BitVec 2) (scope : BitVec 3) (s : State) : Host.Outcome State Fault Refusal :=
  s.issue .both fun s => do
    let e ← s.cur.getX d
    let x ← s.cur.getX a
    let y ← s.cur.getX b
    let B := y.toNat % 2 ^ (8 * n)
    let E := e.toNat % 2 ^ (8 * n)
    if s.cur.who.isPp then s.handlerAtomic op d x n B E
    else
      let t ← s.translate x n .write
      s.atomic (s.amoAccess t op n B E (acquires ord) scope) (s.cur.destX d) (d != 0#5 || acquires ord)
        (if releases ord then .some scope.toNat else .none) 4

def execAmoaddW (d b a : Reg) (ord : BitVec 2) (scope : BitVec 3) (s : State) : Host.Outcome State Fault Refusal := atomicOp 0 4 d b a ord scope s
def execAmoandW (d b a : Reg) (ord : BitVec 2) (scope : BitVec 3) (s : State) : Host.Outcome State Fault Refusal := atomicOp 1 4 d b a ord scope s
def execAmoorW (d b a : Reg) (ord : BitVec 2) (scope : BitVec 3) (s : State) : Host.Outcome State Fault Refusal := atomicOp 2 4 d b a ord scope s
def execAmoxorW (d b a : Reg) (ord : BitVec 2) (scope : BitVec 3) (s : State) : Host.Outcome State Fault Refusal := atomicOp 3 4 d b a ord scope s
def execAmominW (d b a : Reg) (ord : BitVec 2) (scope : BitVec 3) (s : State) : Host.Outcome State Fault Refusal := atomicOp 4 4 d b a ord scope s
def execAmomaxW (d b a : Reg) (ord : BitVec 2) (scope : BitVec 3) (s : State) : Host.Outcome State Fault Refusal := atomicOp 5 4 d b a ord scope s
def execAmominuW (d b a : Reg) (ord : BitVec 2) (scope : BitVec 3) (s : State) : Host.Outcome State Fault Refusal := atomicOp 6 4 d b a ord scope s
def execAmomaxuW (d b a : Reg) (ord : BitVec 2) (scope : BitVec 3) (s : State) : Host.Outcome State Fault Refusal := atomicOp 7 4 d b a ord scope s
def execAmoswapW (d b a : Reg) (ord : BitVec 2) (scope : BitVec 3) (s : State) : Host.Outcome State Fault Refusal := atomicOp 8 4 d b a ord scope s
def execAmocasW (d b a : Reg) (ord : BitVec 2) (scope : BitVec 3) (s : State) : Host.Outcome State Fault Refusal := atomicOp 9 4 d b a ord scope s
def execAmoaddD (d b a : Reg) (ord : BitVec 2) (scope : BitVec 3) (s : State) : Host.Outcome State Fault Refusal := atomicOp 0 8 d b a ord scope s
def execAmoandD (d b a : Reg) (ord : BitVec 2) (scope : BitVec 3) (s : State) : Host.Outcome State Fault Refusal := atomicOp 1 8 d b a ord scope s
def execAmoorD (d b a : Reg) (ord : BitVec 2) (scope : BitVec 3) (s : State) : Host.Outcome State Fault Refusal := atomicOp 2 8 d b a ord scope s
def execAmoxorD (d b a : Reg) (ord : BitVec 2) (scope : BitVec 3) (s : State) : Host.Outcome State Fault Refusal := atomicOp 3 8 d b a ord scope s
def execAmominD (d b a : Reg) (ord : BitVec 2) (scope : BitVec 3) (s : State) : Host.Outcome State Fault Refusal := atomicOp 4 8 d b a ord scope s
def execAmomaxD (d b a : Reg) (ord : BitVec 2) (scope : BitVec 3) (s : State) : Host.Outcome State Fault Refusal := atomicOp 5 8 d b a ord scope s
def execAmominuD (d b a : Reg) (ord : BitVec 2) (scope : BitVec 3) (s : State) : Host.Outcome State Fault Refusal := atomicOp 6 8 d b a ord scope s
def execAmomaxuD (d b a : Reg) (ord : BitVec 2) (scope : BitVec 3) (s : State) : Host.Outcome State Fault Refusal := atomicOp 7 8 d b a ord scope s
def execAmoswapD (d b a : Reg) (ord : BitVec 2) (scope : BitVec 3) (s : State) : Host.Outcome State Fault Refusal := atomicOp 8 8 d b a ord scope s
def execAmocasD (d b a : Reg) (ord : BitVec 2) (scope : BitVec 3) (s : State) : Host.Outcome State Fault Refusal := atomicOp 9 8 d b a ord scope s

/-- `cas128` (R185): E in x[d+1] : x[d], B in x[b+1] : x[b]; the thread always waits. -/
def execCas128 (d b a : Reg) (ord : BitVec 2) (scope : BitVec 3) (s : State) : Host.Outcome State Fault Refusal :=
  s.issue .coreOnly fun s => do
    let e ← s.cur.getPair d
    let x ← s.cur.getX a
    let y ← s.cur.getPair b
    let t ← s.translate x 16 .write
    s.atomic (s.amoAccess t 9 16 (y.1.toNat + 2 ^ 64 * y.2.toNat) (e.1.toNat + 2 ^ 64 * e.2.toNat)
        (acquires ord) scope)
      (.pair (s.cur.xIdx d) (s.cur.xIdx (regPlus d 1))) true (if releases ord then .some scope.toNat else .none) 4

/-! ## Acquire loads and release stores (R186) -/

/-- The thread waits for the value of an acquire load before it passes it (R302). -/
def execLdacq (d a : Reg) (scope : BitVec 3) (dbl : Bool) (s : State) : Host.Outcome State Fault Refusal :=
  s.issue .coreOnly fun s => do
    s.cur.needX d
    let x ← s.cur.getX a
    let n := if dbl then 8 else 4
    let t ← s.translate x n .read
    s.load [{ s.loadAccess t n false with acquire := .some scope.toNat }] (s.cur.destX d) true true 4

def execStrel (b a : Reg) (scope : BitVec 3) (dbl : Bool) (s : State) : Host.Outcome State Fault Refusal :=
  s.issue .coreOnly fun s => do
    let x ← s.cur.getX a
    let v ← s.cur.getX b
    let n := if dbl then 8 else 4
    let t ← s.translate x n .write
    s.store (s.storeAccess t n v.toNat false) (.some scope.toNat) 4

/-! ## Fences (R173, R177, R187) -/

/-- A fence waits until a condition on its thread's accesses holds, and then has its effect on their order. On a PP it orders
nothing (R282). -/
def fence (ready : State → Bool) (order : State → State) (s : State) : Host.Outcome State Fault Refusal :=
  s.issue .both fun s =>
    if s.cur.who.isPp then .ok { s with cur := s.cur.advance 4 }
    else if ready s then .ok { order s with cur := s.cur.advance 4 }
    else .error (.wait .again)

/-- The fences of R173, R174 and R176 at their scopes. What a narrow scope promises to agents outside it the rules leave at nothing
(R170), and the model gives them nothing (DEDUCED, log 42). -/
def execFenceAcq (scope : BitVec 3) (s : State) : Host.Outcome State Fault Refusal :=
  fence (fun s => (s.coreOf s.cur.who.core').readsBack s.cur.who.slot' (s.stamps + 1)) (fun s => s.fenceAcq s.cur.who scope.toNat) s
def execFenceRel (scope : BitVec 3) (s : State) : Host.Outcome State Fault Refusal :=
  fence (fun s => s.quiet s.cur.who scope.toNat) (fun s => s.fenceRel s.cur.who scope.toNat) s
def execFenceFull (scope : BitVec 3) (s : State) : Host.Outcome State Fault Refusal :=
  fence (fun s => s.quiet s.cur.who scope.toNat) (fun s => s.fullFence s.cur.who scope.toNat) s

end Sys2Proof.Machine
end

