-- ==== Sys2Proof/Machine/Flags.lean ====
section
/-! DEFINITION. Number formats, rounding and the conditions of `fflags` (R63 to R74, R80 to R82). -/

namespace Sys2Proof.Machine

open Sys2Proof

/-! ## Conditions (R73) -/

/-- The seven conditions of `fflags`. -/
abbrev Cond := BitVec 7

def condNx : Cond := 1
def condUf : Cond := 2
def condOf : Cond := 4
def condDz : Cond := 8
def condNv : Cond := 16
def condSat : Cond := 32
def condSn : Cond := 64

/-- A condition that holds or not. -/
def when' (b : Bool) (c : Cond) : Cond := if b then c else 0

/-- The flags are sticky: hardware only sets them. -/
def Hart.orFlags (h : Hart) (c : Cond) : Hart :=
  { h with sys := { h.sys with fflags := h.sys.fflags ||| c.setWidth 64 } }

/-! ## Formats (R63) -/

inductive Fmt where
  | fp32 | bf16 | fp16 | e4m3 | e5m2 | e2m1 | int8 | uint8 | int16 | int32 | int64 | mod64
  deriving DecidableEq, Repr, Inhabited

/-- The format of a code; 12 to 15 are reserved. -/
def Fmt.ofCode : Nat → Option Fmt
  | 0 => .some .fp32 | 1 => .some .bf16 | 2 => .some .fp16 | 3 => .some .e4m3 | 4 => .some .e5m2 | 5 => .some .e2m1
  | 6 => .some .int8 | 7 => .some .uint8 | 8 => .some .int16 | 9 => .some .int32 | 10 => .some .int64 | 11 => .some .mod64
  | _ => .none

def Fmt.width : Fmt → Nat
  | .fp32 => 32 | .bf16 => 16 | .fp16 => 16 | .e4m3 => 8 | .e5m2 => 8 | .e2m1 => 4
  | .int8 => 8 | .uint8 => 8 | .int16 => 16 | .int32 => 32 | .int64 => 64 | .mod64 => 64

/-- Lanes of a vector register. -/
def Fmt.lanes (f : Fmt) : Nat := 128 / f.width

/-- The integer formats are read as signed values, but for UINT8 and MOD64. -/
def Fmt.signed : Fmt → Bool
  | .uint8 | .mod64 => false
  | _ => true

def Fmt.isFloat : Fmt → Bool
  | .fp32 | .bf16 | .fp16 | .e4m3 | .e5m2 | .e2m1 => true
  | _ => false

/-- The layout of a float format (R64 to R68): fraction bits, bias, largest finite code, the code of infinity if the format
has one, the canonical NaN if it has one, and the width with the sign. -/
structure FloatSpec where
  frac : Nat
  bias : Nat
  largest : Nat
  infinity : Option Nat
  nan : Option Nat
  width : Nat
  /-- E2M1 saturates under every mode (R71). -/
  saturates : Bool := false
  deriving DecidableEq, Repr

def specFp32 : FloatSpec := ⟨23, 127, 0x7f7fffff, .some 0x7f800000, .some 0x7fc00000, 32, false⟩
def specBf16 : FloatSpec := ⟨7, 127, 0x7f7f, .some 0x7f80, .some 0x7fc0, 16, false⟩
def specFp16 : FloatSpec := ⟨10, 15, 0x7bff, .some 0x7c00, .some 0x7e00, 16, false⟩
def specE4m3 : FloatSpec := ⟨3, 7, 0x7e, .none, .some 0x7f, 8, false⟩
def specE5m2 : FloatSpec := ⟨2, 15, 0x7b, .some 0x7c, .some 0x7e, 8, false⟩
def specE2m1 : FloatSpec := ⟨1, 1, 7, .none, .none, 4, true⟩

/-- The layout of a float format; the integer formats have none and read as FP32. -/
def Fmt.spec : Fmt → FloatSpec
  | .bf16 => specBf16 | .fp16 => specFp16 | .e4m3 => specE4m3 | .e5m2 => specE5m2 | .e2m1 => specE2m1
  | _ => specFp32

/-! ## Exact values -/

/-- What an element stands for: a NaN, an infinity, or ± m × 2^e. -/
inductive Ext where
  | nan (signalling : Bool)
  | inf (neg : Bool)
  | fin (neg : Bool) (m : Nat) (e : Int)
  deriving DecidableEq, Repr, Inhabited

/-- The value of a code (R64 to R67). -/
def FloatSpec.value (f : FloatSpec) (bits : Nat) : Ext :=
  let neg := bits.testBit (f.width - 1)
  let mag := bits % 2 ^ (f.width - 1)
  let e := mag / 2 ^ f.frac
  let m := mag % 2 ^ f.frac
  match f.infinity, f.nan with
  | .some i, _ =>
    if mag = i then .inf neg
    else if i < mag then .nan (!m.testBit (f.frac - 1))
    else if e = 0 then .fin neg m (1 - f.bias - f.frac) else .fin neg (m + 2 ^ f.frac) (e - f.bias - f.frac)
  | .none, n =>
    if n = .some mag then .nan false
    else if e = 0 then .fin neg m (1 - f.bias - f.frac) else .fin neg (m + 2 ^ f.frac) (e - f.bias - f.frac)

/-- The value of an E3M5 block scale; 0xff is not a number (R68). -/
def blockScale (b : Nat) : Ext :=
  let e := b / 32 % 8
  let m := b % 32
  if b % 256 = 0xff then .nan false
  else if e = 0 then .fin false m (-7) else .fin false (m + 32) (e - 8)

/-- An integer as an exact value. -/
def Ext.ofInt (v : Int) : Ext := .fin (decide (v < 0)) v.natAbs 0

/-- An element of an integer format, read as a number. -/
def Fmt.int (f : Fmt) (bits : Nat) : Int :=
  let v := bits % 2 ^ f.width
  if f.signed ∧ 2 ^ (f.width - 1) ≤ v then (v : Int) - 2 ^ f.width else v

/-- The value of an element of any format. -/
def Fmt.value (f : Fmt) (bits : Nat) : Ext := if f.isFloat then f.spec.value bits else .ofInt (f.int bits)

def Ext.isNan : Ext → Bool
  | .nan _ => true
  | _ => false

def Ext.signalling : Ext → Bool
  | .nan b => b
  | _ => false

def Ext.isZero : Ext → Bool
  | .fin _ m _ => m == 0
  | _ => false

def Ext.isInf : Ext → Bool
  | .inf _ => true
  | _ => false

def Ext.neg : Ext → Bool
  | .nan _ => false
  | .inf n => n
  | .fin n _ _ => n

def Ext.negate : Ext → Ext
  | .nan b => .nan b
  | .inf n => .inf !n
  | .fin n m e => .fin (!n) m e

def Ext.absolute : Ext → Ext
  | .nan b => .nan b
  | .inf _ => .inf false
  | .fin _ m e => .fin false m e

/-- Two finite values over one power of two. -/
def scaled (neg : Bool) (m : Nat) (e low : Int) : Int :=
  let v : Int := (m : Int) * 2 ^ (e - low).toNat
  if neg then -v else v

/-- A signed multiple of a power of two; `dn` gives the sign of an exact zero. -/
def Ext.ofScaled (v low : Int) (dn : Bool) : Ext := .fin (if v = 0 then dn else decide (v < 0)) v.natAbs low

/-- The exact sum, with the sign of a zero sum under the mode (R71), and the invalid condition. -/
def Ext.add (rnd : Nat) (a b : Ext) : Ext × Cond :=
  let nv := when' (a.signalling || b.signalling) condNv
  match a, b with
  | .nan _, _ | _, .nan _ => (.nan false, nv)
  | .inf x, .inf y => if x = y then (.inf x, 0) else (.nan false, condNv)
  | .inf x, .fin _ _ _ => (.inf x, 0)
  | .fin _ _ _, .inf y => (.inf y, 0)
  | .fin n m e, .fin n' m' e' =>
    let low := min e e'
    let v := scaled n m e low + scaled n' m' e' low
    (.ofScaled v low (if m = 0 ∧ m' = 0 ∧ n = n' then n else rnd == 2), 0)

/-- The exact product. -/
def Ext.mul (a b : Ext) : Ext × Cond :=
  let nv := when' (a.signalling || b.signalling) condNv
  match a, b with
  | .nan _, _ | _, .nan _ => (.nan false, nv)
  | .fin n m e, .fin n' m' e' => (.fin (n != n') (m * m') (e + e'), 0)
  | _, _ => if a.isZero || b.isZero then (.nan false, condNv) else (.inf (a.neg != b.neg), 0)

/-- a < b, for numbers. -/
def Ext.lt (a b : Ext) : Bool :=
  match a, b with
  | .nan _, _ | _, .nan _ => false
  | .inf x, .inf y => x && !y
  | .inf x, .fin _ _ _ => x
  | .fin _ _ _, .inf y => !y
  | .fin n m e, .fin n' m' e' => let low := min e e'; scaled n m e low < scaled n' m' e' low

/-- a = b, for numbers; the zeros are equal. -/
def Ext.eq (a b : Ext) : Bool := !a.isNan && !b.isNan && !a.lt b && !b.lt a

/-! ## Rounding (R71, R72) -/

/-- One draw of the generator. -/
def nextRandom (s : BitVec 32) : BitVec 32 :=
  let s := s ^^^ (s <<< 13)
  let s := s ^^^ (s >>> 17)
  s ^^^ (s <<< 5)

/-- The draws of `n` rounding steps, in order, and the state after them; without `rsr` there is none. -/
def draws (rnd : Nat) (s : BitVec 32) : Nat → List Nat × BitVec 32
  | 0 => ([], s)
  | n + 1 =>
    if rnd ≠ 5 then (List.replicate (n + 1) 0, s)
    else
      let u := nextRandom s
      let (us, t) := draws rnd u n
      (u.toNat :: us, t)

/-- Whether a magnitude between `n` and `n + 1` rounds up. It lies `rem / 2^sh` above `n`, and a little more when `sticky`. -/
def roundsUp (rnd : Nat) (neg : Bool) (n rem sh : Nat) (sticky : Bool) (u : Nat) : Bool :=
  let inexact := rem != 0 || sticky
  match rnd with
  | 0 => 2 ^ sh < 2 * rem || (2 * rem == 2 ^ sh && inexact && (sticky || n % 2 == 1))
  | 1 => false
  | 2 => neg && inexact
  | 3 => !neg && inexact
  | 4 => inexact && 2 ^ sh ≤ 2 * rem
  | _ => u < rem * 2 ^ 32 / 2 ^ sh

/-- A magnitude as a multiple of 2^q, rounded: the multiple, inexact, and rounded up. -/
def roundAt (rnd : Nat) (neg : Bool) (m : Nat) (e : Int) (sticky : Bool) (q : Int) (u : Nat) : Nat × Bool × Bool :=
  if q ≤ e then (m * 2 ^ (e - q).toNat, sticky, roundsUp rnd neg (m * 2 ^ (e - q).toNat) 0 0 sticky u && sticky)
  else
    let sh := (q - e).toNat
    let n := m / 2 ^ sh
    let rem := m % 2 ^ sh
    let up := roundsUp rnd neg n rem sh sticky u
    (if up then n + 1 else n, rem != 0 || sticky, up)

/-- The power of two of the least step of a format. -/
def FloatSpec.least (f : FloatSpec) : Int := 1 - f.bias - f.frac

/-- The magnitude code of a multiple of the least step. -/
def FloatSpec.pack (f : FloatSpec) (n : Nat) : Nat :=
  if n < 2 ^ f.frac then n
  else
    let k := n.log2 - f.frac
    (k + 1) * 2 ^ f.frac + (n / 2 ^ k - 2 ^ f.frac)

/-- The largest finite magnitude, in least steps. -/
def FloatSpec.most (f : FloatSpec) : Nat :=
  match f.value f.largest with
  | .fin _ m e => m * 2 ^ (e - f.least).toNat
  | _ => 0

def FloatSpec.signBit (f : FloatSpec) (neg : Bool) : Nat := if neg then 2 ^ (f.width - 1) else 0

/-- The canonical NaN; E2M1 has none, and its code 0 stands for one (R74). -/
def FloatSpec.nanCode (f : FloatSpec) : Nat := f.nan.getD 0

/-- The result on overflow. -/
def FloatSpec.overflow (f : FloatSpec) (rnd : Nat) (sat neg up : Bool) : Nat × Cond :=
  if f.saturates || sat then (f.signBit neg + f.largest, condSat ||| condNx)
  else
    let away := match rnd with
      | 0 | 4 => true
      | 2 => neg
      | 3 => !neg
      | 5 => up
      | _ => false
    (if away then (match f.infinity with
      | .some i => f.signBit neg + i
      | .none => f.nanCode) else f.signBit neg + f.largest, condOf ||| condNx)

/-- Rounds ± m × 2^e (and a little more in magnitude when `sticky`) to a format. -/
def FloatSpec.round (f : FloatSpec) (rnd : Nat) (sat : Bool) (u : Nat) (neg : Bool) (m : Nat) (e : Int) (sticky : Bool) :
    Nat × Cond :=
  if m = 0 ∧ !sticky then (f.signBit neg, 0)
  else
    let lead : Int := m.log2 + e
    let free : Int := lead - f.frac
    let q := max free f.least
    let (n, inexact, up) := roundAt rnd neg m e sticky q u
    let steps := n * 2 ^ (q - f.least).toNat
    let tiny := decide (free < f.least) &&
      decide ((roundAt rnd neg m e sticky free u).1 * 2 ^ (free - (f.least - 1)).toNat < 2 ^ (f.frac + 1) ∨
        free < f.least - 1)
    if f.most < steps then f.overflow rnd sat neg up
    else (f.signBit neg + f.pack steps, when' inexact condNx ||| when' (inexact && tiny) condUf)

/-- An infinite result: E4M3 and E2M1 have no infinity (R74, R200). -/
def FloatSpec.infinite (f : FloatSpec) (sat neg : Bool) : Nat × Cond :=
  match f.infinity with
  | .some i => (f.signBit neg + i, 0)
  | .none => if f.saturates || sat then (f.signBit neg + f.largest, condSat) else (f.nanCode, 0)

/-- A NaN result; E2M1 takes code 0 and sets nv. -/
def FloatSpec.nanResult (f : FloatSpec) : Nat × Cond :=
  match f.nan with
  | .some n => (n, 0)
  | .none => (0, condNv)

/-- An exact value written to a float format. -/
def FloatSpec.write (f : FloatSpec) (rnd : Nat) (sat : Bool) (u : Nat) (x : Ext) : Nat × Cond :=
  match x with
  | .nan _ => f.nanResult
  | .inf n => f.infinite sat n
  | .fin n m e => f.round rnd sat u n m e false

/-! ## Integer results (R74) -/

def Fmt.lowest (f : Fmt) : Int := if f.signed then -2 ^ (f.width - 1) else 0
def Fmt.highest (f : Fmt) : Int := if f.signed then 2 ^ (f.width - 1) - 1 else 2 ^ f.width - 1

/-- The code of an integer modulo 2^w. -/
def Fmt.wrap (f : Fmt) (v : Int) : Nat := (v % (2 ^ f.width : Int)).toNat

/-- Clamps into the range of the format. -/
def Fmt.clamp (f : Fmt) (v : Int) : Int := if v < f.lowest then f.lowest else if f.highest < v then f.highest else v

/-- An exact integer written to an integer format: wrapped, or clamped with the sat condition. -/
def Fmt.writeInt (f : Fmt) (sat : Bool) (v : Int) : Nat × Cond :=
  if sat then (f.wrap (f.clamp v), when' (f.clamp v != v) condSat) else (f.wrap v, 0)

/-- A value of a float format converted to an integer format: rounded, then always clamped. -/
def Fmt.toInt (f : Fmt) (rnd u : Nat) (x : Ext) : Nat × Cond :=
  match x with
  | .nan _ => (0, condNv)
  | .inf n => (f.wrap (if n then f.lowest else f.highest), condNv)
  | .fin neg m e =>
    let (n, inexact, _) := roundAt rnd neg m e false 0 u
    let v : Int := if neg then -n else n
    if f.clamp v = v then (f.wrap v, when' inexact condNx) else (f.wrap (f.clamp v), condNv)

/-- One conversion (R203): a draw is taken whatever the formats. -/
def convert (s d : Fmt) (rnd : Nat) (sat : Bool) (u bits : Nat) : Nat × Cond :=
  let x := s.value bits
  if d.isFloat then
    let (r, c) := d.spec.write rnd sat u x
    (r, c ||| when' x.signalling condNv)
  else if s.isFloat then d.toInt rnd u x
  else d.writeInt sat (s.int bits)

/-! ## Division and roots (R200) -/

/-- Binary digits of a square root from bit `i` down, on top of `r`. -/
def isqrtFrom (n : Nat) : Nat → Nat → Nat
  | 0, r => if (r + 1) * (r + 1) ≤ n then r + 1 else r
  | i + 1, r => isqrtFrom n i (if (r + 2 ^ (i + 1)) * (r + 2 ^ (i + 1)) ≤ n then r + 2 ^ (i + 1) else r)

/-- The integer square root. -/
def isqrt (n : Nat) : Nat := isqrtFrom n (n.log2 / 2 + 1) 0

/-- The quotient of two non-zero magnitudes to at least 96 bits: digits, exponent, and whether anything is left over. -/
def quotient (m : Nat) (e : Int) (m' : Nat) (e' : Int) : Nat × Int × Bool :=
  let k := 96 + m'.log2
  (m * 2 ^ k / m', e - e' - k, m * 2 ^ k % m' != 0)

/-- The root of m × 2^e to at least 96 bits. -/
def rootOfValue (m : Nat) (e : Int) : Nat × Int × Bool :=
  let odd : Bool := e % 2 != 0
  let n := (if odd then 2 * m else m) * 2 ^ 192
  let r := isqrt n
  (r, (if odd then e - 1 else e) / 2 - 96, r * r != n)

/-- The reciprocal of the root of m × 2^e to at least 96 bits. -/
def reciprocalRoot (m : Nat) (e : Int) : Nat × Int × Bool :=
  let odd : Bool := e % 2 != 0
  let n := if odd then 2 * m else m
  let k := 96 + n.log2
  let r := isqrt (2 ^ (2 * k) / n)
  (r, -((if odd then e - 1 else e) / 2) - k, r * r * n != 2 ^ (2 * k))

/-- Rounds digits that a quotient or a root gives. -/
def FloatSpec.roundDigits (f : FloatSpec) (rnd : Nat) (sat : Bool) (u : Nat) (neg : Bool) (d : Nat × Int × Bool) :
    Nat × Cond := f.round rnd sat u neg d.1 d.2.1 d.2.2

/-! ## Powers and logarithms (R200), in fixed point with 640 fraction bits (log 14) -/

def fixBits : Nat := 640
def fixOne : Nat := 2 ^ fixBits

/-- 2 × (z + z³/3 + z⁵/5 + …), the logarithm of (1 + z)/(1 - z), from term `k`; `p` is z^(2k+1). -/
def logSeries (zz : Nat) : Nat → Nat → Nat → Nat
  | 0, _, _ => 0
  | n + 1, k, p => 2 * p / (2 * k + 1) + logSeries zz n (k + 1) (p * zz / fixOne)

/-- The natural logarithm of num/den, between 1 and 2. -/
def lnFix (num den : Nat) : Nat :=
  let z := (num - den) * fixOne / (num + den)
  logSeries (z * z / fixOne) 210 0 z

def ln2Fix : Nat := lnFix 2 1

/-- 1 + y + y²/2 + …: from term `k`, whose value is `t`. -/
def expSeries (y : Nat) : Nat → Nat → Nat → Nat
  | 0, _, _ => 0
  | n + 1, k, t => t + expSeries y n (k + 1) (t * y / fixOne / (k + 1))

/-- 2^f for a fraction f. -/
def exp2Fix (f : Nat) : Nat := expSeries (f * ln2Fix / fixOne) 150 0 fixOne

/-- Integer part and fraction of ± m × 2^e, the fraction in fixed point. -/
def splitFix (neg : Bool) (m : Nat) (e : Int) : Int × Nat :=
  let v : Int := if 0 ≤ e + fixBits then (m : Int) * 2 ^ (e + fixBits).toNat else (m / 2 ^ (-(e + fixBits)).toNat : Nat)
  let v := if neg then -v else v
  (v / (fixOne : Int), (v % (fixOne : Int)).toNat)

/-- 2^x, correctly rounded; an exponent far outside every format is brought to ±2000 with the same fraction. -/
def FloatSpec.exp2 (f : FloatSpec) (rnd : Nat) (sat : Bool) (u : Nat) (neg : Bool) (m : Nat) (e : Int) : Nat × Cond :=
  if m = 0 then f.round rnd sat u false 1 0 false
  else
    let (n, fr) := splitFix neg m e
    let n := if 2000 < n then 2000 else if n < -2000 then -2000 else n
    if fr = 0 then f.round rnd sat u false 1 n false
    else f.round rnd sat u false (exp2Fix fr) (n - fixBits) true

/-- log2 of m × 2^e, correctly rounded. -/
def FloatSpec.log2 (f : FloatSpec) (rnd : Nat) (sat : Bool) (u : Nat) (m : Nat) (e : Int) : Nat × Cond :=
  let k := m.log2
  let whole : Int := k + e
  if m = 2 ^ k then f.round rnd sat u (decide (whole < 0)) whole.natAbs 0 false
  else
    let fr := lnFix m (2 ^ k) * fixOne / ln2Fix
    let v : Int := whole * fixOne + fr
    if 0 ≤ v then f.round rnd sat u false v.natAbs (-fixBits) true
    else f.round rnd sat u true (v.natAbs - 2 ^ 40) (-fixBits) true

end Sys2Proof.Machine
end

