-- ==== Sys2Proof/Machine/Legal.lean ====
section
/-! DEFINITION. What makes an instruction illegal beyond its encoding (R34, R36, R51, R204, R208), with the tables this needs:
prefix words, and the system registers by number. -/

namespace Sys2Proof.Machine

open Sys2Proof

def primaryOf (w : BitVec 32) : Nat := w.toNat / 2 % 128

/-! ## Prefix words (R75, R79) -/

/-- The fields of a prefix word. -/
structure Prefix where
  afmt : Nat
  bfmt : Nat
  cfmt : Nat
  rnd : Nat := 0
  sat : Bool := false
  sc : Nat := 0
  sp : Nat := 0
  deriving DecidableEq, Repr

def Prefix.ofWord (w : BitVec 32) : Prefix :=
  let f := fun lo n => w.toNat / 2 ^ lo % 2 ^ n
  { afmt := f 8 4, bfmt := f 12 4, cfmt := f 16 4, rnd := f 20 3, sat := w.getLsbD 23, sc := f 24 2, sp := f 26 2 }

/-- A latch value that no `fmt` has: `pfx` may hold one (R79). -/
def badLatch (w : BitVec 32) : Bool := w.toNat % 256 != 0xf1 || w.toNat / 2 ^ 28 != 0

/-- The codes that the integer primaries take: 0 stands for INT32. -/
def intCode (n : Nat) : Bool := n == 0 || (6 ≤ n && n ≤ 10)

/-- The integer format of a field, where 0 stands for INT32. -/
def intFmt (n : Nat) : Fmt := if n = 0 then .int32 else (Fmt.ofCode n).getD .int32

/-! ## Numbers and rights (R50, R51) -/

/-- The system registers, by number. -/
inductive SysReg where
  | status | tcause | tval | tepc | pfx | repst | fflags | temaskX
  | temaskV (k : Fin 4)
  | tmode | coreid | slot | launchid
  | lvl (n : Fin 8)
  | modq | modk | gbeps | gbmode | gbbeta | mprog | mlease | netcap | clkreq | clkgrant
  | time | vtime | errq | barwRect | barwCnt | barwTo | sendto
  deriving DecidableEq, Repr

/-- The register of a number; an unassigned number has none. -/
def SysReg.ofNumber (n : SysNo) : Option SysReg :=
  match n.toNat with
  | 0x000 => .some .status | 0x001 => .some .tcause | 0x002 => .some .tval | 0x003 => .some .tepc
  | 0x004 => .some .pfx | 0x005 => .some .repst | 0x008 => .some .fflags | 0x010 => .some .temaskX
  | 0x011 => .some (.temaskV 0) | 0x012 => .some (.temaskV 1) | 0x013 => .some (.temaskV 2) | 0x014 => .some (.temaskV 3)
  | 0x020 => .some .tmode | 0x021 => .some .coreid | 0x022 => .some .slot | 0x023 => .some .launchid
  | 0x030 => .some (.lvl 0) | 0x031 => .some (.lvl 1) | 0x032 => .some (.lvl 2) | 0x033 => .some (.lvl 3)
  | 0x034 => .some (.lvl 4) | 0x035 => .some (.lvl 5) | 0x036 => .some (.lvl 6) | 0x037 => .some (.lvl 7)
  | 0x040 => .some .modq | 0x041 => .some .modk | 0x048 => .some .gbeps | 0x049 => .some .gbmode | 0x04a => .some .gbbeta
  | 0x050 => .some .mprog | 0x051 => .some .mlease | 0x058 => .some .netcap
  | 0x060 => .some .clkreq | 0x061 => .some .clkgrant | 0x068 => .some .time | 0x069 => .some .vtime
  | 0x070 => .some .errq | 0x078 => .some .barwRect | 0x079 => .some .barwCnt | 0x07a => .some .barwTo
  | 0x080 => .some .sendto
  | _ => .none

/-- Read by `crd` at U, or else at S. -/
def SysReg.userReads : SysReg → Bool
  | .tcause | .tval | .tepc | .pfx | .repst => false
  | _ => true

/-- Written at S. -/
def SysReg.writable : SysReg → Bool
  | .tmode | .coreid | .slot | .launchid | .lvl _ | .modk | .netcap | .clkgrant | .time | .vtime => false
  | _ => true

/-- Written at U too. -/
def SysReg.userWrites (r : SysReg) : Bool :=
  r.writable && r.userReads && (match r with
    | .status | .mprog | .mlease | .clkreq | .errq => false
    | _ => true)

/-! ## Operands that make an instruction illegal -/

/-- The lanes that `vext` and `vins` find under a latch; a latch that gives no integer format rules out no lane that any
format has (R208). -/
def lanesUnder : Option (BitVec 32) → Nat
  | .none => 4
  | .some w => if !badLatch w && intCode (Prefix.ofWord w).afmt then (intFmt (Prefix.ofWord w).afmt).lanes else 16

/-- `vqnt4` reads its second source: its source format is FP32 (R203, R204). -/
def readsBoth : Option (BitVec 32) → Bool
  | .none => true
  | .some w => !(!badLatch w && ((Prefix.ofWord w).afmt == 1 || (Prefix.ofWord w).afmt == 2))

/-- The instruction is illegal under a latch, although its word is an instruction's: a system register that has no number or
is never written, a lane that does not exist, a second source where there is none. -/
def illegalUnder (latch : Option (BitVec 32)) : Instr → Bool
  | .crd _ n => (SysReg.ofNumber n).isNone
  | .cwr n _ | .crs _ n _ | .crc _ n _ => !(SysReg.ofNumber n).any SysReg.writable
  | .vext _ _ idx | .vins _ _ idx => decide (lanesUnder latch ≤ idx.toNat)
  | .vqnt4 _ _ vb => !readsBoth latch && vb != 0#7
  | _ => false

/-- Runs the effect of an instruction under the shared checks, of which this one comes first (R36). -/
def State.issueLegal (s : State) (sh : Shape) (i : Instr) (body : State → Except Exc State) :
    Host.Outcome State Fault Refusal :=
  if illegalUnder s.cur.latch i then .next s.illegal else s.issue sh body

end Sys2Proof.Machine
end

