-- ==== Sys2Proof/Machine/Control.lean ====
section
/-! DEFINITION. Branches, jumps, repeat frames and gangs: primaries 0x10 to 0x14 (R94 to R107). -/

namespace Sys2Proof.Machine

open Sys2Proof

/-! ## Branches and jumps (R94, R95) -/

/-- A conditional branch: both registers have to be full; taken, it goes to `to`, else past its `len` bytes. -/
def branch (c : Word → Word → Bool) (a b : Reg) (off : Word) (len : Nat) (s : State) : Host.Outcome State Fault Refusal :=
  s.issueHart .both fun h => do
    let x ← h.getX a
    let y ← h.getX b
    .ok (if c x y then h.jump (h.pc + off * 2) else h.advance len)

def execBeq (a b : Reg) (off : BitVec 11) (s : State) : Host.Outcome State Fault Refusal :=
  branch (fun x y => x == y) a b (off.signExtend 64) 4 s
def execBne (a b : Reg) (off : BitVec 11) (s : State) : Host.Outcome State Fault Refusal :=
  branch (fun x y => x != y) a b (off.signExtend 64) 4 s
def execBlt (a b : Reg) (off : BitVec 11) (s : State) : Host.Outcome State Fault Refusal :=
  branch (fun x y => x.slt y) a b (off.signExtend 64) 4 s
def execBge (a b : Reg) (off : BitVec 11) (s : State) : Host.Outcome State Fault Refusal :=
  branch (fun x y => !x.slt y) a b (off.signExtend 64) 4 s
def execBltu (a b : Reg) (off : BitVec 11) (s : State) : Host.Outcome State Fault Refusal :=
  branch (fun x y => x.ult y) a b (off.signExtend 64) 4 s
def execBgeu (a b : Reg) (off : BitVec 11) (s : State) : Host.Outcome State Fault Refusal :=
  branch (fun x y => !x.ult y) a b (off.signExtend 64) 4 s

/-- `jal` and the compact jump: the link is the address after the instruction. -/
def jumpTo (d : Reg) (off : Word) (len : Nat) (s : State) : Host.Outcome State Fault Refusal :=
  s.issueHart .both fun h => do
    h.needX d
    .ok ((h.setX d (h.pc + BitVec.ofNat 64 len)).jump (h.pc + off * 2))

/-- `jalr` and the compact indirect jump: x[a] is read before x[d] is written. -/
def jumpReg (d a : Reg) (imm : Word) (len : Nat) (s : State) : Host.Outcome State Fault Refusal :=
  s.issueHart .both fun h => do
    h.needX d
    let x ← h.getX a
    .ok ((h.setX d (h.pc + BitVec.ofNat 64 len)).jump (x + imm))

def execJal (d : Reg) (off : BitVec 19) (s : State) : Host.Outcome State Fault Refusal := jumpTo d (off.signExtend 64) 4 s
def execJalr (d a : Reg) (imm : BitVec 11) (s : State) : Host.Outcome State Fault Refusal := jumpReg d a (imm.signExtend 64) 4 s

/-! ## Repeat frames (R97, R98, R100) -/

/-- Primaries that only a PP executes (R44). -/
def ppOnly (w : BitVec 32) : Bool := 0x68 ≤ primaryOf w && primaryOf w ≤ 0x6A

/-- Primaries that take a prefix (R42). -/
def takesPrefix (w : BitVec 32) : Bool := (0x30 ≤ primaryOf w && primaryOf w ≤ 0x3D) || primaryOf w == 0x52

/-- Primaries that a frame may hold (R98). -/
def inFrame (w : BitVec 32) : Bool :=
  let p := primaryOf w
  (1 ≤ p && p ≤ 8) || (0x30 ≤ p && p ≤ 0x3D) || (0x60 ≤ p && p ≤ 0x63) || p == 0x78

def isFmt (w : BitVec 32) : Bool := w.getLsbD 0 && primaryOf w == 0x78

/-- Compact forms that a frame may hold (R38). -/
def compactInFrame (p : BitVec 16) : Bool :=
  let f := p.toNat / 2 % 16
  (1 ≤ f && f ≤ 7) || f == 14

/-- The instruction of a legal word of a primary whose operands can still make it illegal. -/
def doubtful (w : BitVec 32) : Option Instr :=
  match primaryOf w with
  | 0x0B => (decodeSys w).toOption
  | 0x3B => (decodeVConvert w).toOption
  | 0x3D => (decodeVMove w).toOption
  | _ => .none

/-- The trap of a captured instruction at position `k`, with the `fmt` before it if there is one (R98). -/
def captureCheck (w : BitVec 32) (len k : Nat) (fmt : Option (BitVec 32)) : Option Trap :=
  let legal :=
    if len = 2 then legalParcel (w.setWidth 16)
    else legalWord w && !ppOnly w && !(doubtful w).any (illegalUnder fmt)
  if !legal then .some { cause := .illegalInstruction, tval := w.setWidth 64 }
  else match fmt.filter fun _ => len = 2 ∨ !takesPrefix w with
    | .some p => .some { cause := .illegalPrefix, tval := p.setWidth 64 }
    | .none =>
      if (if len = 2 then compactInFrame (w.setWidth 16) else inFrame w) && !(k == 15 && len == 4 && isFmt w) then .none
      else .some { cause := .illegalInFrame, tval := w.setWidth 64 }

/-- Why a capture ends early: a fetch fault or wait, or a check of the instruction at an address. -/
inductive CaptureEnd where
  | fetch (e : Exc)
  | check (pc : Word) (t : Trap)
  deriving DecidableEq, Repr

/-- Captures `n` instructions from `pc` on, the first of them at position `k`. -/
def State.capture (s : State) (pc : Word) (k : Nat) (fmt : Option (BitVec 32)) :
    Nat → Except CaptureEnd (List FrameInst × Word)
  | 0 => .ok ([], pc)
  | n + 1 =>
    match s.fetch pc with
    | .error e => .error (.fetch e)
    | .ok (w, len) =>
      match captureCheck w len k fmt with
      | .some t => .error (.check pc t)
      | .none =>
        match s.capture (pc + BitVec.ofNat 64 len) (k + 1) (if len = 4 ∧ isFmt w then .some w else .none) n with
        | .error e => .error e
        | .ok (rest, p) => .ok (⟨pc, w, len⟩ :: rest, p)

/-- `repst` of a new frame. -/
def newRepst (cnt : BitVec 8) (sd sa sb : BitVec 3) : Word :=
  BitVec.ofNat 64 (cnt.toNat * 2 ^ 12 + sd.toNat * 2 ^ 9 + sa.toNat * 2 ^ 6 + sb.toNat * 2 ^ 3)

/-- Starts a captured frame. -/
def Hart.startFrame (h : Hart) (body : List FrameInst) (repst : Word) : Hart :=
  let h := (h.settle).setStatus (setField h.sys.status 11 1 1)
  { h with frame := body, pc := h.pc + 4, sys := { h.sys with repst := repst } }

def execRep (cnt : BitVec 8) (sd sa sb : BitVec 3) (s : State) : Host.Outcome State Fault Refusal :=
  s.issue .coreOnly fun s =>
    match s.capture (s.cur.pc + 4) 0 .none 16 with
    | .error (.fetch e) => .error e
    | .error (.check pc t) => .ok (({ s with cur := { s.cur with pc := pc } } : State).trap t)
    | .ok (body, _) => .ok { s with cur := s.cur.startFrame body (newRepst cnt sd sa sb) }

/-! ## Replays (R97) -/

/-- Which of the fields vd, va and vb of a captured word name vector registers, under the prefix latched for it. -/
def vectorFields (latch : Option (BitVec 32)) (w : BitVec 32) : Bool × Bool × Bool :=
  let f3 := w.toNat / 2 ^ 29
  let f5 := w.toNat / 2 ^ 27
  match primaryOf w with
  | 0x30 | 0x31 | 0x32 | 0x34 | 0x38 | 0x3A | 0x60 => (true, true, true)
  | 0x33 | 0x37 | 0x39 | 0x61 | 0x62 | 0x63 => (true, true, false)
  | 0x35 => (true, true, f3 == 0)
  | 0x3B => (true, true, f3 == 1 || (f3 == 4 && readsBoth latch))
  | 0x3C => (true, true, f3 != 6)
  | 0x3D => (f5 == 0 || f5 == 1 || f5 == 2 || f5 == 5, f5 == 0 || f5 == 3 || f5 == 4, false)
  | _ => (false, false, false)

/-- Adds to a 7-bit field, modulo the number of registers. -/
def stepField (w : BitVec 32) (lo add n : Nat) (used : Bool) : BitVec 32 :=
  if !used then w
  else
    let v := (w.toNat / 2 ^ lo % 128 + add) % n
    (w &&& ~~~(BitVec.ofNat 32 (127 * 2 ^ lo))) ||| BitVec.ofNat 32 (v * 2 ^ lo)

/-- The word that iteration `i` of a frame executes; iteration 0 takes it as it stands. -/
def replayWord (repst : Word) (latch : Option (BitVec 32)) (n : Nat) (f : FrameInst) : BitVec 32 :=
  let i := field repst 24 8
  if i = 0 ∨ f.len = 2 then f.word
  else
    let (d, a, b) := vectorFields latch f.word
    stepField (stepField (stepField f.word 8 (i * field repst 9 3) n d) 15 (i * field repst 6 3) n a) 22
      (i * field repst 3 3) n b

/-! ## Gangs (R101 to R103) -/

/-- The threads of a core that hold a slot: neither vacant nor removed by a debug stop (R14). -/
def State.occupied (s : State) (c : CoreId) : List Nat :=
  (List.range (s.coreOf c).threads).filter fun k =>
    let l := (s.hartOf (.core c k)).life
    l == .live || l == .stopped

/-- The local check of R102: 0 when the thread is to wait. A core that is ganged itself answers 2 (R107); else, where both codes
apply, the model writes 1, for R102 orders them no further (DESIGN CHOICE, log 47). -/
def State.gangCheck (s : State) (c : CoreId) (x : Word) (w : Nat) : Nat :=
  let x := x.toNat
  if (s.coreOf c).ganged then 2
  else if x + w - 1 > 63 ∨ !(x ≤ coreX c && coreX c < x + w) then 1
  else if (gangCores c x w).any fun m => (s.coreOf m).part != (s.coreOf c).part then 1
  else if (gangCores c x w).any fun m => (s.coreOf m).ganged then 2
  else 0

def execGang (d a : Reg) (w : BitVec 3) (s : State) : Host.Outcome State Fault Refusal :=
  s.issue .coreOnly fun s => do
    s.cur.needX d
    let x ← s.cur.getX a
    let width := w.toNat + 1
    let c := s.cur.who.core'
    match s.gangCheck c x width with
    | 0 => .ok (s.waitFor (.gang (coreAt (coreDie c) x.toNat (coreY c)) width d))
    | code => .ok { s with cur := (s.cur.setX d (BitVec.ofNat 64 code)).advance 4 }

/-- The gang that a thread waits for. -/
def gangWait : Wait → Option (CoreId × Nat × Reg)
  | .gang l w d => .some (l, w, d)
  | _ => .none

/-- Every thread of the cores waits to form the same gang. -/
def State.gangArrived (s : State) (leader : CoreId) (w : Nat) : Bool :=
  (gangCores leader (coreX leader) w).all fun c =>
    (s.occupied c).all fun k =>
      match gangWait (s.hartOf (.core c k)).wait with
      | .some (l, w', _) => l == leader && w' == w
      | .none => false

/-- Ends a rendezvous of one thread with a code, at the pc of the leader's thread of the same slot. -/
def Hart.endGang (h : Hart) (code : Nat) (pc : Option Word) : Hart :=
  match gangWait h.wait with
  | .none => h
  | .some (_, _, d) =>
    let h := (h.setX d (BitVec.ofNat 64 code)).advance 4
    match pc with
    | .some p => { h with pc := p }
    | .none => h

/-- The width of a rendezvous with this leader that is complete: every thread of the cores has arrived, and there is one. -/
def State.gangWidth (s : State) (leader : CoreId) : Option Nat :=
  [2, 3, 4, 5, 6, 7, 8].find? fun w => s.gangArrived leader w &&
    (gangCores leader (coreX leader) w).any fun c => !(s.occupied c).isEmpty

/-- The rendezvous of R102 is complete: the gang forms when the sets of occupied slots are equal, else every thread goes on
with code 3. -/
def State.formGang (s : State) (leader : CoreId) : State :=
  match s.gangWidth leader with
  | .none => s
  | .some w =>
    let cores := gangCores leader (coreX leader) w
    let slots := s.occupied leader
    let same := cores.all fun c => s.occupied c == slots
    let s := if same then cores.foldl (fun s c => s.withCore c fun k => { k with gang := .some ⟨leader, w⟩ }) s else s
    cores.foldl (fun s c => (s.occupied c).foldl (fun s k =>
      let pc := if same then .some (s.hartOf (.core leader k)).pc else .none
      s.withHart (.core c k) fun h => h.endGang (if same then 0 else 3) (if c = leader then .none else pc)) s) s

/-- The event of R102: every thread of the gang to be has arrived. -/
def execGangFormation (core : Nat) (s : State) : Host.Outcome State Fault Refusal := .next (s.formGang core)

/-- Every occupied slot of the gang waits at `ungang`, and there is one. -/
def State.allUngang (s : State) (c : CoreId) : Bool :=
  (s.coreOf c).ganged && (s.gangOf c).all (fun m => (s.occupied m).all fun k => (s.hartOf (.core m k)).wait == .ungang) &&
    (s.gangOf c).any fun m => !(s.occupied m).isEmpty

/-- Dissolves the gang of a core: every slot goes on for itself after its `ungang`. -/
def State.dissolve (s : State) (c : CoreId) : State :=
  (s.gangOf c).foldl (fun s m =>
    let s := s.withCore m fun k => { k with gang := .none }
    (s.occupied m).foldl (fun s k => s.withHart (.core m k) fun h => h.advance 4) s) s

/-- The gang of a core dissolves once no slot of it is left but those that wait at `ungang`. -/
def State.tryDissolve (s : State) (c : CoreId) : State := if s.allUngang c then s.dissolve c else s

def execUngang (s : State) : Host.Outcome State Fault Refusal :=
  s.issue .coreOnly fun s =>
    let c := s.cur.who.core'
    if !(s.coreOf c).ganged then .ok { s with cur := s.cur.advance 4 }
    else .ok ((s.waitFor .ungang).tryDissolve c)

end Sys2Proof.Machine
end

