-- ==== Sys2Proof/Machine/CoreEvents.lean ====
section
/-! DEFINITION. What happens to outstanding accesses of a core: fills, stores performed, results of atomics, grants and tag
changes that arrive at a cache, refusals, outcomes of remote accesses, and page walks (R109, R144, R145, R148 to R150, R157,
R166, R184, R289, R294, R296, R302). -/

namespace Sys2Proof.Machine

open Sys2Proof

/-! ## Ending the wait of a thread -/

/-- The thread's instruction of `len` bytes has completed. -/
def State.finish (s : State) (w : Who) (len : Nat) (f : Hart → Hart) : State :=
  s.withHart w fun h => if h.life = .live then (f h).usePrefix.advance len else h

/-- The same for an access or a message that could still have failed: in a gang the commit waits for the other members (R105). A
thread that has been stopped meanwhile completes it all the same, so that it is not left half done (R319). -/
def State.land (s : State) (w : Who) (len : Nat) (d : Dest) (f : Hart → Hart) : State :=
  s.withHart w fun h =>
    if h.life = .vacant then h
    else if (s.coreOf w.core').ganged then { f h with wait := .none, ended := .done, landed := .some (len, d, h.destValue d) }
    else (f h).usePrefix.advance len

/-- The thread goes back into the rotation and executes its instruction again. -/
def State.wake (s : State) (w : Who) : State := s.withHart w fun h => { h with wait := .none }

/-- The thread's instruction raises a trap before any effect; in a gang in every member (R106). -/
def State.trapThread (s : State) (w : Who) (t : Trap) : State :=
  s.gangTrap w.core' w.slot' .none fun m => if m = w.core' then .some t else .none

/-- The thread consumes poisoned data (R386); in a gang every member discards the instruction. -/
def State.poisonThread (s : State) (w : Who) : State :=
  s.gangStops w.core' w.slot' .none (fun _ => .none) fun m => if m = w.core' then .some true else .none

/-- A pair of elements replaced in a list. -/
def updateAt {α : Type} (l : List α) (k : Nat) (f : α → α) : List α := l.mapIdx fun i x => if i = k then f x else x

/-! ## Fills of loads (R109) -/

/-- The element waits for the block. -/
def feeds (block : Nat) (e : Access × Option Nat) : Bool := e.2 == .none && blockOf e.1.pa == block && e.1.byBlock

/-- Gives the bytes of a block to every outstanding load element that waits for it. -/
def State.feed (s : State) (c : CoreId) (block : Nat) (d : BitVec 256) : State :=
  let read := (s.coreOf c).loads.flatMap fun l => (l.elems.filter (feeds block)).map (·.1)
  let t := read.foldl (fun t a => t.hasRead c a) s
  t.withCore c fun k => { k with loads := k.loads.map fun l =>
    { l with
      suspended := l.suspended && !l.elems.any (feeds block)
      elems := l.elems.map fun e =>
        if feeds block e then (e.1, .some (s.readOf c e.1 (blockBytes d (e.1.pa % 32) e.1.size))) else e } }

/-- An earlier load of the same slot still has to read some of the bytes. -/
def Core.readBefore (c : Core) (k slot pa n : Nat) : Bool :=
  (c.loads.take k).any fun l => l.slot == slot && l.elems.any fun (a, v) => v == .none && overlaps a.pa a.size pa n

/-- What an element can read directly: banks, uncached memory, and lines that have arrived. -/
def State.readElem (s : State) (c : CoreId) (k : Nat) (l : PendingLoad) (e : Access × Option Nat) : Access × Option Nat :=
  let (a, v) := e
  if v.isSome ∨ l.suspended ∨ (s.coreOf c).readBefore k l.slot a.pa a.size then e
  else match s.reach c false a.target with
    | .now | .later => (a, .some (s.readNow c a))
    | _ => e

/-- A load asks again for what no request brings: where elements violate their tags, only for the lowest, and it is suspended. -/
def State.askAgain (s : State) (c : CoreId) (k : Nat) (es : List (Access × Option Nat)) : State :=
  let open' := (es.filter fun e => e.2 == .none).map (·.1)
  match open'.find? fun a => s.reach c false a.target == .violation with
  | .some a =>
    match s.wantBlock c 0 false a with
    | .none => s
    | .some s => s.withCore c fun q => { q with loads := updateAt q.loads k fun l => { l with suspended := l.waits.isSome } }
  | .none => open'.foldl (fun s a =>
      let r := s.reach c false a.target
      if r = .miss ∨ (r = .remote ∧ a.byBlock) then (s.wantBlock c 0 true a).getD s else s) s

/-- Progress of an outstanding load: once the tag of every element allows it (R153) it reads what it can; it asks for what it lacks, and
when the last element has arrived its
destination is filled in one step. -/
def State.fillLoad (s : State) (c : CoreId) (k : Nat) : State :=
  match (s.coreOf c).loads[k]? with
  | .none => s
  | .some l =>
    let who := Who.core c l.slot
    let checked := !l.elems.any fun (a, v) => v == .none && s.reach c false a.target == .violation
    let es := if checked then l.elems.map (s.readElem c k l) else l.elems
    if l.elems.any fun (a, _) => s.poisoned a.pa then
      (s.withCore c fun q => { q with loads := q.loads.eraseIdx k }).poisonThread who
    else
      let s := (l.elems.zip es).foldl (fun s (old, new) =>
        if old.2 = .none ∧ new.2.isSome then s.hasRead c new.1 else s) s
      if es.all fun (_, v) => v.isSome then
        let v := joinElems (es.map fun (a, v) => (a.size, v.getD 0))
        let n := es.foldl (fun t (a, _) => t + a.size) 0
        let s := s.withCore c fun q => { q with loads := q.loads.eraseIdx k }
        match l.waits with
        | .some len =>
          if l.counter ∧ 0 < v ∧ v < 2 ^ 63 then
            match l.elems with
            | (a, _) :: _ => s.withHart who fun h => { h with wait := .join a l.dest }
            | [] => s
          else
            let s := if l.counter then l.elems.foldl (fun s e => s.hasRead c { e.1 with acquire := .some 7 }) s else s
            s.land who len l.dest fun h => h.fillDest l.dest l.signed n v
        | .none => s.withHart who fun h => h.fillDest l.dest l.signed n v
      else
        let s := s.withCore c fun q => { q with loads := updateAt q.loads k fun l => { l with elems := es } }
        if l.suspended then s else s.askAgain c k es

/-- LOAD_FILL: the data of an outstanding load arrives. -/
def execLoadFill (core k : Nat) (s : State) : Host.Outcome State Fault Refusal := .next (s.fillLoad core k)

/-! ## Stores and atomics leave the buffer (R148, R177, R184) -/

/-- The load reads a byte of the store's from memory: it is older than the store. -/
def readsUnder (a : Access) (e : Access) : Bool :=
  (List.range a.size).any fun i => !a.expect.testBit i && e.pa ≤ a.pa + i && a.pa + i < e.pa + e.size

/-- Something holds back an entry of the buffer: an earlier entry of the slot to the same bytes, or a load that has still to read
them; and a release waits until the accesses that it orders are performed at its scope (R177, R186). -/
def State.heldBack (s : State) (c : CoreId) (k : Nat) (e : StoreEntry) : Bool :=
  let q := s.coreOf c
  ((q.stores.take k).any fun b => b.acc.slot == e.acc.slot &&
    (e.release.any (· != 0) || overlaps b.acc.pa b.acc.size e.acc.pa e.acc.size)) ||
  (q.loads.any fun l => l.slot == e.acc.slot && l.elems.any fun (a, v) =>
    decide (a.stamp ≤ e.acc.stamp) && (e.release.isSome || (v == .none && readsUnder a e.acc))) ||
  ((q.mailbox.polls.any fun p => p.slot == e.acc.slot && decide (p.stamp ≤ e.acc.stamp)) ||
    q.units.any fun u => u.slot == e.acc.slot && decide (u.stamp ≤ e.acc.stamp)) ||
  e.release.any fun sc => !s.performedAt (.core c e.acc.slot) 0 sc e.acc.stamp

/-- An entry leaves the buffer; a thread that waits for it goes on. -/
def State.leaveBuffer (s : State) (c : CoreId) (k : Nat) (e : StoreEntry) : State :=
  let s := s.withCore c fun q => { q with stores := q.stores.eraseIdx k }
  match e.waits with
  | .some len => s.land (.core c e.acc.slot) len .nowhere id
  | .none => s

/-- The store goes around the L1 to its home (R152). -/
def Access.around (a : Access) : Bool := a.nt && a.kind == .store && !a.uncached && (placeOf a.pa == .dram || placeOf a.pa == .peerDram)

/-- Asks for the line of entry `k`, or for its atomic to be performed at the home. -/
def State.askFor (s : State) (c : CoreId) (k : Nat) (e : StoreEntry) (slotUsed : Bool) : State :=
  if e.acc.kind = .store then (s.wantBlock c 1 slotUsed e.acc).getD s
  else match s.wantAtomic c e.acc with
    | .none => s
    | .some (s, tag) => s.withCore c fun q => { q with stores := updateAt q.stores k fun e => { e with req := .some tag } }

/-- STORE_PERFORM: entry `k` of a core's store buffer is performed in the L1, at its bank or home, or sent to its peer; an
entry whose line is not writable asks for it, a peer's line by the port on the way there (R306). One that goes around the L1 first
drops the copy there. An atomic that finds poisoned data consumes it (R386). -/
def State.performStore (s : State) (c : CoreId) (k : Nat) : State :=
  match (s.coreOf c).stores[k]? with
  | .none => s
  | .some e =>
    let atHome := ((s.performHome c e.acc).1).clearPoison e.acc.pa e.acc.size
    let sent := fun (s : State) =>
      if !s.injects (s.portFrom c e.acc.pa) then s
      else s.withCore c fun q => { q with stores := updateAt q.stores k fun e => { e with sent := .some s.time } }
    if s.heldBack c k e ∨ e.sent.isSome ∨ e.req.isSome then s
    else if e.acc.kind ≠ .store ∧ s.poisoned e.acc.pa ∧ !isRemote s.pkg e.acc.pa then
      (s.withCore c fun q => { q with stores := q.stores.eraseIdx k }).poisonThread (.core c e.acc.slot)
    else if e.acc.around then
      match (s.coreOf c).line? (blockOf e.acc.pa) with
      | .some l => s.evict c l
      | .none => if isRemote s.pkg e.acc.pa then sent s else s.askFor c k e true
    else match s.reach c true e.acc.target with
      | .now =>
        if placeOf e.acc.pa = .scratch then atHome.leaveBuffer c k e
        else (((s.performL1 c e.acc).1).clearPoison e.acc.pa e.acc.size).leaveBuffer c k e
      | .later => atHome.leaveBuffer c k e
      | .remote => sent (if e.acc.byBlock then s.askFor c k e true else s)
      | .miss => s.askFor c k e true
      | .violation => s.askFor c k e false

def execStorePerform (core k : Nat) (s : State) : Host.Outcome State Fault Refusal := .next (s.performStore core k)

/-! ## Results of waited atomics (R184) -/

/-- The old value fills the destination and the thread goes on. -/
def State.endAtomic (s : State) (c : CoreId) (a : PendingAtomic) (old : Nat) : State :=
  let s := s.withCore c fun q => { q with atomics := q.atomics.filter fun b => b.slot != a.slot }
  s.land (.core c a.slot) 4 a.dest fun h => h.fillDest a.dest true a.acc.size old

/-- ATOMIC_RESULT: the old value of a slot's atomic returns. One that needs no request is performed in this step; one whose
home told it to try again is performed in the L1 or asks again. -/
def State.atomicResult (s : State) (c : CoreId) (slot : Nat) : State :=
  match (s.coreOf c).atomics.find? fun a => a.slot == slot with
  | .none => s
  | .some a =>
    match a.result with
    | .some old => s.endAtomic c a old
    | .none =>
      if a.req.isSome then s
      else if s.poisoned a.acc.pa ∧ !isRemote s.pkg a.acc.pa then
        (s.withCore c fun q => { q with atomics := q.atomics.filter fun b => b.slot != slot }).poisonThread (.core c slot)
      else match s.reach c true a.acc.target with
        | .later =>
          let (s, old) := s.performHome c a.acc
          s.endAtomic c a old
        | .now =>
          let (s, old) := if placeOf a.acc.pa = .scratch then s.performHome c a.acc else s.performL1 c a.acc
          s.endAtomic c a old
        | .remote => s
        | .miss | .violation =>
          match s.wantAtomic c a.acc with
          | .none => s
          | .some (s, tag) => s.withCore c fun q =>
              { q with atomics := q.atomics.map fun b => if b.slot = slot then { b with req := .some tag } else b }

def execAtomicResult (core slot : Nat) (s : State) : Host.Outcome State Fault Refusal := .next (s.atomicResult core slot)

/-! ## Messages on their way (R280) -/

/-- The request tag in a designation. -/
def rtagOf (a : Word) : Nat := a.toNat / 2 ^ 48

/-- Sender and receiver. -/
def NetMsg.route : NetMsg → Nat × Nat
  | .tagChange p a _ _ _ _ _ => ((Agent.pp p).code, (agentAt p a).code)
  | .tagAck p a _ _ _ _ => ((agentAt p a).code, (Agent.pp p).code)
  | .grant p a _ _ _ _ _ => ((Agent.pp p).code, (agentAt p (agentNo a)).code)
  | .release p a _ => ((Agent.pp p).code, (agentAt p (agentNo a)).code)
  | .resume p a _ => ((Agent.pp p).code, (agentAt p (agentNo a)).code)
  | .refuse p a _ _ _ => ((Agent.pp p).code, (agentAt p (agentNo a)).code)
  | .refusePp p q _ _ => ((Agent.pp p).code, (Agent.pp q).code)
  | .message a q _ => (a, (Agent.pp q).code)

/-- Message `k`, when no earlier one of the same sender and receiver is still on its way; and the state without it. -/
def State.takeNet (s : State) (k : Nat) : Option (NetMsg × State) :=
  match s.net[k]? with
  | .none => .none
  | .some m => if (s.net.take k).any fun q => q.route == m.route then .none
               else .some (m, { s with net := s.net.eraseIdx k })

/-! ## Tag changes at a cache (R289) -/

/-- The tag a cache keeps when a change to `new` arrives. A change never raises rights: a busy block, which allows no access, is
only dropped. -/
def lowerTag (old new : Nat) : Nat := if new = 3 then 3 else if old = 3 ∧ new ≠ 0 then 3 else if new < old then new else old

/-- The tag change at a core's L1: the state, and the dirty data that goes back. -/
def State.changeCore (s : State) (c : CoreId) (block tag : Nat) : State × Option (BitVec 256) :=
  match (s.coreOf c).line? block with
  | .none => (s, .none)
  | .some l =>
    let data := if l.dirty ∧ tag < 2 then .some l.data else .none
    (s.withCore c fun k =>
      if tag = 0 then k.dropLine block
      else k.setLine { l with tag := lowerTag l.tag tag, dirty := l.dirty && data.isNone }, data)

/-- The tag change at the RDC of a die. -/
def State.changeRdc (s : State) (die block tag : Nat) : State × Option (BitVec 256) :=
  match s.rdc.find? fun r => r.die == die && r.block == block with
  | .none => (s, .none)
  | .some r =>
    let data := if r.dirty ∧ tag < 2 then .some r.data else .none
    let r' := { r with tag := lowerTag r.tag tag, dirty := r.dirty && data.isNone }
    let rest := s.rdc.filter fun q => !(q.die == die && q.block == block)
    ({ s with rdc := if tag = 0 then rest else r' :: rest }, data)

/-- Counts one acknowledgement against the block's busy entry. -/
def Pp.countAck (p : Pp) (block : Nat) : Pp :=
  { p with busy := p.busy.map fun b => if b.block = block then { b with count := b.count - 1, acks := b.acks + 1 } else b }

/-- A PP at a die-to-die or fabric port (R306). -/
def isProxy (p : PpId) : Bool := decide (32 ≤ p % 37)

/-- Reply-lane messages that have reached a PP, each behind what its sender sent before, enter the reply queue; one with ack = 1
counts (R280, R294). -/
def State.collect (s : State) (p : PpId) : State :=
  let mine := s.net.zipIdx.filterMap fun (n, i) => match n with
    | .message _ q m => if q = p ∧ !((s.net.take i).any fun e => e.route == n.route && match e with
        | .message _ _ _ => false
        | _ => true) then .some (i, m) else .none
    | _ => .none
  let s : State := { s with net := (s.net.zipIdx.filter fun (_, i) => !mine.any fun e => e.1 == i).map (·.1) }
  mine.foldl (fun s (_, m) => s.withPp p fun q =>
    let q := if m.ack then q.countAck m.block else q
    { q with repQueue := enterQueue q.repQueue (s.arrived p m) }) s

/-- TAG_CHANGE: a tag change arrives at its cache, or, for an RDC, at its proxy PP as a type 8. One to a peer leaves the package;
its acknowledgement comes from there. -/
def State.tagChange (s : State) (k : Nat) : State :=
  match s.takeNet k with
  | .some (.tagChange p a block tag counted r _, s') =>
    let ack := fun (s : State) (d : Option (BitVec 256)) =>
      ({ s with net := s.net ++ [.tagAck p a block counted d s.time] } : State)
    match agentAt p a with
    | .core c => let (s, d) := s'.changeCore c block tag; ack s d
    | .rdc die =>
      if isProxy p ∧ p / 37 = die then let (s, d) := s'.changeRdc die block tag; ack s d
      else s'.pushReply (Agent.pp p).code (proxyPp die (p / 37))
        { plainMsg 8 block (BitVec.ofNat 64 (agentOfPp p)) r with
          proxy := true, payload := BitVec.ofNat 64 (tag + (if counted then 16 else 0)) }
    | .peer _ => s
    | .pp _ => s'
  | _ => s

def execTagChange (k : Nat) (s : State) : Host.Outcome State Fault Refusal := .next (s.tagChange k)

/-! ## Acknowledgements (R289, R292) -/

/-- Dirty data that came with an acknowledgement goes to the home L2, or at a proxy PP into its RDC. -/
def State.ackData (s : State) (p : PpId) (a block : Nat) (d : BitVec 256) : State :=
  match agentAt p a with
  | .core _ =>
    if isProxy p ∧ (s.rdc.any fun r => r.die == p / 37 && r.block == block) then
      { s with rdc := s.rdc.map fun r => if r.die = p / 37 ∧ r.block = block then { r with dirty := true, data := d } else r }
    else { s with mem := putHomeData s.mem block d }
  | _ => { s with mem := putHomeData s.mem block d }

/-- TAG_ACK: an acknowledgement arrives at the PP that sent the change. -/
def State.tagAck (s : State) (k : Nat) : State :=
  match s.takeNet k with
  | .some (.tagAck p a block counted d _, s) =>
    let s := match d with
      | .some v => s.ackData p a block v
      | .none => s
    if counted then s.withPp p fun q => q.countAck block else s
  | _ => s

def execTagAck (k : Nat) (s : State) : Host.Outcome State Fault Refusal := .next (s.tagAck k)

/-- PEER_ACK_SUBSTITUTE: for a peer that cannot be reached, or has not answered a tag change for 2^20 units of time, the fabric
port PP acknowledges. Dirty data there is lost, and cause 11 goes to the context whose binding counted it (R308). -/
def State.peerAck (s : State) (k : Nat) : State :=
  match s.net[k]? with
  | .some (.tagChange p a block _ counted r sentAt) =>
    match agentAt p a with
    | .peer pkg =>
      let there := s.reachable pkg (block.testBit 8)
      if there ∧ s.time < sentAt + 2 ^ 20 then s
      else
        let s := { s with net := s.net.eraseIdx k }
        if !counted || ((s.ppOf p).busyOf block).isNone then s
        else (s.withPp p fun q => q.countAck block).postError r.ctx
          ⟨BitVec.ofNat 64 block, BitVec.ofNat 64 (pkg * 2 ^ 16), 11, (if there then 3 else 1) * 16⟩
    | _ => s
  | _ => s

def execPeerAckSubstitute (k : Nat) (s : State) : Host.Outcome State Fault Refusal := .next (s.peerAck k)

/-! ## Grants, release notices and resumes (R294, R296) -/

def Core.request? (c : Core) (rtag : Nat) : Option Request := c.requests.find? fun q => q.rtag == rtag

def Core.dropRequest (c : Core) (rtag : Nat) : Core := { c with requests := c.requests.filter fun q => q.rtag != rtag }

/-- The thread whose scatter waits for the request executes it again, without the element that the home has performed. -/
def State.wakeRetry (s : State) (c : CoreId) (q : Request) (performed : Bool) : State :=
  match q.retry with
  | .some a =>
    s.withHart (.core c a.slot) fun h =>
      if h.wait = .tag q.rtag then
        { h with wait := .none, elemsDone := if performed then a.va :: h.elemsDone else h.elemsDone }
      else h
  | .none => s

/-- Nothing but accesses that bypass the L1 waits for the block (R152). -/
def Core.onlyNt (c : Core) (block : Nat) : Bool :=
  let els := c.loads.flatMap fun l => l.elems.filter (feeds block)
  let sts := c.stores.filter fun e => blockOf e.acc.pa == block
  !(els.isEmpty && sts.isEmpty) && els.all (fun e => e.1.nt) && sts.all fun e => e.acc.around

/-- A writable tag has come for stores that go around the L1: those that nothing holds back are performed at the home. -/
def State.storeAround (s : State) (c : CoreId) (block : Nat) : Nat → State
  | 0 => s
  | n + 1 =>
    match (s.coreOf c).stores.zipIdx.find? fun (e, i) => e.acc.around && blockOf e.acc.pa == block && !s.heldBack c i e with
    | .none => s
    | .some (e, i) =>
      ((((s.performHome c e.acc).1).clearPoison e.acc.pa e.acc.size).leaveBuffer c i e).storeAround c block n

/-- The requests that are over stand in no entry any more. -/
def Core.forgetRequest (k : Core) (rtag : Nat) : Core :=
  { k.dropRequest rtag with
    stores := k.stores.map fun e => if e.req = .some rtag then { e with req := .none } else e
    atomics := k.atomics.map fun e => if e.req = .some rtag then { e with req := .none } else e }

/-- A writable tag has come: stores to the block that their threads wait for, or that were sent to a peer's home, are performed with
it (R150, R294). -/
def State.completeStores (s : State) (c : CoreId) (block : Nat) : Nat → State
  | 0 => s
  | n + 1 =>
    match (s.coreOf c).stores.zipIdx.find? fun (e, i) => blockOf e.acc.pa == block && (e.waits.isSome || e.sent.isSome) &&
        e.req.isNone && !e.acc.around && !s.heldBack c i e with
    | .none => s
    | .some (e, i) =>
      ((((s.performL1 c e.acc).1).clearPoison e.acc.pa e.acc.size).leaveBuffer c i e).completeStores c block n

/-- Waited atomics of some slots are performed in the L1, whose line has become writable; poisoned data is consumed (R386). -/
def State.completeAtomics (s : State) (c : CoreId) (as : List PendingAtomic) : State :=
  as.foldl (fun s a =>
    if s.poisoned a.acc.pa then
      (s.withCore c fun q => { q with atomics := q.atomics.filter fun b => b.slot != a.slot }).poisonThread (.core c a.slot)
    else
      let (s, old) := s.performL1 c a.acc
      s.withCore c fun q => { q with atomics := q.atomics.map fun b => if b.slot = a.slot then { b with result := .some old } else b }) s

/-- A grant of a tag at a core: the line is installed, unless only accesses that bypass the L1 asked for it, and the accesses that
wait for it are completed. -/
def State.grantTag (s : State) (c : CoreId) (q : Request) (tag : Nat) (data : BitVec 256) : State :=
  let old := (s.coreOf c).line? q.block
  let d := (old.map (·.data)).getD data
  let line : Line := { block := q.block, tag := max tag ((old.map (·.tag)).getD 0 % 3), region := q.region, data := d
                       dirty := (old.map (·.dirty)).getD false }
  let bypass := old.isNone && (s.coreOf c).onlyNt q.block
  let waiting := (s.coreOf c).atomics.filter fun a => a.req == .some q.rtag
  let s := (s.withCore c fun k => k.forgetRequest q.rtag).feed c q.block d
  let s := if !bypass then s.install c line else if tag = 2 then s.storeAround c q.block 16 else s
  let s := if tag = 2 ∧ !bypass then (s.completeStores c q.block 16).completeAtomics c waiting else s
  s.wakeRetry c q false

/-- A grant whose access the home performed: `data` is the block as it was read at the home before. -/
def State.grantHome (s : State) (c : CoreId) (q : Request) (data : BitVec 256) : State :=
  let s := s.withCore c fun k => k.dropRequest q.rtag
  let s := if q.type = 0 then s.feed c q.block data else s
  let hurt := (s.coreOf c).atomics.filter fun a => a.req == .some q.rtag && s.poisoned a.acc.pa
  let s := hurt.foldl (fun s a =>
    (s.withCore c fun k => { k with atomics := k.atomics.filter fun b => b.slot != a.slot }).poisonThread (.core c a.slot)) s
  let old := fun (a : Access) => blockBytes data (a.pa % 32) a.size
  let done := fun (a : PendingAtomic) =>
    if a.req = .some q.rtag then { a with req := .none, result := .some (old a.acc) } else a
  let s := s.withCore c fun k => { k with atomics := k.atomics.map done }
  let s := match (s.coreOf c).stores.zipIdx.find? fun (e, _) =>
      e.req == .some q.rtag || (q.type == 1 && blockOf e.acc.pa == q.block && e.sent.isSome) with
    | .none => s
    | .some (e, i) => s.leaveBuffer c i e
  s.wakeRetry c q true

/-- A block enters an RDC, with its sector. -/
def State.putRdc (s : State) (b : RdcBlock) : State :=
  let tenant := ((s.ctxOf? b.region.ctx).map (·.tenant)).getD 0
  let s := s.fillSectors (2 * b.die + 1) (b.block / 256) (1#8 <<< (b.block / 32 % 8)) tenant
  { s with rdc := b :: s.rdc.filter fun q => !(q.die == b.die && q.block == b.block) }

/-- A grant that reaches an RDC: it is installed, and type 9 is dispatched at the proxy PP. With home = 1 the access of the
oldest access that waits at the proxy was performed at the home, and its result goes on to its core. -/
def State.grantRdc (s : State) (sender : Nat) (proxy : PpId) (agent : Word) (block tag : Nat) (home : Bool) (data : BitVec 256)
    (payload : Word) (r : Region) : State :=
  let die := proxy / 37
  let b := (s.ppOf proxy).busyOf block
  let r : Region := match b.bind fun b => b.list.head? with
    | .some m => m.region
    | .none => r
  let s := if home then
      match b.bind fun b => b.list.find? fun m => decide (m.type ≤ 2) with
      | .none => s
      | .some m =>
        let s := s.withPp proxy fun q => { q with busy := q.busy.map fun b =>
          if b.block = block then { b with list := b.list.erase m } else b }
        { s with net := s.net ++ [.grant proxy m.agent block 0 true data 0] }
    else
      let d := ((s.rdc.find? fun q => q.die == die && q.block == block).map (·.data)).getD data
      s.putRdc ⟨die, block, tag, false, d, r⟩
  s.pushReply sender proxy { plainMsg 9 block agent r with payload := payload, proxy := true }

/-- The answer to an engine's request (R279). -/
def Core.answerEngine (c : Core) (rtag : Nat) (f : EngineRequest → EngineRequest) : Core :=
  { c with engine := c.engine.map fun e => if e.rtag = rtag then f e else e }

/-- GRANT_RECEIVE: a grant arrives; one whose tag names no outstanding request is discarded. -/
def State.grantReceive (s : State) (k : Nat) : State :=
  match s.takeNet k with
  | .some (.grant p a block tag home data payload, s) =>
    match agentAt p (agentNo a) with
    | .core c =>
      match (s.coreOf c).request? (rtagOf a) with
      | .some q => if home then s.grantHome c q data else s.grantTag c q tag data
      | .none => s.withCore c fun k => k.answerEngine (rtagOf a) fun e => { e with granted := true }
    | .rdc die =>
      let h := s.homeOf p block
      s.grantRdc (Agent.pp p).code (proxyPp die (p / 37)) (BitVec.ofNat 64 (agentOfPp p)) block tag home data payload
        { plainRegion h.ctx block with proto := h.proto, arg := h.arg }
    | .peer _ | .pp _ => s
  | _ => s

def execGrantReceive (k : Nat) (s : State) : Host.Outcome State Fault Refusal := .next (s.grantReceive k)

/-- The requester checks its access again: the request is over, and a load, store or atomic asks again when it must. -/
def State.recheck (s : State) (c : CoreId) (rtag : Nat) : State :=
  match (s.coreOf c).request? rtag with
  | .some q =>
    let s := s.withCore c fun k => { k.forgetRequest rtag with
      loads := k.loads.map fun l => { l with suspended := l.suspended && !l.elems.any (feeds q.block) } }
    s.wakeRetry c q false
  | .none => s.withCore c fun k => { k with engine := k.engine.filter fun e => !(e.rtag == rtag && !e.granted) }

/-- An RDC is told to look at its tag again: as with a grant of the tag that it holds, type 9 is dispatched at its proxy (R296). -/
def State.nudgeRdc (s : State) (p proxy : PpId) (block : Nat) : State :=
  let h := s.homeOf p block
  let r : Region := match ((s.ppOf proxy).busyOf block).bind fun b => b.list.head? with
    | .some m => m.region
    | .none => { plainRegion h.ctx block with proto := h.proto, arg := h.arg }
  s.pushReply (Agent.pp p).code proxy { plainMsg 9 block (BitVec.ofNat 64 (agentOfPp p)) r with proxy := true }

/-- The same at the requester that an agent designation names: a core, or the RDC that a proxy PP asked for. -/
def State.recheckAgent (s : State) (p : PpId) (a : Word) (block : Nat) : State :=
  match agentAt p (agentNo a) with
  | .core c => s.recheck c (rtagOf a)
  | .rdc die => s.nudgeRdc p (proxyPp die (p / 37)) block
  | _ => s

/-- RELEASE_NOTICE: a request that carries no access is complete; any other is checked again. -/
def State.releaseNotice (s : State) (k : Nat) : State :=
  match s.takeNet k with
  | .some (.release p a block, s) => s.recheckAgent p a block
  | _ => s

def execReleaseNotice (k : Nat) (s : State) : Host.Outcome State Fault Refusal := .next (s.releaseNotice k)

/-- RESUME_RECEIVE: the requester checks the tag of its suspended access again, or sends its request again. -/
def State.resumeReceive (s : State) (k : Nat) : State :=
  match s.takeNet k with
  | .some (.resume p a block, s) => s.recheckAgent p a block
  | _ => s

def execResumeReceive (k : Nat) (s : State) : Host.Outcome State Fault Refusal := .next (s.resumeReceive k)

/-! ## Refusals (R302) -/

def refusedTrap (va : Nat) (write : Bool) : Trap :=
  { cause := .refusedAccess, tval := BitVec.ofNat 64 va, write := write }

/-- The destination of a refused load stays empty and is marked refused. -/
def Hart.refuseDest (h : Hart) (d : Dest) : Hart :=
  match d with
  | .nowhere => h
  | .scalar i => { h with xr := h.xr ||| (1#33 <<< i) }
  | .pair i j => { h with xr := h.xr ||| (1#33 <<< i) ||| (1#33 <<< j) }
  | .vector j => { h with vr := h.vr ||| (1#128 <<< j) }

/-- Posts the cause 9 entry of a refused access. -/
def State.postRefusal (s : State) (ctx : CtxNo) (va size code : Nat) : State :=
  s.postError ctx ⟨BitVec.ofNat 64 va, 0, 9, logSize size + code % 256 * 256⟩

/-- Refuses the loads that wait for a block, one after the other. -/
def State.refuseLoads (s : State) (c : CoreId) (ctx : CtxNo) (block code : Nat) : State :=
  let hit := fun (l : PendingLoad) => l.elems.find? (feeds block)
  let ls := (s.coreOf c).loads
  let s := s.withCore c fun k => { k with loads := k.loads.filter fun l => (hit l).isNone }
  ls.foldl (fun s l => match hit l with
    | .none => s
    | .some (a, _) =>
      let s := s.postRefusal ctx a.va a.size code
      match l.waits with
      | .some _ => s.trapThread (.core c l.slot) (refusedTrap a.va false)
      | .none => s.withHart (.core c l.slot) fun h => h.refuseDest l.dest) s

/-- Refuses stores and atomics of the buffer: they are dropped; one that its thread waits for traps it. -/
def State.refuseStores (s : State) (c : CoreId) (ctx : CtxNo) (code : Nat) (mine : StoreEntry → Bool) : State :=
  let es := (s.coreOf c).stores.filter mine
  let s := s.withCore c fun k => { k with stores := k.stores.filter fun e => !mine e }
  es.foldl (fun s e =>
    let s := s.postRefusal ctx e.acc.va e.acc.size code
    match e.waits with
    | .some _ => s.trapThread (.core c e.acc.slot) (refusedTrap e.acc.va true)
    | .none => s) s

/-- Refuses the atomics whose threads wait. -/
def State.refuseAtomics (s : State) (c : CoreId) (ctx : CtxNo) (rtag code : Nat) : State :=
  let es := (s.coreOf c).atomics.filter fun a => a.req == .some rtag
  let s := s.withCore c fun k => { k with atomics := k.atomics.filter fun a => a.req != .some rtag }
  es.foldl (fun s a => (s.postRefusal ctx a.acc.va a.acc.size code).trapThread (.core c a.slot) (refusedTrap a.acc.va true)) s

/-- A refused request of a core. -/
def State.refuseCore (s : State) (c : CoreId) (rtag code : Nat) (ctx : CtxNo) : State :=
  match (s.coreOf c).request? rtag with
  | .none => s.withCore c fun k => k.answerEngine rtag fun e => { e with refused := .some code }
  | .some q =>
    let s := s.withCore c fun k => k.dropRequest rtag
    let s := match q.retry with
      | .some a => (s.postRefusal ctx q.va q.size code).trapThread (.core c a.slot) (refusedTrap q.va true)
      | .none => s
    match q.type with
    | 0 => s.refuseLoads c ctx q.block code
    | 1 => s.refuseStores c ctx code fun e => e.acc.kind == .store && blockOf e.acc.pa == q.block
    | _ => (s.refuseStores c ctx code fun e => e.req == .some rtag).refuseAtomics c ctx rtag code

/-- A refusal returned to a PP: every message on the busy list of the block is refused with the same code, and the block is
freed without a replay. -/
def State.refuseAtPp (s : State) (p : PpId) (block code : Nat) : State :=
  let q := s.ppOf p
  match q.busyOf block with
  | .none => s
  | .some b =>
    let s := s.setPp { q with busy := q.busy.filter fun k => k.block != block }
    b.list.foldl (fun s m => s.refuseMsg p m code) s

/-- ACCESS_REFUSED: a refusal arrives. -/
def State.accessRefused (s : State) (k : Nat) : State :=
  match s.takeNet k with
  | .some (.refuse p a block code ctx, s) =>
    match agentAt p (agentNo a) with
    | .core c => s.refuseCore c (rtagOf a) code ctx
    | .rdc die => s.refuseAtPp (proxyPp die (p / 37)) block code
    | _ => s
  | .some (.refusePp _ q block code, s) => s.refuseAtPp q block code
  | _ => s

def execAccessRefused (k : Nat) (s : State) : Host.Outcome State Fault Refusal := .next (s.accessRefused k)

/-! ## Remote accesses (R166) -/

/-- An operation of a core that waits for a peer. -/
inductive RemoteOp where
  | load (i : Nat)
  | store (i : Nat)
  | atomic (i : Nat)
  | engine (rtag : Nat)
  deriving DecidableEq, Repr

def State.awayElem (s : State) (e : Access × Option Nat) : Bool := e.2 == .none && isRemote s.pkg e.1.pa

/-- The remote operations of a core that are outstanding. -/
def State.remoteOps (s : State) (c : CoreId) : List (RemoteOp × Nat) :=
  let k := s.coreOf c
  (k.loads.zipIdx.filterMap fun (l, i) => if l.elems.any s.awayElem then .some (.load i, l.sentAt) else .none) ++
  (k.stores.zipIdx.filterMap fun (e, i) => e.sent.bind fun t => if isRemote s.pkg e.acc.pa then .some (.store i, t) else .none) ++
  (k.atomics.zipIdx.filterMap fun (a, i) => if isRemote s.pkg a.acc.pa then .some (.atomic i, a.sentAt) else .none) ++
  (k.engine.filterMap fun e => if e.remote && !e.granted && e.failed.isNone then .some (.engine e.rtag, e.sentAt) else .none)

def State.ctxNoOf (s : State) (c : CoreId) : CtxNo := ((s.ctxOfCore c).map (·.num)).getD 0

/-- The error-queue entry of a failed remote access. -/
def State.postRemote (s : State) (c : CoreId) (cause : Nat) (a : Access) (reason : Nat) : State :=
  s.postError (s.ctxNoOf c)
    ⟨BitVec.ofNat 64 a.va, BitVec.ofNat 64 (peerPkg a.pa * 2 ^ 16), cause, logSize a.size + reason * 16⟩

/-- A remote operation has succeeded with a value. -/
def State.remoteDone (s : State) (c : CoreId) (op : RemoteOp) (v : Nat) : State :=
  match op with
  | .load i =>
    match (s.coreOf c).loads[i]? with
    | .none => s
    | .some l =>
      match l.elems.findIdx? s.awayElem with
      | .none => s
      | .some j =>
        let es := updateAt l.elems j fun (a, _) => (a, .some (s.readOf c a v))
        let s := (l.elems[j]?).elim s fun e => s.hasRead c e.1
        (s.withCore c fun k => { k with loads := updateAt k.loads i fun l => { l with elems := es } }).fillLoad c i
  | .store i =>
    match (s.coreOf c).stores[i]? with
    | .none => s
    | .some e => s.leaveBuffer c i e
  | .atomic i =>
    match (s.coreOf c).atomics[i]? with
    | .none => s
    | .some a => s.endAtomic c a (v % 2 ^ (8 * a.acc.size))
  | .engine t => s.withCore c fun k => k.answerEngine t fun e => { e with granted := true, value := v }

/-- A core gives up what it has asked of a peer's home for a block. -/
def State.dropAsk (s : State) (c : CoreId) (type pa : Nat) : State :=
  s.withCore c fun k => { k with requests := k.requests.filter fun q => !(q.type == type && q.block == blockOf pa && isRemote s.pkg q.block) }

/-- A remote operation has failed, for the reason code of R167. -/
def State.remoteFailed (s : State) (c : CoreId) (op : RemoteOp) (reason : Nat) : State :=
  match op with
  | .load i =>
    match (s.coreOf c).loads[i]? with
    | .none => s
    | .some l =>
      match l.elems.find? s.awayElem with
      | .none => s
      | .some (a, _) =>
        let s := s.withCore c fun k =>
          { k with loads := k.loads.eraseIdx i, requests := k.requests.filter fun q => q.block != blockOf a.pa }
        (s.postRemote c 1 a reason).trapThread (.core c l.slot)
          { cause := .remoteAccess, tval := BitVec.ofNat 64 a.va }
  | .store i =>
    match (s.coreOf c).stores[i]? with
    | .none => s
    | .some e => ((s.leaveBuffer c i e).dropAsk c 1 e.acc.pa).postRemote c (if e.acc.kind = .store then 1 else 2) e.acc reason
  | .atomic i =>
    match (s.coreOf c).atomics[i]? with
    | .none => s
    | .some a => ((s.endAtomic c a 0).dropAsk c 2 a.acc.pa).postRemote c 2 a.acc reason
  | .engine t => s.withCore c fun k => k.answerEngine t fun e => { e with failed := .some reason }

/-- The physical address of a remote operation. -/
def Core.remotePa (k : Core) : RemoteOp → Nat
  | .load i => ((k.loads[i]?.bind fun l => l.elems.head?).map fun e => e.1.pa).getD 0
  | .store i => (k.stores[i]?.map (·.acc.pa)).getD 0
  | .atomic i => (k.atomics[i]?.map (·.acc.pa)).getD 0
  | .engine t => ((k.engine.find? fun e => e.rtag == t).map (·.pa)).getD 0

/-- A remote operation ends. -/
def State.remoteEnds (s : State) (c : CoreId) (op : RemoteOp) : RemoteResult → State
  | .done v => s.remoteDone c op v.toNat
  | .unreachable => s.remoteFailed c op 1
  | .refused => s.remoteFailed c op 2
  | .peerFault => s.remoteFailed c op 4

/-- A remote operation ends, or has timed out. -/
def State.endsOr (s : State) (c : CoreId) (op : RemoteOp) : Option RemoteResult → State
  | .some r => s.remoteEnds c op r
  | .none => s.remoteFailed c op 3

/-- While a partition is on its way out, the outcome of a store or an atomic is held for its context, and a load has been
cancelled, to be sent again (R322). -/
def State.absorb (s : State) (c : CoreId) (ctx : CtxNo) (op : RemoteOp) (r : Option RemoteResult) : State :=
  let keep := fun (s : State) (a : AbsorbedOp) => s.withCtx ctx fun k => { k with absorbed := k.absorbed ++ [⟨c, a, r⟩] }
  match op with
  | .load _ => s
  | .store i =>
    match (s.coreOf c).stores[i]? with
    | .none => s
    | .some e => keep ((s.withCore c fun k => { k with stores := k.stores.eraseIdx i }).dropAsk c 1 e.acc.pa) (.store e)
  | .atomic i =>
    match (s.coreOf c).atomics[i]? with
    | .none => s
    | .some a => keep ((s.withCore c fun k => { k with atomics := k.atomics.eraseIdx i }).dropAsk c 2 a.acc.pa) (.atomic a)
  | .engine _ => s.endsOr c op r

/-- An outcome returns to a core, or is absorbed for its context. -/
def State.remoteArrives (s : State) (c : CoreId) (op : RemoteOp) (r : Option RemoteResult) : State :=
  match s.partOfCore c with
  | .some p => if p.state = .saving then s.absorb c p.ctx op r else s.endsOr c op r
  | .none => s.endsOr c op r

/-- REMOTE_OUTCOME: the outcome of the core's `k`-th outstanding remote operation returns; without a route it is a failure
(R359). -/
def State.remoteOutcome (s : State) (c : CoreId) (k : Nat) (r : RemoteResult) : State :=
  match (s.remoteOps c)[k]? with
  | .none => s
  | .some (op, t) =>
    let pa := (s.coreOf c).remotePa op
    if s.canReach c pa then if s.unsent (s.portFrom c pa) t then s else (s.flitPasses (s.portFrom c pa)).remoteArrives c op (.some r)
    else s.remoteArrives c op (.some .unreachable)

def execRemoteOutcome (core k : Nat) (res : RemoteResult) (s : State) : Host.Outcome State Fault Refusal :=
  .next (s.remoteOutcome core k res)

/-- REMOTE_TIME_OUT: no outcome has returned within 2^20 units of time; a message without a route has failed before that (R359). The
time-out is suspended while the peer at the end of the first link is frozen (R382). -/
def State.remoteTimeOut (s : State) (c : CoreId) (k : Nat) : State :=
  match (s.remoteOps c)[k]? with
  | .none => s
  | .some (op, t) =>
    if !s.canReach c ((s.coreOf c).remotePa op) then s.remoteArrives c op (.some .unreachable)
    else if s.suspended (s.portFrom c ((s.coreOf c).remotePa op)) then s
    else if t + 2 ^ 20 ≤ s.time then s.remoteArrives c op .none else s

def execRemoteTimeOut (core k : Nat) (s : State) : Host.Outcome State Fault Refusal := .next (s.remoteTimeOut core k)

/-! ## Page walks (R144, R145) -/

/-- The access that a thread waits to have translated by a walker of the die for the context. -/
def State.walkOf (s : State) (w : Walk) (h : Hart) : Option (Nat × Right) :=
  match h.who, h.wait with
  | .core c _, .walk va r => if coreDie c = w.die ∧ s.ctxNoOf c = w.ctx then .some (va, r) else .none
  | _, _ => .none

/-- The threads that wait for an address of the walk's page. -/
def State.walkers (s : State) (w : Walk) (lg : Nat) : List Hart :=
  (s.cur :: s.harts).filter fun h => (s.walkOf w h).any fun q => q.1 / 2 ^ lg == w.va / 2 ^ lg

/-- A walk that ends without a leaf: its threads find the fault when they execute again, and those that had joined it for
another part of a 512 MiB page start anew. -/
def State.walkFailed (s : State) (w : Walk) (f : MemFault) : State :=
  (s.walkers w 29).foldl (fun s h => s.withHart h.who fun q => match q.wait with
    | .walk va r =>
      { q with wait := .none, walkFault := if va / 2 ^ 16 = w.va / 2 ^ 16 then .some (va, r, f) else q.walkFault }
    | _ => q) s

/-- A walk that finds a leaf sets acc, and dty for a permitted write, and the translation is held at the three levels. The threads that had
joined it for another page of a 512 MiB part that turns out not to be one page start anew. -/
def State.walkFound (s : State) (w : Walk) (l : Leaf) : State :=
  let hs := s.walkers w (if l.large then 29 else 16)
  let may := fun (h : Hart) (wr : Bool) => (s.walkOf w h).any fun q => rightsCover l.entry q.2 h.user && (!wr || q.2 == .write)
  let ok := hs.any fun h => may h false
  let dirty := hs.any fun h => may h true
  let e := if ok then l.entry ||| 64 ||| (if dirty then 128 else 0) else l.entry
  let s := if ok then s.coherentWrite l.at' 8 e else s
  let put := fun (s : State) (lv u : Nat) =>
    ({ s with tlb := tlbInsert s.turn (tlbOfLeaf lv u w.ctx w.va l dirty) s.tlb } : State)
  let s := hs.foldl (fun s h => put (put s 1 (clusterOf h.who.core')) 0 h.who.core') (put s 2 w.die)
  ((hs ++ s.walkers w 29).map (·.who)).eraseDups.foldl (fun s h => s.wake h) s

/-- The walk is one of the 64 that the walker of its die has in progress, the oldest (R145). -/
def State.walkRuns (s : State) (k : Nat) (w : Walk) : Bool :=
  decide (((s.walks.take k).filter fun q => q.die == w.die).length < 64)

/-- PAGE_WALK: a walk ends. One that reads poisoned data is consumed by the threads that wait for it (R386; DEDUCED, log 40). -/
def State.pageWalk (s : State) (k : Nat) : State :=
  match s.walks[k]? with
  | .none => s
  | .some w =>
    if !s.walkRuns k w then s
    else
      let s' : State := { s with walks := s.walks.eraseIdx k }
      match s.ctxOf? w.ctx with
      | .none => s'
      | .some ctx =>
        if s.walkPoisoned ctx w.va then (s.walkers w 16).foldl (fun s h => s.poisonThread h.who) ((s.walkers w 29).foldl (fun s h => s.wake h.who) s')
        else match walkTables (fun a => s.coherentRead a 8) ctx.root.toNat w.va with
        | .error f => s'.walkFailed w f
        | .ok l => s'.walkFound w l

def execPageWalk (k : Nat) (s : State) : Host.Outcome State Fault Refusal := .next (s.pageWalk k)

/-! ## Merge windows (R149) -/

/-- MERGE_WINDOW_CLOSE: 8 N-cycles after it opened, a window closes and its burst is on its way; with the next one the burst has
brought its sectors. -/
def State.closeWindow (s : State) (k : Nat) : State :=
  match s.windows[k]? with
  | .none => s
  | .some w =>
    if w.inFlight then ({ s with windows := s.windows.eraseIdx k } : State).fillSectors w.holder w.line w.sectors w.tenant
    else if s.nCycles (w.holder / 2) < w.openedAt + 8 then s
    else { s with windows := updateAt s.windows k fun w => { w with inFlight := true } }

def execMergeWindowClose (k : Nat) (s : State) : Host.Outcome State Fault Refusal := .next (s.closeWindow k)

end Sys2Proof.Machine
end

