-- ==== Sys2Proof/Machine/Tasks.lean ====
section
/-! DEFINITION. Tasks: primary 0x28, the task queues and their arbiter, calls and replies, joins (R108 to R123). -/

namespace Sys2Proof.Machine

open Sys2Proof

/-! ## Core designations and handles (R111) -/

/-- The designation of a core of this package. -/
def State.designation (s : State) (c : CoreId) : Nat := c % 8192 + s.pkg % 4096 * 2 ^ 16

/-- The package of a designation. -/
def designatedPkg (w : Word) : Nat := field w 16 12

/-- A bit outside the fields of a designation is set. -/
def badDesignation (w : Word) : Bool := field w 13 3 != 0 || field w 28 36 != 0

/-- The packages of a core's launch: its own, and the other members of its fabric partition (R333). -/
def State.launchMembers (s : State) (c : CoreId) : List Nat :=
  match s.partOfCore c with
  | .none => []
  | .some p => ((s.dist.launches.find? fun l => l.num == p.launch).map (·.members)).getD []

/-- The local core belongs to the same launch as the other. -/
def State.sameLaunch (s : State) (c d : CoreId) : Bool := (s.coreOf c).part.isSome && (s.coreOf c).part == (s.coreOf d).part

/-- The core that a designation names for an instruction of core `c`: one of the launch, or, when `away` allows it, one of
another package of the launch, for which there is no local core. -/
def State.targetCore (s : State) (c : CoreId) (w : Word) (away : Bool) : Except Exc (Option CoreId) :=
  let bad := trapOf .target w
  if badDesignation w then .error bad
  else if designatedPkg w ≠ s.pkg then
    (if away && (s.launchMembers c).contains (designatedPkg w) then .ok .none else .error bad)
  else
    let t := w.toNat % 8192
    if s.sameLaunch c t then .ok (.some t) else .error bad

/-- A task handle. -/
def State.handle (s : State) (c : CoreId) (entry : Nat) (seq : BitVec 24) : Word :=
  BitVec.ofNat 64 (s.designation c + entry * 2 ^ 32 + seq.toNat * 2 ^ 40)

/-! ## The queue -/

/-- Which free entry a queue fills (R113 does not say; log 2). -/
opaque Config.freeEntry : Nat → Nat

/-- The launch of the partition that a core belongs to. -/
def State.launchOf (s : State) (c : CoreId) : LaunchNo := ((s.partOfCore c).map (·.launch)).getD 0

/-- Fills a free entry of a core's queue, at its head or its tail, and answers the handle; nothing when the queue is full. -/
def State.pushTask (s : State) (c : CoreId) (head : Bool) (t : TaskEntry) : Option (State × Word) :=
  let k := s.coreOf c
  let free := (List.range 32).filter fun i => !(k.tasks.any (·.index == i))
  match free with
  | [] => .none
  | first :: _ =>
    let i := free.getD (Config.freeEntry s.turn % free.length) first
    let seq := k.seqs.getD i 0 + 1
    let t := { t with index := i }
    let s := { s with turn := s.turn + 1 }
    .some (s.setCore { k with seqs := k.seqs.setIfInBounds i seq, tasks := if head then t :: k.tasks else k.tasks ++ [t] },
      s.handle c i seq)

/-- Four argument registers. -/
def argsOf (l : List Word) : Vector Word 4 := #v[l.getD 0 0, l.getD 1 0, l.getD 2 0, l.getD 3 0]

/-! ## Dispatch and stealing (R118, R119) -/

/-- The core belongs to a running launch and may take tasks. -/
def State.takesTasks (s : State) (c : CoreId) : Bool :=
  (s.partOfCore c).any (fun p => p.state == .running) && !(s.coreOf c).ganged

/-- The lowest-numbered vacant slot of a core that takes tasks. -/
def State.vacantSlot (s : State) (c : CoreId) : Option Nat :=
  if !s.takesTasks c then .none
  else (List.range (s.coreOf c).threads).find? fun i => (s.hartOf (.core c i)).life == .vacant

/-- The state of a thread at the start of a task, at U (R118, R310). -/
def Hart.startTask (h : Hart) (t : TaskEntry) : Hart :=
  let h := { h with life := .live, wait := .none, latch := .none, frame := [], walkFault := .none, since := .none
                    pc := t.pc, task := t.tag }
  let h := h.setStatus (setField (setField h.sys.status 11 1 0) 0 2 0)
  ((((h.setX 1 0).setX 3 t.args[0]).setX 4 t.args[1]).setX 5 t.args[2]).setX 6 t.args[3]

/-- A task starts in a slot: the acquire of its spawn's or call's release. -/
def State.startTask (s : State) (c : CoreId) (slot : Nat) (t : TaskEntry) : State :=
  (((s.withHart (.core c slot) fun h => h.startTask t).orderIds (.core c slot) t.cover).count (s.ctxNoOf c) c 2 2 1).trace
    2 c slot t.pc 0

/-- TASK_DISPATCH: a core's lowest vacant slot takes the head of its own queue. -/
def State.taskDispatch (s : State) (c : CoreId) (slot : Nat) : State :=
  match (s.coreOf c).tasks with
  | [] => s
  | t :: rest =>
    if s.vacantSlot c ≠ .some slot then s
    else (s.withCore c fun k => { k with tasks := rest }).startTask c slot t

def execTaskDispatch (core slot : Nat) (s : State) : Host.Outcome State Fault Refusal := .next (s.taskDispatch core slot)

/-- The other cores of the cluster, from the next index on. -/
def clusterAfter (c : CoreId) : List CoreId :=
  (List.range 7).map fun i => clusterCore (clusterOf c) ((coreIndex c + 1 + i) % 8)

/-- The unpinned entry nearest the tail. -/
def Core.stealable (k : Core) : Option TaskEntry := (k.tasks.reverse.find? fun t => !t.pinned)

/-- The queue from which a core with a vacant slot and an empty queue steals. -/
def State.stealFrom (s : State) (c : CoreId) : Option CoreId :=
  if (s.vacantSlot c).isNone ∨ !(s.coreOf c).tasks.isEmpty then .none
  else (clusterAfter c).find? fun v => s.sameLaunch c v && (s.coreOf v).stealable.isSome

/-- A vacant slot of the queue's own core asks for its head. -/
def State.wantsHead (s : State) (c : CoreId) : Bool := (s.vacantSlot c).isSome && !(s.coreOf c).tasks.isEmpty

/-- TASK_STEAL: the queue's own dispatch comes first, then the thieves in ascending order from the queue's core. -/
def State.taskSteal (s : State) (c : CoreId) (slot : Nat) : State :=
  match s.stealFrom c with
  | .none => s
  | .some v =>
    if s.vacantSlot c ≠ .some slot ∨ s.wantsHead v ∨ (clusterAfter v).find? (fun t => s.stealFrom t == .some v) ≠ .some c
    then s
    else match (s.coreOf v).stealable with
      | .none => s
      | .some t => (s.withCore v fun k => { k with tasks := k.tasks.filter (·.index != t.index) }).startTask c slot t

def execTaskSteal (core slot : Nat) (s : State) : Host.Outcome State Fault Refusal := .next (s.taskSteal core slot)

/-- The queue's arbiter grants a dispatch or a steal first: every other operation waits for it (R25, R119). -/
def State.queueTaken (s : State) (c : CoreId) : Bool :=
  s.wantsHead c || (clusterAfter c).any fun t => s.stealFrom t == .some c

/-! ## spawn (R113) -/

/-- The push is a release for the task: it waits until the thread's earlier accesses are performed. -/
def execSpawn (d a b : Reg) (nb : Bool) (s : State) : Host.Outcome State Fault Refusal :=
  s.issue .coreOnly fun s => do
    s.cur.needX d
    let args ← s.cur.getRun a 4
    let (pc, join) ← s.cur.getPair b
    let c := s.cur.who.core'
    if !s.quiet s.cur.who 3 || s.queueTaken c then .error (.wait .again)
    let s := s.markPerformed s.cur.who 3 s.stamps
    match s.pushTask c true
      { index := 0, pc := pc &&& ~~~1#64, args := argsOf args, tag := ⟨.none, join, false⟩, pinned := false
        launch := s.launchOf c, cover := s.coverOf s.cur.who 0 } with
    | .some (s, h) =>
      let cur := s.cur.setX d h
      .ok { s with cur := (if nb then cur.setX a 0 else cur).advance 4 }
    | .none => if nb then .ok { s with cur := (s.cur.setX a 1).advance 4 } else .error (.wait (.room .tasks))

/-! ## callat (R114 to R116) -/

/-- The lowest free reply tag of a core, of 64. -/
def Core.freeReply (k : Core) : Option Nat := (List.range 64).find? fun t => !k.replyTags.contains t

def execCallat (d a b : Reg) (nb : Bool) (s : State) : Host.Outcome State Fault Refusal :=
  s.issue .coreOnly fun s => do
    s.cur.needX d
    let args ← s.cur.getRun a 4
    let (pc, target) ← s.cur.getPair b
    let c := s.cur.who.core'
    let slot := s.cur.who.slot'
    let _ ← s.targetCore c target true
    let k := s.coreOf c
    match (if d = 0#5 then .some 64 else k.freeReply).filter fun _ => k.calls.length < 8 with
    | .none => if nb then .ok { s with cur := (s.cur.setX a 1).advance 4 } else .error (.wait (.room .calls))
    | .some tag =>
      let reply : Option Reply := if d = 0#5 then .none else .some ⟨c, slot, s.cur.xIdx d, tag⟩
      let s := s.setCore { k with
        calls := k.calls ++ [{
          slot := slot, pc := pc &&& ~~~1#64, args := argsOf args, target := target, reply := reply, retryAt := 0, sentAt := .none
          cover := s.coverOf s.cur.who 0 ++ s.waitingWrites s.cur.who, stamp := s.stamps + 1 }]
        replyTags := if d = 0#5 then k.replyTags else tag :: k.replyTags }
      let cur := s.cur.markX d
      .ok { s with cur := (if nb then cur.setX a 0 else cur).advance 4, stamps := s.stamps + 1 }

/-- Whether a peer's queue accepts a task that is sent to it (an input). -/
opaque Config.peerAccepts : Nat → Bool

/-- CALLAT_ACCEPT: the task of entry `k` arrives at its target. It starts after the caller's earlier accesses, and after the
earlier tasks of the buffer for the same target. A full queue refuses it; a peer that cannot be reached takes none. -/
def State.callatAccept (s : State) (c : CoreId) (k : Nat) : State :=
  match (s.coreOf c).calls[k]? with
  | .none => s
  | .some e =>
    if e.retryAt ≠ 0 ∨ (((s.coreOf c).calls.take k).any fun q => q.target == e.target) ∨
        !s.quietBefore (.core c e.slot) 7 e.stamp then s
    else
      let s := s.markPerformed (.core c e.slot) 7 e.stamp
      let leave := fun (s : State) => s.withCore c fun q => { q with calls := q.calls.eraseIdx k }
      let refuse := fun (s : State) => s.withCore c fun q =>
        { q with calls := updateAt q.calls k fun e => { e with retryAt := s.nCycles (coreDie c) + 64 } }
      if designatedPkg e.target = s.pkg then
        let t := e.target.toNat % 8192
        if s.queueTaken t then s
        else match s.pushTask t false
            { index := 0, pc := e.pc, args := e.args, tag := ⟨e.reply, 0, false⟩, pinned := true, launch := s.launchOf c, cover := e.cover } with
        | .some (s, _) => leave s
        | .none => refuse s
      else if !s.reachable (designatedPkg e.target) (coreX c % 2 == 1) then s
      else if Config.peerAccepts s.turn then
        (leave { s with turn := s.turn + 1 }).withCore c fun q => { q with owed := q.owed ++ e.reply.toList }
      else refuse { s with turn := s.turn + 1 }

def execCallatAccept (core k : Nat) (s : State) : Host.Outcome State Fault Refusal := .next (s.callatAccept core k)

/-- CALLAT_RETRY: 64 N-cycles after its refusal a task is sent again. -/
def State.callatRetry (s : State) (c : CoreId) (k : Nat) : State :=
  s.withCore c fun q => { q with calls := updateAt q.calls k fun e =>
    if e.retryAt ≠ 0 ∧ e.retryAt ≤ s.nCycles (coreDie c) then { e with retryAt := 0 } else e }

def execCallatRetry (core k : Nat) (s : State) : Host.Outcome State Fault Refusal := .next (s.callatRetry core k)

/-- A reply fills the caller's register and frees its tag, even when the thread no longer waits (R109, R115); it is an acquire of
what it covers (R117). -/
def State.reply (s : State) (r : Reply) (v : Word) (cover : List Nat) : State :=
  let s := s.withCore r.core fun k => { k with replyTags := k.replyTags.filter (· != r.tag) }
  (s.orderIds (.core r.core r.slot) cover).withHart (.core r.core r.slot) fun h => h.fillDest (.scalar r.reg) false 8 v.toNat

/-- CALLAT_REPLY: reply `k` of those on their way arrives; the numbers after them name the replies that peers owe core
`k - n`, the first of which arrives with the value `peer`. -/
def State.callatReply (s : State) (k : Nat) (peer : Word) : State :=
  match s.replies[k]? with
  | .some (r, v, cover) => ({ s with replies := s.replies.eraseIdx k } : State).reply r v cover
  | .none =>
    let c := k - s.replies.length
    match (s.coreOf c).owed with
    | [] => s
    | r :: rest => (s.withCore c fun q => { q with owed := rest }).reply r peer []

def execCallatReply (k : Nat) (peer : Word) (s : State) : Host.Outcome State Fault Refusal := .next (s.callatReply k peer)

/-- REMOTE_CALL_FAILED: the peer of entry `k` is unreachable or refuses its task (reason of R167). -/
def State.remoteCallFailed (s : State) (c : CoreId) (k : Nat) (reason : Nat) : State :=
  match (s.coreOf c).calls[k]? with
  | .none => s
  | .some e =>
    if designatedPkg e.target = s.pkg then s
    else
      let s := s.withCore c fun q => { q with calls := q.calls.eraseIdx k }
      let s := s.postError (s.ctxNoOf c) ⟨e.pc, e.target, 3, reason * 16⟩
      match e.reply with
      | .none => s
      | .some r => s.reply r 0 []

def execRemoteCallFailed (core k : Nat) (reason : BitVec 4) (s : State) : Host.Outcome State Fault Refusal :=
  .next (s.remoteCallFailed core k reason.toNat)

/-! ## Join counters (R117, R120 to R122) -/

/-- Decrements a join counter as a release at scope 7 on the core path of a core, in a thread's place of its store buffer, of what it
covers; nothing when the buffer has no room. One that fails is reported later. -/
def State.countDown (s : State) (c : CoreId) (user : Bool) (slot : Nat) (cover : Cover) (join : Word) : Option State :=
  match s.checkWalk c user join.toNat 8 .write with
  | .error _ => .some { s with joinFails := s.joinFails ++ [(s.ctxNoOf c, join)] }
  | .ok (s, t) =>
    if 16 ≤ (s.coreOf c).stores.length then .none
    else
      let a : Access :=
        { slot := slot, kind := .amo 0, va := t.va, pa := t.pa, size := 8, data := 2 ^ 64 - 1, expect := 0
          uncached := t.uncached, region := s.regionAt c t, nt := false, stamp := s.stamps, cover := cover }
      let s : State := { s with stamps := s.stamps + 1 }
      .some (s.withCore c fun k => { k with stores := k.stores ++ [⟨a, .some 7, .none, .none, .none⟩] })

/-- JOIN_COUNTER_FAILURE: a failed decrement is reported with cause 4. -/
def State.joinCounterFailure (s : State) (k : Nat) : State :=
  match s.joinFails[k]? with
  | .none => s
  | .some (ctx, a) => ({ s with joinFails := s.joinFails.eraseIdx k } : State).postError ctx ⟨a, 0, 4, 3⟩

def execJoinCounterFailure (k : Nat) (s : State) : Host.Outcome State Fault Refusal := .next (s.joinCounterFailure k)

/-- The counter is zero or less. -/
def joined (v : Nat) : Bool := v == 0 || 2 ^ 63 ≤ v

/-- The load of a join counter whose value is not at hand. -/
def Core.markCounter (k : Core) : Core :=
  { k with loads := updateAt k.loads (k.loads.length - 1) fun l => { l with counter := true } }

/-- The read of a join counter: an acquire where its value ends the join. -/
def State.readCounter (s : State) (c : CoreId) (a : Access) : State × Nat :=
  let v := s.readNow c a
  (s.hasRead c (if joined v then { a with acquire := .some 7 } else a), v)

def execJoin (d a : Reg) (s : State) : Host.Outcome State Fault Refusal :=
  s.issue .coreOnly fun s => do
    s.cur.needX d
    let x ← s.cur.getX a
    let t ← s.translate x 8 .read
    let c := s.cur.who.core'
    let acc := s.loadAccess t 8 false
    if (s.coreOf c).loadWaits acc.slot acc.pa 8 then .error (.wait .again)
    else if s.reach c false t = .now then
      if s.poisoned acc.pa then .error .poison
      else
        let (s, v) := s.readCounter c acc
        if joined v then .ok { s with cur := (s.cur.setX d (BitVec.ofNat 64 v)).advance 4 }
        else .ok (s.waitFor (.join acc (s.cur.destX d)))
    else do
      let s ← s.load [acc] (s.cur.destX d) true true 4
      .ok (s.withCore c Core.markCounter)

/-- The read of a waiting join, with what the store buffer forwards to it now. -/
def State.againAccess (s : State) (c : CoreId) (a : Access) : Access :=
  let f := (s.coreOf c).forward a.slot a.pa a.size
  { a with data := f.2, expect := f.1, stamp := s.stamps }

/-- JOIN_RECHECK: a waiting join reads its counter again. -/
def State.joinRecheck (s : State) (c : CoreId) (slot : Nat) : State :=
  let w := Who.core c slot
  let h := s.hartOf w
  match h.wait with
  | .join a d =>
    let a := s.againAccess c a
    let reach := s.reach c false a.target
    if h.life ≠ .live ∨ (s.coreOf c).loadWaits slot a.pa 8 then s
    else if reach = .now ∨ reach = .later then
      if s.poisoned a.pa then s.poisonThread w
      else
        let (s, v) := s.readCounter c a
        if joined v then s.land w 4 d fun h => h.fillDest d true 8 v else s
    else match s.wantLoad c [a] with
      | .none => s
      | .some s =>
        let p : PendingLoad :=
          { slot := slot, dest := d, signed := true, elems := [(a, .none)], waits := .some 4, sentAt := s.time, counter := true
            suspended := reach == .violation }
        (s.withCore c fun k => { k with loads := k.loads ++ [p] }).withHart w fun h => { h with wait := .access }
  | _ => s

def execJoinRecheck (core slot : Nat) (s : State) : Host.Outcome State Fault Refusal := .next (s.joinRecheck core slot)

/-! ## rett and tend (R117) -/

/-- The most words of a stream that its route holds beyond the first (no rule says; a free constant). -/
opaque Config.routeRoom : Nat

/-- A word or marker can leave the core. -/
def Flow.room (f : Flow) : Bool := f.words.length ≤ Config.routeRoom

/-- The claimed, still open stream of a slot. -/
def Core.openFlow (k : Core) (slot : Nat) : Option Flow := k.flows.find? fun f => f.slot == slot && !f.closing

/-- Applies a change to the open stream of a slot. -/
def Core.withFlow (k : Core) (slot : Nat) (f : Flow → Flow) : Core :=
  { k with flows := k.flows.map fun q => if q.slot = slot ∧ !q.closing then f q else q }

/-- Closes the thread's stream, when the closing marker can leave the core or was never needed (R129). -/
def State.closeStream (s : State) : Option State :=
  let c := s.cur.who.core'
  let slot := s.cur.who.slot'
  let s' : State := { s with cur := { s.cur with stream := .none } }
  match (s.coreOf c).openFlow slot with
  | .none => .some s'
  | .some f => if f.room then .some (s'.withCore c fun k => k.withFlow slot fun f => { f with closing := true }) else .none

/-- Every register of the thread is full: it waits on the first that is not; one that a refusal left empty traps as a read of it does
(R302). -/
def Hart.allFull (h : Hart) : Except Exc Unit :=
  match (List.range 33).find? fun i => h.xe.getLsbD i && h.xr.getLsbD i, (List.range 128).find? fun j => h.ve.getLsbD j && h.vr.getLsbD j with
  | .some i, _ => if hi : i < 33 then .error (.refusedX ⟨i, hi⟩ (if i = 32 then 31 else BitVec.ofNat 5 i)) else .ok ()
  | .none, .some j => .error (.refusedV (BitVec.ofNat 7 j))
  | .none, .none =>
    match (List.range 33).find? fun i => h.xe.getLsbD i, (List.range 128).find? fun j => h.ve.getLsbD j with
    | .some i, _ => .error (.wait (.scalar i))
    | .none, .some j => .error (.wait (.vector j))
    | .none, .none => .ok ()

/-- What a release at scope 7 covers that a thread makes as its next write. -/
def State.ownRelease (s : State) (w : Who) : Cover := s.writeCover w (.some 7) s.stamps (s.waitingWrites w)

/-- Ends the running task, with its reply value. -/
def endTask (value : Hart → Word) (s : State) : Host.Outcome State Fault Refusal :=
  s.issue .coreOnly fun s => do
    s.cur.allFull
    let c := s.cur.who.core'
    let slot := s.cur.who.slot'
    let tag := s.cur.task
    let replied := tag.reply.isSome || tag.away
    if replied && !s.quiet s.cur.who 7 then .error (.wait .again)
    let s := if replied then s.markPerformed s.cur.who 7 s.stamps else s
    match s.closeStream with
    | .none => .error (.wait .again)
    | .some s =>
      match (if tag.join = 0 then .some s else s.countDown c s.cur.user slot (s.ownRelease s.cur.who) tag.join) with
      | .none => .error (.wait .again)
      | .some s =>
        let replies := match tag.reply with
          | .some r => s.replies ++ [(r, value s.cur, s.coverOf s.cur.who 0)]
          | .none => s.replies
        .ok (({ s with replies := replies, cur := { s.cur.settle with life := .vacant, task := ⟨.none, 0, false⟩ } } : State).tryDissolve c)

def execRett (s : State) : Host.Outcome State Fault Refusal := endTask (fun h => h.readX 3) s
def execTend (s : State) : Host.Outcome State Fault Refusal := endTask (fun _ => 0) s

/-! ## tcancel and yield (R122, R123) -/

def execTcancel (d a : Reg) (s : State) : Host.Outcome State Fault Refusal :=
  s.issue .coreOnly fun s => do
    s.cur.needX d
    let h ← s.cur.getX a
    .ok (s.waitFor (.cancel h d))

/-- The status of a cancel request at a peer package (an input). -/
opaque Config.peerCancel : Nat → BitVec 2

/-- The writes of a core's threads are performed at scope 7. -/
def State.coreQuiet (s : State) (c : CoreId) : Bool :=
  (s.coreOf c).stores.isEmpty && (List.range (s.coreOf c).threads).all fun i => s.performedAt (.core c i) 0 7 s.stamps

/-- What a release at scope 7 on a core covers, for a task that had been spawned there: the writes of its threads, and those that the
spawn covered (R122; DEDUCED, log 27). -/
def State.coreRelease (s : State) (c : CoreId) (e : TaskEntry) : Cover :=
  ((List.range (s.coreOf c).threads).flatMap fun i => s.writeCover (.core c i) (.some 7) s.stamps []) ++
    e.cover.map fun n => (.core c 0, 7, n)

/-- What a cancel request of a launch's core finds at a core of this package, and the state after it; nothing while the queue's arbiter
grants another operation, or while the counter cannot be decremented as a release. A task that `callat` sent cannot be removed: its handle, which
no thread has been given, finds nothing (DEDUCED, log 27). -/
def State.cancelHere (s : State) (h : Word) : Option (State × Nat) :=
  let t := h.toNat % 8192
  let k := s.coreOf t
  let i := field h 32 5
  if s.queueTaken t then .none
  else match k.tasks.find? fun e => e.index == i && !e.pinned && (k.seqs.getD i 0).toNat == field h 40 24 with
    | .none => .some (s, 1)
    | .some e =>
      let s := s.setCore { k with tasks := k.tasks.filter (·.index != i) }
      if e.tag.join = 0 then .some (s, 0)
      else if !s.coreQuiet t then .none
      else (s.countDown t false 0 (s.coreRelease t e) e.tag.join).map fun s => (s, 0)

/-- A request by a thread of a core. -/
def State.cancelTask (s : State) (c : CoreId) (h : Word) : Option (State × Nat) :=
  if field h 28 4 ≠ 0 ∨ field h 37 3 ≠ 0 ∨ field h 13 3 ≠ 0 then .some (s, 2)
  else if designatedPkg h ≠ s.pkg then
    if (s.launchMembers c).contains (designatedPkg h) then
      .some ({ s with turn := s.turn + 1 }, (Config.peerCancel s.turn).toNat % 3)
    else .some (s, 2)
  else if !s.sameLaunch c (h.toNat % 8192) then .some (s, 2)
  else s.cancelHere h

/-- TASK_CANCEL_REQUEST: the request of a thread's `tcancel` is served, and its status returns. -/
def State.cancelRequest (s : State) (c : CoreId) (slot : Nat) : State :=
  let w := Who.core c slot
  match (s.hartOf w).wait with
  | .cancel h d =>
    if (s.hartOf w).life ≠ .live then s
    else match s.cancelTask c h with
      | .none => s
      | .some (s, st) => s.finish w 4 fun h => h.setX d (BitVec.ofNat 64 st)
  | _ => s

def execTaskCancelRequest (core slot : Nat) (s : State) : Host.Outcome State Fault Refusal := .next (s.cancelRequest core slot)

/-- The other ready threads come first in the search of R15 anyway. -/
def execYield (s : State) : Host.Outcome State Fault Refusal := s.issueHart .coreOnly fun h => .ok (h.advance 4)

end Sys2Proof.Machine
end

