-- ==== Sys2Proof/Machine/Barriers.lean ====
section
/-! DEFINITION. Wire barriers: primary 0x2B (R136 to R139). -/

namespace Sys2Proof.Machine

open Sys2Proof

/-! ## Groups -/

/-- The cores of the rectangle that a `barw.rect` names on a die. -/
def rectCores (die : Nat) (w : Word) : List CoreId :=
  (List.range (field w 24 5 + 1)).flatMap fun r => (List.range (field w 16 6 + 1)).map fun q =>
    coreAt die (field w 0 6 + q) (field w 8 5 + r)

/-- The fields of `barw.rect`. -/
def rectMask : Word := 0x1f3f1f3f

def Core.channel (k : Core) (ch : Nat) : Channel := k.channels.getD ch default

def Core.withChannel (k : Core) (ch : Nat) (f : Channel → Channel) : Core :=
  { k with channels := k.channels.setIfInBounds ch (f (k.channel ch)) }

/-- The root of the group that a core's channel belongs to. -/
def State.rootOf (s : State) (c : CoreId) (ch : Nat) : Option CoreId :=
  ((s.coreOf c).channel ch).group.map fun (die, w) => coreAt die (field w 0 6) (field w 8 5)

/-- The members of the group of a root. -/
def State.groupCores (s : State) (root : CoreId) (ch : Nat) : List CoreId :=
  match ((s.coreOf root).channel ch).group with
  | .none => []
  | .some (die, w) => rectCores die w

/-- What `barw`, `barwa` and `barww` write: phase, broken, time-out. -/
def barResult (phase : Nat) (broken timeOut : Bool) : Word :=
  BitVec.ofNat 64 (phase % 2 ^ 32 * 2 ^ 32 + broken.toNat * 2 + timeOut.toNat)

/-- The threads of a group's members. -/
def State.groupThreads (s : State) (root : CoreId) (ch : Nat) : List Who :=
  (s.groupCores root ch).flatMap fun c => (List.range (s.coreOf c).threads).map (Who.core c)

/-- A thread's wait is over, with the acquire of what the arrivals so far cover (R137). -/
def State.completeBarrier (s : State) (root : CoreId) (ch : Nat) (w : Who) (d : Reg) (v : Word) : State :=
  let q := (s.coreOf root).channel ch
  (s.finish w 4 fun h => h.setX d v).orderIds w (q.done ++ q.cover)

/-- Every thread that waits on the channel goes on with a result that its phase gives. -/
def State.releaseWaiters (s : State) (root : CoreId) (ch : Nat) (r : Nat → Word) : State :=
  let phase := ((s.coreOf root).channel ch).phase
  (s.groupThreads root ch).foldl (fun s w => match (s.hartOf w).wait with
    | .barrier ch' p d => if ch' = ch then s.completeBarrier root ch w d (r p) else s
    | .barrierHeld ch' _ d => if ch' = ch then s.completeBarrier root ch w d (r phase) else s
    | _ => s) s

/-! ## barwr (R137) -/

/-- The status of a configuration; 0 when nothing stands against it. -/
def State.barwrStatus (s : State) (c : CoreId) (ch : Nat) (w : Word) : Nat :=
  let x := field w 0 6
  let y := field w 8 5
  let wm1 := field w 16 6
  let hm1 := field w 24 5
  if 63 < x + wm1 ∨ 31 < y + hm1 ∨ coreX c < x ∨ x + wm1 < coreX c ∨ coreY c < y ∨ y + hm1 < coreY c then 1
  else
    let cores := rectCores (coreDie c) w
    if cores.any fun m => (s.coreOf m).part != (s.coreOf c).part then 1
    else if cores.any fun m => ((s.coreOf m).channel ch).group.any fun g => g.2 != w then 2
    else 0

/-- Configures or removes the group, and releases every thread that waits on the channel. -/
def State.configure (s : State) (c : CoreId) (ch : Nat) (w : Word) (count limit : Nat) : State :=
  let root := coreAt (coreDie c) (field w 0 6) (field w 8 5)
  let s := s.releaseWaiters root ch fun p => barResult p true false
  let group := if count = 0 then .none else .some (coreDie c, w)
  (rectCores (coreDie c) w).foldl (fun s m =>
    let s := s.withCore m fun k => k.withChannel ch fun _ =>
      { group := group, count := count, limit := limit, arrived := 0, phase := 0, broken := false, firstAt := .none
        members := [], held := [], cover := [], done := [] }
    (List.range (s.coreOf m).threads).foldl (fun s i => s.withHart (.core m i) fun h =>
      { h with barwa := h.barwa.setIfInBounds ch .none }) s) s

/-- The channel that a register names. -/
def channelOf (x : Word) : Nat := x.toNat % 4

def execBarwr (d a : Reg) (s : State) : Host.Outcome State Fault Refusal :=
  s.issue .coreOnly fun s => do
    s.cur.needX d
    let x ← s.cur.getX a
    let c := s.cur.who.core'
    let w := s.cur.sys.barwRect &&& rectMask
    let st := s.barwrStatus c (channelOf x) w
    let s := if st = 0 then
        s.configure c (channelOf x) w (field s.cur.sys.barwCnt 0 16) (field s.cur.sys.barwTo 0 32) else s
    .ok { s with cur := (s.cur.setX d (BitVec.ofNat 64 st)).advance 4 }

/-! ## Arrivals (R137, R138) -/

/-- The V-cycles that the barrier timer of a root counts: those in which its partition's cores issue (R139). -/
def State.barCycles (s : State) (root : CoreId) : Nat := ((s.partOfCore root).map fun p => p.bTicks / 64).getD 0

/-- The thread's arrival counts into the current phase. -/
def State.countArrival (s : State) (root : CoreId) (ch : Nat) (w : Who) : State :=
  s.withCore root fun k => k.withChannel ch fun q =>
    { q with arrived := q.arrived + 1, members := w :: q.members, cover := s.coverOf w 0 ++ q.cover, firstAt := .some (q.firstAt.getD (s.barCycles root)) }

/-- The count of the current phase is met. -/
def Channel.met (q : Channel) : Bool := q.count ≤ q.arrived

/-- BARRIER_TIME_OUT: the count is not met within the limit; the group is broken, and event 3 is posted in every member. -/
def State.barrierTimeOut (s : State) (root : CoreId) (ch : Nat) : State :=
  let q := (s.coreOf root).channel ch
  match q.firstAt with
  | .none => s
  | .some t =>
    if q.group.isNone || s.rootOf root ch != .some root || q.broken || q.met || q.limit == 0 || s.barCycles root - t < q.limit
    then s
    else
      let s := s.releaseWaiters root ch fun p => barResult p true true
      let s := s.withCore root fun k => k.withChannel ch fun q =>
        { q with broken := true, held := [], arrived := 0, members := [], firstAt := .none, done := q.cover ++ q.done, cover := [] }
      (s.groupCores root ch).foldl (fun s m => s.postEvent m 3 ch) s

def execBarrierTimeOut (core ch : Nat) (s : State) : Host.Outcome State Fault Refusal := .next (s.barrierTimeOut core ch)

def Hart.setBarwa (h : Hart) (ch phase : Nat) : Hart := { h with barwa := h.barwa.setIfInBounds ch (.some phase) }

/-- An arrival at a channel; `goesOn` is `barwa`. Each arrival is a release, and what completes at once an acquire of what the channel covers
(R137). One that comes when the limit has passed finds the group broken (R139, R404). -/
def arrival (goesOn : Bool) (d a : Reg) (s : State) : Host.Outcome State Fault Refusal :=
  s.issue .coreOnly fun s => do
    s.cur.needX d
    let x ← s.cur.getX a
    let c := s.cur.who.core'
    let ch := channelOf x
    if !s.quiet s.cur.who 5 then .error (.wait .again)
    let s := s.markPerformed s.cur.who 5 s.stamps
    let result := fun (s : State) (cover : List Nat) (v : Word) =>
      ({ s with cur := (s.cur.setX d v).advance 4 } : State).orderIds s.cur.who cover
    match s.rootOf c ch with
    | .none => .ok (result s [] 2)
    | .some root =>
      let s := s.barrierTimeOut root ch
      let q := (s.coreOf root).channel ch
      if q.broken then .ok (result s q.done (barResult q.phase true false))
      else if q.met || q.members.contains s.cur.who then
        let s := s.withCore root fun k => k.withChannel ch fun q => { q with held := q.held ++ [s.cur.who] }
        .ok (s.waitFor (.barrierHeld ch goesOn d))
      else
        let s := s.countArrival root ch s.cur.who
        if goesOn then
          .ok (result { s with cur := s.cur.setBarwa ch q.phase } q.done (barResult q.phase false false))
        else .ok (s.waitFor (.barrier ch q.phase d))

def execBarw (d a : Reg) (s : State) : Host.Outcome State Fault Refusal := arrival false d a s
def execBarwa (d a : Reg) (s : State) : Host.Outcome State Fault Refusal := arrival true d a s

/-- `barww`: the release of the phase of the thread's latest `barwa`. On a channel that belongs to no group, where the rule gives a
result for arrivals only, it writes what an arrival does (DESIGN CHOICE, log 27). -/
def execBarww (d a : Reg) (s : State) : Host.Outcome State Fault Refusal :=
  s.issue .coreOnly fun s => do
    s.cur.needX d
    let x ← s.cur.getX a
    let c := s.cur.who.core'
    let ch := channelOf x
    let result := fun (cover : List Nat) (v : Word) =>
      ({ s with cur := (s.cur.setX d v).advance 4 } : State).orderIds s.cur.who cover
    match s.rootOf c ch with
    | .none => .ok (result [] 2)
    | .some root =>
      let q := (s.coreOf root).channel ch
      match s.cur.barwa.getD ch .none with
      | .none => .ok (result q.done (barResult q.phase q.broken false))
      | .some p =>
        if p ≠ q.phase ∨ q.broken then .ok (result q.done (barResult p q.broken (q.broken && p == q.phase)))
        else .ok (s.waitFor (.barrier ch p d))

/-! ## Release and time-out (R138, R139) -/

/-- A held arrival counts into the new phase, or is held again when that is met too. -/
def State.admitHeld (s : State) (root : CoreId) (ch : Nat) (w : Who) : State :=
  let q := (s.coreOf root).channel ch
  match (s.hartOf w).wait with
  | .barrierHeld _ goesOn d =>
    if q.met then s.withCore root fun k => k.withChannel ch fun q => { q with held := q.held ++ [w] }
    else
      let s := s.countArrival root ch w
      if goesOn then
        (s.finish w 4 fun h => (h.setBarwa ch q.phase).setX d (barResult q.phase false false)).orderIds w q.done
      else s.withHart w fun h => { h with wait := .barrier ch q.phase d }
  | _ => s

/-- BARRIER_RELEASE: the count of the phase of a root's group is met, and the release reaches every member. -/
def State.barrierRelease (s : State) (root : CoreId) (ch : Nat) : State :=
  let q := (s.coreOf root).channel ch
  if q.group.isNone || s.rootOf root ch != .some root || q.broken || !q.met then s
  else
    let s := (s.groupThreads root ch).foldl (fun s w => match (s.hartOf w).wait with
      | .barrier ch' p d => if ch' = ch ∧ p = q.phase then s.completeBarrier root ch w d (barResult p false false) else s
      | _ => s) s
    let s := s.withCore root fun k => k.withChannel ch fun q =>
      { q with
        phase := (q.phase + 1) % 2 ^ 32, arrived := 0, members := [], held := [], firstAt := .none, cover := []
        done := (q.cover ++ q.done).filter fun n => s.past.any fun e => e.id == n }
    q.held.foldl (fun s w => s.admitHeld root ch w) s

def execBarrierRelease (core ch : Nat) (s : State) : Host.Outcome State Fault Refusal := .next (s.barrierRelease core ch)

end Sys2Proof.Machine
end

