-- ==== Sys2Proof/Machine/Messages.lean ====
section
/-! DEFINITION. Messages between cores and queue registers: primary 0x29 (R124 to R135). -/

namespace Sys2Proof.Machine

open Sys2Proof

/-! ## send (R125 to R128) -/

/-- Writes the status of a form that does not wait. -/
def Hart.setStatusOf (h : Hart) (nb : Option Reg) (v : Word) : Hart :=
  match nb with
  | .some d => h.setX d v
  | .none => h

/-- The queue of a receive port: q1 or q2. -/
def portQueue (port : Bool) : Nat := if port then 2 else 1

/-- The stream that holds a port. -/
def Core.holder (k : Core) (port : Bool) : Option Who := k.holders[port.toNat]'(by cases port <;> decide)

def Core.setHolder (k : Core) (port : Bool) (w : Option Who) : Core :=
  { k with holders := k.holders.setIfInBounds port.toNat w }

/-- The send time-out of the thread, in V-cycles; 0 for none (R127). -/
def Hart.sendLimit (h : Hart) : Nat := h.sys.sendto.toNat % 2 ^ 32

def sendTimeOut (target : Word) : Trap := { cause := .sendTimeOut, tval := target }

/-- A word of a core sets out: it is counted once, also where it is refused and sent again (R321, R372; DESIGN CHOICE, log 51). -/
def State.countSent (s : State) (c : CoreId) : State :=
  (s.withCore c fun k => { k with sentWords := k.sentWords + 1 }).count (s.ctxNoOf c) c 2 3 1

def execSend (d a b : Reg) (port nb : Bool) (s : State) : Host.Outcome State Fault Refusal :=
  s.issue .coreOnly fun s => do
    s.cur.needX d
    let x ← s.cur.getX a
    let (lo, hi) ← s.cur.getPair b
    let c := s.cur.who.core'
    match ← s.targetCore c x false with
    | .none => .error (trapOf .target x)
    | .some t =>
      let e : Sending :=
        { slot := s.cur.who.slot', target := t, port := port, word := hi ++ lo, nb := if nb then .some d else .none
          started := s.vCycles c, retryAt := 0, cover := s.fenceCover s.cur.who }
      .ok (((s.countSent c).withCore c fun k => { k with sending := k.sending ++ [e] }).waitFor .outcome)

/-- The waiting `send` of a slot. -/
def Core.sendOf (k : Core) (slot : Nat) : Option Sending := k.sending.find? fun e => e.slot == slot

def Core.dropSend (k : Core) (slot : Nat) : Core := { k with sending := k.sending.filter fun e => e.slot != slot }

/-- The word that enters a queue next carries what it covers (R135). -/
def Core.carry (k : Core) (q : Nat) (cover : Cover) : Core :=
  if cover = [] then k else { k with carried := k.carried ++ [(q, k.entered.getD q 0, cover)] }

/-- A word enters a receive port. -/
def State.enterPort (s : State) (c : CoreId) (port : Bool) (w : Vec) (cover : Cover) : State :=
  let s := (s.withCore c fun k => { k with recvWords := k.recvWords + 1 }).count (s.ctxNoOf c) c 2 4 1
  ((s.withCore c fun k => k.carry (portQueue port) cover).markCover cover).arrive c (portQueue port) w

/-- Entries of a port that are kept for words which gangs have still to commit (R105). -/
def State.kept (s : State) (t : CoreId) (port : Bool) : Nat :=
  (s.cores.map fun k => (k.sending.filter fun e => e.accepted && e.target == t && e.port == port).length).sum

/-- A port has a free entry. -/
def State.portRoom (s : State) (t : CoreId) (port : Bool) : Bool :=
  ((s.coreOf t).queue (portQueue port)).length + s.kept t port < 8

/-- A port accepts a `send`: it has a free entry and no stream holds it. -/
def State.accepts (s : State) (t : CoreId) (port : Bool) : Bool := s.portRoom t port && ((s.coreOf t).holder port).isNone

/-- Ends a `send` with the status of its `.nb` form. -/
def State.endSend (s : State) (c : CoreId) (e : Sending) (status : Word) : State :=
  let w := Who.core c e.slot
  let d := e.nb.elim .nowhere (s.hartOf w).destX
  (s.withCore c fun k => k.dropSend e.slot).land w 4 d fun h => h.setStatusOf e.nb status

/-- Changes the `send` of a slot. -/
def Core.withSend (k : Core) (slot : Nat) (f : Sending → Sending) : Core :=
  { k with sending := k.sending.map fun q => if q.slot = slot then f q else q }

/-- A word enters its port, and its `send` ends. -/
def State.deliverSend (s : State) (c : CoreId) (e : Sending) : State := (s.enterPort e.target e.port e.word e.cover).endSend c e 0

/-- In a gang the words enter their ports once every member's is accepted, or its form that does not wait has been refused (R105). -/
def State.commitSends (s : State) (c : CoreId) (slot : Nat) : State :=
  let ms := s.gangOf c
  if ms.any fun m => ((s.coreOf m).sendOf slot).any fun e => !e.accepted then s
  else ms.foldl (fun s m => match (s.coreOf m).sendOf slot with
    | .none => s
    | .some e => s.deliverSend m e) s

/-- SEND_DELIVERY: the flit of a slot's `send` reaches its port, and the outcome returns. -/
def State.sendDelivery (s : State) (c : CoreId) (slot : Nat) : State :=
  match (s.coreOf c).sendOf slot with
  | .none => s
  | .some e =>
    if e.retryAt ≠ 0 ∨ e.accepted then s
    else if s.accepts e.target e.port then
      if (s.coreOf c).ganged then (s.withCore c fun k => k.withSend slot fun q => { q with accepted := true }).commitSends c slot
      else s.deliverSend c e
    else if e.nb.isSome then (if (s.coreOf c).ganged then (s.endSend c e 1).commitSends c slot else s.endSend c e 1)
    else s.withCore c fun k => k.withSend slot fun q => { q with retryAt := s.nCycles (coreDie c) + 16 }

def execSendDelivery (core slot : Nat) (s : State) : Host.Outcome State Fault Refusal := .next (s.sendDelivery core slot)

/-- The limit of a `send` has passed. -/
def State.sendExpired (s : State) (c : CoreId) (e : Sending) : Bool :=
  let l := (s.hartOf (.core c e.slot)).sendLimit
  l != 0 && l ≤ s.vCycles c - e.started

/-- A refused `send` has waited its 16 N-cycles. -/
def State.sendDue (s : State) (c : CoreId) (e : Sending) : Bool := e.retryAt != 0 && e.retryAt ≤ s.nCycles (coreDie c)

/-- SEND_RETRY: a refused word is sent again. -/
def State.sendRetry (s : State) (c : CoreId) (slot : Nat) : State :=
  match (s.coreOf c).sendOf slot with
  | .none => s
  | .some e =>
    if s.sendDue c e && !s.sendExpired c e then
      s.withCore c fun k => k.withSend slot fun q => { q with retryAt := 0 }
    else s

def execSendRetry (core slot : Nat) (s : State) : Host.Outcome State Fault Refusal := .next (s.sendRetry core slot)

/-- SEND_TIME_OUT: a blocking `send`, or a put that waits for its stream, has waited past the limit. -/
def State.sendTimesOut (s : State) (c : CoreId) (slot : Nat) : State :=
  let w := Who.core c slot
  let h := s.hartOf w
  if h.life ≠ .live then s
  else match (s.coreOf c).sendOf slot with
    | .some e =>
      if s.sendDue c e && s.sendExpired c e then
        (s.withCore c fun k => k.dropSend slot).trapThread w (sendTimeOut (BitVec.ofNat 64 (s.designation e.target)))
      else s
    | .none =>
      match h.wait, h.stream, h.since with
      | .put, .some st, .some t =>
        if h.sendLimit ≠ 0 ∧ h.sendLimit ≤ s.vCycles c - t then
          s.trapThread w (sendTimeOut (BitVec.ofNat 64 (s.designation st.target)))
        else s
      | _, _, _ => s

def execSendTimeOut (core slot : Nat) (s : State) : Host.Outcome State Fault Refusal := .next (s.sendTimesOut core slot)

/-! ## Streams (R129) -/

/-- The links of one dimension of a route (R124): where each starts, and its kind: 0 up by one, 1 down by one, 2 up by four,
3 down by four. -/
def routeDim : Nat → Nat → Nat → List (Nat × Nat)
  | 0, _, _ => []
  | fuel + 1, p, q =>
    if p = q then []
    else if p < q then
      if 4 ≤ q - p then (p, 2) :: routeDim fuel (p + 4) q else (p, 0) :: routeDim fuel (p + 1) q
    else
      if 4 ≤ p - q then (p, 3) :: routeDim fuel (p - 4) q else (p, 1) :: routeDim fuel (p - 1) q

/-- The links of a route on one die, along x and then along y: router and direction. -/
def route (c t : CoreId) : List (CoreId × Nat) :=
  ((routeDim 64 (coreX c) (coreX t)).map fun (x, d) => (coreAt (coreDie c) x (coreY c), d)) ++
  ((routeDim 32 (coreY c) (coreY t)).map fun (y, d) => (coreAt (coreDie c) (coreX t) y, 4 + d))

/-- How many streams have claimed a channel of a link, and their markers have not released it; those of a partition on its way out have
lost their claims (R322). -/
def State.linkUse (s : State) (l : CoreId × Nat) : Nat :=
  ((s.cores.filter fun k => !(k.part.bind s.partOf?).any fun p => p.state == .saving).map fun k =>
    (k.flows.filter fun f => (((route k.id f.target).take f.links).drop f.freed).contains l).length).sum

/-- A stream of a slot, behind some flows of its core, can claim a port: none holds it, or itself does since its partition came back
(R323); an earlier stream of the thread to the port is over. -/
def State.portOpen (s : State) (c : CoreId) (slot : Nat) (before : List Flow) (t : CoreId) (port : Bool) : Bool :=
  ((s.coreOf t).holder port).all (fun o => o == .core c slot) &&
  !before.any fun f => f.slot == slot && f.target == t && f.port == port

/-- A header flit that has claimed some links of its route can claim the others at once, and the port. -/
def State.routeFree (s : State) (c : CoreId) (slot : Nat) (st : Stream) (links : Nat) : Bool :=
  s.portOpen c slot ((s.coreOf c).flows.filter (·.closing)) st.target st.port && ((route c st.target).drop links).all fun l => s.linkUse l < 2

/-- The links that the header of a slot's open stream has claimed. -/
def Core.claimed (k : Core) (slot : Nat) : Nat := ((k.openFlow slot).map (·.links)).getD 0

/-- The header flit of a slot's stream sets out, unless it has. -/
def State.sendHeader (s : State) (c : CoreId) (slot : Nat) (st : Stream) : State :=
  if ((s.coreOf c).openFlow slot).isSome then s
  else s.withCore c fun k => { k with flows := k.flows ++ [{ slot := slot, target := st.target, port := st.port }] }

/-- The header flit of a flow takes the port, at the end of its route. -/
def State.takePort (s : State) (c : CoreId) (slot : Nat) (st : Stream) : State :=
  let s := s.withCore c fun k => k.withFlow slot fun f => { f with links := (route c st.target).length, arrived := true }
  let s := s.withCore st.target fun k => k.setHolder st.port (.some (.core c slot))
  s.withHart (.core c slot) fun h => { h with stream := .some { st with claimed := true, unrouted := false } }

def execSopen (a : Reg) (port : Bool) (s : State) : Host.Outcome State Fault Refusal :=
  s.issue .coreOnly fun s => do
    let x ← s.cur.getX a
    let c := s.cur.who.core'
    match ← s.targetCore c x false with
    | .none => .error (trapOf .target x)
    | .some t =>
      if coreDie t ≠ coreDie c then .error (trapOf .target x)
      else if s.cur.stream.isSome then .error (trapOf .streamState 1)
      else if 2 ≤ ((List.range (s.coreOf c).threads).filter fun i => (s.hartOf (.core c i)).stream.isSome).length then
        .error (.wait .again)
      else .ok { s with cur := ({ s.cur with stream := .some ⟨t, port, false, false⟩ } : Hart).advance 4 }

/-- The thread waits for its stream, from now on if it has not waited before. -/
def State.waitPut (s : State) : State :=
  let t := s.cur.since.getD (s.vCycles s.cur.who.core')
  ({ s with cur := { s.cur with since := .some t } } : State).waitFor .put

/-- The next word of a claimed stream leaves the core. -/
def State.putWord (s : State) (w : Vec) : State :=
  (s.countSent s.cur.who.core').withCore s.cur.who.core' fun k =>
    k.withFlow s.cur.who.slot' fun f => { f with words := f.words ++ [(w, s.fenceCover s.cur.who)] }

/-- One word of the thread's stream; `nb` is the destination of the form that does not wait. A first word is preceded by
the header. -/
def State.put (s : State) (w : Vec) (nb : Option Reg) : Except Exc State :=
  let c := s.cur.who.core'
  let slot := s.cur.who.slot'
  let status := fun (s : State) (v : Word) => ({ s with cur := (s.cur.setStatusOf nb v).advance 4 } : State)
  match s.cur.stream with
  | .none => .error (trapOf .streamState 2)
  | .some st =>
    let ready := st.claimed && !st.unrouted
    if !ready && nb.isNone then .ok (s.sendHeader c slot st).waitPut
    else if !ready && !s.routeFree c slot st ((s.coreOf c).claimed slot) then .ok (status s 1)
    else
      let s := if ready then s else (s.sendHeader c slot st).takePort c slot st
      if ((s.coreOf c).openFlow slot).any (·.room) then .ok (status (s.putWord w) 0)
      else if nb.isSome then .ok (status s 1)
      else .ok s.waitPut

def execSput (d a : Reg) (nb : Bool) (s : State) : Host.Outcome State Fault Refusal :=
  s.issue .coreOnly fun s => do
    s.cur.needX d
    let (lo, hi) ← s.cur.getPair a
    s.put (hi ++ lo) (if nb then .some d else .none)

def execSclose (s : State) : Host.Outcome State Fault Refusal :=
  s.issue .coreOnly fun s =>
    if s.cur.stream.isNone then .error (trapOf .streamState 2)
    else match s.closeStream with
      | .none => .error (.wait .again)
      | .some s => .ok { s with cur := s.cur.advance 4 }

/-- The thread waits for its stream. -/
def Hart.waitsPut (h : Hart) : Bool := h.life == .live && h.wait == .put

/-- A thread that waits for its stream executes its put again. -/
def State.wakePut (s : State) (c : CoreId) (slot : Nat) : State :=
  s.withHart (.core c slot) fun h => if h.waitsPut then { h with wait := .none } else h

/-- STREAM_HEADER: the header flit of a slot's stream claims a channel of the next link of its route, and after the last one the port;
a put that waits for it goes on. -/
def State.streamHeader (s : State) (c : CoreId) (slot : Nat) : State :=
  match (s.coreOf c).flows.findIdx? fun f => f.slot == slot && !f.arrived with
  | .none => s
  | .some i =>
    match (s.coreOf c).flows[i]? with
    | .none => s
    | .some f =>
      let set := fun (s : State) (g : Flow → Flow) => s.withCore c fun k => { k with flows := updateAt k.flows i g }
      match (route c f.target)[f.links]? with
      | .some l => if s.linkUse l < 2 then set s fun f => { f with links := f.links + 1 } else s
      | .none =>
        if !s.portOpen c slot ((s.coreOf c).flows.take i) f.target f.port then s
        else
          let s := set s fun f => { f with arrived := true }
          let s := s.withCore f.target fun k => k.setHolder f.port (.some (.core c slot))
          if f.closing then s
          else (s.withHart (.core c slot) fun h => { h with stream := h.stream.map fun st =>
            { st with claimed := true, unrouted := false } }).wakePut c slot

def execStreamHeader (core slot : Nat) (s : State) : Host.Outcome State Fault Refusal := .next (s.streamHeader core slot)

/-- STREAM_WORD: the oldest word on route `k` of a core enters the port, when it has room. -/
def State.streamWord (s : State) (c : CoreId) (k : Nat) : State :=
  match (s.coreOf c).flows[k]? with
  | .none => s
  | .some f =>
    match f.words with
    | [] => s
    | (w, cover) :: rest =>
      if !f.arrived || !s.portRoom f.target f.port then s
      else
        let s := s.withCore c fun q => { q with flows := updateAt q.flows k fun f => { f with words := rest } }
        let s := s.enterPort f.target f.port w cover
        if f.closing then s else s.wakePut c f.slot

def execStreamWord (core k : Nat) (s : State) : Host.Outcome State Fault Refusal := .next (s.streamWord core k)

/-- STREAM_CLOSE_MARKER: the marker follows the last word: it releases one channel after the other as it passes, and the port when it
arrives. -/
def State.streamClose (s : State) (c : CoreId) (k : Nat) : State :=
  match (s.coreOf c).flows[k]? with
  | .none => s
  | .some f =>
    if !f.closing || !f.arrived then s
    else if f.freed + f.words.length < f.links then
      s.withCore c fun q => { q with flows := updateAt q.flows k fun f => { f with freed := f.freed + 1 } }
    else if !f.words.isEmpty then s
    else (s.withCore c fun q => { q with flows := q.flows.eraseIdx k }).withCore f.target fun q => q.setHolder f.port .none

def execStreamCloseMarker (core k : Nat) (s : State) : Host.Outcome State Fault Refusal := .next (s.streamClose core k)

/-! ## Popping and probing (R130, R131) -/

/-- Pops for a destination, or waits for an entry. -/
def State.pop (s : State) (q : Nat) (d : Dest) (len : Nat) : Except Exc State :=
  let c := s.cur.who.core'
  match (s.coreOf c).popFor q d with
  | .none => .error (.wait (.queue q d))
  | .some (v, k) => let s := (s.hearHead c s.cur.who.slot' q).setCore (k.forgetCarried q); .ok { s with cur := (s.cur.fillPop d v).advance len }

def popTo (d : Reg) (q : BitVec 2) (len : Nat) (s : State) : Host.Outcome State Fault Refusal :=
  s.issue .coreOnly fun s => do
    s.cur.needX d
    s.pop q.toNat (s.cur.destX d) len

def execQpop (d : Reg) (q : BitVec 2) (s : State) : Host.Outcome State Fault Refusal := popTo d q 4 s

/-- A stream holds the queue as its port. -/
def Core.held (k : Core) (q : Nat) : Bool :=
  match q with
  | 1 => (k.holder false).isSome
  | 2 => (k.holder true).isSome
  | _ => false

/-- What `qprobe` reads of a queue. -/
def Core.probe (k : Core) (q : Nat) : Word :=
  BitVec.ofNat 64 ((k.queue q).length % 256 + (k.half q).toNat * 256 + (k.held q).toNat * 512)

def execQprobe (d : Reg) (q : BitVec 2) (s : State) : Host.Outcome State Fault Refusal :=
  s.issue .coreOnly fun s => do
    s.cur.needX d
    .ok { s with cur := (s.cur.setX d ((s.coreOf s.cur.who.core').probe q.toNat)).advance 4 }

end Sys2Proof.Machine
end

