-- ==== Sys2Proof/Machine/Scalar.lean ====
section
/-! DEFINITION. Scalar arithmetic: primaries 0x01 to 0x0A (R86 to R91). -/

namespace Sys2Proof.Machine

open Sys2Proof

/-! ## The results of R87, in any width -/

def aluAdd (n : Nat) (x y : BitVec n) : BitVec n := x + y
def aluSub (n : Nat) (x y : BitVec n) : BitVec n := x - y
def aluAnd (n : Nat) (x y : BitVec n) : BitVec n := x &&& y
def aluOr (n : Nat) (x y : BitVec n) : BitVec n := x ||| y
def aluXor (n : Nat) (x y : BitVec n) : BitVec n := x ^^^ y
def aluAndn (n : Nat) (x y : BitVec n) : BitVec n := x &&& ~~~y
def aluSll (n : Nat) (x y : BitVec n) : BitVec n := x <<< (y.toNat % n)
def aluSrl (n : Nat) (x y : BitVec n) : BitVec n := x >>> (y.toNat % n)
def aluSra (n : Nat) (x y : BitVec n) : BitVec n := x.sshiftRight (y.toNat % n)
def aluRol (n : Nat) (x y : BitVec n) : BitVec n := x.rotateLeft (y.toNat % n)
def aluRor (n : Nat) (x y : BitVec n) : BitVec n := x.rotateRight (y.toNat % n)
def aluSlt (n : Nat) (x y : BitVec n) : BitVec n := if x.slt y then 1 else 0
def aluSltu (n : Nat) (x y : BitVec n) : BitVec n := if x.ult y then 1 else 0
def aluMin (n : Nat) (x y : BitVec n) : BitVec n := if x.slt y then x else y
def aluMax (n : Nat) (x y : BitVec n) : BitVec n := if x.slt y then y else x
def aluMinu (n : Nat) (x y : BitVec n) : BitVec n := if x.ult y then x else y
def aluMaxu (n : Nat) (x y : BitVec n) : BitVec n := if x.ult y then y else x
def aluMul (n : Nat) (x y : BitVec n) : BitVec n := x * y
def aluMulh (n : Nat) (x y : BitVec n) : BitVec n := ((x.signExtend (2 * n)) * (y.signExtend (2 * n))).extractLsb' n n
def aluMulhu (n : Nat) (x y : BitVec n) : BitVec n := ((x.setWidth (2 * n)) * (y.setWidth (2 * n))).extractLsb' n n
def aluMulhsu (n : Nat) (x y : BitVec n) : BitVec n := ((x.signExtend (2 * n)) * (y.setWidth (2 * n))).extractLsb' n n
def aluDiv (n : Nat) (x y : BitVec n) : BitVec n := if y = 0 then BitVec.allOnes n else x.sdiv y
def aluDivu (n : Nat) (x y : BitVec n) : BitVec n := if y = 0 then BitVec.allOnes n else x / y
def aluRem (n : Nat) (x y : BitVec n) : BitVec n := if y = 0 then x else x.srem y
def aluRemu (n : Nat) (x y : BitVec n) : BitVec n := if y = 0 then x else x % y

/-- Number of leading zero bits; n for 0. -/
def aluClz (n : Nat) (x : BitVec n) : BitVec n := if x = 0 then BitVec.ofNat n n else BitVec.ofNat n (n - 1 - x.toNat.log2)

/-- Number of trailing zero bits; n for 0. -/
def aluCtz (n : Nat) (x : BitVec n) : BitVec n := if x = 0 then BitVec.ofNat n n else BitVec.ofNat n (x &&& -x).toNat.log2

/-- Number of 1 bits. -/
def aluPopc (n : Nat) (x : BitVec n) : BitVec n := BitVec.ofNat n ((List.range n).countP fun i => x.getLsbD i)

/-- The bytes of a number in reverse order. -/
def swapBytes : Nat → Nat → Nat
  | 0, _ => 0
  | k + 1, v => v % 256 * 256 ^ k + swapBytes k (v / 256)

def aluBswap (n : Nat) (x : BitVec n) : BitVec n := BitVec.ofNat n (swapBytes (n / 8) x.toNat)

/-! ## Shared shapes -/

/-- A two-source operation: d, a and b have to be full (R86), then the result is written and the thread moves on. -/
def aluThree (f : (n : Nat) → BitVec n → BitVec n → BitVec n) (d a b : Reg) (w : Bool) (len : Nat) (s : State) :
    Host.Outcome State Fault Refusal :=
  s.issueHart .both fun h => do
    h.needX d
    let x ← h.getX a
    let y ← h.getX b
    .ok ((h.setX d (inWidth w f x y)).advance len)

/-- A one-source operation. -/
def aluTwo (f : (n : Nat) → BitVec n → BitVec n) (d a : Reg) (w : Bool) (s : State) :
    Host.Outcome State Fault Refusal :=
  s.issueHart .both fun h => do
    h.needX d
    let x ← h.getX a
    .ok ((h.setX d (inWidth w (fun n u _ => f n u) x 0)).advance 4)

/-- An operation with an immediate already extended to 64 bits. -/
def aluImm (f : Word → Word → Word) (d a : Reg) (imm : Word) (len : Nat) (s : State) :
    Host.Outcome State Fault Refusal :=
  s.issueHart .both fun h => do
    h.needX d
    let x ← h.getX a
    .ok ((h.setX d (f x imm)).advance len)

/-- A shift by a constant (R90): the operation of R87 with that amount. -/
def aluShift (f : (n : Nat) → BitVec n → BitVec n → BitVec n) (d a : Reg) (sh : BitVec 6) (w : Bool) (len : Nat)
    (s : State) : Host.Outcome State Fault Refusal :=
  aluImm (inWidth w f) d a (sh.setWidth 64) len s

/-! ## The meanings -/

def execAdd (d a b : Reg) (w : Bool) (s : State) : Host.Outcome State Fault Refusal := aluThree aluAdd d a b w 4 s
def execSub (d a b : Reg) (w : Bool) (s : State) : Host.Outcome State Fault Refusal := aluThree aluSub d a b w 4 s
def execAnd (d a b : Reg) (w : Bool) (s : State) : Host.Outcome State Fault Refusal := aluThree aluAnd d a b w 4 s
def execOr (d a b : Reg) (w : Bool) (s : State) : Host.Outcome State Fault Refusal := aluThree aluOr d a b w 4 s
def execXor (d a b : Reg) (w : Bool) (s : State) : Host.Outcome State Fault Refusal := aluThree aluXor d a b w 4 s
def execAndn (d a b : Reg) (w : Bool) (s : State) : Host.Outcome State Fault Refusal := aluThree aluAndn d a b w 4 s
def execSll (d a b : Reg) (w : Bool) (s : State) : Host.Outcome State Fault Refusal := aluThree aluSll d a b w 4 s
def execSrl (d a b : Reg) (w : Bool) (s : State) : Host.Outcome State Fault Refusal := aluThree aluSrl d a b w 4 s
def execSra (d a b : Reg) (w : Bool) (s : State) : Host.Outcome State Fault Refusal := aluThree aluSra d a b w 4 s
def execRol (d a b : Reg) (w : Bool) (s : State) : Host.Outcome State Fault Refusal := aluThree aluRol d a b w 4 s
def execRor (d a b : Reg) (w : Bool) (s : State) : Host.Outcome State Fault Refusal := aluThree aluRor d a b w 4 s
def execSlt (d a b : Reg) (w : Bool) (s : State) : Host.Outcome State Fault Refusal := aluThree aluSlt d a b w 4 s
def execSltu (d a b : Reg) (w : Bool) (s : State) : Host.Outcome State Fault Refusal := aluThree aluSltu d a b w 4 s
def execMin (d a b : Reg) (w : Bool) (s : State) : Host.Outcome State Fault Refusal := aluThree aluMin d a b w 4 s
def execMax (d a b : Reg) (w : Bool) (s : State) : Host.Outcome State Fault Refusal := aluThree aluMax d a b w 4 s
def execMinu (d a b : Reg) (w : Bool) (s : State) : Host.Outcome State Fault Refusal := aluThree aluMinu d a b w 4 s
def execMaxu (d a b : Reg) (w : Bool) (s : State) : Host.Outcome State Fault Refusal := aluThree aluMaxu d a b w 4 s
def execMul (d a b : Reg) (w : Bool) (s : State) : Host.Outcome State Fault Refusal := aluThree aluMul d a b w 4 s
def execMulh (d a b : Reg) (w : Bool) (s : State) : Host.Outcome State Fault Refusal := aluThree aluMulh d a b w 4 s
def execMulhu (d a b : Reg) (w : Bool) (s : State) : Host.Outcome State Fault Refusal := aluThree aluMulhu d a b w 4 s
def execMulhsu (d a b : Reg) (w : Bool) (s : State) : Host.Outcome State Fault Refusal := aluThree aluMulhsu d a b w 4 s
def execDiv (d a b : Reg) (w : Bool) (s : State) : Host.Outcome State Fault Refusal := aluThree aluDiv d a b w 4 s
def execDivu (d a b : Reg) (w : Bool) (s : State) : Host.Outcome State Fault Refusal := aluThree aluDivu d a b w 4 s
def execRem (d a b : Reg) (w : Bool) (s : State) : Host.Outcome State Fault Refusal := aluThree aluRem d a b w 4 s
def execRemu (d a b : Reg) (w : Bool) (s : State) : Host.Outcome State Fault Refusal := aluThree aluRemu d a b w 4 s

/-- `sel` reads d as a source: A when all 64 bits of x[d] are not 0, else B. -/
def execSel (d a b : Reg) (w : Bool) (s : State) : Host.Outcome State Fault Refusal :=
  s.issueHart .both fun h => do
    let c ← h.getX d
    let x ← h.getX a
    let y ← h.getX b
    .ok ((h.setX d (inWidth w (fun _ u v => if c = 0 then v else u) x y)).advance 4)

def execClz (d a : Reg) (w : Bool) (s : State) : Host.Outcome State Fault Refusal := aluTwo aluClz d a w s
def execCtz (d a : Reg) (w : Bool) (s : State) : Host.Outcome State Fault Refusal := aluTwo aluCtz d a w s
def execPopc (d a : Reg) (w : Bool) (s : State) : Host.Outcome State Fault Refusal := aluTwo aluPopc d a w s
def execBswap (d a : Reg) (w : Bool) (s : State) : Host.Outcome State Fault Refusal := aluTwo aluBswap d a w s

def execAddi (d a : Reg) (imm : BitVec 14) (s : State) : Host.Outcome State Fault Refusal := aluImm (aluAdd 64) d a (imm.signExtend 64) 4 s
def execAndi (d a : Reg) (imm : BitVec 14) (s : State) : Host.Outcome State Fault Refusal := aluImm (aluAnd 64) d a (imm.signExtend 64) 4 s
def execOri (d a : Reg) (imm : BitVec 14) (s : State) : Host.Outcome State Fault Refusal := aluImm (aluOr 64) d a (imm.signExtend 64) 4 s
def execXori (d a : Reg) (imm : BitVec 14) (s : State) : Host.Outcome State Fault Refusal := aluImm (aluXor 64) d a (imm.signExtend 64) 4 s
def execSlti (d a : Reg) (imm : BitVec 14) (s : State) : Host.Outcome State Fault Refusal := aluImm (aluSlt 64) d a (imm.signExtend 64) 4 s
def execSltui (d a : Reg) (imm : BitVec 14) (s : State) : Host.Outcome State Fault Refusal := aluImm (aluSltu 64) d a (imm.signExtend 64) 4 s
def execSlli (d a : Reg) (sh : BitVec 6) (w : Bool) (s : State) : Host.Outcome State Fault Refusal := aluShift aluSll d a sh w 4 s
def execSrli (d a : Reg) (sh : BitVec 6) (w : Bool) (s : State) : Host.Outcome State Fault Refusal := aluShift aluSrl d a sh w 4 s
def execSrai (d a : Reg) (sh : BitVec 6) (w : Bool) (s : State) : Host.Outcome State Fault Refusal := aluShift aluSra d a sh w 4 s
def execRori (d a : Reg) (sh : BitVec 6) (w : Bool) (s : State) : Host.Outcome State Fault Refusal := aluShift aluRor d a sh w 4 s

def execLdhi (d : Reg) (imm : BitVec 19) (s : State) : Host.Outcome State Fault Refusal :=
  s.issueHart .both fun h => do
    h.needX d
    .ok ((h.setX d (upper imm)).advance 4)

def execPcaddhi (d : Reg) (imm : BitVec 19) (s : State) : Host.Outcome State Fault Refusal :=
  s.issueHart .both fun h => do
    h.needX d
    .ok ((h.setX d (h.pc + upper imm)).advance 4)

end Sys2Proof.Machine
end

