-- ==== Sys2Proof/Machine/Compact.lean ====
section
/-! DEFINITION. The compact forms (R37, R38): each has the effect of its expansion, with a length of 2. -/

namespace Sys2Proof.Machine

open Sys2Proof

def execCAddi (d : BitVec 4) (imm : BitVec 7) (s : State) : Host.Outcome State Fault Refusal :=
  aluImm (aluAdd 64) (wideReg d) (wideReg d) (imm.signExtend 64) 2 s
def execCAdd (d a : BitVec 4) (s : State) : Host.Outcome State Fault Refusal :=
  aluThree aluAdd (wideReg d) (wideReg d) (wideReg a) false 2 s
def execCSub (d a : BitVec 4) (s : State) : Host.Outcome State Fault Refusal :=
  aluThree aluSub (wideReg d) (wideReg d) (wideReg a) false 2 s
def execCMov (d a : BitVec 4) (s : State) : Host.Outcome State Fault Refusal :=
  aluImm (aluAdd 64) (wideReg d) (wideReg a) 0 2 s
def execCLi (d : BitVec 4) (imm : BitVec 7) (s : State) : Host.Outcome State Fault Refusal :=
  aluImm (aluAdd 64) (wideReg d) 0 (imm.signExtend 64) 2 s
def execCSlli (d : BitVec 4) (sh : BitVec 6) (s : State) : Host.Outcome State Fault Refusal :=
  aluShift aluSll (wideReg d) (wideReg d) sh false 2 s
def execCAnd (d a : BitVec 4) (s : State) : Host.Outcome State Fault Refusal :=
  aluThree aluAnd (wideReg d) (wideReg d) (wideReg a) false 2 s
def execCLdD (d a : BitVec 4) (off : BitVec 3) (s : State) : Host.Outcome State Fault Refusal :=
  loadScalar 8 true (wideReg d) (wideReg a) (off.setWidth 64 * 8) 2 s
def execCStD (b a : BitVec 4) (off : BitVec 3) (s : State) : Host.Outcome State Fault Refusal :=
  storeScalar 8 (wideReg b) (wideReg a) (off.setWidth 64 * 8) 2 s
def execCBeqz (a : BitVec 4) (off : BitVec 7) (s : State) : Host.Outcome State Fault Refusal :=
  branch (fun x y => x == y) (wideReg a) 0 (off.signExtend 64) 2 s
def execCBnez (a : BitVec 4) (off : BitVec 7) (s : State) : Host.Outcome State Fault Refusal :=
  branch (fun x y => x != y) (wideReg a) 0 (off.signExtend 64) 2 s
def execCJ (off : BitVec 11) (s : State) : Host.Outcome State Fault Refusal := jumpTo 0 (off.signExtend 64) 2 s
def execCJr (a : BitVec 4) (s : State) : Host.Outcome State Fault Refusal := jumpReg 0 (wideReg a) 0 2 s
def execCNop (s : State) : Host.Outcome State Fault Refusal := aluImm (aluAdd 64) 0 0 0 2 s
def execCQpop (d : BitVec 4) (q : BitVec 2) (s : State) : Host.Outcome State Fault Refusal := popTo (wideReg d) q 2 s

end Sys2Proof.Machine
end

