-- ==== Sys2Proof/Machine/Cipher.lean ====
section
/-! DEFINITION. AES-256-GCM, under which the granules of a context image are encrypted and authenticated (R329). -/

namespace Sys2Proof.Machine

open Sys2Proof

/-! ## AES-256 -/

/-- Multiplication by x in the field of AES. -/
def aesTwice (b : Byte) : Byte := (b <<< 1) ^^^ (if b.msb then 0x1b else 0)

/-- Multiplication, bit by bit of the first factor from its lowest on. -/
def aesTimes (a : Byte) : Nat → Byte → Byte
  | 0, _ => 0
  | n + 1, b => (if a.getLsbD (7 - n) then b else 0) ^^^ aesTimes a n (aesTwice b)

def aesMul (a b : Byte) : Byte := aesTimes a 8 b

/-- Products of the squares of an element from its second power on: after seven of them its inverse, and 0 of 0. -/
def aesInverse : Nat → Byte → Byte → Byte
  | 0, _, p => p
  | n + 1, b, p => let q := aesMul b b; aesInverse n q (aesMul p q)

/-- The substitution of a byte. -/
def aesSub (b : Byte) : Byte :=
  let v := aesInverse 7 b 1
  v ^^^ v.rotateLeft 1 ^^^ v.rotateLeft 2 ^^^ v.rotateLeft 3 ^^^ v.rotateLeft 4 ^^^ 0x63

/-- Bytes combined bit by bit. -/
def xorBytes (a b : List Byte) : List Byte := a.zipWith (· ^^^ ·) b

/-- `n` more words of the key schedule, each of four bytes, behind the latest eight; `i` is the number of the next one. -/
def aesSchedule : Nat → Nat → Byte → List (List Byte) → List (List Byte)
  | 0, _, _, _ => []
  | n + 1, i, con, last =>
    let p := last.getD 7 []
    let t := if i % 8 = 0 then xorBytes ((p.drop 1 ++ p.take 1).map aesSub) [con, 0, 0, 0]
             else if i % 8 = 4 then p.map aesSub else p
    let w := xorBytes (last.getD 0 []) t
    w :: aesSchedule n (i + 1) (if i % 8 = 0 then aesTwice con else con) (last.drop 1 ++ [w])

/-- The fifteen round keys of a key, whose first byte is the highest. -/
def aesKeys (key : Key256) : List (List Byte) :=
  let ws := (List.range 8).map fun i => (List.range 4).map fun j => BitVec.ofNat 8 (key.toNat / 256 ^ (31 - (4 * i + j)))
  let all := ws ++ aesSchedule 52 8 1 ws
  (List.range 15).map fun r => ((all.drop (4 * r)).take 4).flatten

/-- The rows of a block turn left by their numbers. -/
def aesShift (b : List Byte) : List Byte := (List.range 16).map fun k => b.getD (k % 4 + 4 * ((k / 4 + k % 4) % 4)) 0

/-- The columns of a block are multiplied by the fixed polynomial. -/
def aesMix (b : List Byte) : List Byte :=
  (List.range 16).map fun k =>
    let at' := fun d => b.getD (k / 4 * 4 + (k + d) % 4) 0
    aesTwice (at' 0) ^^^ (aesTwice (at' 1) ^^^ at' 1) ^^^ at' 2 ^^^ at' 3

/-- The rounds under the keys from the second on; the last one mixes no columns. -/
def aesRounds : List (List Byte) → List Byte → List Byte
  | [], b => b
  | [k], b => xorBytes (aesShift (b.map aesSub)) k
  | k :: rest, b => aesRounds rest (xorBytes (aesMix (aesShift (b.map aesSub))) k)

/-- A block of sixteen bytes under round keys. -/
def aesBlock (keys : List (List Byte)) (b : List Byte) : List Byte := aesRounds (keys.drop 1) (xorBytes b (keys.headD []))

/-! ## GCM -/

/-- Bytes as a block of 128 bits, the first byte highest, and back. -/
def blockBits (l : List Byte) : BitVec 128 := BitVec.ofNat 128 (l.foldl (fun n b => n * 256 + b.toNat) 0)
def bitsBlock (v : BitVec 128) : List Byte := (List.range 16).map fun i => BitVec.ofNat 8 (v.toNat / 256 ^ (15 - i))

/-- Multiplication in the field of GHASH, bit by bit of the first factor from its highest on. -/
def ghashTimes (x : BitVec 128) : Nat → BitVec 128 → BitVec 128
  | 0, _ => 0
  | n + 1, v => (if x.getLsbD n then v else 0) ^^^ ghashTimes x n ((v >>> 1) ^^^ (if v.getLsbD 0 then 0xe1#128 <<< 120 else 0))

/-- A message cut into blocks, the last filled up with zeros. -/
def gcmBlocks (l : List Byte) : List (BitVec 128) :=
  (List.range ((l.length + 15) / 16)).map fun i =>
    let b := (l.drop (16 * i)).take 16
    blockBits (b ++ List.replicate (16 - b.length) 0)

def ghash (h : BitVec 128) (bs : List (BitVec 128)) : BitVec 128 := bs.foldl (fun y b => ghashTimes (y ^^^ b) 128 h) 0

/-- The key stream block of a counter, for a nonce of twelve bytes. -/
def gcmStream (keys : List (List Byte)) (iv : List Byte) (counter : Nat) : List Byte :=
  aesBlock keys (iv ++ (List.range 4).map fun i => BitVec.ofNat 8 (counter / 256 ^ (3 - i)))

/-- The ciphertext of a message. -/
def gcmCipher (key : Key256) (iv msg : List Byte) : List Byte :=
  let keys := aesKeys key
  xorBytes msg ((List.range ((msg.length + 15) / 16)).flatMap fun i => gcmStream keys iv (i + 2))

/-- The tag of a ciphertext with additional authenticated data. -/
def gcmTag (key : Key256) (iv aad cipher : List Byte) : List Byte :=
  let keys := aesKeys key
  let h := blockBits (aesBlock keys (List.replicate 16 0))
  let y := ghash h (gcmBlocks aad ++ gcmBlocks cipher ++ [BitVec.ofNat 128 (8 * aad.length * 2 ^ 64 + 8 * cipher.length)])
  xorBytes (bitsBlock y) (gcmStream keys iv 1)

end Sys2Proof.Machine
end

