-- ==== Sys2Proof/Machine/Engine.lean ====
section
/-! DEFINITION. How an engine of a cluster reaches memory, and the sync units that engines post to (R155, R160 to R165, R279,
R386). -/

namespace Sys2Proof.Machine

open Sys2Proof

/-! ## Engine accesses -/

/-- How one access of an engine stands. -/
inductive EngineAnswer where
  /-- Performed; of a read, the value. -/
  | ok (s : State) (v : Nat)
  /-- Waiting for the home or a peer, under a request tag. -/
  | wait (s : State) (rtag : Nat)
  | fail (s : State) (f : EngineFail)

/-- The core whose agent number a cluster's engines use (R287). -/
def engineCore (cl : ClusterId) : CoreId := clusterCore cl 0

/-- An engine asks the home of a block, or a peer; it holds the request back while a write-back of the block by the agent that it counts as
is unacknowledged (R279). -/
def State.engineAsk (s : State) (cl : ClusterId) (path : Nat) (r : Region) (t : Target) (n : Nat) (write : Option Nat)
    (remote : Bool) : EngineAnswer :=
  let c := engineCore cl
  if !remote && s.writeBackOpen c (blockOf t.pa) r then .wait s 0
  else
  let tag := (s.coreOf c).freeTag
  let e : EngineRequest := ⟨tag, blockOf t.pa, write.isSome, false, .none, remote, t.pa, write.getD 0, s.time, .none⟩
  let s := s.withCore c fun k => { k with engine := k.engine ++ [e] }
  if remote then .wait s tag
  else
    let (p, proxy) := s.requestPp c r
    .wait (s.pushRequest p { plainMsg (if write.isSome then 1 else 0) (blockOf t.pa) (agentOfCore c tag) r with
      path := path, size := logSize n, proxy := proxy }) tag

/-- The request is over. -/
def State.engineDrop (s : State) (cl : ClusterId) (tag : Nat) : State :=
  s.withCore (engineCore cl) fun k => { k with engine := k.engine.filter fun e => e.rtag != tag }

/-- Performs an access of an engine's path for a thread, at its home or bank, in work that has made the writes `own`. Other agents
need not see a write yet, nor a read the writes of others (R179). -/
def State.enginePerform (s : State) (w : Who) (path : Nat) (own : List Nat) (pa n : Nat) (write : Option Nat) : EngineAnswer :=
  let old := s.coherentRead pa n
  match write with
  | .none => .ok s (s.enginePast w path own pa n old)
  | .some v =>
    let s : State := { s.notePast w path 3 s.stamps [] pa n old with stamps := s.stamps + 1 }
    .ok ((s.writeThrough pa n v).clearPoison pa n) 0

/-- The block of a peer's memory that the RDC of a die holds with a writable tag. -/
def State.heldPeer (s : State) (die pa : Nat) : Option RdcBlock :=
  s.rdc.find? fun r => r.die == die && r.block == blockOf pa && r.tag == 2 && isRemote s.pkg pa

/-- Reads or writes a block that the RDC holds for a peer. -/
def State.rdcPerform (s : State) (r : RdcBlock) (pa n : Nat) (write : Option Nat) : EngineAnswer :=
  match write with
  | .none => .ok s (blockBytes r.data (pa % 32) n)
  | .some v =>
    let r' := { r with dirty := true, data := patchBlock r.data (pa % 32) n v }
    .ok { s with rdc := s.rdc.map fun q => if q.die = r.die ∧ q.block = r.block then r' else q } 0

/-- How far an access of an engine has come: it may act at its physical address, under the request it was granted by and with
the value that a peer returned; or it waits; or it fails. -/
inductive EngineReady where
  | ok (s : State) (t : Target) (rtag : Option Nat) (v : Nat)
  | wait (s : State) (rtag : Nat)
  | fail (s : State) (f : EngineFail)

def EngineReady.ofAnswer : EngineAnswer → EngineReady
  | .ok s _ => .wait s 0
  | .wait s t => .wait s t
  | .fail s f => .fail s f

/-- Brings an access of an engine, within a 32-byte block, to the point where it may act, for an issuing core and its level, on
path code `path` (R187). -/
def State.engineResolve (s : State) (cl : ClusterId) (c : CoreId) (user : Bool) (path : Nat) (req : Option Nat) (va n : Nat)
    (write : Option Nat) : EngineReady :=
  let missing := match s.check c user va 1 (if write.isSome then .write else .read) with
    | .error .miss => true
    | _ => false
  if missing && (s.ctxOfCore c).any (fun x => s.walkPoisoned x va) then .fail s .poison
  else match s.checkWalk c user va 1 (if write.isSome then .write else .read) with
  | .error f => .fail s (.fault f)
  | .ok (s, t) =>
    if write.isNone ∧ s.poisoned t.pa then .fail s .poison
    else if (s.heldPeer (coreDie (engineCore cl)) t.pa).isSome then .ok s t .none 0
    else if !isRemote s.pkg t.pa && (placeOf t.pa == .scratch || t.uncached) then .ok s t .none 0
    else
      let remote := isRemote s.pkg t.pa
      let r := s.regionAt c t
      match req.bind fun tag => (s.coreOf (engineCore cl)).engine.find? fun e => e.rtag == tag with
      | .none => .ofAnswer (s.engineAsk cl path r t n write remote)
      | .some e =>
        match e.refused, e.failed with
        | .some code, _ => .fail (s.engineDrop cl e.rtag) (.refused code)
        | .none, .some reason => .fail (s.engineDrop cl e.rtag) (.remote reason (peerPkg t.pa))
        | .none, .none => if !e.granted then .wait s e.rtag else .ok s t (.some e.rtag) (e.value % 2 ^ (8 * n))

/-- Acts at the physical address that an access was resolved to; one at a peer that no RDC holds has acted there already. -/
def State.engineCommit (s : State) (cl : ClusterId) (w : Who) (path : Nat) (own : List Nat) (rtag : Option Nat) (pa n v : Nat)
    (write : Option Nat) : EngineAnswer :=
  let s := match rtag with
    | .none => s
    | .some t => s.engineDrop cl t
  match s.heldPeer (coreDie (engineCore cl)) pa with
  | .some r => s.rdcPerform r pa n write
  | .none => if isRemote s.pkg pa then .ok s v else s.enginePerform w path own pa n write

/-- One access of an engine for a thread. -/
def State.engineAccess (s : State) (cl : ClusterId) (c : CoreId) (slot : Nat) (user : Bool) (path : Nat) (own : List Nat)
    (req : Option Nat) (va n : Nat) (write : Option Nat) : EngineAnswer :=
  match s.engineResolve cl c user path req va n write with
  | .ok s t tag v => s.engineCommit cl (.core c slot) path own tag t.pa n v write
  | .wait s t => .wait s t
  | .fail s f => .fail s f

/-- The error-queue entries of an engine's failed access of some bytes: `cause` with a code, and for a refusal cause 9, for poisoned
data cause 13 in its place. -/
def State.postEngine (s : State) (ctx : CtxNo) (cause : Nat) (va : Word) (code size : Nat) (f : EngineFail) : State :=
  let detail := logSize size + code * 256
  match f with
  | .poison => s.postError ctx ⟨va, 0, 13, detail⟩
  | .refused r => (s.postError ctx ⟨va, 0, 9, logSize size + r % 256 * 256⟩).postError ctx ⟨va, 0, cause, detail⟩
  | .remote reason peer => s.postError ctx ⟨va, BitVec.ofNat 64 (peer * 2 ^ 16), cause, detail + reason * 16⟩
  | .fault _ | .operand => s.postError ctx ⟨va, 0, cause, detail⟩

/-! ## Sync blocks (R162 to R165) -/

def m40 : Nat := 2 ^ 40

/-- A field of a sync block. -/
def State.syncField (s : State) (pa off n : Nat) : Nat := readBytes s.mem (pa + off) n

def State.setSync (s : State) (pa off n v : Nat) : State := s.homeWrite (pa + off) n v

def State.syncTarget (s : State) (pa : Nat) : Nat := s.syncField pa 0 8 % m40
def State.syncCount (s : State) (pa : Nat) : Nat := s.syncField pa 8 8 % m40
def State.syncGen (s : State) (pa : Nat) : Nat := s.syncField pa 16 4
def State.syncFlags (s : State) (pa : Nat) : Nat := s.syncField pa 20 4
def State.syncStatus (s : State) (pa : Nat) : Nat := s.syncField pa 24 8

/-- `flags[1:0] : gen`, as `syncw` and `syncrd` return it. -/
def State.syncWord (s : State) (pa : Nat) : Word := BitVec.ofNat 64 (s.syncGen pa + s.syncFlags pa % 4 * 2 ^ 32)

/-- A waiter's condition holds. -/
def State.syncOpen (s : State) (pa gen : Nat) : Bool := s.syncGen pa != gen || s.syncFlags pa % 2 == 1

/-- A thread has read a block: the acquire of what its generation changes cover (R181). -/
def State.acquireSync (s : State) (w : Who) (pa : Nat) : State :=
  s.orderIds w (((s.syncs.find? fun e => e.pa == pa).map (·.done)).getD [])

/-- A thread's wait on a block is over. -/
def State.endSyncw (s : State) (w : Who) (pa : Nat) (d : Reg) : State :=
  (s.finish w 4 fun h => h.setX d (s.syncWord pa)).acquireSync w pa

/-- Every recorded waiter of a block whose condition holds goes on. -/
def State.wakeSync (s : State) (pa : Nat) : State :=
  (s.cur :: s.harts).foldl (fun s h => match (s.hartOf h.who).wait with
    | .sync a g d true => if a = pa ∧ s.syncOpen a g then s.endSyncw h.who pa d else s
    | _ => s) s

/-- A post's writes join those that the block covers; a change of its generation covers all that have reached the arbiter (R181). -/
def State.coverSync (s : State) (p : Post) (changes : Bool) : State :=
  let e := (s.syncs.find? fun e => e.pa == p.pa).getD ⟨p.pa, [], []⟩
  let live := fun (l : List Nat) => l.filter fun n => s.past.any fun q => q.id == n
  let since := live (p.cover ++ e.since)
  { s with syncs := (if changes then ⟨p.pa, [], since ++ live e.done⟩ else ⟨p.pa, since, e.done⟩) ::
      s.syncs.filter fun q => q.pa != p.pa }

/-- One post at the arbiter: count, overflow or generation, status, and the broken flag that comes with it. -/
def State.post (s : State) (p : Post) : State :=
  let tg := s.syncTarget p.pa
  let count := s.syncCount p.pa + p.bytes % m40
  let gens := if tg = 0 then 0 else count / tg
  let left := if tg = 0 then count % m40 else count % tg
  let flags := s.syncFlags p.pa ||| (if tg = 0 ∧ m40 ≤ count then 2 else 0) ||| p.broken.toNat
  let s := s.coverSync p (gens != 0)
  let s := s.setSync p.pa 8 8 left
  let s := s.setSync p.pa 16 4 (s.syncGen p.pa + gens)
  let s := s.setSync p.pa 20 4 flags
  let s := s.setSync p.pa 24 8 (s.syncStatus p.pa ||| p.bits)
  if gens ≠ 0 ∨ p.broken then s.wakeSync p.pa else s

/-- Sets the broken flag alone (R163, R165). -/
def State.breakSync (s : State) (pa : Nat) : State :=
  (s.setSync pa 20 4 (s.syncFlags pa ||| 1)).wakeSync pa

/-- N-cycles of the die of a scratchpad address. -/
def State.unitCycles (s : State) (pa : Nat) : Nat := s.nCycles (coreDie (engineCore (scratchCluster pa)))

/-- A post sets out for its sync unit, where it arrives in an N-cycle that no rule gives; one to a peer leaves the package. -/
def State.sendPost (s : State) (p : Post) : State :=
  if isRemote s.pkg p.pa then s
  else { s with turn := s.turn + 1, posts := s.posts ++ [{ p with arrives := s.unitCycles p.pa + Config.postDelay s.turn }] }

/-- The place of a post among those of one N-cycle: copy, matrix, mailbox, fabric and host paths in their order, then `notify`. -/
def Post.rank (p : Post) : Nat := if p.path = 0 then 8 else p.path

/-- The post comes before another at its arbiter. -/
def Post.before (p q : Post) : Bool := p.arrives < q.arrives || (p.arrives == q.arrives && p.rank < q.rank)

/-- A post to the block has arrived before the current N-cycle, or in it. -/
def State.postDue (s : State) (pa now : Nat) : Bool := s.posts.any fun p => p.pa == pa && decide (p.arrives < now)

/-- SYNC_BLOCK_POST: the sync unit of a cluster takes the next post that arrived in an earlier N-cycle: by then every `syncinit` of
that cycle has been taken (R163). -/
def State.takePost (s : State) (cl : ClusterId) : State :=
  let here := s.posts.filter fun p => scratchCluster p.pa == cl && decide (p.arrives < s.unitCycles p.pa)
  match here.find? fun p => !here.any fun q => q.before p with
  | .none => s
  | .some p => ({ s with posts := s.posts.erase p } : State).post p

def execSyncBlockPost (cl : Nat) (s : State) : Host.Outcome State Fault Refusal := .next (s.takePost cl)

/-! ## The address of a sync block (R164) -/

/-- Translation of a virtual address without its physical checks: the physical address, before them. -/
def State.lookup (s : State) (c : CoreId) (user : Bool) (va : Nat) (r : Right) : Except NoAddress Nat :=
  match s.ctxOfCore c with
  | .none => .error (.fault .page)
  | .some ctx =>
    match s.tlbFind c ctx.num va with
    | .none => .error .miss
    | .some e =>
      if !e.rights r user then .error (.fault .permission)
      else if r = .write ∧ !e.dirty then .error .miss
      else .ok (e.pa + (va - e.base))

/-- The physical address of a block of `size` bytes in scratchpad that the executing thread names; with `away` it may lie at a
peer. -/
def State.scratchAddress (s : State) (size : Nat) (va : Word) (r : Right) (away : Bool) : Except Exc Nat :=
  let c := s.cur.who.core'
  let part := s.partOfCore c
  let memory := fun (f : MemFault) => memTrap f va r
  if va.toNat % size ≠ 0 then .error (memory .alignment)
  else if !canonical va.toNat then .error (memory .addressForm)
  else match windowOf va.toNat with
    | .translated =>
      match s.lookup c s.cur.user va.toNat r with
      | .error (.fault f) => .error (memory f)
      | .error .miss =>
        match s.cur.walkFault with
        | .some (va', r', f) => if va' = va.toNat ∧ r' = r then .error (memory f) else .error (.walk va.toNat r)
        | .none => .error (.walk va.toNat r)
      | .ok pa =>
        let pa := localise s.pkg pa
        if placeOf pa = .device then .error (memory .permission)
        else if placeOf pa = .peerScratch ∧ away then .ok pa
        else if placeOf pa ≠ .scratch then .error (trapOf .syncAddress va)
        else if part.any fun p => p.owns (scratchCluster pa) (scratchHalf pa) then .ok pa
        else .error (memory .protection)
    | w =>
      match checkWindow part c va.toNat r w with
      | .ok t => .ok t.pa
      | .error (.fault f) => .error (memory f)
      | .error .miss => .error (memory .page)

/-- The physical address of a sync block. -/
def State.syncAddress (s : State) (va : Word) (r : Right) : Except Exc Nat := s.scratchAddress 32 va r false

/-- A sync block named in an engine's arguments, 0 for none: anything but an aligned scratchpad address of the launch is
refused by the trap given (R159, R166, R217). -/
def State.syncArgument (s : State) (va : Word) (bad : Exc) : Except Exc (Option Nat) :=
  if va = 0 then .ok .none
  else match s.scratchAddress 32 va .read true with
    | .ok pa => .ok (.some pa)
    | .error (.walk a r) => .error (.walk a r)
    | .error _ => .error bad

end Sys2Proof.Machine
end

