-- ==== Sys2Proof/Machine/Copies.lean ====
section
/-! DEFINITION. The copy engine and the sync-block instructions: primaries 0x26 and 0x27 (R158 to R165). -/

namespace Sys2Proof.Machine

open Sys2Proof

/-! ## Issue (R158 to R160) -/

def copyBad (v : Nat) : Exc := trapOf .copyArgument (BitVec.ofNat 64 v)

/-- The argument checks of R159 before the sync block's. -/
def copyCheck (bytes rows last : Nat) : Except Exc Unit :=
  if m40 ≤ bytes then .error (copyBad bytes)
  else if m40 ≤ rows then .error (copyBad rows)
  else if m40 ≤ rows * bytes then .error (copyBad (rows * bytes))
  else if last ≠ 0 then .error (copyBad last)
  else .ok ()

/-- The halves of the cluster belong to different partitions. -/
def State.clusterShared (s : State) (cl : ClusterId) : Bool :=
  let part := fun i => (s.coreOf (clusterCore cl i)).part
  (part 0).isSome && (part 4).isSome && part 0 != part 4

/-- Whether entries of a queue of 32 are open to a partition that has `mine` of them while its neighbour has `other`. -/
def queueOpen (shared : Bool) (mine other : Nat) : Bool :=
  if !shared then mine < 32 else mine < 8 || (mine - 8) + (other - 8) < 16

/-- Two cores belong to one partition. -/
def State.samePart (s : State) (a b : CoreId) : Bool := (s.coreOf a).part == (s.coreOf b).part

/-- The copy queue of a cluster has an entry for the core's partition. A copy gives up its entry when it starts (DESIGN CHOICE,
log 49). -/
def State.copyRoom (s : State) (c : CoreId) : Bool :=
  let q := s.copies.filter fun k => k.cl == clusterOf c && !k.running
  let mine := q.countP fun k => s.samePart k.core c
  queueOpen (s.clusterShared (clusterOf c)) mine (q.length - mine)

/-- A number that no copy carries. -/
def State.freshCopy (s : State) : Nat := s.copies.foldl (fun n k => max n (k.id + 1)) 0

/-- The values of a copy instruction's quads. -/
structure CopyArgs where
  a : List Word
  b : List Word

def CopyArgs.x (q : CopyArgs) (i : Nat) : Word := q.a.getD i 0
def CopyArgs.y (q : CopyArgs) (i : Nat) : Word := q.b.getD i 0

/-- Bytes per row and rows of a copy operation. -/
def CopyArgs.shape (q : CopyArgs) (op : Nat) : Nat × Nat :=
  match op with
  | 1 => ((q.x 2).toNat, (q.y 0).toNat)
  | 2 => ((q.x 2).toNat, (q.y 1).toNat)
  | _ => ((q.x 2).toNat, 1)

/-- The copy that a thread issues. -/
def State.newCopy (s : State) (op : Nat) (q : CopyArgs) (sync : Option Nat) (ticket : Dest) : Copy :=
  let c := s.cur.who.core'
  let (bytes, rows) := q.shape op
  { id := s.freshCopy, cl := clusterOf c, ctx := s.ctxNoOf c, core := c, slot := s.cur.who.slot', user := s.cur.user
    op := op, dst := q.x 0, src := q.x 1, bytes := bytes, rows := rows
    srcStride := if op = 1 then q.y 1 else 0
    dstStride := if op = 1 ∨ op = 2 then q.y 2 else 0
    table := if op = 2 then q.y 0 else 0, sync := sync, syncVa := q.x 3, ticket := ticket, cover := s.coverOf s.cur.who 1 }

/-- Issues a copy; `quads` is true when b names a second quad. -/
def copyOp (op : Nat) (quads : Bool) (d a b : Reg) (nb : Bool) (s : State) : Host.Outcome State Fault Refusal :=
  s.issue .coreOnly fun s => do
    s.cur.needX d
    let xs ← s.cur.getRun a 4
    let ys ← if quads then s.cur.getRun b 4 else .ok []
    let q : CopyArgs := ⟨xs, ys⟩
    let (bytes, rows) := q.shape op
    copyCheck bytes rows (q.y 3).toNat
    let sync ← s.syncArgument (q.x 3) (trapOf .copyArgument (q.x 3))
    if s.copyRoom s.cur.who.core' then
      let k := s.newCopy op q sync (s.cur.destX d)
      .ok { s with copies := s.copies ++ [k], cur := (s.cur.markX d).advance 4 }
    else if nb then .ok { s with cur := (s.cur.setX d (BitVec.allOnes 64)).advance 4 }
    else .error (.wait (.room .copies))

def execCpy (d a : Reg) (nb : Bool) (s : State) : Host.Outcome State Fault Refusal := copyOp 0 false d a 0 nb s
def execCpys (d a b : Reg) (nb : Bool) (s : State) : Host.Outcome State Fault Refusal := copyOp 1 true d a b nb s
def execCpyg (d a b : Reg) (nb : Bool) (s : State) : Host.Outcome State Fault Refusal := copyOp 2 true d a b nb s
def execCfill (d a : Reg) (nb : Bool) (s : State) : Host.Outcome State Fault Refusal := copyOp 3 false d a 0 nb s

/-! ## The engine (R160, R161) -/

/-- COPY_START: the next queued copy starts, when fewer than four run. -/
def State.copyStart (s : State) (cl : ClusterId) : State :=
  let mine := s.copies.filter fun k => k.cl == cl
  if 4 ≤ mine.countP (·.running) then s
  else match mine.find? fun k => !k.running with
    | .none => s
    | .some k => { s with copies := s.copies.map fun q => if q.id = k.id then { q with running := true } else q }

def execCopyStart (cl : Nat) (s : State) : Host.Outcome State Fault Refusal := .next (s.copyStart cl)

/-- The `k`-th copy of a cluster. -/
def State.copyAt (s : State) (cl : ClusterId) (k : Nat) : Option Copy := (s.copies.filter fun q => q.cl == cl)[k]?

def State.setCopy (s : State) (q : Copy) : State := { s with copies := s.copies.map fun k => if k.id = q.id then q else k }

/-- Every byte has been performed. -/
def Copy.finished (k : Copy) : Bool := k.rows ≤ k.row || k.bytes == 0

/-- The most bytes of an access that starts at an address and stays in its 32-byte block. -/
def inBlock (a : Word) : Nat := 32 - a.toNat % 32

/-- Addresses of the next byte to write and to read. -/
def Copy.dstNow (k : Copy) : Word := k.dst + BitVec.ofNat 64 k.row * k.dstStride + BitVec.ofNat 64 k.off
def Copy.srcNow (k : Copy) : Word :=
  k.src + BitVec.ofNat 64 k.row * k.srcStride + BitVec.ofNat 64 k.index + BitVec.ofNat 64 k.off

/-- The fill pattern for `n` bytes from an address: byte `a` mod 8 of the pattern for each. -/
def fillBytes (pattern : Word) (a : Nat) : Nat → Nat
  | 0 => 0
  | n + 1 => byteOf pattern.toNat (a % 8) + 256 * fillBytes pattern (a + 1) n

/-- The ticket status of a failure: of a read 1, of a write 2, a protection fault 3, a peer's 4. The table names none for a protocol's
refusal: it takes that of a fault of the same access (DESIGN CHOICE, log 49). -/
def failStatus (write : Bool) : EngineFail → Nat
  | .fault .protection => 3
  | .remote _ _ => 4
  | _ => if write then 2 else 1

def Copy.fail (k : Copy) (write : Bool) (va : Word) (n : Nat) (f : EngineFail) : Copy :=
  { k with fault := .some (failStatus write f, va, f), faultSize := n, faultWrite := write, req := .none }

/-- Keeps the original bytes of what a copy is about to overwrite at a physical address of this chip. -/
def Copy.keep (k : Copy) (s : State) (pa n : Nat) : Copy :=
  let old := (List.range n).filter fun i => k.orig.all fun c => c.1 != pa + i
  { k with orig := k.orig ++ old.map fun i => (pa + i, BitVec.ofNat 8 (s.coherentRead (pa + i) 1)) }

/-- `n` source bytes read from a physical address: one that this copy has overwritten is the original byte or what it reads as
now, and which is open (R160). -/
def Copy.source (k : Copy) (turn pa : Nat) : Nat → Nat → Nat
  | 0, _ => 0
  | n + 1, v =>
    let now := v % 256
    let b := match k.orig.find? fun c => c.1 == pa with
      | .some c => if Config.overlapKept turn k.done pa then c.2.toNat else now
      | .none => now
    b + 256 * k.source turn (pa + 1) n (v / 256)

/-- One access of a copy: the next state, and what to do with the copy, the physical address and the value. Bytes written are
counted for the cluster. -/
def State.copyAccess (s : State) (k : Copy) (va : Word) (n : Nat) (write : Option Nat) (next : Copy → Nat → Nat → Copy) :
    State :=
  match s.engineResolve k.cl k.core k.user 1 k.req va.toNat n write with
  | .wait s tag => s.setCopy { k with req := .some tag }
  | .fail s f => s.setCopy (k.fail write.isSome va n f)
  | .ok s t tag v =>
    let k := if write.isSome ∧ !isRemote s.pkg t.pa then { k.keep s t.pa n with cover := s.stamps :: k.cover } else k
    match s.engineCommit k.cl (.core k.core k.slot) 1 k.cover tag t.pa n v write with
    | .ok s v =>
      let k' := next k t.pa v
      (s.setCopy { k' with req := .none }).count k.ctx (clusterCore k.cl 0) 6 0 (k'.done - k.done)
    | .wait s tag => s.setCopy { k with req := .some tag }
    | .fail s f => s.setCopy (k.fail write.isSome va n f)

/-- A copy makes progress: its partition runs, or it has stopped and an access has still to end (R320, R322). -/
def State.copyLive (s : State) (k : Copy) : Bool :=
  (s.partOfCore k.core).any fun p =>
    p.state == .running || p.state == .halting || ((p.state == .saving || p.state == .stopped) && k.req.isSome)

/-- The next access of a running copy: the row's index, a read for a piece, which lies in one block of the destination, or its write
(R178). -/
def State.copyPiece (s : State) (k : Copy) : State :=
  if !k.running || k.finished || k.fault.isSome || !s.copyLive k then s
  else if k.op = 2 ∧ k.indexGot < 8 then
    let va := k.table + BitVec.ofNat 64 (8 * k.row + k.indexGot)
    let n := min (8 - k.indexGot) (inBlock va)
    s.copyAccess k va n .none fun k _ v =>
      { k with indexGot := k.indexGot + n, index := k.index + v * 256 ^ k.indexGot }
  else
    let n := min (k.bytes - k.off) (inBlock k.dstNow)
    let (got, v) := k.buf.getD (0, 0)
    if k.op = 3 ∧ got = 0 then s.setCopy { k with buf := .some (n, fillBytes k.src k.dstNow.toNat n) }
    else if got < n then
      let va := k.srcNow + BitVec.ofNat 64 got
      let m := min (n - got) (inBlock va)
      s.copyAccess k va m .none fun k pa w => { k with buf := .some (got + m, v + 256 ^ got * k.source s.turn pa m w) }
    else s.copyAccess k k.dstNow n (.some v) fun k _ _ =>
      let k := { k with buf := .none, done := k.done + n }
      if k.off + n < k.bytes then { k with off := k.off + n }
      else { k with row := k.row + 1, off := 0, indexGot := 0, index := 0 }

/-- The ticket value. -/
def ticket (status bytes : Nat) : Word := BitVec.ofNat 64 (status * m40 + bytes % m40)

/-- A ticket register is filled. -/
def State.fillTicket (s : State) (c : CoreId) (slot : Nat) (d : Dest) (v : Word) : State :=
  s.withHart (.core c slot) fun h => h.fillDest d false 8 v.toNat

/-- The status bits of a failed copy: its status' own and, of a fabric put, a copy that failed to write at a peer, one for the reason;
a fault that the peer takes is a refusal of the access there (R162, R166). -/
def putBits (status : Nat) (write : Bool) : EngineFail → Nat
  | .remote reason _ => 2 ^ (status - 1) + (if write then (if reason = 1 then 32 else if reason = 3 then 128 else 64) else 0)
  | _ => 2 ^ (status - 1)

/-- A copy ends: its ticket is filled, its bytes and its status bits are posted, a release of its accesses. -/
def State.endCopy (s : State) (k : Copy) (status bits : Nat) : State :=
  let s : State := { s with copies := s.copies.filter fun q => q.id != k.id }
  let s := s.fillTicket k.core k.slot k.ticket (ticket status k.done)
  match k.sync with
  | .none => s
  | .some pa => s.sendPost { pa := pa, bytes := k.rows * k.bytes, bits := bits, broken := false, source := .none, cover := k.cover, path := 1 }

/-- What a peer answers to the post of a fabric put to its sync block: 0 accepted, else the reason of its failure (R166). -/
opaque Config.peerPost : Nat → Nat

/-- How the post of a finished copy to its sync block ends: at once in the package; at a peer that cannot be reached it fails, and
otherwise its outcome comes in some later step, a time-out only after 2^20 units of time (R166, R359). `none` is still out. -/
def State.postOutcome (s : State) (k : Copy) : Option Nat :=
  if !(k.sync.any (isRemote s.pkg)) then .some 0
  else if !(k.sync.any (s.canReach k.core)) then .some 1
  else match k.postedAt with
    | .none => .none
    | .some t =>
      let r := Config.peerPost s.turn % 5
      if r = 3 ∧ s.time < t + 2 ^ 20 then .none else .some r

/-- COPY_COMPLETE: the last byte has been performed. A fabric put's post to a peer's block that fails is reported with the block's
address. -/
def State.copyComplete (s : State) (cl : ClusterId) (i : Nat) : State :=
  match s.copyAt cl i with
  | .none => s
  | .some k =>
    if !k.running || !k.finished || k.fault.isSome then s
    else match s.postOutcome k with
      | .none => s.setCopy { k with postedAt := .some (k.postedAt.getD s.time) }
      | .some 0 => s.endCopy k 0 0
      | .some reason =>
        (s.postEngine k.ctx 5 k.syncVa 4 32 (.remote reason (peerPkg (k.sync.getD 0)))).endCopy k 4 0

def execCopyComplete (cl k : Nat) (s : State) : Host.Outcome State Fault Refusal := .next (s.copyComplete cl k)

/-- COPY_FAULT: a copy that met a failure stops. -/
def State.copyFault (s : State) (cl : ClusterId) (i : Nat) : State :=
  match s.copyAt cl i with
  | .none => s
  | .some k =>
    match k.fault with
    | .none => s
    | .some (st, va, f) => (s.postEngine k.ctx 5 va st k.faultSize f).endCopy k st (putBits st k.faultWrite f)

def execCopyFault (cl k : Nat) (s : State) : Host.Outcome State Fault Refusal := .next (s.copyFault cl k)

/-- A copy whose launch is cancelled or stopped ends with status 5, and sets the broken flag of its sync block with no bytes posted (R161, R163). -/
def State.cancelCopy (s : State) (k : Copy) : State :=
  let s : State := { s with copies := s.copies.filter fun q => q.id != k.id }
  let s := s.fillTicket k.core k.slot k.ticket (ticket 5 k.done)
  match k.sync with
  | .none => s
  | .some pa => s.sendPost { pa := pa, bytes := 0, bits := 16, broken := true, source := .none, path := 1 }

/-! ## Sync-block instructions (R164) -/

/-- A thread's own `notify` to a block is still on its way, or a store of its own to the block stands in the store buffer. -/
def State.syncBusy (s : State) (pa : Nat) : Bool :=
  let c := s.cur.who.core'
  let slot := s.cur.who.slot'
  (s.posts.any fun p => p.pa == pa && p.source == .some (c, slot)) || (s.coreOf c).storePending slot pa 32

/-- A read of a block waits: for the thread's own operations on it, for an earlier acquire, and for the posts that have arrived. -/
def State.syncReadWaits (s : State) (pa : Nat) : Bool :=
  s.syncBusy pa || (s.coreOf s.cur.who.core').acquiring s.cur.who.slot' || s.postDue pa (s.unitCycles pa + 1)

def execNotify (a b : Reg) (s : State) : Host.Outcome State Fault Refusal :=
  s.issue .coreOnly fun s => do
    let x ← s.cur.getX a
    let v ← s.cur.getX b
    let pa ← s.syncAddress x .write
    let c := s.cur.who.core'
    let slot := s.cur.who.slot'
    if !s.quiet s.cur.who 7 then .error (.wait .again)
    else
      let s := s.markPerformed s.cur.who 7 s.stamps
      let s := s.sendPost { pa := pa, bytes := v.toNat % m40, bits := v.toNat / 2 ^ 44 * 2 ^ 44, broken := false
                            source := .some (c, slot), cover := s.coverOf s.cur.who 0 }
      .ok { s with cur := s.cur.advance 4 }

/-- The waiter records of a sync unit. -/
def State.waiterRecords (s : State) (cl : ClusterId) : Nat :=
  (s.cur :: s.harts).countP fun h => match h.wait with
    | .sync pa _ _ true => scratchCluster pa == cl
    | _ => false

def execSyncw (d a b : Reg) (s : State) : Host.Outcome State Fault Refusal :=
  s.issue .coreOnly fun s => do
    s.cur.needX d
    let x ← s.cur.getX a
    let v ← s.cur.getX b
    let pa ← s.syncAddress x .read
    let gen := field v 0 32
    if s.syncReadWaits pa then .error (.wait .again)
    else if s.syncOpen pa gen then
      .ok (({ s with cur := (s.cur.setX d (s.syncWord pa)).advance 4 } : State).acquireSync s.cur.who pa)
    else
      .ok (({ s with cur := s.cur.markX d } : State).waitFor (.sync pa gen d (s.waiterRecords (scratchCluster pa) < 256)))

/-- SYNCW_RECHECK: a waiter looks at its block again. -/
def State.syncwRecheck (s : State) (c : CoreId) (slot : Nat) : State :=
  let w := Who.core c slot
  match (s.hartOf w).wait with
  | .sync pa gen d _ => if s.syncOpen pa gen then s.endSyncw w pa d else s
  | _ => s

def execSyncwRecheck (core slot : Nat) (s : State) : Host.Outcome State Fault Refusal := .next (s.syncwRecheck core slot)

def execSyncinit (a b : Reg) (s : State) : Host.Outcome State Fault Refusal :=
  s.issue .coreOnly fun s => do
    let x ← s.cur.getX a
    let v ← s.cur.getX b
    let pa ← s.syncAddress x .write
    if m40 ≤ v.toNat then .error (trapOf .copyArgument v)
    else if s.syncBusy pa || s.postDue pa (s.unitCycles pa) then .error (.wait .again)
    else
      let s := ((s.setSync pa 0 8 v.toNat).setSync pa 8 8 0).setSync pa 20 4 0
      let s := s.setSync pa 24 8 0
      .ok { s with cur := s.cur.advance 4 }

/-- The field that `syncrd` selects. -/
def State.syncSelect (s : State) (pa sel : Nat) : Word :=
  match sel with
  | 0 => BitVec.ofNat 64 (s.syncField pa 0 8)
  | 1 => BitVec.ofNat 64 (s.syncField pa 8 8)
  | 2 => s.syncWord pa
  | _ => BitVec.ofNat 64 (s.syncStatus pa)

def execSyncrd (d a : Reg) (sel : BitVec 5) (s : State) : Host.Outcome State Fault Refusal :=
  s.issue .coreOnly fun s => do
    s.cur.needX d
    let x ← s.cur.getX a
    let pa ← s.syncAddress x .read
    let c := s.cur.who.core'
    if s.syncReadWaits pa then .error (.wait .again)
    else if scratchCluster pa = clusterOf c then
      .ok (({ s with cur := (s.cur.setX d (s.syncSelect pa sel.toNat)).advance 4 } : State).acquireSync s.cur.who pa)
    else
      let u : PendingUnit := ⟨s.cur.who.slot', .sync pa sel.toNat, [s.cur.destX d], s.stamps⟩
      .ok (({ s with cur := (s.cur.markX d).advance 4 } : State).withCore c fun k => { k with units := k.units ++ [u] })

end Sys2Proof.Machine
end

