-- ==== Sys2Proof/Machine/Vector.lean ====
section
/-! DEFINITION. The packed vector instructions and the format prefix: primaries 0x30 to 0x3D and 0x78 (R75 to R79, R191 to
R208). -/

namespace Sys2Proof.Machine

open Sys2Proof

/-! ## The prefix (R75 to R77) -/

/-- The prefix of the executing instruction: the fields of its latch if it accepts them, its defaults without one. -/
def Hart.prefixFields (h : Hart) (dflt : Prefix) (ok : Prefix → Bool) : Except Exc Prefix :=
  match h.latch with
  | .none => .ok dflt
  | .some w =>
    if !badLatch w && ok (Prefix.ofWord w) then .ok (Prefix.ofWord w)
    else .error (trapOf .illegalPrefix (w.setWidth 64))

/-- bfmt and cfmt equal afmt, and neither scales nor sparsity are named. -/
def Prefix.plain (p : Prefix) : Bool := p.bfmt == p.afmt && p.cfmt == p.afmt && p.sc == 0 && p.sp == 0

def floatCode (n : Nat) : Bool := n ≤ 4

/-- 0x30, 0x32 and 0x33. -/
def Prefix.intSat (p : Prefix) : Bool := p.plain && intCode p.afmt && p.rnd == 0
/-- 0x31, 0x34, 0x35 and the integer reductions. -/
def Prefix.intOnly (p : Prefix) : Bool := p.intSat && !p.sat
/-- 0x38, 0x39, `vfredadd` and `vfredmax`. -/
def Prefix.floating (p : Prefix) : Bool := p.plain && floatCode p.afmt && p.rnd ≤ 5
/-- 0x3A. -/
def Prefix.floatOnly (p : Prefix) : Bool := p.floating && p.rnd == 0 && !p.sat
/-- 0x3C. -/
def Prefix.modular (p : Prefix) : Bool := p.plain && (p.afmt == 0 || p.afmt == 11) && p.rnd == 0 && !p.sat
/-- 0x3D. -/
def Prefix.moves (p : Prefix) : Bool :=
  intCode p.afmt && p.bfmt == 0 && p.cfmt == p.afmt && p.rnd == 0 && !p.sat && p.sc == 0 && p.sp == 0
/-- `vdot4`. -/
def Prefix.dot (p : Prefix) : Bool :=
  (p.afmt == 6 || p.afmt == 7) && (p.bfmt == 6 || p.bfmt == 7) && (p.cfmt == 0 || p.cfmt == 9) && p.rnd == 0 && p.sc == 0 &&
  p.sp == 0

def floatFmt (n : Nat) : Fmt := (Fmt.ofCode n).getD .fp32

/-- Without a prefix every format field reads as its default. -/
def noPrefix : Prefix := ⟨0, 0, 0, 0, false, 0, 0⟩

/-- `fmt` loads the latch. -/
def execFmt (sp sc : BitVec 2) (sat : Bool) (rnd : BitVec 3) (cfmt bfmt afmt : BitVec 4) (s : State) :
    Host.Outcome State Fault Refusal :=
  s.issueHart .coreOnly fun h => .ok { h.advance 4 with latch := .some (fmtP sp sc sat rnd cfmt bfmt afmt 0x78#7) }

/-! ## Shapes (R191, R192) -/

/-- Lane `i` of width `w`. -/
def laneNat (w : Nat) (v : Vec) (i : Nat) : Nat := v.toNat / 2 ^ (w * i) % 2 ^ w

/-- The vector of given lanes. -/
def ofLanes (w : Nat) (l : List Nat) : Vec := packLanes w (l.map (BitVec.ofNat w))

/-- What an operation writes: the vector, the conditions, and how many draws it takes are its own affair. -/
structure VecResult where
  value : Vec
  cond : Cond := 0

/-- Lane by lane, with one of `us` for each. -/
def perLane (w : Nat) (us : List Nat) (f : Nat → Nat → Nat × Cond) : VecResult :=
  let rs := (List.range (128 / w)).map fun i => f i (us.getD i 0)
  ⟨ofLanes w (rs.map (·.1)), (rs.map (·.2)).foldl (· ||| ·) 0⟩

/-- The registers that an instruction names have to exist, in the order vd, va, vb. -/
def State.needRegs (s : State) : List VReg → Except Exc Unit
  | [] => .ok ()
  | r :: rest =>
    match s.needReg r with
    | .ok _ => s.needRegs rest
    | .error e => .error e

/-- Writes a vector result. -/
def Hart.writeVec (h : Hart) (vd : VReg) (r : VecResult) (rng : BitVec 32) : Hart :=
  { (h.setV vd r.value).orFlags r.cond with rng := rng }

/-- Operands of a vector operation: the old destination, the sources, and a scalar. -/
structure VecArgs where
  c : Vec
  a : Vec
  b : Vec
  x : Word

/-- A three-register operation. `steps` is the number of draws under `rsr` (R72). An empty register waits or traps before what the
operation itself checks, such as modq (R192, R207; DESIGN CHOICE, log 51). -/
def vecThree (dflt : Prefix) (ok : Prefix → Bool) (steps : Prefix → Nat)
    (f : Hart → Prefix → List Nat → VecArgs → Except Exc VecResult) (vd va vb : VReg) (s : State) :
    Host.Outcome State Fault Refusal :=
  s.issue .vector fun s => do
    let p ← s.cur.prefixFields dflt ok
    s.needRegs [vd, va, vb]
    let c ← s.cur.getV vd
    let a ← s.cur.getV va
    let b ← s.cur.getV vb
    let (us, rng) := draws p.rnd s.cur.rng (steps p)
    let r ← f s.cur p us ⟨c, a, b, 0⟩
    .ok { s with cur := (s.cur.writeVec vd r rng).advance 4 }

/-- A two-register operation. -/
def vecTwo (dflt : Prefix) (ok : Prefix → Bool) (steps : Prefix → Nat)
    (f : Hart → Prefix → List Nat → VecArgs → Except Exc VecResult) (vd va : VReg) (s : State) :
    Host.Outcome State Fault Refusal :=
  s.issue .vector fun s => do
    let p ← s.cur.prefixFields dflt ok
    s.needRegs [vd, va]
    let c ← s.cur.getV vd
    let a ← s.cur.getV va
    let (us, rng) := draws p.rnd s.cur.rng (steps p)
    let r ← f s.cur p us ⟨c, a, 0, 0⟩
    .ok { s with cur := (s.cur.writeVec vd r rng).advance 4 }

/-- A vector with a scalar second operand (0x33). -/
def vecScalar (f : Prefix → VecArgs → VecResult) (vd va : VReg) (b : Reg) (s : State) :
    Host.Outcome State Fault Refusal :=
  s.issue .vector fun s => do
    let p ← s.cur.prefixFields noPrefix Prefix.intSat
    s.needRegs [vd, va]
    let x ← s.cur.getX b
    let c ← s.cur.getV vd
    let a ← s.cur.getV va
    .ok { s with cur := (s.cur.writeVec vd (f p ⟨c, a, 0, x⟩) s.cur.rng).advance 4 }

def noDraws (_ : Prefix) : Nat := 0

/-! ## Integer operations (R194 to R198) -/

/-- One lane of an integer operation: the format, sat, C, A and B as bits. -/
abbrev IntLane := Fmt → Bool → Nat → Nat → Nat → Nat × Cond

/-- Applies an integer operation in the format of the prefix. -/
def intLanes (f : IntLane) (p : Prefix) (q : VecArgs) : VecResult :=
  let t := intFmt p.afmt
  perLane t.width [] fun i _ => f t p.sat (laneNat t.width q.c i) (laneNat t.width q.a i) (laneNat t.width q.b i)

def intOp (ok : Prefix → Bool) (f : IntLane) (vd va vb : VReg) (s : State) : Host.Outcome State Fault Refusal :=
  vecThree noPrefix ok noDraws (fun _ p _ q => .ok (intLanes f p q)) vd va vb s

/-- An operation whose exact result is written under sat. -/
def exactLane (v : Int → Int → Int → Int) : IntLane := fun t sat c a b => t.writeInt sat (v (t.int c) (t.int a) (t.int b))

/-- An element read as signed, even in UINT8. -/
def signedOf (t : Fmt) (a : Nat) : Int := if 2 ^ (t.width - 1) ≤ a then (a : Int) - 2 ^ t.width else a

def laneMulh : IntLane := fun t _ _ a b => (t.wrap ((signedOf t a * signedOf t b) / (2 ^ t.width : Int)), 0)
def laneMulhu : IntLane := fun t _ _ a b => (a * b / 2 ^ t.width, 0)
/-- |A - B|, which always fits the unsigned element when it is not clamped. -/
def laneAbsd : IntLane := fun t sat _ a b =>
  let v : Int := (t.int a - t.int b).natAbs
  if sat then t.writeInt true v else (t.wrap v, 0)
def laneSll : IntLane := fun t _ _ a b => (a * 2 ^ (b % t.width) % 2 ^ t.width, 0)
def laneSrl : IntLane := fun t _ _ a b => (a / 2 ^ (b % t.width), 0)
/-- Filled with bit w - 1. -/
def laneSra : IntLane := fun t _ _ a b => (t.wrap (signedOf t a / (2 ^ (b % t.width) : Int)), 0)

def laneAdd : IntLane := exactLane fun _ a b => a + b
def laneSub : IntLane := exactLane fun _ a b => a - b
def laneMul : IntLane := exactLane fun _ a b => a * b
def laneMac : IntLane := exactLane fun c a b => c + a * b
/-- Clamped whatever sat holds. -/
def laneQadd : IntLane := fun t _ _ a b => t.writeInt true (t.int a + t.int b)
def laneQsub : IntLane := fun t _ _ a b => t.writeInt true (t.int a - t.int b)

def laneMin : IntLane := fun t _ _ a b => (if t.int a ≤ t.int b then a else b, 0)
def laneMax : IntLane := fun t _ _ a b => (if t.int a ≤ t.int b then b else a, 0)
def laneMinu : IntLane := fun _ _ _ a b => (min a b, 0)
def laneMaxu : IntLane := fun _ _ _ a b => (max a b, 0)

/-- All ones when a relation holds, else zero. -/
def relation (w : Nat) (b : Bool) : Nat := if b then 2 ^ w - 1 else 0

def laneCmp (r : Fmt → Nat → Nat → Bool) : IntLane := fun t _ _ a b => (relation t.width (r t a b), 0)

/-- An operation on all 128 bits. -/
def bitOp (f : Vec → Vec → Vec → Vec) (vd va vb : VReg) (s : State) : Host.Outcome State Fault Refusal :=
  vecThree noPrefix Prefix.intOnly noDraws (fun _ _ _ q => .ok ⟨f q.c q.a q.b, 0⟩) vd va vb s

/-- The scalar of 0x33 in every lane. -/
def scalarOp (f : IntLane) (vd va : VReg) (b : Reg) (s : State) : Host.Outcome State Fault Refusal :=
  vecScalar (fun p q =>
    let w := (intFmt p.afmt).width
    intLanes f p { q with b := ofLanes w (List.replicate (128 / w) q.x.toNat) }) vd va b s

def execVadd (vd va vb : VReg) (s : State) : Host.Outcome State Fault Refusal := intOp Prefix.intSat laneAdd vd va vb s
def execVsub (vd va vb : VReg) (s : State) : Host.Outcome State Fault Refusal := intOp Prefix.intSat laneSub vd va vb s
def execVmul (vd va vb : VReg) (s : State) : Host.Outcome State Fault Refusal := intOp Prefix.intSat laneMul vd va vb s
def execVmulh (vd va vb : VReg) (s : State) : Host.Outcome State Fault Refusal := intOp Prefix.intSat laneMulh vd va vb s
def execVmulhu (vd va vb : VReg) (s : State) : Host.Outcome State Fault Refusal := intOp Prefix.intSat laneMulhu vd va vb s
def execVabsd (vd va vb : VReg) (s : State) : Host.Outcome State Fault Refusal := intOp Prefix.intSat laneAbsd vd va vb s
def execVqadd (vd va vb : VReg) (s : State) : Host.Outcome State Fault Refusal := intOp Prefix.intSat laneQadd vd va vb s
def execVqsub (vd va vb : VReg) (s : State) : Host.Outcome State Fault Refusal := intOp Prefix.intSat laneQsub vd va vb s
def execVsll (vd va vb : VReg) (s : State) : Host.Outcome State Fault Refusal := intOp Prefix.intSat laneSll vd va vb s
def execVsrl (vd va vb : VReg) (s : State) : Host.Outcome State Fault Refusal := intOp Prefix.intSat laneSrl vd va vb s
def execVsra (vd va vb : VReg) (s : State) : Host.Outcome State Fault Refusal := intOp Prefix.intSat laneSra vd va vb s
def execVmac (vd va vb : VReg) (s : State) : Host.Outcome State Fault Refusal := intOp Prefix.intSat laneMac vd va vb s
def execVmin (vd va vb : VReg) (s : State) : Host.Outcome State Fault Refusal := intOp Prefix.intOnly laneMin vd va vb s
def execVmax (vd va vb : VReg) (s : State) : Host.Outcome State Fault Refusal := intOp Prefix.intOnly laneMax vd va vb s
def execVminu (vd va vb : VReg) (s : State) : Host.Outcome State Fault Refusal := intOp Prefix.intOnly laneMinu vd va vb s
def execVmaxu (vd va vb : VReg) (s : State) : Host.Outcome State Fault Refusal := intOp Prefix.intOnly laneMaxu vd va vb s
def execVand (vd va vb : VReg) (s : State) : Host.Outcome State Fault Refusal := bitOp (fun _ a b => a &&& b) vd va vb s
def execVor (vd va vb : VReg) (s : State) : Host.Outcome State Fault Refusal := bitOp (fun _ a b => a ||| b) vd va vb s
def execVxor (vd va vb : VReg) (s : State) : Host.Outcome State Fault Refusal := bitOp (fun _ a b => a ^^^ b) vd va vb s
def execVandn (vd va vb : VReg) (s : State) : Host.Outcome State Fault Refusal := bitOp (fun _ a b => a &&& ~~~b) vd va vb s
def execVslls (vd va : VReg) (b : Reg) (s : State) : Host.Outcome State Fault Refusal := scalarOp laneSll vd va b s
def execVsrls (vd va : VReg) (b : Reg) (s : State) : Host.Outcome State Fault Refusal := scalarOp laneSrl vd va b s
def execVsras (vd va : VReg) (b : Reg) (s : State) : Host.Outcome State Fault Refusal := scalarOp laneSra vd va b s
def execVadds (vd va : VReg) (b : Reg) (s : State) : Host.Outcome State Fault Refusal := scalarOp laneAdd vd va b s
def execVmuls (vd va : VReg) (b : Reg) (s : State) : Host.Outcome State Fault Refusal := scalarOp laneMul vd va b s
def execVceq (vd va vb : VReg) (s : State) : Host.Outcome State Fault Refusal :=
  intOp Prefix.intOnly (laneCmp (fun _ a b => a == b)) vd va vb s
def execVcne (vd va vb : VReg) (s : State) : Host.Outcome State Fault Refusal :=
  intOp Prefix.intOnly (laneCmp (fun _ a b => a != b)) vd va vb s
def execVclt (vd va vb : VReg) (s : State) : Host.Outcome State Fault Refusal :=
  intOp Prefix.intOnly (laneCmp (fun t a b => t.int a < t.int b)) vd va vb s
def execVcle (vd va vb : VReg) (s : State) : Host.Outcome State Fault Refusal :=
  intOp Prefix.intOnly (laneCmp (fun t a b => t.int a ≤ t.int b)) vd va vb s
def execVcltu (vd va vb : VReg) (s : State) : Host.Outcome State Fault Refusal :=
  intOp Prefix.intOnly (laneCmp (fun _ a b => a < b)) vd va vb s
def execVcleu (vd va vb : VReg) (s : State) : Host.Outcome State Fault Refusal :=
  intOp Prefix.intOnly (laneCmp (fun _ a b => a ≤ b)) vd va vb s
/-- The old vd is the condition, bit by bit. -/
def execVsel (vd va vb : VReg) (s : State) : Host.Outcome State Fault Refusal :=
  bitOp (fun c a b => (c &&& a) ||| (~~~c &&& b)) vd va vb s

/-- `vdot4` (R195). -/
def dotResult (p : Prefix) (q : VecArgs) : VecResult :=
  let fa := intFmt p.afmt
  let fb := intFmt p.bfmt
  perLane 32 [] fun i _ =>
    let t := (List.range 4).map fun k => fa.int (laneNat 8 q.a (4 * i + k)) * fb.int (laneNat 8 q.b (4 * i + k))
    Fmt.int32.writeInt p.sat (Fmt.int32.int (laneNat 32 q.c i) + t.foldl (· + ·) 0)

def execVdot4 (vd va vb : VReg) (s : State) : Host.Outcome State Fault Refusal :=
  vecThree ⟨6, 6, 0, 0, false, 0, 0⟩ Prefix.dot noDraws (fun _ p _ q => .ok (dotResult p q)) vd va vb s

/-- `vperm` (R198): the lanes of va, then those of the old vd. -/
def permResult (p : Prefix) (q : VecArgs) : VecResult :=
  let w := (intFmt p.afmt).width
  let n := 128 / w
  perLane w [] fun i _ =>
    let k := laneNat w q.b i
    let j := k % (2 * n)
    (if k.testBit (w - 1) then 0 else if j < n then laneNat w q.a j else laneNat w q.c (j - n), 0)

def execVperm (vd va vb : VReg) (s : State) : Host.Outcome State Fault Refusal :=
  vecThree noPrefix Prefix.intOnly noDraws (fun _ p _ q => .ok (permResult p q)) vd va vb s

def execVrev (vd va : VReg) (s : State) : Host.Outcome State Fault Refusal :=
  vecTwo noPrefix Prefix.intOnly noDraws (fun _ p _ q =>
    let w := (intFmt p.afmt).width
    .ok (perLane w [] fun i _ => (laneNat w q.a (128 / w - 1 - i), 0))) vd va s

/-! ## Reductions (R199) -/

/-- An integer reduction: one element in lane 0, zero above. -/
def reduceOp (f : Fmt → List Nat → Nat) (vd va : VReg) (s : State) : Host.Outcome State Fault Refusal :=
  vecTwo noPrefix Prefix.intOnly noDraws (fun _ p _ q =>
    let t := intFmt p.afmt
    .ok ⟨BitVec.ofNat 128 (f t ((List.range t.lanes).map (laneNat t.width q.a)) % 2 ^ t.width), 0⟩) vd va s

/-- The element that no other precedes. -/
def pick (before : Nat → Nat → Bool) (l : List Nat) : Nat := l.foldl (fun m x => if before x m then x else m) (l.headD 0)

def execVredadd (vd va : VReg) (s : State) : Host.Outcome State Fault Refusal := reduceOp (fun _ l => l.sum) vd va s
def execVredmin (vd va : VReg) (s : State) : Host.Outcome State Fault Refusal :=
  reduceOp (fun t l => pick (fun x m => t.int x < t.int m) l) vd va s
def execVredmax (vd va : VReg) (s : State) : Host.Outcome State Fault Refusal :=
  reduceOp (fun t l => pick (fun x m => t.int m < t.int x) l) vd va s
def execVredminu (vd va : VReg) (s : State) : Host.Outcome State Fault Refusal := reduceOp (fun _ l => pick (· < ·) l) vd va s
def execVredmaxu (vd va : VReg) (s : State) : Host.Outcome State Fault Refusal := reduceOp (fun _ l => pick (· > ·) l) vd va s

/-! ## Floating operations (R200 to R202) -/

/-- Everything one floating lane depends on: layout, mode, sat, draw, and C, A, B as bits. -/
structure FloatLane where
  f : FloatSpec
  rnd : Nat
  sat : Bool
  u : Nat
  c : Nat
  a : Nat
  b : Nat

def FloatLane.C (l : FloatLane) : Ext := l.f.value l.c
def FloatLane.A (l : FloatLane) : Ext := l.f.value l.a
def FloatLane.B (l : FloatLane) : Ext := l.f.value l.b

/-- Writes an exact result, keeping the conditions that led to it. -/
def FloatLane.put (l : FloatLane) (r : Ext × Cond) : Nat × Cond :=
  let (v, c) := l.f.write l.rnd l.sat l.u r.1
  (v, r.2 ||| c)

def FloatLane.putDigits (l : FloatLane) (neg : Bool) (d : Nat × Int × Bool) : Nat × Cond :=
  l.f.roundDigits l.rnd l.sat l.u neg d

/-- A NaN result with given conditions. -/
def FloatLane.bad (l : FloatLane) (c : Cond) : Nat × Cond := (l.f.nanCode, c)

/-- nv for a signalling operand. -/
def signals (xs : List Ext) : Cond := when' (xs.any (·.signalling)) condNv

/-- A × B + C, the product negated for `vfms`; rounded once. -/
def FloatLane.fused (l : FloatLane) (minus : Bool) : Nat × Cond :=
  let (p, c1) := l.A.mul l.B
  let (r, c2) := l.C.add l.rnd (if minus then p.negate else p)
  l.put (r, c1 ||| c2)

/-- A / B, of which `vfrcp` is the case A = 1. -/
def FloatLane.divide (l : FloatLane) (x y : Ext) : Nat × Cond :=
  match x, y with
  | .nan _, _ | _, .nan _ => l.bad (signals [x, y])
  | .inf _, .inf _ => l.bad condNv
  | .inf n, .fin m _ _ => l.f.infinite l.sat (n != m)
  | .fin n _ _, .inf m => (l.f.signBit (n != m), 0)
  | .fin n m e, .fin n' m' e' =>
    if m' = 0 then
      if m = 0 then l.bad condNv
      else let (v, c) := l.f.infinite l.sat (n != n'); (v, c ||| condDz)
    else if m = 0 then (l.f.signBit (n != n'), 0)
    else l.putDigits (n != n') (quotient m e m' e')

def FloatLane.root (l : FloatLane) : Nat × Cond :=
  match l.A with
  | .nan b => l.bad (when' b condNv)
  | .inf n => if n then l.bad condNv else (l.a, 0)
  | .fin n m e => if m = 0 then (l.a, 0) else if n then l.bad condNv else l.putDigits false (rootOfValue m e)

def FloatLane.rootReciprocal (l : FloatLane) : Nat × Cond :=
  match l.A with
  | .nan b => l.bad (when' b condNv)
  | .inf n => if n then l.bad condNv else (0, 0)
  | .fin n m e =>
    if m = 0 then let (v, c) := l.f.infinite l.sat n; (v, c ||| condDz)
    else if n then l.bad condNv else l.putDigits false (reciprocalRoot m e)

def FloatLane.power (l : FloatLane) : Nat × Cond :=
  match l.A with
  | .nan b => l.bad (when' b condNv)
  | .inf n => if n then (0, 0) else l.f.infinite l.sat false
  | .fin n m e => l.f.exp2 l.rnd l.sat l.u n m e

def FloatLane.logarithm (l : FloatLane) : Nat × Cond :=
  match l.A with
  | .nan b => l.bad (when' b condNv)
  | .inf n => if n then l.bad condNv else l.f.infinite l.sat false
  | .fin n m e =>
    if m = 0 then let (v, c) := l.f.infinite l.sat true; (v, c ||| condDz)
    else if n then l.bad condNv else l.f.log2 l.rnd l.sat l.u m e

/-- minimumNumber and maximumNumber: -0 lies below +0, and a number is preferred to a NaN. -/
def FloatLane.extreme (l : FloatLane) (wantMin : Bool) : Nat × Cond :=
  let nv := signals [l.A, l.B]
  if l.A.isNan && l.B.isNan then (l.f.nanCode, nv)
  else if l.A.isNan then (l.b, nv)
  else if l.B.isNan then (l.a, nv)
  else
    let aFirst := l.A.lt l.B || (l.A.eq l.B && (l.A.neg || !l.B.neg))
    (if aFirst == wantMin then l.a else l.b, nv)

def FloatLane.signOnly (l : FloatLane) (flip : Bool) : Nat × Cond :=
  let mag := l.a % 2 ^ (l.f.width - 1)
  if l.A.isNan then l.bad (signals [l.A])
  else (if flip then mag + l.f.signBit (!l.a.testBit (l.f.width - 1)) else mag, 0)

/-- Class codes. -/
def FloatLane.classify (l : FloatLane) : Nat × Cond :=
  (match l.A with
   | .nan b => if b then 8 else 9
   | .inf n => if n then 0 else 7
   | .fin n m _ =>
     if m = 0 then (if n then 3 else 4)
     else if m < 2 ^ l.f.frac then (if n then 2 else 5)
     else (if n then 1 else 6), 0)

def FloatLane.equal (l : FloatLane) : Nat × Cond := (relation l.f.width (l.A.eq l.B), signals [l.A, l.B])
def FloatLane.less (l : FloatLane) : Nat × Cond :=
  (relation l.f.width (l.A.lt l.B), when' (l.A.isNan || l.B.isNan) condNv)
def FloatLane.lessEqual (l : FloatLane) : Nat × Cond :=
  (relation l.f.width (!l.A.isNan && !l.B.isNan && !l.B.lt l.A), when' (l.A.isNan || l.B.isNan) condNv)
def FloatLane.unordered (l : FloatLane) : Nat × Cond := (relation l.f.width (l.A.isNan || l.B.isNan), signals [l.A, l.B])

/-- A floating operation in the format of the prefix. -/
def floatLanes (f : FloatLane → Nat × Cond) (p : Prefix) (us : List Nat) (q : VecArgs) : VecResult :=
  let t := floatFmt p.afmt
  let w := t.width
  perLane w us fun i u => f ⟨t.spec, p.rnd, p.sat, u, laneNat w q.c i, laneNat w q.a i, laneNat w q.b i⟩

/-- One rounding step for each lane. -/
def drawPerLane (p : Prefix) : Nat := (floatFmt p.afmt).lanes

def floatOp3 (ok : Prefix → Bool) (steps : Prefix → Nat) (f : FloatLane → Nat × Cond) (vd va vb : VReg) (s : State) :
    Host.Outcome State Fault Refusal :=
  vecThree noPrefix ok steps (fun _ p us q => .ok (floatLanes f p us q)) vd va vb s

def floatOp2 (steps : Prefix → Nat) (f : FloatLane → Nat × Cond) (vd va : VReg) (s : State) :
    Host.Outcome State Fault Refusal :=
  vecTwo noPrefix Prefix.floating steps (fun _ p us q => .ok (floatLanes f p us q)) vd va s

def execVfadd (vd va vb : VReg) (s : State) : Host.Outcome State Fault Refusal :=
  floatOp3 Prefix.floating drawPerLane (fun l => l.put (l.A.add l.rnd l.B)) vd va vb s
def execVfsub (vd va vb : VReg) (s : State) : Host.Outcome State Fault Refusal :=
  floatOp3 Prefix.floating drawPerLane (fun l => l.put (l.A.add l.rnd l.B.negate)) vd va vb s
def execVfmul (vd va vb : VReg) (s : State) : Host.Outcome State Fault Refusal :=
  floatOp3 Prefix.floating drawPerLane (fun l => l.put (l.A.mul l.B)) vd va vb s
def execVfma (vd va vb : VReg) (s : State) : Host.Outcome State Fault Refusal :=
  floatOp3 Prefix.floating drawPerLane (fun l => l.fused false) vd va vb s
def execVfms (vd va vb : VReg) (s : State) : Host.Outcome State Fault Refusal :=
  floatOp3 Prefix.floating drawPerLane (fun l => l.fused true) vd va vb s
def execVfmin (vd va vb : VReg) (s : State) : Host.Outcome State Fault Refusal :=
  floatOp3 Prefix.floating noDraws (fun l => l.extreme true) vd va vb s
def execVfmax (vd va vb : VReg) (s : State) : Host.Outcome State Fault Refusal :=
  floatOp3 Prefix.floating noDraws (fun l => l.extreme false) vd va vb s
def execVfdiv (vd va vb : VReg) (s : State) : Host.Outcome State Fault Refusal :=
  floatOp3 Prefix.floating drawPerLane (fun l => l.divide l.A l.B) vd va vb s
def execVfsqrt (vd va : VReg) (s : State) : Host.Outcome State Fault Refusal :=
  floatOp2 drawPerLane (fun l => l.root) vd va s
def execVfrcp (vd va : VReg) (s : State) : Host.Outcome State Fault Refusal :=
  floatOp2 drawPerLane (fun l => l.divide (.fin false 1 0) l.A) vd va s
def execVfrsq (vd va : VReg) (s : State) : Host.Outcome State Fault Refusal :=
  floatOp2 drawPerLane (fun l => l.rootReciprocal) vd va s
def execVfexp2 (vd va : VReg) (s : State) : Host.Outcome State Fault Refusal :=
  floatOp2 drawPerLane (fun l => l.power) vd va s
def execVflog2 (vd va : VReg) (s : State) : Host.Outcome State Fault Refusal :=
  floatOp2 drawPerLane (fun l => l.logarithm) vd va s
def execVfabs (vd va : VReg) (s : State) : Host.Outcome State Fault Refusal :=
  floatOp2 noDraws (fun l => l.signOnly false) vd va s
def execVfneg (vd va : VReg) (s : State) : Host.Outcome State Fault Refusal :=
  floatOp2 noDraws (fun l => l.signOnly true) vd va s
def execVfclass (vd va : VReg) (s : State) : Host.Outcome State Fault Refusal :=
  floatOp2 noDraws (fun l => l.classify) vd va s
def execVfceq (vd va vb : VReg) (s : State) : Host.Outcome State Fault Refusal :=
  floatOp3 Prefix.floatOnly noDraws (fun l => l.equal) vd va vb s
def execVfclt (vd va vb : VReg) (s : State) : Host.Outcome State Fault Refusal :=
  floatOp3 Prefix.floatOnly noDraws (fun l => l.less) vd va vb s
def execVfcle (vd va vb : VReg) (s : State) : Host.Outcome State Fault Refusal :=
  floatOp3 Prefix.floatOnly noDraws (fun l => l.lessEqual) vd va vb s
def execVfcun (vd va vb : VReg) (s : State) : Host.Outcome State Fault Refusal :=
  floatOp3 Prefix.floatOnly noDraws (fun l => l.unordered) vd va vb s

/-- One level of the pairwise tree of R82. -/
def treeLevel (f : Nat → Nat → Nat → Nat × Cond) : List Nat → List Nat → List Nat × Cond × List Nat
  | a :: b :: rest, us =>
    let (v, c) := f (us.headD 0) a b
    let (vs, c', us') := treeLevel f rest us.tail
    (v :: vs, c ||| c', us')
  | l, us => (l, 0, us)

/-- The tree: levels until one element is left. -/
def tree (f : Nat → Nat → Nat → Nat × Cond) : Nat → List Nat → List Nat → Nat × Cond
  | 0, l, _ => (l.headD 0, 0)
  | n + 1, l, us =>
    let (l', c, us') := treeLevel f l us
    let (v, c') := tree f n l' us'
    (v, c ||| c')

def floatReduce (steps : Prefix → Nat) (f : FloatLane → Nat × Cond) (vd va : VReg) (s : State) :
    Host.Outcome State Fault Refusal :=
  vecTwo noPrefix Prefix.floating steps (fun _ p us q =>
    let t := floatFmt p.afmt
    let (v, c) := tree (fun u a b => f ⟨t.spec, p.rnd, p.sat, u, 0, a, b⟩) t.lanes.log2
      ((List.range t.lanes).map (laneNat t.width q.a)) us
    .ok ⟨BitVec.ofNat 128 v, c⟩) vd va s

def execVfredadd (vd va : VReg) (s : State) : Host.Outcome State Fault Refusal :=
  floatReduce (fun p => (floatFmt p.afmt).lanes - 1) (fun l => l.put (l.A.add l.rnd l.B)) vd va s
def execVfredmax (vd va : VReg) (s : State) : Host.Outcome State Fault Refusal :=
  floatReduce noDraws (fun l => l.extreme false) vd va s

/-! ## Conversions (R203 to R205) -/

/-- The shared conditions on a prefix of 0x3B. -/
def Prefix.converts (p : Prefix) (s d : Nat → Bool) (ratio : Nat → Nat → Bool) : Bool :=
  p.bfmt == p.afmt && p.rnd ≤ 5 && p.sc == 0 && p.sp == 0 && s p.afmt && d p.cfmt &&
  ratio ((Fmt.ofCode p.afmt).getD .fp32).width ((Fmt.ofCode p.cfmt).getD .fp32).width

def fmtOf (n : Nat) : Fmt := (Fmt.ofCode n).getD .fp32

/-- Converts the elements that `src` gives, one draw for each. -/
def convertLanes (p : Prefix) (us : List Nat) (src : Nat → Nat) : VecResult :=
  perLane (fmtOf p.cfmt).width us fun i u => convert (fmtOf p.afmt) (fmtOf p.cfmt) p.rnd p.sat u (src i)

def destLanes (p : Prefix) : Nat := (fmtOf p.cfmt).lanes

def vcvtOk (p : Prefix) : Bool :=
  p.converts (fun s => s ≤ 4 || (6 ≤ s && s ≤ 10)) (fun d => d ≤ 4 || (6 ≤ d && d ≤ 10)) (fun s d => s == d)

def execVcvt (vd va : VReg) (s : State) : Host.Outcome State Fault Refusal :=
  vecTwo noPrefix vcvtOk destLanes (fun _ p us q =>
    .ok (convertLanes p us fun i => laneNat (fmtOf p.afmt).width q.a i)) vd va s

def vpackOk (p : Prefix) : Bool :=
  p.converts (fun s => s ≤ 2 || (8 ≤ s && s ≤ 10)) (fun d => (1 ≤ d && d ≤ 4) || (6 ≤ d && d ≤ 9)) (fun s d => s == 2 * d)

def execVpack (vd va vb : VReg) (s : State) : Host.Outcome State Fault Refusal :=
  vecThree ⟨0, 0, 1, 0, false, 0, 0⟩ vpackOk destLanes (fun _ p us q =>
    let w := (fmtOf p.afmt).width
    .ok (convertLanes p us fun i => if i < 128 / w then laneNat w q.a i else laneNat w q.b (i - 128 / w))) vd va vb s

def vunpkOk (p : Prefix) : Bool :=
  p.converts (fun s => (1 ≤ s && s ≤ 4) || (6 ≤ s && s ≤ 9)) (fun d => d ≤ 2 || (8 ≤ d && d ≤ 10)) (fun s d => 2 * s == d)

/-- The lanes from `from'` on, where the high half begins at the destination's lane count. -/
def unpack (high : Bool) (vd va : VReg) (s : State) : Host.Outcome State Fault Refusal :=
  vecTwo ⟨1, 1, 0, 0, false, 0, 0⟩ vunpkOk destLanes (fun _ p us q =>
    .ok (convertLanes p us fun i => laneNat (fmtOf p.afmt).width q.a (if high then destLanes p + i else i))) vd va s

def execVunpkl (vd va : VReg) (s : State) : Host.Outcome State Fault Refusal := unpack false vd va s
def execVunpkh (vd va : VReg) (s : State) : Host.Outcome State Fault Refusal := unpack true vd va s

/-- One step of the search for the block scale: its value is at least m/6. -/
def scaleFits (m : Ext) (code : Nat) : Bool :=
  match m, blockScale code with
  | .fin _ mm me, .fin _ sm se => !(Ext.fin false (6 * sm) se).lt (.fin false mm me)
  | _, _ => false

/-- The least E3M5 code from 1 to 0xfe that is large enough, else 0xfe; 0 for a zero block. -/
def scaleCode (m : Ext) : Nat :=
  if m.isZero then 0 else (((List.range 254).map (· + 1)).find? (scaleFits m)).getD 0xfe

/-- An element over the scale, as an E2M1 code; a quotient beyond 6 sets sat, also where it rounds to 6. -/
def quantise (rnd u : Nat) (x scale : Ext) : Nat × Cond :=
  match x, scale with
  | .fin n m e, .fin _ sm se =>
    if m = 0 ∨ sm = 0 then (specE2m1.signBit n, 0)
    else
      let (r, c) := specE2m1.roundDigits rnd false u n (quotient m e sm se)
      (r, c ||| when' (((Ext.fin false 6 0).mul scale).1.lt x.absolute) condSat)
  | _, _ => specE2m1.write rnd false u x

/-- `vqnt4` (R204). -/
def quantiseBlock (rnd : Nat) (us : List Nat) (xs : List Ext) : VecResult :=
  if xs.any (·.isNan) then ⟨BitVec.ofNat 128 (0xff * 2 ^ 32), condNv⟩
  else
    let m := xs.foldl (fun m x => if m.lt x.absolute then x.absolute else m) (.fin false 0 0)
    let s := scaleCode m
    let rs := xs.zipIdx.map fun (x, k) => quantise rnd (us.getD k 0) x (blockScale s)
    ⟨BitVec.ofNat 128 ((rs.zipIdx.map fun (r, k) => r.1 * 16 ^ k).sum + s * 2 ^ 32),
      (rs.map (·.2)).foldl (· ||| ·) 0⟩

def vqnt4Ok (p : Prefix) : Bool := p.converts (· ≤ 2) (· == 5) (fun _ _ => true)

def execVqnt4 (vd va vb : VReg) (s : State) : Host.Outcome State Fault Refusal :=
  s.issueLegal .vector (.vqnt4 vd va vb) fun s => do
    let p ← s.cur.prefixFields ⟨0, 0, 5, 0, false, 0, 0⟩ vqnt4Ok
    let t := fmtOf p.afmt
    s.needRegs (if t = .fp32 then [vd, va, vb] else [vd, va])
    let _ ← s.cur.getV vd
    let a ← s.cur.getV va
    let b ← if t = .fp32 then s.cur.getV vb else .ok 0
    let xs := (List.range 8).map fun k =>
      t.value (if t = .fp32 then (if k < 4 then laneNat 32 a k else laneNat 32 b (k - 4)) else laneNat 16 a k)
    let (us, rng) := draws p.rnd s.cur.rng 8
    .ok { s with cur := (s.cur.writeVec vd (quantiseBlock p.rnd us xs) rng).advance 4 }

def vdqnt4Ok (p : Prefix) : Bool := p.converts (· == 5) (fun d => d == 1 || d == 2) (fun _ _ => true)

/-- `vdqnt4` (R205): code × scale, exact in both formats. -/
def execVdqnt4 (vd va : VReg) (s : State) : Host.Outcome State Fault Refusal :=
  vecTwo ⟨5, 5, 1, 0, false, 0, 0⟩ vdqnt4Ok (fun _ => 8) (fun _ p us q =>
    let d := (fmtOf p.cfmt).spec
    let code := q.a.toNat / 2 ^ 32 % 256
    let r := perLane 16 us fun i u =>
      let x := (Ext.mul (specE2m1.value (laneNat 4 q.a i)) (blockScale code)).1
      d.write p.rnd p.sat u x
    .ok { r with cond := r.cond ||| when' (code == 0xff) condSn }) vd va s

/-! ## Modular operations (R70, R206, R207) -/

/-- A modulus that MOD64 operations accept. -/
def goodModulus (q : Nat) : Bool := q % 2 == 1 && 2 < q && q < 2 ^ 62

/-- `modk` of a modulus. -/
def modkOf (q : Word) : Word :=
  if goodModulus q.toNat then BitVec.ofNat 64 (2 ^ (2 * (q.toNat.log2 + 1)) / q.toNat) else 0

/-- The modulus, or the invalid-modulus trap. -/
def Hart.modulus (h : Hart) : Except Exc Nat :=
  if goodModulus h.sys.modq.toNat then .ok h.sys.modq.toNat else .error (trapOf .invalidModulus h.sys.modq)

/-- a - b mod q, for values of any size. -/
def subMod (q a b : Nat) : Nat := (a % q + q - b % q) % q

def modLanes (f : Nat → Nat → Nat → Nat → Nat) (h : Hart) (q : VecArgs) : Except Exc VecResult := do
  let m ← h.modulus
  .ok (perLane 64 [] fun i _ => (f m (laneNat 64 q.c i) (laneNat 64 q.a i) (laneNat 64 q.b i), 0))

def modOp (f : Nat → Nat → Nat → Nat → Nat) (vd va vb : VReg) (s : State) : Host.Outcome State Fault Refusal :=
  vecThree noPrefix Prefix.modular noDraws (fun h _ _ q => modLanes f h q) vd va vb s

def execVmadd (vd va vb : VReg) (s : State) : Host.Outcome State Fault Refusal := modOp (fun q _ a b => (a + b) % q) vd va vb s
def execVmsub (vd va vb : VReg) (s : State) : Host.Outcome State Fault Refusal := modOp (fun q _ a b => subMod q a b) vd va vb s
def execVmmul (vd va vb : VReg) (s : State) : Host.Outcome State Fault Refusal := modOp (fun q _ a b => a * b % q) vd va vb s
def execVmmac (vd va vb : VReg) (s : State) : Host.Outcome State Fault Refusal := modOp (fun q c a b => (c + a * b) % q) vd va vb s

/-- A butterfly on the two lanes of va with the twiddle of vb's lane 0. -/
def butterfly (f : Nat → Nat → Nat → Nat → Nat × Nat) (vd va vb : VReg) (s : State) : Host.Outcome State Fault Refusal :=
  vecThree noPrefix Prefix.modular noDraws (fun h _ _ q => do
    let m ← h.modulus
    let (r0, r1) := f m (laneNat 64 q.a 0) (laneNat 64 q.a 1) (laneNat 64 q.b 0)
    .ok ⟨ofLanes 64 [r0, r1], 0⟩) vd va vb s

def execVntbf (vd va vb : VReg) (s : State) : Host.Outcome State Fault Refusal :=
  butterfly (fun q x y w => ((x + w * y) % q, subMod q x (w * y))) vd va vb s
def execVintbf (vd va vb : VReg) (s : State) : Host.Outcome State Fault Refusal :=
  butterfly (fun q x y w => ((x + y) % q, subMod q x y * w % q)) vd va vb s

def execVmred (vd va : VReg) (s : State) : Host.Outcome State Fault Refusal :=
  vecTwo noPrefix Prefix.modular noDraws (fun h _ _ q => modLanes (fun m _ a _ => a % m) h q) vd va s

/-! ## Moves and queue entries (R132, R208) -/

def execVmov (vd va : VReg) (s : State) : Host.Outcome State Fault Refusal :=
  vecTwo noPrefix Prefix.moves noDraws (fun _ _ _ q => .ok ⟨q.a, 0⟩) vd va s

def execVsplat (vd : VReg) (b : Reg) (s : State) : Host.Outcome State Fault Refusal :=
  s.issue .vector fun s => do
    let p ← s.cur.prefixFields noPrefix Prefix.moves
    s.needRegs [vd]
    let x ← s.cur.getX b
    let _ ← s.cur.getV vd
    let w := (intFmt p.afmt).width
    .ok { s with cur := (s.cur.setV vd (ofLanes w (List.replicate (128 / w) x.toNat))).advance 4 }

def execVext (b : Reg) (va : VReg) (idx : BitVec 7) (s : State) : Host.Outcome State Fault Refusal :=
  s.issueLegal .vector (.vext b va idx) fun s => do
    let p ← s.cur.prefixFields noPrefix Prefix.moves
    let t := intFmt p.afmt
    s.needRegs [va]
    s.cur.needX b
    let a ← s.cur.getV va
    .ok { s with cur := (s.cur.setX b (BitVec.ofInt 64 (t.int (laneNat t.width a idx.toNat)))).advance 4 }

def execVins (vd : VReg) (b : Reg) (idx : BitVec 7) (s : State) : Host.Outcome State Fault Refusal :=
  s.issueLegal .vector (.vins vd b idx) fun s => do
    let p ← s.cur.prefixFields noPrefix Prefix.moves
    let t := intFmt p.afmt
    s.needRegs [vd]
    let x ← s.cur.getX b
    let c ← s.cur.getV vd
    let r := perLane t.width [] fun i _ => (if i = idx.toNat then x.toNat else laneNat t.width c i, 0)
    .ok { s with cur := (s.cur.setV vd r.value).advance 4 }

def execVqpop (vd : VReg) (q : BitVec 2) (s : State) : Host.Outcome State Fault Refusal :=
  s.issue .vector fun s => do
    let _ ← s.cur.prefixFields noPrefix Prefix.moves
    s.needRegs [vd]
    let _ ← s.cur.getV vd
    s.pop q.toNat (.vector vd.toNat) 4

def execSputv (va : VReg) (s : State) : Host.Outcome State Fault Refusal :=
  s.issue .vector fun s => do
    let _ ← s.cur.prefixFields noPrefix Prefix.moves
    s.needRegs [va]
    let a ← s.cur.getV va
    s.put a .none

end Sys2Proof.Machine
end

