-- ==== Sys2Proof/Machine/MatrixMath.lean ====
section
/-! DEFINITION. What a matrix command reads and computes: the layout of its operands, one chunk step of a row group, modular
products, and the stages of a transform (R80, R81, R210, R216, R219, R220, R243 to R249). -/

namespace Sys2Proof.Machine

open Sys2Proof

/-! ## What a command captured (R215, R218) -/

def MatrixCommand.word (k : MatrixCommand) (i : Nat) : Word := k.desc.getD i 0

/-- Rows and columns. -/
def MatrixCommand.m (k : MatrixCommand) : Nat := field (k.word 12) 0 6 + 1
def MatrixCommand.n (k : MatrixCommand) : Nat := field (k.word 12) 8 6 + 1
/-- K, or lgn of a transform. -/
def MatrixCommand.depth (k : MatrixCommand) : Nat := (k.word 13).toNat

/-- The f3 of a compute command; 7 for the others. -/
def MatrixCommand.f3 (k : MatrixCommand) : Nat :=
  match k.op with
  | .compute f => f
  | _ => 7

def MatrixCommand.isCompute (k : MatrixCommand) : Bool :=
  match k.op with
  | .compute _ => true
  | _ => false

/-- `mma`, `mmaz`, `mmas`. -/
def MatrixCommand.isProduct (k : MatrixCommand) : Bool := k.f3 ≤ 2
/-- `mntt`, `mintt`. -/
def MatrixCommand.isTransform (k : MatrixCommand) : Bool := k.f3 == 4 || k.f3 == 5

/-- Without a prefix, BF16 into FP32 (R76). -/
def matrixDefault : Prefix := ⟨1, 1, 0, 0, false, 0, 0⟩

def MatrixCommand.fields (k : MatrixCommand) : Prefix := (k.fmt.map Prefix.ofWord).getD matrixDefault

def MatrixCommand.aFmt (k : MatrixCommand) : Fmt := if k.isProduct then (Fmt.ofCode k.fields.afmt).getD .bf16 else .mod64
def MatrixCommand.bFmt (k : MatrixCommand) : Fmt := if k.isProduct then (Fmt.ofCode k.fields.bfmt).getD .bf16 else .mod64

/-- Stored elements of a 16-position group; 0 for a dense A (R220). -/
def MatrixCommand.stored (k : MatrixCommand) : Nat := if k.f3 = 2 then (if k.fields.sp = 2 then 4 else 8) else 0

/-- Chunk length and rows of a row group (R210, R243). -/
def MatrixCommand.chunk (k : MatrixCommand) : Nat := if k.f3 = 3 then 64 else if k.aFmt = .bf16 then 8 else 32
def MatrixCommand.group (k : MatrixCommand) : Nat :=
  if k.f3 = 3 then 1
  else (if k.aFmt = .e2m1 ∨ k.aFmt = .bf16 then 8 else 4) * (if k.f3 = 2 then 2 else 1)

/-- Block scales are read; band scales are (R77, R219). -/
def MatrixCommand.blockScales (k : MatrixCommand) : Bool := k.isProduct && k.aFmt == .e2m1 && k.fields.sc == 0
def MatrixCommand.bandScales (k : MatrixCommand) : Bool :=
  k.isProduct && k.aFmt.isFloat && (k.fields.sc == 1 || (k.aFmt == .e2m1 && k.fields.sc == 0))

/-! ## Pieces of operands (R216) -/

/-- Cuts `len` bytes from an address into pieces that lie in one 32-byte block each. -/
def cutPieces (stream line : Nat) : Nat → Word → Nat → List Piece
  | 0, _, _ => []
  | fuel + 1, va, len =>
    if len = 0 then []
    else
      let n := min len (32 - va.toNat % 32)
      ⟨stream, line, va.toNat, n⟩ :: cutPieces stream line fuel (va + BitVec.ofNat 64 n) (len - n)

/-- A run of bytes that a command reads: stream, line, first address, length. -/
structure Run where
  stream : Nat
  line : Nat
  va : Word
  len : Nat

def Run.pieces (r : Run) : List Piece := cutPieces r.stream r.line (r.len / 32 + 2) r.va r.len

/-- Address of a line: a base and a signed stride. -/
def lineAt (base stride : Word) (i : Nat) : Word := base + BitVec.ofNat 64 i * stride

/-- The stride of block scales, bits 31 to 0. -/
def scaleStride (w : Word) : Word := (w.setWidth 32).signExtend 64

/-- Elements of a line in the chunk from `kc` on; of a sparse A the stored ones of every group that the chunk touches. -/
def MatrixCommand.aRun (k : MatrixCommand) (kc i : Nat) : Run :=
  let k1 := min (kc + k.chunk) k.depth
  let w := k.aFmt.width
  let base := lineAt (k.word 0) (k.word 1) i
  if k.stored = 0 then ⟨0, i, base + BitVec.ofNat 64 (kc * w / 8), (k1 - kc) * w / 8⟩
  else
    let g := kc / 16
    ⟨0, i, base + BitVec.ofNat 64 (g * k.stored * w / 8), ((k1 - 1) / 16 + 1 - g) * k.stored * w / 8⟩

def MatrixCommand.bRun (k : MatrixCommand) (kc j : Nat) : Run :=
  let w := k.bFmt.width
  ⟨1, j, lineAt (k.word 2) (k.word 3) j + BitVec.ofNat 64 (kc * w / 8), (min (kc + k.chunk) k.depth - kc) * w / 8⟩

def MatrixCommand.scaleRun (k : MatrixCommand) (stream d kc i : Nat) : Run :=
  ⟨stream, i, lineAt (k.word d) (scaleStride (k.word (d + 1))) i + BitVec.ofNat 64 (kc / 8),
    (min (kc + k.chunk) k.depth - 1) / 8 + 1 - kc / 8⟩

def MatrixCommand.maskRun (k : MatrixCommand) (kc i : Nat) : Run :=
  ⟨4, i, lineAt (k.word 10) (k.word 11) i + BitVec.ofNat 64 (2 * (kc / 16)),
    2 * ((min (kc + k.chunk) k.depth - 1) / 16 + 1 - kc / 16)⟩

/-- The rows of a row group. -/
def MatrixCommand.rows (k : MatrixCommand) (first : Nat) : List Nat :=
  (List.range (min (first + k.group) k.m - first)).map (first + ·)

/-- The runs that one row group reads: of its rows of A, and of B's columns in the chunk. -/
def MatrixCommand.aRuns (k : MatrixCommand) (kc first : Nat) : List Run :=
  (k.rows first).flatMap fun i =>
    (if k.stored = 0 then [] else [k.maskRun kc i]) ++ [k.aRun kc i] ++
      (if k.blockScales then [k.scaleRun 2 6 kc i] else [])

def MatrixCommand.bRuns (k : MatrixCommand) (kc : Nat) : List Run :=
  (List.range k.n).flatMap fun j => [k.bRun kc j] ++ (if k.blockScales then [k.scaleRun 3 8 kc j] else [])

/-- The bytes of a run, from the pieces read. -/
def MatrixCommand.bytesOf (k : MatrixCommand) (r : Run) : Nat :=
  (r.pieces.foldr (fun p acc => ((k.got.find? fun g => g.1 == p).map (·.2)).getD 0 % 256 ^ p.bytes + 256 ^ p.bytes * acc) 0)

/-- Element `i` of width `w` of a run's bytes. -/
def element (w v i : Nat) : Nat := v / 2 ^ (w * i) % 2 ^ w

/-! ## A chunk step (R69, R80, R81, R219, R220) -/

/-- A group's mask names the right number of elements. -/
def popCount (n : Nat) : Nat := ((List.range 16).filter fun i => n.testBit i).length

/-- The masks of a row in a chunk: the address of the first bad one, if any. -/
def MatrixCommand.badMask (k : MatrixCommand) (kc i : Nat) : Option Word :=
  if k.stored = 0 then .none
  else
    let r := k.maskRun kc i
    let v := k.bytesOf r
    ((List.range (r.len / 2)).find? fun g => popCount (element 16 v g) != k.stored).map fun g => r.va + BitVec.ofNat 64 (2 * g)

/-- The codes of row `i` of A at the positions of a chunk; none where the mask drops the position. -/
def MatrixCommand.aCodes (k : MatrixCommand) (kc i : Nat) : List (Option Nat) :=
  let k1 := min (kc + k.chunk) k.depth
  let w := k.aFmt.width
  let v := k.bytesOf (k.aRun kc i)
  if k.stored = 0 then (List.range (k1 - kc)).map fun e => .some (element w v e)
  else
    let mask := k.bytesOf (k.maskRun kc i)
    let low := kc / 16 * 16
    (List.range (k1 - kc)).map fun e =>
      let p := kc - low + e
      if mask.testBit p then .some (element w v ((List.range p).countP fun q => mask.testBit q)) else .none

def MatrixCommand.bCodes (k : MatrixCommand) (kc j : Nat) : List Nat :=
  let v := k.bytesOf (k.bRun kc j)
  (List.range (min (kc + k.chunk) k.depth - kc)).map fun e => element k.bFmt.width v e

/-- The scale of the block of position `kc + e`, or 1. -/
def MatrixCommand.scaleCodes (k : MatrixCommand) (stream d kc i : Nat) : List Nat :=
  if k.blockScales then
    let r := k.scaleRun stream d kc i
    (List.range r.len).map (element 8 (k.bytesOf r))
  else []

def scaleOf (codes : List Nat) (e : Nat) : Ext :=
  match codes[e / 8]? with
  | .some c => blockScale c
  | .none => .fin false 1 0

/-- A line's elements under their block scales, with the conditions of reading them. -/
def scaledLine (f : Fmt) (codes : List (Option Nat)) (scales : List Nat) : List (Option Ext) × Cond :=
  let es := codes.mapIdx fun e c => c.map fun c => (f.value c).mul (scaleOf scales e)
  (es.map (·.map (·.1)), (es.map fun e => (e.map (·.2)).getD 0).foldl (· ||| ·) (when' (scales.contains 0xff) condSn))

/-- The pairs of elements that a chunk multiplies; a dropped position contributes zero. -/
def chunkPairs (a b : List (Option Ext)) : List (Ext × Ext) :=
  (a.zip b).filterMap fun
    | (.some x, .some y) => .some (x, y)
    | _ => .none

/-- The exact sum of a chunk's products. Infinities of both signs among them make it NaN with nv, whatever else is there (R80). -/
def chunkSum (xs : List (Ext × Ext)) : Ext × Cond :=
  let ps := xs.map fun (x, y) => x.mul y
  let clash := (ps.any fun p => p.1 == .inf true) && ps.any fun p => p.1 == .inf false
  ps.foldl (fun (s, c) (p, c1) =>
    let (t, c2) := s.add 0 p
    (t, c ||| c1 ||| c2)) (.fin false 0 0, when' clash condNv)

/-- The draws of one element for a chunk: its own sequence, two for each chunk (R72). -/
def elementDraws (seed i j chunkNo : Nat) : Nat × Nat :=
  let s0 := BitVec.ofNat 32 (seed ^^^ (i * 2 ^ 16) ^^^ j)
  let s0 := if s0 = 0 then 0x6a09e667 else s0
  let u := nextRandom ((List.range (2 * chunkNo)).foldl (fun s _ => nextRandom s) s0)
  (u.toNat, (nextRandom u).toNat)

/-- An infinite band scale meets a zero element of its own operand, or makes infinite an element that meets a zero of the other: NaN with
nv (R69). -/
def bandClash (bands : Ext × Ext) (xs : List (Ext × Ext)) : Bool :=
  xs.any fun (x, y) => (bands.1.isInf || bands.2.isInf) && (x.isZero || y.isZero)

/-- The sum of a chunk under the band scales' rule for zero elements. -/
def bandSum (bands : Ext × Ext) (xs : List (Ext × Ext)) : Ext × Cond :=
  let (s, c) := chunkSum xs
  if bandClash bands xs then (.nan false, c ||| condNv) else (s, c)

/-- One float step: round the scaled sum, add it to the accumulator, round again. -/
def floatStep (p : Prefix) (bands : Ext × Ext) (us : Nat × Nat) (acc : Nat) (sum : Ext × Cond) : Nat × Cond :=
  let (s1, c1) := sum.1.mul bands.1
  let (s2, c2) := s1.mul bands.2
  let x := if sum.1.isZero && s2.isZero then .fin (p.rnd == 2) 0 0 else s2
  let (t, c3) := specFp32.write p.rnd p.sat us.1 x
  let (y, c4) := (specFp32.value acc).add p.rnd (specFp32.value t)
  let (r, c5) := specFp32.write p.rnd p.sat us.2 y
  (r, sum.2 ||| c1 ||| c2 ||| c3 ||| c4 ||| c5)

/-- The band scales: bits 47 to 32 of the captured words, or 1. -/
def MatrixCommand.bands (k : MatrixCommand) : Ext × Ext :=
  if k.bandScales then (specBf16.value (field (k.word 7) 32 16), specBf16.value (field (k.word 9) 32 16))
  else (.fin false 1 0, .fin false 1 0)

def Tile.word (t : Tile) (i : Nat) : Nat := (t.words.getD i 0).toNat

def Tile.setWord (t : Tile) (i v : Nat) : Tile := { t with words := t.words.setIfInBounds i (BitVec.ofNat 32 v) }

def Tile.note (t : Tile) (c : Cond) (iov : Bool) : Tile := { t with flags := t.flags ||| c, iov := t.iov || iov }

/-- One element of the accumulator takes a chunk step. -/
def MatrixCommand.stepElement (k : MatrixCommand) (kc i j : Nat) (a b : List (Option Ext)) (ia ib : List Int) (t : Tile) :
    Tile :=
  let at' := 64 * i + j
  if k.aFmt.isFloat then
    let (r, c) := floatStep k.fields k.bands (elementDraws k.seed i j (kc / k.chunk)) (t.word at')
      (bandSum k.bands (chunkPairs a b))
    (t.setWord at' r).note c false
  else
    let v := Fmt.int32.int (t.word at') + (List.zipWith (· * ·) ia ib).foldl (· + ·) 0
    let (r, c) := Fmt.int32.writeInt k.fields.sat v
    (t.setWord at' r).note c (!k.fields.sat && Fmt.int32.clamp v != v)

/-- A row group of `mma`, `mmaz` or `mmas` takes its chunk step. A signalling NaN of B sets nv at a position too that the mask drops
(DESIGN CHOICE, log 50). -/
def MatrixCommand.productGroup (k : MatrixCommand) (kc first : Nat) (t : Tile) : Tile :=
  let cols := (List.range k.n).map fun j =>
    let codes := k.bCodes kc j
    (j, scaledLine k.bFmt (codes.map .some) (k.scaleCodes 3 8 kc j), codes.map k.bFmt.int)
  (k.rows first).foldl (fun t i =>
    let codes := k.aCodes kc i
    let a := scaledLine k.aFmt codes (k.scaleCodes 2 6 kc i)
    let ia := codes.map fun c => (c.map k.aFmt.int).getD 0
    cols.foldl (fun t (j, b, ib) =>
      let t := if k.aFmt.isFloat then t.note (a.2 ||| b.2) false else t
      k.stepElement kc i j a.1 b.1 ia ib t) t) t

/-! ## Modular products (R243, R244) -/

/-- The accumulator of element (i, j): five words, low word first. -/
def Tile.wide (t : Tile) (i j : Nat) : Nat :=
  (List.range 5).foldr (fun w acc => t.word (5 * (16 * i + j) + w) + 2 ^ 32 * acc) 0

def Tile.setWide (t : Tile) (i j v : Nat) : Tile :=
  (List.range 5).foldl (fun t w => t.setWord (5 * (16 * i + j) + w) (v / 2 ^ (32 * w))) t

/-- The modulus of a modular command or tile. -/
def TileKind.modulus : TileKind → Nat
  | .modular q => q
  | _ => 1

/-- A row of `mmod` takes its chunk step. -/
def MatrixCommand.modularGroup (k : MatrixCommand) (kc i : Nat) (t : Tile) : Tile :=
  let q := k.kind.modulus
  let a := (k.aCodes kc i).map (·.getD 0)
  (List.range k.n).foldl (fun t j =>
    let acc := t.wide i j
    let acc := if 2 ^ 135 ≤ acc then acc % q else acc
    t.setWide i j (acc + (List.zipWith (· * ·) a (k.bCodes kc j)).foldl (· + ·) 0)) t

/-! ## Transforms (R245 to R248) -/

/-- The `n` low bits of a number, reversed. -/
def bitReverse : Nat → Nat → Nat
  | 0, _ => 0
  | n + 1, v => v % 2 * 2 ^ n + bitReverse n (v / 2)

/-- Passes of a transform, and block steps of a pass. -/
def passes (lgn : Nat) : Nat := if lgn ≤ 11 then 1 else lgn - 10
def blocksOf (lgn : Nat) : Nat := if lgn ≤ 11 then 1 else 2 ^ (lgn - 11)

/-- What one block step covers: the runs of element numbers, in order, and for each stage of it the distance between the two
elements of a butterfly within the block, and the table entry of butterfly number `t`. -/
structure BlockStep where
  /-- (first element, count). -/
  runs : List (Nat × Nat)
  /-- (distance, first table entry). -/
  stages : List (Nat × Nat)
  /-- The final scaling of `mintt`. -/
  scale : Bool

/-- The tile pass: the stages of distance `d` up to half the block, on 2048 consecutive elements or the whole polynomial. -/
def tilePass (inverse : Bool) (lgn b : Nat) : BlockStep :=
  let n := 2 ^ lgn
  let size := min n 2048
  let lgs := min lgn 11
  let stage := fun e => (2 ^ e, (if inverse then n else 0) + n / 2 ^ (e + 1) + b * size / 2 ^ (e + 1))
  let up := (List.range lgs).map stage
  { runs := [(b * size, size)], stages := if inverse then up else up.reverse, scale := inverse && lgn ≤ 11 }

/-- A wide pass of distance `len`: 1024 butterflies, whose table entry is one. The lower run of elements comes first in the block, and
so in the tile's words after it (DESIGN CHOICE, log 50). -/
def widePass (inverse : Bool) (lgn len b : Nat) : BlockStep :=
  let n := 2 ^ lgn
  let g := 1024 * b / len
  let j := 2 * len * g + 1024 * b % len
  { runs := [(j, 1024), (j + len, 1024)]
    stages := [(1024, (if inverse then n else 0) + n / (2 * len) + g)], scale := inverse && 2 * len == n }

/-- The block step of pass `p`, block `b`. -/
def blockStep (inverse : Bool) (lgn p b : Nat) : BlockStep :=
  if lgn ≤ 11 then tilePass inverse lgn b
  else if inverse then (if p = 0 then tilePass true lgn b else widePass true lgn (2 ^ (10 + p)) b)
  else if p + 1 < passes lgn then widePass false lgn (2 ^ (lgn - 1 - p)) b
  else tilePass false lgn b

/-- The runs of table entries that a block step reads, in the order in which its butterflies use them. -/
def BlockStep.tableRuns (st : BlockStep) (size : Nat) : List (Nat × Nat) :=
  (st.stages.map fun (d, e) => (e, size / (2 * d))) ++ (if st.scale then [(0, 1)] else [])

/-- The butterfly of `mntt` (R207), and of `mintt`. -/
def butterflyOf (inverse : Bool) (q x y w : Nat) : Nat × Nat :=
  if inverse then ((x + y) % q, subMod q x y * w % q) else ((x + w * y) % q, subMod q x (w * y))

/-- One stage on a block: butterfly `t` joins elements `2·d·(t/d) + t%d` and the one `d` further. -/
def runStage (inverse : Bool) (q d : Nat) (tw : Nat → Nat) (a : Array Nat) : Array Nat :=
  (List.range (a.size / 2)).foldl (fun a t =>
    let j := 2 * d * (t / d) + t % d
    let r := butterflyOf inverse q (a.getD j 0) (a.getD (j + d) 0) (tw (t / d))
    (a.setIfInBounds j r.1).setIfInBounds (j + d) r.2) a

/-- A whole block step; `tw` gives the table entry of a number. -/
def BlockStep.apply (st : BlockStep) (inverse : Bool) (q : Nat) (tw : Nat → Nat) (a : Array Nat) : Array Nat :=
  let a := st.stages.foldl (fun a (d, e) => runStage inverse q d (fun g => tw (e + g)) a) a
  if st.scale then a.map fun x => x * tw 0 % q else a

/-- The polynomial, pass and block that a progress point names. -/
def MatrixCommand.stepAt (k : MatrixCommand) (kpos : Nat) : BlockStep :=
  blockStep (k.f3 == 5) k.depth (kpos / 64) (kpos % 64)

/-- Elements of row `i` that a block step reads or writes, in memory: the first pass reads A, everything else is C. -/
def MatrixCommand.elementRuns (k : MatrixCommand) (kpos i : Nat) (write : Bool) : List Run :=
  let first := kpos < 64 && !write
  let base := if first then lineAt (k.word 0) (k.word 1) i else lineAt (k.word 4) (k.word 5) i
  (k.stepAt kpos).runs.map fun (e, c) =>
    ⟨if write then 6 else 0, i, base + BitVec.ofNat 64 (8 * e), 8 * c⟩

def MatrixCommand.tableRuns (k : MatrixCommand) (kpos i : Nat) : List Run :=
  ((k.stepAt kpos).tableRuns (min (2 ^ k.depth) 2048)).map fun (e, c) => ⟨1, i, k.word 2 + BitVec.ofNat 64 (8 * e), 8 * c⟩

/-- The elements of a list of runs. -/
def MatrixCommand.elementsOf (k : MatrixCommand) (rs : List Run) : List Nat :=
  rs.flatMap fun r => (List.range (r.len / 8)).map (element 64 (k.bytesOf r))

/-- The new elements of a block step whose operands have been read. -/
def MatrixCommand.blockResult (k : MatrixCommand) (kpos i : Nat) : List Nat :=
  let st := k.stepAt kpos
  let entry := fun n => (((st.tableRuns (min (2 ^ k.depth) 2048)).zip (k.tableRuns kpos i)).findSome? fun ((e, c), r) =>
    if e ≤ n ∧ n < e + c then .some (element 64 (k.bytesOf r) (n - e)) else .none).getD 0
  (st.apply (k.f3 == 5) k.kind.modulus entry (k.elementsOf (k.elementRuns kpos i false)).toArray).toList

/-- The progress point after a block step. -/
def nextBlock (lgn kpos row : Nat) : Nat × Nat :=
  let p := kpos / 64
  let b := kpos % 64
  if b + 1 < blocksOf lgn then (kpos + 1, row)
  else if p + 1 < passes lgn then (64 * (p + 1), row)
  else (0, row + 1)

/-! ## Twiddle tables (R247, R249) -/

/-- `b ^ e mod q`. -/
def powMod (q b : Nat) : Nat → Nat → Nat
  | 0, _ => 1 % q
  | fuel + 1, e =>
    if e = 0 then 1 % q
    else
      let h := powMod q (b * b % q) fuel (e / 2)
      if e % 2 = 1 then h * b % q else h

/-- Entry `e` of the table of ψ; the inverse of a power is the power that completes it to ψ^2n = 1, and 2^-1 is (q+1)/2. -/
def twiddle (q lgn psi e : Nat) : Nat :=
  let n := 2 ^ lgn
  let pw := fun x => powMod q (psi % q) 64 x
  if e = 0 then powMod q ((q + 1) / 2) 64 lgn
  else if e < n then pw (bitReverse lgn e)
  else if e = n then psi % q
  else pw (2 * n - bitReverse lgn (e - n))

/-- ψ^n = -1 modulo q. -/
def isRoot (q lgn psi : Nat) : Bool := powMod q (psi % q) 64 (2 ^ lgn) == q - 1

/-! ## Drains (R216, R225 to R227, R244) -/

def MatrixCommand.drainFmt (k : MatrixCommand) : Fmt := (Fmt.ofCode (field k.control 0 4)).getD .fp32

def TileKind.isModular : TileKind → Bool
  | .modular _ => true
  | _ => false

/-- Bits of a drained element. -/
def MatrixCommand.drainWidth (k : MatrixCommand) : Nat := if k.kind.isModular then 64 else k.drainFmt.width

/-- A drained element with the conditions of its conversion. -/
def MatrixCommand.drained (k : MatrixCommand) (t : Tile) (i j : Nat) : Nat × Cond :=
  match k.kind with
  | .modular q => (t.wide i j % q, 0)
  | _ =>
    convert (if field k.control 0 4 ≤ 4 then .fp32 else .int32) k.drainFmt (field k.control 4 3) (k.control.getLsbD 7) 0
      (t.word (64 * i + j))

/-- The conditions of a whole drain. -/
def MatrixCommand.drainCond (k : MatrixCommand) (t : Tile) : Cond :=
  (List.range k.m).foldl (fun c i => (List.range k.n).foldl (fun c j => c ||| (k.drained t i j).2) c) 0

/-- Bytes of a row, and of the whole drain. -/
def MatrixCommand.rowBytes (k : MatrixCommand) : Nat := k.n * k.drainWidth / 8
def MatrixCommand.drainTotal (k : MatrixCommand) : Nat := k.m * k.rowBytes

/-- A row as one number. -/
def MatrixCommand.drainRow (k : MatrixCommand) (t : Tile) (i : Nat) : Nat :=
  (List.range k.n).foldr (fun j acc => (k.drained t i j).1 + 2 ^ k.drainWidth * acc) 0

/-- The pieces of a drain, rows in ascending order. -/
def MatrixCommand.drainPieces (k : MatrixCommand) : List Piece :=
  (List.range k.m).flatMap fun i => (Run.pieces ⟨5, i, lineAt (k.word 4) (k.word 5) i, k.rowBytes⟩)

/-- The value of a piece. -/
def MatrixCommand.drainValue (k : MatrixCommand) (t : Tile) (p : Piece) : Nat :=
  let start := (lineAt (k.word 4) (k.word 5) p.line).toNat
  k.drainRow t p.line / 256 ^ ((p.va + 2 ^ 64 - start) % 2 ^ 64) % 256 ^ p.bytes

/-- The entries that a row of `mdrainq` makes, the last one padded with zeros. -/
def MatrixCommand.drainEntries (k : MatrixCommand) (t : Tile) : List Vec :=
  (List.range k.m).flatMap fun i =>
    let row := k.drainRow t i
    (List.range ((k.n * k.drainWidth + 127) / 128)).map fun e => BitVec.ofNat 128 (row / 2 ^ (128 * e))

/-- The drained rectangle set to zero. -/
def MatrixCommand.clearRect (k : MatrixCommand) (t : Tile) : Tile :=
  (List.range k.m).foldl (fun t i => (List.range k.n).foldl (fun t j =>
    if k.kind.isModular then t.setWide i j 0 else t.setWord (64 * i + j) 0) t) t

end Sys2Proof.Machine
end

