-- ==== Sys2Proof/Machine/Matrix.lean ====
section
/-! DEFINITION. The matrix array: leases, descriptors, and the issue of its commands: primaries 0x50 to 0x53 (R209 to R237,
R241 to R250). -/

namespace Sys2Proof.Machine

open Sys2Proof

/-! ## Arrays and banks (R209) -/

def State.arrayOf (s : State) (cl : ClusterId) : MatrixArray := lookupBy MatrixArray.cl { cl := cl } cl s.arrays

def State.setArray (s : State) (a : MatrixArray) : State := { s with arrays := storeBy MatrixArray.cl a s.arrays }

def State.withArray (s : State) (cl : ClusterId) (f : MatrixArray → MatrixArray) : State := s.setArray (f (s.arrayOf cl))

def MatrixArray.bank (a : MatrixArray) (b : Nat) : Bank := a.banks.getD b {}

def MatrixArray.withBank (a : MatrixArray) (b : Nat) (f : Bank → Bank) : MatrixArray :=
  { a with banks := a.banks.setIfInBounds b (f (a.bank b)) }

def State.bank (s : State) (cl : ClusterId) (b : Nat) : Bank := (s.arrayOf cl).bank b

def State.withBank (s : State) (cl : ClusterId) (b : Nat) (f : Bank → Bank) : State := s.withArray cl (·.withBank b f)

def Bank.tile (k : Bank) (t : Nat) : Tile := k.tiles.getD t {}

def Bank.withTile (k : Bank) (t : Nat) (f : Tile → Tile) : Bank := { k with tiles := k.tiles.setIfInBounds t (f (k.tile t)) }

def State.withTile (s : State) (cl : ClusterId) (b t : Nat) (f : Tile → Tile) : State :=
  s.withBank cl b fun k => k.withTile t f

/-- The bank of a core's partition in its cluster. -/
def State.bankOf (s : State) (c : CoreId) : Nat :=
  if (s.partOfCore c).any fun p => p.halfAt (clusterOf c) == 2 then 1 else 0

/-- The cores whose partition owns a bank. -/
def State.bankCores (s : State) (cl : ClusterId) (b : Nat) : List CoreId :=
  ((List.range 8).map (clusterCore cl)).filter fun c => (s.coreOf c).part.isSome && s.bankOf c == b

/-- M-cycles and tenant of the partition of a bank. -/
def State.bankCycles (s : State) (cl : ClusterId) (b : Nat) : Nat := s.mCycles (clusterCore cl (4 * b))
def State.bankTenant (s : State) (cl : ClusterId) (b : Nat) : TenantNo :=
  ((s.bankCores cl b).head?.bind s.partOfCore).elim 0 (·.tenant)

/-! ## Commands in a bank -/

/-- Queued or running compute commands. -/
def Bank.computing (k : Bank) : Bool := k.queue.any fun c => c.isCompute && !c.suspended

/-- It has compute commands that have still to start. -/
def Bank.awaiting (k : Bank) : Bool := k.queue.any fun c => c.isCompute && !c.suspended && !c.running

def Bank.setCommand (k : Bank) (c : MatrixCommand) : Bank :=
  { k with queue := k.queue.map fun q => if q.id = c.id then c else q }

def Bank.dropCommand (k : Bank) (c : MatrixCommand) : Bank := { k with queue := k.queue.filter fun q => q.id != c.id }

/-- The state of a tile: 0 idle, 1 pending, 2 suspended, 3 aborted (R232). -/
def Bank.tileState (k : Bank) (t : Nat) : Nat :=
  if k.queue.any fun c => c.tile == t && c.suspended then 2
  else if (k.tile t).aborted then 3
  else if k.queue.any fun c => c.tile == t then 1 else 0

/-- The status word of a tile (R232). -/
def Bank.statusWord (k : Bank) (t : Nat) : Word :=
  let w := k.tile t
  BitVec.ofNat 64 (w.flags.toNat + w.iov.toNat * 2 ^ 7 + (k.queue.countP fun c => c.tile == t) * 2 ^ 16 +
    k.tileState t * 2 ^ 32 + w.cause * 2 ^ 40)

/-- The progress of a tile, as `mprog` lays it out (R233). -/
def Bank.progress (k : Bank) (t : Nat) : Word :=
  let w := k.tile t
  BitVec.ofNat 64 (w.row % 2 ^ 7 + w.kpos % 2 ^ 17 * 2 ^ 16 + k.tileState t * 2 ^ 48 + t * 2 ^ 52)

/-- `mlease` (R211). -/
def Bank.leaseWord (k : Bank) : Word :=
  BitVec.ofNat 64 (k.max + k.tlim * 2 ^ 8 + k.left * 2 ^ 16 + k.weight * 2 ^ 40 + k.lease * 2 ^ 48)

/-- A write to `mlease`: max and tlim. -/
def Bank.writeLease (k : Bank) (v : Word) : Bank := { k with max := field v 0 8, tlim := field v 8 6 }

/-- A write to `mprog` at S (R234). -/
def Bank.writeProgress (k : Bank) (v : Word) : Bank :=
  let t := field v 52 2
  if k.tileState t = 2 then
    { k.withTile t fun w => { w with kpos := field v 16 17, row := field v 0 7 } with shown := t }
  else k

/-! ## Leases (R213, R214, R346) -/

/-- A thread of the bank's partition waits in `mlease`. -/
def State.leaseWaiters (s : State) (cl : ClusterId) (b : Nat) : Bool :=
  (s.bankCores cl b).any fun c => (List.range (s.coreOf c).threads).any fun i =>
    match (s.hartOf (.core c i)).wait with
    | .lease _ => true
    | _ => false

/-- A partition that runs asks for the lease, with compute commands queued or threads waiting. -/
def State.competes (s : State) (cl : ClusterId) (b : Nat) : Bool :=
  let k := s.bank cl b
  ((s.bankCores cl b).any fun c => (s.partOfCore c).any fun p => p.state == .running) &&
  (k.lease == 1 || (k.lease == 2 && (s.arrayOf cl).ending == .some b)) && (k.awaiting || s.leaseWaiters cl b)

/-- Keeps the time since when the holder has been idle while another competes. -/
def State.touchLease (s : State) (cl : ClusterId) : State :=
  let a := s.arrayOf cl
  match a.holder with
  | .none => s.setArray { a with idleSince := .none }
  | .some b =>
    if s.competes cl (1 - b) && !(a.bank b).computing then
      s.setArray { a with idleSince := .some (a.idleSince.getD (s.bankCycles cl b)) }
    else s.setArray { a with idleSince := .none }

/-- Threads that wait in `mlease` go on. -/
def State.wakeLease (s : State) (cl : ClusterId) (b : Nat) : State :=
  (s.bankCores cl b).foldl (fun s c => (List.range (s.coreOf c).threads).foldl (fun s i =>
    match (s.hartOf (.core c i)).wait with
    | .lease d => s.finish (.core c i) 4 fun h => h.setX d 0
    | _ => s) s) s

/-- A trace unit notes that the lease of a cluster was granted or ended (R377), under the holder's lowest core. -/
def State.traceLease (s : State) (type : Nat) (cl : ClusterId) (b : Nat) : State :=
  s.trace type ((s.bankCores cl b).headD (clusterCore cl (4 * b))) 0xff 0 (BitVec.ofNat 64 cl)

/-- A grant (R213). -/
def State.grantLease (s : State) (cl : ClusterId) (b : Nat) : State :=
  let s := s.withArray cl fun a =>
    let k := a.bank b
    { (a.withBank b fun k => { k with
        lease := 2, left := k.max + 1, queue := k.queue.map fun c => { c with overSince := .none } }) with
      holder := .some b, ending := .none, grants := a.grants + 1, grantedAt := s.bankCycles cl b
      limit := (k.tlim + 1) * 1024, idleSince := .none }
  ((s.wakeLease cl b).touchLease cl).traceLease 6 cl b

/-- The lease ends: the holder is granted again at once when no other partition competes; otherwise the arbiter grants. -/
def State.endLease (s : State) (cl : ClusterId) : State :=
  let a := s.arrayOf cl
  match a.holder with
  | .none => s
  | .some b =>
    let mark := fun (c : MatrixCommand) =>
      if c.running && c.isCompute then { c with overSince := .some (s.bankCycles cl b) } else c
    let s := s.setArray { (a.withBank b fun k => { k with queue := k.queue.map mark }) with
      holder := .none, last := .some b, idleSince := .none }
    let s := s.traceLease 7 cl b
    if s.competes cl (1 - b) then s.withArray cl fun a => { a with ending := .some b }
    else if (a.bank b).lease = 2 then s.grantLease cl b
    else s

/-- A change of who competes: where the other partition no longer does, a lease that had ended is granted again at once to a holder
that still has it, or the array is free. -/
def State.settleLease (s : State) (cl : ClusterId) : State :=
  let s := s.touchLease cl
  match (s.arrayOf cl).ending with
  | .none => s
  | .some b =>
    if s.competes cl (1 - b) then s
    else
      let s := s.withArray cl fun a => { a with ending := .none }
      if (s.bank cl b).lease = 2 then s.grantLease cl b else s

/-- The winner by credit: the greater credit, then the bank that did not hold the lease, then bank 0. -/
def MatrixArray.byCredit (a : MatrixArray) (comp : List Nat) : Option Nat :=
  comp.foldl (fun w b =>
    match w with
    | .none => .some b
    | .some v =>
      let cv := (a.bank v).credit
      let cb := (a.bank b).credit
      if cv < cb || (cv == cb && a.last == .some v && a.last != .some b) then .some b else .some v) .none

/-- The arbiter's choice among competing banks, in ascending order: a reserved grant by tenant, or credits. The window of this arbiter
is 0; the bank whose lease has just ended has not waited since, and takes no reserved grant from another (R346). -/
def State.chooseLease (s : State) (cl : ClusterId) (comp : List Nat) : State × Option Nat :=
  let a := s.arrayOf cl
  if a.grants % 16 = 15 then
    let tenant := s.bankTenant cl
    let after := fun b => a.reserved.all fun t => t < tenant b
    let waited := fun b => a.ending != .some b || (a.bank b).lease != 2
    let comp := if comp.any waited then comp.filter waited else comp
    let pool := if comp.any after then comp.filter after else comp
    let w := pool.foldl (fun w b => match w with
      | .none => .some b
      | .some v => if tenant b < tenant v then .some b else .some v) .none
    (s.setArray { a with reserved := w.map tenant }, w)
  else
    let a := comp.foldl (fun a b => a.withBank b fun k => { k with credit := k.credit + k.weight }) a
    match a.byCredit comp with
    | .none => (s, .none)
    | .some w =>
      let total := (comp.map fun b => (a.bank b).weight).sum
      (s.setArray (a.withBank w fun k => { k with credit := k.credit - total }), .some w)

/-- A holder that loses the lease keeps its request, and hears of it when it still has compute commands (R133). -/
def State.revokeLease (s : State) (cl : ClusterId) (b : Nat) : State :=
  let k := s.bank cl b
  if k.lease ≠ 2 then s
  else
    let s := s.withBank cl b fun k => { k with lease := 1 }
    if k.computing then (s.bankCores cl b).foldl (fun s c => s.postEvent c 4 (cl % 256)) s else s

/-- LEASE_GRANT: the arbiter of a cluster grants. -/
def State.leaseGrant (s : State) (cl : ClusterId) : State :=
  let a := s.arrayOf cl
  let comp := [0, 1].filter (s.competes cl)
  if a.holder.isSome || comp.isEmpty then s
  else
    let (s, w) := s.chooseLease cl comp
    match w with
    | .none => s
    | .some w =>
      let s := match a.ending with
        | .some b => if b = w then s else s.revokeLease cl b
        | .none => s
      s.grantLease cl w

def execLeaseGrant (cl : Nat) (s : State) : Host.Outcome State Fault Refusal := .next (s.leaseGrant cl)

/-- LEASE_TIME_LIMIT. -/
def State.leaseTimeLimit (s : State) (cl : ClusterId) : State :=
  let a := s.arrayOf cl
  match a.holder with
  | .some b => if a.grantedAt + a.limit ≤ s.bankCycles cl b then s.endLease cl else s
  | .none => s

def execLeaseTimeLimit (cl : Nat) (s : State) : Host.Outcome State Fault Refusal := .next (s.leaseTimeLimit cl)

/-- LEASE_IDLE_END. -/
def State.leaseIdleEnd (s : State) (cl : ClusterId) : State :=
  let a := s.arrayOf cl
  match a.holder, a.idleSince with
  | .some b, .some t => if t + 1024 ≤ s.bankCycles cl b then s.endLease cl else s
  | _, _ => s

def execLeaseIdleEnd (cl : Nat) (s : State) : Host.Outcome State Fault Refusal := .next (s.leaseIdleEnd cl)

/-! ## Ends of commands -/

/-- A command's requests are given up. -/
def State.dropRequests (s : State) (cl : ClusterId) (c : MatrixCommand) : State :=
  c.reqs.foldl (fun s r => s.engineDrop cl r.2) s

/-- A command that stops short of its end keeps its progress and fetches everything anew (R223, R235). -/
def MatrixCommand.halt (c : MatrixCommand) : MatrixCommand :=
  { c with running := false, overSince := .none, epoch := c.epoch + 1, got := [], reqs := [], ready := [], put := [], bytes := 0 }

/-- The ticket of a command (R222). -/
def State.matrixTicket (s : State) (c : MatrixCommand) (st count : Nat) : State :=
  s.fillTicket c.toCore c.toSlot c.ticket (BitVec.ofNat 64 (count % 2 ^ 32 + c.tile * 2 ^ 32 + st * 2 ^ 40))

/-- The bits that a tile's state adds to a drain's post (R226). -/
def Tile.drainBits (t : Tile) : Nat :=
  (if t.flags.getLsbD 4 then 2 ^ 17 else 0) + (if t.flags.getLsbD 2 then 2 ^ 18 else 0) + (if t.iov then 2 ^ 19 else 0) +
  (if t.flags.getLsbD 5 then 2 ^ 20 else 0) + (if t.incomplete then 2 ^ 22 else 0) + (if t.flags.getLsbD 6 then 2 ^ 23 else 0)

/-- Bytes that a drain, a transform or `mtwid` posts. -/
def MatrixCommand.postBytes (c : MatrixCommand) : Nat :=
  match c.op with
  | .compute 6 => 2 * 2 ^ c.depth * 8
  | .compute _ => c.m * 2 ^ c.depth * 8
  | _ => c.drainTotal

/-- Posts to the captured sync block. -/
def State.matrixPost (s : State) (cl : ClusterId) (b : Nat) (c : MatrixCommand) (bits : Nat) (broken : Bool) : State :=
  match c.sync with
  | .none => s
  | .some pa => s.sendPost { pa := pa, bytes := c.postBytes, bits := bits + ((s.bank cl b).tile c.tile).drainBits
                             broken := broken, source := .none, cover := c.cover, path := 2 }

/-- No compute command runs in the array. -/
def MatrixArray.cellsFree (a : MatrixArray) : Bool :=
  [0, 1].all fun b => !(a.bank b).queue.any fun c => c.isCompute && c.running

/-- Compute commands numbered below a bound are queued or running. -/
def Bank.computingBelow (k : Bank) (below : Nat) : Bool :=
  k.queue.any fun c => c.isCompute && !c.suspended && decide (c.id < below)

/-- The effect of `mrelease`: no request any more, and the lease ends if it is held. -/
def State.releaseLease (s : State) (cl : ClusterId) (b : Nat) : State :=
  let held := (s.arrayOf cl).holder == .some b
  let s := s.withBank cl b fun k => { k with lease := 0 }
  if held then s.endLease cl else s

/-- A thread that waits in `mrelease` or `mabort` goes on when its condition holds. -/
def State.wakeMatrixThread (s : State) (w : Who) : State :=
  match (s.hartOf w).wait with
  | .mrelease cl b below =>
    if (s.bank cl b).computingBelow below then s else (s.releaseLease cl b).finish w 4 id
  | .mabort cl b t n d =>
    if (s.bank cl b).queue.any fun c => c.tile == t && c.aborting then s else s.finish w 4 fun h => h.setX d (BitVec.ofNat 64 n)
  | _ => s

/-- What follows every change of a bank's queue. -/
def State.afterMatrix (s : State) (cl : ClusterId) : State :=
  let s := (List.range 8).foldl (fun s i =>
    let c := clusterCore cl i
    (List.range (s.coreOf c).threads).foldl (fun s k => s.wakeMatrixThread (.core c k)) s) s
  s.settleLease cl

/-- The command leaves its bank's queue with a ticket. -/
def State.retire (s : State) (cl : ClusterId) (b : Nat) (c : MatrixCommand) (st count : Nat) : State :=
  ((s.dropRequests cl c).withBank cl b fun k => k.dropCommand c).matrixTicket c st count

/-- A compute command completes (R222, R249, R250). -/
def State.completeCompute (s : State) (cl : ClusterId) (b : Nat) (c : MatrixCommand) : State :=
  match c.failed with
  | .some (cause, _, _) =>
    let s := s.withTile cl b c.tile fun t => { t with cause := cause, incomplete := false }
    (s.retire cl b c 5 c.groups).afterMatrix cl
  | .none =>
    let s := s.withTile cl b c.tile fun t => { t with incomplete := false }
    let s := if 4 ≤ c.f3 then s.matrixPost cl b c 0 false else s
    (s.retire cl b c 0 c.groups).afterMatrix cl

/-- An aborted command ends (R236, R250). -/
def State.killCommand (s : State) (cl : ClusterId) (b : Nat) (c : MatrixCommand) : State :=
  let s := if c.isCompute then s.withTile cl b c.tile fun t => { t with incomplete := true } else s
  let s := if c.op == .drain || c.isTransform then s.matrixPost cl b c (2 ^ 21) true else s
  s.retire cl b c 2 (if c.isCompute then c.groups else c.bytes)

/-! ## 0x50 (R212) -/

def execMlease (d : Reg) (s : State) : Host.Outcome State Fault Refusal :=
  s.issue .coreOnly fun s => do
    s.cur.needX d
    let cl := clusterOf s.cur.who.core'
    let b := s.bankOf s.cur.who.core'
    if (s.bank cl b).lease = 2 then .ok { s with cur := (s.cur.setX d 0).advance 4 }
    else .ok (((s.withBank cl b fun k => { k with lease := 1 }).waitFor (.lease d)).touchLease cl)

def execMrelease (s : State) : Host.Outcome State Fault Refusal :=
  s.issue .coreOnly fun s =>
    let cl := clusterOf s.cur.who.core'
    let b := s.bankOf s.cur.who.core'
    if !(s.bank cl b).computing then .ok ((({ s with cur := s.cur.advance 4 } : State).releaseLease cl b).settleLease cl)
    else .ok (s.waitFor (.mrelease cl b (s.bank cl b).next))

def execMtry (d : Reg) (s : State) : Host.Outcome State Fault Refusal :=
  s.issue .coreOnly fun s => do
    s.cur.needX d
    let cl := clusterOf s.cur.who.core'
    let b := s.bankOf s.cur.who.core'
    let a := s.arrayOf cl
    let idle := a.holder.isNone && a.ending.isNone && a.cellsFree
    if (a.bank b).lease = 2 then .ok { s with cur := (s.cur.setX d 0).advance 4 }
    else if idle && !s.competes cl (1 - b) then
      .ok (({ s with cur := (s.cur.setX d 0).advance 4 } : State).grantLease cl b)
    else .ok { s with cur := (s.cur.setX d 1).advance 4 }

/-! ## 0x51 (R215) -/

/-- Writes one pair of the descriptor set. -/
def describe (i : Nat) (a b : Reg) (s : State) : Host.Outcome State Fault Refusal :=
  s.issueHart .coreOnly fun h => do
    let x ← h.getX a
    let y ← h.getX b
    .ok ({ h with desc := (h.desc.setIfInBounds (2 * i) x).setIfInBounds (2 * i + 1) y }.advance 4)

def execMseta (a b : Reg) (s : State) : Host.Outcome State Fault Refusal := describe 0 a b s
def execMsetb (a b : Reg) (s : State) : Host.Outcome State Fault Refusal := describe 1 a b s
def execMsetc (a b : Reg) (s : State) : Host.Outcome State Fault Refusal := describe 2 a b s
def execMscla (a b : Reg) (s : State) : Host.Outcome State Fault Refusal := describe 3 a b s
def execMsclb (a b : Reg) (s : State) : Host.Outcome State Fault Refusal := describe 4 a b s
def execMsetm (a b : Reg) (s : State) : Host.Outcome State Fault Refusal := describe 5 a b s
def execMshape (a b : Reg) (s : State) : Host.Outcome State Fault Refusal := describe 6 a b s
def execMsync (a : Reg) (s : State) : Host.Outcome State Fault Refusal := describe 7 a 0 s

/-! ## Issue of commands (R217, R218, R241) -/

def matrixBad (v : Word) : Exc := trapOf .matrixArgument v

/-- The first value of a list that a test rejects. -/
def rejectFirst (bad : Word → Bool) : List Word → Except Exc Unit
  | [] => .ok ()
  | v :: rest => if bad v then .error (matrixBad v) else rejectFirst bad rest

def unaligned16 (v : Word) : Bool := v.toNat % 16 != 0
def unaligned2 (v : Word) : Bool := v.toNat % 2 != 0

/-- The prefix fields of a product (R77). -/
def Prefix.product (sparse : Bool) (p : Prefix) : Bool :=
  let whole := p.afmt == 6 || p.afmt == 7
  let pair := match p.afmt with
    | 1 => p.bfmt == 1
    | 5 => p.bfmt == 5
    | 3 | 4 => p.bfmt == 3 || p.bfmt == 4
    | 6 | 7 => p.bfmt == 6 || p.bfmt == 7
    | _ => false
  pair && p.cfmt == (if whole then 9 else 0) && (if whole then p.rnd == 0 else p.rnd ≤ 5) && p.sc ≤ 2 &&
    !(whole && p.sc == 1) && (if sparse then p.sp ≤ 2 else p.sp == 0)

/-- What every command captures. -/
def State.newCommand (s : State) (op : MatrixOp) (t : Nat) (d : Reg) (control : Word) (kind : TileKind) (q : Bank) :
    MatrixCommand :=
  let c := s.cur.who.core'
  { id := q.next, op := op, tile := t, ctx := s.ctxNoOf c, core := c, slot := s.cur.who.slot', user := s.cur.user
    toCore := c, toSlot := s.cur.who.slot', ticket := s.cur.destX d, fmt := s.cur.latch, control := control
    desc := s.cur.desc, kind := kind, fromZero := (q.tile t).kind == .zero, seed := 0, sync := .none
    cover := s.coverOf s.cur.who 2 }

/-- K lies in its range, and is a multiple of 8 for E2M1 and of 16 for `mmas`. -/
def MatrixCommand.checkDepth (c : MatrixCommand) : Except Exc Unit :=
  let k := c.depth
  if k < 1 ∨ 65536 < k then .error (matrixBad (c.word 13))
  else if c.isProduct ∧ c.aFmt = .e2m1 ∧ k % 8 ≠ 0 then .error (matrixBad (c.word 13))
  else if c.f3 = 2 ∧ k % 16 ≠ 0 then .error (matrixBad (c.word 13))
  else .ok ()

/-- The shape has no other bits than its two fields. -/
def MatrixCommand.checkShape (c : MatrixCommand) : Except Exc Unit :=
  rejectFirst (fun v => v &&& ~~~0x3f3f#64 != 0) [c.word 12]

/-- The checks of R217 for a compute command, before the sync block's. -/
def MatrixCommand.checkCompute (c : MatrixCommand) : Except Exc Unit := do
  c.checkDepth
  rejectFirst unaligned16 [c.word 0, c.word 1, c.word 2, c.word 3]
  if c.f3 = 2 then rejectFirst unaligned2 [c.word 10, c.word 11]
  if c.bandScales then rejectFirst (fun v => 2 ^ 48 ≤ v.toNat) [c.word 7, c.word 9]
  c.checkShape

/-- The checks of R243, R246 and R249. -/
def MatrixCommand.checkModular (c : MatrixCommand) (t : TileKind) : Except Exc Unit :=
  let bad := fun (b : Bool) (v : Word) => if b then Except.error (matrixBad v) else .ok ()
  match c.f3 with
  | 3 => do
    bad (32 < c.m || 16 < c.n) (c.word 12)
    match t with
    | .modular q => bad (q != c.kind.modulus) (BitVec.ofNat 64 c.kind.modulus)
    | .plain => bad true (BitVec.ofNat 64 (0x100 + c.tile))
    | .zero => .ok ()
  | 6 => do
    bad (17 < c.depth) (c.word 13)
    bad (field (c.word 12) 0 14 != 0) (c.word 12)
  | _ => do
    bad (17 < c.depth) (c.word 13)
    bad (field (c.word 12) 8 6 != 0) (c.word 12)
    rejectFirst unaligned16 [c.word 4, c.word 5]

/-- The command enters its bank's queue, or its thread waits for an entry. -/
def State.enqueue (s : State) (cl : ClusterId) (b : Nat) (c : MatrixCommand) (kind : Option TileKind) (d : Reg) :
    Except Exc State :=
  if 16 ≤ (s.bank cl b).queue.length then .error (.wait (.room (.commands cl b)))
  else
    let s := s.withBank cl b fun k =>
      { k.withTile c.tile fun t => { t with kind := kind.getD t.kind } with queue := k.queue ++ [c], next := k.next + 1, used := true }
    .ok (({ s with cur := (s.cur.markX d).advance 4 } : State).touchLease cl)

/-- Issues a compute command. -/
def computeOp (f3 : Nat) (d : Reg) (t : BitVec 2) (s : State) : Host.Outcome State Fault Refusal :=
  s.issue .vector fun s => do
    let modular := decide (3 ≤ f3)
    let p ← s.cur.prefixFields (if modular then noPrefix else matrixDefault)
      (if modular then Prefix.modular else Prefix.product (f3 == 2))
    s.cur.needX d
    let cl := clusterOf s.cur.who.core'
    let b := s.bankOf s.cur.who.core'
    let q ← if modular then s.cur.modulus else .ok 0
    let kind : TileKind := if modular then .modular q else .plain
    let c := s.newCommand (.compute f3) t.toNat d 0 kind (s.bank cl b)
    c.checkCompute
    let sync ← s.syncArgument (c.word 14) (matrixBad (c.word 14))
    if modular then c.checkModular ((s.bank cl b).tile t.toNat).kind
    if (s.bank cl b).lease = 0 then .error (trapOf .noLease 0)
    else
      let stochastic : Bool := !modular && p.rnd == 5
      let u := nextRandom s.cur.rng
      let c := { c with sync := sync, seed := if stochastic then u.toNat else 0 }
      let s ← s.enqueue cl b c (.some kind) d
      .ok { s with cur := { s.cur with rng := if stochastic then u else s.cur.rng } }

def execMma (d : Reg) (t : BitVec 2) (s : State) : Host.Outcome State Fault Refusal := computeOp 0 d t s
def execMmaz (d : Reg) (t : BitVec 2) (s : State) : Host.Outcome State Fault Refusal := computeOp 1 d t s
def execMmas (d : Reg) (t : BitVec 2) (s : State) : Host.Outcome State Fault Refusal := computeOp 2 d t s
def execMmod (d : Reg) (t : BitVec 2) (s : State) : Host.Outcome State Fault Refusal := computeOp 3 d t s
def execMntt (d : Reg) (t : BitVec 2) (s : State) : Host.Outcome State Fault Refusal := computeOp 4 d t s
def execMintt (d : Reg) (t : BitVec 2) (s : State) : Host.Outcome State Fault Refusal := computeOp 5 d t s
def execMtwid (d : Reg) (t : BitVec 2) (s : State) : Host.Outcome State Fault Refusal := computeOp 6 d t s

/-! ## 0x53 (R224 to R236) -/

/-- The control word of a drain is valid. -/
def goodControl (w : Word) : Bool :=
  field w 9 55 == 0 && field w 0 4 != 5 && field w 0 4 < 10 && field w 4 3 < 5

/-- Issues a drain. -/
def drainOp (op : MatrixOp) (d a : Reg) (t : BitVec 2) (s : State) : Host.Outcome State Fault Refusal :=
  s.issue .coreOnly fun s => do
    s.cur.needX d
    let w ← s.cur.getX a
    let cl := clusterOf s.cur.who.core'
    let b := s.bankOf s.cur.who.core'
    let kind := ((s.bank cl b).tile t.toNat).kind
    let c := s.newCommand op t.toNat d w kind (s.bank cl b)
    if !goodControl w then .error (matrixBad w)
    else
      rejectFirst unaligned16 [c.word 4, c.word 5]
      c.checkShape
      let sync ← s.syncArgument (c.word 14) (matrixBad (c.word 14))
      if kind.isModular && (32 < c.m || 16 < c.n) then .error (matrixBad (c.word 12))
      else s.enqueue cl b { c with sync := sync } .none d

def execMdrain (d a : Reg) (t : BitVec 2) (s : State) : Host.Outcome State Fault Refusal := drainOp .drain d a t s
def execMdrainq (d a : Reg) (t : BitVec 2) (s : State) : Host.Outcome State Fault Refusal := drainOp .drainq d a t s

def execMzero (t : BitVec 2) (s : State) : Host.Outcome State Fault Refusal :=
  s.issue .coreOnly fun s =>
    let cl := clusterOf s.cur.who.core'
    let b := s.bankOf s.cur.who.core'
    s.enqueue cl b (s.newCommand .zero t.toNat 0 0 .zero (s.bank cl b)) (.some .zero) 0

/-- A progress point from which a command can go on (R235, R248, R249). -/
def MatrixCommand.canResume (c : MatrixCommand) (kpos row : Nat) : Bool :=
  if c.f3 = 6 then kpos == 0 && row == 0
  else if c.isTransform then kpos / 64 < passes c.depth && kpos % 64 < blocksOf c.depth && row < c.m
  else kpos % c.chunk == 0 && kpos < c.depth && row < c.m && row % c.group == 0

def execMresume (d : Reg) (t : BitVec 2) (s : State) : Host.Outcome State Fault Refusal :=
  s.issue .coreOnly fun s => do
    s.cur.needX d
    let cl := clusterOf s.cur.who.core'
    let b := s.bankOf s.cur.who.core'
    let k := s.bank cl b
    let w := k.tile t.toNat
    if k.lease = 0 then .error (trapOf .noLease 0)
    else match k.queue.find? fun c => c.tile == t.toNat && c.suspended with
      | .none => .ok { s with cur := (s.cur.setX d (BitVec.ofNat 64 (t.toNat * 2 ^ 32 + 4 * 2 ^ 40))).advance 4 }
      | .some c =>
        if !c.canResume w.kpos w.row then .error (matrixBad (k.progress t.toNat))
        else
          let c := { c.halt with
            suspended := false, failed := .none, groups := 0, ticket := s.cur.destX d, toCore := s.cur.who.core'
            toSlot := s.cur.who.slot' }
          let s := s.withBank cl b fun k => k.setCommand c
          .ok (({ s with cur := (s.cur.markX d).advance 4 } : State).touchLease cl)

/-- `mstat`. Bit 8 of x[a], which the rule names with selector 0 only, does nothing with another (DESIGN CHOICE, log 50). -/
def execMstat (d a : Reg) (t : BitVec 2) (s : State) : Host.Outcome State Fault Refusal :=
  s.issue .coreOnly fun s => do
    s.cur.needX d
    let x ← s.cur.getX a
    let cl := clusterOf s.cur.who.core'
    let b := s.bankOf s.cur.who.core'
    let k := s.bank cl b
    if x &&& ~~~0x103#64 ≠ 0 then .error (matrixBad x)
    else
      let v := match field x 0 2 with
        | 0 => k.statusWord t.toNat
        | 1 => (k.tile t.toNat).addr
        | 2 => k.progress t.toNat
        | _ => k.leaseWord
      let s := if field x 0 2 = 0 ∧ x.getLsbD 8 then s.withTile cl b t.toNat fun w => { w with flags := 0, iov := false } else s
      .ok { s with cur := (s.cur.setX d v).advance 4 }

/-- A write of the command is on its way to its home. -/
def MatrixCommand.writing (c : MatrixCommand) : Bool :=
  (c.op == .drain || c.f3 == 6) && c.reqs.any fun r => 5 ≤ r.1.stream

/-- `mabort`: finished commands complete first; the others end, those with a write on its way once it is performed. A tile that has no
command is aborted too (R236; DESIGN CHOICE, log 50). -/
def State.abortTile (s : State) (cl : ClusterId) (b t : Nat) : State × Nat :=
  let s := (s.bank cl b).queue.foldl (fun s c => if c.tile = t ∧ c.finished then s.completeCompute cl b c else s) s
  let mine := (s.bank cl b).queue.filter fun c => c.tile == t
  let s := mine.foldl (fun s c =>
    if c.writing then s.withBank cl b fun k => k.setCommand { c with aborting := true } else s.killCommand cl b c) s
  (s.withTile cl b t fun w => { w with aborted := true }, mine.length)

def execMabort (d : Reg) (t : BitVec 2) (s : State) : Host.Outcome State Fault Refusal :=
  s.issue .coreOnly fun s => do
    s.cur.needX d
    let cl := clusterOf s.cur.who.core'
    let b := s.bankOf s.cur.who.core'
    let (s, n) := s.abortTile cl b t.toNat
    if (s.bank cl b).queue.any fun c => c.tile == t.toNat && c.aborting then
      .ok ((s.waitFor (.mabort cl b t.toNat n d)).afterMatrix cl)
    else .ok (({ s with cur := (s.cur.setX d (BitVec.ofNat 64 n)).advance 4 } : State).afterMatrix cl)

end Sys2Proof.Machine
end

