-- ==== Sys2Proof/Machine/MatrixRun.lean ====
section
/-! DEFINITION. How matrix commands run by themselves: start, row groups and block steps, completion, suspension, drains, and the
end of an overrun (R213, R219 to R230, R234, R239, R248, R249). -/

namespace Sys2Proof.Machine

open Sys2Proof

/-! ## Start (R221, R213, R229) -/

/-- Command `i` of a bank's queue. -/
def State.commandAt (s : State) (cl : ClusterId) (b i : Nat) : Option MatrixCommand := (s.bank cl b).queue[i]?

def State.setCommand (s : State) (cl : ClusterId) (b : Nat) (c : MatrixCommand) : State :=
  s.withBank cl b fun k => k.setCommand c

/-- Every earlier command on the tile has ended. -/
def Bank.tileClear (k : Bank) (c : MatrixCommand) : Bool :=
  (k.queue.find? fun q => q.tile == c.tile).any fun q => q.id == c.id

/-- The first compute command, and the first command of the tile port, that has still to start. -/
def Bank.nextCompute (k : Bank) : Option MatrixCommand := k.queue.find? fun c => c.isCompute && !c.suspended
def Bank.nextPort (k : Bank) : Option MatrixCommand := k.queue.find? fun c => !c.isCompute

/-- A command makes progress: its partition runs, or it has stopped and a write of a drain has still to end (R320, R322). -/
def State.commandLive (s : State) (c : MatrixCommand) : Bool :=
  (s.partOfCore c.core).any fun p => p.state == .running || p.state == .halting ||
    ((p.state == .saving || p.state == .stopped) && !c.isCompute && !c.reqs.isEmpty)

/-- What the start of a compute command does to its tile. -/
def MatrixCommand.openTile (c : MatrixCommand) (t : Tile) : Tile :=
  let t := { t with aborted := false }
  if c.begun then t
  else
    let t := { t with kpos := 0, row := 0 }
    let t := if c.f3 = 3 ∧ c.fromZero then { t with words := t.words.mapIdx fun i w => if i < 2560 then 0 else w } else t
    if c.f3 = 1 then { c.clearRect t with flags := 0, iov := false, cause := 0 } else t

/-- A compute command starts, and takes its unit of the lease. -/
def State.startCompute (s : State) (cl : ClusterId) (b : Nat) (c : MatrixCommand) : State :=
  let a := s.arrayOf cl
  let k := a.bank b
  let paid := c.charged == .some a.grants
  if a.holder != .some b || !a.cellsFree || !k.tileClear c || !(k.nextCompute.any fun q => q.id == c.id) ||
      !(paid || 0 < k.left) then s
  else
    let s := s.withTile cl b c.tile c.openTile
    let s := s.setCommand cl b { c with running := true, begun := true, charged := .some a.grants }
    let s := if paid then s else s.withBank cl b fun k => { k with left := k.left - 1 }
    if !paid && k.left = 1 then s.endLease cl else s

/-- A command of the tile port starts; `mzero` is done with it. The conditions of all that a drain converts join the tile's flags
here, also where it is stopped later (DESIGN CHOICE, log 50). -/
def State.startPort (s : State) (cl : ClusterId) (b : Nat) (c : MatrixCommand) : State :=
  let k := s.bank cl b
  let held := c.op == .drainq && !(s.coreOf c.core).drainBuf.isEmpty
  if !k.tileClear c || !(k.nextPort.any fun q => q.id == c.id) || held then s
  else
    let s := s.withTile cl b c.tile fun t => { t with aborted := false }
    match c.op with
    | .zero =>
      let s := s.withTile cl b c.tile fun t =>
        { t with words := Vector.replicate 4096 0, flags := 0, iov := false, cause := 0 }
      (s.withBank cl b fun k => k.dropCommand c).afterMatrix cl
    | _ =>
      let s := s.withTile cl b c.tile fun t => { t with flags := t.flags ||| c.drainCond t }
      s.setCommand cl b { c with running := true }

/-- MATRIX_COMMAND_START. -/
def State.matrixStart (s : State) (cl : ClusterId) (b i : Nat) : State :=
  match s.commandAt cl b i with
  | .none => s
  | .some c =>
    if c.running || c.suspended || !s.commandLive c then s
    else if c.isCompute then s.startCompute cl b c else s.startPort cl b c

def execMatrixCommandStart (cl bank k : Nat) (s : State) : Host.Outcome State Fault Refusal := .next (s.matrixStart cl bank k)

/-! ## Pieces (R216, R239) -/

/-- The cause code of R232 of a failure. -/
def failCause : EngineFail → Nat
  | .fault .tableFormat => 2
  | .fault .permission => 3
  | .fault .physical => 4
  | .fault .protection => 5
  | .fault .addressForm => 11
  | .remote _ _ => 8
  | .refused _ => 9
  | _ => 1

/-- The request of a piece. -/
def MatrixCommand.request (c : MatrixCommand) (p : Piece) : Option Nat := (c.reqs.find? fun r => r.1 == p).map (·.2)

def MatrixCommand.endRequest (c : MatrixCommand) (p : Piece) : MatrixCommand :=
  { c with reqs := c.reqs.filter fun r => r.1 != p }

def MatrixCommand.startRequest (c : MatrixCommand) (p : Piece) (tag : Nat) : MatrixCommand :=
  { c.endRequest p with reqs := (p, tag) :: (c.endRequest p).reqs }

def MatrixCommand.fail (c : MatrixCommand) (p : Piece) (f : EngineFail) : MatrixCommand :=
  { c.endRequest p with failed := .some (failCause f, BitVec.ofNat 64 p.va, f), failedSize := p.bytes }

/-- Reads one piece of a command's operands; a failure counts only when the piece is due. -/
def State.fetchPiece (s : State) (cl : ClusterId) (b : Nat) (c : MatrixCommand) (p : Piece) (due : Bool) : State :=
  match s.engineAccess cl c.core c.slot c.user 2 c.cover (c.request p) p.va p.bytes .none with
  | .ok s v => s.setCommand cl b { c.endRequest p with got := (p, v) :: c.got }
  | .wait s tag => s.setCommand cl b (c.startRequest p tag)
  | .fail s f => s.setCommand cl b (if due then c.fail p f else c.endRequest p)

/-- Writes one piece, number `i`. A write that fails in a drain being aborted is over: the abort ends the drain (R236). -/
def State.writePiece (s : State) (cl : ClusterId) (b : Nat) (c : MatrixCommand) (p : Piece) (i v : Nat) : State :=
  match s.engineAccess cl c.core c.slot c.user 2 c.cover (c.request p) p.va p.bytes (.some v) with
  | .ok t _ =>
    let c := { c.endRequest p with put := i :: c.put, bytes := c.bytes + p.bytes
                                   cover := if s.stamps < t.stamps then s.stamps :: c.cover else c.cover }
    let s := t
    if c.aborting && !c.writing then (s.killCommand cl b c).afterMatrix cl else s.setCommand cl b c
  | .wait s tag => s.setCommand cl b (c.startRequest p tag)
  | .fail s f =>
    if c.aborting then
      let c := c.endRequest p
      if c.writing then s.setCommand cl b c else (s.killCommand cl b c).afterMatrix cl
    else s.setCommand cl b (c.fail p f)

def MatrixCommand.missing (c : MatrixCommand) (ps : List Piece) : Option Piece := ps.find? fun p => !c.got.any fun g => g.1 == p

def piecesOf (rs : List Run) : List Piece := rs.flatMap Run.pieces

/-! ## Row groups (R219, R220, R234) -/

/-- The command goes on from a progress point, its last piece of operands used up. -/
def State.advanceGroup (s : State) (cl : ClusterId) (b : Nat) (c : MatrixCommand) (t : Tile) (kpos row : Nat) (done : Bool)
    (used : List Piece) : State :=
  let s := s.withTile cl b c.tile fun _ => { t with kpos := kpos, row := row }
  s.setCommand cl b { c with
    groups := c.groups + 1, finished := done, ready := [], got := c.got.filter fun g => !used.contains g.1 }

/-- A row group whose operands have been read, one more of the context's in the cluster's counter. -/
def State.doGroup (s : State) (cl : ClusterId) (b : Nat) (c : MatrixCommand) : State :=
  let s := s.count c.ctx (clusterCore cl 0) 6 1 1
  let t := (s.bank cl b).tile c.tile
  let rows := c.rows t.row
  match rows.findSome? (c.badMask t.kpos) with
  | .some va => s.setCommand cl b { c with failed := .some (7, va, .operand) }
  | .none =>
    let t' := if c.f3 = 3 then rows.foldl (fun t i => c.modularGroup t.kpos i t) t else c.productGroup t.kpos t.row t
    let row := min (t.row + c.group) c.m
    let aUsed := piecesOf (c.aRuns t.kpos t.row)
    if row < c.m then s.advanceGroup cl b c t' t.kpos row false aUsed
    else
      let next := t.kpos + c.chunk
      s.advanceGroup cl b c t' next 0 (c.depth ≤ next) (aUsed ++ piecesOf (c.bRuns t.kpos))

/-! ## Block steps (R248) -/

/-- The words of the tile that a block of fewer than 2048 elements does not fill. -/
opaque Config.workWord : Nat → Nat → BitVec 32

/-- The tile as working store: it holds the last block written. -/
def Tile.holdBlock (t : Tile) (turn : Nat) (es : Array Nat) : Tile :=
  { t with words := Vector.ofFn fun (i : Fin 4096) =>
      if i.val / 2 < es.size then BitVec.ofNat 32 (es.getD (i.val / 2) 0 / 2 ^ (32 * (i.val % 2))) else Config.workWord turn i.val }

/-- The value of a piece of a run whose elements are given. -/
def pieceValue (r : Run) (es : List Nat) (p : Piece) : Nat :=
  let v := es.foldr (fun e acc => e + 2 ^ 64 * acc) 0
  v / 256 ^ ((p.va + 2 ^ 64 - r.va.toNat) % 2 ^ 64) % 256 ^ p.bytes

/-- The pieces that a block step writes, with their values. -/
def MatrixCommand.blockWrites (c : MatrixCommand) (kpos row : Nat) (es : List Nat) : List (Piece × Nat) :=
  ((c.elementRuns kpos row true).foldl (fun (acc : List (Piece × Nat) × List Nat) r =>
    let mine := acc.2.take (r.len / 8)
    (acc.1 ++ r.pieces.map (fun p => (p, pieceValue r mine p)), acc.2.drop (r.len / 8))) ([], es)).1

/-- The block of an access is a peer's cacheable DRAM, which the RDC can hold. -/
def Target.heldBy (t : Target) (pkg : Nat) : Bool := isRemote pkg t.pa && !t.uncached && placeOf t.pa == .peerDram

/-- The die's RDC takes a peer's cacheable block with a writable tag; nothing has been written there yet. Of an uncached block, or one
in a scratchpad, the home has accepted the write. -/
def State.holdPeer (s : State) (cl : ClusterId) (r : Region) (t : Target) : State :=
  let die := coreDie (engineCore cl)
  let pa := t.pa
  if !t.heldBy s.pkg || (s.heldPeer die pa).isSome then s
  else ({ s with turn := s.turn + 1 } : State).putRdc ⟨die, blockOf pa, 2, false, Config.peerBlock s.turn (blockOf pa), r⟩

/-- A block to be written is resolved: its home, or the peer, gives a writable tag. -/
def State.resolvePiece (s : State) (cl : ClusterId) (b : Nat) (c : MatrixCommand) (p : Piece) (v : Nat) : State :=
  match s.engineResolve cl c.core c.user 2 (c.request p) p.va p.bytes (.some v) with
  | .ok s t _ _ => (s.holdPeer cl (s.regionAt c.core t) t).setCommand cl b { c with ready := (p, t.pa, t.heldBy s.pkg) :: c.ready }
  | .wait s tag => s.setCommand cl b (c.startRequest p tag)
  | .fail s f => s.setCommand cl b (c.fail p f)

/-- A block that was resolved is still held where it has to be. -/
def State.stillReady (s : State) (cl : ClusterId) (c : MatrixCommand) (p : Piece) : Bool :=
  c.ready.any fun (q, pa, held) => q == p && (!held || (s.heldPeer (coreDie (engineCore cl)) pa).isSome)

/-- A block that has been lost since it was resolved is resolved anew. -/
def State.renewPiece (s : State) (cl : ClusterId) (c : MatrixCommand) (p : Piece) : State × MatrixCommand :=
  if c.ready.any fun r => r.1 == p then
    ((c.request p).elim s (s.engineDrop cl), { c.endRequest p with ready := c.ready.filter fun r => r.1 != p })
  else (s, c)

/-- Every write of a block step is made. -/
def State.commitBlock (s : State) (cl : ClusterId) (c : MatrixCommand) (ws : List (Piece × Nat)) : State :=
  ws.foldl (fun s (p, v) =>
    match c.ready.find? fun r => r.1 == p with
    | .none => s
    | .some (_, pa, _) =>
      match s.engineCommit cl (.core c.core c.slot) 2 c.cover (c.request p) pa p.bytes 0 (.some v) with
      | .ok s _ => s
      | .wait s _ | .fail s _ => s) s

/-- One move of a transform: read, resolve, or write the whole block step. Where rows of C overlap each other, the table or another row
of A, the bytes are what these block steps leave, one after another in the order of R248 (DESIGN CHOICE, log 50). -/
def State.transformStep (s : State) (cl : ClusterId) (b : Nat) (c : MatrixCommand) : State :=
  let t := (s.bank cl b).tile c.tile
  let reads := piecesOf (c.elementRuns t.kpos t.row false ++ c.tableRuns t.kpos t.row)
  match c.missing reads with
  | .some p => s.fetchPiece cl b c p true
  | .none =>
    let es := c.blockResult t.kpos t.row
    let ws := c.blockWrites t.kpos t.row es
    match ws.find? fun w => !s.stillReady cl c w.1 with
    | .some (p, v) =>
      let (s, c) := s.renewPiece cl c p
      s.resolvePiece cl b c p v
    | .none =>
      let first := s.stamps
      let s := s.commitBlock cl c ws
      let c := { c with reqs := [], cover := (List.range (s.stamps - first)).map (first + ·) ++ c.cover }
      let (kpos, row) := nextBlock c.depth t.kpos t.row
      s.advanceGroup cl b c (t.holdBlock s.turn es.toArray) kpos row (c.m ≤ row) (c.got.map (·.1))

/-! ## mtwid (R249) -/

/-- ψ, read from A base. -/
def MatrixCommand.psiPiece (c : MatrixCommand) : Piece := ⟨0, 0, (c.word 0).toNat, 8⟩

/-- One move of `mtwid`: read ψ, or write the next entry of the table. It has no row groups; the count of its ticket is 1 when it
completes (DESIGN CHOICE, log 50). -/
def State.twiddleStep (s : State) (cl : ClusterId) (b : Nat) (c : MatrixCommand) : State :=
  match c.got.find? fun g => g.1 == c.psiPiece with
  | .none => s.fetchPiece cl b c c.psiPiece true
  | .some (_, psi) =>
    let q := c.kind.modulus
    let e := c.put.length
    if !isRoot q c.depth psi then s.setCommand cl b { c with failed := .some (10, 0, .operand), finished := true }
    else if 2 * 2 ^ c.depth ≤ e then s.setCommand cl b { c with finished := true, groups := 1 }
    else s.writePiece cl b c ⟨5, e, (c.word 2 + BitVec.ofNat 64 (8 * e)).toNat, 8⟩ e (twiddle q c.depth psi e)

/-! ## One move of a running command -/

/-- A drain writes its piece `i`. -/
def State.drainPiece (s : State) (cl : ClusterId) (b : Nat) (c : MatrixCommand) (i : Nat) : State :=
  match c.drainPieces[i]? with
  | .none => s
  | .some p => if c.put.contains i || (c.aborting && (c.request p).isNone) then s else s.writePiece cl b c p i (c.drainValue ((s.bank cl b).tile c.tile) p)

/-- The next piece, row group, block step or table entry of a running command. -/
def State.rowGroup (s : State) (cl : ClusterId) (b i : Nat) : State :=
  match s.commandAt cl b i with
  | .none => s
  | .some c =>
    if !c.running || c.finished || c.failed.isSome || !s.commandLive c then s
    else match c.op with
      | .compute f3 =>
        if f3 ≤ 3 then
          let t := (s.bank cl b).tile c.tile
          match c.missing (piecesOf (c.aRuns t.kpos t.row ++ c.bRuns t.kpos)) with
          | .some p => s.fetchPiece cl b c p true
          | .none => s.doGroup cl b c
        else if f3 = 6 then s.twiddleStep cl b c
        else s.transformStep cl b c
      | .drain =>
        let ps := c.drainPieces
        s.drainPiece cl b c (((List.range ps.length).find? fun n =>
          !c.put.contains n && (!c.aborting || ps[n]?.any fun p => (c.request p).isSome)).getD 0)
      | .drainq | .zero => s

/-- A piece out of turn: operands fetched ahead of a row group, or any piece of a drain. -/
def State.matrixPiece (s : State) (cl : ClusterId) (b i kc g n : Nat) : State :=
  match s.commandAt cl b i with
  | .none => s
  | .some c =>
    if c.suspended || c.finished || c.failed.isSome || !s.commandLive c then s
    else match c.op with
      | .compute f3 =>
        let t := (s.bank cl b).tile c.tile
        let runs :=
          if f3 ≤ 3 then (if kc % c.chunk = 0 ∧ kc < c.depth then c.aRuns kc (g * c.group) ++ c.bRuns kc else [])
          else if f3 = 6 then []
          else if c.begun then c.elementRuns t.kpos t.row false ++ c.tableRuns t.kpos t.row
          else c.elementRuns 0 0 false ++ c.tableRuns 0 0
        match (piecesOf runs)[n]? with
        | .none => s
        | .some p => if c.got.any fun g => g.1 == p then s else s.fetchPiece cl b c p false
      | .drain => if c.running then s.drainPiece cl b c n else s
      | .drainq | .zero => s

/-! ## Ends (R222, R226 to R228, R230, R213) -/

/-- MATRIX_COMMAND_COMPLETE. -/
def State.matrixComplete (s : State) (cl : ClusterId) (b i : Nat) : State :=
  match s.commandAt cl b i with
  | .none => s
  | .some c => if c.isCompute && c.running && c.finished then s.completeCompute cl b c else s

def execMatrixCommandComplete (cl bank k : Nat) (s : State) : Host.Outcome State Fault Refusal :=
  .next (s.matrixComplete cl bank k)

/-- A compute command is suspended with a cause and an address; the detail of its entry names no access size (R391). Where no access failed, 0 for a mismatch of scale packets and the first
bad mask's for a metadata error (DESIGN CHOICE, log 50). -/
def State.suspend (s : State) (cl : ClusterId) (b : Nat) (c : MatrixCommand) (cause : Nat) (va : Word) (f : EngineFail) : State :=
  let s := s.dropRequests cl c
  let s := s.withTile cl b c.tile fun t => { t with cause := cause, addr := va, incomplete := true }
  let s := s.withArray cl fun a =>
    a.withBank b fun k => { k.setCommand { c.halt with suspended := true } with shown := c.tile }
  let s := s.matrixTicket c 1 c.groups
  (s.postEngine c.ctx 6 va cause 1 f).afterMatrix cl

/-- MATRIX_SUSPEND: a failure met, or a mismatch of scale packets. -/
def State.matrixSuspend (s : State) (cl : ClusterId) (b i : Nat) (mismatch : Bool) : State :=
  match s.commandAt cl b i with
  | .none => s
  | .some c =>
    if !c.isCompute || !c.running || c.finished then s
    else match c.failed with
      | .some (cause, va, f) => s.suspend cl b c cause va f
      | .none => if mismatch && c.isProduct then s.suspend cl b c 6 0 .operand else s

def execMatrixSuspend (cl bank k : Nat) (mismatch : Bool) (s : State) : Host.Outcome State Fault Refusal :=
  .next (s.matrixSuspend cl bank k mismatch)

/-- DRAIN_COMPLETE: every write of a drain is performed. -/
def State.drainComplete (s : State) (cl : ClusterId) (b i : Nat) : State :=
  match s.commandAt cl b i with
  | .none => s
  | .some c =>
    if c.op != .drain || !c.running || c.failed.isSome || c.put.length < c.drainPieces.length then s
    else
      let s := s.matrixPost cl b c 0 false
      let s := if c.control.getLsbD 8 then s.withTile cl b c.tile c.clearRect else s
      (s.retire cl b c 0 c.drainTotal).afterMatrix cl

def execDrainComplete (cl bank k : Nat) (s : State) : Host.Outcome State Fault Refusal := .next (s.drainComplete cl bank k)

/-- An entry enters the drain buffer of a core, or q0 when there is room in front of it. -/
def State.bufferEntry (s : State) (c : CoreId) (e : Vec) : State :=
  let k := s.coreOf c
  if k.drainBuf.isEmpty && k.queues[0].length < 8 then s.arrive c 0 e
  else s.setCore { k with drainBuf := k.drainBuf ++ [e] }

/-- DRAINQ_COMPLETE: the entries of a running `mdrainq` have entered the buffer. -/
def State.drainqComplete (s : State) (cl : ClusterId) (b i : Nat) : State :=
  match s.commandAt cl b i with
  | .none => s
  | .some c =>
    if c.op != .drainq || !c.running then s
    else
      let es := c.drainEntries ((s.bank cl b).tile c.tile)
      let s := es.foldl (fun s e => s.bufferEntry c.core e) s
      let s := if c.control.getLsbD 8 then s.withTile cl b c.tile c.clearRect else s
      (s.retire cl b c 0 (16 * es.length)).afterMatrix cl

def execDrainqComplete (cl bank k : Nat) (s : State) : Host.Outcome State Fault Refusal := .next (s.drainqComplete cl bank k)

/-- DRAIN_FAULT: a drain that met a failure ends, with its whole total posted. -/
def State.drainFault (s : State) (cl : ClusterId) (b i : Nat) : State :=
  match s.commandAt cl b i with
  | .none => s
  | .some c =>
    match c.failed with
    | .none => s
    | .some (cause, va, f) =>
      if c.op != .drain || !c.running then s
      else
        let s := s.postEngine c.ctx 7 va cause 1 f
        let s := s.matrixPost cl b c (2 ^ 16) false
        (s.retire cl b c 3 c.bytes).afterMatrix cl

def execDrainFault (cl bank k : Nat) (s : State) : Host.Outcome State Fault Refusal := .next (s.drainFault cl bank k)

/-- A running compute command stops at its progress point; one that has met a failure is suspended by it first (R237). -/
def State.stopCommand (s : State) (cl : ClusterId) (b : Nat) (c : MatrixCommand) : State :=
  match c.failed with
  | .some (cause, va, f) => if c.finished then s else s.suspend cl b c cause va f
  | .none => (s.dropRequests cl c).setCommand cl b c.halt

/-- LEASE_OVERRUN_STOP: a compute command that has run on for 16,384 M-cycles after the end of its lease stops at its progress
point. -/
def State.leaseOverrun (s : State) (cl : ClusterId) : State :=
  [0, 1].foldl (fun s b =>
    match (s.bank cl b).queue.find? fun c => c.isCompute && c.running && !c.finished &&
        c.overSince.any fun t => t + 16384 ≤ s.bankCycles cl b with
    | .none => s
    | .some c => s.stopCommand cl b c) s

def execLeaseOverrunStop (cl : Nat) (s : State) : Host.Outcome State Fault Refusal := .next (s.leaseOverrun cl)

end Sys2Proof.Machine
end

