-- ==== Sys2Proof/Machine/Gaussian.lean ====
section
/-! DEFINITION. Gaussian message passing: group arithmetic, mailboxes, sending and polling: primaries 0x60 to 0x66 (R253 to
R274). -/

namespace Sys2Proof.Machine

open Sys2Proof

/-! ## Register groups (R253, R254) -/

/-- The registers of a group: on a replay of a frame modulo N, otherwise consecutive. -/
def State.groupRegs (s : State) (v : VReg) (n : Nat) : List VReg :=
  if s.cur.frame ≠ [] ∧ 0 < s.cur.iter then (List.range n).map fun i => BitVec.ofNat 7 ((v.toNat + i) % s.vregs)
  else (List.range n).map fun i => v + BitVec.ofNat 7 i

/-- A group that does not reach register N. -/
def State.needGroup (s : State) (v : VReg) (n : Nat) : Except Exc Unit :=
  if (s.cur.frame ≠ [] ∧ 0 < s.cur.iter) ∨ v.toNat + n ≤ s.vregs then .ok ()
  else .error (trapOf .illegalRegister (BitVec.ofNat 64 (max v.toNat s.vregs)))

/-- Reads registers that have to be full. -/
def Hart.getVs (h : Hart) : List VReg → Except Exc (List Vec)
  | [] => .ok []
  | r :: rest =>
    match h.getV r with
    | .error e => .error e
    | .ok v =>
      match h.getVs rest with
      | .error e => .error e
      | .ok vs => .ok (v :: vs)

def Hart.setVs (h : Hart) : List (VReg × Vec) → Hart
  | [] => h
  | (r, v) :: rest => (h.setV r v).setVs rest

/-- A matrix or vector of FP32 codes. -/
abbrev Mat := Nat → Nat → Nat
abbrev Col := Nat → Nat

/-- η and Λ of a group whose registers are given. -/
def groupEta (vs : List Vec) : Col := fun i => laneNat 32 (vs.getD 0 0) i
def groupMat (vs : List Vec) : Mat := fun r c => laneNat 32 (vs.getD (r + 1) 0) c

/-- A register whose lanes 0 to d - 1 are given; the others are +0. -/
def laneRow (d : Nat) (f : Col) : Vec := ofLanes 32 ((List.range d).map f)

/-- The registers of a group of dimension d. -/
def groupOf (d : Nat) (eta : Col) (m : Mat) : List Vec := laneRow d eta :: (List.range d).map fun r => laneRow d (m r)

/-! ## Arithmetic (R256) -/

def g32 (v : Nat) : Ext := specFp32.value v

/-- An exact sum, rounded once. -/
def gSum (xs : List (Ext × Cond)) : Nat × Cond :=
  match xs with
  | [] => (0, 0)
  | x :: rest =>
    let (v, c) := rest.foldl (fun (a, c) (y, cy) => let (r, cr) := a.add 0 y; (r, c ||| cr ||| cy)) x
    let (r, cr) := specFp32.write 0 false 0 v
    (r, c ||| cr)

/-- An exact sum divided by a number, rounded once. -/
def gQuotient (xs : List (Ext × Cond)) (den : Nat) : Nat × Cond :=
  match xs with
  | [] => (0, 0)
  | x :: rest =>
    let (v, c) := rest.foldl (fun (a, c) (y, cy) => let (r, cr) := a.add 0 y; (r, c ||| cr ||| cy)) x
    let (r, cr) := FloatLane.divide ⟨specFp32, 0, false, 0, 0, 0, 0⟩ v (g32 den)
    (r, c ||| (cr &&& ~~~condDz))

/-- A term: a value, a product, a product subtracted. -/
def term (v : Nat) : Ext × Cond := (g32 v, 0)
def prodTerm (a b : Nat) : Ext × Cond := (g32 a).mul (g32 b)
def lessTerm (a b : Nat) : Ext × Cond := let (p, c) := (g32 a).mul (g32 b); (p.negate, c)

def Col.set (f : Col) (i v : Nat) : Col := fun k => if k = i then v else f k
def Mat.set (m : Mat) (i j v : Nat) : Mat := fun r c => if r = i ∧ c = j then v else m r c

/-- Computes an element for each index in order; each may use those before it. -/
def colOf (f : Col → Nat → Nat × Cond) (is : List Nat) (z : Col) (c : Cond) : Col × Cond :=
  is.foldl (fun (z, c) i => let (v, cv) := f z i; (z.set i v, c ||| cv)) (z, c)

/-! ## Factorisation (R259) -/

/-- One pass over the pivots from `j` on: the factor, or the index of the pivot that failed. -/
def cholPass (m th : Nat) (S : Mat) : Nat → Nat → Mat → Cond → Except (Nat × Cond) (Mat × Cond)
  | 0, _, L, c => .ok (L, c)
  | fuel + 1, j, L, c =>
    if m ≤ j then .ok (L, c)
    else
      let (p, cp) := gSum (term (S j j) :: (List.range j).map fun k => lessTerm (L j k) (L j k))
      if !((g32 th).lt (g32 p) && (Ext.fin false 0 0).lt (g32 p)) then .error (j, c ||| cp)
      else
        let (r, cr) := FloatLane.root ⟨specFp32, 0, false, 0, 0, p, 0⟩
        let L := L.set j j r
        let (L, c) := ((List.range m).filter fun i => j < i).foldl (fun (L, c) i =>
          let (v, cv) := gQuotient (term (S i j) :: (List.range j).map fun k => lessTerm (L i k) (L j k)) r
          (L.set i j v, c ||| cv)) (L, c ||| cp ||| cr)
        cholPass m th S fuel (j + 1) L c

/-- A factor, the conditions, and whether the block was regularised. -/
structure Chol where
  L : Mat
  cond : Cond
  regularised : Bool

/-- The factorisation of an m × m block, or the singular-block trap. -/
def cholesky (h : Hart) (m : Nat) (S : Mat) : Except Exc Chol :=
  let (tr, c1) := gSum ((List.range m).map fun i => term (S i i))
  let (th, c2) := gSum [prodTerm (field h.sys.gbeps 0 32) tr]
  let zero : Mat := fun _ _ => 0
  let trap := fun (j pass : Nat) => trapOf .singularBlock (BitVec.ofNat 64 (j + 256 * pass))
  match cholPass m th S m 0 zero (c1 ||| c2) with
  | .ok (L, c) => .ok ⟨L, c, false⟩
  | .error (j, c) =>
    if !h.sys.gbmode.getLsbD 32 || !(Ext.fin false 0 0).lt (g32 th) then .error (trap j 0)
    else
      let (S', c) := (List.range m).foldl (fun (S, c) i =>
        let (v, cv) := gSum [term (S i i), term th]
        (Mat.set S i i v, c ||| cv)) (S, c)
      match cholPass m th S' m 0 zero c with
      | .ok (L, c) => .ok ⟨L, c, true⟩
      | .error (j, _) => .error (trap j 1)

/-- Forward substitution. -/
def fsub (L : Mat) (m : Nat) (y : Col) (c : Cond) : Col × Cond :=
  colOf (fun z e => gQuotient (term (y e) :: (List.range e).map fun k => lessTerm (L e k) (z k)) (L e e))
    (List.range m) (fun _ => 0) c

/-! ## Group instructions (R257 to R261) -/

def dimOf (dim : BitVec 2) : Nat := dim.toNat + 1

/-- Writes a result group, its conditions, and `gbmode.rgf`. -/
def Hart.writeGroup (h : Hart) (rs : List VReg) (vs : List Vec) (c : Cond) (rgf : Bool) : Hart :=
  let h := (h.setVs (rs.zip vs)).orFlags c
  if rgf then { h with sys := { h.sys with gbmode := h.sys.gbmode ||| (1#64 <<< 40) } } else h

/-- Applies a term-by-term operation to two groups. -/
def elementwise (d : Nat) (f : Nat → Nat → Nat × Cond) (a b : List Vec) : List Vec × Cond :=
  let rs := (List.range (d + 1)).map fun k => (List.range d).map fun i => f (laneNat 32 (a.getD k 0) i) (laneNat 32 (b.getD k 0) i)
  (rs.map fun r => ofLanes 32 (r.map (·.1)), (rs.flatMap fun r => r.map (·.2)).foldl (· ||| ·) 0)

/-- `gbadd` and `gbsub`. -/
def groupSum (minus : Bool) (vd va vb : VReg) (dim : BitVec 2) (s : State) : Host.Outcome State Fault Refusal :=
  s.issue .coreOnly fun s => do
    let d := dimOf dim
    s.needGroup vd (d + 1)
    s.needGroup va (d + 1)
    s.needGroup vb (d + 1)
    let _ ← s.cur.getVs (s.groupRegs vd (d + 1))
    let a ← s.cur.getVs (s.groupRegs va (d + 1))
    let b ← s.cur.getVs (s.groupRegs vb (d + 1))
    let (vs, c) := elementwise d (fun x y => gSum [term x, if minus then ((g32 y).negate, 0) else term y]) a b
    .ok { s with cur := (s.cur.writeGroup (s.groupRegs vd (d + 1)) vs c false).advance 4 }

def execGbadd (vd va vb : VReg) (dim : BitVec 2) (s : State) : Host.Outcome State Fault Refusal := groupSum false vd va vb dim s
def execGbsub (vd va vb : VReg) (dim : BitVec 2) (s : State) : Host.Outcome State Fault Refusal := groupSum true vd va vb dim s

def execGbdamp (vd va : VReg) (dim : BitVec 2) (s : State) : Host.Outcome State Fault Refusal :=
  s.issue .coreOnly fun s => do
    let d := dimOf dim
    s.needGroup vd (d + 1)
    s.needGroup va (d + 1)
    let old ← s.cur.getVs (s.groupRegs vd (d + 1))
    let new ← s.cur.getVs (s.groupRegs va (d + 1))
    let beta := specFp16.value (field s.cur.sys.gbbeta 0 16)
    let (rest, c0) := (Ext.fin false 1 0).add 0 beta.negate
    let (vs, c) := elementwise d (fun o n => gSum [beta.mul (g32 o), rest.mul (g32 n)]) old new
    .ok { s with cur := (s.cur.writeGroup (s.groupRegs vd (d + 1)) vs (c ||| c0) false).advance 4 }

/-- A symmetric matrix as its lower triangle gives it (R253). -/
def lower (m : Mat) : Mat := fun r c => if c ≤ r then m r c else m c r

/-- The Schur complement of a joint group: η' and Λ' of dimension k. -/
def schur (h : Hart) (k d : Nat) (hi : Bool) (eta : Col) (full : Mat) : Except Exc (List Vec × Cond × Bool) := do
  let lam := lower full
  let e := d - k
  let a := fun i => if hi then e + i else i
  let b := fun i => if hi then i else k + i
  let f ← cholesky h e fun i j => lam (b i) (b j)
  let (z, c) := fsub f.L e (fun i => eta (b i)) f.cond
  let (w, c) := (List.range k).foldl (fun ((w : Mat), c) i =>
    let (col, c) := fsub f.L e (fun r => lam (b r) (a i)) c
    ((fun r q => if q = i then col r else w r q : Mat), c)) ((fun _ _ => 0 : Mat), c)
  let (eta', c) := colOf (fun _ i => gSum (term (eta (a i)) :: (List.range e).map fun r => lessTerm (w r i) (z r)))
    (List.range k) (fun _ => 0) c
  let (lam', c) := (List.range k).foldl (fun (m, c) i =>
    (List.range (i + 1)).foldl (fun ((m : Mat), c) j =>
      let (v, cv) := gSum (term (lam (a i) (a j)) :: (List.range e).map fun r => lessTerm (w r i) (w r j))
      ((m.set i j v).set j i v, c ||| cv)) (m, c)) ((fun _ _ => 0 : Mat), c)
  .ok (groupOf k eta' lam', c, f.regularised)

def execGbschur (vd va : VReg) (keep joint : BitVec 2) (hi : Bool) (s : State) : Host.Outcome State Fault Refusal :=
  s.issue .coreOnly fun s => do
    let k := keep.toNat + 1
    let d := joint.toNat + 1
    s.needGroup vd (k + 1)
    s.needGroup va (d + 1)
    let _ ← s.cur.getVs (s.groupRegs vd (k + 1))
    let a ← s.cur.getVs (s.groupRegs va (d + 1))
    let (vs, c, rgf) ← schur s.cur k d hi (groupEta a) (groupMat a)
    .ok { s with cur := (s.cur.writeGroup (s.groupRegs vd (k + 1)) vs c rgf).advance 4 }

/-- The mean of a group whose factor is given. -/
def solveMean (f : Chol) (d : Nat) (eta : Col) : Vec × Cond :=
  let (z, c) := fsub f.L d eta f.cond
  let (m, c) := colOf (fun m i =>
      gQuotient (term (z i) :: ((List.range d).filter fun k => i < k).map fun k => lessTerm (f.L k i) (m k)) (f.L i i))
    (List.range d).reverse (fun _ => 0) c
  (laneRow d m, c)

/-- The diagonal of its covariance. -/
def solveVar (f : Chol) (d : Nat) : Vec × Cond :=
  let (m, c) := (List.range d).foldl (fun ((m : Mat), c) q =>
    let (col, c) := fsub f.L d (fun r => if r = q then 0x3f800000 else 0) c
    ((fun r p => if p = q then col r else m r p : Mat), c)) ((fun _ _ => 0 : Mat), f.cond)
  let (v, c) := colOf (fun _ i => gSum (((List.range d).filter fun k => i ≤ k).map fun k => prodTerm (m k i) (m k i)))
    (List.range d) (fun _ => 0) c
  (laneRow d v, c)

/-- `gbsolve` and `gbsolve.var`. -/
def solveOp (var : Bool) (vd va : VReg) (dim : BitVec 2) (s : State) : Host.Outcome State Fault Refusal :=
  s.issue .coreOnly fun s => do
    let d := dimOf dim
    s.needGroup vd 1
    s.needGroup va (d + 1)
    let _ ← s.cur.getV vd
    let a ← s.cur.getVs (s.groupRegs va (d + 1))
    let f ← cholesky s.cur d (groupMat a)
    let (v, c) := if var then solveVar f d else solveMean f d (groupEta a)
    .ok { s with cur := (s.cur.writeGroup [vd] [v] c f.regularised).advance 4 }

def execGbsolve (vd va : VReg) (dim : BitVec 2) (s : State) : Host.Outcome State Fault Refusal := solveOp false vd va dim s
def execGbsolveVar (vd va : VReg) (dim : BitVec 2) (s : State) : Host.Outcome State Fault Refusal := solveOp true vd va dim s

/-! ## Slots (R262, R263) -/

def Mailbox.count (m : Mailbox) : Nat := m.shadows.length
def Mailbox.slotPa (m : Mailbox) (i : Nat) : Nat := m.base + 128 * i
def Mailbox.shadow (m : Mailbox) (i : Nat) : Shadow := m.shadows.getD i {}

/-- Writes seq, res and fresh of a header from its shadow. -/
def State.writeHeader (s : State) (pa : Nat) (h : Shadow) : State :=
  let s := (s.homeWrite pa 4 h.seq.toNat).homeWrite (pa + 4) 4 h.res.toNat
  let b := (readByte s.mem (pa + 12)).toNat
  s.homeWrite (pa + 12) 1 (b - (b / 4 % 2) * 4 + h.fresh.toNat * 4)

def State.withMailbox (s : State) (c : CoreId) (f : Mailbox → Mailbox) : State :=
  s.withCore c fun k => { k with mailbox := f k.mailbox }

/-- Taking a slot clears fresh and res in shadow and header. -/
def State.takeSlot (s : State) (c : CoreId) (i : Nat) : State :=
  let m := (s.coreOf c).mailbox
  let h := { m.shadow i with fresh := false, res := 0 }
  (s.withMailbox c fun m => { m with shadows := m.shadows.set i h }).writeHeader (m.slotPa i) h

/-! ## Polls (R270) -/

/-- A residual; a NaN counts as largest. -/
def resAbove (a b : Nat) : Bool := (g32 a).isNan || (!(g32 b).isNan && !(g32 a).lt (g32 b))

/-- The slot qualifies under a threshold, a NaN of which reads as +0. -/
def Shadow.qualifies (h : Shadow) (threshold : BitVec 32) : Bool :=
  h.fresh && resAbove h.res.toNat (if (g32 threshold.toNat).isNan then 0 else threshold.toNat)

/-- The slot with the largest residual, the lowest index first. -/
def Mailbox.largest (m : Mailbox) (is : List Nat) : Option Nat :=
  is.foldl (fun w i => match w with
    | .none => .some i
    | .some v => if resAbove (m.shadow v).res.toNat (m.shadow i).res.toNat then .some v else .some i) .none

/-- The slot that a poll chooses. -/
def Mailbox.choose (m : Mailbox) (threshold : BitVec 32) (rr : Bool) : Option Nat :=
  let ok := fun i => (m.shadow i).qualifies threshold
  if rr then ((List.range m.count).map fun k => (m.position + 1 + k) % m.count).find? ok
  else m.largest ((List.range m.count).filter ok)

/-- A delivery that has been accepted for a core's slots has still to be performed: reads and polls of the slots come after it (R273). -/
def State.deliveryOpen (s : State) (c : CoreId) : Bool := s.sends.any fun m => m.target == c && m.accepted.isSome

/-- One that was accepted in an earlier N-cycle: a `gbclr` comes before those of its own (R273). -/
def State.deliveryEarlier (s : State) (c : CoreId) : Bool :=
  s.sends.any fun m => m.target == c && m.accepted.any (· < s.nCycles (coreDie c))

/-- What a poll writes: the index and the residual taken. -/
def pollResult (i : Nat) (res : BitVec 32) : Word := BitVec.ofNat 64 (i % 256 + res.toNat * 2 ^ 32)

/-- A thread has read a slot: the acquire of what its latest delivery covers (R269). -/
def State.acquireSlot (s : State) (w : Who) (c : CoreId) (i : Nat) : State :=
  s.orderIds w ((s.coreOf c).mailbox.shadow i).cover

/-- A slot is taken by a poll of a thread: the state after it, and the value. -/
def State.pollTake (s : State) (c : CoreId) (slot : Nat) (rr : Bool) (i : Nat) : State × Word :=
  let res := ((s.coreOf c).mailbox.shadow i).res
  let s := (s.acquireSlot (.core c slot) c i).takeSlot c i
  (if rr then s.withMailbox c fun m => { m with position := i } else s, pollResult i res)

/-- Pending polls, oldest first, take the slots that qualify, once no accepted delivery is left. -/
def State.servePolls (s : State) (c : CoreId) : State :=
  if s.deliveryOpen c then s
  else (s.coreOf c).mailbox.polls.foldl (fun s p =>
    match (s.coreOf c).mailbox.choose p.threshold p.rr with
    | .none => s
    | .some i =>
      let (s, v) := s.pollTake c p.slot p.rr i
      (s.withMailbox c fun m => { m with polls := m.polls.filter fun q => q.slot != p.slot }).fillTicket c p.slot p.dest v) s

/-- The executing thread has a poll pending. -/
def State.pollPending (s : State) : Bool :=
  (s.coreOf s.cur.who.core').mailbox.polls.any fun p => p.slot == s.cur.who.slot'

def Hart.threshold (h : Hart) : BitVec 32 := BitVec.ofNat 32 (field h.sys.gbmode 0 32)
def Hart.roundRobin (h : Hart) : Bool := h.sys.gbmode.getLsbD 33

def execGbpoll (d : Reg) (s : State) : Host.Outcome State Fault Refusal :=
  s.issue .coreOnly fun s => do
    s.cur.needX d
    if s.pollPending then .error (.wait .again)
    else
      let c := s.cur.who.core'
      let p : Poll := ⟨s.cur.who.slot', s.cur.destX d, s.cur.threshold, s.cur.roundRobin, s.stamps⟩
      let s : State := { s with cur := (s.cur.markX d).advance 4 }
      .ok (s.withMailbox c fun m => { m with polls := m.polls ++ [p] })

def execGbpolln (d : Reg) (s : State) : Host.Outcome State Fault Refusal :=
  s.issue .coreOnly fun s => do
    s.cur.needX d
    let c := s.cur.who.core'
    if s.pollPending || s.deliveryOpen c then .error (.wait .again)
    else match (s.coreOf c).mailbox.choose s.cur.threshold s.cur.roundRobin with
      | .none => .ok { s with cur := (s.cur.setX d 0x100).advance 4 }
      | .some i =>
        let (t, v) := s.pollTake c s.cur.who.slot' s.cur.roundRobin i
        .ok { t with cur := (t.cur.setX d v).advance 4 }

/-- A shadow as `gbres` returns it. -/
def Shadow.word (h : Shadow) : Word := BitVec.ofNat 64 (h.res.toNat + h.fresh.toNat * 2 ^ 32 + h.valid.toNat * 2 ^ 33)

def execGbres (d a b : Reg) (s : State) : Host.Outcome State Fault Refusal :=
  s.issue .coreOnly fun s => do
    s.cur.needX d
    let x ← s.cur.getX a
    let y ← s.cur.getX b
    let c := s.cur.who.core'
    let m := (s.coreOf c).mailbox
    if s.deliveryOpen c then .error (.wait .again)
    else if m.count ≤ x.toNat then .ok { s with cur := (s.cur.setX d (1#64 <<< 63)).advance 4 }
    else
      let t := s.acquireSlot s.cur.who c x.toNat
      let t := if y.getLsbD 0 then t.takeSlot c x.toNat else t
      .ok { t with cur := (t.cur.setX d (m.shadow x.toNat).word).advance 4 }

/-! ## Configuration (R265) -/

def execGbclr (d a b : Reg) (s : State) : Host.Outcome State Fault Refusal :=
  s.issue .coreOnly fun s => do
    s.cur.needX d
    let base ← s.cur.getX a
    let (count, sync) ← s.cur.getPair b
    .ok (s.waitFor (.mailbox base count sync d))

/-- The scratchpad of a core's partition in its cluster: first address and end. -/
def State.ownSpace (s : State) (c : CoreId) : Nat × Nat :=
  let cl := clusterOf c
  match s.partOfCore c with
  | .none => (0, 0)
  | .some p =>
    let half := p.halfAt cl
    (scratchPa cl (if half = 2 then 0x80000 else 0), scratchPa cl (if half = 1 then 0x80000 else 0x100000))

/-- Where a base lies in the core's own cluster, through either window. -/
def State.mailboxBase (s : State) (c : CoreId) (va : Word) : Option Nat :=
  match windowOf va.toNat with
  | .global pa => if scratchCluster pa = clusterOf c then .some pa else .none
  | .ownScratch off => .some ((s.ownSpace c).1 + off)
  | .unmapped | .translated => .none

/-- The physical address of a sync block, translated at once; nothing when it is no block of the launch. -/
def State.syncNow (s : State) (c : CoreId) (user : Bool) (va : Word) : Option Nat :=
  match s.checkWalk c user va.toNat 32 .read with
  | .ok (_, t) => if placeOf t.pa = .scratch then .some t.pa else .none
  | .error _ => .none

/-- The header of every slot is written from a cleared shadow. -/
def State.clearHeaders (s : State) (pa : Nat) (n : Nat) : State :=
  (List.range n).foldl (fun s i => s.homeWrite (pa + 128 * i) 16 0) s

/-- MAILBOX_CONFIGURE: the checks, the descriptor and the shadows of a waiting `gbclr`, once no delivery of an earlier N-cycle is
left. -/
def State.mailboxConfigure (s : State) (c : CoreId) (slot : Nat) : State :=
  let w := Who.core c slot
  match (s.hartOf w).wait with
  | .mailbox base count sync d =>
    let finish := fun (s : State) (v : Word) => s.finish w 4 fun h => h.setX d v
    let (lo, hi) := s.ownSpace c
    if s.deliveryEarlier c then s
    else match s.mailboxBase c base with
    | .none => finish s 1
    | .some pa =>
      if pa % 128 ≠ 0 ∨ pa < lo ∨ hi < pa + 128 * count.toNat then finish s 1
      else if 256 < count.toNat ∨ (sync ≠ 0 ∧ (s.syncNow c (s.hartOf w).user sync).isNone) then finish s 2
      else
        let n := count.toNat
        let s := s.withMailbox c fun m =>
          { m with
            base := pa, sync := if sync = 0 then .none else s.syncNow c (s.hartOf w).user sync
            shadows := List.replicate n {}, position := n - 1 }
        finish (s.clearHeaders pa n) 0
  | _ => s

def execMailboxConfigure (core slot : Nat) (s : State) : Host.Outcome State Fault Refusal := .next (s.mailboxConfigure core slot)

/-! ## Sending and delivery (R266 to R268) -/

/-- The send queue of a cluster has an entry for the core's partition. -/
def State.sendRoom (s : State) (c : CoreId) : Bool :=
  let q := s.sends.filter fun m => clusterOf m.core == clusterOf c && m.accepted.isNone
  let mine := q.countP fun m => s.samePart m.core c
  queueOpen (s.clusterShared (clusterOf c)) mine (q.length - mine)

/-- The lanes of a group below d, in the four rows of a message. -/
def messageRows (d : Nat) (vs : List Vec) : Vector Vec 4 :=
  Vector.ofFn fun (r : Fin 4) => if r.val < d then laneRow d (groupMat vs r.val) else 0

def execGbsend (va : VReg) (b : Reg) (dim : BitVec 2) (s : State) : Host.Outcome State Fault Refusal :=
  s.issue .coreOnly fun s => do
    let d := dimOf dim
    s.needGroup va (d + 1)
    let (x, y) ← s.cur.getPair b
    let vs ← s.cur.getVs (s.groupRegs va (d + 1))
    let c := s.cur.who.core'
    if field x 40 24 ≠ 0 then .error (trapOf .target x)
    else
      match s.targetCore c (x &&& 0xffffffff#64) false with
      | .error _ | .ok .none => .error (trapOf .target x)
      | .ok (.some t) =>
        if field y 16 48 ≠ 0 then .error (trapOf .target y)
        else if !s.sendRoom c then .error (.wait (.room .sends))
        else
          let m : GbMessage :=
            { core := c, slot := s.cur.who.slot', target := t, index := field x 32 8, edge := field y 0 16
              beta := field s.cur.sys.gbbeta 0 16, dim := d, eta := laneRow d (groupEta vs), rows := messageRows d vs
              cover := s.coverOf s.cur.who 3 }
          .ok { s with sends := s.sends ++ [m], cur := s.cur.advance 4 }

/-- A post of the delivery unit to the mailbox's sync block, for a message. -/
def State.mailboxPost (s : State) (g : GbMessage) (m : Mailbox) (bits : Nat) : State :=
  match m.sync with
  | .none => s
  | .some pa => s.sendPost { pa := pa, bytes := 128, bits := bits, broken := false, source := .none, cover := g.cover, path := 3 }

/-- A message is refused (R268). -/
def State.refuseMessage (s : State) (g : GbMessage) (m : Mailbox) : State :=
  (s.mailboxPost g m (2 ^ 24)).postError (s.ctxNoOf g.target)
    ⟨0, BitVec.ofNat 64 (s.designation g.target), 8, (if m.count = 0 then 1 else 2) * 256⟩

/-- The residual of new against old η bytes: the exact sum of the lanes' distances, rounded once. -/
def residual (new old : Vec) : Nat :=
  (gSum ((List.range 4).map fun i =>
    let (x, _) := (g32 (laneNat 32 new i)).add 0 (g32 (laneNat 32 old i)).negate
    (x.absolute, 0))).1

/-- The bytes of a slot that a delivery writes: header, η, rows. -/
def GbMessage.bytes (g : GbMessage) (h : Shadow) : Nat :=
  h.seq.toNat + 2 ^ 32 * h.res.toNat + 2 ^ 64 * g.beta + 2 ^ 80 * g.edge + 2 ^ 96 * (g.dim - 1) + 2 ^ 98 * h.fresh.toNat +
    2 ^ 128 * (g.eta.toNat + g.rows.toList.foldr (fun r acc => 2 ^ 128 * (r.toNat + acc)) 0)

/-- The poison of the blocks of a slot that are written whole is cleared (R386). -/
def State.clearSlot (s : State) (pa : Nat) : State :=
  [0, 32, 64].foldl (fun s k => s.clearPoison (pa + k) 32) s

/-- The delivery unit performs a message. -/
def State.deliver (s : State) (g : GbMessage) : State :=
  let m := (s.coreOf g.target).mailbox
  if m.count ≤ g.index then s.refuseMessage g m
  else
    let h := m.shadow g.index
    let pa := m.slotPa g.index
    let old : Vec := if h.valid then BitVec.ofNat 128 (readBytes s.mem (pa + 16) 16) else 0
    let r := residual g.eta old
    let res := if h.fresh then (gSum [term h.res.toNat, term r]).1 else r
    let h := { h with res := BitVec.ofNat 32 res, seq := h.seq + 1, fresh := true, valid := true, cover := g.cover }
    let s := s.homeWrite pa 96 (g.bytes h)
    let s := (s.clearSlot pa).withMailbox g.target fun m => { m with shadows := m.shadows.set g.index h }
    s.mailboxPost g m (if (g32 r).isNan then 2 ^ 25 else 0)

/-- A message leaves its send queue and is accepted by its target's delivery unit. -/
def State.acceptMessage (s : State) (g : GbMessage) : State :=
  let t := s.nCycles (coreDie g.target)
  ({ s with sends := s.sends.map fun m => if m == g then { m with accepted := .some t } else m } : State).count
    (s.ctxNoOf g.core) (clusterCore (clusterOf g.core) 0) 6 2 1

/-- The place of an accepted message at its unit: its N-cycle, then the sending core's index in the package (R273). -/
def GbMessage.place (g : GbMessage) : Nat × Nat := (g.accepted.getD 0, coreDie g.core * 2048 + 64 * coreY g.core + coreX g.core)

/-- Another accepted message is performed first by the unit. -/
def State.deliveredAfter (s : State) (g : GbMessage) : Bool :=
  s.sends.any fun m => clusterOf m.target == clusterOf g.target && m.accepted.isSome &&
    (m.place.1 < g.place.1 || (m.place.1 == g.place.1 && m.place.2 < g.place.2))

/-- MAILBOX_DELIVERY: message `k` of those that the cores of a cluster have sent is accepted by its unit, and then performed there,
each when none of its sender to its slot stands before it. -/
def State.mailboxDelivery (s : State) (cl : ClusterId) (k : Nat) : State :=
  let q := s.sends.filter fun m => clusterOf m.core == cl
  match q[k]? with
  | .none => s
  | .some g =>
    if (q.take k).any fun m => m.core == g.core && m.slot == g.slot && m.target == g.target && m.index == g.index then s
    else if g.accepted.isNone then s.acceptMessage g
    else if s.deliveredAfter g then s
    else ({ s with sends := s.sends.erase g } : State).deliver g

def execMailboxDelivery (cl k : Nat) (s : State) : Host.Outcome State Fault Refusal := .next (s.mailboxDelivery cl k)

/-! ## Reading a slot (R272) -/

/-- The mailbox and slot that a physical address is. -/
def State.slotAt (s : State) (pa : Nat) : Option (CoreId × Nat) :=
  s.cores.findSome? fun k =>
    let m := k.mailbox
    if m.base ≤ pa ∧ pa < m.base + 128 * m.count then .some (k.id, (pa - m.base) / 128) else .none

/-- A delivery to the slot's mailbox comes first. -/
def State.slotBusy (s : State) (pa : Nat) : Bool := (s.slotAt pa).any fun e => s.deliveryOpen e.1

/-- The six registers' worth of bytes of a slot. -/
def State.slotBytes (s : State) (pa : Nat) : List Vec := (List.range 6).map fun i => BitVec.ofNat 128 (readBytes s.mem (pa + 16 * i) 16)

/-- A thread reads a slot, and takes it: an acquire of its latest delivery. -/
def State.readSlot (s : State) (w : Who) (pa : Nat) (take : Bool) : State :=
  match s.slotAt pa with
  | .none => s
  | .some (c, i) =>
    let s := s.acquireSlot w c i
    if take then s.takeSlot c i else s

def execGbld (vd : VReg) (a : Reg) (imm : BitVec 11) (take : Bool) (s : State) : Host.Outcome State Fault Refusal :=
  s.issue .coreOnly fun s => do
    s.needGroup vd 6
    let x ← s.cur.getX a
    let rs := s.groupRegs vd 6
    let _ ← s.cur.getVs rs
    let pa ← s.scratchAddress 128 (x + vmOffset imm) .read false
    let c := s.cur.who.core'
    if s.slotBusy pa || (s.coreOf c).storePending s.cur.who.slot' pa 96 || (s.coreOf c).acquiring s.cur.who.slot' then .error (.wait .again)
    else if scratchCluster pa ≠ clusterOf c then
      let cur := rs.foldl Hart.markV s.cur
      let u : PendingUnit := ⟨s.cur.who.slot', .slot pa take, rs.map fun r => .vector r.toNat, s.stamps⟩
      .ok (({ s with cur := cur.advance 4 } : State).withCore c fun k => { k with units := k.units ++ [u] })
    else if [0, 32, 64].any fun k => s.poisoned (pa + k) then .error .poison
    else
      let t := s.readSlot s.cur.who pa take
      .ok { t with cur := (t.cur.setVs (rs.zip (s.slotBytes pa))).advance 4 }

/-! ## Reads that another cluster's unit serves (R164, R272) -/

/-- A unit serves read `k` of a core: a snapshot of a sync block, once the posts that have arrived are taken, or a slot in one step;
its destinations are filled together. -/
def State.serveUnit (s : State) (c : CoreId) (k : Nat) : State :=
  match (s.coreOf c).units[k]? with
  | .none => s
  | .some u =>
    let w := Who.core c u.slot
    let served := fun (s : State) => s.withCore c fun q => { q with units := q.units.eraseIdx k }
    let fill := fun (s : State) (vs : List Nat) => s.withHart w fun h =>
      (u.dests.zip vs).foldl (fun h (e : Dest × Nat) => h.fillDest e.1 false 8 e.2) h
    match u.op with
    | .sync pa sel =>
      if s.postDue pa (s.unitCycles pa + 1) then s
      else fill ((served s).acquireSync w pa) [(s.syncSelect pa sel).toNat]
    | .slot pa take =>
      if s.slotBusy pa then s
      else if [0, 32, 64].any fun k => s.poisoned (pa + k) then (served s).poisonThread w
      else fill ((served s).readSlot w pa take) ((s.slotBytes pa).map (·.toNat))

end Sys2Proof.Machine
end

