-- ==== Sys2Proof/Machine/Digest.lean ====
section
/-! DEFINITION. SHA-256, which the digests of policies and measurements name (R333, R368, R373; log 8). -/

namespace Sys2Proof.Machine

open Sys2Proof

/-- The primes below 312, of which there are 64. -/
def shaPrimes : List Nat :=
  ((List.range 312).drop 2).filter fun n => [2, 3, 5, 7, 11, 13, 17].all fun d => n == d || n % d != 0

/-- The largest number below `got + 2 ^ bits` whose `k`-th power is at most `n`, found from its highest bit down. -/
def rootBits (k n : Nat) : Nat → Nat → Nat
  | 0, got => got
  | bits + 1, got => rootBits k n bits (if (got + 2 ^ bits) ^ k ≤ n then got + 2 ^ bits else got)

/-- The first 32 bits of the fraction of a prime's `k`-th root. -/
def rootFraction (k p : Nat) : BitVec 32 := BitVec.ofNat 32 (rootBits k (p * 2 ^ (32 * k)) 40 0)

/-- The round constants, from the cube roots of the first 64 primes. -/
def shaK : List (BitVec 32) := shaPrimes.map (rootFraction 3)

/-- The words of a hash in progress: eight of them, from the square roots of the first eight primes. -/
def shaStart : List (BitVec 32) := (shaPrimes.take 8).map (rootFraction 2)

/-- The exclusive or of a word turned right by each of some distances, with `last`. -/
def turned (x last : BitVec 32) (by' : List Nat) : BitVec 32 := by'.foldl (fun t n => t ^^^ x.rotateRight n) last

/-- One round: every word moves on by one place, the fourth and the eighth with what the round adds. -/
def shaRound (s : List (BitVec 32)) (kw : BitVec 32) : List (BitVec 32) :=
  let at' := fun i => s.getD i 0
  let chosen := at' 6 ^^^ (at' 4 &&& (at' 5 ^^^ at' 6))
  let most := (at' 0 &&& at' 1) ||| (at' 2 &&& (at' 0 ||| at' 1))
  let add := at' 7 + chosen + turned (at' 4) 0 [6, 11, 25] + kw
  (add + most + turned (at' 0) 0 [2, 13, 22]) :: s.take 3 ++ (at' 3 + add) :: (s.drop 4).take 3

/-- The message schedule: `n` more words after the sixteen latest, oldest first. -/
def shaWords : Nat → List (BitVec 32) → List (BitVec 32)
  | 0, w => w
  | n + 1, w =>
    let low := turned (w.getD 1 0) (w.getD 1 0 >>> 3) [7, 18]
    let high := turned (w.getD 14 0) (w.getD 14 0 >>> 10) [17, 19]
    w.headD 0 :: shaWords n (w.tail ++ [low + high + w.getD 0 0 + w.getD 9 0])

/-- One block of sixteen words. -/
def shaBlock (s w : List (BitVec 32)) : List (BitVec 32) :=
  s.zipWith (· + ·) ((shaK.zipWith (· + ·) (shaWords 48 w)).foldl shaRound s)

/-- Four bytes as a word, the first byte highest. -/
def bigWord (l : List Byte) : BitVec 32 := BitVec.ofNat 32 (l.foldl (fun n b => n * 256 + b.toNat) 0)

/-- The blocks of a padded message. -/
def shaBlocks (l : List Byte) : Nat → List (BitVec 32) → List (BitVec 32)
  | 0, s => s
  | n + 1, s => shaBlocks (l.drop 64) n (shaBlock s ((List.range 16).map fun i => bigWord ((l.drop (4 * i)).take 4)))

/-- A number as bytes, the highest first. -/
def bigBytes (n v : Nat) : List Byte := (List.range n).map fun i => BitVec.ofNat 8 (v / 256 ^ (n - 1 - i))

/-- A message with its padding. -/
def shaPad (l : List Byte) : List Byte :=
  l ++ [0x80] ++ List.replicate ((119 - l.length % 64) % 64) 0 ++ bigBytes 8 (8 * l.length)

/-- SHA-256, the first byte of the digest highest. -/
def sha256 (l : List Byte) : Digest :=
  let p := shaPad l
  BitVec.ofNat 256 ((shaBlocks p (p.length / 64) shaStart).foldl (fun n w => n * 2 ^ 32 + w.toNat) 0)

end Sys2Proof.Machine
end

