-- ==== Sys2Proof/Machine/Signature.lean ====
section
/-! DEFINITION. LMS and HSS signatures over SHA-256, which firmware images and disclosure policies carry (R365, R371). The spec names the
parameter sets; the layout of keys and signatures is that of RFC 8554 (PRESUMED, log 8). -/

namespace Sys2Proof.Machine

open Sys2Proof

/-! ## Digests of byte strings -/

/-- SHA-256 as bytes. -/
def shaBytes (l : List Byte) : List Byte := bigBytes 32 (sha256 l).toNat

/-- `n` bytes at an offset, and the number that they are, the first byte highest. -/
def sliceOf (l : List Byte) (off n : Nat) : List Byte := (l.drop off).take n
def bigAt (l : List Byte) (off n : Nat) : Nat := (sliceOf l off n).foldl (fun v b => v * 256 + b.toNat) 0

/-! ## LM-OTS -/

/-- A parameter set LMOTS_SHA256_N32_W: the Winternitz parameter, the number of chains, and the shift of the checksum. -/
structure OtsSet where
  w : Nat
  chains : Nat
  shift : Nat

/-- The set that a type code names. -/
def otsSet : Nat → Option OtsSet
  | 1 => .some ⟨1, 265, 7⟩
  | 2 => .some ⟨2, 133, 6⟩
  | 3 => .some ⟨4, 67, 4⟩
  | 4 => .some ⟨8, 34, 0⟩
  | _ => .none

/-- Digit `i` of a string in base `2 ^ w`, the highest of each byte first. -/
def digitOf (l : List Byte) (w i : Nat) : Nat := (l.getD (i * w / 8) 0).toNat / 2 ^ (8 - (w * (i % (8 / w)) + w)) % 2 ^ w

/-- The checksum of a digest. -/
def otsChecksum (o : OtsSet) (q : List Byte) : Nat :=
  ((List.range (256 / o.w)).map fun i => 2 ^ o.w - 1 - digitOf q o.w i).sum * 2 ^ o.shift

/-- What the string names that is hashed at every place of a tree: its identifier, a number and a tag. -/
def treePlace (ident : List Byte) (n tag : Nat) : List Byte := ident ++ bigBytes 4 n ++ bigBytes 2 tag

/-- The rest of a chain, from a digit on. -/
def otsChain (ident : List Byte) (leaf i : Nat) : Nat → Nat → List Byte → List Byte
  | 0, _, t => t
  | n + 1, j, t => otsChain ident leaf i n (j + 1) (shaBytes (treePlace ident leaf i ++ bigBytes 1 j ++ t))

/-- The one-time public key that a signature gives for a message. -/
def otsKey (o : OtsSet) (ident : List Byte) (leaf : Nat) (c : List Byte) (y : List Byte) (msg : List Byte) : List Byte :=
  let q := shaBytes (treePlace ident leaf 0x8181 ++ c ++ msg)
  let digits := q ++ bigBytes 2 (otsChecksum o q)
  let ends := (List.range o.chains).flatMap fun i =>
    let a := digitOf digits o.w i
    otsChain ident leaf i (2 ^ o.w - 1 - a) a (sliceOf y (32 * i) 32)
  shaBytes (treePlace ident leaf 0x8080 ++ ends)

/-! ## LMS -/

/-- Height of LMS_SHA256_M32_H by its type code. -/
def lmsHeight : Nat → Option Nat
  | 5 => .some 5
  | 6 => .some 10
  | 7 => .some 15
  | 8 => .some 20
  | 9 => .some 25
  | _ => .none

/-- From a node of a tree up to its root. -/
def treeRoot (ident path : List Byte) : Nat → Nat → List Byte → List Byte
  | 0, _, t => t
  | n + 1, node, t =>
    let p := path.take 32
    treeRoot ident (path.drop 32) n (node / 2)
      (shaBytes (treePlace ident (node / 2) 0x8383 ++ (if node % 2 = 1 then p ++ t else t ++ p)))

/-- Which parameter sets a signature may use: type codes of LMS and LM-OTS, and numbers of levels. -/
structure SignRule where
  lms : List Nat
  ots : List Nat
  levels : List Nat

/-- The bytes of a signature made under types of LM-OTS and LMS; nothing for types that there are not. -/
def lmsLength (ots lms : Nat) : Option Nat :=
  match otsSet ots, lmsHeight lms with
  | .some o, .some h => .some (8 + 32 + 32 * o.chains + 4 + 32 * h)
  | _, _ => .none

/-- A key of 56 bytes verifies a signature of a message, under a rule. -/
def lmsVerify (r : SignRule) (key msg sig : List Byte) : Bool :=
  let lms := bigAt key 0 4
  let ots := bigAt key 4 4
  match otsSet ots, lmsHeight lms, lmsLength ots lms with
  | .some o, .some h, .some n =>
    let q := bigAt sig 0 4
    let ident := sliceOf key 8 16
    let leafKey := otsKey o ident q (sliceOf sig 8 32) (sliceOf sig 40 (32 * o.chains)) msg
    let leaf := shaBytes (treePlace ident (2 ^ h + q) 0x8282 ++ leafKey)
    r.lms.contains lms && r.ots.contains ots && key.length == 56 && sig.length == n && bigAt sig 4 4 == ots &&
      bigAt sig (40 + 32 * o.chains) 4 == lms && decide (q < 2 ^ h) &&
      treeRoot ident (sig.drop (44 + 32 * o.chains)) h (2 ^ h + q) leaf == sliceOf key 24 32
  | _, _, _ => false

/-! ## HSS -/

/-- A chain of signed keys, `n` of them, and at its end the signature of the message. -/
def hssChain (r : SignRule) (msg : List Byte) : Nat → List Byte → List Byte → Bool
  | 0, key, sig => lmsVerify r key msg sig
  | n + 1, key, sig =>
    match lmsLength (bigAt key 4 4) (bigAt key 0 4) with
    | .none => false
    | .some len =>
      let next := sliceOf sig len 56
      lmsVerify r key next (sig.take len) && hssChain r msg n next (sig.drop (len + 56))

/-- An HSS public key verifies a signature of a message, under a rule. -/
def hssVerify (r : SignRule) (key msg sig : List Byte) : Bool :=
  let levels := bigAt key 0 4
  key.length == 60 && r.levels.contains levels && bigAt sig 0 4 + 1 == levels && hssChain r msg (levels - 1) (key.drop 4) (sig.drop 4)

/-- Firmware: LMS_SHA256_M32_H20 with LMOTS_SHA256_N32_W4, two levels (R365). -/
def firmwareRule : SignRule := ⟨[8], [3], [2]⟩

/-- Policies: heights from 5 to 20, any Winternitz parameter, one or two levels (R371). -/
def policyRule : SignRule := ⟨[5, 6, 7, 8], [1, 2, 3, 4], [1, 2]⟩

end Sys2Proof.Machine
end

