-- ==== Sys2Proof/Machine/Handler.lean ====
section
/-! DEFINITION. The protocol processor: the library code of protocol 0, dispatch, the handler instructions of primaries 0x68 to
0x6A, and what the proxy PPs do for protocol 0 (R281 to R308). -/

namespace Sys2Proof.Machine

open Sys2Proof

/-! ## Instruction memory (R281): the library part -/

/-- Type 0, from byte 0. -/
def invalidate0 : List Nat :=
  [0x06040c11, 0x060c2c11, 0x07c62a11, 0x00004e05, 0x05ca1e21, 0x040a0a21, 0x06062b11, 0x000beb07,
   0x00060d05, 0x000b0f05, 0x060d1011, 0x06103011, 0x05900621, 0x020d2d11, 0xffefef05, 0xfc0f3621,
   0x00006e05, 0x05cb0e21, 0x008b0f11, 0x19ec1003, 0x0e060603, 0x00003005, 0x06101011, 0x02060603,
   0x00c360d1, 0x00018023, 0x00004613, 0x00062605, 0x06060611, 0x0d860603, 0x00c360d1, 0x00002805,
   0x00000905, 0x010420d3, 0x000000d5, 0x00038ad1, 0x000a3e21, 0x00c300d1, 0x000360d1, 0x000020d5,
   0x00038ad1, 0x000a3421, 0x00c300d1, 0x02062d11, 0x040d0d11, 0x040d2d11, 0x00004e13, 0x000e4e05,
   0x060e0e11, 0x0dcd0d03, 0x01a360d1, 0x000020d5]

/-- Type 1, from byte 208. -/
def invalidate1 : List Nat :=
  [0x06040c11, 0x060c2c11, 0x04061821, 0x00038ad1, 0x040a3021, 0x06062b11, 0x000beb07, 0x00060d05,
   0x00001105, 0x00001205, 0x060d1011, 0x06103011, 0x01900821, 0x020300d1, 0x00113105, 0x00008023,
   0x00003205, 0x020d2d11, 0xffebeb05, 0xfc0b2e21, 0x00111221, 0x00000605, 0x00120a21, 0x00004613,
   0x00062605, 0x06060611, 0x0d860603, 0x00c360d1, 0x000020d5, 0x0003a0d1, 0x00008613, 0x00062605,
   0x06060611, 0x0d860603, 0x00c360d1, 0x00004805, 0x00000905, 0x010420d3, 0x000000d5]

/-- Type 2, from byte 364. -/
def invalidate2 : List Nat :=
  [0x00061821, 0x00038ad1, 0x000a3221, 0x06062b11, 0x000beb07, 0x00060d05, 0x01a300d1, 0x020d2d11,
   0xffebeb05, 0xfc0b3a21, 0x000360d1, 0x000020d5, 0x00008805, 0x00000905, 0x010420d3, 0x000000d5]

/-- Type 3, from byte 428. -/
def invalidate3 : List Nat :=
  [0x07c62a11, 0x00004e05, 0x01ca2e21, 0x06040c11, 0x060c2c11, 0x06060d11, 0x060d2d11, 0x01ac2421,
   0x000360d1, 0x000000d5]

/-- Type 6, from byte 468. -/
def invalidate6 : List Nat :=
  [0x0003a0d1, 0x000000d5]

/-- Type 7, from byte 476. -/
def invalidate7 : List Nat :=
  [0x00061021, 0x06062b11, 0x000beb07, 0x00c300d1, 0x02062611, 0xffebeb05, 0xfc0b3a21, 0x000000d5,
   0x0003a0d1, 0x000000d5]

/-- The handlers of protocol 0, one after the other from address 0. -/
def invalidateCode : List Nat := invalidate0 ++ invalidate1 ++ invalidate2 ++ invalidate3 ++ invalidate6 ++ invalidate7

/-- Their start addresses. -/
def invalidateEntry : Nat → Option Nat
  | 0 => .some 0
  | 1 => .some 208
  | 2 => .some 364
  | 3 => .some 428
  | 6 => .some 468
  | 7 => .some 476
  | _ => .none

/-- The code of library protocols 1 to 5, which the spec does not print (log 12). -/
opaque Config.libraryByte : Nat → Byte

/-- A byte of a PP's instruction memory: the library below 16 KiB, loaded handler sets above. -/
def Pp.codeByte (p : Pp) (a : Nat) : Byte :=
  if a < 4 * invalidateCode.length then BitVec.ofNat 8 (invalidateCode.getD (a / 4) 0 / 256 ^ (a % 4))
  else if a < 0x4000 then Config.libraryByte a
  else readByte p.imem a

/-- A parcel of a handler's code; beyond the 64 KiB there is none. -/
def Pp.parcel (p : Pp) (pc : Word) : Except Exc (BitVec 16) :=
  if pc.toNat < 65536 then .ok ((p.codeByte (pc.toNat + 1)).setWidth 16 <<< 8 ||| (p.codeByte pc.toNat).setWidth 16)
  else .error (.handler 3)

/-- The instruction at a handler's pc. -/
def Pp.fetch (p : Pp) (pc : Word) : Except Exc (BitVec 32 × Nat) :=
  match p.parcel pc with
  | .error e => .error e
  | .ok lo =>
    if !lo.getLsbD 0 then .ok (lo.setWidth 32, 2)
    else match p.parcel (pc + 2) with
      | .error e => .error e
      | .ok hi => .ok (hi.setWidth 32 <<< 16 ||| lo.setWidth 32, 4)

/-! ## The home's records (R278, R290, R291) -/

/-- The home summary of a block at a PP. -/
def State.summary (s : State) (p : PpId) (block : Nat) : Nat :=
  if ((s.ppOf p).busyOf block).isSome then 2 else (s.homeOf p block).settled

/-- The directory set of a block, of 2^17. -/
def dirSet (block : Nat) : Nat := block / 32 % 2 ^ 17

/-- The entries of a block's set, most recently written first. -/
def State.dirSetOf (s : State) (p : PpId) (block : Nat) : List HomeBlock :=
  s.home.filter fun b => b.pp == p && b.entry != 0 && dirSet b.block == dirSet block

/-- A sector miss at an L2 slice, or at an RDC: it opens a merge window or joins one, or a burst that brings its sector (R149). -/
def State.noteSector (s : State) (p : PpId) (block : Nat) (ctx : CtxNo) : State :=
  let holder := if isProxy p then 2 * (p / 37) + 1 else 2 * homeDie block
  let line := block / 256
  let bit := 1#8 <<< (block / 32 % 8)
  let tenant := ((s.ctxOf? ctx).map (·.tenant)).getD 0
  let here := fun (w : MergeWindow) => w.holder == holder && w.line == line
  let hit := s.lines.any fun l => l.holder == holder && l.line == line && (l.sectors &&& bit) != 0
  let s := s.count ctx holder 4 (if hit then 0 else 1) 1
  if hit then s
  else if s.windows.any fun w => here w && w.inFlight && (w.sectors &&& bit) != 0 then s
  else if s.windows.any fun w => here w && !w.inFlight then
    { s with windows := s.windows.map fun w => if here w && !w.inFlight then { w with sectors := w.sectors ||| bit } else w }
  else { s with windows := s.windows ++ [⟨holder, line, bit, s.nCycles (holder / 2), false, tenant⟩] }

/-! ## Dispatch (R285, R286) -/

/-- The threads of a PP. -/
def State.handlers (s : State) (p : PpId) : List Hart := (List.range 8).map fun t => s.hartOf (.pp p t)

/-- A handler for the block runs at the PP. -/
def State.handlerRuns (s : State) (p : PpId) (block : Nat) : Bool :=
  (s.handlers p).any fun h => h.life == .live && h.handler.any fun k => k.msg.block == block

/-- The lane of a message, wherever it has waited: 0 request, 1 forward, 2 reply. -/
def PpMsg.lane (m : PpMsg) : Nat := if m.reply then 2 else if m.sender.isSome then 1 else 0

/-- What a PP has deferred, and what its running handlers may still defer, leaves room in the defer store (R300). -/
def State.deferRoom (s : State) (p : PpId) : Bool :=
  let q := s.ppOf p
  (q.busy.map fun b => b.list.length).sum + q.retry.length +
    ((s.handlers p).filter fun h => h.life == .live && h.handler.any fun k => k.lane != 2).length < 2048

/-- The reply-buffer entries of a PP that messages on their way hold, and those kept for its running handlers (R299). -/
def State.replyUse (s : State) (p : PpId) : Nat :=
  (s.net.filter fun m => m.route.1 == (Agent.pp p).code).length +
    ((s.handlers p).map fun h => if h.life = .live then 32 - ((h.handler.map (·.replies)).getD 0) else 0).sum

/-- The PP that a proxy forwards a request to: the home, or the fabric port on the way to a peer; none when the home is the peer
at the end of the proxy's own link. -/
def State.forwardPp (s : State) (p : PpId) (m : PpMsg) : Option PpId :=
  if !isRemote s.pkg m.home then .some (homePp m.home)
  else
    let f := fabricPp ((s.portOfLine m.home).getD 0)
    if f = p then .none else .some f

/-- A new directory entry for the block has no place: its set is full, and nothing in it can be evicted now (R291). -/
def State.entryWaits (s : State) (p : PpId) (block : Nat) : Bool :=
  let set := s.dirSetOf p block
  let q := s.ppOf p
  (s.homeOf p block).entry == 0 && decide (16 ≤ set.length) &&
    (decide (16 ≤ (q.busy.filter (·.recalled)).length) || set.all fun e => (q.busyOf e.block).isSome)

/-- A library handler that would have to wait, for the home's forward queue or for a directory entry, is not dispatched yet. -/
def State.libraryWaits (s : State) (p : PpId) (m : PpMsg) : Bool :=
  isLibrary m.proto && decide (m.type ≤ 2) && (isProxy p || m.proto != 0) && (s.entryWaits p m.block ||
    (isProxy p && (s.forwardPp p m).any fun hp =>
      decide (64 ≤ (s.ppOf hp).fwdQueue.length) || s.rdcWriteBack (p / 37) hp m.block))

/-- A message of the forward lane for a block stands behind one that was replayed (R292). -/
def Pp.behindReplay (p : Pp) (m : PpMsg) : Bool :=
  !m.replayed && p.reqQueue.any fun r => r.replayed && r.block == m.block

/-- A message that a thread can run: no handler of its block runs, and one of the request lane finds its block not busy and stands
behind none that was replayed. -/
def State.runnable (s : State) (p : PpId) (m : PpMsg) : Bool :=
  !s.handlerRuns p m.block &&
    (m.reply || !(s.ppOf p).behindReplay m && (((s.ppOf p).busyOf m.block).isNone && s.deferRoom p && !s.libraryWaits p m))

/-- The tenant that a reserved grant of the PP's input goes to: the first after the latest one whose oldest message has waited
longer than the window of 4096 D-cycles (R26, R346). -/
def State.reservedMsg (s : State) (p : PpId) (ms : List PpMsg) : Option TenantNo :=
  let q := s.ppOf p
  let tenant := fun (m : PpMsg) => ((s.ctxOf? m.ctx).map (·.tenant)).getD 0
  let ts := (ms.filter fun m => m.at' + 4096 < s.dCycles (p / 37)).map tenant
  let pool := if ts.any fun t => q.reserved.all (· < t) then ts.filter fun t => q.reserved.all (· < t) else ts
  if q.grants % 16 = 15 then pool.foldl (fun r t => .some (r.elim t (min t))) .none else .none

/-- The next message for a thread: its queue (0 request, 1 forward, 2 reply), its index there, and the message. -/
def State.nextMessage (s : State) (p : PpId) (tid : Nat) : Option (Nat × Nat × PpMsg) :=
  let q := s.ppOf p
  let all := q.repQueue ++ (if tid = 7 then [] else q.fwdQueue ++ q.reqQueue)
  let tenant := s.reservedMsg p (all.filter (s.runnable p))
  let ok := fun (m : PpMsg) => s.runnable p m && tenant.all fun t => ((s.ctxOf? m.ctx).map (·.tenant)).getD 0 == t
  let pick := fun (lane : Nat) (ms : List PpMsg) => (ms.zipIdx.find? fun (m, _) => ok m).map fun (m, i) => (lane, i, m)
  let r := pick 2 q.repQueue
  if tid = 7 then r else r.or ((pick 1 q.fwdQueue).or (pick 0 q.reqQueue))

/-- The PP without a message of a queue. -/
def Pp.takeMessage (p : Pp) (lane i : Nat) : Pp :=
  match lane with
  | 0 => { p with reqQueue := p.reqQueue.eraseIdx i }
  | 1 => { p with fwdQueue := p.fwdQueue.eraseIdx i }
  | _ => { p with repQueue := p.repQueue.eraseIdx i }

/-- Entry x5 of R286. -/
def PpMsg.info (m : PpMsg) (lane : Nat) : Word :=
  BitVec.ofNat 64 (m.ctx % 2 ^ 32 * 2 ^ 32 + m.arg % 256 * 2 ^ 24 + m.path % 16 * 2 ^ 20 + m.hint % 8 * 2 ^ 17 +
    (if m.holdsRo then 2 ^ 16 else 0) + m.size % 16 * 2 ^ 12 + m.proto % 16 * 2 ^ 8 +
    (if m.proxy then 128 else 0) + (if lane = 2 then 64 else 0) + m.type % 64)

/-- A thread that starts a handler (R286). Of a message of types 0 to 2 that a PP has sent, x8 is its payload, as R293 delivers it (DESIGN
CHOICE, log 12). -/
def startHandler (s : State) (p : PpId) (tid : Nat) (m : PpMsg) (lane pc : Nat) : State :=
  let h := s.hartOf (.pp p tid)
  let h : Hart := { who := h.who, life := .live, pc := BitVec.ofNat 64 pc, rng := h.rng, counters := h.counters,
                    handler := .some ⟨m, lane, 0, false, false, false, false, 0⟩ }
  let h := (((((h.setX 3 (BitVec.ofNat 64 m.block)).setX 4 m.agent).setX 5 (m.info lane)).setX 6
    (if m.type = 7 then m.removed else (s.homeOf p m.block).entry)).setX 7 (BitVec.ofNat 64 (s.summary p m.block)))
  let h := (h.setX 8 (if m.type = 9 ∨ 16 ≤ m.type ∨ m.type = 6 ∨ m.type = 10 ∨ m.sender.isSome then m.payload else 0)).setX 28
    (BitVec.ofNat 64 dataMemory)
  s.setHart h

/-- The start address of a message's handler, if its binding has one. -/
def Pp.entryFor (p : Pp) (m : PpMsg) : Option Nat :=
  if isLibrary m.proto then invalidateEntry m.type
  else (p.binding m).bind fun b => (b.dispatch.find? fun e => e.1 == m.type).map (·.2)

def Pp.faulted (p : Pp) (m : PpMsg) : Bool := !isLibrary m.proto && (p.binding m).any (·.faulted)

/-! ## Grants (R294) -/

/-- The entry of the store buffer that a core's request for a block stands for: the oldest store to it that nothing holds back. -/
def State.storeFor (s : State) (c : CoreId) (q : Request) : Option (StoreEntry × Nat) :=
  (s.coreOf c).stores.zipIdx.find? fun (e, i) => e.acc.kind == .store && blockOf e.acc.pa == q.block && e.sent.isNone &&
    !isRemote s.pkg e.acc.pa && !s.heldBack c i e

/-- The access that a core's request stands for: the element of a scatter, the store to the block, or the atomic. -/
def State.accessOf (s : State) (c : CoreId) (q : Request) : Option Access :=
  q.retry.or (if q.type = 1 then (s.storeFor c q).map (·.1.acc)
    else (((s.coreOf c).atomics.find? fun a => a.req == .some q.rtag).map (·.acc)).or
      (((s.coreOf c).stores.find? fun e => e.req == .some q.rtag).map (·.acc)))

/-- Marks the store that the home has performed. -/
def State.markSent (s : State) (c : CoreId) (q : Request) : State :=
  if q.type ≠ 1 ∨ q.retry.isSome then s
  else match s.storeFor c q with
    | .none => s
    | .some (_, i) => s.withCore c fun k => { k with stores := updateAt k.stores i fun e => { e with sent := .some s.time } }

/-- The access of a request acts when its gang commits: the home's answer only lets it (R105). -/
def State.actsLater (s : State) (c : CoreId) (q : Request) : Bool := (s.coreOf c).ganged && q.retry.isSome

/-- The home L2 performs the access of a core's request; poisoned data it leaves for the core to consume (R386). -/
def State.performFor (s : State) (c : CoreId) (rtag : Nat) : State :=
  match (s.coreOf c).request? rtag with
  | .none => s
  | .some q =>
    match s.accessOf c q with
    | .none => s
    | .some a =>
      if s.actsLater c q || (a.kind != .store && s.poisoned a.pa) then s
      else ((s.markSent c q).performHome c a).1

/-- The block as a PP grants it: from the home L2, or at a proxy PP from its RDC. -/
def State.grantData (s : State) (p : PpId) (block : Nat) : BitVec 256 :=
  if isProxy p then
    match s.rdc.find? fun r => r.die == p / 37 && r.block == block with
    | .some r => r.data
    | .none => homeData s.mem block
  else homeData s.mem block

/-- The core's access of a message that waits at a proxy is performed. -/
def State.performMsg (s : State) (p : PpId) (m : PpMsg) : State :=
  match agentAt p (agentNo m.agent) with
  | .core c => s.performFor c (rtagOf m.agent)
  | _ => s

/-- Sends a grant. With `home` the requester's access is performed as the grant is sent. -/
def State.sendGrant (s : State) (p : PpId) (agent : Word) (block tag : Nat) (home : Bool) (payload : Word) (ctx : CtxNo) :
    State :=
  let d := s.grantData p block
  let s := s.noteSector p block ctx
  let s := if !home then s else match agentAt p (agentNo agent) with
    | .core c => s.performFor c (rtagOf agent)
    | .rdc die =>
      let proxy := proxyPp die (p / 37)
      match ((s.ppOf proxy).busyOf block).bind fun b => b.list.find? fun m => decide (m.type ≤ 2) with
      | .none => s
      | .some m => s.performMsg proxy m
    | _ => s
  { s with net := s.net ++ [.grant p agent block tag home d payload] }

/-! ## Directory entries of the library (R290, R291, R305, R306) -/

/-- DIRECTORY_EVICTION: removes an entry, makes its block busy with a recall, and queues type 7 (R291). -/
def State.recallEntry (s : State) (b : HomeBlock) : State :=
  let s := s.setHome { b with entry := 0, summary := 0 }
  let s := s.withPp b.pp fun q => { q with busy := q.busy ++ [⟨b.block, 0, false, [], true, b.ctx, b.proto, b.arg, 0⟩] }
  let m := { plainMsg 7 b.block 0 { plainRegion b.ctx b.block with proto := b.proto, arg := b.arg } with
    removed := b.entry, proxy := isProxy b.pp, reply := true }
  s.withPp b.pp fun q => { q with repQueue := enterQueue q.repQueue (s.arrived b.pp m) }

/-- Writes a block's entry with the binding of a message; where its set is full, the least recently written entry whose block is
not busy makes room. -/
def State.putEntry (s : State) (p : PpId) (m : PpMsg) (block : Nat) (e : Word) (o : Bool) : State :=
  let set := s.dirSetOf p block
  let q := s.ppOf p
  let s := if e = 0 ∨ (s.homeOf p block).entry ≠ 0 ∨ set.length < 16 then s
    else match (set.filter fun b => (q.busyOf b.block).isNone).getLast? with
      | .some v => s.recallEntry v
      | .none => s
  s.setHome ⟨block, if o then 3 else 0, e, m.ctx, m.proto, m.arg, p, (s.homeOf p block).written⟩

/-- The copies that an entry of R305 records: agent numbers, oldest first, and whether the one is exclusive. -/
def entryAgents (e : Word) : List Nat := (List.range (field e 48 3)).map fun k => field e (16 * k) 16
def entryExclusive (e : Word) : Bool := field e 62 2 == 2

/-- The entry that records some copies. -/
def agentsEntry (exclusive : Bool) (as : List Nat) : Word :=
  if as = [] then 0
  else BitVec.ofNat 64 ((if exclusive then 2 else 1) * 2 ^ 62 + as.length * 2 ^ 48 +
    (as.zipIdx.map fun (a, k) => a % 2 ^ 16 * 2 ^ (16 * k)).sum)

/-! ## Library handlers as single steps: the proxy role of R307, and protocols 1 to 5 of R189 -/

/-- Makes a block busy at a PP, with a deferred message; a message that finds no busy entry goes to the retry list, as with
`hdefer` after an `hbusy` that failed (R292, R297). -/
def State.holdBlock (s : State) (p : PpId) (m : PpMsg) : State :=
  let q := s.ppOf p
  if (q.busyOf m.block).isSome then
    s.setPp { q with busy := q.busy.map fun b => if b.block = m.block then { b with list := b.list ++ [m] } else b }
  else if 256 ≤ (q.busy.filter fun b => !b.recalled).length ∨
      8 ≤ (q.busy.filter fun b => dirSet b.block == dirSet m.block).length then s.setPp { q with retry := q.retry ++ [m] }
  else s.setPp { q with busy := q.busy ++ [⟨m.block, 0, false, [m], false, m.ctx, m.proto, m.arg, 0⟩] }

/-- Sends a tag change for a binding and counts it against the block's busy entry. -/
def State.sendTag (s : State) (p : PpId) (agent block tag : Nat) (r : Region) : State :=
  let q := s.ppOf p
  let counted := (q.busyOf block).isSome
  let s := s.setPp { q with busy := q.busy.map fun b =>
    if b.block = block then { b with count := b.count + 1, any := true } else b }
  { s with net := s.net ++ [.tagChange p agent block tag counted r s.time] }

/-- Drops copies with counted tag changes, and defers the message until they are acknowledged. -/
def State.lowerThenRetry (s : State) (p : PpId) (m : PpMsg) (agents keep : List Nat) (exclusive : Bool) : State :=
  let s := s.holdBlock p m
  if ((s.ppOf p).busyOf m.block).isNone then s
  else (agents.foldl (fun s a => s.sendTag p a m.block 0 m.region) s).putEntry p m m.block (agentsEntry exclusive keep) false

/-- Forwards a request to the home, and defers the original on the proxy's own busy block. -/
def State.forwardHome (s : State) (p : PpId) (m : PpMsg) : State :=
  let s := (s.holdBlock p m).noteSector p m.block m.ctx
  if ((s.ppOf p).busyOf m.block).isNone then s
  else match s.forwardPp p m with
    | .none => s
    | .some hp => s.pushForward hp { m with agent := BitVec.ofNat 64 (agentOfRdc (p / 37)), proxy := isProxy hp, sender := .some p }

/-- An atomic on a block that the RDC holds writable: performed on the RDC's data, the old block going back. -/
def State.atomicAtRdc (s : State) (p : PpId) (m : PpMsg) (r : RdcBlock) : State :=
  match agentAt p (agentNo m.agent) with
  | .core c =>
    match ((s.coreOf c).request? (rtagOf m.agent)).bind fun q => s.accessOf c q with
    | .none => s
    | .some a =>
      let later := ((s.coreOf c).request? (rtagOf m.agent)).any (s.actsLater c)
      if later then { s with net := s.net ++ [.grant p m.agent m.block 0 true r.data 0] }
      else
      let old := blockBytes r.data (a.pa % 32) a.size
      let s := s.noteAccess c a 3 old
      let d := match a.newValue old with
        | .some v => patchBlock r.data (a.pa % 32) a.size v
        | .none => r.data
      { s with
        rdc := s.rdc.map fun q => if q.die = r.die ∧ q.block = r.block then { q with dirty := true, data := d } else q
        net := s.net ++ [.grant p m.agent m.block 0 true r.data 0] }
  | _ => s

/-- Type 8: every recorded L1 and the RDC are lowered before the home is answered. -/
def State.proxyTag (s : State) (p : PpId) (m : PpMsg) (copies : List Nat) : State :=
  let s := s.lowerThenRetry p m copies [] false
  if ((s.ppOf p).busyOf m.block).isNone then s else s.sendTag p (agentOfRdc (p / 37)) m.block 0 m.region

/-- Type 6: the home is answered for each type 8 that is pending, then the block is freed. The answer to a peer's home leaves the
package. -/
def State.proxyDone (s : State) (p : PpId) (m : PpMsg) : State :=
  let b := (s.ppOf p).busyOf m.block
  let pending := ((b.map (·.list)).getD []).filter fun k => k.type == 8
  let s := pending.foldl (fun (s : State) k => match agentAt p (agentNo k.agent) with
    | .pp hp => { s with net := s.net ++ [.tagAck hp (agentOfRdc (p / 37)) m.block (decide (16 ≤ k.payload.toNat)) .none s.time] }
    | _ => s) s
  let s := s.withPp p fun q => { q with busy := q.busy.map fun b =>
    if b.block = m.block then { b with list := b.list.filter fun k => k.type != 8 } else b }
  s.freeBlock p m.block true

/-- Type 7: the copies that the removed entry records are dropped; with none the block is free. -/
def State.recallCopies (s : State) (p : PpId) (m : PpMsg) (agents : List Nat) : State :=
  if agents = [] then s.freeBlock p m.block true
  else agents.foldl (fun s a => s.sendTag p a m.block 0 m.region) s

/-- The read of an L1 that the proxy's RDC covers: the copy is recorded, and of three sharers the oldest makes room. -/
def State.proxyRead (s : State) (p : PpId) (m : PpMsg) (me : Nat) (copies : List Nat) : State :=
  if (copies.contains me : Bool) then s.sendGrant p m.agent m.block 1 false 0 m.ctx
  else if 3 ≤ copies.length then s.lowerThenRetry p m (copies.take 1) (copies.drop 1) false
  else (s.putEntry p m m.block (agentsEntry false (copies ++ [me])) false).sendGrant p m.agent m.block 1 false 0 m.ctx

/-- The table of R307. A request-lane type that it does not list has no handler. -/
def State.proxyHandle (s : State) (p : PpId) (m : PpMsg) : State :=
  let me := agentNo m.agent
  let entry := (s.homeOf p m.block).entry
  let copies := entryAgents entry
  let others := copies.filter (· != me)
  let keep := if copies.contains me then [me] else []
  let rdc := (s.rdc.find? fun r => r.die == p / 37 && r.block == m.block).filter fun r => r.tag == 1 || r.tag == 2
  match m.type, rdc with
  | 0, .some _ =>
    if entryExclusive entry && others != [] then s.lowerThenRetry p m others [] false
    else s.proxyRead p m me copies
  | 1, .some r =>
    if r.tag ≠ 2 then s.forwardHome p m
    else if others ≠ [] then s.lowerThenRetry p m others keep false
    else (s.putEntry p m m.block (agentsEntry true [me]) false).sendGrant p m.agent m.block 2 false 0 m.ctx
  | 2, .some r =>
    if r.tag ≠ 2 then s.forwardHome p m
    else if copies ≠ [] then s.lowerThenRetry p m copies [] false
    else s.atomicAtRdc p m r
  | 0, .none | 1, .none | 2, .none => s.forwardHome p m
  | 3, _ => if copies.contains me then s.putEntry p m m.block (agentsEntry (entryExclusive entry) others) false else s
  | 6, _ => s.proxyDone p m
  | 7, _ => s.recallCopies p m (entryAgents m.removed)
  | 8, _ => s.proxyTag p m copies
  | 9, _ => s.freeBlock p m.block true
  | _, _ => if m.lane = 2 then s else s.refuseMsg p m 0xfe

/-- The caches that hold a block, as agents of its home PP. -/
def State.holdersOf (s : State) (p : PpId) (block : Nat) : List Nat :=
  (s.cores.filter fun c => coreDie c.id == p / 37 && (c.line? block).isSome).map (fun c => c.id % 2048) ++
  (s.rdc.filter fun r => r.block == block && r.die != p / 37).map fun r => agentOfRdc r.die

/-- The code of a refusal by a library protocol (R189 names none; log 12). -/
opaque Config.refusalCode : Nat → Nat

/-- Marks a block as used under a library protocol: it may have copies to be recalled. -/
def State.useBlock (s : State) (p : PpId) (m : PpMsg) : State :=
  s.putEntry p m m.block ((s.homeOf p m.block).entry ||| 1) false

/-- The access of a core behind a request, with the core: directly, or the one that waits at the proxy of an RDC. -/
def State.behind (s : State) (p : PpId) (m : PpMsg) : Option (CoreId × Nat) :=
  match agentAt p (agentNo m.agent) with
  | .core c => .some (c, rtagOf m.agent)
  | .rdc die =>
    let proxy := proxyPp die (p / 37)
    (((s.ppOf proxy).busyOf m.block).bind fun b => b.list.find? fun k => decide (k.type ≤ 2)).bind fun k =>
      match agentAt proxy (agentNo k.agent) with
      | .core c => .some (c, rtagOf k.agent)
      | _ => .none
  | _ => .none

/-- Under protocol 4 a block has been written: by which context, and at which virtual address where a core wrote (R189). -/
def State.markWritten (s : State) (p : PpId) (m : PpMsg) : State :=
  let va := ((s.behind p m).bind fun (c, t) => ((s.coreOf c).request? t).map (·.va)).getD (2 ^ 64)
  s.setHome { s.homeOf p m.block with written := .some (m.ctx, va) }

/-- An arithmetic or logic atomic. -/
def AccKind.combinable : AccKind → Bool
  | .amo op => decide (op < 8)
  | _ => false

/-- The access behind a request is one of the atomics that protocol 5 combines: an arithmetic or logic one with d = 0. In a gang, where
the request only asks for leave to act, the thread's own instruction tells. -/
def State.combines (s : State) (p : PpId) (m : PpMsg) : Bool :=
  (s.behind p m).any fun (c, t) =>
    let k := s.coreOf c
    (k.stores.any fun e => e.req == .some t && e.acc.kind.combinable) ||
    (k.atomics.any fun a => a.req == .some t && a.acc.kind.combinable && a.dest == .nowhere) ||
    ((k.request? t).bind (·.retry)).any fun a =>
      a.kind.combinable && (s.hartOf (.core c a.slot)).word.extractLsb' 8 5 == 0#5

/-- Library protocols 1 to 5 at the home, as R189 tells them apart (DESIGN CHOICE, log 12). Protocols 1, 3, 4 and 5 keep read-only copies and
perform writes at the home, in every copy; 2 keeps one copy, writable. -/
def State.libraryHandle (s : State) (p : PpId) (m : PpMsg) : State :=
  let written := (s.homeOf p m.block).written.isSome
  let grant := fun (s : State) (tag : Nat) (home : Bool) => s.sendGrant p m.agent m.block tag home 0 m.ctx
  let refuse := s.refuseMsg p m (Config.refusalCode m.proto % 256)
  match m.proto, m.type with
  | 2, 0 | 2, 1 | 2, 2 =>
    let others := (s.holdersOf p m.block).filter (· != agentNo m.agent)
    if others ≠ [] then s.lowerThenRetry p m others [] false
    else if m.type = 2 then grant s 0 true else grant (s.useBlock p m) 2 false
  | _, 0 => grant (s.useBlock p m) 1 false
  | 4, 1 | 4, 2 => if written then refuse else grant ((s.useBlock p m).markWritten p m) 0 true
  | 5, 1 => refuse
  | 5, 2 => if s.combines p m then grant s 0 true else refuse
  | _, 1 | _, 2 => grant s 0 true
  | _, 6 => s.freeBlock p m.block true
  | _, 7 => s.recallCopies p m (s.holdersOf p m.block)
  | _, _ => if m.lane = 2 then s else s.refuseMsg p m 0xfe

/-! ## Taking the next message (R278, R285, R301) -/

/-- A message whose binding has no handler for it: refused on the request lane, else discarded; a recall or a done frees its
block. -/
def State.noHandler (s : State) (p : PpId) (m : PpMsg) (lane : Nat) : State :=
  if lane ≠ 2 then s.refuseMsg p m 0xfe
  else if m.type = 6 ∨ m.type = 7 then s.freeBlock p m.block true
  else s

/-- Runs a message on a free thread. -/
def State.dispatch (s : State) (p : PpId) (tid : Nat) (m : PpMsg) : State :=
  let m := { m with proxy := isProxy p }
  let lane := m.lane
  if lane ≠ 2 ∧ m.type = 0 ∧ s.summary p m.block = 3 then s.sendGrant p m.agent m.block 1 false 0 m.ctx
  else if isLibrary m.proto && isProxy p then s.proxyHandle p m
  else if isLibrary m.proto && m.proto != 0 then s.libraryHandle p m
  else if (s.ppOf p).faulted m then (if lane ≠ 2 then s.refuseMsg p m 0xff else s)
  else match (s.ppOf p).entryFor m with
    | .none => s.noHandler p m lane
    | .some pc => startHandler s p tid m lane pc

/-- A dispatch is a grant of the PP's input arbiter (R346). -/
def State.countDispatch (s : State) (p : PpId) (m : PpMsg) : State :=
  s.withPp p fun q => { q with
    reserved := if q.grants % 16 = 15 then .some (((s.ctxOf? m.ctx).map (·.tenant)).getD 0) else q.reserved
    grants := q.grants + 1 }

/-- The thread is free to take a message, and 32 reply-buffer entries are free for it (R299). -/
def State.threadFree (s : State) (p : PpId) (tid : Nat) : Bool :=
  tid < 8 && (s.hartOf (.pp p tid)).life == .vacant && s.replyUse p + 32 ≤ 256

/-- A write-back of a core has been taken, and so is acknowledged: the messages of hints for its block that the core has held back go
on (R279). -/
def State.releaseHints (s : State) (p : PpId) (m : PpMsg) : State :=
  match (if m.type = 3 then agentAt p (agentNo m.agent) else .pp p) with
  | .core c =>
    let mine := fun (e : PpId × PpMsg) => e.1 == p && e.2.block == m.block
    if s.writeBackOpen c m.block m.region then s
    else ((s.coreOf c).hints.filter mine).foldl (fun s e => s.pushRequest e.1 e.2)
      (s.withCore c fun k => { k with hints := k.hints.filter fun e => !mine e })
  | _ => s

/-- A thread takes the next message when it is of a type that `ok` accepts. -/
def State.takeType (s : State) (p : PpId) (tid : Nat) (ok : Nat → Bool) : State :=
  let s := s.collect p
  if !s.threadFree p tid then s
  else match s.nextMessage p tid with
    | .none => s
    | .some (lane, i, m) =>
      if !ok m.type then s else (((s.countDispatch p m).withPp p fun q => q.takeMessage lane i).dispatch p tid m).releaseHints p m

def execHandlerRd (pp tid : Nat) (s : State) : Host.Outcome State Fault Refusal := .next (s.takeType pp tid (· == 0))
def execHandlerWr (pp tid : Nat) (s : State) : Host.Outcome State Fault Refusal := .next (s.takeType pp tid (· == 1))
def execHandlerAmo (pp tid : Nat) (s : State) : Host.Outcome State Fault Refusal := .next (s.takeType pp tid (· == 2))
def execHandlerWb (pp tid : Nat) (s : State) : Host.Outcome State Fault Refusal := .next (s.takeType pp tid (· == 3))
def execHandlerEvs (pp tid : Nat) (s : State) : Host.Outcome State Fault Refusal := .next (s.takeType pp tid (· == 4))
def execHandlerHint (pp tid : Nat) (s : State) : Host.Outcome State Fault Refusal := .next (s.takeType pp tid (· == 5))
def execHandlerRecall (pp tid : Nat) (s : State) : Host.Outcome State Fault Refusal := .next (s.takeType pp tid (· == 7))
def execHandlerProxyTag (pp tid : Nat) (s : State) : Host.Outcome State Fault Refusal := .next (s.takeType pp tid (· == 8))
def execHandlerGrant (pp tid : Nat) (s : State) : Host.Outcome State Fault Refusal := .next (s.takeType pp tid (· == 9))
def execHandlerBlkdone (pp tid : Nat) (s : State) : Host.Outcome State Fault Refusal := .next (s.takeType pp tid (· == 10))
def execHandlerProtocolMsg (pp tid : Nat) (s : State) : Host.Outcome State Fault Refusal :=
  .next (s.takeType pp tid (fun t => decide (16 ≤ t)))

/-- HANDLER_DONE: type 6 is dispatched for a busy block whose count has returned to 0 after a counted `htag`, and for which
no handler runs (R292). It has no requester: x4 is 0, as for type 7, and type 10 has the PP's own agent (DESIGN CHOICE, log 12). -/
def State.handlerDone (s : State) (p : PpId) (tid : Nat) : State :=
  let s := s.collect p
  if !s.threadFree p tid then s
  else match (s.ppOf p).busy.find? fun b => b.any && b.count == 0 && !s.handlerRuns p b.block with
    | .none => s
    | .some b =>
      let s := s.withPp p fun q =>
        { q with busy := q.busy.map fun k => if k.block = b.block then { k with any := false, acks := 0 } else k }
      s.dispatch p tid { plainMsg 6 b.block 0 { plainRegion b.ctx b.block with proto := b.proto, arg := b.arg } with
        reply := true, payload := BitVec.ofNat 64 b.acks }

def execHandlerDone (pp tid : Nat) (s : State) : Host.Outcome State Fault Refusal := .next (s.handlerDone pp tid)

/-- REQUEST_DEFERRED: a request-lane message for a busy block joins its busy list (R278, R285). -/
def State.deferRequest (s : State) (p : PpId) : State :=
  let q := s.ppOf p
  let busy := fun (m : PpMsg) => (q.busyOf m.block).isSome && !m.reply && s.deferRoom p && !q.behindReplay m
  match q.fwdQueue.findIdx? busy with
  | .some i =>
    match q.fwdQueue[i]? with
    | .some m => (s.setPp (q.takeMessage 1 i)).holdBlock p m
    | .none => s
  | .none =>
    match q.reqQueue.findIdx? busy with
    | .none => s
    | .some i =>
      match q.reqQueue[i]? with
      | .some m => (s.setPp (q.takeMessage 0 i)).holdBlock p m
      | .none => s

def execRequestDeferred (pp : Nat) (s : State) : Host.Outcome State Fault Refusal := .next (s.deferRequest pp)

/-! ## Shared shapes of the handler instructions (R288) -/

def noHandlerCtx : HandlerCtx := ⟨plainMsg 0 0 0 (plainRegion 0 0), 0, 0, false, false, false, false, 0⟩

def Hart.ctxOfHandler (h : Hart) : HandlerCtx := h.handler.getD noHandlerCtx

def Hart.setHandler (h : Hart) (f : HandlerCtx → HandlerCtx) : Hart := { h with handler := h.handler.map f }

/-- The block that a block operand names, if the binding may name it (R282). -/
def State.blockOperand (s : State) (v : Word) : Except Exc Nat :=
  if handlerPa s.handlerMsg v.toNat then .ok (blockOf v.toNat) else .error (.handler 3)

/-- Moves the handler past its instruction. -/
def State.step4 (s : State) : State := { s with cur := s.cur.advance 4 }

/-- Writes a result and moves on. -/
def State.result4 (s : State) (d : Reg) (v : Nat) : State :=
  { s with cur := (s.cur.setX d (BitVec.ofNat 64 v)).advance 4 }

/-- One more reply-buffer entry; a thirty-third is a breach (R299). -/
def State.useReply (s : State) : Except Exc State :=
  if 32 ≤ s.cur.ctxOfHandler.replies then .error (.handler 4)
  else .ok { s with cur := s.cur.setHandler fun k => { k with replies := k.replies + 1 } }

/-! ## Primary 0x68 -/

/-- `htag` (R289). -/
def execHtag (a b : Reg) (tag : BitVec 2) (s : State) : Host.Outcome State Fault Refusal :=
  s.issue .handler fun s => do
    let x ← s.cur.getX a
    let y ← s.cur.getX b
    let block ← s.blockOperand x
    if 3 ≤ agentNo y / 2 ^ 14 then .error (.handler 3)
    let s ← s.useReply
    let p := s.curPp
    let counted := ((s.ppOf p).busyOf block).isSome
    let s := { s with cur := s.cur.setHandler fun k => { k with counted := k.counted || counted } }
    .ok (s.sendTag p (agentNo y) block tag.toNat s.handlerMsg.region).step4

/-- `htagrd` (R290). -/
def execHtagrd (d a : Reg) (s : State) : Host.Outcome State Fault Refusal :=
  s.issue .handler fun s => do
    s.cur.needX d
    let x ← s.cur.getX a
    let block := blockOf x.toNat
    let p := s.curPp
    .ok (s.result4 d (s.summary p block + (if (s.homeOf p block).entry ≠ 0 then 4 else 0)))

/-- `hdirrd` (R290). -/
def execHdirrd (d a : Reg) (s : State) : Host.Outcome State Fault Refusal :=
  s.issue .handler fun s => do
    s.cur.needX d
    let x ← s.cur.getX a
    let block ← s.blockOperand x
    .ok (s.result4 d (s.homeOf s.curPp block).entry.toNat)

/-- `hdirwr` and `hdirwr.o` (R291). -/
def execHdirwr (d a b : Reg) (o : Bool) (s : State) : Host.Outcome State Fault Refusal :=
  s.issue .handler fun s => do
    s.cur.needX d
    let x ← s.cur.getX a
    let y ← s.cur.getX b
    if o && y != 0 then .error (.handler 2)
    let block ← s.blockOperand x
    let p := s.curPp
    let fits := y = 0 ∨ (s.homeOf p block).entry ≠ 0 ∨ (s.dirSetOf p block).length < 16
    if !fits && s.entryWaits p block then .error (.wait .again)
    else .ok ((s.putEntry p s.handlerMsg block y o).result4 d (if fits then 0 else 1))

/-- `hbusy` (R292). -/
def execHbusy (d a : Reg) (s : State) : Host.Outcome State Fault Refusal :=
  s.issue .handler fun s => do
    s.cur.needX d
    let x ← s.cur.getX a
    let block ← s.blockOperand x
    let p := s.curPp
    let q := s.ppOf p
    let m := s.handlerMsg
    if (q.busyOf block).isSome then .ok (s.result4 d 2)
    else if 256 ≤ (q.busy.filter fun b => !b.recalled).length ∨
        8 ≤ (q.busy.filter fun b => dirSet b.block == dirSet block).length then .ok (s.result4 d 1)
    else
      let s := s.setPp { q with busy := q.busy ++ [⟨block, 0, false, [], false, m.ctx, m.proto, m.arg, 0⟩] }
      let s := { s with cur := s.cur.setHandler fun k => { k with ownBusy := true, counted := false, freed := false } }
      .ok (s.result4 d 0)

/-- `hfree` (R292). -/
def execHfree (a : Reg) (s : State) : Host.Outcome State Fault Refusal :=
  s.issue .handler fun s => do
    let x ← s.cur.getX a
    let block ← s.blockOperand x
    let s := { s with cur := s.cur.setHandler fun k => { k with freed := true } }
    .ok (s.freeBlock s.curPp block true).step4

/-! ## Primary 0x69 -/

/-- `hsend.req` (R293, R298). A message to a peer's home leaves the package. A proxy holds a request back while a write-back of the RDC
for the block is unacknowledged (R279). -/
def execHsendReq (a b : Reg) (pp : Bool) (s : State) : Host.Outcome State Fault Refusal :=
  s.issue .handler fun s => do
    let x ← s.cur.getX a
    let (w, payload) ← s.cur.getPair b
    let k := s.cur.ctxOfHandler
    if k.lane ≠ 0 ∨ k.sentReq then .error (.handler 4)
    let type := w.toNat
    if !(type ≤ 2 || (16 ≤ type && type ≤ 63)) then .error (.handler 2)
    let p := s.curPp
    let home : Option PpId := if isRemote s.pkg x.toNat then .none else .some (homePp x.toNat)
    let dest ← if !pp then .ok home else match agentAt p (agentNo x) with
      | .pp q => .ok (.some q)
      | _ => .error (.handler 3)
    let block := if pp then k.msg.block else blockOf x.toNat
    if dest.any fun q => decide (64 ≤ (s.ppOf q).fwdQueue.length) || (k.msg.proxy && decide (type ≤ 2) && s.rdcWriteBack (p / 37) q block) then
      .error (.wait .again)
    let agent := if k.msg.proxy ∧ type ≤ 2 then agentOfRdc (p / 37) else agentOfPp p
    let s := { s with cur := s.cur.setHandler fun k => { k with sentReq := true } }
    let m : PpMsg := { k.msg with type := type, reply := false, block := block, agent := BitVec.ofNat 64 agent
                                  payload := payload, removed := 0, sender := .some p }
    .ok (dest.elim s fun q => s.pushForward q m).step4

/-- Fields of the reply word of R294. -/
def replyType (w : Word) : Nat := field w 8 6
def replyTag (w : Word) : Nat := field w 0 2
def replyReserved (w : Word) : Bool := field w 14 50 != 0 || field w 4 4 != 0

/-- `hsend.rep` (R294). -/
def execHsendRep (a b : Reg) (s : State) : Host.Outcome State Fault Refusal :=
  s.issue .handler fun s => do
    let x ← s.cur.getX a
    let (w, payload) ← s.cur.getPair b
    let t := replyType w
    if replyReserved w || (1 ≤ t && t ≤ 15) || replyTag w == 3 then .error (.handler 2)
    let p := s.curPp
    let m := s.handlerMsg
    let dest := agentAt p (agentNo x)
    match dest with
    | .pp _ => if t < 16 then .error (.handler 3)
    | _ => if 16 ≤ t then .error (.handler 3)
    let s ← s.useReply
    match dest with
    | .pp q =>
      .ok (s.pushReply (Agent.pp p).code q { m with type := t, agent := BitVec.ofNat 64 (agentOfPp p), payload := payload
                                                    removed := 0, sender := .none, ack := w.getLsbD 3 }).step4
    | _ =>
      if replyTag w ≠ 0 ∨ w.getLsbD 2 then .ok (s.sendGrant p x m.block (replyTag w) (w.getLsbD 2) payload m.ctx).step4
      else .ok ({ s with net := s.net ++ [.release p x m.block] } : State).step4

/-- Whether an operand of `hblk` may be used, and where it leads. -/
def State.moveEnd (s : State) (v : Word) (n : Nat) : Except Exc (Bool × Nat) := do
  if v.toNat % 32 ≠ 0 then .error (.handler 3)
  let q := s.ppOf s.curPp
  let first ← handlerAddress q s.handlerMsg v.toNat 1
  let _ ← handlerAddress q s.handlerMsg (v.toNat + (n - 1)) 1
  .ok first

/-- `hblk` (R295). -/
def execHblk (d a b : Reg) (s : State) : Host.Outcome State Fault Refusal :=
  s.issue .handler fun s => do
    s.cur.needX d
    if a.getLsbD 0 then .error (.handler 2)
    let (dst, src) ← s.cur.getPair a
    let n ← s.cur.getX b
    if n.toNat % 32 ≠ 0 ∨ 65536 < n.toNat then .error (.handler 2)
    let (dl, da) ← s.moveEnd dst n.toNat
    let (sl, sa) ← s.moveEnd src n.toNat
    let p := s.ppOf s.curPp
    let m := s.handlerMsg
    if p.move.isSome then .ok (s.result4 d 1)
    else .ok ((s.setPp { p with move := .some ⟨sa, da, sl, dl, n.toNat, n.toNat, m.block, m.ctx, m.proto, m.arg⟩ }).result4 d 0)

/-- Copies bytes between data memory and physical memory, a block at a time. Poisoned data is not moved: what it would have gone to in
physical memory is poisoned in its place (R386; DEDUCED, log 40). -/
def State.moveBlock (s : State) (p : PpId) (m : BlockMove) : State :=
  let q := s.ppOf p
  let blocks := fun (a : Nat) => (List.range (m.total / 32)).map fun i => a + 32 * i
  if !m.srcLocal && (blocks m.src).any s.poisoned then
    if m.dstLocal then s else { s with poison := (s.poison ++ blocks m.dst).eraseDups }
  else
  let v := if m.srcLocal then readBytes q.dmem m.src m.total else readBytes s.mem m.src m.total
  if m.dstLocal then s.setPp { q with dmem := writeBytes q.dmem m.dst m.total v }
  else s.homeWrite m.dst m.total v

/-- HBLK_COMPLETE: the transfer has ended, and type 10 is sent with its length. -/
def State.hblkComplete (s : State) (p : PpId) : State :=
  match (s.ppOf p).move with
  | .none => s
  | .some m =>
    let s := (s.moveBlock p m).withPp p fun q => { q with move := .none }
    let r : Region := { plainRegion m.ctx m.block with proto := m.proto, arg := m.arg }
    s.withPp p fun q => { q with repQueue := enterQueue q.repQueue (s.arrived p
      { plainMsg 10 m.block (BitVec.ofNat 64 (agentOfPp p)) r with payload := BitVec.ofNat 64 m.total, reply := true }) }

def execHblkComplete (pp : Nat) (s : State) : Host.Outcome State Fault Refusal := .next (s.hblkComplete pp)

/-- `hresume` (R296). -/
def execHresume (a : Reg) (s : State) : Host.Outcome State Fault Refusal :=
  s.issue .handler fun s => do
    let x ← s.cur.getX a
    .ok ({ s with net := s.net ++ [.resume s.curPp x s.handlerMsg.block] } : State).step4

/-! ## Primary 0x6A (R297) -/

/-- The handler's end is refused when its own busy block would stay so for ever. -/
def Hart.endAllowed (h : Hart) : Except Exc Unit :=
  let k := h.ctxOfHandler
  if k.ownBusy && !k.counted && !k.freed then .error (.handler 5) else .ok ()

/-- Ends the handler: the thread is free. -/
def State.endHandler (s : State) : State :=
  { s with cur := { s.cur.settle with life := .vacant, handler := .none } }

def execHend (s : State) : Host.Outcome State Fault Refusal :=
  s.issue .handler fun s => do
    s.cur.endAllowed
    .ok s.endHandler

def execHdefer (s : State) : Host.Outcome State Fault Refusal :=
  s.issue .handler fun s => do
    s.cur.endAllowed
    let p := s.curPp
    let m := s.handlerMsg
    let s := s.endHandler
    if ((s.ppOf p).busyOf m.block).isSome then .ok (s.holdBlock p m)
    else .ok (s.withPp p fun q => { q with retry := q.retry ++ [m] })

def execHfault (a : Reg) (s : State) : Host.Outcome State Fault Refusal :=
  s.issue .handler fun s => do
    let x ← s.cur.getX a
    .ok (s.endHandler.refuseMsg s.curPp s.handlerMsg (x.toNat % 256))

/-! ## The watchdog (R301) -/

/-- HANDLER_WATCHDOG: a handler that has executed 256 steps and goes on is ended. -/
def State.watchdog (s : State) (p : PpId) (tid : Nat) : State :=
  let h := s.hartOf (.pp p tid)
  if h.life = .live ∧ 256 ≤ h.ctxOfHandler.steps then (s.focus (.pp p tid)).handlerFault 1 else s

def execHandlerWatchdog (pp tid : Nat) (s : State) : Host.Outcome State Fault Refusal := .next (s.watchdog pp tid)

end Sys2Proof.Machine
end

