-- ==== Sys2Proof/Machine/System.lean ====
section
/-! DEFINITION. System instructions and traps: primaries 0x70 and 0x71, event interrupts and stops (R276, R310 to R321). -/

namespace Sys2Proof.Machine

open Sys2Proof

/-! ## Primary 0x70 (R316) -/

def execTrap (imm : BitVec 11) (s : State) : Host.Outcome State Fault Refusal :=
  s.issue .coreOnly fun s =>
    let t : Trap := { cause := .softwareTrap, tval := imm.setWidth 64 }
    if imm = 2047#11 ∧ !s.cur.user then .ok { s with cur := s.cur.fatalTrap t } else .error (.trap t)

/-- What the firmware answers to a service that is not one of R379: by its number, x3 to x6 and the use; nothing when it does
not serve it (log 13). -/
opaque Config.service : Nat → Word → Word → Word → Word → Nat → Option Word

/-- The services that R379 gives are completed by their own events. -/
def observation (imm : BitVec 11) : Bool := 256 ≤ imm.toNat && imm.toNat ≤ 259

def execSysc (imm : BitVec 11) (s : State) : Host.Outcome State Fault Refusal :=
  s.issue .coreOnly fun s => do
    if s.cur.user then .error (.trap { cause := .systemCall, tval := imm.setWidth 64 })
    let a ← s.cur.getX 3
    let b ← s.cur.getX 4
    let c ← s.cur.getX 5
    let d ← s.cur.getX 6
    if observation imm then .ok (s.waitFor (.service imm.toNat))
    else
      let r := (Config.service imm.toNat a b c d s.turn).getD (BitVec.allOnes 64)
      .ok { s with turn := s.turn + 1, cur := (s.cur.setX 3 r).advance 4 }

/-- The core follows the stream of a gang's leader (R17). -/
def Core.follower (c : Core) : Bool := c.gang.any fun g => g.leader != c.id

/-- `tret` (R317), with the recapture of a frame (R100), which in a gang is the leader's (R107). -/
def execTret (s : State) : Host.Outcome State Fault Refusal :=
  s.issue .coreOnly fun s => do
    s.cur.needS
    let h := s.cur.returnTrap
    if !h.rf || (s.coreOf s.cur.who.core').follower then .ok { s with cur := h }
    else
      let s' : State := { s with cur := { h with walkFault := s.cur.walkFault } }
      match s'.capture (h.pc - BitVec.ofNat 64 (2 * h.bofs)) 0 .none 16 with
      | .error (.fetch (.trap t)) => .ok (s'.trap t)
      | .error (.fetch e) => .error e
      | .error (.check pc t) => .ok (({ s' with cur := { s'.cur with pc := pc } } : State).trap t)
      | .ok (body, _) => .ok { s with cur := { h with frame := body } }

def execWfe (s : State) : Host.Outcome State Fault Refusal :=
  s.issue .coreOnly fun s =>
    if (s.coreOf s.cur.who.core').queues[3].isEmpty then .error (.wait .event)
    else .ok { s with cur := s.cur.advance 4 }

/-- A debugger is attached to the thread: a command named it, or a breakpoint is enabled for its slot (R378). -/
def State.attached (s : State) (c : CoreId) (slot : Nat) : Bool :=
  (s.hartOf (.core c slot)).debugger || (s.coreOf c).breaks.toList.any fun b => b.enabled && b.slots.getLsbD slot

/-- Waits in which the instruction has had no effect and is executed again after a stop. -/
def Wait.restarts : Wait → Bool
  | .none | .again | .full | .room _ | .scalar _ | .vector _ | .queue _ _ | .walk _ _ | .event | .join _ _ | .put | .drain | .sync _ _ _ _ | .lease _ | .mrelease _ _ _ => true
  | _ => false

/-- A debug stop removes the thread precisely before its instruction; in a gang, from every member (R378, R107). It comes
after an instruction whose effect is under way. -/
def State.debugStop (s : State) (c : CoreId) (slot n : Nat) : State :=
  if (s.gangOf c).all fun m => (s.hartOf (.core m slot)).wait.restarts && (s.hartOf (.core m slot)).landed.isNone then
    ((s.gangOf c).foldl (fun s m =>
      if (s.hartOf (.core m slot)).life = .live then
        (s.withHart (.core m slot) Hart.stopDebug).trace 8 m slot (s.hartOf (.core m slot)).pc (BitVec.ofNat 64 n)
      else s) s).tryDissolve c
  else s

/-- A breakpoint trap, or with a debugger attached a debug stop before the `brk`. -/
def execBrk (imm : BitVec 11) (s : State) : Host.Outcome State Fault Refusal :=
  s.issue .coreOnly fun s =>
    let c := s.cur.who.core'
    if s.attached c s.cur.who.slot' then .ok (s.debugStop c s.cur.who.slot' 0)
    else .error (.trap { cause := .breakpoint, tval := imm.setWidth 64 })

/-! ## Event interrupts (R314) -/

/-- The thread may take an interrupt now: in the rotation, or waiting on an empty register. -/
def Hart.interruptible (h : Hart) : Bool :=
  h.life == .live && h.ie && !h.stopAsked && (match h.wait with
    | .none | .again | .full | .scalar _ | .vector _ => true
    | _ => false)

/-- The slot of a gang's member does not stand in the way of an interrupt: it is in no other wait, and has no part of its instruction
behind it (R104). -/
def Hart.lets (h : Hart) : Bool :=
  h.landed.isNone && (match h.wait with
    | .none | .again | .full | .scalar _ | .vector _ => true
    | _ => false)

/-- The slot that an event interrupt of a core goes to: the lowest that qualifies, in a gang in every member. -/
def State.interruptSlot (s : State) (c : CoreId) : Option Nat :=
  if (s.coreOf c).queues[3].isEmpty then .none
  else (List.range (s.coreOf c).threads).find? fun k => (s.hartOf (.core c k)).interruptible &&
    (s.gangOf c).all fun m => (s.hartOf (.core m k)).lets

/-- EVENT_INTERRUPT: that slot takes it; the entry of q3 stays. -/
def State.eventInterrupt (s : State) (c : CoreId) : State :=
  match s.interruptSlot c with
  | .none => s
  | .some k =>
    let code := ((s.coreOf c).queues[3].headD 0).toNat % 256
    let t : Trap := { cause := .eventInterrupt, tval := BitVec.ofNat 64 code, intr := true }
    s.gangTrap c k .none fun m => if m = c then .some t else .none

def execEventInterrupt (core : Nat) (s : State) : Host.Outcome State Fault Refusal := .next (s.eventInterrupt core)

/-! ## TLB maintenance (R318) -/

/-- Accesses of the context that may still use a translation of the region are outstanding: on the core path, at a sync or delivery
unit, or an access of a copy or of a matrix command that has been resolved and not performed. -/
def State.inFlight (s : State) (ctx : CtxNo) (hit : Nat → Bool) : Bool :=
  (s.cores.any fun k => (k.part.bind s.partOf?).any (fun p => p.ctx == ctx) &&
    ((k.loads.any fun l => l.elems.any fun (a, _) => hit a.va) || (k.stores.any fun e => hit e.acc.va) ||
     (k.atomics.any fun a => hit a.acc.va) || (k.requests.any fun q => hit q.va) || !k.units.isEmpty)) ||
  (s.posts.any fun q => (s.partOfCtx ctx).any fun p => p.owns (scratchCluster q.pa) (scratchHalf q.pa)) ||
  (s.copies.any fun k => k.ctx == ctx && k.req.isSome) ||
  s.arrays.any fun a => a.banks.toList.any fun b => b.queue.any fun c => c.ctx == ctx && !(c.reqs.isEmpty && c.ready.isEmpty)

/-- An address may have used a translation of the page of another, or of any. -/
def samePage (va : Option Nat) (v : Nat) : Bool := va.all fun a => v / 2 ^ 29 == a / 2 ^ 29

/-- Drops cached translations of the context, of a page or of all; the thread goes on once no access that may have used one is
outstanding. An address that is not canonical drops none, and there is nothing to wait for. -/
def invalidate (drop : TlbEntry → Bool) (va : Option Nat) (used : Bool) (s : State) : Except Exc State := do
  s.cur.needS
  let c := s.cur.who.core'
  if !s.quiet s.cur.who 6 then .error (.wait (.room (.quiet 6)))
  let ctx := s.ctxNoOf c
  let s := s.fullFence s.cur.who 6
  let s' : State := { s with tlb := s.tlb.filter fun e => !(e.ctx == ctx && drop e) }
  if used && s'.inFlight ctx (samePage va) then .ok (s'.waitFor (.room (.unused va)))
  else .ok { s' with cur := s'.cur.advance 4 }

def execTlbinv (a : Reg) (s : State) : Host.Outcome State Fault Refusal :=
  s.issue .coreOnly fun s => do
    s.cur.needS
    let x ← s.cur.getX a
    let va := x.toNat
    invalidate (fun e => canonical va && e.base ≤ va && va < e.base + e.size) (.some va) (canonical va) s

def execTlbinva (s : State) : Host.Outcome State Fault Refusal :=
  s.issue .coreOnly fun s => invalidate (fun _ => true) .none true s

/-! ## The region table (R275, R276) -/

/-- Reserved bits, size and alignment of an entry. -/
def rgnBad (w0 w1 : Word) : Bool :=
  field w0 55 9 != 0 || field w0 0 6 != 0 || field w1 32 32 != 0 || field w1 12 12 != 0 || field w1 4 4 != 0 ||
  (w1.getLsbD 8 && (regionLg w0 < 12 || 54 < regionLg w0 || (w0.toNat / 2 ^ 12 * 2 ^ 12) % 2 ^ 55 % 2 ^ regionLg w0 != 0))

def rgnBase (w0 : Word) : Nat := w0.toNat % 2 ^ 55 / 2 ^ 12 * 2 ^ 12

/-- The range overlaps the range of another valid entry. -/
def Ctx.rgnOverlaps (c : Ctx) (i : Nat) (w0 : Word) : Bool :=
  (List.range 64).any fun j =>
    let e := c.regions.getD j (0, 0)
    j != i && e.2.getLsbD 8 && overlaps (rgnBase w0) (2 ^ regionLg w0) (rgnBase e.1) (2 ^ regionLg e.1)

/-- The launch carries a handler set for a protocol: some PP has the binding. -/
def State.hasBinding (s : State) (ctx proto : Nat) : Bool :=
  isLibrary proto || s.pps.any fun p => p.bindings.any fun b => b.ctx == ctx && b.proto == proto

/-- The physical address of a region's base, when it is mapped. -/
def State.rgnPa (s : State) (c : Ctx) (w0 : Word) : Option Nat :=
  let va := rgnBase w0
  let va := if va.testBit 54 then va + (2 ^ 64 - 2 ^ 55) else va
  match walkTables (fun a => s.coherentRead a 8) c.root.toNat va with
  | .ok l => .some (localise s.pkg (l.pa va))
  | .error _ => .none

/-- The status of `rgnwr`; 0 when nothing stands against it. -/
def State.rgnStatus (s : State) (c : Ctx) (i : Nat) (w0 w1 : Word) : Nat :=
  let v := w1.getLsbD 8
  if 63 < i ∨ rgnBad w0 w1 then 1
  else if v && c.rgnOverlaps i w0 then 2
  else if v && (!s.hasBinding c.num (field w1 0 4) || (w1.getLsbD 11 && (s.rgnPa c w0).isNone)) then 3
  else 0

/-- The scan of a thread's `rgnwr`, if one is under way. -/
def State.scanOf (s : State) (w : Who) : Option RegionScan := s.scans.find? fun r => r.who == w

/-- The directory entries of a binding, by PP and block. -/
def State.boundEntries (s : State) (ctx proto : Nat) : List (PpId × Nat) :=
  (s.home.filter fun b => b.entry != 0 && b.ctx == ctx && b.proto == proto).map fun b => (b.pp, b.block)

/-- A PP can recall the entry of a block now: fewer than 16 recalls are pending there, and the block is not busy. -/
def State.canRecall (s : State) (e : PpId × Nat) : Bool :=
  decide (((s.ppOf e.1).busy.filter (·.recalled)).length < 16) && ((s.ppOf e.1).busyOf e.2).isNone

/-- The recall of a block is still pending. -/
def State.recallPending (s : State) (e : PpId × Nat) : Bool := ((s.ppOf e.1).busyOf e.2).any (·.recalled)

/-- The scan goes on through what it has found: what can be recalled now is, and entries that have gone since are passed by. -/
def State.scanOn (s : State) (ctx proto : Nat) : List (PpId × Nat) → State × List (PpId × Nat) × List (PpId × Nat)
  | [] => (s, [], [])
  | e :: rest =>
    let b := s.homeOf e.1 e.2
    if b.entry = 0 ∨ b.ctx ≠ ctx ∨ b.proto ≠ proto then s.scanOn ctx proto rest
    else if s.canRecall e then
      let (t, l, r) := (s.recallEntry b).scanOn ctx proto rest
      (t, l, e :: r)
    else
      let (t, l, r) := s.scanOn ctx proto rest
      (t, e :: l, r)

/-- One more part of the recalls of the executing thread's `rgnwr`, and whether they are all over (R276). -/
def State.recallBinding (s : State) (ctx proto : Nat) : State × Bool :=
  let w := s.cur.who
  let r := (s.scanOf w).getD ⟨w, s.boundEntries ctx proto, []⟩
  let (t, left, more) := s.scanOn ctx proto r.left
  let out := (r.recalled ++ more).filter t.recallPending
  let others := t.scans.filter fun q => q.who != w
  if left = [] ∧ out = [] then ({ t with scans := others }, true)
  else ({ t with scans := ⟨w, left, out⟩ :: others }, false)

/-- The written blocks of protocol 4 in the range of an entry, which is bound anew, have not been written since (R189). -/
def State.forgetWritten (s : State) (ctx : CtxNo) (e : Word × Word) : State :=
  { s with home := s.home.map fun b =>
      if b.written.any fun w => w.1 == ctx && regionCovers (e.1, e.2 ||| 256) w.2 then { b with written := .none } else b }

/-- Writes the entry, drops the translations it concerns, and clears a faulted mark of the binding (R301). -/
def State.writeRegion (s : State) (c : Ctx) (i : Nat) (w0 w1 : Word) : State :=
  let pa := if w1.getLsbD 11 then (s.rgnPa c w0).getD 0 else 0
  let s := s.withCtx c.num fun k =>
    { k with regions := k.regions.setIfInBounds i (w0, w1), regionPa := k.regionPa.setIfInBounds i pa }
  let old := c.regions.getD i (0, 0)
  let hit := fun (e : Word × Word) (t : TlbEntry) =>
    e.2.getLsbD 8 && overlaps (rgnBase e.1) (2 ^ regionLg e.1) (t.base % 2 ^ 55) t.size
  let proto := field w1 0 4
  let s := s.forgetWritten c.num (w0, w1)
  { s with
    tlb := s.tlb.filter fun t => !(t.ctx == c.num && (hit old t || hit (w0, w1) t))
    pps := s.pps.map fun p => { p with bindings := p.bindings.map fun b =>
      if b.ctx = c.num ∧ b.proto = proto ∧ w1.getLsbD 8 then { b with faulted := false } else b } }

/-- `rgnwr` (R276): the old binding is recalled first, while the thread waits. -/
def execRgnwr (d a b : Reg) (s : State) : Host.Outcome State Fault Refusal :=
  s.issue .coreOnly fun s => do
    s.cur.needS
    s.cur.needX d
    let x ← s.cur.getX a
    let (w0, w1) ← s.cur.getPair b
    match s.ctxOfCore s.cur.who.core' with
    | .none => .ok (s.result4 d 1)
    | .some c =>
      let st := s.rgnStatus c x.toNat w0 w1
      if st ≠ 0 then .ok (s.result4 d st)
      else
        let old := c.regions.getD x.toNat (0, 0)
        let proto := field old.2 0 4
        let (t, over') := if old.2.getLsbD 8 then s.recallBinding c.num proto else (s, true)
        if over' then .ok ((t.writeRegion c x.toNat w0 w1).result4 d 0) else .ok (t.waitFor (.room .recall))

/-! ## Stops (R319 to R321) -/

/-- A core's stop record; the originating thread's trap stands in it, or cause 0 for an uncorrected error (R386). -/
def State.stopRecord (s : State) (c : CoreId) (origin : Option Nat) : StopRecord :=
  let k := s.coreOf c
  let base : StopRecord := ⟨BitVec.ofNat 64 s.time, BitVec.ofNat 64 k.sentWords, BitVec.ofNat 64 k.recvWords, 0, 0, 0⟩
  match origin with
  | .none => base
  | .some slot =>
    let h := s.hartOf (.core c slot)
    let mark := BitVec.ofNat 64 (2 ^ 31 + slot)
    if h.wait = .fatal true then { base with slot := mark }
    else { base with pc := h.sys.tepc, cause := h.sys.tcause, slot := mark }

/-- A stop record also goes to the operator, as class 12 of the policy allows, and yields a fault record with its cause and pc
(R381; DEDUCED, log 51). -/
def State.noteStop (s : State) (c : CoreId) (r : StopRecord) : State :=
  ({ s with oper := { s.oper with stops := s.oper.stops ++ [(s.ctxNoOf c, r)] } } : State).noteFault (s.ctxNoOf c) r.cause.toNat r.pc

/-- Every slot of a core stops, and the core keeps its first record. -/
def State.stopCore (s : State) (c : CoreId) (origin : Option Nat) : State :=
  let r := s.stopRecord c origin
  let s := if (s.coreOf c).stop.isSome then s else (s.withCore c fun k => { k with stop := .some r }).noteStop c r
  (List.range (s.coreOf c).threads).foldl (fun s k => s.withHart (.core c k) fun h => { h with life := .stopped }) s

/-- The time of a gang switch of the core's partition has passed: the root sees a stop after it (R324). -/
def State.switchedBefore (s : State) (c : CoreId) : Bool :=
  ((s.ctxOfCore c).bind (·.plan)).any fun q => q.time < s.time

/-- FATAL_STOP: the stop scope of the launch decides which threads stop. At partition scope the stopping core sends the stop
to the halt tree; one that comes after an agreed switch is taken once the partition is back (R324; DEDUCED, log 51). -/
def State.fatalStop (s : State) (c : CoreId) (slot : Nat) : State :=
  let h := s.hartOf (.core c slot)
  if h.life ≠ .live ∨ (h.wait ≠ .fatal false ∧ h.wait ≠ .fatal true) then s
  else
    let scope := ((s.partOfCore c).map (·.stopScope)).getD 0
    match scope with
    | 0 =>
      let r := s.stopRecord c (.some slot)
      let s := (s.withCore c fun k => { k with stop := .some r }).noteStop c r
      s.withHart (.core c slot) fun h => { h with life := .stopped }
    | 1 => s.stopCore c (.some slot)
    | 2 => (s.gangOf c).foldl (fun s m => s.stopCore m (if m = c then .some slot else .none)) s
    | _ =>
      if s.switchedBefore c then s
      else
      let s := s.stopCore c (.some slot)
      match (s.coreOf c).part with
      | .none => s
      | .some p => s.withPart p fun q => { q with state := .halting }

def execFatalStop (core slot : Nat) (s : State) : Host.Outcome State Fault Refusal := .next (s.fatalStop core slot)

end Sys2Proof.Machine
end

