-- ==== Sys2Proof/Machine/Power.lean ====
section
/-! DEFINITION. Clock ratios and the power arbiter, the domains that count, refresh, temperatures and trips (R2, R3, R347, R348,
R417 to R420). -/

namespace Sys2Proof.Machine

open Sys2Proof

/-! ## Clock values (R347) -/

/-- n of the domains M, V, N and D, in that order. -/
abbrev Clk := Vector Nat 4

/-- The nominal values (R2). -/
def nominal : Clk := #v[16, 20, 24, 16]

/-- The fields of `clkreq` or `clkgrant`. -/
def clkOf (w : Word) : Clk := #v[field w 0 8, field w 8 8, field w 16 8, field w 24 8]

def clkBits (g : Clk) : Nat := g[0] % 256 + g[1] % 256 * 2 ^ 8 + g[2] % 256 * 2 ^ 16 + g[3] % 256 * 2 ^ 24

/-- A requested n as it is stored: 0 keeps the present one, others are brought into 8 to 32. -/
def clampClk (old new : Nat) : Nat := if new = 0 then old else if new < 8 then 8 else if 32 < new then 32 else new

/-- `clkreq` after a write. -/
def storeClkreq (old new : Word) : Word :=
  BitVec.ofNat 64 (clkBits (Vector.ofFn fun i => clampClk (clkOf old)[i] (clkOf new)[i]))

/-! ## The decision of the power arbiter (R348) -/

/-- Every n of a domain up to a value. -/
def upTo (n : Nat) : List Nat := List.range (n + 1)

/-- What the power table predicts of a partition's resources: monotone in every n, whatever the table's entries are (R348). -/
def Partition.draw (p : Partition) (temps : Vector Nat 4) (clk : Clk) : Nat :=
  let at' := fun (k : Clk) => Config.draw (p.groups.map fun g => (g.die, g.cluster, g.half)) p.gw p.gh k temps
  ((upTo clk[0]).flatMap fun m => (upTo clk[1]).flatMap fun v => (upTo clk[2]).flatMap fun n => (upTo clk[3]).map fun d =>
    at' #v[m, v, n, d]).foldl max 0

/-- Two partitions share the domain: M and V of a cluster, N and D of a die. -/
def sharesDomain (p q : Partition) (i : Nat) : Bool :=
  p.groups.any fun g => q.groups.any fun k => g.die == k.die &&
    (2 ≤ i || (groupClusters g p.gw p.gh).any fun cl => (groupClusters k q.gw q.gh).contains cl)

/-- The partitions of a list that share a domain with those got so far, also through others. A partition has one n for each domain,
on all of its dies (R347; DESIGN CHOICE, log 38). -/
def sharing (i : Nat) (ps : List Partition) : Nat → List Partition → List Partition
  | 0, got => got
  | n + 1, got =>
    sharing i ps n (got ++ ps.filter fun q => !(got.any fun g => g.id == q.id) && got.any fun g => sharesDomain g q i)

/-- A partition's domain runs with that of another. -/
def runsWith (l : List (Partition × Clk)) (p q : Partition) (i : Nat) : Bool :=
  (sharing i (l.map (·.1)) l.length [p]).any fun k => k.id == q.id

/-- The value at which earlier decisions fix a domain, or the request when it is larger. -/
def fixedAt (earlier : List (Partition × Clk)) (p : Partition) (i : Fin 4) (req : Nat) : Option Nat :=
  match earlier.filter fun e => runsWith earlier p e.1 i with
  | [] => .none
  | es => .some (es.foldl (fun n e => max n e.2[i]) req)

def choices (fixed : Option Nat) (req : Nat) : List Nat :=
  match fixed with
  | .some v => [v]
  | .none => (List.range (req - 7)).map (8 + ·)

/-- The distance of a candidate from the request, as a ratio: 2 to the sum of |log2(requested / candidate)|. -/
def clkDistance (req g : Clk) : Nat × Nat :=
  ((List.finRange 4).foldl (fun n i => n * max req[i] g[i]) 1, (List.finRange 4).foldl (fun n i => n * min req[i] g[i]) 1)

/-- Larger n in M, then V, then N, then D. -/
def clkLarger (a b : Clk) : Bool :=
  match (List.finRange 4).find? fun i => a[i] != b[i] with
  | .some i => b[i] < a[i]
  | .none => false

/-- The first candidate is to be granted before the second. -/
def clkBetter (req a b : Clk) : Bool :=
  let x := clkDistance req a
  let y := clkDistance req b
  x.1 * y.2 < y.1 * x.2 || (x.1 * y.2 == y.1 * x.2 && clkLarger a b)

/-- Step 4: the nearest candidate that fits the share. -/
def nearestFit (fits : Clk → Bool) (req : Clk) (fixed : Fin 4 → Option Nat) : Option Clk :=
  let cs := (choices (fixed 0) req[0]).flatMap fun m => (choices (fixed 1) req[1]).flatMap fun v =>
    (choices (fixed 2) req[2]).flatMap fun n => (choices (fixed 3) req[3]).map fun d => (#v[m, v, n, d] : Clk)
  (cs.filter fits).foldl (fun best c => match best with
    | .none => .some c
    | .some b => if clkBetter req c b then .some c else .some b) .none

/-- The predicted draw of the package. -/
def State.totalDraw (s : State) (l : List (Partition × Clk)) : Nat :=
  l.foldl (fun n e => n + e.1.draw s.plant.temps e.2) (Config.fixedDraw s.plant.temps)

/-- Step 5: lowers the shared domains of a partition's dies, N before D, until the package is within the cap. -/
def State.lowerShared (s : State) (p : Partition) : Nat → List (Partition × Clk) → List (Partition × Clk)
  | 0, l => l
  | fuel + 1, l =>
    let top := fun (i : Fin 4) => l.foldl (fun n e => if runsWith l p e.1 i then max n e.2[i] else n) 8
    let lower := fun (i : Fin 4) => l.map fun e =>
      if runsWith l p e.1 i then (e.1, e.2.set i (min e.2[i] (top i - 1))) else e
    if s.totalDraw l ≤ s.plant.cap then l
    else if 8 < top 2 then s.lowerShared p fuel (lower 2)
    else if 8 < top 3 then s.lowerShared p fuel (lower 3)
    else l

/-- The budget: the cap less the fixed draw, and less what hot stacks take from it (R419). -/
def State.budget (s : State) : Nat :=
  s.plant.cap - Config.fixedDraw s.plant.temps - s.plant.cut * s.plant.cap * 5 / 100

/-- The share of a partition in watts. -/
def State.share (s : State) (p : Partition) : Nat :=
  s.budget * p.weight / (s.parts.foldl (fun n q => n + q.weight) 0)

/-- A clock set joins those decided earlier: a shared domain runs at the largest value set for it. -/
def joinClocks (l : List (Partition × Clk)) (p : Partition) (k : Clk) : List (Partition × Clk) :=
  (l.map fun e => (e.1, Vector.ofFn fun i => if runsWith l p e.1 i then max e.2[i] k[i] else e.2[i])) ++ [(p, k)]

/-- Grants one partition its clock set, after those decided earlier. -/
def State.decideOne (s : State) (l : List (Partition × Clk)) (p : Partition) : List (Partition × Clk) :=
  let req := clkOf p.clkreq
  let fixed := fun (i : Fin 4) => fixedAt l p i req[i]
  match nearestFit (fun c => p.draw s.plant.temps c ≤ s.share p) req fixed with
  | .some c => joinClocks l p c
  | .none => s.lowerShared p 64 (joinClocks l p (Vector.ofFn fun i => (fixed i).getD 8))

/-- Descending power weight, ties in ascending context number. -/
def decidesBefore (p q : Partition) : Bool := q.weight < p.weight || (p.weight == q.weight && p.ctx ≤ q.ctx)

/-- Puts an element into its place of a sorted list. -/
def insertBy {α : Type} (le : α → α → Bool) (x : α) : List α → List α
  | [] => [x]
  | y :: l => if le x y then x :: y :: l else y :: insertBy le x l

def sortBy {α : Type} (le : α → α → Bool) (l : List α) : List α := l.foldr (insertBy le) []

def State.decideAll (s : State) : List (Partition × Clk) := (sortBy decidesBefore s.parts).foldl s.decideOne []

/-- `clkgrant` bits 55:0 of a decision. -/
def State.grantWord (s : State) (p : Partition) (c : Clk) (seq : Nat) : Word :=
  BitVec.ofNat 64 (clkBits c + s.share p % 2 ^ 16 * 2 ^ 32 + seq % 256 * 2 ^ 48)

/-- What a decision does to one partition: a changed grant is announced by event 1, and takes effect at the next boundary. -/
def State.announce (s : State) (p : Partition) (c : Clk) : State :=
  let w := s.grantWord p c (field p.clkgrant 48 8 + 1)
  if field w 0 48 = field p.clkgrant 0 48 then s.withPart p.id fun q => { q with nextGrant := .none }
  else if p.nextGrant = .some w then s
  else (s.withPart p.id fun q => { q with nextGrant := .some w }).postEvents p 1 (field w 0 56)

/-- POWER_DECISION. -/
def State.powerDecision (s : State) : State := s.decideAll.foldl (fun t e => t.announce e.1 e.2) s

def execPowerDecision (s : State) : Host.Outcome State Fault Refusal := .next s.powerDecision

/-- The n at which the domains of a partition run that is being placed: one that it shares runs on at its present value until the next boundary
(R347, R348; DESIGN CHOICE, log 38), one of its own at the value decided. -/
def State.startClocks (s : State) (p : Partition) (clk : Clk) : Clk :=
  Vector.ofFn fun i => match s.parts.filter fun q => q.id != p.id && sharesDomain p q i with
    | [] => clk[i]
    | qs => qs.foldl (fun n q => max n (clkOf q.clkgrant)[i]) 0

/-- At placement a partition's clocks start, and what the decision changes takes effect at the next boundary. -/
def State.placeClocks (s : State) (id : Nat) : State :=
  let all := s.decideAll
  let t := (all.filter fun e => e.1.id == id).foldl (fun t e => t.withPart id fun q =>
    { q with clkgrant := s.grantWord e.1 (s.startClocks e.1 e.2) 0, nextGrant := .none }) s
  all.foldl (fun t e => ((t.parts.find? fun q => q.id == e.1.id).map fun q => t.announce q e.2).getD t) t

/-- A `clkreq` write by a thread of the partition, a decision point. -/
def State.writeClkreq (s : State) (p : Partition) (v : Word) : State :=
  (s.withPart p.id fun q => { q with clkreq := storeClkreq q.clkreq v }).powerDecision

/-- The latest grants take effect. -/
def State.applyGrants (s : State) : State :=
  { s with parts := s.parts.map fun p => { p with clkgrant := p.nextGrant.getD p.clkgrant, nextGrant := .none } }

/-- CLOCK_BOUNDARY: at a multiple of 64,000 units of time. -/
def State.clockBoundary (s : State) : State :=
  if s.time / 64000 ≤ s.plant.boundary then s
  else
    let cut := if s.plant.reduced = 0 then 0 else s.plant.cut + 1
    ({ s.applyGrants with plant := { s.plant with boundary := s.time / 64000, cut := cut } } : State).powerDecision

def execClockBoundary (s : State) : Host.Outcome State Fault Refusal := .next s.clockBoundary

/-! ## The domains that count cycles (R2, R3) -/

/-- n of a die's domain: the largest that a resident partition sets, the nominal value with none. -/
def State.dieClock (s : State) (die : Nat) (i : Fin 4) : Nat :=
  match s.parts.filter fun p => p.groups.any fun g => g.die == die with
  | [] => nominal[i]
  | ps => ps.foldl (fun n p => max n (clkOf p.clkgrant)[i]) 0

/-- The partition's domains count cycles: it is neither loading nor on its way out. -/
def Partition.clocked (p : Partition) : Bool := p.state != .loading && p.state != .saving

/-- Cores of the partition issue. -/
def Partition.issues (p : Partition) : Bool := p.state == .running || p.state == .halting

/-- The times asked for or agreed for a switch of a context (R322). -/
def State.switchTimes (s : State) (n : CtxNo) : List Nat :=
  (((s.ctxOf? n).bind (·.plan)).map (·.time)).toList ++ (s.switches.filter fun q => q.ctx == n).map (·.time)

/-- The units of the next ones in which a partition's cores issue: none while it does not, and none from an agreed time on (R139). -/
def State.issuingTime (s : State) (p : Partition) (dt : Nat) : Nat :=
  if p.issues then (s.switchTimes p.ctx).foldl (fun d t => min d (t - s.time)) dt else 0

/-! ## Refresh, temperature and thermal trip (R419, R420) -/

/-- DRAM_REFRESH: a controller performs a refresh, a grant of no tenant; no data changes. -/
def State.refresh (s : State) (die ch : Nat) : State :=
  let key := die * 32 + ch
  let n := ((s.plant.refreshes.find? fun e => e.1 == key).map (·.2)).getD 0
  { s with plant := { s.plant with refreshes := (key, n + 1) :: s.plant.refreshes.filter fun e => e.1 != key } }

def execDramRefresh (die ch : Nat) (s : State) : Host.Outcome State Fault Refusal := .next (s.refresh die ch)

/-- A thermal trip: every clock stops and the supply is removed. The slots with their save counters, the record of images that the
host may have kept, the trip log and what the flash and the fuses hold stay. -/
def State.thermalTrip (s : State) (where' : Nat) (t : Int) : State :=
  { State.reset with
    ctxs := s.ctxs.map fun c => { num := c.num, tenant := c.tenant, key := c.key, save := c.save, digest := c.digest, policy := c.policy }
    time := s.time, agenda := s.agenda, turn := s.turn, saves := s.saves, images := s.images
    trust := { State.reset.trust with signatures := s.trust.signatures }
    plant := { State.reset.plant with
      trips := s.plant.trips ++ [(where', t)], unread := true, off := true, flash := s.plant.flash, fused := s.plant.fused
      unavailable := s.plant.unavailable } }

def setBit4 (b : BitVec 4) (i : Nat) (v : Bool) : BitVec 4 := if v then b ||| (1#4 <<< i) else b &&& ~~~(1#4 <<< i)

/-- STACK_TEMP_SAMPLE: the sensors of a stack, and the logic junction under it. The doubled refresh rate ends below 83 °C, the
reduction of the budget below 93 °C. -/
def State.tempSample (s : State) (die : Nat) (sensors : List Int) (logic : Int) : State :=
  let t := sensors.foldl max 0
  if 105 < t then s.thermalTrip (8 * die + sensors.findIdx (· == t)) t
  else if 110 < logic then s.thermalTrip (32 + die) logic
  else
    let p := s.plant
    { s with plant := { p with
      temps := p.temps.setIfInBounds die t.toNat
      hot := if 85 < t then setBit4 p.hot die true else if t < 83 then setBit4 p.hot die false else p.hot
      reduced := if 95 < t then setBit4 p.reduced die true else if t < 93 then setBit4 p.reduced die false else p.reduced } }

def execStackTempSample (die : Nat) (sensors : List Int) (logic : Int) (s : State) : Host.Outcome State Fault Refusal :=
  .next (s.tempSample die sensors logic)

/-- The alert output of the management connector (R423): a stack is above 95 °C, the power measured exceeds the cap, or the log of trips
has not been read since the latest one. -/
def State.alert (s : State) : Bool :=
  s.plant.temps.any (95 < ·) || decide (s.plant.cap < Config.meanPower s.turn) || s.plant.unread

end Sys2Proof.Machine
end

