-- ==== Sys2Proof/Machine/SysRegs.lean ====
section
/-! DEFINITION. System registers: their numbers, rights and fields, and the control-register instructions (R5, R9, R20, R48 to
R51, R92, R93, R99, R127, R136, R167, R178, R206, R211, R233, R255, R310, R312, R336, R347, R380). -/

namespace Sys2Proof.Machine

open Sys2Proof

/-! ## Rights (R51) -/

/-- Finds the register of an access and checks its rights: a refusal that a higher level would not meet is a privilege trap,
any other an illegal instruction. -/
def Hart.sysReg (h : Hart) (n : SysNo) (read write : Bool) : Except Exc SysReg :=
  let word := h.word.setWidth 64
  match SysReg.ofNumber n with
  | .none => .error (trapOf .illegalInstruction word)
  | .some r =>
    if write && !r.writable then .error (trapOf .illegalInstruction word)
    else if h.user && ((read && !r.userReads) || (write && !r.userWrites)) then .error (trapOf .privilege word)
    else .ok r

/-! ## Values -/

/-- `modk` for a modulus (R206): ⌊2^(2b) / q⌋ for an odd q between 2 and 2^62. -/
def barrett (q : Word) : Word :=
  let n := q.toNat
  if n % 2 = 1 ∧ 2 < n ∧ n < 2 ^ 62 then BitVec.ofNat 64 (2 ^ (2 * (n.log2 + 1)) / n) else 0

/-- The mode number of a thread count (R336). -/
def modeOf (threads : Nat) : Nat := if threads = 16 then 0 else if threads = 8 then 1 else if threads = 4 then 2 else 3

/-- Guest time (R380). -/
def State.guestTime (s : State) (c : Ctx) : Word :=
  let f := s.trust.vfs.find? fun v => .some v.num == c.vf
  let o := (f.map (·.offset)).getD 0
  let m := (f.map (·.scale)).getD 0
  let m := if m = 0 then 2 ^ 32 else m.toNat
  let h := if c.policy.st then 0 else c.stolen
  o + BitVec.ofNat 64 (m * (s.time - h) / 2 ^ 32)

/-- The vector registers of a mode that `temask.vk` covers (R49). -/
def vmaskOf (threads k : Nat) : Word := BitVec.ofNat 64 (2 ^ (min 32 (256 / threads - 32 * k)) - 1)

/-- What a system register of the executing thread reads as. -/
def State.readSys (s : State) (r : SysReg) : Word :=
  let h := s.cur
  let y := h.sys
  let c := h.who.core'
  let part := s.partOfCore c
  let bank := (s.arrayOf (clusterOf c)).bank (s.bankOf c)
  match r with
  | .status => y.status | .tcause => y.tcause | .tval => y.tval | .tepc => y.tepc
  | .pfx => y.pfx | .repst => y.repst | .fflags => y.fflags | .temaskX => y.temaskX
  | .temaskV k => y.temaskV[k] &&& vmaskOf (s.coreOf c).threads k
  | .tmode => BitVec.ofNat 64 (modeOf (s.coreOf c).threads)
  | .coreid => BitVec.ofNat 64 (c % 2 ^ 13 + s.pkg % 2 ^ 12 * 2 ^ 16)
  | .slot => BitVec.ofNat 64 h.who.slot'
  | .launchid => y.launchid
  | .lvl n => y.lvl[n]
  | .modq => y.modq | .modk => y.modk | .gbeps => y.gbeps | .gbmode => y.gbmode | .gbbeta => y.gbbeta
  | .mprog => bank.progress bank.shown
  | .mlease => bank.leaseWord
  | .netcap => 0xc02020
  | .clkreq => (part.map (·.clkreq)).getD 0
  | .clkgrant => (part.map (·.clkgrant)).getD 0
  | .time => BitVec.ofNat 64 s.time
  | .vtime => ((s.ctxOfCore c).map s.guestTime).getD 0
  | .errq => ((s.ctxOfCore c).map (·.errq)).getD 0
  | .barwRect => y.barwRect | .barwCnt => y.barwCnt | .barwTo => y.barwTo
  | .sendto => y.sendto

/-- `errq` as it is stored: lgn of 1 and of 13 to 15 becomes 0 (R167). -/
def errqStored (v : Word) : Word :=
  let n := field v 0 4
  let v := v &&& 0xfffffffffffff00f
  if n = 1 ∨ 13 ≤ n then v &&& ~~~0xf#64 else v

/-- A write to a system register that is the thread's own. -/
def SysRegs.write (y : SysRegs) (threads : Nat) (r : SysReg) (v : Word) : SysRegs :=
  match r with
  | .status => { y with status := writeMasked 0xe18 y.status v }
  | .tcause => { y with tcause := writeMasked 0x7ff y.tcause v }
  | .tval => { y with tval := v }
  | .tepc => { y with tepc := v &&& ~~~1#64 }
  | .pfx => { y with pfx := writeMasked 0xffffffff y.pfx v }
  | .repst => { y with repst := writeMasked 0x3ffffffff8 y.repst v }
  | .fflags => { y with fflags := writeMasked 0x7f y.fflags v }
  | .temaskX => { y with temaskX := writeMasked 0xfffffffe y.temaskX v }
  | .temaskV k => { y with temaskV := y.temaskV.set k (writeMasked (vmaskOf threads k) y.temaskV[k] v) }
  | .modq => { y with modq := v, modk := barrett v }
  | .gbeps => { y with gbeps := writeMasked 0xffffffff y.gbeps v }
  | .gbmode => { y with gbmode := writeMasked 0x103ffffffff y.gbmode v }
  | .gbbeta => { y with gbbeta := writeMasked 0xffff y.gbbeta v }
  | .barwRect => { y with barwRect := writeMasked 0x1f3f1f3f y.barwRect v }
  | .barwCnt => { y with barwCnt := writeMasked 0xffff y.barwCnt v }
  | .barwTo => { y with barwTo := writeMasked 0xffffffff y.barwTo v }
  | .sendto => { y with sendto := writeMasked 0xffffffff y.sendto v }
  | _ => y

/-- A write to a system register by the executing thread: its own, or one that its partition shares. A write to `errq` does not make event
2 due again: it is posted once for each context (R168; DESIGN CHOICE, log 51). -/
def State.writeSys (s : State) (r : SysReg) (v : Word) : State :=
  let c := s.cur.who.core'
  let cl := clusterOf c
  let b := s.bankOf c
  match r with
  | .mprog => s.withBank cl b fun k => k.writeProgress v
  | .mlease => s.withBank cl b fun k => k.writeLease v
  | .clkreq =>
    match s.partOfCore c with
    | .none => s
    | .some p => s.writeClkreq p v
  | .errq =>
    match s.ctxOfCore c with
    | .none => s
    | .some x => s.withCtx x.num fun k => { k with errq := errqStored v }
  | _ => { s with cur := { s.cur with sys := s.cur.sys.write (s.coreOf c).threads r v } }

/-! ## The instructions (R92) -/

/-- `crs` and `crc`, as the instruction `i`: the old value goes to d, and `f` of it and x[a] to the register. -/
def sysModify (i : Instr) (f : Word → Word → Word) (d : Reg) (n : SysNo) (a : Reg) (s : State) : Host.Outcome State Fault Refusal :=
  s.issueLegal .coreOnly i fun s => do
    let r ← s.cur.sysReg n true true
    s.cur.needX d
    let x ← s.cur.getX a
    let old := s.readSys r
    let t := s.writeSys r (f old x)
    .ok { t with cur := (t.cur.setX d old).advance 4 }

/-- `crd`; a handler reads `time` only (R282). -/
def execCrd (d : Reg) (n : BitVec 11) (s : State) : Host.Outcome State Fault Refusal :=
  s.issueLegal .both (.crd d n) fun s => do
    if s.cur.who.isPp && SysReg.ofNumber n != .some .time then .error (.handler 2)
    let r ← s.cur.sysReg n true false
    s.cur.needX d
    .ok { s with cur := (s.cur.setX d (s.readSys r)).advance 4 }

def execCwr (n : BitVec 11) (a : Reg) (s : State) : Host.Outcome State Fault Refusal :=
  s.issueLegal .coreOnly (.cwr n a) fun s => do
    let r ← s.cur.sysReg n false true
    let x ← s.cur.getX a
    let t := s.writeSys r x
    .ok { t with cur := t.cur.advance 4 }

def execCrs (d : Reg) (n : BitVec 11) (a : Reg) (s : State) : Host.Outcome State Fault Refusal :=
  sysModify (.crs d n a) (fun old x => old ||| x) d n a s

def execCrc (d : Reg) (n : BitVec 11) (a : Reg) (s : State) : Host.Outcome State Fault Refusal :=
  sysModify (.crc d n a) (fun old x => old &&& ~~~x) d n a s

end Sys2Proof.Machine
end

