-- ==== Sys2Proof/Machine/Records.lean ====
section
/-! DEFINITION. Launch records, disclosure policies and Glitas images as bytes, and what makes each of them well formed (R57,
R58, R333 to R337, R371 to R373). -/

namespace Sys2Proof.Machine

open Sys2Proof

/-! ## Reading for an issuer -/

/-- How the device finds an issuer's byte: its physical address, with what the walk leaves behind; nothing when it faults. -/
abbrev Reader := State → Nat → Option (State × Nat)

/-- Through the checks of a core at its level. -/
def coreReader (c : CoreId) (user : Bool) : Reader := fun s va =>
  match s.checkWalk c user va 1 .read with
  | .ok (s, t) => .some (s, t.pa)
  | .error _ => .none

/-- On the host path, with the tables of a context (R339). -/
def hostReader (ctx : Ctx) : Reader := fun s va => s.hostPath ctx va .read

/-- A byte of physical memory for the device; that of a peer package is an input (log 9). -/
def State.deviceByte (s : State) (pa : Nat) : Byte :=
  if isRemote s.pkg pa then (Config.peerParcel s.turn pa).setWidth 8 else BitVec.ofNat 8 (s.coherentRead pa 1)

/-- `n` bytes of an issuer's memory. -/
def readVia (rd : Reader) : Nat → Nat → State → Option (State × List Byte)
  | 0, _, s => .some (s, [])
  | n + 1, va, s =>
    match rd s (va % 2 ^ 64) with
    | .none => .none
    | .some (t, pa) =>
      if t.poisoned pa then .none
      else match readVia rd n (va + 1) t with
        | .none => .none
        | .some (u, l) => .some (u, t.deviceByte pa :: l)

/-- The `n` bytes at an offset, lowest first, as a number. -/
def le (l : List Byte) (o n : Nat) : Nat := ((l.drop o).take n).foldr (fun b v => b.toNat + 256 * v) 0

def leWord (l : List Byte) (o : Nat) : Word := BitVec.ofNat 64 (le l o 8)

/-- A digest as it stands in memory, its first byte highest. -/
def digestAt (l : List Byte) (o : Nat) : Digest := BitVec.ofNat 256 (((l.drop o).take 32).foldl (fun n b => n * 256 + b.toNat) 0)

def allZero (l : List Byte) (o n : Nat) : Bool := le l o n == 0

/-! ## Launch records (R333, R334) -/

def levelAt (l : List Byte) (n : Nat) : LevelEntry :=
  let o := 256 + 16 * n
  ⟨le l o 1 == n, le l (o + 1) 1 == 1, le l (o + 4) 2, le l (o + 6) 2⟩

/-- The fields of a record. -/
def recordOf (l : List Byte) : LaunchRecord :=
  { tenant := le l 8 4, ctx := le l 12 4, prio := le l 16 1, pwt := le l 17 1, mode := le l 18 1, stop := le l 19 1
    clk := #v[le l 20 1, le l 21 1, le l 22 1, le l 23 1]
    lmax := le l 24 1, ltim := le l 25 1, lwt := le l 26 1, key := le l 27 1, seed := BitVec.ofNat 32 (le l 28 4)
    image := leWord l 32, args := leWord l 40, argsz := le l 48 4, done := leWord l 56, rgn := leWord l 64
    root := leWord l 72, tbase := leWord l 80, errq := leWord l 88, pol := leWord l 96, pold := digestAt l 104
    unit := le l 136 1, gw := le l 137 1, gh := le l 138 1, gn := le l 139 1, dies := le l 140 1
    fidx := le l 144 4, fcnt := le l 148 4, ftab := leWord l 152, stk := leWord l 160, stksz := le l 168 4
    cdp := leWord l 176, levels := Vector.ofFn fun n => levelAt l n }

/-- Status −1: magic, version and reserved bytes. -/
def recordFormed (l : List Byte) : Bool :=
  le l 0 4 == 0x4c52584b && le l 4 2 == 1 && allZero l 6 2 && allZero l 52 4 && allZero l 141 3 && allZero l 172 4 &&
  allZero l 184 72 && allZero l 384 128 &&
  (List.range 8).all fun n => allZero l (256 + 16 * n + 2) 2 && allZero l (256 + 16 * n + 8) 8

/-- Threads of a core in a mode (R14). -/
def modeThreads (mode : Nat) : Nat := 16 / 2 ^ mode

/-- Status −4, but for the region table: every field in its range. -/
def LaunchRecord.inRange (r : LaunchRecord) : Bool :=
  r.ctx != 0 && r.prio < 8 && r.mode < 4 && r.stop < 4 && (r.clk.toList.all fun c => c == 0 || (8 ≤ c && c ≤ 32)) &&
  r.ltim < 64 && r.unit < 4 && 1 ≤ r.gw && r.gw ≤ 16 && 1 ≤ r.gh && r.gh ≤ 16 && 1 ≤ r.gn && r.gn ≤ 64 && r.dies < 16 &&
  1 ≤ r.fcnt && r.fcnt ≤ 4096 && r.fidx < r.fcnt && r.stksz % 16 == 0

/-- Rows of cores of a group: two of each cluster, or one of each half-cluster (R335). -/
def LaunchRecord.rows (r : LaunchRecord) : Nat := if r.unit = 0 then 2 * r.gh else r.gh

/-- Width of the partition plane in cores. -/
def LaunchRecord.width (r : LaunchRecord) : Nat := 4 * r.gw * r.gn

/-- Status −5: the level entries of a record describe its footprint (R334). -/
def levelsMeet (l : List Byte) (r : LaunchRecord) : Bool :=
  let e := fun n => r.levels.getD n default
  ((List.range 8).all fun n => ((e n).used || le l (256 + 16 * n) 1 == 0xff) && le l (256 + 16 * n + 1) 1 < 2) &&
  (e 0).used && (e 1).used && (e 0).ex == modeThreads r.mode && (e 0).ey == 1 &&
  (!(e 7).used || (e 7).ex * (e 7).ey == r.fcnt) &&
  (r.domain 7).1 * (r.domain 7).2 == r.width * r.rows &&
  (List.range 5).all fun i =>
    let n := 3 + i
    let d := r.domain n
    !(e n).used || (d.1 % 4 == 0 && (r.unit != 0 || d.2 % 2 == 0) && 4 * r.gw % d.1 == 0 && r.rows % d.2 == 0)

/-- The coordinates `lvl0` to `lvl7` of the thread in a slot of the core at (x, y) of the plane (R20). -/
def LaunchRecord.lvl (r : LaunchRecord) (x y slot n : Nat) : Word :=
  let e := r.levels.getD n default
  let d := r.domain n
  let xi := x / d.1 % e.ex
  let yi := y / d.2 % e.ey
  if !e.used then 0x100000000
  else if n = 0 then BitVec.ofNat 64 (slot + e.ex * 2 ^ 32)
  else if n = 7 then BitVec.ofNat 64 (r.fidx + r.fcnt * 2 ^ 32)
  else BitVec.ofNat 64 ((if e.alongY then yi + e.ey * xi else xi + e.ex * yi) + e.ex * e.ey * 2 ^ 32)

/-- The 1024 bytes of a region-table image as pairs of words. -/
def regionPairs (l : List Byte) : List (Word × Word) := (List.range 64).map fun i => (leWord l (16 * i), leWord l (16 * i + 8))

/-- `rgnwr` of the entries in index order would refuse one with status 1 or 2. -/
def regionsRefused (l : List (Word × Word)) : Bool :=
  (List.range l.length).any fun i =>
    let e := l.getD i (0, 0)
    rgnBad e.1 e.2 || (e.2.getLsbD 8 && (List.range i).any fun j =>
      let o := l.getD j (0, 0)
      o.2.getLsbD 8 && overlaps (rgnBase e.1) (2 ^ regionLg e.1) (rgnBase o.1) (2 ^ regionLg o.1))

/-! ## Policies (R371 to R373) -/

/-- Levels that a class accepts (R372). -/
def classLevels (c : Nat) : List Nat :=
  if c ≤ 7 then [0, 1, 2, 3]
  else match c with
    | 8 | 13 | 14 => [0, 3]
    | 9 | 10 | 11 => [0, 2, 3]
    | 12 => [0, 1, 3]
    | _ => [0]

def policyOf (l : List Byte) : Policy :=
  { agran := le l 12 1, st := le l 13 1 == 1
    classes := (List.range (le l 14 2)).map fun c => (le l (128 + 4 * c) 1, le l (129 + 4 * c) 1) }

/-- The level entry of a class; a class with no entry is withheld. -/
def Policy.level (p : Policy) (c : Nat) : Nat := (p.classes.getD c (0, 0)).1
def Policy.param (p : Policy) (c : Nat) : Nat := (p.classes.getD c (0, 0)).2

/-- A policy's fields and entries are what R371 and R372 allow. -/
def policyFormed (l : List Byte) : Bool :=
  let n := le l 14 2
  le l 0 4 == 0x50444c57 && le l 4 2 == 1 && le l 12 1 < 4 && le l 13 1 < 2 && 1 ≤ n && n ≤ 32 && allZero l 16 112 &&
  128 + 4 * n ≤ l.length &&
  (List.range n).all fun c =>
    let lv := le l (128 + 4 * c) 1
    let p := le l (129 + 4 * c) 1
    allZero l (130 + 4 * c) 2 && (classLevels c).contains lv && (lv != 1 || (1 ≤ p && p ≤ 40)) && (lv != 2 || (10 ≤ p && p ≤ 40))

/-- The digest of a policy; where a record names none, 0. -/
def policyDigest (l : List Byte) : Digest := if l = [] then 0 else sha256 l

/-- A policy of `len` bytes is accepted for a record, under the key its tenant has registered (R373). A record whose policy address and
digest are 0, as those of R399 and R406 are, names none, and every class is withheld (R371; DEDUCED, log 51). -/
def State.policyAccepted (s : State) (r : LaunchRecord) (l : List Byte) : Bool :=
  let signed := 128 + 4 * le l 14 2
  if r.pol = 0 then r.pold == 0
  else sha256 l == r.pold && le l 8 4 == r.tenant && policyFormed l &&
  (s.trust.policyKeys.find? fun e => e.1 == r.tenant).any fun e => hssVerify policyRule e.2 (l.take signed) (l.drop signed)

/-! ## Glitas images (R337) -/

def glitasOf (h roles places hand boot : List Byte) : Glitas :=
  { roles := (List.range (le h 8 4)).map fun i =>
      let o := 32 * i
      ⟨le roles o 8, le roles (o + 8) 8, le roles (o + 16) 4, le roles (o + 20) 4, le roles (o + 24) 4, le roles (o + 28) 1⟩
    places := (List.range (le h 12 4)).map fun i =>
      let o := 8 * i
      ⟨le places o 2, le places (o + 2) 1, le places (o + 4) 1, le places (o + 5) 1, le places (o + 6) 2⟩
    handlers := (List.range (le h 16 4)).map fun i =>
      let o := 16 * i
      ⟨le hand o 1, le hand (o + 1) 1, le hand (o + 2) 2, le hand (o + 4) 4, le hand (o + 8) 8⟩
    boot := (List.range (le h 20 4)).map fun i =>
      let o := 4 * i
      ⟨le boot o 2, le boot (o + 2) 1, le boot (o + 3) 1⟩
    size := le h 56 8 }

/-- The default entry is the one with neither width nor height. -/
def PlaceEntry.isDefault (p : PlaceEntry) : Bool := p.w == 0 && p.h == 0

def PlaceEntry.covers (p : PlaceEntry) (x y : Nat) : Bool := p.x ≤ x && x < p.x + p.w && p.y ≤ y && y < p.y + p.h

/-- The role of the core at (x, y) of the plane. -/
def Glitas.roleAt (g : Glitas) (x y : Nat) : Option Role :=
  ((g.places.find? fun p => p.covers x y).or (g.places.find? (·.isDefault))).bind fun p => g.roles[p.role]?

/-- Where a core receives its code from: 0 memory, 1 w, 2 e, 3 n, 4 s (R58). -/
def Glitas.bootDir (g : Glitas) (x y : Nat) : Nat :=
  match g.boot.find? fun b => b.x == x && b.y == y with
  | .some b => b.dir
  | .none =>
    if x ≠ 0 then 1 else if y ≠ 0 then 3 else if g.boot.any fun b => b.dir == 0 then 3 else 0

/-- The boot tree leads from a core to the root within some steps, inside the plane. -/
def Glitas.rooted (g : Glitas) (w h : Nat) : Nat → Nat → Nat → Bool
  | 0, _, _ => false
  | n + 1, x, y =>
    if w ≤ x ∨ h ≤ y then false
    else match g.bootDir x y with
      | 0 => true
      | 1 => x != 0 && g.rooted w h n (x - 1) y
      | 2 => g.rooted w h n (x + 1) y
      | 3 => y != 0 && g.rooted w h n x (y - 1)
      | 4 => g.rooted w h n x (y + 1)
      | _ => false

/-- Code and data of a protocol's handlers on a PP, in KiB (R281). -/
def Glitas.codeKib (g : Glitas) (proto : Nat) : Nat :=
  (((g.handlers.filter fun e => e.proto == proto).map (·.csz)).sum + 1023) / 1024

def Glitas.dataKib (g : Glitas) (proto : Nat) : Nat :=
  (g.handlers.filter fun e => e.proto == proto).foldl (fun n e => max n e.dkib) 0

/-- The protocols that an image carries handlers for. -/
def Glitas.protos (g : Glitas) : List Nat := (List.range 16).filter fun p => g.handlers.any fun e => e.proto == p

/-- A table lies within the image. -/
def tableInside (size off count each : Nat) : Bool := off % 8 == 0 && off + count * each ≤ size

/-- The header alone (status −7). -/
def headerFormed (h : List Byte) : Bool :=
  let size := le h 56 8
  le h 0 4 == 0x53414c47 && le h 4 2 == 1 && allZero h 6 2 && 1 ≤ le h 8 4 && le h 8 4 ≤ 64 && 1 ≤ le h 12 4 &&
  le h 12 4 ≤ 4096 && le h 16 4 ≤ 640 && le h 20 4 ≤ 65535 && tableInside size (le h 24 8) (le h 8 4) 32 &&
  tableInside size (le h 32 8) (le h 12 4) 8 && tableInside size (le h 40 8) (le h 16 4) 16 &&
  tableInside size (le h 48 8) (le h 20 4) 4

/-- Pairwise on a list. -/
def pairwise {α : Type} (ok : α → α → Bool) : List α → Bool
  | [] => true
  | a :: l => l.all (ok a) && pairwise ok l

/-- Two placement entries do not overlap. -/
def placesApart (a b : PlaceEntry) : Bool :=
  !(overlaps a.x a.w b.x b.w && overlaps a.y a.h b.y b.h)

/-- Status −7: the tables fit a plane of w by h cores and a scratchpad space of some bytes. -/
def Glitas.fits (g : Glitas) (w h space : Nat) : Bool :=
  let named := g.places.filter fun p => !p.isDefault
  (g.places.all fun p => p.role < g.roles.length) &&
  (g.roles.all fun r => r.sdofs + r.sdsz ≤ space && r.level < 2) &&
  (named.all fun p => 1 ≤ p.w && 1 ≤ p.h && p.x + p.w ≤ w && p.y + p.h ≤ h) &&
  pairwise placesApart named && (g.places.filter (·.isDefault)).length ≤ 1 &&
  ((List.range w).all fun x => (List.range h).all fun y => (g.roleAt x y).isSome) &&
  (g.handlers.all fun e => 6 ≤ e.proto && e.proto ≤ 15 && e.type < 64 && e.csz % 4 == 0) &&
  (g.protos.all fun p => g.codeKib p ≤ 48 && g.dataKib p ≤ 224) &&
  (g.boot.all fun b => b.x < w && b.y < h && b.dir < 5) && pairwise (fun a b => a.x != b.x || a.y != b.y) g.boot &&
  (g.boot.filter fun b => b.dir == 0).length ≤ 1 &&
  (List.range w).all fun x => (List.range h).all fun y => g.rooted w h (w * h + 1) x y

end Sys2Proof.Machine
end

