-- ==== Sys2Proof/Machine/Launch.lean ====
section
/-! DEFINITION. Launching and cancelling: checks of a record, the footprint, acceptance, release of a partition, and the end of a
launch (R319, R320, R322, R327, R333 to R340, R343, R345). -/

namespace Sys2Proof.Machine

open Sys2Proof

/-! ## Free places (R345) -/

/-- The halves that a group of a kind takes in each of its clusters. -/
def halvesOf (half : Nat) : List Nat := if half = 0 then [0, 1] else [half - 1]

/-- The kinds of group that the unit of a record names, in the order in which they are tried. -/
def unitHalves (unit : Nat) : List Nat := if unit = 3 then [1, 2] else [unit]

/-- A group lies on its die and meets nothing taken. -/
def groupFree (taken : ClusterId → Nat → Bool) (gw gh : Nat) (g : Group) : Bool :=
  g.cluster % 16 + gw ≤ 16 && g.cluster / 16 + gh ≤ 16 &&
  (groupClusters g gw gh).all fun cl => (halvesOf g.half).all fun h => !taken cl h

/-- The groups of a list take this half of this cluster. -/
def groupsTake (gw gh : Nat) (l : List Group) (cl half : Nat) : Bool :=
  l.any fun g => (groupClusters g gw gh).contains cl && (g.half == 0 || g.half == half + 1)

/-- The lowest free position on the lowest allowed die. -/
def nextGroup (taken : ClusterId → Nat → Bool) (r : LaunchRecord) : Option Group :=
  ((List.range 4).filter fun d => r.dies == 0 || r.dies.testBit d).findSome? fun die =>
    (List.range 256).findSome? fun n =>
      ((unitHalves r.unit).map fun h => (⟨die, n, h⟩ : Group)).find? (groupFree taken r.gw r.gh)

/-- The groups of a footprint, after those that it has already. -/
def placeGroups (taken : ClusterId → Nat → Bool) (r : LaunchRecord) : Nat → List Group → Option (List Group)
  | 0, got => .some got
  | n + 1, got =>
    match nextGroup (fun cl h => taken cl h || groupsTake r.gw r.gh got cl h) r with
    | .none => .none
    | .some g => placeGroups taken r n (got ++ [g])

/-- A half is owned by a partition, or its cluster is unavailable (R422). -/
def State.taken (s : State) (cl half : Nat) : Bool :=
  s.plant.unavailable.contains cl || s.parts.any fun p => p.owns cl half

/-- The footprint fits the allowed dies when they are empty. -/
def State.fitsEmpty (s : State) (r : LaunchRecord) : Bool :=
  (placeGroups (fun cl _ => s.plant.unavailable.contains cl) r r.gn []).isSome

/-! ## Acceptance (R339) -/

/-- For whom a launch is made: how memory is read, the tenant it must name, the priority and weight it may not pass, and the
context and function it comes from. -/
structure Issuer where
  reader : Reader
  tenant : Option TenantNo
  clamp : Option (Nat × Nat)
  via : CtxNo
  vf : Option Nat
  /-- Its place among those whose launches arrive in one N-cycle: queues by function and number, then cores (R346, R355). -/
  origin : Nat

/-- What reading the Glitas image gives. -/
inductive ImageRead where
  | fault
  | malformed
  | ok (g : Glitas) (bytes : List Byte)
  deriving DecidableEq, Repr

/-- Reads bytes; a fault leaves the state as it was. -/
def readOr (rd : Reader) (n : Nat) (va : Nat) (s : State) : State × Option (List Byte) :=
  match readVia rd n va s with
  | .some (t, l) => (t, .some l)
  | .none => (s, .none)

/-- The image address reaches scratchpad in the tables of a translation root. -/
def State.reachesScratch (s : State) (root : Word) (va : Nat) : Bool :=
  match windowOf va with
  | .ownScratch _ | .global _ => true
  | .unmapped => false
  | .translated =>
    match walkTables (fun a => s.coherentRead a 8) root.toNat va with
    | .error _ => false
    | .ok l => placeOf (localise s.pkg (l.pa va)) == .scratch || placeOf (localise s.pkg (l.pa va)) == .peerScratch

/-- The context as a record makes it, before it runs. -/
def LaunchRecord.context (r : LaunchRecord) : Ctx :=
  { num := r.ctx, tenant := r.tenant, key := r.key, root := r.root, tbase := r.tbase, errq := errqStored r.errq }

/-- The tables of a Glitas image whose header has been read. -/
def imageTables (rd : Reader) (va : Nat) (h : List Byte) (s : State) : Option (State × Glitas) :=
  match readVia rd (32 * le h 8 4) (va + le h 24 8) s with
  | .none => .none
  | .some (s, roles) =>
    match readVia rd (8 * le h 12 4) (va + le h 32 8) s with
    | .none => .none
    | .some (s, places) =>
      match readVia rd (16 * le h 16 4) (va + le h 40 8) s with
      | .none => .none
      | .some (s, hand) =>
        match readVia rd (4 * le h 20 4) (va + le h 48 8) s with
        | .none => .none
        | .some (s, boot) => .some (s, glitasOf h roles places hand boot)

/-- Reads the image of a record, with the tables of the new context. -/
def State.readImage (s : State) (r : LaunchRecord) : State × ImageRead :=
  let rd := hostReader r.context
  let va := r.image.toNat
  if va % 64 ≠ 0 ∨ s.reachesScratch r.root va then (s, .malformed)
  else match readOr rd 64 va s with
    | (s, .none) => (s, .fault)
    | (s, .some h) =>
      if !headerFormed h then (s, .malformed)
      else match imageTables rd va h s with
        | .none => (s, .fault)
        | .some (s, g) =>
          match readOr rd (le h 56 8) va s with
          | (s, .none) => (s, .fault)
          | (s, .some l) => (s, .ok g l)

/-- The region-table image; an address of 0 names none. -/
def readRegions (rd : Reader) (r : LaunchRecord) (s : State) : State × Option (List Byte) :=
  if r.rgn = 0 then (s, .some (List.replicate 1024 0)) else readOr rd 1024 r.rgn.toNat s

/-- The policy, as long as its own length says; an address of 0 names none. -/
def readPolicy (rd : Reader) (r : LaunchRecord) (s : State) : State × Option (List Byte) :=
  if r.pol = 0 then (s, .some [])
  else match readOr rd 8 r.pol.toNat s with
  | (s, .none) => (s, .none)
  | (s, .some h) => readOr rd (le h 6 2) r.pol.toNat s

/-- The packages of a launch: those that `ftab` lists in member order, or this package alone (R333). -/
def State.readMembers (s : State) (rd : Reader) (r : LaunchRecord) : State × Option (List Nat) :=
  if r.fcnt = 1 then (s, .some [s.pkg])
  else match readOr rd (2 * r.fcnt) r.ftab.toNat s with
    | (s, .none) => (s, .none)
    | (s, .some l) => (s, .some ((List.range r.fcnt).map fun i => le l (2 * i) 2))

/-- Launches queued at a priority. -/
def State.queuedAt (s : State) (prio : Nat) : Nat := (s.dist.launches.filter fun l => l.state == .queued && l.prio == prio).length

/-- The priority of a launch: at most its issuer's own. -/
def Issuer.prio (i : Issuer) (r : LaunchRecord) : Nat := min r.prio ((i.clamp.map (·.1)).getD 7)
def Issuer.weight (i : Issuer) (r : LaunchRecord) : Nat := min r.pwt ((i.clamp.map (·.2)).getD 255)

/-- The status of a launch as a positive number, or 0 when nothing stands against it; `read` tells that the tables beside the image
could be read. -/
def State.launchStatus (s : State) (i : Issuer) (raw : List Byte) (rg pl : Option (List Byte)) (im : ImageRead) (read : Bool) :
    Nat :=
  let r := recordOf raw
  let slot := s.ctxOf? r.ctx
  let space := if r.unit = 0 then 0x100000 else 0x80000
  if !recordFormed raw then 1
  else if i.tenant.any (· != r.tenant) ∨ !(s.trust.keys.any fun k => k.slot == r.key && k.tenant == r.tenant) ∨
    slot.any fun c => c.tenant != r.tenant then 2
  else if slot.any fun c => c.state != .free then 3
  else if !r.inRange ∨ regionsRefused ((rg.map regionPairs).getD []) then 4
  else if !levelsMeet raw r ∨ !s.fitsEmpty r then 5
  else if pl.any fun l => !s.policyAccepted r l || slot.any fun c => c.digest != policyDigest l then 6
  else if (match im with
    | .malformed => true
    | .ok g _ => !g.fits r.width r.rows space
    | .fault => false) then 7
  else if rg.isNone ∨ pl.isNone ∨ im = .fault ∨ !read then 8
  else if 64 ≤ s.queuedAt (i.prio r) then 9
  else if slot.isNone ∧ 256 ≤ s.ctxs.length then 10
  else 0

/-- The context slot of an accepted launch: created, or used again with its save counter (R327, R339). Until the launch runs the slot
shows state 7, loading, also while the launch is queued or being placed (R326; DESIGN CHOICE, log 51). -/
def State.claimSlot (s : State) (i : Issuer) (r : LaunchRecord) (num : LaunchNo) (policy : List Byte) : State :=
  let save := ((s.ctxOf? r.ctx).map (·.save)).getD 0
  let c : Ctx := { r.context with
    save := save, state := .loading, policy := policyOf policy, digest := policyDigest policy, launch := num, vf := i.vf }
  { s with ctxs := s.ctxs.filter (fun k => k.num != r.ctx) ++ [c] }

/-- The distributor's queue with an accepted launch, which comes before those of its N-cycle whose issuers come after its own. -/
def State.queueWith (s : State) (l : Launch) : List Waiting :=
  let after := fun (w : Waiting) => match w with
    | .launch n => (s.dist.launches.find? fun k => k.num == n).any fun k => k.arrived == l.arrived && decide (l.origin < k.origin)
    | .resume _ => false
  s.dist.queue.takeWhile (!after ·) ++ [.launch l.num] ++ s.dist.queue.dropWhile (!after ·)

/-- Submits a record's bytes: the launch number, or the negative status. -/
def State.submit (s : State) (i : Issuer) (raw : List Byte) : State × Word :=
  let r := recordOf raw
  let (s, rg) := readRegions i.reader r s
  let (s, pl) := readPolicy i.reader r s
  let (s, im) := s.readImage r
  let (s, ms) := s.readMembers i.reader r
  let st := s.launchStatus i raw rg pl im ms.isSome
  match st, rg, pl, im with
  | 0, .some rg, .some pl, .ok g bytes =>
    let num := s.dist.next
    let l : Launch :=
      { num := num, record := r, image := g, regions := regionPairs rg, members := ms.getD [], prio := i.prio r
        weight := i.weight r, via := i.via
        arrived := s.nCycles 0, origin := i.origin, state := .queued }
    let s := s.claimSlot i r num pl
    ({ s with
      dist := { s.dist with launches := s.dist.launches ++ [l], next := num % (2 ^ 32 - 1) + 1, queue := s.queueWith l }
      trust := { s.trust with measured := s.trust.measured ++
        [.launch r.tenant (sha256 raw) (sha256 bytes) (sha256 rg) (policyDigest pl)] } }, BitVec.ofNat 64 num)
  | n, _, _, _ => (s, BitVec.ofInt 64 (-(n : Int)))

/-- The issuer that a core thread is. -/
def State.coreIssuer (s : State) : Issuer :=
  let c := s.cur.who.core'
  let ctx := s.ctxOfCore c
  { reader := coreReader c s.cur.user, tenant := if s.cur.pl = 3 then .none else .some ((ctx.map (·.tenant)).getD 0)
    clamp := .some (((s.partOfCore c).map fun p => (p.priority, p.weight)).getD (0, 0))
    via := (ctx.map (·.num)).getD 0, vf := ctx.bind (·.vf), origin := 2048 + c }

/-- `launch`: the record is read on the core path, after the thread's own stores. -/
def execLaunch (d a : Reg) (s : State) : Host.Outcome State Fault Refusal :=
  s.issue .coreOnly fun s => do
    s.cur.needX d
    let x ← s.cur.getX a
    if !s.quiet s.cur.who 7 then .error (.wait (.room (.quiet 7)))
    let s := s.markPerformed s.cur.who 7 s.stamps
    let ts ← (List.range 8).mapM fun (i : Nat) => s.translate (x + BitVec.ofNat 64 (64 * i)) 64 .read
    if ts.any fun t => s.poisoned t.pa then .error .poison
    let raw := ts.flatMap fun t => (List.range 64).map fun i => s.deviceByte (t.pa + i)
    let (s, v) := s.submit s.coreIssuer raw
    .ok { s with cur := (s.cur.setX d v).advance 4 }

/-! ## Releasing a partition (R322, R343) -/

/-- Bank `b` of a cluster belongs to the partition. -/
def Partition.ownsBank (p : Partition) (cl b : Nat) : Bool := p.owns cl b

/-- An array after a partition has left it. -/
def MatrixArray.leave (a : MatrixArray) (p : Partition) : MatrixArray :=
  let gone := fun (b : Nat) => p.ownsBank a.cl b
  { a with
    banks := Vector.ofFn fun i => if gone i then {} else a.banks[i]
    holder := if a.holder.any gone then .none else a.holder
    ending := if a.ending.any gone then .none else a.ending
    last := if a.last.any gone then .none else a.last }

/-- The core of a thread belongs to the partition. -/
def Partition.hasHart (p : Partition) (h : Hart) : Bool := !h.who.isPp && p.hasCore h.who.core'

/-- Writes back and drops every line of the partition's L1s (R322). -/
def State.flushL1s (s : State) (p : Partition) : State :=
  p.cores.foldl (fun s c => ((s.coreOf c).l1).foldl (fun s l => s.evict c l) s) s

/-- The arrays that a partition shares: who competes for their leases has changed with it (R213). -/
def State.settleArrays (s : State) (p : Partition) : State :=
  (s.arrays.filter fun a => p.ownsBank a.cl 0 || p.ownsBank a.cl 1).foldl (fun s a => s.settleLease a.cl) s

/-- Zero goes into the partition's scratchpad halves, tiles, registers, queues and descriptor sets; its cores become free. By then
every write that has been made is read by every agent (log 42). The power arbiter decides anew (R348). -/
def State.clearPart (s : State) (p : Partition) : State :=
  let s := s.flushL1s p
  let t : State := { s with
    cur := if p.hasHart s.cur then { who := s.cur.who } else s.cur
    harts := s.harts.filter fun h => !p.hasHart h
    cores := s.cores.map fun k => if p.hasCore k.id then { id := k.id, engine := k.engine } else k
    mem := s.mem.filter fun e => !(placeOf e.1 == .scratch && p.owns (scratchCluster e.1) (scratchHalf e.1))
    past := []
    syncs := s.syncs.filter fun e => !p.owns (scratchCluster e.pa) (scratchHalf e.pa)
    arrays := s.arrays.map fun a => a.leave p
    copies := s.copies.filter fun k => !p.hasCore k.core
    sends := s.sends.filter fun m => !p.hasCore m.core
    tlb := s.tlb.filter fun t => t.ctx != p.ctx
    walks := s.walks.filter fun w => w.ctx != p.ctx
    parts := s.parts.filter fun q => q.id != p.id }
  (t.settleArrays p).powerDecision

/-- The binding slots of a context at every PP are free. -/
def State.dropBindings (s : State) (ctx : CtxNo) : State :=
  { s with pps := s.pps.map fun q => { q with bindings := q.bindings.filter fun b => b.ctx != ctx } }

/-! ## The end of a launch (R343) -/

def State.launchRec (s : State) (num : LaunchNo) : Option Launch := s.dist.launches.find? fun l => l.num == num

def State.withLaunch (s : State) (num : LaunchNo) (f : Launch → Launch) : State :=
  { s with dist := { s.dist with launches := s.dist.launches.map fun l => if l.num = num then f l else l } }

def State.dequeue (s : State) (w : Waiting) : State :=
  { s with dist := { s.dist with
    queue := s.dist.queue.filter fun q => q != w
    placing := if s.dist.placing.any fun p => p.1 == w then .none else s.dist.placing } }

/-- The completion post of a launch, which covers every access made before it (R343). -/
def State.postDone (s : State) (l : Launch) (how : Nat) : State :=
  if l.record.done = 0 then s
  else match (s.ctxOf? l.via).bind fun c => s.hostPath c l.record.done.toNat .write with
    | .none => s
    | .some (s, pa) =>
      if placeOf pa = .scratch ∧ pa % 32 = 0 then 
        s.sendPost { pa := pa, bytes := 1, bits := 2 ^ (40 + how), broken := false, source := .none, path := 6
                     cover := s.past.map (·.id) }
      else s

/-- Records the end of a launch: 0 completed, 1 stopped, 2 cancelled, 3 load failed. -/
def State.closeLaunch (s : State) (num : LaunchNo) (how : Nat) : State :=
  match s.launchRec num with
  | .none => s
  | .some l =>
    let s := (s.withLaunch num fun l => { l with state := .ended how }).postDone l how
    s.trace 4 ((((s.parts.find? fun p => p.launch == num).map (·.cores)).bind (·.head?)).getD 0) 0xff 0 (BitVec.ofNat 64 how)

/-- Copies of a stopped or cancelled launch end with status 5; messages in its send queues are dropped, and the sync blocks of
their mailboxes are broken (R161, R268). Every write made by then is read by every agent (log 42). -/
def State.endEngines (s : State) (p : Partition) : State :=
  let s : State := { s with past := [] }
  let s := (s.copies.filter fun k => p.hasCore k.core).foldl (fun s k => s.cancelCopy k) s
  let mine := s.sends.filter fun m => p.hasCore m.core
  let s := mine.foldl (fun s m => match (s.coreOf m.target).mailbox.sync with
    | .some pa => s.breakSync pa
    | .none => s) s
  { s with sends := s.sends.filter fun m => !p.hasCore m.core }

/-- A context slot whose tenant's session has ended goes with its launch (R370). -/
def State.dropLeaving (s : State) (n : CtxNo) : State := { s with ctxs := s.ctxs.filter fun c => !(c.num == n && c.leaving) }

/-- Releases what a launch held, and leaves its context slot free for its tenant. -/
def State.releaseLaunch (s : State) (l : Launch) : State :=
  let s := match s.parts.find? fun p => p.launch == l.num with
    | .none => s
    | .some p => s.clearPart p
  ((s.dropBindings l.record.ctx).withCtx l.record.ctx fun c =>
    { c with state := .free, plan := .none, op := .none, absorbed := [], heldEvents := [] }).dropLeaving l.record.ctx

/-- Nothing of the partition is outstanding on the core path. -/
def State.settled (s : State) (p : Partition) : Bool :=
  p.cores.all fun c => let k := s.coreOf c; k.stores.isEmpty && k.loads.isEmpty && k.atomics.isEmpty && k.units.isEmpty

/-- A write-back or a hint of the context has still to be taken by its home (R411). -/
def State.hintsOut (s : State) (p : Partition) : Bool :=
  let mine := fun (m : PpMsg) => m.type == 3 && m.ctx == p.ctx
  (p.cores.any fun c => !(s.coreOf c).hints.isEmpty) ||
  (s.net.any fun q => match q with
    | .message _ _ m => mine m
    | _ => false) ||
  (s.pps.any fun q => q.repQueue.any mine) ||
  (s.cur :: s.harts).any fun h => h.who.isPp && h.life == .live && h.handler.any fun k => mine k.msg

/-- The partition has completed. -/
def State.partDone (s : State) (p : Partition) : Bool :=
  s.settled p && !s.hintsOut p && (p.cores.all fun c =>
    let k := s.coreOf c
    k.tasks.isEmpty && k.calls.isEmpty && k.flows.isEmpty && k.sending.isEmpty &&
    (List.range k.threads).all fun i => (s.hartOf (.core c i)).life == .vacant) &&
  !(s.copies.any fun k => p.hasCore k.core) && !(s.sends.any fun m => p.hasCore m.core) &&
  !s.arrays.any fun a => (List.range 2).any fun b => p.ownsBank a.cl b && !(a.bank b).queue.isEmpty

/-- What engines and handlers of the partition have under way has ended: accesses of copies and matrix commands, deliveries and posts
into its scratchpad, and handlers for its context (R320, R322). -/
def State.enginesStill (s : State) (p : Partition) : Bool :=
  !(s.copies.any fun k => p.hasCore k.core && k.req.isSome) &&
  !(s.arrays.any fun a => (List.range 2).any fun b => p.ownsBank a.cl b && (a.bank b).queue.any fun c => !c.reqs.isEmpty) &&
  !(s.sends.any fun m => p.hasCore m.target && m.accepted.isSome) &&
  !(s.posts.any fun q => p.owns (scratchCluster q.pa) (scratchHalf q.pa)) &&
  !(s.cur :: s.harts).any fun h => h.who.isPp && h.life == .live && h.handler.any fun k => k.msg.ctx == p.ctx

/-- LAUNCH_END. A stopped partition keeps its resources, unless its launch has been cancelled or discarded meanwhile; any other end
releases them. -/
def State.launchEnd (s : State) (num : LaunchNo) : State :=
  match s.launchRec num, s.parts.find? fun p => p.launch == num with
  | .some l, .some p =>
    if l.state ≠ .running then s
    else if p.state = .stopped ∨ (p.state = .held ∧ l.cancelled) then
      if !s.enginesStill p then s
      else if !l.cancelled ∧ !l.discarded then (s.endEngines p).closeLaunch num 1
      else if s.settled p then ((s.endEngines p).closeLaunch num (if l.cancelled then 2 else 1)).releaseLaunch l
      else s
    else if p.state = .running ∧ s.partDone p then (s.closeLaunch num 0).releaseLaunch l
    else s
  | _, _ => s

def execLaunchEnd (num : LaunchNo) (s : State) : Host.Outcome State Fault Refusal := .next (s.launchEnd num)

/-! ## Partition stops (R319, R320) -/

/-- A compute command at a gang switch: one that has all its groups completes, a running one stops at its progress point, or for
the fault that it has met, and one whose operands were fetched ahead forgets them (R237, R238). -/
def State.haltCommand (s : State) (cl : ClusterId) (b : Nat) (c : MatrixCommand) : State :=
  if c.suspended then s
  else if c.running && c.finished then s.completeCompute cl b c
  else if c.running then s.stopCommand cl b c
  else (s.dropRequests cl c).setCommand cl b { c with got := [], reqs := [] }

/-- The compute commands of the partition stop, and a lease that it holds is asked for anew (R238). -/
def State.haltArrays (s : State) (p : Partition) : State :=
  s.arrays.foldl (fun s a => (List.range 2).foldl (fun s b =>
    if !p.ownsBank a.cl b then s
    else
      let s := ((s.bank a.cl b).queue.filter (·.isCompute)).foldl (fun s c => s.haltCommand a.cl b c) s
      let s := if (s.arrayOf a.cl).holder = .some b then s.traceLease 7 a.cl b else s
      s.withArray a.cl fun r =>
        let r := r.withBank b fun k => { k with lease := if k.lease = 2 then 1 else k.lease, left := 0 }
        if r.holder = .some b then { r with holder := .none, last := .some b, ending := .none } else r) s) s

/-- Every core of a partition stops, and its matrix commands at their progress points; the switch that it had agreed is cancelled
(R324). -/
def State.stopPart (s : State) (p : Partition) : State :=
  let s := (p.cores.foldl (fun s c => s.stopCore c .none) s).haltArrays p
  ((s.withPart p.id fun q => { q with state := .stopped }).withCtx p.ctx fun c =>
    { c with state := .stop, plan := .none }).settleArrays p

/-- HALT_TREE_STOP: the stop has spread to every core of the partition on the package. -/
def State.haltTreeStop (s : State) (ctx : CtxNo) : State :=
  match s.partOfCtx ctx with
  | .none => s
  | .some p => if p.state ≠ .halting then s else s.stopPart p

def execHaltTreeStop (ctx : CtxNo) (s : State) : Host.Outcome State Fault Refusal := .next (s.haltTreeStop ctx)

/-! ## lcancel (R340) -/

/-- A thread waits for the outcome, or has it. -/
def Launch.awaited (l : Launch) (who : Option Who) : Launch :=
  { l with cancellers := who.toList ++ l.cancellers.filter fun w => !who.any (· == w) }
def Launch.answered (l : Launch) (who : Option Who) : Launch :=
  { l with cancellers := l.cancellers.filter fun w => !who.any (· == w) }

/-- What cancelling does to a launch: the new state and the status, or nothing while the outcome is not final. A partition that is being
switched out is cancelled when its image has been written; one that a fatal stop has reached ends stopped, and is released then. -/
def State.cancelLaunch (s : State) (l : Launch) (who : Option Who) : State × Option Nat :=
  let part := s.parts.find? fun p => p.launch == l.num
  let ctx := s.ctxOf? l.record.ctx
  let away := ctx.any fun c => c.launch == l.num && (c.state == .saved || c.state == .restoring)
  let over' := fun (s : State) => s.withLaunch l.num fun l => l.answered who
  let gone := fun (s : State) => over' (((s.dequeue (.launch l.num)).dequeue (.resume l.record.ctx)).releaseLaunch l)
  match l.state with
  | .queued | .loading => (gone (s.closeLaunch l.num 2), .some 0)
  | .running =>
    if away then (gone (s.closeLaunch l.num 2), .some 1)
    else
      let s := s.withLaunch l.num fun l => l.awaited who
      match part with
      | .none => (s, .none)
      | .some p =>
        if l.cancelled ∨ p.state = .stopped ∨ p.state = .halting then (s, .none)
        else
          let s := s.withLaunch l.num fun l => { l with cancelled := true }
          (if p.state = .saving then s else s.stopPart p, .none)
  | .ended how =>
    if part.isSome ∨ away then (gone s, .some 1)
    else if how = 2 ∧ who.any l.cancellers.contains then (over' s, .some 1)
    else (over' s, .some 3)

def execLcancel (d a : Reg) (s : State) : Host.Outcome State Fault Refusal :=
  s.issue .coreOnly fun s => do
    s.cur.needX d
    let x ← s.cur.getX a
    let tenant := ((s.ctxOfCore s.cur.who.core').map (·.tenant)).getD 0
    match s.launchRec x.toNat with
    | .none => .ok { s with cur := (s.cur.setX d 2).advance 4 }
    | .some l =>
      if l.record.tenant ≠ tenant then .ok { s with cur := (s.cur.setX d 2).advance 4 }
      else match s.cancelLaunch l (.some s.cur.who) with
        | (t, .some v) => .ok { t with cur := (t.cur.setX d (BitVec.ofNat 64 v)).advance 4 }
        | (t, .none) => .ok (if t.cur.life = .live then t.waitFor (.room (.launch l.num)) else t)

end Sys2Proof.Machine
end

