-- ==== Sys2Proof/Machine/Placement.lean ====
section
/-! DEFINITION. The distributor's rounds, and loading: from the grant of a placement to the first issue (R340 to R346). -/

namespace Sys2Proof.Machine

open Sys2Proof

/-! ## Room on the protocol processors (R281, R283) -/

/-- The lowest free range of some bytes, in units of 1 KiB. -/
def firstFit (lo hi size : Nat) (used : List (Nat × Nat)) : Option Nat :=
  ((List.range ((hi - lo) / 1024 + 1)).map fun i => lo + 1024 * i).find? fun b =>
    b + size ≤ hi && used.all fun u => size == 0 || u.2 == 0 || !overlaps b size u.1 u.2

/-- A binding of a launch on a PP, without its dispatch entries: the lowest free slot, and the lowest free code and data areas. -/
def Pp.allot (q : Pp) (ctx : CtxNo) (g : Glitas) (proto : Nat) : Option Binding :=
  match ((List.range 26).map (· + 6)).find? fun i => !q.bindings.any fun b => b.slot == i,
    firstFit 0x4000 0x10000 (1024 * g.codeKib proto) (q.bindings.map fun b => (b.codeBase, b.codeSize)),
    firstFit 0x8000 0x40000 (1024 * g.dataKib proto) (q.bindings.map fun b => (b.dataBase, b.dataSize)) with
  | .some slot, .some code, .some data =>
    .some { slot := slot, ctx := ctx, proto := proto, dispatch := [], codeBase := code, codeSize := 1024 * g.codeKib proto
            dataBase := data, dataSize := 1024 * g.dataKib proto, faulted := false }
  | _, _, _ => .none

/-- All bindings of a launch on a PP. -/
def Pp.allotAll (q : Pp) (ctx : CtxNo) (g : Glitas) : List Nat → Option Pp
  | [] => .some q
  | p :: l =>
    match q.allot ctx g p with
    | .none => .none
    | .some b => { q with bindings := q.bindings ++ [b] }.allotAll ctx g l

/-- Every PP of the package: 37 on each die. -/
def allPps : List PpId := List.range 148

/-- Every PP can take the handler sets of a launch. -/
def State.ppsTake (s : State) (l : Launch) : Bool :=
  allPps.all fun p => ((s.ppOf p).allotAll l.record.ctx l.image l.image.protos).isSome

/-! ## What waits (R344, R346) -/

/-- The image from which a context is to be resumed. -/
def State.imageOf (s : State) (c : Ctx) : Option Image :=
  c.op.bind fun o => s.images.find? fun i => i.id == o.save

def State.waitingPrio (s : State) : Waiting → Nat
  | .launch n => ((s.launchRec n).map (·.prio)).getD 0
  | .resume c => (((s.ctxOf? c).bind s.imageOf).map (·.payload.part.priority)).getD 0

/-- The queue of a priority, oldest first. -/
def State.waitingAt (s : State) (prio : Nat) : List Waiting := s.dist.queue.filter fun w => s.waitingPrio w == prio

/-- The heads of the queues, from priority 7 down. -/
def State.heads (s : State) : List Waiting := (List.range 8).reverse.filterMap fun p => (s.waitingAt p).head?

/-- The groups of what waits that are reserved after those reserved already, when every one of them is free now. -/
def State.remaining (s : State) (w : Waiting) (got : List Group) : Option (List Group) :=
  match w with
  | .launch n =>
    (s.launchRec n).bind fun l =>
      if s.ppsTake l then (placeGroups s.taken l.record (l.record.gn - got.length) got).map (·.drop got.length) else .none
  | .resume c =>
    ((s.ctxOf? c).bind s.imageOf).bind fun i =>
      let p := i.payload.part
      if p.groups.all (groupFree s.taken p.gw p.gh) then .some (p.groups.drop got.length) else .none

/-- The tenant of what waits, and since which N-cycle of die D0 it has. -/
def State.waitsSince (s : State) : Waiting → Option (TenantNo × Nat)
  | .launch n => (s.launchRec n).map fun l => (l.record.tenant, l.arrived)
  | .resume c => (s.ctxOf? c).map fun c => (c.tenant, c.restoreAt)

/-- A tenant's oldest request: a launch, or a context to be resumed. -/
def State.oldestOf (s : State) (t : TenantNo) : Option Waiting :=
  s.dist.queue.find? fun w => (s.waitsSince w).any fun e => e.1 == t

/-- What a reserved grant tries first, with its tenant (R346). -/
def State.reservedLaunch (s : State) : Option (Waiting × TenantNo) :=
  if s.dist.grants % 16 ≠ 15 then .none
  else
    let old := fun (w : Waiting) => (s.waitsSince w).any fun e => e.2 + 2 ^ 20 < s.nCycles 0
    let ts := (s.dist.queue.filterMap fun w => (s.waitsSince w).map (·.1)).filter fun t => (s.oldestOf t).any old
    let after := fun (t : TenantNo) => s.dist.reserved.all (· < t)
    (((ts.filter after).min?).or ts.min?).bind fun t => (s.oldestOf t).map fun w => (w, t)

/-! ## Granting (R344, R345) -/

/-- The clock numbers that a record asks for. -/
def LaunchRecord.request (r : LaunchRecord) : Word :=
  BitVec.ofNat 64 (clkBits (Vector.ofFn fun i => if r.clk[i] = 0 then nominal[i] else r.clk[i]))

/-- The partition of a launch on the groups reserved for it. -/
def Launch.partition (l : Launch) (id : Nat) (groups : List Group) : Partition :=
  { id := id, launch := l.num, ctx := l.record.ctx, tenant := l.record.tenant, state := .loading, groups := groups
    gw := l.record.gw, gh := l.record.gh, stopScope := l.record.stop, seed := l.record.seed, priority := l.prio, weight := l.weight
    clkreq := l.record.request }

/-- A partition takes its cores, and its clocks are set. -/
def State.placePart (s : State) (p : Partition) (threads : Nat) : State :=
  let s : State := { s with parts := s.parts ++ [p] }
  let s := p.cores.foldl (fun s c => s.withCore c fun k => { id := c, part := .some p.id, threads := threads, engine := k.engine }) s
  s.placeClocks p.id

/-- A number that no partition has. -/
def State.freshPart (s : State) : Nat := s.parts.foldl (fun n p => max n (p.id + 1)) 0

/-- Every PP of the package sets aside what a launch's handler sets need: slots, code and data, with no dispatch entry filled yet
(R283). -/
def State.takeBindings (s : State) (l : Launch) : State :=
  allPps.foldl (fun s p => s.withPp p fun q => (q.allotAll l.record.ctx l.image l.image.protos).getD q) s

/-- All groups are reserved: the placement leaves its queue and is loaded. -/
def State.place (s : State) (w : Waiting) (groups : List Group) : State :=
  let s := s.dequeue w
  match w with
  | .launch n =>
    match s.launchRec n with
    | .none => s
    | .some l =>
      ((s.withLaunch n fun l => { l with state := .loading }).takeBindings l).placePart (l.partition s.freshPart groups)
        (modeThreads l.record.mode)
  | .resume c =>
    match (s.ctxOf? c).bind s.imageOf with
    | .none => s
    | .some i =>
      let threads := ((i.payload.cores.head?).map (·.threads)).getD 16
      s.placePart { i.payload.part with id := s.freshPart, state := .loading } threads

/-- Reserves the next group of a placement. -/
def State.reserve (s : State) (w : Waiting) (got rest : List Group) : State :=
  match rest with
  | [] => s
  | [g] => s.place w (got ++ [g])
  | g :: _ => { s with dist := { s.dist with placing := .some (w, got ++ [g]) } }

/-- A new round: the first head whose whole footprint can be reserved is granted. -/
def State.startRound (s : State) : State :=
  let first := s.reservedLaunch
  let tries := ((first.map (·.1)).toList ++ s.heads).filterMap fun w => (s.remaining w []).map fun r => (w, r)
  match tries with
  | [] => s
  | (w, rest) :: _ =>
    let tenant := first.bind fun e => if w = e.1 then .some e.2 else .none
    let s : State := { s with dist := { s.dist with grants := s.dist.grants + 1, reserved := tenant.or s.dist.reserved } }
    s.reserve w [] rest

/-- DISTRIBUTOR_ROUND: one group of the placement in progress, or the first of a new round. -/
def State.distributorRound (s : State) : State :=
  match s.dist.placing with
  | .none => s.startRound
  | .some (w, got) =>
    match s.remaining w got with
    | .some rest => s.reserve w got rest
    | .none =>
      if s.heads.any fun h => s.waitingPrio w < s.waitingPrio h then
        { s with dist := { s.dist with placing := .none } }.startRound
      else s

def execDistributorRound (s : State) : Host.Outcome State Fault Refusal := .next s.distributorRound

/-! ## Loading (R341, R342) -/

/-- The cores of a partition with their columns and rows in its plane (R335). -/
def Partition.plane (p : Partition) : List (CoreId × Nat × Nat) :=
  (List.range p.groups.length).flatMap fun k =>
    let g := p.groups.getD k ⟨0, 0, 0⟩
    let one : Partition := { p with groups := [g] }
    one.cores.map fun c =>
      let dy := coreY c / 2 - g.cluster / 16
      (c, 4 * p.gw * k + (coreX c - 4 * (g.cluster % 16)), if g.half = 0 then 2 * dy + coreY c % 2 else dy)

/-- Writes the valid entries of a launch's region table, as `rgnwr` does. -/
def State.loadRegions (s : State) (ctx : CtxNo) : Nat → List (Word × Word) → Option State
  | _, [] => .some s
  | i, e :: l =>
    if !e.2.getLsbD 8 then s.loadRegions ctx (i + 1) l
    else match s.ctxOf? ctx with
      | .none => .none
      | .some c =>
        if s.rgnStatus c i e.1 e.2 ≠ 0 then .none else (s.writeRegion c i e.1 e.2).loadRegions ctx (i + 1) l

/-- The code of a protocol's handlers, one after the other from a base: each handler's type, start and bytes. -/
def handlerCodes (rd : Reader) (image : Nat) : Nat → List HandlerImage → State → Option (State × List (Nat × Nat × List Byte))
  | _, [], s => .some (s, [])
  | at', h :: l, s =>
    match readVia rd h.csz (image + h.code) s with
    | .none => .none
    | .some (t, b) =>
      match handlerCodes rd image (at' + h.csz) l t with
      | .none => .none
      | .some (u, r) => .some (u, (h.type, at', b) :: r)

/-- Writes bytes into a sparse memory. -/
def storeBytes (m : List Host.Cell) (a : Nat) : List Byte → List Host.Cell
  | [] => m
  | b :: l => storeBytes (writeByte m a b) (a + 1) l

/-- The binding of a protocol of a context on a PP. -/
def Pp.bindingOf (q : Pp) (ctx : CtxNo) (proto : Nat) : Option Binding := q.bindings.find? fun b => b.ctx == ctx && b.proto == proto

/-- The binding of a protocol with its handlers loaded, on one PP. The data area is zeroed. -/
def Pp.loadBinding (q : Pp) (b : Binding) (codes : List (Nat × Nat × List Byte)) : Pp :=
  let imem := codes.foldl (fun m c => storeBytes m (b.codeBase + c.2.1) c.2.2) q.imem
  { q with
    imem := imem
    dmem := q.dmem.filter fun e => e.1 < b.dataBase || b.dataBase + b.dataSize ≤ e.1
    bindings := q.bindings.map fun k =>
      if k.slot = b.slot then { b with dispatch := codes.map fun c => (c.1, b.codeBase + c.2.1) } else k }

/-- The bindings that every PP has set aside are loaded, in the order of the protocols; a PP that holds none refuses the load. -/
def State.loadHandlers (s : State) (l : Launch) (rd : Reader) : List Nat → Option State
  | [] => .some s
  | proto :: rest =>
    match handlerCodes rd l.record.image.toNat 0 (l.image.handlers.filter fun e => e.proto == proto) s with
    | .none => .none
    | .some (s, codes) =>
      if !allPps.all fun p => ((s.ppOf p).bindingOf l.record.ctx proto).isSome then .none
      else
        let fill := fun (q : Pp) => ((q.bindingOf l.record.ctx proto).map fun b => q.loadBinding b codes).getD q
        (allPps.foldl (fun s p => s.withPp p fill) s).loadHandlers l rd rest

/-- The roles that run in each cluster of a partition: cluster, half that its scratchpad space begins in, and role. -/
def Launch.clusterRoles (l : Launch) (p : Partition) : List (ClusterId × Nat × Role) :=
  (p.plane.filterMap fun (c, x, y) =>
    (l.image.roleAt x y).map fun r => (clusterOf c, (if p.halfAt (clusterOf c) = 2 then 1 else 0), r)).eraseDups

/-- Each cluster receives the scratchpad data of the roles that run in it. -/
def State.loadScratch (s : State) (l : Launch) (rd : Reader) : List (ClusterId × Nat × Role) → Option State
  | [] => .some s
  | (cl, half, r) :: rest =>
    match readVia rd r.sdsz (l.record.image.toNat + r.sdata) s with
    | .none => .none
    | .some (s, b) =>
      { s with mem := storeBytes s.mem (scratchPa cl (half * 0x80000 + r.sdofs)) b }.loadScratch l rd rest

/-- The text that the root of the boot tree reads: up to 16 KiB of its role's, which ends with the image. -/
def Launch.rootText (l : Launch) (p : Partition) : Option (Nat × Nat) :=
  (p.plane.find? fun (_, x, y) => l.image.bootDir x y == 0).bind fun (_, x, y) =>
    (l.image.roleAt x y).map fun r => (l.record.image.toNat + r.text, min 16384 (l.image.size - r.text))

/-- The blocks of up to 16 KiB of a role's text, by physical address, the last first. -/
def State.textBlocks (s : State) (l : Launch) (rd : Reader) (r : Role) : List (Nat × Nat) :=
  let va := l.record.image.toNat + r.text
  let n := (min 16384 (l.image.size - r.text) + va % 32 + 31) / 32
  ((List.range (min n codeBlocks)).filterMap fun i =>
    match rd s ((va / 32 * 32 + 32 * i) % 2 ^ 64) with
    | .none => .none
    | .some (_, pa) =>
      if isRemote s.pkg pa || s.poisoned pa then .none else .some (pa / 32, s.coherentRead (pa / 32 * 32) 32)).reverse

/-- The instruction cache of each core holds the beginning of its role's text, as far as it can be read (R341 step 4). -/
def State.preloadCode (s : State) (l : Launch) (p : Partition) (rd : Reader) : State :=
  p.plane.foldl (fun t (c, x, y) =>
    match l.image.roleAt x y with
    | .none => t
    | .some r => t.withCore c fun k => { k with icache := s.textBlocks l rd r }) s

/-- The generator of a thread at its start (R72). -/
def startSeed (seed : BitVec 32) (lvl : Nat → Word) : BitVec 32 :=
  let f := (List.range 8).foldl (fun f n => f ^^^ ((lvl n).setWidth 32).rotateLeft (4 * n)) 0#32
  if seed ^^^ f = 0 then 0x6a09e667 else seed ^^^ f

/-- The state in which a thread of a launch starts. Bit 0 of its pc is 0 whatever the image's offsets say (R29; DEDUCED, log 51). -/
def Launch.thread (l : Launch) (p : Partition) (c : CoreId) (x y slot : Nat) (r : Role) : Hart :=
  let k := l.record
  let o := (y * k.width + x) * modeThreads k.mode + slot
  let base := k.stk + BitVec.ofNat 64 (o * k.stksz)
  let h : Hart := { who := .core c slot, life := .live, pc := (k.image + BitVec.ofNat 64 (r.text + r.entry)) &&& ~~~1#64 }
  let h : Hart := { h with
    rng := startSeed p.seed (k.lvl x y slot)
    sys := { h.sys with
      status := setField 0 0 2 r.level
      launchid := BitVec.ofNat 64 (k.ctx * 2 ^ 32 + l.num)
      lvl := Vector.ofFn fun n => k.lvl x y slot n }
    x := h.x.set 32 k.cdp }
  (((((h.setX 2 (base + BitVec.ofNat 64 k.stksz)).setX 28 base).setX 3 k.args).setX 4 (BitVec.ofNat 64 k.argsz)).setX 5
    (BitVec.ofNat 64 o)).setX 30 k.cdp

/-- Every slot of every placed core starts. -/
def State.startThreads (s : State) (l : Launch) (p : Partition) : State :=
  p.plane.foldl (fun s (c, x, y) =>
    match l.image.roleAt x y with
    | .none => s
    | .some r => (List.range (modeThreads l.record.mode)).foldl (fun s i => s.setHart (l.thread p c x y i r)) s) s

/-- The lease settings of a record go into every bank of the partition (R211). -/
def State.loadLeases (s : State) (r : LaunchRecord) (p : Partition) : State :=
  ((p.groups.flatMap fun g => groupClusters g p.gw p.gh)).foldl (fun s cl =>
    (List.range 2).foldl (fun s b =>
      if p.ownsBank cl b then s.withBank cl b fun k => { k with weight := max 1 r.lwt, tlim := r.ltim, max := r.lmax } else s) s) s

/-- Steps 1 to 4 of loading. -/
def State.loadParts (s : State) (l : Launch) (p : Partition) (c : Ctx) : Option State :=
  let rd := hostReader c
  match s.loadHandlers l rd l.image.protos with
  | .none => .none
  | .some s =>
    match s.loadRegions c.num 0 l.regions with
    | .none => .none
    | .some s =>
      match s.loadScratch l rd (l.clusterRoles p) with
      | .none => .none
      | .some s =>
        match l.rootText p with
        | .none => .none
        | .some (va, n) => (readVia rd n va s).map fun e => e.1.preloadCode l p rd

/-- LAUNCH_LOAD: a granted launch is loaded and starts, or its load fails. -/
def State.launchLoad (s : State) (num : LaunchNo) : State :=
  match s.launchRec num, s.parts.find? fun p => p.launch == num && p.state == .loading with
  | .some l, .some p =>
    match (s.ctxOf? l.record.ctx).bind (s.loadParts l p) with
    | .none => (s.closeLaunch num 3).releaseLaunch l
    | .some s =>
      let s := (s.startThreads l p).loadLeases l.record p
      let s := (s.withPart p.id fun q => { q with state := .running }).withCtx p.ctx fun c => { c with state := .running }
      (s.withLaunch num fun l => { l with state := .running }).trace 3 (p.cores.headD 0) 0xff 0 0
  | _, _ => s

def execLaunchLoad (num : LaunchNo) (s : State) : Host.Outcome State Fault Refusal := .next (s.launchLoad num)

end Sys2Proof.Machine
end

