-- ==== Sys2Proof/Machine/Contexts.lean ====
section
/-! DEFINITION. Contexts in and out: gang switches, context images, and the context instructions (R322 to R332). -/

namespace Sys2Proof.Machine

open Sys2Proof

/-! ## Whose context -/

/-- The context of the executing thread, and its tenant. -/
def State.ownCtx (s : State) : Option Ctx := s.ctxOfCore s.cur.who.core'
def State.ownTenant (s : State) : TenantNo := (s.ownCtx.map (·.tenant)).getD 0

/-- The thread may name the context: its tenant's, and at M any. -/
def State.mayName (s : State) (c : Ctx) : Bool := s.cur.pl == 3 || c.tenant == s.ownTenant

/-- The context is resident and has been loaded. -/
def Ctx.resident (c : Ctx) : Bool := c.state == .running || c.state == .stop || c.state == .agreed || c.state == .saving

/-! ## Asking for a gang switch (R322, R324, R326) -/

/-- ⌈4096 N-cycles⌉ of a die in units of device time. -/
def State.switchLead (s : State) (die : Nat) : Nat :=
  let n := s.dieClock die 2
  (4096 * 64 + 5 * n - 1) / (5 * n)

/-- No instruction of the context issues any more: a time asked for or agreed has come. -/
def State.pastSwitch (s : State) (n : CtxNo) : Bool := (s.switchTimes n).any (· ≤ s.time)

/-- Where a page of an image lies, for an access through the context that names it: DRAM of the package, or a fault. -/
def State.imagePage (s : State) (via : CtxNo) (va : Nat) (r : Right) : Option (State × Nat) :=
  match (s.ctxOf? via).bind fun c => s.hostPath c (va % 2 ^ 64) r with
  | .none => .none
  | .some (s, pa) => if placeOf pa = .dram then .some (s, pa) else .none

/-- An image address that can be taken at once to be bad: its first page is not to be written. -/
def State.badImage (s : State) (via : Option Ctx) (va : Word) : Bool :=
  va.toNat % 4096 != 0 || via.all fun c => (s.imagePage c.num va.toNat .write).isNone

/-- `gswitch` does not wait: the time at which the switch follows, or a negative code. -/
def execGswitch (d a b : Reg) (s : State) : Host.Outcome State Fault Refusal :=
  s.issue .coreOnly fun s => do
    s.cur.needS
    s.cur.needX d
    let x ← s.cur.getX a
    let (t, image) ← s.cur.getPair b
    let own := s.ownCtx
    let num := if x = 0 then (own.map (·.num)).getD 0 else x.toNat
    let answer := fun (s : State) (v : Word) => ({ s with cur := (s.cur.setX d v).advance 4 } : State)
    match s.ctxOf? num with
    | .none => .ok (answer s (BitVec.ofInt 64 (-2)))
    | .some c =>
      if !s.mayName c then .ok (answer s (BitVec.ofInt 64 (-1)))
      else if !c.resident then .ok (answer s (BitVec.ofInt 64 (-2)))
      else if s.badImage own image then .ok (answer s (BitVec.ofInt 64 (-3)))
      else
        let at' := max t.toNat (s.time + s.switchLead (coreDie s.cur.who.core'))
        let kept := (s.switchTimes num).foldl min at'
        let plan : SwitchPlan := ⟨num, at', image, (own.map (·.num)).getD 0⟩
        .ok (answer { s with switches := s.switches ++ [plan] } (BitVec.ofNat 64 kept))

/-- GANG_SWITCH_AGREEMENT: a request reaches the root of its partition, which keeps the earlier time. A stopped partition has
none, and its switch is cancelled. -/
def State.switchAgreement (s : State) (k : Nat) : State :=
  match s.switches[k]? with
  | .none => s
  | .some q =>
    let s : State := { s with switches := s.switches.eraseIdx k }
    match s.partOfCtx q.ctx with
    | .none => s
    | .some p =>
      if p.state ≠ .running ∧ p.state ≠ .held then s
      else s.withCtx q.ctx fun c =>
        { c with
          state := if p.state = .running then .agreed else c.state
          plan := match c.plan with
            | .none => .some q
            | .some o => if q.time < o.time then .some q else .some o }

def execGangSwitchAgreement (k : Nat) (s : State) : Host.Outcome State Fault Refusal := .next (s.switchAgreement k)

/-! ## The stop (R322, steps 2 to 6) -/

/-- Stream routes lose their claims, and pending prefixes are put away (R79). The port that a stream holds stays held for it, so
that no other word enters before its own when it comes back (R323). -/
def State.unroute (s : State) (p : Partition) : State :=
  let off := fun (h : Hart) =>
    if p.hasHart h then
      { h.parkPrefix with
        stream := h.stream.map fun t => { t with claimed := false, unrouted := t.claimed || t.unrouted } }
    else h
  let cut := fun (k : Core) => { k with flows := k.flows.map fun f => { f with links := 0, arrived := false, freed := 0 } }
  { s with
    cur := off s.cur
    harts := s.harts.map off
    cores := s.cores.map fun k => if p.hasCore k.id then cut k else k }

/-- Outstanding loads from peers are cancelled: their requests are given up, and they are sent again when the partition comes back (R322,
R323). -/
def State.cancelLoads (s : State) (p : Partition) : State :=
  { s with cores := s.cores.map fun k =>
      if p.hasCore k.id then { k with requests := k.requests.filter fun q => !(q.type == 0 && isRemote s.pkg q.block) } else k }

/-- GANG_SWITCH_STOP: at the agreed time the partition stops; other requests for a switch of it lapse (R324). -/
def State.switchStop (s : State) (n : CtxNo) : State :=
  match s.ctxOf? n, s.partOfCtx n with
  | .some c, .some p =>
    if c.plan.all (fun q => s.time < q.time) ∨ (p.state ≠ .running ∧ p.state ≠ .held) then s
    else
      let s := ((s.unroute p).haltArrays p).cancelLoads p
      let s : State := { s with switches := s.switches.filter fun q => q.ctx != n }
      let s := (s.withPart p.id fun q => { q with state := .saving }).withCtx n fun k =>
        { k with state := .saving, outAt := (k.plan.map (·.time)).getD s.time }
      (s.settleArrays p).trace 5 (p.cores.headD 0) 0xff 0 0
  | _, _ => s

def execGangSwitchStop (ctx : CtxNo) (s : State) : Host.Outcome State Fault Refusal := .next (s.switchStop ctx)

/-- A load that has still to land: an element is local and no request brings its block. -/
def State.loadLands (s : State) (k : Core) (l : PendingLoad) : Bool :=
  l.elems.any fun (a, v) => v == .none && !isRemote s.pkg a.pa && !k.requests.any fun q => q.block == blockOf a.pa

/-- Everything that must end before an image is taken has ended: stores, atomics, requests and local fills, accesses of engines,
deliveries and posts into the partition's scratchpad, replies to its cores, and handlers for its context. -/
def State.still (s : State) (p : Partition) : Bool :=
  (p.cores.all fun c =>
    let k := s.coreOf c
    k.stores.isEmpty && k.atomics.isEmpty && k.requests.isEmpty && k.units.isEmpty && !k.loads.any (s.loadLands k)) &&
  s.enginesStill p && !s.replies.any fun r => p.hasCore r.1.core

/-! ## Images (R327 to R330) -/

/-- The half-clusters of a partition. -/
def Partition.halves (p : Partition) : List (ClusterId × Nat) :=
  p.groups.flatMap fun g => (groupClusters g p.gw p.gh).flatMap fun cl => (halvesOf g.half).map fun h => (cl, h)

/-- A command has entered a bank of the partition. -/
def State.tilesUsed (s : State) (p : Partition) : Bool :=
  s.arrays.any fun a => (List.range 2).any fun b => p.ownsBank a.cl b && (a.bank b).used

/-- Words, markers or tasks of the partition are in the networks (R322). -/
def State.flitsOut (s : State) (p : Partition) : Bool :=
  p.cores.any fun c =>
    let k := s.coreOf c
    (k.sending.any fun e => e.retryAt == 0 && !e.accepted) || (k.calls.any fun e => e.retryAt == 0) ||
    k.flows.any fun f => !f.words.isEmpty || f.closing

/-- The partition has the shape whose sections R414 gives: one half of a cluster in T4, with no work of engines. -/
def State.plainShape (s : State) (p : Partition) : Bool :=
  p.halves.length == 1 && (p.cores.all fun c => (s.coreOf c).threads == 4) && !s.tilesUsed p &&
  !(s.copies.any fun k => p.hasCore k.core) && !s.sends.any fun m => p.hasCore m.core

/-- Granules and bytes used of a section of a save: those that R330, R373 and R414 give, and otherwise free (DEDUCED, log 32). -/
def State.sectionSize (s : State) (p : Partition) (c : Ctx) (id kind : Nat) : Nat × Nat :=
  let open' := (Config.sectionGranules id kind, Config.sectionGranules id (kind + 8))
  match kind with
  | 3 => if s.flitsOut p then (max 1 open'.1, open'.2) else (0, 0)
  | 4 => (128 * p.halves.length, 524288 * p.halves.length)
  | 7 => if c.absorbed.isEmpty then (1, 1040) else open'
  | k =>
    if !s.plainShape p then open'
    else match k with
      | 1 => (6, 24576)
      | 2 => (2, 8192)
      | 5 => (1, 256)
      | _ => (1, 128)

/-- The used sections of a save: kind, granules, bytes used. -/
def State.imageSections (s : State) (p : Partition) (c : Ctx) (id : Nat) : List (Nat × Nat × Nat) :=
  ((List.range 7).map fun i => (i + 1, s.sectionSize p c id (i + 1))).filter fun e => e.2.1 != 0

def State.granuleCount (s : State) (p : Partition) (c : Ctx) (id : Nat) : Nat := ((s.imageSections p c id).map (·.2.1)).sum

/-- Pages of an image with `g` granules. -/
def imagePages (g : Nat) : Nat := 1 + g + (16 * g + 4095) / 4096

/-- The key slot of a context. -/
def State.keySlot (s : State) (c : Ctx) : Option KeySlot :=
  s.trust.keys.find? fun k => k.slot == c.key && k.tenant == c.tenant

/-- A number placed at a byte offset. -/
def atByte (o v : Nat) : Nat := v * 2 ^ (8 * o)

/-- A SHA-256 digest as its 32 bytes stand in memory. -/
def digestBytes (d : Digest) : Nat :=
  (List.range 32).foldl (fun n i => n + atByte i (d.toNat / 256 ^ (31 - i) % 256)) 0

/-- Bytes 56 to 63 of the header. -/
def placeBytes (p : Partition) : Nat :=
  let g := p.groups.headD ⟨0, 0, 0⟩
  atByte 0 g.die + atByte 1 g.cluster + atByte 2 p.gw + atByte 3 p.gh + atByte 4 g.half + atByte 5 p.groups.length

/-- The section entries from one number and one granule on: kind, first granule, granules, bytes used. -/
def sectionBytes : Nat → Nat → List (Nat × Nat × Nat) → Nat
  | _, _, [] => 0
  | i, first, (kind, n, used) :: l =>
    atByte (16 * i) (kind + first % 2 ^ 32 * 2 ^ 32 + n % 2 ^ 32 * 2 ^ 64 + used % 2 ^ 32 * 2 ^ 96) + sectionBytes (i + 1) (first + n) l

/-- The 256 bytes of an image's header. -/
def State.imageHeader (s : State) (p : Partition) (c : Ctx) (o : CtxOp) : Nat :=
  let flags := (if c.state = .stop then 1 else 0) + (if s.tilesUsed p then 2 else 0) + (if c.absorbed.isEmpty then 0 else 4)
  let mode := modeOf (((p.cores.head?).map fun k => (s.coreOf k).threads).getD 16)
  atByte 0 0x4b584349 + atByte 4 1 + atByte 6 flags + atByte 8 (c.num % 2 ^ 32) + atByte 12 c.key + atByte 14 mode +
  atByte 16 (c.save % 2 ^ 64) + atByte 24 (o.nonce % 2 ^ 64) + atByte 32 (s.granuleCount p c o.save) + atByte 40 c.root.toNat +
  atByte 48 c.tbase.toNat + atByte 56 (placeBytes p) + atByte 64 (digestBytes c.digest) +
  atByte 128 (sectionBytes 0 0 (s.imageSections p c o.save))

/-- What the image holds. -/
def State.payload (s : State) (p : Partition) (c : Ctx) : Payload :=
  { part := p, ctx := c
    harts := (s.cur :: s.harts).filter p.hasHart
    cores := s.cores.filter fun k => p.hasCore k.id
    banks := s.arrays.flatMap fun a => ((List.range 2).filter (p.ownsBank a.cl)).map fun b => (a.cl, b, a.bank b)
    copies := s.copies.filter fun k => p.hasCore k.core
    sends := s.sends.filter fun m => p.hasCore m.core
    scratch := s.mem.filter fun e => placeOf e.1 == .scratch && p.owns (scratchCluster e.1) (scratchHalf e.1) }

/-- Byte `n` of a number as it is stored. -/
def storedByte (v n : Nat) : Byte := BitVec.ofNat 8 (v / 256 ^ n)

/-- The nonce of granule `i` of an image with a header (R329). -/
def granuleIv (header i : Nat) : List Byte :=
  bigEndian 4 (header / 256 ^ 8 % 2 ^ 32) ++ bigEndian 8 (header / 256 ^ 24 % 2 ^ 64 + i)

/-- The additional authenticated data of granule `i` (R329). -/
def granuleAad (header i : Nat) : List Byte := (List.range 256).map (storedByte header) ++ bigEndian 8 i

/-- The section of a kind in a header: first granule and granules. -/
def sectionIn (header kind : Nat) : Option (Nat × Nat) :=
  ((List.range 8).find? fun e => header / 256 ^ (128 + 16 * e) % 2 ^ 32 == kind).map fun e =>
    (header / 256 ^ (132 + 16 * e) % 2 ^ 32, header / 256 ^ (136 + 16 * e) % 2 ^ 32)

/-- Byte `n` of the scratchpad section: the halves of the partition in ascending cluster and offset (R330). -/
def Payload.scratchByte (y : Payload) (n : Nat) : Byte :=
  let before := fun (a b : ClusterId × Nat) => a.1 < b.1 || (a.1 == b.1 && a.2 ≤ b.2)
  let (cl, h) := (sortBy before y.part.halves).getD (n / 0x80000) (0, 0)
  readByte y.scratch (scratchPa cl (0x80000 * h + n % 0x80000))

/-- Byte `k` of granule `i` before encryption: the scratchpad's, and otherwise what the context engine makes of the other state (R330). -/
def Image.plainByte (m : Image) (i k : Nat) : Byte :=
  match sectionIn m.header 4 with
  | .some (first, n) =>
    if first ≤ i ∧ i < first + n then m.payload.scratchByte (4096 * (i - first) + k) else Config.sectionByte m.id (4096 * i + k)
  | .none => Config.sectionByte m.id (4096 * i + k)

/-- The bytes of granule `i` as they are written, and its tag (R329). -/
def Image.granule (m : Image) (i : Nat) : List Byte :=
  gcmCipher m.key (granuleIv m.header i) ((List.range 4096).map (m.plainByte i))
def Image.tag (m : Image) (i : Nat) : List Byte := gcmTag m.key (granuleIv m.header i) (granuleAad m.header i) (m.granule i)

/-- Page `n` of an image: the header, the granules, and their tags (R328). -/
def Image.page (m : Image) (n : Nat) : List Byte :=
  if n = 0 then (List.range 4096).map fun k => if k < 256 then storedByte m.header k else 0
  else if n ≤ m.granules then m.granule (n - 1)
  else
    (List.range 256).flatMap fun j =>
      let i := 256 * (n - 1 - m.granules) + j
      if i < m.granules then m.tag i else (List.range 16).map fun k => Config.tagPadding m.id (16 * i + k)

/-- Writes pages of an image from one number on; true when none faults. -/
def State.writePages (s : State) (via : CtxNo) (image : Word) (page : Nat → List Byte) : Nat → Nat → State × Bool
  | _, 0 => (s, true)
  | i, n + 1 =>
    match s.imagePage via (image.toNat + 4096 * i) .write with
    | .none => (s, false)
    | .some (s, pa) =>
      let s := (page i).zipIdx.foldl (fun s (b, k) => s.coherentWrite (pa + k) 1 b.toNat) s
      s.writePages via image page (i + 1) n

/-! ## Operations of the context engine (R326, R329, R331, R332) -/

/-- The function of a context is switched out by its hypervisor. -/
def State.switchedOut (s : State) (n : CtxNo) : Bool :=
  ((s.ctxOf? n).bind (·.vf)).any fun v => s.trust.vfs.any fun f => f.num == v && f.out

/-- Begins to save: the nonces and the save counter are taken. Nothing when the nonces of the key slot do not suffice. -/
def State.beginSave (s : State) (c : Ctx) (p : Partition) (kind : Nat) (who : Option Who) (image : Word) (via : CtxNo) :
    Option State :=
  match s.keySlot c with
  | .none => .none
  | .some k =>
    let g := s.granuleCount p c s.saves
    if 2 ^ 64 < k.nonce + g then .none
    else
      let op : CtxOp := ⟨kind, who, image, via, s.saves, k.nonce, 0, s.switchedOut via⟩
      let keys := s.trust.keys.map fun e => if e.slot = k.slot then { e with nonce := e.nonce + g } else e
      .some (({ s with saves := s.saves + 1, trust := { s.trust with keys := keys } } : State).withCtx c.num fun x =>
        { x with save := (x.save + 1) % 2 ^ 64, op := .some op })

/-- Records the last status of a context. -/
def State.ctxDone (s : State) (n : CtxNo) (st : Nat) : State := s.withCtx n fun c => { c with last := st, op := .none }

/-- A failed read or write of an image. -/
def State.imageFault (s : State) (n : CtxNo) (image : Word) : State := (s.postError n ⟨image, 0, 12, 0⟩).ctxDone n 7

/-- Ends a save: the status, 0 or 7. -/
def State.endSave (s : State) (c : Ctx) (p : Partition) (o : CtxOp) : State × Nat :=
  let s := s.flushL1s p
  let header := s.imageHeader p c o
  let g := s.granuleCount p c o.save
  match s.keySlot c with
  | .none => (s.imageFault c.num o.image, 7)
  | .some k =>
    let i : Image := ⟨o.save, c.num, k.key, c.save, header, g, s.payload p c⟩
    match s.writePages o.via o.image i.page 0 (imagePages g) with
    | (s, false) => (s.imageFault c.num o.image, 7)
    | (s, true) =>
      (({ s with images := s.images ++ [i] } : State).ctxDone c.num 0, 0)

/-- A launch that was cancelled while its context was on its way out ends with it (R340). -/
def State.discardCancelled (s : State) (num : LaunchNo) : State :=
  match s.launchRec num with
  | .none => s
  | .some l => if l.cancelled then (s.closeLaunch num 2).releaseLaunch l else s

/-- CONTEXT_IMAGE_WRITE for a partition that a gang switch has stopped. -/
def State.switchWrite (s : State) (c : Ctx) (p : Partition) (q : SwitchPlan) : State :=
  let held := fun (s : State) => (s.withPart p.id fun q => { q with state := .held }).withCtx c.num fun k =>
    { k with state := .stop, plan := .none }
  match c.op with
  | .none =>
    match s.beginSave c p 2 .none q.image q.via with
    | .some s => s
    | .none => held (s.ctxDone c.num 8)
  | .some o =>
    if o.paused then s
    else match s.endSave c p o with
      | (s, 0) => ((s.clearPart p).withCtx c.num fun k => { k with state := .saved, plan := .none, absorbed := [] }).discardCancelled p.launch
      | (s, _) => held s

/-- CONTEXT_IMAGE_WRITE: the context engine begins the image, and with the next one has written it. -/
def State.contextImageWrite (s : State) (n : CtxNo) : State :=
  match s.ctxOf? n, s.partOfCtx n with
  | .some c, .some p =>
    if p.state ≠ .saving ∨ !s.still p then s
    else match c.plan with
      | .none => s
      | .some q => s.switchWrite c p q
  | _, _ => s

def execContextImageWrite (ctx : CtxNo) (s : State) : Host.Outcome State Fault Refusal := .next (s.contextImageWrite ctx)

/-- A thread that began an operation still waits for it. -/
def State.opAlive (s : State) (o : CtxOp) : Bool := o.who.any fun w => (s.hartOf w).life == .live

/-- The thread's own operation on an image. -/
def State.opMine (s : State) (o : CtxOp) (kind : Nat) (image : Word) : Bool :=
  o.who == .some s.cur.who && o.kind == kind && o.image == image

/-- Ends an instruction of the context engine with a status, recorded for the context. -/
def State.ctxStatus (s : State) (d : Reg) (n : CtxNo) (st : Nat) : State := (s.ctxDone n st).result4 d st

/-- Refuses it before it has begun; the status is recorded for a context that the thread may name. -/
def State.ctxRefuse (s : State) (d : Reg) (c : Ctx) (st : Nat) : State :=
  (if s.mayName c then s.withCtx c.num fun k => { k with last := st } else s).result4 d st

/-- `ctxsave`: the image of a context that is resident and stopped. -/
def execCtxsave (d a b : Reg) (s : State) : Host.Outcome State Fault Refusal :=
  s.issue .coreOnly fun s => do
    s.cur.needS
    s.cur.needX d
    let x ← s.cur.getX a
    let image ← s.cur.getX b
    match (s.ctxOf? x.toNat).filter (!·.leaving) with
    | .none => .ok (s.result4 d 1)
    | .some c =>
      if image.toNat % 4096 ≠ 0 then .ok (s.ctxRefuse d c 1)
      else if !s.mayName c then .ok (s.result4 d 2)
      else match s.partOfCtx c.num with
        | .none => .ok (s.ctxRefuse d c 3)
        | .some p =>
          if c.state ≠ .stop then .ok (s.ctxRefuse d c 3)
          else if !s.still p then .error (.wait (.room (.image c.num)))
          else
            let begin' := match s.beginSave c p 0 (.some s.cur.who) image ((s.ownCtx.map (·.num)).getD 0) with
              | .none => s.ctxStatus d c.num 8
              | .some t => t.waitFor (.room (.image c.num))
            match c.op with
            | .none => .ok begin'
            | .some o =>
              if !s.opMine o 0 image then (if s.opAlive o then .error (.wait (.room (.image c.num))) else .ok begin')
              else if o.paused then .error (.wait (.room (.image c.num)))
              else
                let (t, st) := s.endSave c p o
                .ok (t.result4 d st)

/-! ## ctxload (R331) -/

/-- The header fields of an image agree with the slot. -/
def headerAgrees (c : Ctx) (h : List Byte) : Bool :=
  le h 0 4 == 0x4b584349 && le h 4 2 == 1 && le h 8 4 == c.num && le h 12 2 == c.key

/-- The image that the bytes of a header belong to under the slot's key. -/
def State.imageFor (s : State) (c : Ctx) (h : List Byte) : Option Image :=
  s.images.find? fun i => i.ctx == c.num && (s.keySlot c).any (fun k => k.key == i.key) && i.header == le h 0 256

/-- A granule's bytes and its tag are those that the engine wrote. -/
def Image.granuleGood (m : Image) (i : Nat) (data tag : List Byte) : Bool := data == m.granule i && tag == m.tag i

/-- Reads and authenticates granules from one number on: the status, 0, 5 or 7. -/
def checkGranules (rd : Reader) (image : Nat) (i? : Option Image) (g : Nat) : Nat → Nat → State → State × Nat
  | _, 0, s => (s, if i?.isSome then 0 else 5)
  | i, n + 1, s =>
    match readVia rd 4096 (image + 4096 * (1 + i)) s with
    | .none => (s, 7)
    | .some (s, data) =>
      match readVia rd 16 (image + 4096 * (1 + g) + 16 * i) s with
      | .none => (s, 7)
      | .some (s, tag) =>
        if i?.any fun m => m.granuleGood i data tag then checkGranules rd image i? g (i + 1) n s else (s, 5)

/-- The checks of the header: what reading leaves, and the status so far with the header's bytes. -/
def State.checkHeader (s : State) (c : Ctx) (rd : Reader) (image : Nat) : State × Nat × List Byte :=
  match readVia rd 256 image s with
  | .none => (s, 7, [])
  | .some (s, h) =>
    (s, if !headerAgrees c h then 5 else if le h 16 8 ≠ c.save then 4 else if digestAt h 64 ≠ c.digest then 6 else 0, h)

/-- A check has failed, or all have passed: then the context is restoring, and waits to be placed. -/
def State.endLoad (s : State) (d : Reg) (n : CtxNo) (image : Word) (st : Nat) (i : Option Image) (via : CtxNo) : State :=
  match st, i with
  | 0, .some m =>
    let s := s.withCtx n fun c =>
      { c with state := .restoring, last := 0, restoreAt := s.nCycles 0, save := (c.save + 1) % 2 ^ 64, op := .some ⟨1, .none, image, via, m.id, 0, 0, false⟩ }
    ({ s with dist := { s.dist with queue := s.dist.queue ++ [.resume n] } } : State).result4 d 0
  | 7, _ => (s.imageFault n image).result4 d 7
  | st, _ => s.ctxStatus d n st

/-- `ctxload`: the image is checked, and the context marked restoring. -/
def execCtxload (d a b : Reg) (s : State) : Host.Outcome State Fault Refusal :=
  s.issue .coreOnly fun s => do
    s.cur.needS
    s.cur.needX d
    let x ← s.cur.getX a
    let image ← s.cur.getX b
    match (s.ctxOf? x.toNat).filter (!·.leaving) with
    | .none => .ok (s.result4 d 1)
    | .some c =>
      if image.toNat % 4096 ≠ 0 then .ok (s.ctxRefuse d c 1)
      else if !s.mayName c then .ok (s.result4 d 2)
      else if c.state ≠ .saved then .ok (s.ctxRefuse d c 3)
      else
        let via := (s.ownCtx.map (·.num)).getD 0
        let rd : Reader := fun s va => s.imagePage via va .read
        let (t, st, h) := s.checkHeader c rd image.toNat
        if st ≠ 0 then .ok (t.endLoad d c.num image st .none via)
        else
          let begin' := (t.withCtx c.num fun k =>
            { k with op := .some ⟨1, .some s.cur.who, image, via, 0, 0, 0, s.switchedOut via⟩ }).waitFor (.room (.image c.num))
          match c.op with
          | .none => .ok begin'
          | .some o =>
            if !s.opMine o 1 image then (if s.opAlive o then .error (.wait (.room (.image c.num))) else .ok begin')
            else if o.paused then .error (.wait (.room (.image c.num)))
            else
              let i := t.imageFor c h
              let (u, st) := checkGranules rd image.toNat i (le h 32 8) 0 (le h 32 8) t
              .ok (u.endLoad d c.num image st i via)

/-! ## ctxstat (R326) -/

/-- The state of a context slot as `ctxstat` gives it: saving also while a `ctxsave` writes its image. The spec names no code for a slot whose
launch has ended (log 2), and says of code 7 only 'loading': it is shown from the acceptance of the launch on (DESIGN CHOICE, log 51). -/
def State.ctxCode (s : State) (c : Ctx) : Nat :=
  match c.state with
  | .free => (Config.endedSlot s.turn).toNat
  | .running => 1
  | .stop => if c.op.any (·.kind == 0) then 4 else 2
  | .agreed => 3
  | .saving => 4
  | .saved => 5
  | .restoring => 6
  | .loading => 7

/-- The status word of a context slot. -/
def State.ctxWord (s : State) (c : Ctx) : Word :=
  BitVec.ofNat 64 (s.ctxCode c + c.last % 16 * 2 ^ 8 + c.key % 256 * 2 ^ 16 + c.save % 2 ^ 40 * 2 ^ 24)

def execCtxstat (d a : Reg) (s : State) : Host.Outcome State Fault Refusal :=
  s.issue .coreOnly fun s => do
    s.cur.needS
    s.cur.needX d
    let x ← s.cur.getX a
    let v := match s.ctxOf? x.toNat with
      | .none => 0
      | .some c => if s.mayName c then s.ctxWord c else 0
    .ok { s with cur := (s.cur.setX d v).advance 4 }

/-! ## Restoring (R323) -/

/-- A thread as it comes back: its `wfe` is over (R316), and a wait whose event has been dropped, or may have come while it was out,
executes its instruction again. -/
def Hart.comeBack (h : Hart) : Hart :=
  let h := if h.life = .debug then h else h.loadPrefix
  let h := if h.wait = .event then h.advance 4 else h
  { h with
    frame := [], recapture := h.recapture || !h.frame.isEmpty
    wait := match h.wait with
      | .walk _ _ | .tag _ | .queue _ _ => .none
      | w => w }

/-- A core as it comes back, in a partition and with the engine requests of its cluster. -/
def Core.comeBack (k old : Core) (part time : Nat) : Core :=
  { k with part := .some part, requests := [], engine := old.engine, l1 := [], icache := []
           loads := k.loads.map fun l => { l with sentAt := time } }

/-- Copies come back under numbers that no other copy has. -/
def State.returnCopies (s : State) (l : List Copy) : State :=
  let n := s.freshCopy
  { s with copies := s.copies ++ l.map fun k => { k with id := k.id + n } }

/-- One absorbed outcome is delivered. -/
def State.deliverAbsorbed (s : State) (a : Absorbed) : State :=
  let k := s.coreOf a.core
  match a.op with
  | .store e => (s.setCore { k with stores := k.stores ++ [e] }).endsOr a.core (.store k.stores.length) a.result
  | .atomic e => (s.setCore { k with atomics := k.atomics ++ [e] }).endsOr a.core (.atomic k.atomics.length) a.result

/-- The loads of a core that are to be sent again. -/
def State.resend (s : State) (c : CoreId) : State :=
  (s.coreOf c).loads.zipIdx.foldl (fun s (l, k) => s.askAgain c k l.elems) s

/-- The clocks of a partition that comes back are those of its new placement; changes go on being counted (R347). -/
def Partition.resumeClocks (old new : Partition) : Partition :=
  let n := field old.clkgrant 48 8 + (if field old.clkgrant 0 48 = field new.clkgrant 0 48 then 0 else 1)
  { old with clkgrant := setField new.clkgrant 48 8 n, nextGrant := new.nextGrant.map fun w => setField w 48 8 (n + 1) }

/-- Everything that an image holds returns to a partition placed for it. -/
def State.unpack (s : State) (y : Payload) (p : Partition) : State :=
  let s : State := { s with mem := y.scratch.foldl (fun m e => writeByte m e.1 e.2) s.mem }
  let s := y.cores.foldl (fun s k => s.setCore (k.comeBack (s.coreOf k.id) p.id s.time)) s
  let s := y.harts.foldl (fun s h => s.setHart h.comeBack) s
  let s := y.banks.foldl (fun s (cl, b, k) => s.withBank cl b fun _ => k) s
  let s := s.returnCopies y.copies
  let s : State := { s with sends := s.sends ++ y.sends }
  let s := s.withCtx p.ctx fun c =>
    { c with root := y.ctx.root, tbase := y.ctx.tbase, errq := y.ctx.errq, regions := y.ctx.regions, regionPa := y.ctx.regionPa }
  (s.withPart p.id fun q => { y.part.resumeClocks q with id := q.id, state := .running }).settleArrays p

/-- CONTEXT_RESTORE: a context that has been placed again comes back whole, and its cores restart. -/
def State.contextRestore (s : State) (n : CtxNo) : State :=
  match s.ctxOf? n, s.partOfCtx n with
  | .some c, .some p =>
    if c.state ≠ .restoring ∨ p.state ≠ .loading then s
    else match s.imageOf c with
      | .none => s
      | .some i =>
        let y := i.payload
        let s := s.unpack y p
        let s := s.withCtx n fun k =>
          { k with state := .running, op := .none, heldEvents := [], stolen := k.stolen + (s.time - k.outAt) }
        let s := p.cores.foldl State.resend s
        let s := y.ctx.absorbed.foldl State.deliverAbsorbed s
        s.postHeld p c.heldEvents
  | _, _ => s

def execContextRestore (ctx : CtxNo) (s : State) : Host.Outcome State Fault Refusal := .next (s.contextRestore ctx)

/-! ## A guest's operation when its function is switched out (R332) -/

/-- Changes the operations that contexts of a function have asked for. -/
def State.withGuestOps (s : State) (vf : Nat) (f : CtxOp → CtxOp) : State :=
  let own := fun (o : CtxOp) => (s.ctxOf? o.via).any fun c => c.vf == some vf
  { s with ctxs := s.ctxs.map fun c => { c with op := c.op.map fun o => if own o then f o else o } }

/-- A function is switched out or in. -/
def State.setOut (s : State) (vf : Nat) (out : Bool) : State :=
  { s with trust := { s.trust with vfs := s.trust.vfs.map fun f => if f.num = vf then { f with out := out } else f } }

/-- GUEST_OP_PAUSE: the operation stops at the next 4 KiB boundary, and its granule is recorded. -/
def State.guestPause (s : State) (vf : Nat) : State :=
  (s.setOut vf true).withGuestOps vf fun o =>
    if o.paused then o else { o with paused := true, granule := max o.granule (Config.granulesDone s.turn) }

/-- GUEST_OP_CONTINUE: the operation goes on from the recorded granule, with the nonces that it has. -/
def State.guestContinue (s : State) (vf : Nat) : State := (s.setOut vf false).withGuestOps vf fun o => { o with paused := false }

def execGuestOpPause (vf : Nat) (s : State) : Host.Outcome State Fault Refusal := .next (s.guestPause vf)
def execGuestOpContinue (vf : Nat) (s : State) : Host.Outcome State Fault Refusal := .next (s.guestContinue vf)

end Sys2Proof.Machine
end

