-- ==== Sys2Proof/Machine/HostQueues.lean ====
section
/-! DEFINITION. Host queues: descriptors and doorbells, the checks of a queue program, packets, and the ops that the command
processor's interpreter runs (R350, R352 to R356). -/

namespace Sys2Proof.Machine

open Sys2Proof

/-! ## Queues (R350, R352) -/

def HostQueue.key (q : HostQueue) : Nat := q.fn * 16 + q.num

def State.queueAt (s : State) (k : Nat) : HostQueue := lookupBy HostQueue.key { fn := k / 16, num := k % 16 } k s.host.queues

def State.setQueue (s : State) (q : HostQueue) : State :=
  { s with host := { s.host with queues := storeBy HostQueue.key q s.host.queues } }

/-- The queue of a function that has it: functions 0 to 64, queues 0 to 15. -/
def State.queue? (s : State) (fn q : Nat) : Option HostQueue :=
  if fn ≤ 64 ∧ q < 16 then .some (s.queueAt (fn * 16 + q)) else .none

def State.vfOf (s : State) (fn : Nat) : Vf := ((s.trust.vfs.find? fun v => v.num == fn)).getD { num := fn }

/-- The tenant for which a queue acts; the physical function's act for the operator. -/
def State.queueTenant (s : State) (q : HostQueue) : Option TenantNo := if q.fn = 0 then .none else (s.vfOf q.fn).tenant

/-- A launch is of the queue's tenant. -/
def State.queueSees (s : State) (q : HostQueue) (t : TenantNo) : Bool := q.fn == 0 || s.queueTenant q == some t

/-- The context of a queue: it must be of the queue's tenant. -/
def State.queueCtx (s : State) (q : HostQueue) : Option Ctx := (s.ctxOf? q.ctx).filter fun c => s.queueSees q c.tenant

/-- DMA of the function's requester ID is refused: its interface is in ERROR (R351). -/
def State.functionFails (s : State) (fn : Nat) : Bool := fn != 0 && (s.vfOf fn).tdi == .error

/-! ## Memory of the host and of the device -/

/-- The operator's queues read no scratchpad of a context whose policy withholds its frozen state (R412). -/
def State.operatorMay (s : State) (pa : Nat) : Bool :=
  placeOf pa != .scratch || (s.parts.filter fun p => p.owns (scratchCluster pa) (scratchHalf pa)).all fun p =>
    (s.ctxOf? p.ctx).any fun c => c.policy.level 13 == 3

/-- How a queue reads device memory, with the tables of a context. -/
def HostQueue.reader (q : HostQueue) (c : Ctx) : Reader := fun s va =>
  (s.hostPath c va .read).filter fun e => q.fn != 0 || e.1.operatorMay e.2

/-- Reads bytes of a base with its host bit. -/
def State.queueRead (s : State) (q : HostQueue) (host : Bool) (va n : Nat) : Option (State × List Byte) :=
  if host then
    if Config.hostFault q.fn va s.turn || s.functionFails q.fn then .none
    else .some (s, (List.range n).map fun i => Config.hostRead q.fn (va + i) s.turn)
  else (s.queueCtx q).bind fun c => readVia (q.reader c) n va s

/-- Where each byte of a write goes; nothing when one faults. -/
def State.writePlaces (s : State) (c : Ctx) (va : Nat) : Nat → Option (State × List Nat)
  | 0 => .some (s, [])
  | n + 1 =>
    match s.hostPath c (va % 2 ^ 64) .write with
    | .none => .none
    | .some (s, pa) =>
      match s.writePlaces c (va + 1) n with
      | .none => .none
      | .some (s, l) => .some (s, pa :: l)

/-- Puts bytes at physical addresses; those of a peer package are performed there. -/
def State.putBytes (s : State) : List Nat → List Byte → State
  | pa :: ps, b :: bs => (if isRemote s.pkg pa then s else s.coherentWrite pa 1 b.toNat).putBytes ps bs
  | _, _ => s

/-- The posted writes that bytes leave in, of at most 512 bytes each (R349). -/
def postedWrites (fn va : Nat) (l : List Byte) : List Output :=
  (List.range ((l.length + 511) / 512)).map fun i =>
    let part := (l.drop (512 * i)).take 512
    .hostWrite fn (va + 512 * i) part.length (le part 0 part.length)

/-- Writes bytes at a base with its host bit. Host memory is written by posted writes of the function, in program order. -/
def State.queueWrite (s : State) (q : HostQueue) (host : Bool) (va : Nat) (l : List Byte) : Option State :=
  if host then
    if Config.hostFault q.fn va s.turn || s.functionFails q.fn then .none
    else .some { s with trust := { s.trust with out := s.trust.out ++ postedWrites q.fn va l } }
  else (s.queueCtx q).bind fun c => (s.writePlaces c va l.length).map fun (s, ps) => s.putBytes ps l

/-- The eight bytes of a word, lowest first. -/
def wordBytes (v : Word) : List Byte := (List.range 8).map fun i => BitVec.ofNat 8 (v.toNat / 256 ^ i)

/-- An address with bit 0 as its host bit. -/
def hostBit (w : Word) : Bool := w.getLsbD 0
def baseOf (w : Word) : Nat := w.toNat / 2 * 2

/-- The base and host bit of a range in a window, when the range lies within it. -/
def HostQueue.range (q : HostQueue) (w : BitVec 2) (off n : Nat) : Option (Bool × Nat) :=
  let e := q.win.getD w.toNat (0, 0)
  if off + n ≤ e.2.toNat then .some (hostBit e.1, baseOf e.1 + off) else .none

/-! ## Queue programs at enable (R354) -/

/-- Fields of an op. -/
def opCode (w : BitVec 32) : Nat := w.toNat % 64
def opW (w : BitVec 32) : Nat := w.toNat / 2 ^ 6 % 4
def opD (w : BitVec 32) : Nat := w.toNat / 2 ^ 8 % 16
def opA (w : BitVec 32) : Nat := w.toNat / 2 ^ 12 % 16
def opImm (w : BitVec 32) : Nat := w.toNat / 2 ^ 16

/-- The op code is assigned, and each field that the op does not use is zero. -/
def opFormed (w : BitVec 32) : Bool :=
  match opCode w with
  | 0x01 | 0x02 => opA w == 0 && opW w == 0
  | 0x03 | 0x05 => opImm w < 16 && opW w == 0
  | 0x04 | 0x09 | 0x0a => opW w == 0
  | 0x06 => opImm w < 64 && opW w == 0
  | 0x07 | 0x08 | 0x11 => true
  | 0x0b | 0x0c | 0x12 | 0x14 => opA w == 0 && opD w == 0 && opW w == 0
  | 0x0d => opImm w == 0
  | 0x0e => opImm w < 16 && opD w == 0 && opW w == 0 && opA w ≤ 5
  | 0x0f | 0x13 => w.toNat / 64 == 0
  | 0x10 => opImm w == 0 && opW w == 0
  | _ => false

/-- The op writes a queue register. -/
def opWrites (w : BitVec 32) : Bool :=
  let c := opCode w
  (1 ≤ c && c ≤ 7) || c == 0x0d || c == 0x10

/-- The windows that an op uses. -/
def opWindows (w : BitVec 32) : List Nat :=
  match opCode w with
  | 0x07 | 0x08 | 0x0d | 0x11 => [opW w]
  | 0x0e => [opImm w / 4 % 4, opImm w % 4]
  | _ => []

/-- The latest `setlc` before an op. -/
def setlcBefore (p : List (BitVec 32)) (i : Nat) : Option Nat := ((List.range i).filter fun j => opCode (p.getD j 0) == 0x0b).getLast?

/-- The ops of a loop body, when the op is a `loop`. -/
def loopBody (p : List (BitVec 32)) (i : Nat) : List Nat :=
  if opCode (p.getD i 0) = 0x0c then (List.range i).filter fun j => i - opImm (p.getD i 0) ≤ j else []

/-- The op at an index passes every check of a program that has these windows. -/
def opAccepted (win : Vector (Word × Word) 4) (p : List (BitVec 32)) (i : Nat) : Bool :=
  let w := p.getD i 0
  let c := opCode w
  let imm := opImm w
  opFormed w && (!opWrites w || opD w < 8) &&
  (!(c == 0x09 || c == 0x0a) || (1 ≤ imm && i + 1 + imm < p.length)) &&
  (c != 0x0b || (1 ≤ imm && imm ≤ 255)) &&
  (c != 0x0c || (imm ≤ i && (setlcBefore p i).any fun j => j < i - imm)) &&
  (!(c == 0x0b || c == 0x0c) || (List.range p.length).all fun j => !(loopBody p j).contains i) &&
  (opWindows w).all fun k => (win.getD k (0, 0)).2 != 0

/-- The first op that fails a check. -/
def firstBad (win : Vector (Word × Word) 4) (p : List (BitVec 32)) : Option Nat :=
  (List.range p.length).find? fun i => !opAccepted win p i

/-- Fields of a descriptor are in range, the ring aligned and the windows of whole words; what follows where they are not is the model's
(DESIGN CHOICE, log 35). -/
def HostQueue.formed (q : HostQueue) : Bool :=
  1 ≤ q.lgn && q.lgn ≤ 16 && q.vec ≤ 63 && 1 ≤ q.plen && q.plen ≤ 256 && q.ring.toNat % 64 ≤ 1 &&
  q.win.toList.all fun e => e.2.toNat % 8 == 0

/-- The `err` field: a code and the index of an op. -/
def errOf (code op : Nat) : Nat := code % 2 ^ 16 + op % 2 ^ 16 * 2 ^ 16

/-! ## Events on descriptors and doorbells (R352, R353) -/

/-- The program of a queue as its words. -/
def programOf (l : List Byte) : List (BitVec 32) := (List.range (l.length / 4)).map fun i => BitVec.ofNat 32 (le l (4 * i) 4)

/-- QUEUE_ENABLE: the program is read and checked. -/
def State.queueEnable (s : State) (fn q : Nat) : State :=
  match s.queue? fn q with
  | .none => s
  | .some q =>
    if q.enable then s
    else
      let q := { q with enable := true, closing := false, b := Vector.replicate 8 0, active := false, wait := .none }
      if !q.formed then s.setQueue { q with st := 4 }
      else match s.queueRead q (hostBit q.prog) (baseOf q.prog) (4 * q.plen) with
        | .none => s.setQueue { q with st := 4, err := errOf 0xfff2 0 }
        | .some (s, l) =>
          let p := programOf l
          match firstBad q.win p with
          | .some i => s.setQueue { q with st := 4, err := errOf 0 i }
          | .none => s.setQueue { q with st := 0, ops := p }

def execQueueEnable (fn q : Nat) (s : State) : Host.Outcome State Fault Refusal := .next (s.queueEnable fn q)

/-- A queue at a packet boundary: a disable that waits takes effect. -/
def HostQueue.boundary (q : HostQueue) : HostQueue :=
  if q.closing then { q with enable := false, closing := false, st := if q.st = 3 ∨ q.st = 4 then q.st else 0 } else q

/-- QUEUE_DISABLE takes effect at the next packet boundary. -/
def State.queueDisable (s : State) (fn q : Nat) : State :=
  match s.queue? fn q with
  | .none => s
  | .some q =>
    if !q.enable then s
    else
      let q := { q with closing := true }
      s.setQueue (if q.active then q else q.boundary)

def execQueueDisable (fn q : Nat) (s : State) : Host.Outcome State Fault Refusal := .next (s.queueDisable fn q)

/-- QUEUE_RESET of a queue whose enable is clear. -/
def State.queueReset (s : State) (fn q : Nat) : State :=
  match s.queue? fn q with
  | .none => s
  | .some q => if q.enable then s else s.setQueue { q with st := 0, head := 0 }

def execQueueReset (fn q : Nat) (s : State) : Host.Outcome State Fault Refusal := .next (s.queueReset fn q)

/-- The eight bytes of a descriptor at an offset take a value; read-only fields keep theirs. -/
def HostQueue.write (q : HostQueue) (off : Nat) (v : Word) : HostQueue :=
  match off / 8 with
  | 0 => { q with ring := v }
  | 1 => { q with lgn := field v 0 8, vec := field v 8 8, ctx := field v 32 32 }
  | 2 => { q with prog := v }
  | 3 => { q with plen := field v 0 16 }
  | n =>
    if 4 ≤ n ∧ n < 12 then
      let i := (n - 4) / 2
      let e := q.win.getD i (0, 0)
      { q with win := q.win.setIfInBounds i (if n % 2 = 0 then (v, e.2) else (e.1, v)) }
    else q

/-- QUEUE_DESCRIPTOR_WRITE: ignored while enable is set. -/
def State.descriptorWrite (s : State) (fn q off : Nat) (v : Word) : State :=
  match s.queue? fn q with
  | .none => s
  | .some q => if q.enable ∨ off % 8 ≠ 0 then s else s.setQueue (q.write off v)

def execQueueDescriptorWrite (fn q off : Nat) (val : Word) (s : State) : Host.Outcome State Fault Refusal :=
  .next (s.descriptorWrite fn q off val)

/-- DOORBELL_WRITE stores the tail. -/
def State.doorbell (s : State) (fn q : Nat) (v : Word) : State :=
  match s.queue? fn q with
  | .none => s
  | .some q => s.setQueue { q with tail := field v 0 16 }

def execDoorbellWrite (fn q : Nat) (val : Word) (s : State) : Host.Outcome State Fault Refusal := .next (s.doorbell fn q val)

/-! ## BAR0 (R350, R352) -/

/-- The bytes of a queue's descriptor as the host reads them. -/
def HostQueue.descriptor (q : HostQueue) : List Byte :=
  let ctl := q.enable.toNat
  let head := BitVec.ofNat 64 (q.lgn + q.vec * 2 ^ 8 + ctl * 2 ^ 16 + q.st * 2 ^ 24 + q.ctx * 2 ^ 32)
  let state := BitVec.ofNat 64 (q.plen + q.head * 2 ^ 16 + q.err * 2 ^ 32)
  ([q.ring, head, q.prog, state] ++ (q.win.toList.flatMap fun (e : Word × Word) => [e.1, e.2]) ++ List.replicate 4 0).flatMap wordBytes

/-- A byte of the function-control space, which no rule lays out. -/
opaque Config.functionControl : Nat → Nat → Nat → Byte

/-- A byte of a function's BAR0: function control, 16 descriptors of 128 bytes, and 16 doorbells, whose tails are read back. -/
def State.barByte (s : State) (fn off : Nat) : Option Byte :=
  if 64 < fn then .none
  else if off < 0x1000 then .some (Config.functionControl fn off s.turn)
  else if off < 0x1800 then (s.queueAt (fn * 16 + (off - 0x1000) / 128)).descriptor[off % 128]?
  else if 0x2000 ≤ off ∧ off < 0x2080 then
    (wordBytes (BitVec.ofNat 64 (s.queueAt (fn * 16 + (off - 0x2000) / 8)).tail))[off % 8]?
  else .none

/-! ## Packets (R353, R355) -/

/-- The interpreter works on no queue. -/
def State.leaveQueue (s : State) : State := { s with host := { s.host with current := .none } }

/-- A packet fails with a code, and its queue enters error. -/
def State.queueFail (s : State) (q : HostQueue) (code op : Nat) : State :=
  let t := s.setQueue { q with st := 3, err := errOf code op, active := false, wait := .none }.boundary
  if t.host.current = .some q.key then t.leaveQueue else t

/-- A packet ends. -/
def State.queueDone (s : State) (q : HostQueue) : State :=
  (s.setQueue { q with st := 0, head := (q.head + 1) % 2 ^ 16, active := false, wait := .none }.boundary).leaveQueue

/-- How a launch that a queue waits for stands: 1 completed, 2 stopped, 3 cancelled, 4 load failed, 0 no launch of the queue's
tenant. -/
def State.launchEnded (s : State) (q : HostQueue) (n : Nat) : Option Nat :=
  match s.dist.launches.find? fun l => l.num == n && s.queueSees q l.record.tenant with
  | .none => .some 0
  | .some l => match l.state with
    | .ended how => .some (how + 1)
    | _ => .none

/-- What a queue waits for has come. -/
def State.waitOver (s : State) (q : HostQueue) : Bool :=
  match q.wait with
  | .none => true
  | .dma => q.dmas.isEmpty
  | .room => q.dmas.length < 64
  | .posted => !q.dmas.any (·.dstHost)
  | .launch _ n => (s.launchEnded q n).isSome

/-- The queue has a packet that can be run: one in progress that does not wait, or a new one. In ERROR of its interface a queue
takes no new one. -/
def State.queueReady (s : State) (q : HostQueue) : Bool :=
  q.enable && q.st != 3 && q.st != 4 &&
  (if q.active then s.waitOver q else q.head != q.tail && !s.functionFails q.fn)

/-- The next ready queue in ascending order after the one taken last, wrapping. -/
def State.nextQueue (s : State) : Option HostQueue :=
  ((List.range 1040).map fun i => s.queueAt ((s.host.last + 1 + i) % 1040)).find? s.queueReady

/-- Loads the packet at a queue's head. -/
def State.loadPacket (s : State) (q : HostQueue) : State :=
  if 2 ^ q.lgn < (q.tail + 2 ^ 16 - q.head) % 2 ^ 16 then
    (s.setQueue { q with st := 3 }.boundary).leaveQueue
  else match s.queueRead q (hostBit q.ring) (baseOf q.ring + 64 * (q.head % 2 ^ q.lgn)) 64 with
    | .none => s.queueFail q 0xfff2 0
    | .some (s, l) =>
      s.setQueue { q with st := 1, active := true, pc := 0, steps := 0, wait := .none, p := Vector.ofFn fun i => leWord l (8 * i) }

/-- QUEUE_PACKET_START: an idle interpreter takes the next ready queue, with a new packet or with one that has waited. -/
def State.packetStart (s : State) : State :=
  if s.host.current.isSome then s
  else match s.nextQueue with
    | .none => s
    | .some q =>
      let s : State := { s with host := { s.host with current := .some q.key, last := q.key } }
      if q.active then s.setQueue { q with st := 1, wait := .none } else s.loadPacket q

def execQueuePacketStart (s : State) : Host.Outcome State Fault Refusal := .next s.packetStart

/-- PACKET_STEP_LIMIT: the 257th step of a packet would issue. -/
def State.stepLimit (s : State) (fn q : Nat) : State :=
  match s.queue? fn q with
  | .none => s
  | .some q =>
    if q.active && 256 ≤ q.steps && q.pc < q.ops.length && s.host.current == some q.key then s.queueFail q 0xfff0 q.pc else s

def execPacketStepLimit (fn q : Nat) (s : State) : Host.Outcome State Fault Refusal := .next (s.stepLimit fn q)

/-! ## Ops (R354) -/

/-- The queue whose packet is being run. -/
def State.running? (s : State) : Option HostQueue := (s.host.current.map s.queueAt).filter (·.active)

/-- What an op does to its queue. -/
inductive OpEnd where
  | go (s : State) (q : HostQueue) (pc : Nat)
  | wait (w : QueueWait)
  | fail (s : State) (code : Nat)
  | done

/-- Runs an op in the queue whose packet is being run; with none, nothing happens. A completed op is one step; one that waits
yields, and is executed again. -/
def State.runOp (s : State) (body : HostQueue → OpEnd) : Host.Outcome State Fault Refusal :=
  match s.running? with
  | .none => .next s
  | .some q =>
    match body q with
    | .go s q pc => .next (s.setQueue { q with pc := pc, steps := q.steps + 1 })
    | .wait w => .next (s.setQueue { q with st := 2, wait := w }).leaveQueue
    | .fail s code => .next (s.queueFail q code q.pc)
    | .done => .next (s.queueDone q)

/-- The value of an operand: b0 to b7, then the packet's words. -/
def HostQueue.r (q : HostQueue) (n : BitVec 4) : Word :=
  if n.toNat < 8 then q.b.getD n.toNat 0 else q.p.getD (n.toNat - 8) 0

/-- Writes a queue register. -/
def HostQueue.set (q : HostQueue) (d : BitVec 4) (v : Word) : HostQueue := { q with b := q.b.setIfInBounds d.toNat v }

/-- An op that only writes a register. -/
def State.opResult (s : State) (d : BitVec 4) (f : HostQueue → Word) : Host.Outcome State Fault Refusal :=
  s.runOp fun q => .go s (q.set d (f q)) (q.pc + 1)

def execQpLi (d : BitVec 4) (imm : BitVec 16) (s : State) : Host.Outcome State Fault Refusal :=
  s.opResult d fun _ => imm.signExtend 64

def execQpLsh (d : BitVec 4) (imm : BitVec 16) (s : State) : Host.Outcome State Fault Refusal :=
  s.opResult d fun q => q.r d <<< 16 ||| imm.setWidth 64

def execQpAdd (d a n : BitVec 4) (s : State) : Host.Outcome State Fault Refusal := s.opResult d fun q => q.r a + q.r n

def execQpAddi (d a : BitVec 4) (imm : BitVec 16) (s : State) : Host.Outcome State Fault Refusal :=
  s.opResult d fun q => q.r a + imm.signExtend 64

def execQpAnd (d a n : BitVec 4) (s : State) : Host.Outcome State Fault Refusal := s.opResult d fun q => q.r a &&& q.r n

def execQpShr (d a : BitVec 4) (sh : BitVec 6) (s : State) : Host.Outcome State Fault Refusal :=
  s.opResult d fun q => q.r a >>> sh.toNat

/-- The offset that `ld`, `st` and `signal` use. -/
def HostQueue.offset (q : HostQueue) (a : BitVec 4) (imm : BitVec 16) : Nat := (q.r a + imm.signExtend 64 * 8).toNat

def execQpLd (d a : BitVec 4) (w : BitVec 2) (imm : BitVec 16) (s : State) : Host.Outcome State Fault Refusal :=
  s.runOp fun q =>
    match q.range w (q.offset a imm) 8 with
    | .none => .fail s 0xfff1
    | .some (host, va) =>
      match s.queueRead q host va 8 with
      | .none => .fail s 0xfff2
      | .some (s, l) => .go s (q.set d (leWord l 0)) (q.pc + 1)

/-- Stores eight bytes to a window. A write to host memory leaves after those of earlier `dma`s (R356). -/
def State.opStore (s : State) (d a : BitVec 4) (w : BitVec 2) (imm : BitVec 16) : Host.Outcome State Fault Refusal :=
  s.runOp fun q =>
    match q.range w (q.offset a imm) 8 with
    | .none => .fail s 0xfff1
    | .some (host, va) =>
      if host && q.dmas.any (·.dstHost) then .wait .posted
      else match s.queueWrite q host va (wordBytes (q.r d)) with
      | .none => .fail s 0xfff2
      | .some s => .go s q (q.pc + 1)

def execQpSt (d a : BitVec 4) (w : BitVec 2) (imm : BitVec 16) (s : State) : Host.Outcome State Fault Refusal := s.opStore d a w imm

/-- `signal`: a store and a release; the accesses of the queue are performed in program order. -/
def execQpSignal (d a : BitVec 4) (w : BitVec 2) (imm : BitVec 16) (s : State) : Host.Outcome State Fault Refusal :=
  s.opStore d a w imm

/-- A branch over `imm` ops. -/
def State.opBranch (s : State) (imm : BitVec 16) (taken : HostQueue → Bool) : Host.Outcome State Fault Refusal :=
  s.runOp fun q => .go s q (if taken q then q.pc + 1 + imm.toNat else q.pc + 1)

def execQpBeq (d a : BitVec 4) (imm : BitVec 16) (s : State) : Host.Outcome State Fault Refusal :=
  s.opBranch imm fun q => q.r d == q.r a

def execQpBne (d a : BitVec 4) (imm : BitVec 16) (s : State) : Host.Outcome State Fault Refusal :=
  s.opBranch imm fun q => q.r d != q.r a

def execQpSetlc (imm : BitVec 16) (s : State) : Host.Outcome State Fault Refusal :=
  s.runOp fun q => .go s { q with counter := imm.toNat } (q.pc + 1)

/-- `loop`: back while the counter, one less, is not 0; a counter of 0 wraps as arithmetic does. -/
def execQpLoop (imm : BitVec 16) (s : State) : Host.Outcome State Fault Refusal :=
  s.runOp fun q =>
    let q := { q with counter := (q.counter + 2 ^ 64 - 1) % 2 ^ 64 }
    .go s q (if q.counter ≠ 0 then q.pc - imm.toNat else q.pc + 1)

/-- The context by whose tables a queue's launch reads: the queue's own, or, while no slot has that number, the one that the record makes
(R327, R339; DEDUCED, log 4). -/
def State.issuerCtx (s : State) (q : HostQueue) (raw : List Byte) : Option Ctx :=
  if (s.ctxOf? q.ctx).isNone then .some (recordOf raw).context else s.queueCtx q

/-- The issuer that a queue is: M from the physical function, S in its tenant from a virtual one. -/
def State.queueIssuer (s : State) (q : HostQueue) (raw : List Byte) : Issuer :=
  { reader := fun s va => (s.issuerCtx q raw).bind fun c => q.reader c s va
    tenant := s.queueTenant q, clamp := .none, via := q.ctx, vf := if q.fn = 0 then .none else .some q.fn, origin := q.key }

/-- `launch` from a queue: nothing traps, and a record that cannot be read gives −8. -/
def execQpLaunch (d a : BitVec 4) (w : BitVec 2) (s : State) : Host.Outcome State Fault Refusal :=
  s.runOp fun q =>
    match q.range w (q.r a).toNat 512 with
    | .none => .fail s 0xfff1
    | .some (host, va) =>
      let none' := OpEnd.go s (q.set d (BitVec.ofInt 64 (-8))) (q.pc + 1)
      if va % 64 ≠ 0 then none'
      else match s.queueRead q host va 512 with
        | .none => none'
        | .some (s, raw) =>
          let (s, v) := s.submit (s.queueIssuer q raw) raw
          .go s (q.set d v) (q.pc + 1)

/-- `dma`: the copy is started, when fewer than 64 are outstanding. -/
def execQpDma (a : BitVec 4) (ws wd : BitVec 2) (s : State) : Host.Outcome State Fault Refusal :=
  s.runOp fun q =>
    let n := (q.r (a + 2)).toNat
    match q.range wd (q.r a).toNat n, q.range ws (q.r (a + 1)).toNat n with
    | .some (dh, dv), .some (sh, sv) =>
      if 64 ≤ q.dmas.length then .wait .room
      else .go s { q with dmas := q.dmas ++ [⟨dv, dh, sv, sh, n, q.pc⟩] } (q.pc + 1)
    | _, _ => .fail s 0xfff1

def execQpDwait (s : State) : Host.Outcome State Fault Refusal :=
  s.runOp fun q => if q.dmas.isEmpty then .go s q (q.pc + 1) else .wait .dma

def execQpLwait (d a : BitVec 4) (s : State) : Host.Outcome State Fault Refusal :=
  s.runOp fun q =>
    match s.launchEnded q (q.r a).toNat with
    | .none => .wait (.launch d.toNat (q.r a).toNat)
    | .some v => .go s (q.set d (BitVec.ofNat 64 v)) (q.pc + 1)

def execQpIrq (imm : BitVec 16) (s : State) : Host.Outcome State Fault Refusal :=
  s.runOp fun q =>
    .go { s with trust := { s.trust with out := s.trust.out ++ [.interrupt q.fn ((q.vec + imm.toNat) % 64)] } } q (q.pc + 1)

def execQpDone (s : State) : Host.Outcome State Fault Refusal := s.runOp fun _ => .done

def execQpFail (imm : BitVec 16) (s : State) : Host.Outcome State Fault Refusal := s.runOp fun _ => .fail s imm.toNat

/-- DMA_COMPLETE: a queue's `k`-th outstanding `dma` is performed, or fails its queue. One that writes host memory comes after the earlier
ones that do: their writes are posted in program order (R356). -/
def State.dmaComplete (s : State) (fn q k : Nat) : State :=
  match s.queue? fn q with
  | .none => s
  | .some q =>
    match q.dmas[k]? with
    | .none => s
    | .some m =>
      if m.dstHost && (q.dmas.take k).any (·.dstHost) then s
      else
      let q := { q with dmas := q.dmas.eraseIdx k }
      match (s.queueRead q m.srcHost m.src m.bytes).bind fun (s, l) => s.queueWrite q m.dstHost m.dst l with
      | .none => s.queueFail q 0xfff2 m.op
      | .some s => s.setQueue q

def execDmaComplete (fn q k : Nat) (s : State) : Host.Outcome State Fault Refusal := .next (s.dmaComplete fn q k)

end Sys2Proof.Machine
end

