-- ==== Sys2Proof/Machine/Trust.lean ====
section
/-! DEFINITION. Functions and their interfaces, sessions, measurements and keys (R349 to R351, R367 to R370, R380). -/

namespace Sys2Proof.Machine

open Sys2Proof

/-! ## Functions (R350, R351) -/

def State.withTrust (s : State) (f : Trust → Trust) : State := { s with trust := f s.trust }

/-- Something leaves the device for a party outside it. -/
def State.emit (s : State) (o : Output) : State := s.withTrust fun t => { t with out := t.out ++ [o] }

/-- Changes a virtual function, 1 to 64. -/
def State.withVf (s : State) (n : Nat) (f : Vf → Vf) : State :=
  if n = 0 ∨ 64 < n then s
  else s.withTrust fun t => { t with vfs := storeBy Vf.num (f (s.vfOf n)) t.vfs }

/-- A party's session is open. -/
def State.inSession (s : State) (p : Party) : Bool := s.trust.sessions.contains p

/-- A session of the tenant to which a function is bound is open. -/
def State.ownSession (s : State) (vf : Nat) (t : TenantNo) : Bool := s.inSession (.tenant t) && (s.vfOf vf).tenant == some t

/-- Stops a context that is resident, as a partition stop does; one that is being placed comes to run first, and issues nothing. -/
def State.stopCtx (s : State) (c : Ctx) : State :=
  let here : State := match s.partOfCtx c.num with
    | .none => s
    | .some p =>
      if p.state != PartState.loading then s
      else if c.state == CtxState.restoring then s.contextRestore c.num else s.launchLoad p.launch
  match here.partOfCtx c.num with
  | .none => here
  | .some p =>
    if p.state == PartState.running || p.state == PartState.halting || p.state == PartState.held then here.stopPart p else here

/-- The contexts of a function. -/
def State.ctxsOfVf (s : State) (vf : Nat) : List Ctx := s.ctxs.filter fun c => c.vf == some vf

/-- The interface goes to ERROR: its resident contexts are stopped. -/
def State.tdiError (s : State) (vf : Nat) : State :=
  let s := s.withVf vf fun f => { f with tdi := .error }
  (s.ctxsOfVf vf).foldl State.stopCtx s

/-- The interface is locked or running. -/
def Vf.guarded (f : Vf) : Bool := f.tdi == .locked || f.tdi == .run

/-- TDI_CONFIG_VIOLATION: a write or key change that the state of the interface forbids is refused. -/
def State.configViolation (s : State) (vf : Nat) : State := if (s.vfOf vf).guarded then s.tdiError vf else s

def execTdiConfigViolation (vf : Nat) (s : State) : Host.Outcome State Fault Refusal := .next (s.configViolation vf)

/-- TDI_CONFIG_LOCK, TDI_RUN_START and TDISP_STOP_INTERFACE come from the session of the function's tenant. -/
def State.moveTdi (s : State) (vf : Nat) (t : TenantNo) (ok : Tdi → Bool) (goal : Tdi) : State :=
  if s.ownSession vf t && ok (s.vfOf vf).tdi then s.withVf vf fun f => { f with tdi := goal } else s

def execTdiConfigLock (vf : Nat) (tenant : TenantNo) (s : State) : Host.Outcome State Fault Refusal :=
  .next (s.moveTdi vf tenant (· == .unlocked) .locked)
def execTdiRunStart (vf : Nat) (tenant : TenantNo) (s : State) : Host.Outcome State Fault Refusal :=
  .next (s.moveTdi vf tenant (· == .locked) .run)
def execTdispStopInterface (vf : Nat) (tenant : TenantNo) (s : State) : Host.Outcome State Fault Refusal :=
  .next (s.moveTdi vf tenant (fun _ => true) .unlocked)

/-- Ends the launch of a context as `lcancel` does, for no thread that waits; one whose end is not final yet is released with it. -/
def State.discardCtx (s : State) (c : Ctx) : State :=
  match s.launchRec c.launch with
  | .none => s
  | .some l =>
    if c.state = .free then s
    else (s.withLaunch l.num fun l => { l with discarded := true }).cancelLaunch l .none |>.1

/-- FUNCTION_LEVEL_RESET. -/
def State.functionReset (s : State) (vf : Nat) : State :=
  let s := s.withVf vf fun f => { f with tdi := .unlocked }
  (s.ctxsOfVf vf).foldl State.discardCtx s

def execFunctionLevelReset (vf : Nat) (s : State) : Host.Outcome State Fault Refusal := .next (s.functionReset vf)

/-- NON_IDE_REQUEST: completed with Unsupported Request while the interface runs. -/
def execNonIdeRequest (vf : Nat) (s : State) : Host.Outcome State Fault Refusal :=
  .next (if (s.vfOf vf).tdi = .run then s.emit (.unsupported vf) else s)

/-- VF_BINDING: refused, as a violation, while the interface is locked or running. -/
def State.bindVf (s : State) (vf : Nat) (t : TenantNo) : State :=
  if (s.vfOf vf).guarded then (if (s.vfOf vf).tenant = some t then s else s.tdiError vf)
  else if vf = 0 ∨ 64 < vf then s
  else (s.withVf vf fun f => { f with tenant := some t }).withTrust fun r => { r with measured := r.measured ++ [.binding vf t] }

def execVfBinding (vf : Nat) (tenant : TenantNo) (s : State) : Host.Outcome State Fault Refusal := .next (s.bindVf vf tenant)

/-- VTIME_SET, while no context of the function is resident. -/
def State.setVtime (s : State) (vf : Nat) (o m : Word) : State :=
  if (s.ctxsOfVf vf).any fun c => (s.partOfCtx c.num).isSome then s
  else s.withVf vf fun f => { f with offset := o, scale := m }

def execVtimeSet (vf : Nat) (o m : Word) (s : State) : Host.Outcome State Fault Refusal := .next (s.setVtime vf o m)

/-- A function other than `fn` holds the stream. -/
def State.streamTaken (s : State) (fn stream : Nat) : Bool :=
  (fn != 0 && s.trust.streams.any fun e => e.1 == stream) ||
  s.trust.vfs.any fun f => f.num != fn && f.streams.any fun e => e.1 == stream

/-- Streams with the key of one of them replaced. -/
def newStream (l : List (Nat × Key256)) (stream : Nat) (key : Key256) : List (Nat × Key256) :=
  (l.filter fun e => e.1 != stream) ++ [(stream, key)]

/-- The operator's session programs a key over the physical function; a stream of a locked or running interface is not its to change
(R351). -/
def State.programPfKey (s : State) (stream : Nat) (key : Key256) : State :=
  let hit := (s.trust.vfs.filter fun f => f.guarded && f.streams.any fun e => e.1 == stream).map (·.num)
  if !s.inSession .operator then s
  else if hit ≠ [] then hit.foldl State.tdiError s
  else if s.streamTaken 0 stream then s
  else s.withTrust fun t => { t with streams := newStream t.streams stream key }

/-- IDE_KM_KEY_PROGRAM: a key for the link stream, number 0, or one of eight selective streams, 1 to 8 (the numbers are PRESUMED, log
34). On a locked or running interface only its tenant's own session may change one. -/
def State.programKey (s : State) (vf stream : Nat) (key : Key256) (t : TenantNo) : State :=
  if 9 ≤ stream then s
  else if vf = 0 then s.programPfKey stream key
  else if !s.ownSession vf t then (if (s.vfOf vf).guarded then s.tdiError vf else s)
  else if s.streamTaken vf stream then s
  else s.withVf vf fun f => { f with streams := newStream f.streams stream key }

def execIdeKmKeyProgram (fn stream : Nat) (key : Key256) (tenant : TenantNo) (s : State) : Host.Outcome State Fault Refusal :=
  .next (s.programKey fn stream key tenant)

/-! ## Sessions and measurements (R367, R368) -/

/-- SPDM_SESSION_START: the operator's, or one of up to 64 tenants', each over a function bound to it. The key exchange takes one of the
device key's signatures, and with none left it is an error (PRESUMED of SPDM 1.3, log 34). -/
def State.sessionStart (s : State) (p : Party) : State :=
  let ok := match p with
    | .operator => true
    | .tenant t => (s.trust.vfs.any fun f => f.tenant == some t) && (s.trust.sessions.filter (· != .operator)).length < 64
  if s.inSession p || !ok then s
  else if s.trust.signatures = 0 then s.emit (.unsigned p)
  else s.withTrust fun t => { t with sessions := t.sessions ++ [p], signatures := t.signatures - 1 }

def execSpdmSessionStart (party : Party) (s : State) : Host.Outcome State Fault Refusal := .next (s.sessionStart party)

/-- What a party sees of a measurement index. -/
def State.measuredFor (s : State) (p : Party) (index : Nat) : List Measured :=
  s.trust.measured.filter fun m => match m, p with
    | .launch t _ _ _ _, .tenant u => index == 3 && t == u
    | .launch _ _ _ _ _, .operator => false
    | _, _ => index == 2

/-- GET_MEASUREMENTS: the index asked for, signed; with no signature left, an error. -/
def State.getMeasurements (s : State) (p : Party) (index : Nat) : State :=
  if !s.inSession p then s
  else if s.trust.signatures = 0 then s.emit (.measurements p .none [] false)
  else
    (s.withTrust fun t => { t with signatures := t.signatures - 1 }).emit
      (.measurements p (if index = 1 then s.plant.firmware else .none) (s.measuredFor p index) true)

def execGetMeasurements (party : Party) (index : Nat) (s : State) : Host.Outcome State Fault Refusal :=
  .next (s.getMeasurements party index)

/-! ## Keys (R369, R370) -/

/-- A context that names the slot is resident, saving or restoring. -/
def State.slotInUse (s : State) (slot : Nat) : Bool :=
  s.ctxs.any fun c => c.key == slot && (c.state == .restoring || (s.partOfCtx c.num).isSome)

/-- The status of KEY_DELIVER. -/
def State.keyStatus (s : State) (t : TenantNo) (slot : Nat) (key : Option Key256) : Nat :=
  if s.trust.keys.any fun k => k.slot == slot && k.tenant != t then 1
  else if s.slotInUse slot then 2
  else if key.isNone then 3 else 0

/-- KEY_DELIVER: no key stands for one whose unwrapping fails. -/
def State.keyDeliver (s : State) (t : TenantNo) (slot : Nat) (key : Option Key256) : State :=
  if !s.inSession (.tenant t) then s
  else
    let st := s.keyStatus t slot key
    let done : State := match st, key with
      | 0, .some k => s.withTrust fun r => { r with keys := r.keys.filter (fun e => e.slot != slot) ++ [⟨slot, t, k, 0⟩] }
      | _, _ => s
    done.emit (.status (.tenant t) st)

def execKeyDeliver (tenant : TenantNo) (slot : BitVec 8) (key : Option Key256) (s : State) : Host.Outcome State Fault Refusal :=
  .next (s.keyDeliver tenant slot.toNat key)

/-- POLICY_KEY. -/
def State.policyKey (s : State) (t : TenantNo) (key : List Byte) : State :=
  if !s.inSession (.tenant t) then s
  else s.withTrust fun r => { r with policyKeys := r.policyKeys.filter (fun e => e.1 != t) ++ [(t, key)] }

def execPolicyKey (tenant : TenantNo) (key : List Byte) (s : State) : Host.Outcome State Fault Refusal := .next (s.policyKey tenant key)

/-- What the operator's status reports: the signatures that the device key has left, and of each link whether it is down, whether it runs at
half its rate, and the lanes moved (R360, R367). -/
def State.operatorStatus (s : State) : Nat × List (Nat × Bool × Bool × List Nat) :=
  (s.trust.signatures, s.fabric.links.map fun l => (l.port, l.down, l.half, l.swapped))

/-- SESSION_END: launches end as `lcancel` ends them; the slot of a context whose partition has still to be released goes with it. -/
def State.sessionEnd (s : State) (t : TenantNo) : State :=
  if !s.inSession (.tenant t) then s
  else
    let mine := s.ctxs.filter fun c => c.tenant == t
    let s := mine.foldl State.discardCtx s
    let gone := fun (n : CtxNo) => mine.any fun c => c.num == n
    { s with
      ctxs := (s.ctxs.filter fun c => c.tenant != t || (s.partOfCtx c.num).isSome).map fun c =>
        if c.tenant = t then { c with leaving := true } else c
      switches := s.switches.filter fun q => !gone q.ctx
      oper := { s.oper with rings := s.oper.rings.filter fun r => !gone r.ctx }
      trust := { s.trust with
        sessions := s.trust.sessions.filter (· != .tenant t), keys := s.trust.keys.filter fun k => k.tenant != t
        policyKeys := s.trust.policyKeys.filter fun e => e.1 != t } }

def execSessionEnd (tenant : TenantNo) (s : State) : Host.Outcome State Fault Refusal := .next (s.sessionEnd tenant)

end Sys2Proof.Machine
end

