-- ==== Sys2Proof/Machine/Links.lean ====
section
/-! DEFINITION. The fabric map, and the links: lanes, keys, failed flits, and freeze markers (R357 to R364, R382). -/

namespace Sys2Proof.Machine

open Sys2Proof

/-! ## The fabric map (R359, R361, R362) -/

/-- The minimum of flit slots of a tenant: 8 where the map names none. -/
def slotMinimum (m : FabricMap) (t : TenantNo) : Nat := ((m.limits.find? fun l => l.tenant == t).map (·.slots)).getD 8

/-- Tenants with a resident context. -/
def State.residentTenants (s : State) : List TenantNo := (s.parts.map (·.tenant)).eraseDups

/-- A launch that has not ended. -/
def State.launched (s : State) : Bool := s.dist.launches.any fun l => match l.state with
  | .ended _ => false
  | _ => true

/-- A map that the device takes: extents in range, minimums of at most 32, and together at most 512 for the resident tenants. While a
launch has not ended the package keeps its number, which no thread sees change (R9; DEDUCED, log 53). -/
def State.mapAccepted (s : State) (m : FabricMap) : Bool :=
  (!s.launched || m.self == s.pkg) &&
  ((List.range 4).all fun i => 1 ≤ m.extents.getD i 0 && m.extents.getD i 0 ≤ (if i < 2 then 4 else 16)) && m.self < 4096 &&
  (m.limits.all fun l => l.slots ≤ 32) && (s.residentTenants.map (slotMinimum m)).sum ≤ 512

/-- FABRIC_MAP_UPDATE: links that are down stay so. -/
def State.mapUpdate (s : State) (m : FabricMap) : State :=
  if !s.mapAccepted m then s
  else
    let own := (s.fabric.links.filter (·.down)).map fun l => (m.self, l.port)
    { s with
      fabric := { s.fabric with map := { m with down := m.down ++ own } }, pkg := m.self
      trust := { s.trust with measured := s.trust.measured ++ [.map m] } }

def execFabricMapUpdate (map : FabricMap) (s : State) : Host.Outcome State Fault Refusal := .next (s.mapUpdate map)

/-! ## Lanes (R360) -/

/-- The sequence numbers of the flits that the replay store of a direction holds: sent, and not acknowledged by the other end (R361). -/
opaque Config.replayStore : Nat → Nat → List Nat

/-- The request flit of an operation, one of a core's outstanding ones, is still in the replay store of a direction. -/
opaque Config.unacknowledged : Nat → CoreId → Nat → Bool

/-- Operations whose request flits the replay store of a direction holds when it goes down fail as unreachable (R364). -/
def State.failUnacknowledged (s : State) (p : Nat) : State :=
  s.cores.foldl (fun s k => (s.remoteOps k.id).zipIdx.reverse.foldl (fun s ((op, _), i) =>
    let lost := s.portFrom k.id (k.remotePa op) == .some p && Config.unacknowledged s.turn k.id i
    if lost && (s.remoteOps k.id).any (·.1 == op) then s.remoteArrives k.id op (.some .unreachable) else s) s) s

/-- A direction goes down: no route leads over it any more (R359, R364). -/
def State.linkDown (s : State) (p : Nat) : State :=
  let s := s.failUnacknowledged p
  let s := s.withLink p fun l => { l with down := true, weak := .none, held := false }
  { s with fabric := { s.fabric with map := { s.fabric.map with down := s.fabric.map.down ++ [(s.fabric.map.self, p)] } } }

/-- Changes a link that exists and is up. -/
def State.onLink (s : State) (p : Nat) (f : State → State) : State := if p < 12 ∧ !(s.linkOf p).down then f s else s

/-- LANE_WEAK: too many corrected errors in the window, or too small an eye; the link waits for a quiet point. -/
def State.laneWeak (s : State) (p lane count margin : Nat) : State :=
  s.onLink p fun s =>
    let l := s.linkOf p
    let m := s.fabric.map
    if l.weak.isSome ∨ l.swapped.contains lane ∨ 9 ≤ lane ∨ (count ≤ m.threshold ∧ m.floor ≤ margin) then s
    else s.withLink p fun l => { l with weak := .some lane, weakAt := s.nCycles (p / 3) }

def execLaneWeak (link lane count margin : Nat) (s : State) : Host.Outcome State Fault Refusal :=
  .next (s.laneWeak link lane count margin)

/-- QUIET_POINT_TIMEOUT: with none in 2^16 N-cycles, request injection is held. A frozen peer suspends this and the other time-outs of
the link. -/
def State.quietTimeout (s : State) (p : Nat) : State :=
  s.onLink p fun s =>
    let l := s.linkOf p
    let now := s.nCycles (p / 3)
    if l.weak.isSome ∧ l.frozenAt.isNone ∧ l.weakAt + 2 ^ 16 ≤ now then s.withLink p fun l => { l with held := true, heldAt := now } else s

def execQuietPointTimeout (link : Nat) (s : State) : Host.Outcome State Fault Refusal := .next (s.quietTimeout link)

/-- LANE_SWAP_MARKER, at a quiet point, when the replay store is empty: the lane moves to the spare, the link goes to half its rate, or it goes down. -/
def State.laneSwap (s : State) (p : Nat) : State :=
  s.onLink p fun s =>
    let l := s.linkOf p
    match l.weak.filter fun _ => (Config.replayStore s.turn p).isEmpty with
    | .none => s
    | .some lane =>
      match l.swapped.length with
      | 0 => s.withLink p fun l => { l with swapped := [lane], weak := .none, held := false }
      | 1 => s.withLink p fun l => { l with swapped := l.swapped ++ [lane], half := true, weak := .none, held := false }
      | _ => s.linkDown p

def execLaneSwapMarker (link : Nat) (s : State) : Host.Outcome State Fault Refusal := .next (s.laneSwap link)

/-! ## Keys (R363, R364) -/

/-- REKEY_DUE: the transmitter has reached 2^36 − 2^20 invocations under its key. -/
def State.rekeyDue (s : State) (p : Nat) : State :=
  s.onLink p fun s => s.withLink p fun l => { l with rekeyDue := true, count := max l.count (2 ^ 36 - 2 ^ 20) }

def execRekeyDue (link : Nat) (s : State) : Host.Outcome State Fault Refusal := .next (s.rekeyDue link)

/-- LINK_KEY_UPDATE: the link's session has given the next key. -/
def State.linkKeyUpdate (s : State) (p : Nat) (k : Key256) : State :=
  s.onLink p fun s => s.withLink p fun l => { l with fetched := .some k }

def execLinkKeyUpdate (link : Nat) (key : Key256) (s : State) : Host.Outcome State Fault Refusal := .next (s.linkKeyUpdate link key)

/-- The nonce of an invocation of a link direction: the map's identifier of the direction and the counter, each with its most
significant byte first (R363). -/
def State.linkIv (s : State) (p count : Nat) : List Byte :=
  bigEndian 4 (((s.fabric.map.directions.find? fun e => e.1 == p).map (·.2)).getD 0) ++ bigEndian 8 count

/-- A flit leaves under the key slot in use and the next value of its counter, which the flits of the messages before have moved on
by a number that the spec does not give. -/
def State.sendFlit (s : State) (p : Nat) : State :=
  let l := s.linkOf p
  let n := max l.count (Config.flitsSent s.turn)
  ({ s with turn := s.turn + 1 } : State).withLink p (fun l => { l with count := n + 1 }) |>.emit (.flit p l.slot (s.linkIv p n))

/-- LINK_KEY_LOAD: the next key goes into the idle slot, and after the marker under the old key the new slot is used, its counter
from 0. -/
def State.linkKeyLoad (s : State) (p : Nat) : State :=
  s.onLink p fun s => match (s.linkOf p).fetched with
    | .none => s
    | .some k => ((if (s.linkOf p).exhausted.isSome then s else s.sendFlit p)).withLink p fun l => { l with
        keys := l.keys.setIfInBounds (1 - l.slot) (.some k), slot := 1 - l.slot, count := 0, fetched := .none, rekeyDue := false
        exhausted := .none }

def execLinkKeyLoad (link : Nat) (s : State) : Host.Outcome State Fault Refusal := .next (s.linkKeyLoad link)

/-- KEY_SWITCH_MARKER at the receiver: the old slot is retired. -/
def State.keySwitch (s : State) (p : Nat) : State :=
  s.onLink p fun s => s.withLink p fun l => { l with retired := .some l.rxSlot, rxSlot := 1 - l.rxSlot }

def execKeySwitchMarker (link : Nat) (s : State) : Host.Outcome State Fault Refusal := .next (s.keySwitch link)

/-- KEY_EXHAUSTED: 2^36 invocations, and no key loaded. -/
def State.keyExhausted (s : State) (p : Nat) : State :=
  s.onLink p fun s => s.withLink p fun l => { l with count := 2 ^ 36, exhausted := .some (l.exhausted.getD s.time) }

def execKeyExhausted (link : Nat) (s : State) : Host.Outcome State Fault Refusal := .next (s.keyExhausted link)

/-- KEY_DOWN_TIMEOUT: no key within 10 ms of that. -/
def State.keyDown (s : State) (p : Nat) : State :=
  s.onLink p fun s =>
    if (s.linkOf p).frozenAt.isNone ∧ (s.linkOf p).exhausted.any (fun t => t + 10 ^ 7 ≤ s.time) then s.linkDown p else s

def execKeyDownTimeout (link : Nat) (s : State) : Host.Outcome State Fault Refusal := .next (s.keyDown link)

/-- FLIT_AUTH_FAIL: the flit is discarded and a replay asked for; the third in a row takes the link down. -/
def State.flitFail (s : State) (p seq : Nat) : State :=
  s.onLink p fun s =>
    if 2 ≤ (s.linkOf p).fails then s.linkDown p
    else s.withLink p fun l => { l with fails := l.fails + 1, asked := .some seq }

def execFlitAuthFail (link seq : Nat) (s : State) : Host.Outcome State Fault Refusal := .next (s.flitFail link seq)

/-- REPLAY_REQUEST: a flit that the replay store holds is sent again under the current slot and a fresh counter value, when the direction
sends flits. -/
def State.replay (s : State) (p seq : Nat) : State :=
  s.onLink p fun s =>
    if (s.linkOf p).exhausted.isSome ∨ !(Config.replayStore s.turn p).contains seq then s else s.sendFlit p

def execReplayRequest (link seq : Nat) (s : State) : Host.Outcome State Fault Refusal :=
  .next (if seq < 2 ^ 64 then s.replay link seq else s)

/-! ## Freeze markers from a peer (R382) -/

/-- A time-out that began at `t`, after a suspension from `since` until now. -/
def State.afterFreeze (s : State) (since t : Nat) : Nat := t + (s.time - max since t)

/-- Adds the time for which a link was suspended to the start of every operation that left by it. -/
def State.shiftOps (s : State) (p since : Nat) : State :=
  { s with cores := s.cores.map fun k =>
    let by' := fun (pa t : Nat) => if isRemote s.pkg pa && s.portFrom k.id pa == some p then s.afterFreeze since t else t
    { k with
      loads := k.loads.map fun l => { l with sentAt := by' (((l.elems.find? s.awayElem).map (·.1.pa)).getD 0) l.sentAt }
      stores := k.stores.map fun e => { e with sent := e.sent.map (by' e.acc.pa) }
      atomics := k.atomics.map fun a => { a with sentAt := by' a.acc.pa a.sentAt }
      engine := k.engine.map fun e => { e with sentAt := by' e.pa e.sentAt } } }

/-- FREEZE_MARKER: the peer at the end of a link has frozen. -/
def State.peerFroze (s : State) (p : Nat) : State :=
  s.onLink p fun s => s.withLink p fun l => { l with
    frozenAt := .some (l.frozenAt.getD s.time), frozenCycle := if l.frozenAt.isSome then l.frozenCycle else s.nCycles (p / 3) }

def execFreezeMarker (link : Nat) (s : State) : Host.Outcome State Fault Refusal := .next (s.peerFroze link)

/-- The time-outs of a link go on from where they stood. -/
def State.thaw (s : State) (p : Nat) : State :=
  match (s.linkOf p).frozenAt with
  | .none => s
  | .some t => (s.shiftOps p t).withLink p fun l => { l with
      frozenAt := .none, exhausted := l.exhausted.map (s.afterFreeze t)
      weakAt := l.weakAt + (s.nCycles (p / 3) - max l.frozenCycle l.weakAt) }

def execThawMarker (link : Nat) (s : State) : Host.Outcome State Fault Refusal := .next (s.thaw link)

/-- FREEZE_MARKER_EXPIRY: 10 s without a thaw marker. -/
def State.markerExpiry (s : State) (p : Nat) : State :=
  if (s.linkOf p).frozenAt.any fun t => t + 10 ^ 10 ≤ s.time then s.thaw p else s

def execFreezeMarkerExpiry (link : Nat) (s : State) : Host.Outcome State Fault Refusal := .next (s.markerExpiry link)

end Sys2Proof.Machine
end

