-- ==== Sys2Proof/Machine/Plant.lean ====
section
/-! DEFINITION. Firmware, reset, freeze, the power cap and monitoring, and the repair of memory (R365, R366, R382 to R386,
R418, R421 to R423). -/

namespace Sys2Proof.Machine

open Sys2Proof

/-! ## Firmware and reset (R365, R366, R421, R422) -/

/-- The bytes of a digest, first byte highest. -/
def digestList (d : Digest) : List Byte := (List.range 32).map fun i => BitVec.ofNat 8 (d.toNat / 256 ^ (31 - i))

/-- An image is valid: its signature verifies under the key that is fused, and its security version reaches the minimum. -/
def State.validImage (s : State) (f : FirmwareImage) : Bool :=
  sha256 f.key == Config.fusedKey && hssVerify firmwareRule f.key (digestList f.digest) f.signature && s.plant.fused ≤ f.security

/-- The valid image of higher version of the two in flash; of two of one version that of slot 0 (DESIGN CHOICE, log 15). -/
def State.bootImage (s : State) : Option FirmwareImage :=
  match s.plant.flash[0].filter s.validImage, s.plant.flash[1].filter s.validImage with
  | .some a, .some b => .some (if a.version < b.version then b else a)
  | a, b => a.or b

/-- The clusters that a self-test leaves unavailable: single ones, and those of whole dies. -/
def bootUnavailable (b : BootInputs) : List ClusterId :=
  b.clusters ++ b.dies.flatMap fun d => (List.range 256).map fun c => d * 256 + c

/-- A package reset. What the flash, the fuses, the log of trips and the device's identity hold stays, and after a thermal trip
the context slots with their save counters. -/
def State.packageReset (s : State) (b : BootInputs) : State :=
  let p := s.plant
  let f := s.bootImage
  { State.reset with
    agenda := s.agenda, turn := s.turn, saves := s.saves
    ctxs := if p.off then s.ctxs else []
    images := if p.off then s.images else []
    trust := { State.reset.trust with signatures := s.trust.signatures }
    plant := { State.reset.plant with
      trips := p.trips, unread := p.unread, flash := p.flash, fused := p.fused, firmware := f, recovery := f.isNone
      recoveryStatus := p.recoveryStatus, unavailable := bootUnavailable b } }

def execPackageReset (boot : BootInputs) (s : State) : Host.Outcome State Fault Refusal := .next (s.packageReset boot)

/-- The flash slot that an accepted image is written to: an empty one, or the one of older version; of two of one version slot 0 (DESIGN
CHOICE, log 15). -/
def olderSlot (f : Vector (Option FirmwareImage) 2) : Nat :=
  match f[0], f[1] with
  | .none, _ => 0
  | _, .none => 1
  | .some a, .some b => if b.version < a.version then 1 else 0

/-- RECOVERY_DOORBELL: the image in the recovery buffer is checked; when it is accepted the device resets. -/
def State.recoveryDoorbell (s : State) (f : FirmwareImage) : State :=
  let p := s.plant
  if !p.recovery then s
  else if !s.validImage f then { s with plant := { p with recoveryStatus := 2 } }
  else
    let p := { p with recoveryStatus := 1, flash := p.flash.setIfInBounds (olderSlot p.flash) (.some f) }
    ({ s with plant := p } : State).packageReset (Config.selfTest s.turn)

def execRecoveryDoorbell (img : FirmwareImage) (s : State) : Host.Outcome State Fault Refusal := .next (s.recoveryDoorbell img)

/-- RAISE_SECURITY_VERSION: the running firmware raises the fused minimum to its own. -/
def State.raiseSecurity (s : State) : State :=
  match s.plant.firmware with
  | .none => s
  | .some f => { s with plant := { s.plant with fused := max s.plant.fused f.security } }

def execRaiseSecurityVersion (s : State) : Host.Outcome State Fault Refusal := .next s.raiseSecurity

/-! ## The cap and monitoring (R418, R423) -/

/-- SET_POWER_CAP: from 1,000 to 2,200 W, and a decision point. -/
def State.setCap (s : State) (w : Nat) : State :=
  if w < 1000 ∨ 2200 < w then s
  else
    ({ s with
      plant := { s.plant with cap := w }
      trust := { s.trust with measured := s.trust.measured ++ [.cap w] } } : State).powerDecision

def execSetPowerCap (watts : Nat) (s : State) : Host.Outcome State Fault Refusal := .next (s.setCap watts)

/-- PLDM_MONITOR: a sensor of the platform, the temperatures, and the log of trips, which counts as read. -/
def State.pldmMonitor (s : State) (n : Nat) : State :=
  let s := s.emit (.monitor n (Config.sensor n s.turn) s.plant.temps s.plant.trips s.alert)
  { s with plant := { s.plant with unread := false } }

def execPldmMonitor (sensor : Nat) (s : State) : Host.Outcome State Fault Refusal := .next (s.pldmMonitor sensor)

/-! ## Freeze (R382) -/

/-- The same marker leaves by every link that is up. -/
def State.sendMarkers (s : State) (frozen : Bool) : State :=
  ((List.range 12).filter fun p => !(s.linkOf p).down).foldl (fun s p => s.emit (.marker p frozen)) s

/-- FREEZE: every clock stops, and `time` with it. -/
def State.freeze (s : State) : State :=
  if s.plant.frozen.isSome ∨ s.plant.off then s
  else
    let s := s.sendMarkers true
    { s with plant := { s.plant with frozen := .some 0 } }

def execFreeze (s : State) : Host.Outcome State Fault Refusal := .next s.freeze

/-- UNFREEZE: within 10 s everything goes on; later the package is reset. -/
def State.unfreeze (s : State) : State :=
  match s.plant.frozen with
  | .none => s
  | .some t =>
    if t ≤ 10 ^ 10 then { s with plant := { s.plant with frozen := .none } }.sendMarkers false
    else s.packageReset (Config.selfTest s.turn)

def execUnfreeze (s : State) : Host.Outcome State Fault Refusal := .next s.unfreeze

/-! ## Corrected errors and repair (R384, R385) -/

/-- The unit that keeps the table of a location, with its die: memory controllers, then L2 slices, then clusters. -/
def errUnit : ErrLoc → Nat × Nat
  | .dramRow die ch _ _ => (die * 32 + ch, die)
  | .l2Way slice _ _ => (128 + slice, slice / 32)
  | .block cl _ => (256 + cl, cl / 256)

/-- The entry of a table that gives way when it is full: the one with the oldest first error. -/
def oldestEntry (l : List ErrEntry) : Option ErrEntry :=
  l.foldl (fun w e => match w with
    | .none => .some e
    | .some o => if e.first < o.first then .some e else .some o) .none

/-- CORRECTED_ERROR: the location is counted, and lasting at the fourth error within 2^30 D-cycles. -/
def State.correctedError (s : State) (loc : ErrLoc) : State :=
  let p := s.plant
  if p.repaired.contains loc then s
  else
    let (unit, die) := errUnit loc
    let now := s.dCycles die
    let mine := p.errors.filter fun e => e.unit == unit
    let fresh := (mine.find? fun e => e.loc == loc).filter fun e => now < e.first + 2 ^ 30
    let count := (fresh.map (·.count)).getD 0 + 1
    let first := (fresh.map (·.first)).getD now
    let rest := p.errors.filter fun e => e.loc != loc
    let full := 32 ≤ (rest.filter fun e => e.unit == unit).length
    let rest := if full then (match oldestEntry (rest.filter fun e => e.unit == unit) with
      | .none => rest
      | .some o => rest.filter fun e => e.loc != o.loc) else rest
    let s : State := { s with oper := { s.oper with corrected := s.oper.corrected + 1 } }
    if 4 ≤ count then
      { s with plant := { p with
          errors := p.errors.filter fun e => e.loc != loc
          lasting := if p.lasting.contains loc then p.lasting else p.lasting ++ [loc] } }
    else { s with plant := { p with errors := rest ++ [⟨unit, loc, first, count⟩] } }

def execCorrectedError (loc : ErrLoc) (s : State) : Host.Outcome State Fault Refusal := .next (s.correctedError loc)

/-- Two rows lie in one bank. -/
def sameBank : ErrLoc → ErrLoc → Bool
  | .dramRow d c b _, .dramRow d' c' b' _ => d == d' && c == c' && b == b'
  | _, _ => false

/-- A number for the bank of a row. -/
def bankKey : ErrLoc → Nat
  | .dramRow die ch bank _ => (die * 32 + ch) * 65536 + bank
  | _ => 0

/-- The location is repaired. -/
def State.markRepaired (s : State) (loc : ErrLoc) : State :=
  { s with plant := { s.plant with lasting := s.plant.lasting.filter (· != loc), repaired := s.plant.repaired ++ [loc] } }

/-- DRAM_ROW_REPAIR, which takes place in the bank's refresh slot: the row is copied to a spare and remapped, and reads the same. The
two slots that the bank is held for are timing (log 54). -/
def State.rowRepair (s : State) (loc : ErrLoc) : State :=
  match loc with
  | .dramRow _ _ _ _ =>
    if !s.plant.lasting.contains loc then s
    else if (s.plant.repaired.filter (sameBank loc)).length < Config.spareRows (bankKey loc) then s.markRepaired loc
    else
      let s := s.emit (.noSpare loc)
      { s with plant := { s.plant with lasting := s.plant.lasting.filter (· != loc) } }
  | _ => s

def execDramRowRepair (loc : ErrLoc) (s : State) : Host.Outcome State Fault Refusal := .next (s.rowRepair loc)

/-- L2_WAY_REPAIR: the way's lines are written back and invalidated, and the way disabled. The contexts whose tenants' tags it
held hear of it in the operator's fault records, with cause and address 0 (DESIGN CHOICE, log 40). -/
def State.wayRepair (s : State) (loc : ErrLoc) : State :=
  match loc with
  | .l2Way slice set way =>
    if !s.plant.lasting.contains loc then s
    else
      let held := s.lines.filter fun l => l.inWay slice set way
      let s := (s.ctxs.filter fun c => held.any fun l => l.tenant == c.tenant).foldl (fun s c => s.noteFault c.num 0 0) s
      ({ s with lines := s.lines.filter fun l => !l.inWay slice set way } : State).markRepaired loc
  | _ => s

def execL2WayRepair (loc : ErrLoc) (s : State) : Host.Outcome State Fault Refusal := .next (s.wayRepair loc)

/-- UNCORRECTED_ERROR: the block that holds the data is poisoned. -/
def State.uncorrectedError (s : State) (pa : Nat) : State :=
  if s.poison.contains (blockOf pa) then s else { s with poison := s.poison ++ [blockOf pa] }

def execUncorrectedError (pa : Nat) (s : State) : Host.Outcome State Fault Refusal := .next (s.uncorrectedError pa)

end Sys2Proof.Machine
end

