-- ==== Sys2Proof/Machine/Rotation.lean ====
section
/-! DEFINITION. Which thread of a core or a protocol processor issues, and how time passes for the threads (R2, R3, R14, R15, R17, R108,
R322, R375, R376). -/

namespace Sys2Proof.Machine

open Sys2Proof

/-- What a thread out of the rotation waits for is there (R108). -/
def State.roomOpen (s : State) (w : Who) : Room → Bool
  | .tasks => (s.coreOf w.core').tasks.length < 32
  | .calls =>
    let k := s.coreOf w.core'
    k.calls.length < 8 && (k.freeReply.isSome || (s.hartOf w).word.extractLsb' 8 5 == 0)
  | .walks va => (s.ctxOfCore w.core').any (fun x => s.walkToJoin (coreDie w.core') x va) || s.walkRoom (coreDie w.core')
  | .copies => s.copyRoom w.core'
  | .sends => s.sendRoom w.core'
  | .commands cl b => (s.bank cl b).queue.length < 16
  | .quiet sc => s.quiet w sc
  | .unused va => !s.inFlight (s.ctxNoOf w.core') (samePage va)
  | .recall => (s.scanOf w).all fun r =>
      r.left.any (fun e => (s.homeOf e.1 e.2).entry == 0 || s.canRecall e) || (r.left.isEmpty && !r.recalled.any s.recallPending)
  | .image n => (s.ctxOf? n).all fun c => match c.op with
      | .some o => !o.paused && (o.who == .some w || !s.opAlive o)
      | .none => (s.partOfCtx n).all fun p => c.state != .stop || s.still p
  | .launch n => (s.launchRec n).all fun l => (s.cancelLaunch l (.some w)).2.isSome

/-- The thread can issue: it holds its slot, and it is in the rotation, or what it waits for is there. -/
def State.canIssue (s : State) (h : Hart) : Bool :=
  h.life == .live && (match h.wait with
    | .none | .again | .full => true
    | .room r => s.roomOpen h.who r
    | .scalar i => !h.xe.getLsbD i || h.xr.getLsbD i
    | .vector j => !h.ve.getLsbD j || h.vr.getLsbD j
    | .event => !(s.coreOf h.who.core').queues[3].isEmpty
    | _ => false)

/-- The core's partition issues: it has been loaded, it is not stopped or on its way out, and no agreed time has come. -/
def State.coreIssues (s : State) (c : CoreId) : Bool :=
  (s.partOfCore c).any fun p => p.issues && !s.pastSwitch p.ctx

/-- The slot that issues: the first that can after the one that issued last, in every member of the core's gang (R15, R104). One
that an event interrupt goes to takes that first (R314, R317), and so does one with a debug stop to come (R378). -/
def State.nextSlot (s : State) (c : CoreId) : Option Nat :=
  let k := s.coreOf c
  if k.follower || !s.coreIssues c then .none
  else (searchOrder k.lastSlot k.threads).find? fun i =>
    (s.gangOf c).all fun m =>
      s.canIssue (s.hartOf (.core m i)) && !(s.hartOf (.core m i)).stopAsked && s.interruptSlot m != .some i

/-- The handler thread that issues. -/
def State.nextHandler (s : State) (p : PpId) : Option Nat :=
  (searchOrder (s.ppOf p).lastThread 8).find? fun t => s.canIssue (s.hartOf (.pp p t))

/-! ## Time passes (R2, R3) -/

/-- The destination is filled by a load or an engine (R108). -/
def State.filledByMemory (s : State) (c : CoreId) (slot : Nat) (d : Dest) : Bool :=
  let k := s.coreOf c
  (k.loads.any fun l => l.slot == slot && l.dest == d) ||
  (k.units.any fun u => u.slot == slot && u.dests.contains d) ||
  (k.mailbox.polls.any fun p => p.slot == slot && p.dest == d) ||
  (s.copies.any fun q => q.core == c && q.slot == slot && q.ticket == d) ||
  (s.arrays.any fun a => a.banks.toList.any fun b => b.queue.any fun m =>
    m.toCore == c && m.toSlot == slot && m.ticket == d)

/-- The class of a wait for something to free (R108). -/
def Room.message : Room → Bool
  | .tasks | .calls | .launch _ => true
  | _ => false

/-- A load of the slot that goes on until its join counter is zero or less is outstanding (R120). -/
def State.joins (s : State) (c : CoreId) (slot : Nat) : Bool := (s.coreOf c).loads.any fun l => l.slot == slot && l.counter

/-- The class under which a slot's V-cycle counts (R375): 0 issue, 1 memory, 2 message, 3 vacant. A thread whose register has been
filled, or what it waits for is there, is back in the rotation. -/
def State.rotationClass (s : State) (h : Hart) : Nat :=
  let c := h.who.core'
  let slot := h.who.slot'
  if h.life ≠ .live then 3
  else if h.wait = .full then 1
  else if s.canIssue h then 0
  else match h.wait with
    | .scalar i => if s.filledByMemory c slot (.scalar i) then 1 else 2
    | .vector j => if s.filledByMemory c slot (.vector j) then 1 else 2
    | .room r => if r.message then 2 else 1
    | .access => if s.joins c slot then 2 else 1
    | .walk _ _ | .tag _ | .sync _ _ _ _ | .atomic | .drain | .mabort _ _ _ _ _ => 1
    | _ => 2

/-- Adds V-cycles to a slot's counters. -/
def State.countHart (s : State) (cycles : Nat) (h : Hart) : Hart :=
  let i := s.rotationClass h
  { h with counters := h.counters.setIfInBounds i (h.counters.getD i 0 + BitVec.ofNat 48 cycles) }

/-- The thread is ready: in the rotation, and its instruction has not just been found unable to issue (R14; latencies are left out, log 3). -/
def State.ready (s : State) (h : Hart) : Bool := s.canIssue h && h.wait != .again && h.wait != .full

/-- The V-cycles of a core's slots and of its histogram, between two states. -/
def State.countCore (s : State) (cycles : Nat) (k : Core) : State :=
  if cycles = 0 then s
  else
    let hs := (List.range k.threads).map fun i => s.hartOf (.core k.id i)
    let n := (hs.filter s.ready).length
    (hs.foldl (fun t h => t.setHart (s.countHart cycles h)) s).withCore k.id fun k =>
      { k with ready := k.ready.setIfInBounds n (k.ready.getD n 0 + BitVec.ofNat 48 cycles) }

/-- Time goes on by a number of units: every domain counts its cycles at its own ratio, and every core those of its slots, as the
threads stood when it began. -/
def State.passTime (s : State) (dt : Nat) : State :=
  let t : State := { s with
    time := s.time + dt
    nTicks := Vector.ofFn fun d => s.nTicks[d] + 5 * s.dieClock d 2 * dt
    dTicks := Vector.ofFn fun d => s.dTicks[d] + 5 * s.dieClock d 3 * dt
    parts := s.parts.map fun p =>
      let g := clkOf p.clkgrant
      if !p.clocked then p
      else { p with
        mTicks := p.mTicks + 5 * g[0] * dt, vTicks := p.vTicks + 5 * g[1] * dt
        bTicks := p.bTicks + 5 * g[1] * s.issuingTime p dt } }
  let after := s.cores.foldl (fun u k => u.countCore (t.vCycles k.id - s.vCycles k.id) k) s
  { t with cur := after.cur, harts := after.harts, cores := after.cores }

end Sys2Proof.Machine
end

