-- ==== Sys2Proof/Machine/Observe.lean ====
section
/-! DEFINITION. Observation: counters, samples and trace records under the disclosure policy, breakpoints and debug stops, and
the firmware's observation services (R371 to R381). -/

namespace Sys2Proof.Machine

open Sys2Proof

/-! ## Policies of contexts -/

def State.policyOfCtx (s : State) (n : CtxNo) : Policy := ((s.ctxOf? n).map (·.policy)).getD {}

/-- The start of a bucket of 2^p units. -/
def bucketOf (p v : Nat) : Nat := v / 2 ^ p * 2 ^ p

/-- A time in a record that the operator sees (class 11). -/
def Policy.time (p : Policy) (t : Nat) : Nat :=
  match p.level 11 with
  | 3 => t
  | 2 => bucketOf (p.param 11) t
  | _ => 0

/-- The time of a record of a class at level 2 is bucketed whatever class 11 holds, but with class 11 withheld it reads 0. -/
def Policy.recordTime (p : Policy) (cls t : Nat) : Nat :=
  if p.level cls = 2 ∧ p.level 11 ≠ 0 then bucketOf (p.param cls) (p.time t) else p.time t

/-! ## Rings of tenants (R379) -/

/-- A record as its 32 bytes. -/
def TraceRecord.bytes (r : TraceRecord) : Nat :=
  r.time % 2 ^ 64 + r.pc.toNat * 2 ^ 64 + r.core % 2 ^ 13 * 2 ^ 128 + r.slot % 256 * 2 ^ 144 + r.type % 256 * 2 ^ 152 +
  r.ctx % 2 ^ 32 * 2 ^ 160 + r.detail.toNat * 2 ^ 192

/-- Writes a record to a ring by the rules of an error queue; a ring that cannot be written takes none. -/
def State.ringWrite (s : State) (g : Ring) (r : TraceRecord) : State :=
  match (s.ctxOf? g.ctx).bind fun c => (s.hostPath c g.base.toNat .write).map fun (s, pa) => (c, s, pa) with
  | .none => s
  | .some (c, s, hd) =>
    let slots := g.size / 32 - 1
    let widx := s.coherentRead hd 8
    let ridx := s.coherentRead (hd + 8) 8
    if (widx + 2 ^ 64 - ridx) % 2 ^ 64 = slots then s.coherentWrite (hd + 16) 8 (s.coherentRead (hd + 16) 8 + 1)
    else match s.hostPath c (g.base.toNat + 32 * (1 + widx % slots)) .write with
      | .none => s
      | .some (s, pa) => (s.coherentWrite pa 32 r.bytes).coherentWrite hd 8 (widx + 1)

/-- The ring takes the record: samples go to kind 0, the trace records that its mask names to kind 1. -/
def Ring.takes (g : Ring) (r : TraceRecord) : Bool :=
  g.ctx == r.ctx && (if r.type = 0 then g.kind == 0 else g.kind == 1 && g.arg.testBit r.type)

/-! ## Delivery of records (R377, R381) -/

/-- A sample or trace record reaches its context's rings, and the operator's buffer when the policy lets it. -/
def State.deliverRecord (s : State) (r : TraceRecord) : State :=
  let s := (s.oper.rings.filter fun g => g.takes r).foldl (fun s g => s.ringWrite g r) s
  let p := s.policyOfCtx r.ctx
  let cls := if r.type = 0 then 8 else 9
  if p.level cls = 3 ∨ (cls = 9 ∧ p.level 9 = 2) then
    { s with oper := { s.oper with records := s.oper.records ++ [{ r with time := p.recordTime cls r.time }] } }
  else { s with oper := { s.oper with dropped := s.oper.dropped + 1 } }

/-- The region that an address of a context lies in, or 0x40. -/
def Ctx.regionIndex (c : Ctx) (va : Nat) : Nat :=
  ((List.range 64).find? fun i => regionCovers (c.regions.getD i (0, 0)) va).getD 0x40

/-- The address of an operator fault record. -/
def coarseAddress (c : Ctx) (va : Word) : Word :=
  match c.policy.agran with
  | 1 => BitVec.ofNat 64 (c.regionIndex va.toNat)
  | 2 => BitVec.ofNat 64 (va.toNat / 2 ^ 29 * 2 ^ 29)
  | 3 => BitVec.ofNat 64 (va.toNat / 2 ^ 16 * 2 ^ 16)
  | _ => 0

/-- An operator fault record, under class 10. -/
def State.deliverFault (s : State) (r : FaultRecord) : State :=
  match s.ctxOf? r.ctx with
  | .none => s
  | .some c =>
    if c.policy.level 10 < 2 then s
    else { s with oper := { s.oper with faultRecords := s.oper.faultRecords ++
      [{ r with time := c.policy.recordTime 10 r.time, addr := coarseAddress c r.addr }] } }

/-- A stop record as class 12 lets the operator see it. -/
def coarseStop (p : Policy) (r : StopRecord) : StopRecord :=
  let time := BitVec.ofNat 64 (p.time r.time.toNat)
  if p.level 12 = 1 then
    let q := fun (v : Word) => BitVec.ofNat 64 (bucketOf (p.param 12) v.toNat)
    ⟨time, q r.sent, q r.recv, 0, 0, 0⟩
  else { r with time := time }

def State.deliverStop (s : State) (n : CtxNo) (r : StopRecord) : State :=
  let p := s.policyOfCtx n
  if p.level 12 = 0 then s
  else { s with oper := { s.oper with stopRecords := s.oper.stopRecords ++ [coarseStop p r] } }

/-- Trace units and error reporting deliver what has come together. -/
def State.deliverAll (s : State) : State :=
  let o := s.oper
  let s : State := { s with oper := { o with traced := [], faults := [], stops := [] } }
  let s := o.traced.foldl State.deliverRecord s
  let s := o.faults.foldl State.deliverFault s
  o.stops.foldl (fun s e => s.deliverStop e.1 e.2) s

/-! ## Counters (R374) -/

/-- The raw value of a counter of a core or of another unit. -/
def State.rawCounter (s : State) (ctx : CtxNo) (unit cls idx : Nat) : BitVec 48 :=
  match cls with
  | 0 => if s.ctxNoOf unit = ctx then (s.hartOf (.core unit (idx / 4))).counters.getD (idx % 4) 0 else 0
  | 1 => if s.ctxNoOf unit = ctx then (s.coreOf unit).ready.getD idx 0 else 0
  | _ => s.countOf (ctx, unit, cls, idx)

/-- The counters of a class that a context has: of its cores, and of the clusters and other units counted for it. -/
def State.counterKeys (s : State) (ctx : CtxNo) (cls : Nat) : List (Nat × Nat) :=
  let cores := ((s.partOfCtx ctx).map (·.cores)).getD []
  match cls with
  | 0 => cores.flatMap fun c => (List.range 64).map fun i => (c, i)
  | 1 => cores.flatMap fun c => (List.range 17).map fun i => (c, i)
  | _ => (s.tally.filter fun e => e.1.1 == ctx && e.1.2.2.1 == cls).map fun e => (e.1.2.1, e.1.2.2.2)

/-- Latches the counters of a class of a context as its bucketed values. -/
def State.latch (s : State) (ctx : CtxNo) (cls : Nat) (from' : State) : State :=
  let fresh := (from'.counterKeys ctx cls).map fun k => ((ctx, k.1, cls, k.2), from'.rawCounter ctx k.1 cls k.2)
  { s with oper := { s.oper with
      buckets := fresh ++ s.oper.buckets.filter fun e => !(e.1.1 == ctx && e.1.2.2.1 == cls) } }

/-- COUNTER_BUCKET_BOUNDARY of a class at level 2. -/
def State.bucketBoundary (s : State) (ctx : CtxNo) (cls : Nat) : State :=
  let p := s.policyOfCtx ctx
  if p.level cls = 2 ∧ cls < 8 ∧ s.time % 2 ^ p.param cls = 0 then s.latch ctx cls s else s

def execCounterBucketBoundary (ctx : CtxNo) (cls : Nat) (s : State) : Host.Outcome State Fault Refusal :=
  .next (s.bucketBoundary ctx cls)

/-- Time goes on; a class at level 2 whose boundary is passed on the way latches what its counters were then. -/
def State.goOn (s : State) (dt : Nat) : State :=
  let due := s.ctxs.flatMap fun c => ((List.range 8).filter fun k => c.policy.level k == 2).filterMap fun k =>
    let b := bucketOf (c.policy.param k) (s.time + dt)
    if s.time < b then .some (c.num, k, b) else .none
  due.foldl (fun t e => t.latch e.1 e.2.1 (s.passTime (e.2.2 - s.time))) (s.passTime dt)

/-- The bucketed value of a counter. -/
def State.bucketValue (s : State) (key : CtxNo × Nat × Nat × Nat) : BitVec 48 :=
  match s.oper.buckets.find? fun e => e.1 == key with
  | .none => 0
  | .some e => e.2

/-- A counter as the operator reads it: the withheld bit, and the value. -/
def State.operatorValue (s : State) (ctx : CtxNo) (unit cls idx : Nat) : Bool × Nat :=
  let p := s.policyOfCtx ctx
  let raw := (s.rawCounter ctx unit cls idx).toNat
  match (if 8 ≤ cls then 0 else p.level cls) with
  | 0 => (true, 0)
  | 1 => (false, bucketOf (p.param cls) raw)
  | 2 => (false, (s.bucketValue (ctx, unit, cls, idx)).toNat)
  | _ => (false, raw)

/-- OPERATOR_COUNTER_READ. -/
def State.operatorRead (s : State) (ctx : CtxNo) (unit cls idx : Nat) : State :=
  let v := s.operatorValue ctx unit cls idx
  s.emit (.counter v.1 v.2)

def execOperatorCounterRead (ctx : CtxNo) (unit cls idx : Nat) (s : State) : Host.Outcome State Fault Refusal :=
  .next (s.operatorRead ctx unit cls idx)

/-! ## Samples (R377) -/

/-- A sample is due: one for each 2^s V-cycles, where a service has set s; the operator's own period is his (log 39). -/
def State.sampleDue (s : State) (c : CoreId) : Bool :=
  match (s.coreOf c).sample with
  | .none => true
  | .some k => s.vCycles c / 2 ^ k != (s.coreOf c).sampledAt

/-- PC_SAMPLE: the slot that issues in this V-cycle, with its gang where it has one, or 0xff. -/
def State.pcSample (s : State) (c : CoreId) : State :=
  match s.partOfCore c with
  | .none => s
  | .some _ =>
    if !s.sampleDue c then s
    else
      let s := s.withCore c fun k => { k with sampledAt := s.vCycles c / 2 ^ k.sample.getD 0 }
      match s.nextSlot ((s.gangOf c).headD c) with
      | .none => s.trace 0 c 0xff 0 3
      | .some i => s.trace 0 c i (s.hartOf (.core c i)).pc (BitVec.ofNat 64 (s.rotationClass (s.hartOf (.core c i))))

def execPcSample (core : Nat) (s : State) : Host.Outcome State Fault Refusal := .next (s.pcSample core)

/-! ## Debug (R378) -/

/-- Why a thread is to stop for its debugger before its next instruction: a command that has asked for it, or an instruction
breakpoint of its core. -/
def State.stopDue (s : State) (c : CoreId) (slot : Nat) : Option Nat :=
  if (s.hartOf (.core c slot)).stopAsked then .some 0 else (s.focus (.core c slot)).fetchBreak

/-- DEBUG_STOP: a thread stops that is to stop. -/
def execDebugStop (core slot : Nat) (s : State) : Host.Outcome State Fault Refusal :=
  .next (match s.stopDue core slot with
    | .some n => s.debugStop core slot n
    | .none => s)

/-- A debug-stopped thread goes on at its pc, in every member of its gang. -/
def State.debugResume (s : State) (c : CoreId) (slot : Nat) : State :=
  (s.gangOf c).foldl (fun s m => s.withHart (.core m slot) fun h =>
    if h.life = .debug then { h.loadPrefix with life := .live, resumed := true } else h) s

/-- Sets a breakpoint of a core from an address, a slot mask and a control word. A data breakpoint of a length that is not 1 to 64
stays disabled (DESIGN CHOICE, log 39). -/
def State.setBreak (s : State) (c : CoreId) (n : Nat) (addr : Word) (mask : BitVec 16) (control : Word) : State :=
  let k := Config.breakControl control
  let on := k.1 && (decide (n < 4) || decide (1 ≤ k.2.1 ∧ k.2.1 ≤ 64))
  s.withCore c fun q => { q with breaks := q.breaks.setIfInBounds n ⟨addr, mask, on, k.2.1, k.2.2⟩ }

/-- A debug command names a thread: the debugger is attached to it (R378). -/
def State.attach (s : State) (c : CoreId) (slot : Nat) : State := s.withHart (.core c slot) fun h => { h with debugger := true }

/-- OPERATOR_DEBUG_COMMAND, on a thread of a context whose class 14 is at level 3. -/
def State.debugCommand (s : State) (c : CoreId) (slot : Nat) (cmd : DebugCmd) : State :=
  if !(s.ctxOfCore c).any (fun x => x.policy.level 14 == 3) then s
  else
    let s := s.attach c slot
    match cmd with
    | .attach => s
    | .stop => (s.withHart (.core c slot) fun h => { h with stopAsked := h.life == .live }).debugStop c slot 0
    | .resume => s.debugResume c slot
    | .breakpoint n b => s.setBreak c n b.addr b.mask b.control

def execOperatorDebugCommand (core slot : Nat) (cmd : DebugCmd) (s : State) : Host.Outcome State Fault Refusal :=
  .next (s.debugCommand core slot cmd)

/-! ## Observation services (R379) -/

/-- Answers a service that a thread waits for: its result is computed from x3 to x6. -/
def State.serve (s : State) (c : CoreId) (slot kind : Nat) (answer : State → Word → Word → Word → Word → Option (State × Word)) :
    State :=
  let w := Who.core c slot
  let h := s.hartOf w
  if h.life ≠ .live ∨ h.wait ≠ .service kind then s
  else match answer s (h.readX 3) (h.readX 4) (h.readX 5) (h.readX 6) with
    | .some (t, v) => t.finish w 4 fun h => h.setX 3 v
    | .none => s.finish w 4 fun h => h.setX 3 (BitVec.allOnes 64)

/-- A designation that names a core of the same partition. -/
def State.ownCore (s : State) (c : CoreId) (w : Word) : Option CoreId :=
  if badDesignation w ∨ designatedPkg w ≠ s.pkg ∨ !s.sameLaunch c (w.toNat % 8192) then .none else .some (w.toNat % 8192)

/-- Unit and index of a counter that service 256 names by a class, an index and a core (DESIGN CHOICE, log 51): of classes 0 to 3 the
core's own; of classes 4, 5 and 7 the core's die's, its L2 first, then its RDC; of class 6 its cluster's, and from index 3 on each PP's
steps. An index that the class does not have names nothing. -/
def State.serviceUnit (s : State) (k : CoreId) (cls idx : Nat) : Option (Nat × Nat) :=
  let die := coreDie k
  match cls with
  | 0 => if idx < 4 * (s.coreOf k).threads then .some (k, idx) else .none
  | 1 => if idx < 17 then .some (k, idx) else .none
  | 2 => if idx < 5 then .some (k, idx) else .none
  | 3 => if idx < 2 then .some (k, idx) else .none
  | 4 => if idx < 8 then .some (2 * die + idx / 4, idx % 4) else .none
  | 5 => if idx < 2 then .some (2 * die + idx, 0) else .none
  | 6 => if idx < 3 then .some (clusterCore (clusterOf k) 0, idx) else if idx < 3 + 148 then .some (idx - 3, 3) else .none
  | 7 => if idx < 2 then .some (2 * die + idx, 0) else if idx = 2 then .some (k, 1) else .none
  | _ => .none

/-- Service 256: a raw counter. -/
def State.rawService (s : State) (c : CoreId) (cls idx core : Word) : Option (State × Word) :=
  (s.ownCore c core).bind fun k => (s.serviceUnit k cls.toNat idx.toNat).map fun u =>
    (s, (s.rawCounter (s.ctxNoOf c) u.1 cls.toNat u.2).setWidth 64)

def execObsRawCounter (core slot : Nat) (s : State) : Host.Outcome State Fault Refusal :=
  .next (s.serve core slot 256 fun s a b d _ => s.rawService core a b d)

/-- Service 257: a ring for samples or trace records. -/
def State.ringService (s : State) (c : CoreId) (kind base size arg : Word) : Option (State × Word) :=
  match s.ctxOfCore c, s.partOfCore c with
  | .some x, .some p =>
    if 1 < kind.toNat ∨ base.toNat % 4096 ≠ 0 ∨ size.toNat % 4096 ≠ 0 ∨ size = 0 ∨
      ((List.range (size.toNat / 4096)).any fun i => (s.hostPath x (base.toNat + 4096 * i) .write).isNone) ∨
      (kind = 0 ∧ (arg.toNat < 10 ∨ 24 < arg.toNat)) then .none
    else
      let g : Ring := ⟨x.num, kind.toNat, base, size.toNat, arg.toNat⟩
      let rest := s.oper.rings.filter fun r => !(r.ctx == g.ctx && r.kind == g.kind)
      let t : State := { s with oper := { s.oper with rings := rest ++ [g] } }
      .some (if kind = 0 then p.cores.foldl (fun t k => t.withCore k fun q => { q with sample := .some arg.toNat }) t else t, 0)
  | _, _ => .none

def execObsRecordRing (core slot : Nat) (s : State) : Host.Outcome State Fault Refusal :=
  .next (s.serve core slot 257 fun s a b d e => s.ringService core a b d e)

/-- Service 258: a breakpoint of the issuing core. -/
def execObsSetBreakpoint (core slot : Nat) (s : State) : Host.Outcome State Fault Refusal :=
  .next (s.serve core slot 258 fun s n addr mask control =>
    if 5 < n.toNat then .none else .some (s.setBreak core n.toNat addr (mask.setWidth 16) control, 0))

/-- Service 259: a debug-stopped thread of the own context is resumed. -/
def execObsDebugResume (core slot : Nat) (s : State) : Host.Outcome State Fault Refusal :=
  .next (s.serve core slot 259 fun s zero c k _ =>
    (s.ownCore core c).bind fun m =>
      if zero = 0 ∧ k.toNat < 16 ∧ (s.hartOf (.core m k.toNat)).life = .debug then .some (s.debugResume m k.toNat, 0) else .none)

end Sys2Proof.Machine
end

