-- ==== Sys2Proof/Machine/PathFence.lean ====
section
/-! DEFINITION. The fence between access paths (R180, R187). -/

namespace Sys2Proof.Machine

open Sys2Proof

/-- Every access of a path that is attached to a thread has completed, and is performed at the scope. What a thread has read of the
handler, fabric and host paths has completed before the read. -/
def State.attachedDone (s : State) (c : CoreId) (slot path scope : Nat) : Bool :=
  s.performedAt (.core c slot) path scope (s.stamps + 1) &&
  match path with
  | 0 => s.quiet (.core c slot) scope
  | 1 => !s.copies.any fun k => k.core == c && k.slot == slot
  | 2 => !s.arrays.any fun a => a.banks.toList.any fun b => b.queue.any fun m => m.core == c && m.slot == slot
  | 3 => !s.sends.any fun m => m.core == c && m.slot == slot
  | _ => true

/-- `xfence`: with a path that is core it also acts as a full fence on the thread's program accesses. A handler has no
access attached to it: on a PP it orders nothing, as `fence` does there (R282; DEDUCED, log 46). -/
def execXfence (p q scope : BitVec 3) (s : State) : Host.Outcome State Fault Refusal :=
  s.issue .both fun s =>
    let w := s.cur.who
    if w.isPp then .ok { s with cur := s.cur.advance 4 }
    else if s.attachedDone w.core' w.slot' p.toNat scope.toNat && ((p != 0#3 && q != 0#3) || s.quiet w scope.toNat) then
      .ok (({ s with cur := s.cur.advance 4 } : State).orderPath w p.toNat q.toNat)
    else .error (.wait .again)

end Sys2Proof.Machine
end

