-- ==== Sys2Proof/Machine/Dispatch.lean ====
section
/-! DEFINITION. One arm per instruction and event: what `step` runs. -/

namespace Sys2Proof.Machine

open Sys2Proof

/-- The meaning of each instruction. -/
def exec (i : Instr) (s : State) : Host.Outcome State Fault Refusal :=
  match i with
  | .add d a b w => Sys2Proof.Machine.execAdd d a b w s
  | .sub d a b w => Sys2Proof.Machine.execSub d a b w s
  | .and d a b w => Sys2Proof.Machine.execAnd d a b w s
  | .or d a b w => Sys2Proof.Machine.execOr d a b w s
  | .xor d a b w => Sys2Proof.Machine.execXor d a b w s
  | .andn d a b w => Sys2Proof.Machine.execAndn d a b w s
  | .sll d a b w => Sys2Proof.Machine.execSll d a b w s
  | .srl d a b w => Sys2Proof.Machine.execSrl d a b w s
  | .sra d a b w => Sys2Proof.Machine.execSra d a b w s
  | .rol d a b w => Sys2Proof.Machine.execRol d a b w s
  | .ror d a b w => Sys2Proof.Machine.execRor d a b w s
  | .slt d a b w => Sys2Proof.Machine.execSlt d a b w s
  | .sltu d a b w => Sys2Proof.Machine.execSltu d a b w s
  | .min d a b w => Sys2Proof.Machine.execMin d a b w s
  | .max d a b w => Sys2Proof.Machine.execMax d a b w s
  | .minu d a b w => Sys2Proof.Machine.execMinu d a b w s
  | .maxu d a b w => Sys2Proof.Machine.execMaxu d a b w s
  | .mul d a b w => Sys2Proof.Machine.execMul d a b w s
  | .mulh d a b w => Sys2Proof.Machine.execMulh d a b w s
  | .mulhu d a b w => Sys2Proof.Machine.execMulhu d a b w s
  | .mulhsu d a b w => Sys2Proof.Machine.execMulhsu d a b w s
  | .div d a b w => Sys2Proof.Machine.execDiv d a b w s
  | .divu d a b w => Sys2Proof.Machine.execDivu d a b w s
  | .rem d a b w => Sys2Proof.Machine.execRem d a b w s
  | .remu d a b w => Sys2Proof.Machine.execRemu d a b w s
  | .sel d a b w => Sys2Proof.Machine.execSel d a b w s
  | .clz d a w => Sys2Proof.Machine.execClz d a w s
  | .ctz d a w => Sys2Proof.Machine.execCtz d a w s
  | .popc d a w => Sys2Proof.Machine.execPopc d a w s
  | .bswap d a w => Sys2Proof.Machine.execBswap d a w s
  | .addi d a imm => Sys2Proof.Machine.execAddi d a imm s
  | .andi d a imm => Sys2Proof.Machine.execAndi d a imm s
  | .ori d a imm => Sys2Proof.Machine.execOri d a imm s
  | .xori d a imm => Sys2Proof.Machine.execXori d a imm s
  | .slti d a imm => Sys2Proof.Machine.execSlti d a imm s
  | .sltui d a imm => Sys2Proof.Machine.execSltui d a imm s
  | .slli d a sh w => Sys2Proof.Machine.execSlli d a sh w s
  | .srli d a sh w => Sys2Proof.Machine.execSrli d a sh w s
  | .srai d a sh w => Sys2Proof.Machine.execSrai d a sh w s
  | .rori d a sh w => Sys2Proof.Machine.execRori d a sh w s
  | .ldhi d imm => Sys2Proof.Machine.execLdhi d imm s
  | .pcaddhi d imm => Sys2Proof.Machine.execPcaddhi d imm s
  | .crd d n => Sys2Proof.Machine.execCrd d n s
  | .cwr n a => Sys2Proof.Machine.execCwr n a s
  | .crs d n a => Sys2Proof.Machine.execCrs d n a s
  | .crc d n a => Sys2Proof.Machine.execCrc d n a s
  | .beq a b off => Sys2Proof.Machine.execBeq a b off s
  | .bne a b off => Sys2Proof.Machine.execBne a b off s
  | .blt a b off => Sys2Proof.Machine.execBlt a b off s
  | .bge a b off => Sys2Proof.Machine.execBge a b off s
  | .bltu a b off => Sys2Proof.Machine.execBltu a b off s
  | .bgeu a b off => Sys2Proof.Machine.execBgeu a b off s
  | .jal d off => Sys2Proof.Machine.execJal d off s
  | .jalr d a imm => Sys2Proof.Machine.execJalr d a imm s
  | .rep cnt sd sa sb => Sys2Proof.Machine.execRep cnt sd sa sb s
  | .gang d a w => Sys2Proof.Machine.execGang d a w s
  | .gangFormation core => Sys2Proof.Machine.execGangFormation core s
  | .ungang => Sys2Proof.Machine.execUngang s
  | .ldB d a imm => Sys2Proof.Machine.execLdB d a imm s
  | .ldH d a imm => Sys2Proof.Machine.execLdH d a imm s
  | .ldW d a imm => Sys2Proof.Machine.execLdW d a imm s
  | .ldD d a imm => Sys2Proof.Machine.execLdD d a imm s
  | .ldBz d a imm => Sys2Proof.Machine.execLdBz d a imm s
  | .ldHz d a imm => Sys2Proof.Machine.execLdHz d a imm s
  | .ldWz d a imm => Sys2Proof.Machine.execLdWz d a imm s
  | .stB b a imm => Sys2Proof.Machine.execStB b a imm s
  | .stH b a imm => Sys2Proof.Machine.execStH b a imm s
  | .stW b a imm => Sys2Proof.Machine.execStW b a imm s
  | .stD b a imm => Sys2Proof.Machine.execStD b a imm s
  | .vld vd a imm nt => Sys2Proof.Machine.execVld vd a imm nt s
  | .vst vd a imm nt => Sys2Proof.Machine.execVst vd a imm nt s
  | .vldx vd a vb st => Sys2Proof.Machine.execVldx vd a vb st s
  | .vstx vd a vb st => Sys2Proof.Machine.execVstx vd a vb st s
  | .vlds vd a b st => Sys2Proof.Machine.execVlds vd a b st s
  | .vsts vd a b st => Sys2Proof.Machine.execVsts vd a b st s
  | .pref a imm => Sys2Proof.Machine.execPref a imm s
  | .prefl2 a imm => Sys2Proof.Machine.execPrefl2 a imm s
  | .discard a imm => Sys2Proof.Machine.execDiscard a imm s
  | .flush a imm => Sys2Proof.Machine.execFlush a imm s
  | .clean a imm => Sys2Proof.Machine.execClean a imm s
  | .inval a imm => Sys2Proof.Machine.execInval a imm s
  | .amoaddW d b a ord scope => Sys2Proof.Machine.execAmoaddW d b a ord scope s
  | .amoandW d b a ord scope => Sys2Proof.Machine.execAmoandW d b a ord scope s
  | .amoorW d b a ord scope => Sys2Proof.Machine.execAmoorW d b a ord scope s
  | .amoxorW d b a ord scope => Sys2Proof.Machine.execAmoxorW d b a ord scope s
  | .amominW d b a ord scope => Sys2Proof.Machine.execAmominW d b a ord scope s
  | .amomaxW d b a ord scope => Sys2Proof.Machine.execAmomaxW d b a ord scope s
  | .amominuW d b a ord scope => Sys2Proof.Machine.execAmominuW d b a ord scope s
  | .amomaxuW d b a ord scope => Sys2Proof.Machine.execAmomaxuW d b a ord scope s
  | .amoswapW d b a ord scope => Sys2Proof.Machine.execAmoswapW d b a ord scope s
  | .amocasW d b a ord scope => Sys2Proof.Machine.execAmocasW d b a ord scope s
  | .amoaddD d b a ord scope => Sys2Proof.Machine.execAmoaddD d b a ord scope s
  | .amoandD d b a ord scope => Sys2Proof.Machine.execAmoandD d b a ord scope s
  | .amoorD d b a ord scope => Sys2Proof.Machine.execAmoorD d b a ord scope s
  | .amoxorD d b a ord scope => Sys2Proof.Machine.execAmoxorD d b a ord scope s
  | .amominD d b a ord scope => Sys2Proof.Machine.execAmominD d b a ord scope s
  | .amomaxD d b a ord scope => Sys2Proof.Machine.execAmomaxD d b a ord scope s
  | .amominuD d b a ord scope => Sys2Proof.Machine.execAmominuD d b a ord scope s
  | .amomaxuD d b a ord scope => Sys2Proof.Machine.execAmomaxuD d b a ord scope s
  | .amoswapD d b a ord scope => Sys2Proof.Machine.execAmoswapD d b a ord scope s
  | .amocasD d b a ord scope => Sys2Proof.Machine.execAmocasD d b a ord scope s
  | .cas128 d b a ord scope => Sys2Proof.Machine.execCas128 d b a ord scope s
  | .atomicResult core slot => Sys2Proof.Machine.execAtomicResult core slot s
  | .ldacq d a scope dbl => Sys2Proof.Machine.execLdacq d a scope dbl s
  | .strel b a scope dbl => Sys2Proof.Machine.execStrel b a scope dbl s
  | .fenceAcq scope => Sys2Proof.Machine.execFenceAcq scope s
  | .fenceRel scope => Sys2Proof.Machine.execFenceRel scope s
  | .fenceFull scope => Sys2Proof.Machine.execFenceFull scope s
  | .xfence p q scope => Sys2Proof.Machine.execXfence p q scope s
  | .cpy d a nb => Sys2Proof.Machine.execCpy d a nb s
  | .cpys d a b nb => Sys2Proof.Machine.execCpys d a b nb s
  | .cpyg d a b nb => Sys2Proof.Machine.execCpyg d a b nb s
  | .cfill d a nb => Sys2Proof.Machine.execCfill d a nb s
  | .copyStart cl => Sys2Proof.Machine.execCopyStart cl s
  | .copyComplete cl k => Sys2Proof.Machine.execCopyComplete cl k s
  | .copyFault cl k => Sys2Proof.Machine.execCopyFault cl k s
  | .notify a b => Sys2Proof.Machine.execNotify a b s
  | .syncw d a b => Sys2Proof.Machine.execSyncw d a b s
  | .syncinit a b => Sys2Proof.Machine.execSyncinit a b s
  | .syncrd d a sel => Sys2Proof.Machine.execSyncrd d a sel s
  | .syncBlockPost cl => Sys2Proof.Machine.execSyncBlockPost cl s
  | .syncwRecheck core slot => Sys2Proof.Machine.execSyncwRecheck core slot s
  | .spawn d a b nb => Sys2Proof.Machine.execSpawn d a b nb s
  | .join d a => Sys2Proof.Machine.execJoin d a s
  | .joinRecheck core slot => Sys2Proof.Machine.execJoinRecheck core slot s
  | .callat d a b nb => Sys2Proof.Machine.execCallat d a b nb s
  | .callatAccept core k => Sys2Proof.Machine.execCallatAccept core k s
  | .callatRetry core k => Sys2Proof.Machine.execCallatRetry core k s
  | .callatReply k peer => Sys2Proof.Machine.execCallatReply k peer s
  | .remoteCallFailed core k reason => Sys2Proof.Machine.execRemoteCallFailed core k reason s
  | .rett => Sys2Proof.Machine.execRett s
  | .yield => Sys2Proof.Machine.execYield s
  | .tcancel d a => Sys2Proof.Machine.execTcancel d a s
  | .taskCancelRequest core slot => Sys2Proof.Machine.execTaskCancelRequest core slot s
  | .tend => Sys2Proof.Machine.execTend s
  | .joinCounterFailure k => Sys2Proof.Machine.execJoinCounterFailure k s
  | .taskDispatch core slot => Sys2Proof.Machine.execTaskDispatch core slot s
  | .taskSteal core slot => Sys2Proof.Machine.execTaskSteal core slot s
  | .send d a b port nb => Sys2Proof.Machine.execSend d a b port nb s
  | .sendDelivery core slot => Sys2Proof.Machine.execSendDelivery core slot s
  | .sendRetry core slot => Sys2Proof.Machine.execSendRetry core slot s
  | .sendTimeOut core slot => Sys2Proof.Machine.execSendTimeOut core slot s
  | .sopen a port => Sys2Proof.Machine.execSopen a port s
  | .sput d a nb => Sys2Proof.Machine.execSput d a nb s
  | .sclose => Sys2Proof.Machine.execSclose s
  | .streamHeader core slot => Sys2Proof.Machine.execStreamHeader core slot s
  | .streamWord core k => Sys2Proof.Machine.execStreamWord core k s
  | .streamCloseMarker core k => Sys2Proof.Machine.execStreamCloseMarker core k s
  | .qpop d q => Sys2Proof.Machine.execQpop d q s
  | .qprobe d q => Sys2Proof.Machine.execQprobe d q s
  | .barw d a => Sys2Proof.Machine.execBarw d a s
  | .barwa d a => Sys2Proof.Machine.execBarwa d a s
  | .barww d a => Sys2Proof.Machine.execBarww d a s
  | .barwr d a => Sys2Proof.Machine.execBarwr d a s
  | .barrierRelease core ch => Sys2Proof.Machine.execBarrierRelease core ch s
  | .barrierTimeOut core ch => Sys2Proof.Machine.execBarrierTimeOut core ch s
  | .vadd vd va vb => Sys2Proof.Machine.execVadd vd va vb s
  | .vsub vd va vb => Sys2Proof.Machine.execVsub vd va vb s
  | .vmul vd va vb => Sys2Proof.Machine.execVmul vd va vb s
  | .vmulh vd va vb => Sys2Proof.Machine.execVmulh vd va vb s
  | .vmulhu vd va vb => Sys2Proof.Machine.execVmulhu vd va vb s
  | .vabsd vd va vb => Sys2Proof.Machine.execVabsd vd va vb s
  | .vqadd vd va vb => Sys2Proof.Machine.execVqadd vd va vb s
  | .vqsub vd va vb => Sys2Proof.Machine.execVqsub vd va vb s
  | .vmin vd va vb => Sys2Proof.Machine.execVmin vd va vb s
  | .vmax vd va vb => Sys2Proof.Machine.execVmax vd va vb s
  | .vminu vd va vb => Sys2Proof.Machine.execVminu vd va vb s
  | .vmaxu vd va vb => Sys2Proof.Machine.execVmaxu vd va vb s
  | .vand vd va vb => Sys2Proof.Machine.execVand vd va vb s
  | .vor vd va vb => Sys2Proof.Machine.execVor vd va vb s
  | .vxor vd va vb => Sys2Proof.Machine.execVxor vd va vb s
  | .vandn vd va vb => Sys2Proof.Machine.execVandn vd va vb s
  | .vsll vd va vb => Sys2Proof.Machine.execVsll vd va vb s
  | .vsrl vd va vb => Sys2Proof.Machine.execVsrl vd va vb s
  | .vsra vd va vb => Sys2Proof.Machine.execVsra vd va vb s
  | .vmac vd va vb => Sys2Proof.Machine.execVmac vd va vb s
  | .vdot4 vd va vb => Sys2Proof.Machine.execVdot4 vd va vb s
  | .vslls vd va b => Sys2Proof.Machine.execVslls vd va b s
  | .vsrls vd va b => Sys2Proof.Machine.execVsrls vd va b s
  | .vsras vd va b => Sys2Proof.Machine.execVsras vd va b s
  | .vadds vd va b => Sys2Proof.Machine.execVadds vd va b s
  | .vmuls vd va b => Sys2Proof.Machine.execVmuls vd va b s
  | .vceq vd va vb => Sys2Proof.Machine.execVceq vd va vb s
  | .vcne vd va vb => Sys2Proof.Machine.execVcne vd va vb s
  | .vclt vd va vb => Sys2Proof.Machine.execVclt vd va vb s
  | .vcle vd va vb => Sys2Proof.Machine.execVcle vd va vb s
  | .vcltu vd va vb => Sys2Proof.Machine.execVcltu vd va vb s
  | .vcleu vd va vb => Sys2Proof.Machine.execVcleu vd va vb s
  | .vsel vd va vb => Sys2Proof.Machine.execVsel vd va vb s
  | .vperm vd va vb => Sys2Proof.Machine.execVperm vd va vb s
  | .vrev vd va => Sys2Proof.Machine.execVrev vd va s
  | .vredadd vd va => Sys2Proof.Machine.execVredadd vd va s
  | .vredmin vd va => Sys2Proof.Machine.execVredmin vd va s
  | .vredmax vd va => Sys2Proof.Machine.execVredmax vd va s
  | .vredminu vd va => Sys2Proof.Machine.execVredminu vd va s
  | .vredmaxu vd va => Sys2Proof.Machine.execVredmaxu vd va s
  | .vfredadd vd va => Sys2Proof.Machine.execVfredadd vd va s
  | .vfredmax vd va => Sys2Proof.Machine.execVfredmax vd va s
  | .vfadd vd va vb => Sys2Proof.Machine.execVfadd vd va vb s
  | .vfsub vd va vb => Sys2Proof.Machine.execVfsub vd va vb s
  | .vfmul vd va vb => Sys2Proof.Machine.execVfmul vd va vb s
  | .vfma vd va vb => Sys2Proof.Machine.execVfma vd va vb s
  | .vfms vd va vb => Sys2Proof.Machine.execVfms vd va vb s
  | .vfmin vd va vb => Sys2Proof.Machine.execVfmin vd va vb s
  | .vfmax vd va vb => Sys2Proof.Machine.execVfmax vd va vb s
  | .vfdiv vd va vb => Sys2Proof.Machine.execVfdiv vd va vb s
  | .vfsqrt vd va => Sys2Proof.Machine.execVfsqrt vd va s
  | .vfrcp vd va => Sys2Proof.Machine.execVfrcp vd va s
  | .vfrsq vd va => Sys2Proof.Machine.execVfrsq vd va s
  | .vfexp2 vd va => Sys2Proof.Machine.execVfexp2 vd va s
  | .vflog2 vd va => Sys2Proof.Machine.execVflog2 vd va s
  | .vfabs vd va => Sys2Proof.Machine.execVfabs vd va s
  | .vfneg vd va => Sys2Proof.Machine.execVfneg vd va s
  | .vfclass vd va => Sys2Proof.Machine.execVfclass vd va s
  | .vfceq vd va vb => Sys2Proof.Machine.execVfceq vd va vb s
  | .vfclt vd va vb => Sys2Proof.Machine.execVfclt vd va vb s
  | .vfcle vd va vb => Sys2Proof.Machine.execVfcle vd va vb s
  | .vfcun vd va vb => Sys2Proof.Machine.execVfcun vd va vb s
  | .vcvt vd va => Sys2Proof.Machine.execVcvt vd va s
  | .vpack vd va vb => Sys2Proof.Machine.execVpack vd va vb s
  | .vunpkl vd va => Sys2Proof.Machine.execVunpkl vd va s
  | .vunpkh vd va => Sys2Proof.Machine.execVunpkh vd va s
  | .vqnt4 vd va vb => Sys2Proof.Machine.execVqnt4 vd va vb s
  | .vdqnt4 vd va => Sys2Proof.Machine.execVdqnt4 vd va s
  | .vmadd vd va vb => Sys2Proof.Machine.execVmadd vd va vb s
  | .vmsub vd va vb => Sys2Proof.Machine.execVmsub vd va vb s
  | .vmmul vd va vb => Sys2Proof.Machine.execVmmul vd va vb s
  | .vmmac vd va vb => Sys2Proof.Machine.execVmmac vd va vb s
  | .vntbf vd va vb => Sys2Proof.Machine.execVntbf vd va vb s
  | .vintbf vd va vb => Sys2Proof.Machine.execVintbf vd va vb s
  | .vmred vd va => Sys2Proof.Machine.execVmred vd va s
  | .vmov vd va => Sys2Proof.Machine.execVmov vd va s
  | .vsplat vd b => Sys2Proof.Machine.execVsplat vd b s
  | .vqpop vd q => Sys2Proof.Machine.execVqpop vd q s
  | .sputv va => Sys2Proof.Machine.execSputv va s
  | .vext b va idx => Sys2Proof.Machine.execVext b va idx s
  | .vins vd b idx => Sys2Proof.Machine.execVins vd b idx s
  | .fmt sp sc sat rnd cfmt bfmt afmt => Sys2Proof.Machine.execFmt sp sc sat rnd cfmt bfmt afmt s
  | .mlease d => Sys2Proof.Machine.execMlease d s
  | .mrelease => Sys2Proof.Machine.execMrelease s
  | .mtry d => Sys2Proof.Machine.execMtry d s
  | .leaseGrant cl => Sys2Proof.Machine.execLeaseGrant cl s
  | .leaseTimeLimit cl => Sys2Proof.Machine.execLeaseTimeLimit cl s
  | .leaseIdleEnd cl => Sys2Proof.Machine.execLeaseIdleEnd cl s
  | .leaseOverrunStop cl => Sys2Proof.Machine.execLeaseOverrunStop cl s
  | .mseta a b => Sys2Proof.Machine.execMseta a b s
  | .msetb a b => Sys2Proof.Machine.execMsetb a b s
  | .msetc a b => Sys2Proof.Machine.execMsetc a b s
  | .mscla a b => Sys2Proof.Machine.execMscla a b s
  | .msclb a b => Sys2Proof.Machine.execMsclb a b s
  | .msetm a b => Sys2Proof.Machine.execMsetm a b s
  | .mshape a b => Sys2Proof.Machine.execMshape a b s
  | .msync a => Sys2Proof.Machine.execMsync a s
  | .mma d t => Sys2Proof.Machine.execMma d t s
  | .mmaz d t => Sys2Proof.Machine.execMmaz d t s
  | .mmas d t => Sys2Proof.Machine.execMmas d t s
  | .mmod d t => Sys2Proof.Machine.execMmod d t s
  | .mntt d t => Sys2Proof.Machine.execMntt d t s
  | .mintt d t => Sys2Proof.Machine.execMintt d t s
  | .mtwid d t => Sys2Proof.Machine.execMtwid d t s
  | .matrixCommandStart cl bank k => Sys2Proof.Machine.execMatrixCommandStart cl bank k s
  | .matrixCommandComplete cl bank k => Sys2Proof.Machine.execMatrixCommandComplete cl bank k s
  | .matrixSuspend cl bank k mismatch => Sys2Proof.Machine.execMatrixSuspend cl bank k mismatch s
  | .mdrain d a t => Sys2Proof.Machine.execMdrain d a t s
  | .mdrainq d a t => Sys2Proof.Machine.execMdrainq d a t s
  | .mzero t => Sys2Proof.Machine.execMzero t s
  | .mresume d t => Sys2Proof.Machine.execMresume d t s
  | .mstat d a t => Sys2Proof.Machine.execMstat d a t s
  | .mabort d t => Sys2Proof.Machine.execMabort d t s
  | .drainComplete cl bank k => Sys2Proof.Machine.execDrainComplete cl bank k s
  | .drainqComplete cl bank k => Sys2Proof.Machine.execDrainqComplete cl bank k s
  | .drainFault cl bank k => Sys2Proof.Machine.execDrainFault cl bank k s
  | .gbadd vd va vb dim => Sys2Proof.Machine.execGbadd vd va vb dim s
  | .gbsub vd va vb dim => Sys2Proof.Machine.execGbsub vd va vb dim s
  | .gbschur vd va keep joint hi => Sys2Proof.Machine.execGbschur vd va keep joint hi s
  | .gbsolve vd va dim => Sys2Proof.Machine.execGbsolve vd va dim s
  | .gbsolveVar vd va dim => Sys2Proof.Machine.execGbsolveVar vd va dim s
  | .gbdamp vd va dim => Sys2Proof.Machine.execGbdamp vd va dim s
  | .gbsend va b dim => Sys2Proof.Machine.execGbsend va b dim s
  | .gbpoll d => Sys2Proof.Machine.execGbpoll d s
  | .gbpolln d => Sys2Proof.Machine.execGbpolln d s
  | .gbres d a b => Sys2Proof.Machine.execGbres d a b s
  | .gbclr d a b => Sys2Proof.Machine.execGbclr d a b s
  | .mailboxConfigure core slot => Sys2Proof.Machine.execMailboxConfigure core slot s
  | .gbld vd a imm take => Sys2Proof.Machine.execGbld vd a imm take s
  | .mailboxDelivery cl k => Sys2Proof.Machine.execMailboxDelivery cl k s
  | .htag a b tag => Sys2Proof.Machine.execHtag a b tag s
  | .htagrd d a => Sys2Proof.Machine.execHtagrd d a s
  | .hdirrd d a => Sys2Proof.Machine.execHdirrd d a s
  | .hdirwr d a b o => Sys2Proof.Machine.execHdirwr d a b o s
  | .hbusy d a => Sys2Proof.Machine.execHbusy d a s
  | .hfree a => Sys2Proof.Machine.execHfree a s
  | .hsendReq a b pp => Sys2Proof.Machine.execHsendReq a b pp s
  | .hsendRep a b => Sys2Proof.Machine.execHsendRep a b s
  | .hblk d a b => Sys2Proof.Machine.execHblk d a b s
  | .hblkComplete pp => Sys2Proof.Machine.execHblkComplete pp s
  | .hresume a => Sys2Proof.Machine.execHresume a s
  | .hend => Sys2Proof.Machine.execHend s
  | .hdefer => Sys2Proof.Machine.execHdefer s
  | .hfault a => Sys2Proof.Machine.execHfault a s
  | .handlerWatchdog pp tid => Sys2Proof.Machine.execHandlerWatchdog pp tid s
  | .requestDeferred pp => Sys2Proof.Machine.execRequestDeferred pp s
  | .handlerRd pp tid => Sys2Proof.Machine.execHandlerRd pp tid s
  | .handlerWr pp tid => Sys2Proof.Machine.execHandlerWr pp tid s
  | .handlerAmo pp tid => Sys2Proof.Machine.execHandlerAmo pp tid s
  | .handlerWb pp tid => Sys2Proof.Machine.execHandlerWb pp tid s
  | .handlerEvs pp tid => Sys2Proof.Machine.execHandlerEvs pp tid s
  | .handlerHint pp tid => Sys2Proof.Machine.execHandlerHint pp tid s
  | .handlerDone pp tid => Sys2Proof.Machine.execHandlerDone pp tid s
  | .handlerRecall pp tid => Sys2Proof.Machine.execHandlerRecall pp tid s
  | .handlerProxyTag pp tid => Sys2Proof.Machine.execHandlerProxyTag pp tid s
  | .handlerGrant pp tid => Sys2Proof.Machine.execHandlerGrant pp tid s
  | .handlerBlkdone pp tid => Sys2Proof.Machine.execHandlerBlkdone pp tid s
  | .handlerProtocolMsg pp tid => Sys2Proof.Machine.execHandlerProtocolMsg pp tid s
  | .tagChange k => Sys2Proof.Machine.execTagChange k s
  | .tagAck k => Sys2Proof.Machine.execTagAck k s
  | .grantReceive k => Sys2Proof.Machine.execGrantReceive k s
  | .releaseNotice k => Sys2Proof.Machine.execReleaseNotice k s
  | .resumeReceive k => Sys2Proof.Machine.execResumeReceive k s
  | .accessRefused k => Sys2Proof.Machine.execAccessRefused k s
  | .peerAckSubstitute k => Sys2Proof.Machine.execPeerAckSubstitute k s
  | .loadFill core k => Sys2Proof.Machine.execLoadFill core k s
  | .storePerform core k => Sys2Proof.Machine.execStorePerform core k s
  | .mergeWindowClose k => Sys2Proof.Machine.execMergeWindowClose k s
  | .pageWalk k => Sys2Proof.Machine.execPageWalk k s
  | .remoteOutcome core k res => Sys2Proof.Machine.execRemoteOutcome core k res s
  | .remoteTimeOut core k => Sys2Proof.Machine.execRemoteTimeOut core k s
  | .trap imm => Sys2Proof.Machine.execTrap imm s
  | .sysc imm => Sys2Proof.Machine.execSysc imm s
  | .tret => Sys2Proof.Machine.execTret s
  | .wfe => Sys2Proof.Machine.execWfe s
  | .brk imm => Sys2Proof.Machine.execBrk imm s
  | .eventInterrupt core => Sys2Proof.Machine.execEventInterrupt core s
  | .tlbinv a => Sys2Proof.Machine.execTlbinv a s
  | .tlbinva => Sys2Proof.Machine.execTlbinva s
  | .rgnwr d a b => Sys2Proof.Machine.execRgnwr d a b s
  | .ctxsave d a b => Sys2Proof.Machine.execCtxsave d a b s
  | .ctxload d a b => Sys2Proof.Machine.execCtxload d a b s
  | .ctxstat d a => Sys2Proof.Machine.execCtxstat d a s
  | .gswitch d a b => Sys2Proof.Machine.execGswitch d a b s
  | .gangSwitchAgreement k => Sys2Proof.Machine.execGangSwitchAgreement k s
  | .gangSwitchStop ctx => Sys2Proof.Machine.execGangSwitchStop ctx s
  | .contextImageWrite ctx => Sys2Proof.Machine.execContextImageWrite ctx s
  | .contextRestore ctx => Sys2Proof.Machine.execContextRestore ctx s
  | .guestOpPause vf => Sys2Proof.Machine.execGuestOpPause vf s
  | .guestOpContinue vf => Sys2Proof.Machine.execGuestOpContinue vf s
  | .fatalStop core slot => Sys2Proof.Machine.execFatalStop core slot s
  | .haltTreeStop ctx => Sys2Proof.Machine.execHaltTreeStop ctx s
  | .launch d a => Sys2Proof.Machine.execLaunch d a s
  | .lcancel d a => Sys2Proof.Machine.execLcancel d a s
  | .distributorRound => Sys2Proof.Machine.execDistributorRound s
  | .launchLoad num => Sys2Proof.Machine.execLaunchLoad num s
  | .launchEnd num => Sys2Proof.Machine.execLaunchEnd num s
  | .powerDecision => Sys2Proof.Machine.execPowerDecision s
  | .clockBoundary => Sys2Proof.Machine.execClockBoundary s
  | .dramRefresh die ch => Sys2Proof.Machine.execDramRefresh die ch s
  | .stackTempSample die sensors logic => Sys2Proof.Machine.execStackTempSample die sensors logic s
  | .packageReset boot => Sys2Proof.Machine.execPackageReset boot s
  | .recoveryDoorbell img => Sys2Proof.Machine.execRecoveryDoorbell img s
  | .raiseSecurityVersion => Sys2Proof.Machine.execRaiseSecurityVersion s
  | .queueEnable fn q => Sys2Proof.Machine.execQueueEnable fn q s
  | .queueDisable fn q => Sys2Proof.Machine.execQueueDisable fn q s
  | .queueReset fn q => Sys2Proof.Machine.execQueueReset fn q s
  | .queueDescriptorWrite fn q off val => Sys2Proof.Machine.execQueueDescriptorWrite fn q off val s
  | .doorbellWrite fn q val => Sys2Proof.Machine.execDoorbellWrite fn q val s
  | .queuePacketStart => Sys2Proof.Machine.execQueuePacketStart s
  | .packetStepLimit fn q => Sys2Proof.Machine.execPacketStepLimit fn q s
  | .qpLi d imm => Sys2Proof.Machine.execQpLi d imm s
  | .qpLsh d imm => Sys2Proof.Machine.execQpLsh d imm s
  | .qpAdd d a n => Sys2Proof.Machine.execQpAdd d a n s
  | .qpAddi d a imm => Sys2Proof.Machine.execQpAddi d a imm s
  | .qpAnd d a n => Sys2Proof.Machine.execQpAnd d a n s
  | .qpShr d a sh => Sys2Proof.Machine.execQpShr d a sh s
  | .qpLd d a w imm => Sys2Proof.Machine.execQpLd d a w imm s
  | .qpSt d a w imm => Sys2Proof.Machine.execQpSt d a w imm s
  | .qpBeq d a imm => Sys2Proof.Machine.execQpBeq d a imm s
  | .qpBne d a imm => Sys2Proof.Machine.execQpBne d a imm s
  | .qpSetlc imm => Sys2Proof.Machine.execQpSetlc imm s
  | .qpLoop imm => Sys2Proof.Machine.execQpLoop imm s
  | .qpLaunch d a w => Sys2Proof.Machine.execQpLaunch d a w s
  | .qpDma a ws wd => Sys2Proof.Machine.execQpDma a ws wd s
  | .qpDwait => Sys2Proof.Machine.execQpDwait s
  | .qpLwait d a => Sys2Proof.Machine.execQpLwait d a s
  | .qpSignal d a w imm => Sys2Proof.Machine.execQpSignal d a w imm s
  | .qpIrq imm => Sys2Proof.Machine.execQpIrq imm s
  | .qpDone => Sys2Proof.Machine.execQpDone s
  | .qpFail imm => Sys2Proof.Machine.execQpFail imm s
  | .dmaComplete fn q k => Sys2Proof.Machine.execDmaComplete fn q k s
  | .tdiConfigViolation vf => Sys2Proof.Machine.execTdiConfigViolation vf s
  | .tdispStopInterface vf tenant => Sys2Proof.Machine.execTdispStopInterface vf tenant s
  | .functionLevelReset vf => Sys2Proof.Machine.execFunctionLevelReset vf s
  | .nonIdeRequest vf => Sys2Proof.Machine.execNonIdeRequest vf s
  | .setPowerCap watts => Sys2Proof.Machine.execSetPowerCap watts s
  | .fabricMapUpdate map => Sys2Proof.Machine.execFabricMapUpdate map s
  | .vfBinding vf tenant => Sys2Proof.Machine.execVfBinding vf tenant s
  | .vtimeSet vf o m => Sys2Proof.Machine.execVtimeSet vf o m s
  | .laneWeak link lane count margin => Sys2Proof.Machine.execLaneWeak link lane count margin s
  | .quietPointTimeout link => Sys2Proof.Machine.execQuietPointTimeout link s
  | .laneSwapMarker link => Sys2Proof.Machine.execLaneSwapMarker link s
  | .rekeyDue link => Sys2Proof.Machine.execRekeyDue link s
  | .linkKeyLoad link => Sys2Proof.Machine.execLinkKeyLoad link s
  | .keySwitchMarker link => Sys2Proof.Machine.execKeySwitchMarker link s
  | .keyExhausted link => Sys2Proof.Machine.execKeyExhausted link s
  | .keyDownTimeout link => Sys2Proof.Machine.execKeyDownTimeout link s
  | .flitAuthFail link seq => Sys2Proof.Machine.execFlitAuthFail link seq s
  | .replayRequest link seq => Sys2Proof.Machine.execReplayRequest link seq s
  | .linkKeyUpdate link key => Sys2Proof.Machine.execLinkKeyUpdate link key s
  | .getMeasurements party index => Sys2Proof.Machine.execGetMeasurements party index s
  | .keyDeliver tenant slot key => Sys2Proof.Machine.execKeyDeliver tenant slot key s
  | .policyKey tenant key => Sys2Proof.Machine.execPolicyKey tenant key s
  | .sessionEnd tenant => Sys2Proof.Machine.execSessionEnd tenant s
  | .operatorCounterRead ctx unit cls idx => Sys2Proof.Machine.execOperatorCounterRead ctx unit cls idx s
  | .pcSample core => Sys2Proof.Machine.execPcSample core s
  | .debugStop core slot => Sys2Proof.Machine.execDebugStop core slot s
  | .operatorDebugCommand core slot cmd => Sys2Proof.Machine.execOperatorDebugCommand core slot cmd s
  | .obsRawCounter core slot => Sys2Proof.Machine.execObsRawCounter core slot s
  | .obsRecordRing core slot => Sys2Proof.Machine.execObsRecordRing core slot s
  | .obsSetBreakpoint core slot => Sys2Proof.Machine.execObsSetBreakpoint core slot s
  | .obsDebugResume core slot => Sys2Proof.Machine.execObsDebugResume core slot s
  | .freeze => Sys2Proof.Machine.execFreeze s
  | .unfreeze => Sys2Proof.Machine.execUnfreeze s
  | .freezeMarker link => Sys2Proof.Machine.execFreezeMarker link s
  | .thawMarker link => Sys2Proof.Machine.execThawMarker link s
  | .freezeMarkerExpiry link => Sys2Proof.Machine.execFreezeMarkerExpiry link s
  | .correctedError loc => Sys2Proof.Machine.execCorrectedError loc s
  | .dramRowRepair loc => Sys2Proof.Machine.execDramRowRepair loc s
  | .l2WayRepair loc => Sys2Proof.Machine.execL2WayRepair loc s
  | .uncorrectedError pa => Sys2Proof.Machine.execUncorrectedError pa s
  | .pldmMonitor sensor => Sys2Proof.Machine.execPldmMonitor sensor s
  | .cAddi d imm => Sys2Proof.Machine.execCAddi d imm s
  | .cAdd d a => Sys2Proof.Machine.execCAdd d a s
  | .cSub d a => Sys2Proof.Machine.execCSub d a s
  | .cMov d a => Sys2Proof.Machine.execCMov d a s
  | .cLi d imm => Sys2Proof.Machine.execCLi d imm s
  | .cSlli d sh => Sys2Proof.Machine.execCSlli d sh s
  | .cAnd d a => Sys2Proof.Machine.execCAnd d a s
  | .cLdD d a off => Sys2Proof.Machine.execCLdD d a off s
  | .cStD b a off => Sys2Proof.Machine.execCStD b a off s
  | .cBeqz a off => Sys2Proof.Machine.execCBeqz a off s
  | .cBnez a off => Sys2Proof.Machine.execCBnez a off s
  | .cJ off => Sys2Proof.Machine.execCJ off s
  | .cJr a => Sys2Proof.Machine.execCJr a s
  | .cNop => Sys2Proof.Machine.execCNop s
  | .cQpop d q => Sys2Proof.Machine.execCQpop d q s
  | .tdiConfigLock vf tenant => Sys2Proof.Machine.execTdiConfigLock vf tenant s
  | .tdiRunStart vf tenant => Sys2Proof.Machine.execTdiRunStart vf tenant s
  | .ideKmKeyProgram fn stream key tenant => Sys2Proof.Machine.execIdeKmKeyProgram fn stream key tenant s
  | .spdmSessionStart party => Sys2Proof.Machine.execSpdmSessionStart party s
  | .counterBucketBoundary ctx cls => Sys2Proof.Machine.execCounterBucketBoundary ctx cls s

end Sys2Proof.Machine
end

