-- ==== Sys2Proof/Machine/Kinds.lean ====
section
/-! DEFINITION. Which rows of the opcode table are events of the machine, and which are queue-program operations. -/

namespace Sys2Proof.Machine

open Sys2Proof

/-- The row is an event or an operation without an encoding: it happens by itself, or by the outside world's action. -/
def isEvent : Instr → Bool
  | .gangFormation _ => true
  | .atomicResult _ _ => true
  | .copyStart _ => true
  | .copyComplete _ _ => true
  | .copyFault _ _ => true
  | .syncBlockPost _ => true
  | .syncwRecheck _ _ => true
  | .joinRecheck _ _ => true
  | .callatAccept _ _ => true
  | .callatRetry _ _ => true
  | .callatReply _ _ => true
  | .remoteCallFailed _ _ _ => true
  | .taskCancelRequest _ _ => true
  | .joinCounterFailure _ => true
  | .taskDispatch _ _ => true
  | .taskSteal _ _ => true
  | .sendDelivery _ _ => true
  | .sendRetry _ _ => true
  | .sendTimeOut _ _ => true
  | .streamHeader _ _ => true
  | .streamWord _ _ => true
  | .streamCloseMarker _ _ => true
  | .barrierRelease _ _ => true
  | .barrierTimeOut _ _ => true
  | .leaseGrant _ => true
  | .leaseTimeLimit _ => true
  | .leaseIdleEnd _ => true
  | .leaseOverrunStop _ => true
  | .matrixCommandStart _ _ _ => true
  | .matrixCommandComplete _ _ _ => true
  | .matrixSuspend _ _ _ _ => true
  | .drainComplete _ _ _ => true
  | .drainqComplete _ _ _ => true
  | .drainFault _ _ _ => true
  | .mailboxConfigure _ _ => true
  | .mailboxDelivery _ _ => true
  | .hblkComplete _ => true
  | .handlerWatchdog _ _ => true
  | .requestDeferred _ => true
  | .handlerRd _ _ => true
  | .handlerWr _ _ => true
  | .handlerAmo _ _ => true
  | .handlerWb _ _ => true
  | .handlerEvs _ _ => true
  | .handlerHint _ _ => true
  | .handlerDone _ _ => true
  | .handlerRecall _ _ => true
  | .handlerProxyTag _ _ => true
  | .handlerGrant _ _ => true
  | .handlerBlkdone _ _ => true
  | .handlerProtocolMsg _ _ => true
  | .tagChange _ => true
  | .tagAck _ => true
  | .grantReceive _ => true
  | .releaseNotice _ => true
  | .resumeReceive _ => true
  | .accessRefused _ => true
  | .peerAckSubstitute _ => true
  | .loadFill _ _ => true
  | .storePerform _ _ => true
  | .mergeWindowClose _ => true
  | .pageWalk _ => true
  | .remoteOutcome _ _ _ => true
  | .remoteTimeOut _ _ => true
  | .eventInterrupt _ => true
  | .gangSwitchAgreement _ => true
  | .gangSwitchStop _ => true
  | .contextImageWrite _ => true
  | .contextRestore _ => true
  | .guestOpPause _ => true
  | .guestOpContinue _ => true
  | .fatalStop _ _ => true
  | .haltTreeStop _ => true
  | .distributorRound => true
  | .launchLoad _ => true
  | .launchEnd _ => true
  | .powerDecision => true
  | .clockBoundary => true
  | .dramRefresh _ _ => true
  | .stackTempSample _ _ _ => true
  | .packageReset _ => true
  | .recoveryDoorbell _ => true
  | .raiseSecurityVersion => true
  | .queueEnable _ _ => true
  | .queueDisable _ _ => true
  | .queueReset _ _ => true
  | .queueDescriptorWrite _ _ _ _ => true
  | .doorbellWrite _ _ _ => true
  | .queuePacketStart => true
  | .packetStepLimit _ _ => true
  | .dmaComplete _ _ _ => true
  | .tdiConfigViolation _ => true
  | .tdispStopInterface _ _ => true
  | .functionLevelReset _ => true
  | .nonIdeRequest _ => true
  | .setPowerCap _ => true
  | .fabricMapUpdate _ => true
  | .vfBinding _ _ => true
  | .vtimeSet _ _ _ => true
  | .laneWeak _ _ _ _ => true
  | .quietPointTimeout _ => true
  | .laneSwapMarker _ => true
  | .rekeyDue _ => true
  | .linkKeyLoad _ => true
  | .keySwitchMarker _ => true
  | .keyExhausted _ => true
  | .keyDownTimeout _ => true
  | .flitAuthFail _ _ => true
  | .replayRequest _ _ => true
  | .linkKeyUpdate _ _ => true
  | .getMeasurements _ _ => true
  | .keyDeliver _ _ _ => true
  | .policyKey _ _ => true
  | .sessionEnd _ => true
  | .operatorCounterRead _ _ _ _ => true
  | .pcSample _ => true
  | .debugStop _ _ => true
  | .operatorDebugCommand _ _ _ => true
  | .obsRawCounter _ _ => true
  | .obsRecordRing _ _ => true
  | .obsSetBreakpoint _ _ => true
  | .obsDebugResume _ _ => true
  | .freeze => true
  | .unfreeze => true
  | .freezeMarker _ => true
  | .thawMarker _ => true
  | .freezeMarkerExpiry _ => true
  | .correctedError _ => true
  | .dramRowRepair _ => true
  | .l2WayRepair _ => true
  | .uncorrectedError _ => true
  | .pldmMonitor _ => true
  | .tdiConfigLock _ _ => true
  | .tdiRunStart _ _ => true
  | .ideKmKeyProgram _ _ _ _ => true
  | .spdmSessionStart _ => true
  | .counterBucketBoundary _ _ => true
  | _ => false

/-- The row is an operation of a queue program (R354). -/
def isQueueOp : Instr → Bool
  | .qpLi _ _ => true
  | .qpLsh _ _ => true
  | .qpAdd _ _ _ => true
  | .qpAddi _ _ _ => true
  | .qpAnd _ _ _ => true
  | .qpShr _ _ _ => true
  | .qpLd _ _ _ _ => true
  | .qpSt _ _ _ _ => true
  | .qpBeq _ _ _ => true
  | .qpBne _ _ _ => true
  | .qpSetlc _ => true
  | .qpLoop _ => true
  | .qpLaunch _ _ _ => true
  | .qpDma _ _ _ => true
  | .qpDwait => true
  | .qpLwait _ _ => true
  | .qpSignal _ _ _ _ => true
  | .qpIrq _ => true
  | .qpDone => true
  | .qpFail _ => true
  | _ => false

end Sys2Proof.Machine
end

