-- ==== Sys2Proof/Machine/Guards.lean ====
section
/-! DEFINITION. When an activity of the package may take place: nothing while the clocks stand, only recovery in recovery, and
no progress of a core's tasks, messages and barriers while its partition is not running (R320, R322, R323, R366, R382, R420). -/

namespace Sys2Proof.Machine

open Sys2Proof

/-- Happens without a clock: the management connector's freeze pin and reset pin, and the temperature sensors (R382, R420). -/
def unclocked : Instr → Bool
  | .freeze => true
  | .unfreeze => true
  | .packageReset _ => true
  | .stackTempSample _ _ _ => true
  | _ => false

/-- Happens in recovery too: what the boot ROM and the management connector serve (R366). -/
def inRecovery : Instr → Bool
  | .recoveryDoorbell _ => true
  | .pldmMonitor _ => true
  | i => unclocked i

/-- The core whose own work an event takes further: its tasks, messages, streams, barriers and waits. Replies, fills, stores
and outcomes that are on their way are not among them: they land (R322). -/
def workOf : Instr → Option CoreId
  | .gangFormation c => .some c
  | .syncwRecheck c _ => .some c
  | .joinRecheck c _ => .some c
  | .callatAccept c _ => .some c
  | .callatRetry c _ => .some c
  | .remoteCallFailed c _ _ => .some c
  | .taskCancelRequest c _ => .some c
  | .taskDispatch c _ => .some c
  | .taskSteal c _ => .some c
  | .sendDelivery c _ => .some c
  | .sendRetry c _ => .some c
  | .sendTimeOut c _ => .some c
  | .streamHeader c _ => .some c
  | .streamWord c _ => .some c
  | .streamCloseMarker c _ => .some c
  | .barrierRelease c _ => .some c
  | .barrierTimeOut c _ => .some c
  | .mailboxConfigure c _ => .some c
  | .eventInterrupt c => .some c
  | .fatalStop c _ => .some c
  | .obsRawCounter c _ => .some c
  | .obsRecordRing c _ => .some c
  | .obsSetBreakpoint c _ => .some c
  | .obsDebugResume c _ => .some c
  | .pcSample c => .some c
  | _ => .none

/-- The partition of a core runs, or has still to be reached by a stop. -/
def State.coreRuns (s : State) (c : CoreId) : Bool := (s.partOfCore c).any Partition.issues

/-- The clocks stand: frozen, or without the main supply. -/
def State.clockless (s : State) : Bool := s.plant.frozen.isSome || s.plant.off

/-- An event may take place now. -/
def State.mayHappen (s : State) (i : Instr) : Bool :=
  if s.clockless then unclocked i
  else if s.plant.recovery then inRecovery i
  else (workOf i).all s.coreRuns

/-- Cores, protocol processors, engines and the command processor may move. -/
def State.alive (s : State) : Bool := !s.clockless && !s.plant.recovery

end Sys2Proof.Machine
end

