-- ==== Sys2Proof/Machine/Peers.lean ====
section
/-! DEFINITION. What fabric peers do to this package: their accesses to its memory, their tasks, and the messages between their
caches and homes and the PPs here (R12, R23, R114, R122, R166, R179, R287, R289, R306; log 48). -/

namespace Sys2Proof.Machine

open Sys2Proof

/-- The designation of a peer package, with a request tag (R287). -/
def agentOfPeer (pkg rtag : Nat) : Word := BitVec.ofNat 64 (2 * 2 ^ 14 + pkg % 4096 + rtag % 2 ^ 16 * 2 ^ 48)

/-- The bytes lie in one 32-byte block of this package's memory or scratchpad. -/
def peerBytes (pa size : Nat) : Bool :=
  (placeOf pa == .dram || placeOf pa == .scratch) && decide (1 ≤ size ∧ pa % 32 + size ≤ 32)

/-- An atomic operation of a peer, performed at its home or bank. -/
def State.peerAtomic (s : State) (op pa size value compare : Nat) : State :=
  if !peerBytes pa size || s.poisoned pa then s
  else match amoNew op size (s.coherentRead pa size) value compare with
    | .some v => s.coherentWrite pa size v
    | .none => s

/-- A task of a peer's `callat` enters its target's queue, behind the operations that the queue's arbiter takes first, also of a core in a
gang; a full queue refuses it, and a core of no running partition. -/
def State.peerTask (s : State) (target pc : Word) (args : Vector Word 4) (reply : Bool) : State :=
  let t := target.toNat % 8192
  if badDesignation target ∨ designatedPkg target ≠ s.pkg ∨ !((s.partOfCore t).any fun p => p.state == .running) ∨ s.queueTaken t then s
  else ((s.pushTask t false
    { index := 0, pc := pc &&& ~~~1#64, args := args, tag := ⟨.none, 0, reply⟩, pinned := true, launch := s.launchOf t }).map
      (·.1)).getD s

/-- A peer asks the home of a block for a tag, or for an access there. -/
def State.peerRequest (s : State) (pkg type block rtag : Nat) (r : Region) : State :=
  if placeOf block ≠ .dram ∨ block % 32 ≠ 0 ∨ 2 < type then s
  else s.pushRequest (homePp block) (plainMsg type block (agentOfPeer pkg rtag) { r with homePa := block })

/-- A peer gives a block back to its home: dirty data with a type 3, a clean drop with a type 4. -/
def State.peerWriteBack (s : State) (pkg block : Nat) (data : Option (BitVec 256)) (r : Region) : State :=
  if placeOf block ≠ .dram ∨ block % 32 ≠ 0 then s
  else
    let m := plainMsg (if data.isSome then 3 else 4) block (agentOfPeer pkg 0) { r with homePa := block }
    let s : State := match data with
      | .some d => { s with mem := putHomeData s.mem block d }
      | .none => s
    s.pushReply (Agent.peer pkg).code (homePp block) m

/-- A peer acknowledges the tag change that is message `k` on its way (R289). -/
def State.peerAcks (s : State) (k : Nat) (data : Option (BitVec 256)) : State :=
  match s.takeNet k with
  | .some (.tagChange p a block _ counted _ _, t) =>
    match agentAt p a with
    | .peer _ => { t with net := t.net ++ [.tagAck p a block counted data s.time] }
    | _ => s
  | _ => s

/-- An operation that arrives from a fabric peer. A read changes nothing here. -/
def State.peerOp (s : State) : PeerOp → State
  | .read _ _ => s
  | .write pa size value => if peerBytes pa size then s.coherentWrite pa size value else s
  | .atomic op pa size value compare => s.peerAtomic op pa size value compare
  | .post pa bytes bits =>
    if placeOf pa = .scratch ∧ pa % 32 = 0 then
      s.sendPost { pa := pa, bytes := bytes, bits := bits, broken := false, source := .none, path := 5 }
    else s
  | .task target pc args reply => s.peerTask target pc args reply
  | .cancel handle => ((s.cancelHere handle).map (·.1)).getD s
  | .request pkg type block rtag r => s.peerRequest pkg type block rtag r
  | .writeBack pkg block data r => s.peerWriteBack pkg block data r
  | .ack k data => s.peerAcks k data
  | .grant p block tag data payload r =>
    s.grantRdc (Agent.peer (peerPkg block)).code p (agentOfPeer (peerPkg block) 0) block tag false data payload r
  | .tagChange p block tag counted r =>
    s.pushReply (Agent.peer (peerPkg block)).code p { plainMsg 8 block (agentOfPeer (peerPkg block) 0) r with
      proxy := true, payload := BitVec.ofNat 64 (tag % 4 + (if counted then 16 else 0)) }
  | .refuse p block code => s.refuseAtPp p block code

end Sys2Proof.Machine
end

