-- ==== Sys2Proof/Machine/Issue.lean ====
section
/-! DEFINITION. Issue of one instruction: which thread of a core or PP, where its word comes from, gangs, and the other
activities of the package (R15, R17, R29, R30, R34, R97, R104 to R107, R281, R301, R378). -/

namespace Sys2Proof.Machine

open Sys2Proof

/-- Waits that leave the instruction without effect, to be executed again. -/
def Wait.again' : Wait → Bool
  | .scalar _ | .vector _ | .again | .full | .room _ | .walk _ _ | .event | .queue _ _ | .tag _ | .put => true
  | _ => false

/-! ## The word that a thread executes -/

/-- The next instruction word of the executing thread and its length: from its frame, its PP's instruction memory, or memory
through translation. -/
def State.nextWord (s : State) : Except Exc (BitVec 32 × Nat) :=
  match s.cur.who with
  | .pp p _ => (s.ppOf p).fetch s.cur.pc
  | .core _ _ =>
    match s.fetchBreak with
    | .some n => .error (.debug n)
    | .none => match s.cur.frame[s.cur.pos]? with
      | .some f => .ok (replayWord s.cur.sys.repst s.cur.latch s.vregs f, f.len)
      | .none => s.fetch s.cur.pc

/-- The instruction of a word. -/
noncomputable def decodeNext (w : BitVec 32) (len : Nat) : Except DecodeError Instr :=
  if len = 2 then decodeParcel (w.setWidth 16) else decodeWord w

/-- Executes a word in the executing thread. -/
noncomputable def State.runWord (s : State) (w : BitVec 32) (len : Nat) : Host.Outcome State Fault Refusal :=
  let s : State := { s with cur := { s.cur with word := w, wait := .none, ended := .done } }
  match decodeNext w len with
  | .ok i => exec i s
  | .error _ => .next s.illegal

/-- Fills the sequencer of a thread that came back inside a frame (R100). -/
def State.refill (s : State) : Except Exc State :=
  if !s.cur.recapture then .ok s
  else match s.capture (s.cur.pc - BitVec.ofNat 64 (2 * s.cur.bofs)) 0 .none 16 with
    | .error (.fetch e) => .error e
    | .error (.check _ t) => .error (.trap t)
    | .ok (body, _) => .ok { s with cur := { s.cur with frame := body, recapture := false } }

/-- One instruction of the executing thread. -/
noncomputable def State.runCur (s : State) : Host.Outcome State Fault Refusal :=
  match s.refill with
  | .error e => .next (s.raise e)
  | .ok s =>
  match s.nextWord with
  | .error e => .next (s.raise e)
  | .ok (w, len) => s.runWord w len

/-- The instruction of a thread that has just ended it in this way has been issued: it is done, or it waits with its effect under
way (R372). -/
def Hart.hasIssued (h : Hart) : Bool :=
  match h.ended with
  | .done => true
  | .waited => !h.wait.again' && h.life == .live
  | .trapped => false

/-- Counts the issued instruction of the executing thread: class 2, and a translation that was missing: class 3 (R372). -/
def State.countIssue (s : State) (c : CoreId) : State :=
  if s.cur.hasIssued then s.count (s.ctxNoOf c) c 2 0 1
  else match s.cur.wait with
    | .walk _ _ => s.count (s.ctxNoOf c) c 3 1 1
    | _ => s

/-! ## Gangs (R17, R104 to R107) -/

/-- The instruction is resolved by the leader alone: a branch, `jalr`, `c.jr` or `rep` (R107). -/
def leaderOnly (w : BitVec 32) (len : Nat) : Bool :=
  if len = 2 then (let f := w.toNat / 2 % 16; f == 10 || f == 11 || f == 13)
  else primaryOf w == 0x10 || primaryOf w == 0x12 || primaryOf w == 0x13

/-- The register that the instruction links in every member: of `jalr` x[d]. -/
def linkReg (w : BitVec 32) (len : Nat) : Reg := if len = 4 ∧ primaryOf w = 0x12 then w.extractLsb' 8 5 else 0

def isTret (w : BitVec 32) (len : Nat) : Bool := len == 4 && primaryOf w == 0x70 && w.toNat / 2 ^ 13 % 8 == 2

/-- What follows the leader's stream in a follower: pc, latch and frame. -/
def Hart.follow (h l : Hart) : Hart :=
  { h with
    pc := l.pc, latch := l.latch, frame := l.frame, recapture := l.recapture
    sys := { h.sys with repst := l.sys.repst, status := setField h.sys.status 11 1 (field l.sys.status 11 1) } }

/-- Waits for reads that can still fail: the gang commits once they have landed (R105). -/
def Wait.late : Wait → Bool
  | .access | .join _ _ => true
  | _ => false

/-- Waits for what acts outside the core and, once under way, does not fail: it sets out when nothing else can (R105). -/
def Wait.acts : Wait → Bool
  | .atomic | .outcome => true
  | _ => false

/-- Runs a word in one member of a gang, under the leader's stream. Where the member's part has landed, it only goes on; what the
leader alone resolves leaves a follower with the link value. -/
noncomputable def State.runMember (s : State) (m : CoreId) (slot : Nat) (lead : Hart) (w : BitVec 32) (len : Nat) :
    Host.Outcome State Fault Refusal :=
  let s := s.focus (.core m slot)
  match s.cur.landed with
  | .some (n, _, _) => .next { s with cur := s.cur.advance n }
  | .none =>
    let s : State := { s with cur := { s.cur.follow lead with ended := .done } }
    if m ≠ lead.who.core' ∧ leaderOnly w len then
      match s.cur.needX (linkReg w len) with
      | .error e => .next (s.raise e)
      | .ok _ => .next { s with cur := s.cur.setX (linkReg w len) (lead.pc + BitVec.ofNat 64 len) }
    else s.runWord w len

/-- Runs a word in several members, one after the other. -/
noncomputable def State.runMembers (s : State) (slot : Nat) (lead : Hart) (w : BitVec 32) (len : Nat) :
    List CoreId → Host.Outcome State Fault Refusal
  | [] => .next s
  | m :: rest =>
    match s.runMember m slot lead w len with
    | .next s => s.runMembers slot lead w len rest
    | r => r

/-- The threads of the slot as the word, run alone in each member, leaves them. -/
noncomputable def State.trials (s : State) (slot : Nat) (lead : Hart) (w : BitVec 32) (len : Nat) (ms : List CoreId) :
    List (CoreId × Hart) :=
  ms.filterMap fun m =>
    match s.runMember m slot lead w len with
    | .next t => .some (m, t.cur)
    | _ => .none

/-- The number of the breakpoint that stops a member, as its trace record has it. -/
noncomputable def State.breakNumber (s : State) (m : CoreId) (slot : Nat) (lead : Hart) (w : BitVec 32) (len : Nat) : Nat :=
  match s.runMember m slot lead w len with
  | .next t => ((t.oper.traced.getLast?).map fun r => r.detail.toNat).getD 0
  | _ => 0

/-- Members trap: the slot traps in every member, at the pc that the first of them found. A `tret` whose recapture fails has
returned in every member. -/
noncomputable def State.gangFails (s : State) (leader : CoreId) (slot : Nat) (w : BitVec 32) (len : Nat) (bad : List (CoreId × Hart)) :
    State :=
  let s := if isTret w len ∧ bad.all (fun e => e.2.sys.tcause ≠ 4) then
      (s.gangOf leader).foldl (fun s m => s.withHart (.core m slot) Hart.returnTrap) s else s
  let of := fun m => bad.find? fun e => e.1 == m
  s.gangStops leader slot (bad.head?.bind fun e => if e.2.wait = .fatal true then .none else .some e.2.sys.tepc)
    (fun m => (of m).map fun e => Trap.ofWords e.2.sys.tcause e.2.sys.tval)
    fun m => (of m).bind fun e => match e.2.wait with
      | .fatal p => .some p
      | _ => .none

/-- Every member has a part in the instruction that cannot fail. Should the parts of earlier members leave one without room, all
wait; else the followers go on where the leader does. -/
noncomputable def State.gangCommits (s : State) (leader : CoreId) (slot : Nat) (lead : Hart) (w : BitVec 32) (len : Nat) :
    Host.Outcome State Fault Refusal :=
  let ms := s.gangOf leader
  match s.runMembers slot lead w len ms with
  | .next t =>
    match (ms.map fun m => (m, t.hartOf (.core m slot))).find? fun e => e.2.ended == .waited && e.2.wait.again' with
    | .some (m, h) => .next (s.withHart (.core m slot) fun q => { q with wait := h.wait, ended := .waited })
    | .none =>
      let t := ms.foldl (fun t m => if (t.hartOf (.core m slot)).hasIssued then t.count (t.ctxNoOf m) m 2 0 1 else t) t
      if leaderOnly w len || isTret w len then
        let l := t.hartOf (.core leader slot)
        .next (ms.foldl (fun t m => if m = leader then t else t.withHart (.core m slot) fun h => (h.settle.follow l)) t)
      else .next t
  | r => r

/-- One instruction of a gang's slot: committed in every member, or in none (R104 to R107). -/
noncomputable def State.runGang (s : State) (leader : CoreId) (slot : Nat) : Host.Outcome State Fault Refusal :=
  let f := s.focus (.core leader slot)
  match f.refill.bind fun f => f.nextWord.map fun w => (f, w) with
  | .error (.trap t) => .next (s.gangTrap leader slot .none fun m => if m = leader then .some t else .none)
  | .error (.debug n) => .next (s.debugStop leader slot n)
  | .error e => .next (f.raise e)
  | .ok (f, w, len) =>
    let s := f
    let lead := f.cur
    let tried := s.trials slot lead w len (s.gangOf leader)
    let pick := fun (ok : Hart → Bool) => tried.filter fun e => ok e.2
    let only := fun (es : List (CoreId × Hart)) => s.runMembers slot lead w len (es.map (·.1))
    let bad := pick fun h => h.ended == .trapped || h.wait == .fatal true
    let again := pick fun h => h.ended == .waited && h.wait.again'
    let late := pick fun h => h.ended == .waited && h.wait.late
    let acts := pick fun h => h.ended == .waited && h.wait.acts
    if !bad.isEmpty then .next (s.gangFails leader slot w len bad)
    else if let .some (m, _) := (pick fun h => h.life == .debug).head? then .next (s.debugStop leader slot (s.breakNumber m slot lead w len))
    else if !again.isEmpty then only again
    else if !late.isEmpty then only late
    else if !acts.isEmpty then only acts
    else s.gangCommits leader slot lead w len

/-! ## One issue of a core or a PP -/

/-- Requests of a core for blocks that it had not before. -/
def newRequests (a b : Core) : Nat := (b.requests.filter fun q => !(a.requests.any fun p => p.rtag == q.rtag)).length

/-- How many bits are set. -/
def bitCount (b : BitVec 8) : Nat := ((List.range 8).filter b.getLsbD).length

/-- Sectors of a line that a cache did not hold before. -/
def newSectors (lines : List CacheLine) (l : CacheLine) : Nat :=
  let old := ((lines.find? fun o => o.holder == l.holder && o.line == l.line).map (·.sectors)).getD 0
  bitCount (l.sectors &&& ~~~old)

/-- Counts what has happened since a state: traps entered (class 2), L1 misses (class 3), bytes that bursts brought from memory and
bytes of operations sent to peers (class 7) (R372, R374). -/
def State.countActivity (s t : State) : State :=
  let t := (t.oper.traced.drop s.oper.traced.length).foldl
    (fun u r => if r.type = 1 then u.count r.ctx r.core 2 1 1 else u) t
  let t := t.cores.foldl (fun u k =>
    let n := newRequests (s.coreOf k.id) k
    let f := (t.remoteOps k.id).length - (s.remoteOps k.id).length
    let u := if n = 0 then u else u.count (t.ctxNoOf k.id) k.id 3 0 n
    if f = 0 then u else u.count (t.ctxNoOf k.id) k.id 7 1 (32 * f)) t
  t.lines.foldl (fun u l =>
    let n := newSectors s.lines l
    if n = 0 then u
    else (u.ctxs.filter fun c => c.tenant == l.tenant).foldl (fun u c => u.count c.num l.holder 7 0 (32 * n)) u) t

/-- What a state's activity answers, counted. -/
def State.counted (s : State) : Host.Outcome State Fault Refusal → Host.Outcome State Fault Refusal
  | .next t => .next (s.countActivity t)
  | r => r

/-- What an issue of a core by itself answers, counted. -/
def State.countedBy (s : State) (c : CoreId) : Host.Outcome State Fault Refusal → Host.Outcome State Fault Refusal
  | .next t => .next (s.countActivity (t.countIssue c))
  | r => r

/-- A core issues one instruction; with no slot ready nothing happens. -/
noncomputable def State.issueCore (s : State) (c : CoreId) : Host.Outcome State Fault Refusal :=
  match (if s.alive then s.nextSlot c else .none) with
  | .none => .next s
  | .some i =>
    let s := s.withCore c fun k => { k with lastSlot := i }
    if (s.coreOf c).ganged then s.counted (s.runGang c i) else s.countedBy c (s.focus (.core c i)).runCur

/-- A completed step of a handler is counted; a wait is not (R301, R372). -/
def State.countStep (s : State) (p : PpId) : State :=
  if s.cur.ended = .done then
    ({ s with cur := s.cur.setHandler fun k => { k with steps := k.steps + 1 } } : State).count s.cur.ctxOfHandler.msg.ctx p 6 3 1
  else s

/-- A PP issues one handler instruction; the 257th step ends the handler. -/
noncomputable def State.issuePp (s : State) (p : PpId) : Host.Outcome State Fault Refusal :=
  match (if s.alive then s.nextHandler p else .none) with
  | .none => .next s
  | .some t =>
    let s := (s.withPp p fun q => { q with lastThread := t }).focus (.pp p t)
    if 256 ≤ s.cur.ctxOfHandler.steps then .next (s.handlerFault 1)
    else match s.runCur with
      | .next s => .next (s.countStep p)
      | r => r

/-! ## The other agents -/

/-- The slot that an event interrupt goes to stops for the debugger before its next instruction: the stop comes first (R378). -/
noncomputable def State.stopFirst (s : State) (c : CoreId) : Option State :=
  (s.interruptSlot c).bind fun k =>
    match (if (s.coreOf c).ganged then s.runGang ((s.gangOf c).headD c) k else (s.focus (.core c k)).runCur) with
    | .next t => if (t.hartOf (.core c k)).life = .debug then .some t else .none
    | _ => .none

/-- What an event does: an event interrupt gives way to a debug stop. -/
noncomputable def State.happens (s : State) (i : Instr) : Host.Outcome State Fault Refusal :=
  match i with
  | .eventInterrupt c => match s.stopFirst c with
    | .some t => .next t
    | .none => exec i s
  | _ => exec i s

/-- An event takes place, when it may. -/
noncomputable def State.happen (s : State) (i : Instr) : Host.Outcome State Fault Refusal :=
  if s.mayHappen i then s.counted (s.happens i) else .next s

/-- The command processor: an idle one takes a queue; else it runs the next op of the packet (R354, R355). The 257th step of a
packet fails it, and a program that has run to its end ends the packet as `done` does. -/
noncomputable def State.issueQueue (s : State) : Host.Outcome State Fault Refusal :=
  if !s.alive then .next s
  else match s.running? with
    | .none => .next s.packetStart
    | .some q =>
      match q.ops[q.pc]? with
        | .none => .next (s.queueDone q)
        | .some w => if 256 ≤ q.steps then .next (s.stepLimit q.fn q.num) else match decodeQueueOp w with
          | .ok i => exec i s
          | .error _ => .next (s.queueFail q 0 q.pc)

/-- The copy engine of a cluster moves a piece of its `k`-th copy (R160). -/
def State.issueCopy (s : State) (cl : ClusterId) (k : Nat) : State :=
  match s.copyAt cl k with
  | .some q => if s.alive then s.copyPiece q else s
  | .none => s

/-- The matrix array of a cluster does the next part of a command's work (R219). -/
def State.issueGroup (s : State) (cl : ClusterId) (bank k : Nat) : State := if s.alive then s.rowGroup cl bank k else s

/-- It moves one piece out of turn (R239). -/
def State.issuePiece (s : State) (cl : ClusterId) (bank k kc g i : Nat) : State :=
  if s.alive then s.matrixPiece cl bank k kc g i else s

/-- An activity of the networks, the units or a peer, while the clocks run. -/
def State.whenAlive (s : State) (f : State → State) : State := if s.alive then f s else s

/-- The instruction cache of a core takes a block of code (R341). -/
def State.issueCode (s : State) (c : CoreId) (va : Nat) : State := if s.alive then s.codeFill c va else s

/-- Time passes before a free activity: device time, unless the clocks stand, when only the time since the freeze goes on; and
records on their way are delivered. -/
def State.pass (s : State) (dt : Nat) : State :=
  if s.plant.off then s
  else match s.plant.frozen with
    | .some t => { s with plant := { s.plant with frozen := .some (t + dt) } }
    | .none => (s.goOn dt).deliverAll

end Sys2Proof.Machine
end

