-- ==== Sys2Proof/Machine/Step.lean ====
section
/-! DEFINITION. One step of the package: the next activity of the agenda, or one that is free (log 2). -/

namespace Sys2Proof.Machine

open Sys2Proof

/-- Does one activity. -/
noncomputable def State.perform (s : State) : Activity → Host.Outcome State Fault Refusal
  | .issue c => s.issueCore c
  | .handler p => s.issuePp p
  | .event i => if isEvent i then s.happen i else .fault .noSuchAgent
  | .queue => s.issueQueue
  | .copyPiece cl k => .next (s.issueCopy cl k)
  | .rowGroup cl bank k => .next (s.issueGroup cl bank k)
  | .matrixPiece cl bank k kc g i => .next (s.issuePiece cl bank k kc g i)
  | .codeFill c va => .next (s.issueCode c va)
  | .spread k => .next (s.whenAlive fun s => s.spreadPast k)
  | .settle k => .next (s.whenAlive fun s => s.settlePast k)
  | .polls c => .next (s.whenAlive fun s => if s.coreRuns c then s.servePolls c else s)
  | .unitRead c k => .next (s.whenAlive fun s => s.serveUnit c k)
  | .peer op => .next (s.whenAlive fun s => s.peerOp op)

/-- One step. -/
noncomputable def step (s : State) : Host.Outcome State Fault Refusal :=
  match s.agenda with
  | a :: rest => ({ s with agenda := rest } : State).perform a
  | [] => (({ s with turn := s.turn + 1 } : State).pass (Config.elapsed s.turn)).perform (Config.nextActivity s.turn)

/-! ## Placing one instruction where the next step fetches it (log 4) -/

/-- Core 0 runs a partition: the one it runs, or one of cluster 0 alone. -/
def State.withRunningCore (s : State) : State :=
  if s.coreIssues 0 then s
  else
    let p : Partition :=
      { id := s.freshPart, launch := 0, ctx := 0, tenant := 0, state := .running, groups := [⟨0, 0, 0⟩], gw := 1, gh := 1
        stopScope := 0, seed := 0, priority := 0, weight := 1 }
    let c : Ctx := { num := 0, tenant := 0, key := 0, state := .running }
    ({ s with parts := s.parts ++ [p], ctxs := c :: s.ctxs.filter fun k => k.num != 0 } : State).withCore 0 fun k =>
      { k with part := .some p.id }

/-- The page at virtual address 0 is the first page of memory, for core 0. -/
def fetchPage (ctx : CtxNo) : TlbEntry :=
  { level := 0, unit := 0, ctx := ctx, base := 0, large := false, pa := 0, uncached := false, dirty := true, superOnly := false
    exec := true, write := true, read := true }

/-- Slot 0 of core 0 issues next, from address 0, which holds the word. -/
def State.withCoreWord (s : State) (w : Nat) : State :=
  let s := (s.withRunningCore.withCore 0 fun k => { k with gang := .none, lastSlot := k.threads - 1, icache := [] }).focus (.core 0 0)
  let s := s.coherentWrite 0 4 w
  { s with
    cur := { s.cur with
      life := .live, wait := .none, pc := 0, latch := .none, frame := [], resumed := true, walkFault := .none, landed := .none
      recapture := false, stopAsked := false }
    poison := s.poison.filter fun b => b != 0
    tlb := fetchPage (s.ctxNoOf 0) :: s.tlb
    agenda := [.issue 0] }

/-- Thread 0 of PP 0 issues next, from the start of the loaded handlers, which holds the word. -/
def State.withHandlerWord (s : State) (w : Nat) : State :=
  let s := (s.withPp 0 fun q => { q with lastThread := 7, imem := writeBytes q.imem 0x4000 4 w }).focus (.pp 0 0)
  { s with
    cur := { s.cur with
      life := .live, wait := .none, pc := 0x4000
      handler := .some { (s.cur.handler.getD default) with steps := 0 } }
    agenda := [.handler 0] }

/-- The command processor runs the word as the only op of queue 0 of the physical function. -/
def State.withQueueWord (s : State) (w : Nat) : State :=
  let q := { s.queueAt 0 with enable := true, st := 1, active := true, pc := 0, steps := 0, wait := .none, ops := [BitVec.ofNat 32 w] }
  let s := s.setQueue q
  { s with host := { s.host with current := .some 0 }, agenda := [.queue] }

/-- The clocks run and firmware is up. -/
def State.powered (s : State) : State := { s with plant := { s.plant with frozen := .none, off := false, recovery := false } }

/-- The state in which the very next step fetches and runs the instruction with these bits: on a core, on a PP when only
handlers execute it, or in a queue program. -/
noncomputable def State.withFetchWord (s : State) (nbits w : Nat) : State :=
  let w := w % 2 ^ nbits
  let core := nbits = 16 ∨ (w % 2 = 1 ∧ (decodeWord (BitVec.ofNat 32 w)).toOption.isSome)
  if !decide core then s.powered.withQueueWord w
  else if nbits ≠ 16 ∧ ppOnly (BitVec.ofNat 32 w) then s.powered.withHandlerWord w
  else s.powered.withCoreWord w

end Sys2Proof.Machine
end

