-- ==== Sys2Proof/Safety.lean ====
section
/-! DEFINITION. What counts as a safe state and a safe step, in the terms the claims use: registers that are full, what an
instruction leaves alone, and the instructions that act on their own thread's registers only. -/

namespace Sys2Proof.Machine

open Sys2Proof

/-! ## Operands -/

/-- The scalar registers named are full (R16). -/
def Hart.FullX (h : Hart) (l : List Reg) : Prop := ∀ r ∈ l, h.emptyX r = false

/-- The vector registers named are full. -/
def Hart.FullV (h : Hart) (l : List VReg) : Prop := ∀ r ∈ l, h.emptyV r = false

/-- Four registers from `r` on (R112, R158). -/
def run4 (r : Reg) : List Reg := [r, regPlus r 1, regPlus (regPlus r 1) 1, regPlus (regPlus (regPlus r 1) 1) 1]

/-- The values of four registers from `r` on. -/
def Hart.quad (h : Hart) (r : Reg) : List Word := (run4 r).map h.readX

/-- The executing thread becomes `h`, and nothing else changes. -/
def State.withCur (s : State) (h : Hart) : State := { s with cur := h }

/-- The step goes on: neither a fault nor a refusal. -/
def Proceeds (r : Host.Outcome State Fault Refusal) : Prop := ∃ t, r = .next t

/-! ## Frames -/

/-- Only the executing thread differs. -/
def OnlyThread (s t : State) : Prop := t = { s with cur := t.cur }

/-- Of the executing thread, only the registers named, the program counter with its frame, the prefix latch, the generator of
random rounding, the floating flags, and the model's notes on how the instruction ended may differ. -/
def RegistersBut (h k : Hart) (xs : List Reg) (vs : List VReg) : Prop :=
  (∀ r, r ∉ xs → k.readX r = h.readX r ∧ k.emptyX r = h.emptyX r) ∧
  (∀ r, r ∉ vs → k.readV r = h.readV r ∧ k.emptyV r = h.emptyV r) ∧
  k.who = h.who ∧ k.life = h.life ∧ k.desc = h.desc ∧ k.stream = h.stream ∧ k.task = h.task ∧ k.barwa = h.barwa ∧
  k.handler = h.handler ∧ k.counters = h.counters ∧
  k.sys = { h.sys with status := k.sys.status, repst := k.sys.repst, fflags := k.sys.fflags } ∧
  (∀ i, i < 64 → i ≠ 11 → k.sys.status.getLsbD i = h.sys.status.getLsbD i)

/-- The floating flags and the generator are unchanged. -/
def NoFlags (h k : Hart) : Prop := k.sys.fflags = h.sys.fflags ∧ k.rng = h.rng

/-- The registers that a register-only instruction of a core writes: scalar and vector arithmetic, control transfers, the prefix and
reads of registers. Other instructions name none here. -/
def ownWrites : Instr → Option (List Reg × List VReg)
  | .add d _ _ _ | .sub d _ _ _ | .and d _ _ _ | .or d _ _ _ | .xor d _ _ _ | .andn d _ _ _ => .some ([d], [])
  | .sll d _ _ _ | .srl d _ _ _ | .sra d _ _ _ | .rol d _ _ _ | .ror d _ _ _ | .slt d _ _ _ => .some ([d], [])
  | .sltu d _ _ _ | .min d _ _ _ | .max d _ _ _ | .minu d _ _ _ | .maxu d _ _ _ | .mul d _ _ _ => .some ([d], [])
  | .mulh d _ _ _ | .mulhu d _ _ _ | .mulhsu d _ _ _ | .div d _ _ _ | .divu d _ _ _ | .rem d _ _ _ => .some ([d], [])
  | .remu d _ _ _ | .sel d _ _ _ => .some ([d], [])
  | .clz d _ _ | .ctz d _ _ | .popc d _ _ | .bswap d _ _ => .some ([d], [])
  | .addi d _ _ | .andi d _ _ | .ori d _ _ | .xori d _ _ | .slti d _ _ | .sltui d _ _ => .some ([d], [])
  | .jalr d _ _ => .some ([d], [])
  | .slli d _ _ _ | .srli d _ _ _ | .srai d _ _ _ | .rori d _ _ _ => .some ([d], [])
  | .ldhi d _ | .pcaddhi d _ | .jal d _ | .crd d _ | .qprobe d _ => .some ([d], [])
  | .beq _ _ _ | .bne _ _ _ | .blt _ _ _ | .bge _ _ _ | .bltu _ _ _ | .bgeu _ _ _ => .some ([], [])
  | .rep _ _ _ _ => .some ([], [])
  | .fmt _ _ _ _ _ _ _ => .some ([], [])
  | .cAddi d _ | .cAdd d _ | .cSub d _ | .cMov d _ | .cLi d _ | .cSlli d _ => .some ([wideReg d], [])
  | .cAnd d _ => .some ([wideReg d], [])
  | .cBeqz _ _ | .cBnez _ _ => .some ([], [])
  | .cJ _ | .cJr _ => .some ([], [])
  | .cNop => .some ([], [])
  | .vadd v _ _ | .vsub v _ _ | .vmul v _ _ | .vmulh v _ _ | .vmulhu v _ _ | .vabsd v _ _ => .some ([], [v])
  | .vqadd v _ _ | .vqsub v _ _ | .vmin v _ _ | .vmax v _ _ | .vminu v _ _ | .vmaxu v _ _ => .some ([], [v])
  | .vand v _ _ | .vor v _ _ | .vxor v _ _ | .vandn v _ _ | .vsll v _ _ | .vsrl v _ _ => .some ([], [v])
  | .vsra v _ _ | .vmac v _ _ | .vdot4 v _ _ | .vslls v _ _ | .vsrls v _ _ | .vsras v _ _ => .some ([], [v])
  | .vadds v _ _ | .vmuls v _ _ | .vceq v _ _ | .vcne v _ _ | .vclt v _ _ | .vcle v _ _ => .some ([], [v])
  | .vcltu v _ _ | .vcleu v _ _ | .vsel v _ _ | .vperm v _ _ | .vfadd v _ _ | .vfsub v _ _ => .some ([], [v])
  | .vfmul v _ _ | .vfma v _ _ | .vfms v _ _ | .vfmin v _ _ | .vfmax v _ _ | .vfdiv v _ _ => .some ([], [v])
  | .vfceq v _ _ | .vfclt v _ _ | .vfcle v _ _ | .vfcun v _ _ | .vpack v _ _ | .vqnt4 v _ _ => .some ([], [v])
  | .vmadd v _ _ | .vmsub v _ _ | .vmmul v _ _ | .vmmac v _ _ | .vntbf v _ _ | .vintbf v _ _ => .some ([], [v])
  | .vins v _ _ => .some ([], [v])
  | .vrev v _ | .vredadd v _ | .vredmin v _ | .vredmax v _ | .vredminu v _ | .vredmaxu v _ => .some ([], [v])
  | .vfredadd v _ | .vfredmax v _ | .vfsqrt v _ | .vfrcp v _ | .vfrsq v _ | .vfexp2 v _ => .some ([], [v])
  | .vflog2 v _ | .vfabs v _ | .vfneg v _ | .vfclass v _ | .vcvt v _ | .vunpkl v _ => .some ([], [v])
  | .vunpkh v _ | .vdqnt4 v _ | .vmred v _ | .vmov v _ | .vsplat v _ => .some ([], [v])
  | .vext b _ _ => .some ([b], [])
  | _ => .none

/-- Slot `i` of a core is the executing thread, and counts as the one that issued last. -/
def State.issuing (s : State) (c : CoreId) (i : Nat) : State := (s.withCore c fun k => { k with lastSlot := i }).focus (.core c i)

/-- The executing thread has fetched a word, and waits for nothing. -/
def State.fetched (s : State) (w : BitVec 32) : State := { s with cur := { s.cur with word := w, wait := .none, ended := .done } }

/-! ## The integer formats that a prefix names -/

/-- Lanes of a vector operation's old destination and sources. -/
def State.vecArgs (s : State) (vd va vb : VReg) : VecArgs := ⟨s.cur.readV vd, s.cur.readV va, s.cur.readV vb, 0⟩

/-- A vector instruction may issue under prefix `p`: the thread's latch holds it, or it is the default and the latch is empty;
the registers exist; and they are full. -/
def State.VecReady (s : State) (dflt : Prefix) (ok : Prefix → Bool) (p : Prefix) (vs : List VReg) : Prop :=
  s.mayIssue .vector = .ok () ∧ s.cur.prefixFields dflt ok = .ok p ∧ s.needRegs vs = .ok () ∧ s.cur.FullV vs

/-- A group of registers may be named from `v` on, and all of them are full (R253). -/
def State.GroupReady (s : State) (v : VReg) (n : Nat) : Prop := s.needGroup v n = .ok () ∧ s.cur.FullV (s.groupRegs v n)

/-- The contents of a group of registers. -/
def State.groupValues (s : State) (v : VReg) (n : Nat) : List Vec := (s.groupRegs v n).map s.cur.readV

/-! ## Memory -/

/-- What a coherent reader sees in the byte at a physical address: a dirty cached copy, or the home's memory. -/
def State.byteAt (s : State) (a : Nat) : Nat := s.coherentRead a 1

/-- Every access is at hand: in the issuing core's L1 with a sufficient tag or in its own cluster's scratchpad, with nothing of its
slot that its bytes have to wait for, and no poison. -/
def State.AtHand (s : State) (accs : List Access) : Prop :=
  ∀ a ∈ accs, s.reach s.cur.who.core' false a.target = .now ∧
    (s.coreOf s.cur.who.core').loadWaits a.slot a.pa a.size = false ∧ s.poisoned a.pa = false

/-- The accesses have read, in order: their lines are the most recently used, and the thread has seen the writes that it read. -/
def State.touched (s : State) (accs : List Access) : State :=
  accs.foldl (fun t a => t.hasRead s.cur.who.core' a) s

/-- The thread has seen every earlier write to the bytes, so that a read of them is not stale (R171). -/
def State.seenAll (s : State) (pa n : Nat) : Prop :=
  ∀ e ∈ s.past, overlaps e.pa e.size pa n = true → e.seen.contains s.cur.who = true

/-- The store buffer of the issuing core has room for the stores, and none of them violates its block's tag or has to ask for its
line, or has in a gang been answered by its home already. -/
def State.StoresFit (s : State) (accs : List Access) : Prop :=
  (s.coreOf s.cur.who.core').stores.length + accs.length ≤ 16 ∧
    ∀ a ∈ accs, ((s.coreOf s.cur.who.core').ganged && s.cur.elemsDone.contains a.va) = false ∧ s.reach s.cur.who.core' true a.target ≠ .violation ∧ s.reach s.cur.who.core' true a.target ≠ .miss

/-- The writes enter the store buffer of the issuing core in order, each with its number and what it covers, under a release at a
scope if there is one. -/
def State.buffered (s : State) (accs : List Access) (release : Option Nat) : State :=
  { s.withCore s.cur.who.core' fun k => { k with
      stores := k.stores ++ accs.zipIdx.map fun (a, i) => ⟨s.stampWrite a i release, release, .none, .none, .none⟩ } with
    stamps := s.stamps + accs.length }

end Sys2Proof.Machine
end

