-- ==== Sys2Proof/Certificates/Slice0/Obligations.lean ====
section
/-! DEFINITION. The statements about the model that are to be proved. -/

open Sys2Proof Sys2Proof.Machine

/-! ## Scalar arithmetic (R86 to R91) -/

/-- Two-source operations (R87): in 64 bits or, with `.w`, in 32 bits and sign-extended, x[d] gets the sum, the bits, the shift
by the count modulo the width, or the comparison; then the products and quotients by their exact integers, with the results that
R87 fixes for a divisor of zero. Nothing else changes, and the thread moves past the instruction. -/
def Obligations.ScalarResults : Prop :=
  (∀ (s : State) (d a b : Reg) (w : Bool), s.mayIssue .both = .ok () → s.cur.FullX [d, a, b] →
     let gives := fun (i : Instr) (f : (n : Nat) → BitVec n → BitVec n → BitVec n) =>
       exec i s = .next (s.withCur ((s.cur.setX d (inWidth w f (s.cur.readX a) (s.cur.readX b))).advance 4))
     gives (.add d a b w) (fun _ x y => x + y) ∧ gives (.sub d a b w) (fun _ x y => x - y) ∧
     gives (.and d a b w) (fun _ x y => x &&& y) ∧ gives (.or d a b w) (fun _ x y => x ||| y) ∧
     gives (.xor d a b w) (fun _ x y => x ^^^ y) ∧ gives (.andn d a b w) (fun _ x y => x &&& ~~~y) ∧
     gives (.sll d a b w) (fun n x y => x <<< (y.toNat % n)) ∧ gives (.srl d a b w) (fun n x y => x >>> (y.toNat % n)) ∧
     gives (.sra d a b w) (fun n x y => x.sshiftRight (y.toNat % n)) ∧
     gives (.rol d a b w) (fun n x y => x.rotateLeft (y.toNat % n)) ∧
     gives (.ror d a b w) (fun n x y => x.rotateRight (y.toNat % n)) ∧
     gives (.slt d a b w) (fun n x y => if x.toInt < y.toInt then 1#n else 0#n) ∧
     gives (.sltu d a b w) (fun n x y => if x.toNat < y.toNat then 1#n else 0#n) ∧
     gives (.min d a b w) (fun n x y => BitVec.ofInt n (min x.toInt y.toInt)) ∧
     gives (.max d a b w) (fun n x y => BitVec.ofInt n (max x.toInt y.toInt)) ∧
     gives (.minu d a b w) (fun n x y => BitVec.ofNat n (min x.toNat y.toNat)) ∧
     gives (.maxu d a b w) (fun n x y => BitVec.ofNat n (max x.toNat y.toNat)) ∧
     gives (.sel d a b w) (fun _ x y => if s.cur.readX d = 0 then y else x)) ∧
  (∀ (s : State) (d a b : Reg) (w : Bool), s.mayIssue .both = .ok () → s.cur.FullX [d, a, b] →
     let gives := fun (i : Instr) (f : (n : Nat) → BitVec n → BitVec n → BitVec n) =>
       exec i s = .next (s.withCur ((s.cur.setX d (inWidth w f (s.cur.readX a) (s.cur.readX b))).advance 4))
     gives (.mul d a b w) (fun n x y => BitVec.ofInt n (x.toInt * y.toInt)) ∧
     gives (.mulh d a b w) (fun n x y => BitVec.ofInt n (x.toInt * y.toInt / 2 ^ n)) ∧
     gives (.mulhu d a b w) (fun n x y => BitVec.ofNat n (x.toNat * y.toNat / 2 ^ n)) ∧
     gives (.mulhsu d a b w) (fun n x y => BitVec.ofInt n (x.toInt * y.toNat / 2 ^ n)) ∧
     gives (.div d a b w) (fun n x y => if y = 0 then BitVec.ofInt n (-1) else BitVec.ofInt n (x.toInt.tdiv y.toInt)) ∧
     gives (.divu d a b w) (fun n x y => if y = 0 then BitVec.ofInt n (-1) else BitVec.ofNat n (x.toNat / y.toNat)) ∧
     gives (.rem d a b w) (fun n x y => if y = 0 then x else BitVec.ofInt n (x.toInt.tmod y.toInt)) ∧
     gives (.remu d a b w) (fun n x y => if y = 0 then x else BitVec.ofNat n (x.toNat % y.toNat)))

/-- One-source operations, immediates, constant shifts and the two upper-immediate forms (R87, R89 to R91). Leading and
trailing zeros are stated by the bits: the count is the largest number of zero bits at that end. -/
def Obligations.ScalarImmediates : Prop :=
  ∀ (s : State) (d a : Reg) (w : Bool) (imm : BitVec 14) (sh : BitVec 6) (up : BitVec 19),
    s.mayIssue .both = .ok () → s.cur.FullX [d, a] →
    let x := s.cur.readX a
    let i := imm.signExtend 64
    let gives := fun (j : Instr) (v : Word) => exec j s = .next (s.withCur ((s.cur.setX d v).advance 4))
    let shifts := fun (j : Instr) (f : (n : Nat) → BitVec n → Nat → BitVec n) =>
      (w = true → sh.toNat < 32) → gives j (inWidth w (fun n u _ => f n u sh.toNat) x 0)
    gives (.addi d a imm) (x + i) ∧ gives (.andi d a imm) (x &&& i) ∧ gives (.ori d a imm) (x ||| i) ∧
    gives (.xori d a imm) (x ^^^ i) ∧ gives (.slti d a imm) (if x.toInt < i.toInt then 1 else 0) ∧
    gives (.sltui d a imm) (if x.toNat < i.toNat then 1 else 0) ∧
    shifts (.slli d a sh w) (fun _ u m => u <<< m) ∧ shifts (.srli d a sh w) (fun _ u m => u >>> m) ∧
    shifts (.srai d a sh w) (fun _ u m => u.sshiftRight m) ∧ shifts (.rori d a sh w) (fun _ u m => u.rotateRight m) ∧
    gives (.ldhi d up) (up.signExtend 64 <<< 13) ∧ gives (.pcaddhi d up) (s.cur.pc + up.signExtend 64 <<< 13) ∧
    gives (.popc d a w) (inWidth w (fun n u _ => BitVec.ofNat n ((List.range n).countP fun k => u.getLsbD k)) x 0) ∧
    (∃ v, gives (.clz d a w) v ∧ ∃ n, v = BitVec.ofNat 64 n ∧ n ≤ (if w then 32 else 64) ∧
      (if w then (x.setWidth 32).toNat < 2 ^ (32 - n) ∧ (n < 32 → 2 ^ (31 - n) ≤ (x.setWidth 32).toNat)
       else x.toNat < 2 ^ (64 - n) ∧ (n < 64 → 2 ^ (63 - n) ≤ x.toNat))) ∧
    (∃ v, gives (.ctz d a w) v ∧ ∃ n, v = BitVec.ofNat 64 n ∧ n ≤ (if w then 32 else 64) ∧
      (∀ k, k < n → x.getLsbD k = false) ∧ (n < (if w then 32 else 64) → x.getLsbD n = true)) ∧
    (∃ v, gives (.bswap d a w) v ∧
      ∀ k, k < (if w then 4 else 8) → (v.extractLsb' (8 * k) 8) = x.extractLsb' (8 * ((if w then 3 else 7) - k)) 8)

/-! ## Branches and jumps (R94, R95) -/

/-- A branch goes to pc plus twice its offset when its condition holds of x[a] and x[b], and past itself otherwise; a jump
links the address after it, and reads its base before it writes the link (R94, R95). The compact forms act as the instructions
they stand for, and the thread moves past two bytes (R37, R38). -/
def Obligations.BranchResults : Prop :=
  (∀ (s : State) (d a b : Reg) (off : BitVec 11) (far : BitVec 19), s.mayIssue .both = .ok () → s.cur.FullX [d, a, b] →
     let x := s.cur.readX a
     let y := s.cur.readX b
     let goes := fun (j : Instr) (p : Bool) =>
       exec j s = .next (s.withCur (if p then s.cur.jump (s.cur.pc + off.signExtend 64 * 2) else s.cur.advance 4))
     goes (.beq a b off) (decide (x = y)) ∧ goes (.bne a b off) (decide (x ≠ y)) ∧
     goes (.blt a b off) (decide (x.toInt < y.toInt)) ∧ goes (.bge a b off) (decide (y.toInt ≤ x.toInt)) ∧
     goes (.bltu a b off) (decide (x.toNat < y.toNat)) ∧ goes (.bgeu a b off) (decide (y.toNat ≤ x.toNat)) ∧
     exec (.jal d far) s = .next (s.withCur ((s.cur.setX d (s.cur.pc + 4)).jump (s.cur.pc + far.signExtend 64 * 2))) ∧
     exec (.jalr d a off) s = .next (s.withCur ((s.cur.setX d (s.cur.pc + 4)).jump (x + off.signExtend 64)))) ∧
  (∀ (s : State) (d a : BitVec 4) (imm : BitVec 7) (sh : BitVec 6), s.mayIssue .both = .ok () →
     s.cur.FullX [wideReg d, wideReg a] →
     let x := s.cur.readX (wideReg a)
     let y := s.cur.readX (wideReg d)
     let gives := fun (j : Instr) (v : Word) => exec j s = .next (s.withCur ((s.cur.setX (wideReg d) v).advance 2))
     let goes := fun (j : Instr) (p : Bool) (off : Word) =>
       exec j s = .next (s.withCur (if p then s.cur.jump (s.cur.pc + off * 2) else s.cur.advance 2))
     gives (.cAddi d imm) (y + imm.signExtend 64) ∧ gives (.cAdd d a) (y + x) ∧ gives (.cSub d a) (y - x) ∧
     gives (.cMov d a) x ∧ gives (.cLi d imm) (imm.signExtend 64) ∧ gives (.cSlli d sh) (y <<< sh.toNat) ∧
     gives (.cAnd d a) (y &&& x) ∧ exec .cNop s = .next (s.withCur (s.cur.advance 2)) ∧
     goes (.cBeqz a imm) (x == 0) (imm.signExtend 64) ∧ goes (.cBnez a imm) (x != 0) (imm.signExtend 64) ∧
     (∀ off : BitVec 11, goes (.cJ off) true (off.signExtend 64)) ∧ exec (.cJr a) s = .next (s.withCur (s.cur.jump x)))

/-! ## Vectors (R191 to R208) -/

/-- An integer vector instruction writes lane i of vd from lanes i of the old vd, va and vb in the format of its prefix; sat
clamps and raises the conditions that clamping names; the flags gather them; nothing outside the thread changes. -/
def Obligations.VectorLaneResults : Prop :=
  ∀ (s : State) (vd va vb : VReg) (p : Prefix) (ok : Prefix → Bool) (i : Instr) (f : IntLane),
    s.VecReady noPrefix ok p [vd, va, vb] →
    (ok = Prefix.intSat ∧ (i, f) ∈
      [(Instr.vadd vd va vb, (fun t sat _ a b => t.writeInt sat (t.int a + t.int b) : IntLane)),
       (Instr.vsub vd va vb, fun t sat _ a b => t.writeInt sat (t.int a - t.int b)),
       (Instr.vmul vd va vb, fun t sat _ a b => t.writeInt sat (t.int a * t.int b)),
       (Instr.vmac vd va vb, fun t sat c a b => t.writeInt sat (t.int c + t.int a * t.int b)),
       (Instr.vqadd vd va vb, fun t _ _ a b => t.writeInt true (t.int a + t.int b)),
       (Instr.vqsub vd va vb, fun t _ _ a b => t.writeInt true (t.int a - t.int b)),
       (Instr.vabsd vd va vb, laneAbsd), (Instr.vmulh vd va vb, laneMulh), (Instr.vmulhu vd va vb, laneMulhu),
       (Instr.vsll vd va vb, fun t _ _ a b => (a * 2 ^ (b % t.width) % 2 ^ t.width, 0)),
       (Instr.vsrl vd va vb, fun t _ _ a b => (a / 2 ^ (b % t.width), 0)), (Instr.vsra vd va vb, laneSra)] ∨
     ok = Prefix.intOnly ∧ (i, f) ∈
      [(Instr.vmin vd va vb, (fun t _ _ a b => (if t.int a ≤ t.int b then a else b, 0) : IntLane)),
       (Instr.vmax vd va vb, fun t _ _ a b => (if t.int a ≤ t.int b then b else a, 0)),
       (Instr.vminu vd va vb, fun _ _ _ a b => (min a b, 0)), (Instr.vmaxu vd va vb, fun _ _ _ a b => (max a b, 0)),
       (Instr.vceq vd va vb, fun t _ _ a b => (relation t.width (decide (a = b)), 0)),
       (Instr.vcne vd va vb, fun t _ _ a b => (relation t.width (decide (a ≠ b)), 0)),
       (Instr.vclt vd va vb, fun t _ _ a b => (relation t.width (decide (t.int a < t.int b)), 0)),
       (Instr.vcle vd va vb, fun t _ _ a b => (relation t.width (decide (t.int a ≤ t.int b)), 0)),
       (Instr.vcltu vd va vb, fun t _ _ a b => (relation t.width (decide (a < b)), 0)),
       (Instr.vcleu vd va vb, fun t _ _ a b => (relation t.width (decide (a ≤ b)), 0))]) →
    let t := intFmt p.afmt
    let at' := fun k => f t p.sat (laneNat t.width (s.cur.readV vd) k) (laneNat t.width (s.cur.readV va) k)
      (laneNat t.width (s.cur.readV vb) k)
    ∃ u, exec i s = .next u ∧ OnlyThread s u ∧ u.cur.ended = .done ∧
      (∀ k, k < 128 / t.width → laneNat t.width (u.cur.readV vd) k = (at' k).1 % 2 ^ t.width) ∧
      u.cur.sys.fflags = s.cur.sys.fflags |||
        ((List.range (128 / t.width)).foldl (fun c k => c ||| (at' k).2) 0).setWidth 64

/-- Vector operations whose second operand is a scalar register, in every lane; lane reversal, splat, extract and insert
(R196, R198, R208). The bitwise vector instructions act on all 128 bits, whatever format the prefix names; `vsel` takes va where
the old vd has a 1 and vb elsewhere. -/
def Obligations.VectorScalarResults : Prop :=
  (∀ (s : State) (vd va : VReg) (b : Reg) (p : Prefix), s.cur.FullX [b] →
     (s.VecReady noPrefix Prefix.intSat p [vd, va] →
       let t := intFmt p.afmt
       let y := (s.cur.readX b).toNat % 2 ^ t.width
       let lanes := fun (i : Instr) (f : IntLane) => ∃ u, exec i s = .next u ∧ OnlyThread s u ∧ u.cur.ended = .done ∧
         ∀ k, k < 128 / t.width → laneNat t.width (u.cur.readV vd) k =
           (f t p.sat (laneNat t.width (s.cur.readV vd) k) (laneNat t.width (s.cur.readV va) k) y).1 % 2 ^ t.width
       lanes (.vslls vd va b) laneSll ∧ lanes (.vsrls vd va b) laneSrl ∧ lanes (.vsras vd va b) laneSra ∧
       lanes (.vadds vd va b) (fun t sat _ a y => t.writeInt sat (t.int a + t.int y)) ∧
       lanes (.vmuls vd va b) (fun t sat _ a y => t.writeInt sat (t.int a * t.int y))) ∧
     (s.VecReady noPrefix Prefix.intOnly p [vd, va] →
       let w := (intFmt p.afmt).width
       ∃ u, exec (.vrev vd va) s = .next u ∧ OnlyThread s u ∧ u.cur.ended = .done ∧
         ∀ k, k < 128 / w → laneNat w (u.cur.readV vd) k = laneNat w (s.cur.readV va) (128 / w - 1 - k)) ∧
     (s.VecReady noPrefix Prefix.moves p [vd] →
       let w := (intFmt p.afmt).width
       (∃ u, exec (.vsplat vd b) s = .next u ∧ OnlyThread s u ∧ u.cur.ended = .done ∧
         ∀ k, k < 128 / w → laneNat w (u.cur.readV vd) k = (s.cur.readX b).toNat % 2 ^ w) ∧
       ∀ idx : BitVec 7, idx.toNat < 128 / w →
         ∃ u, exec (.vins vd b idx) s = .next u ∧ OnlyThread s u ∧ u.cur.ended = .done ∧
           ∀ k, k < 128 / w → laneNat w (u.cur.readV vd) k =
             if k = idx.toNat then (s.cur.readX b).toNat % 2 ^ w else laneNat w (s.cur.readV vd) k) ∧
     (s.VecReady noPrefix Prefix.moves p [vd, va] →
       exec (.vmov vd va) s = .next (s.withCur (((s.cur.writeVec vd ⟨s.cur.readV va, 0⟩ s.cur.rng)).advance 4))) ∧
     (s.VecReady noPrefix Prefix.moves p [va] → ∀ idx : BitVec 7, idx.toNat < 128 / (intFmt p.afmt).width →
       let t := intFmt p.afmt
       exec (.vext b va idx) s = .next (s.withCur ((s.cur.setX b
         (BitVec.ofInt 64 (t.int (laneNat t.width (s.cur.readV va) idx.toNat)))).advance 4)))) ∧
  (∀ (s : State) (vd va vb : VReg) (p : Prefix), s.VecReady noPrefix Prefix.intOnly p [vd, va, vb] →
     let c := s.cur.readV vd
     let a := s.cur.readV va
     let b := s.cur.readV vb
     let gives := fun (i : Instr) (v : Vec) => exec i s = .next (s.withCur (((s.cur.writeVec vd ⟨v, 0⟩ s.cur.rng)).advance 4))
     gives (.vand vd va vb) (a &&& b) ∧ gives (.vor vd va vb) (a ||| b) ∧ gives (.vxor vd va vb) (a ^^^ b) ∧
     gives (.vandn vd va vb) (a &&& ~~~b) ∧ gives (.vsel vd va vb) ((c &&& a) ||| (~~~c &&& b)) ∧
     gives (.vperm vd va vb) (permResult p ⟨c, a, b, 0⟩).value)

/-- Reductions leave one element in lane 0 and zero above it (R199): the sum modulo 2^w, or an element of va that no other one
passes. `vdot4` adds four products of bytes to each word of the old vd (R195). -/
def Obligations.VectorReductionResults : Prop :=
  ∀ (s : State) (vd va vb : VReg) (p : Prefix),
    (s.VecReady noPrefix Prefix.intOnly p [vd, va] →
      let t := intFmt p.afmt
      let es := (List.range (128 / t.width)).map (laneNat t.width (s.cur.readV va))
      let gives := fun (i : Instr) (good : Nat → Prop) => ∃ u, exec i s = .next u ∧ OnlyThread s u ∧ u.cur.ended = .done ∧
        NoFlags s.cur u.cur ∧ good (u.cur.readV vd).toNat
      let extreme := fun (before : Nat → Nat → Prop) (r : Nat) => r ∈ es ∧ ∀ e ∈ es, ¬ before e r
      gives (.vredadd vd va) (fun r => r = es.sum % 2 ^ t.width) ∧
      gives (.vredmin vd va) (extreme fun e r => t.int e < t.int r) ∧
      gives (.vredmax vd va) (extreme fun e r => t.int r < t.int e) ∧
      gives (.vredminu vd va) (extreme fun e r => e < r) ∧ gives (.vredmaxu vd va) (extreme fun e r => r < e)) ∧
    (s.VecReady ⟨6, 6, 0, 0, false, 0, 0⟩ Prefix.dot p [vd, va, vb] →
      let fa := intFmt p.afmt
      let fb := intFmt p.bfmt
      let term := fun i k => fa.int (laneNat 8 (s.cur.readV va) (4 * i + k)) * fb.int (laneNat 8 (s.cur.readV vb) (4 * i + k))
      let sum := fun i => Fmt.int32.writeInt p.sat
        (Fmt.int32.int (laneNat 32 (s.cur.readV vd) i) + (term i 0 + term i 1 + term i 2 + term i 3))
      ∃ u, exec (.vdot4 vd va vb) s = .next u ∧ OnlyThread s u ∧ u.cur.ended = .done ∧
        ∀ i, i < 4 → laneNat 32 (u.cur.readV vd) i = (sum i).1 % 2 ^ 32)

/-- A floating vector instruction of three or two registers writes lane i of vd from lanes i of its operands, in the format,
rounding mode and saturation of its prefix, with one draw for each lane in stochastic rounding; the flags gather the lanes'
conditions, and the thread's generator moves on by the draws taken (R72, R73, R200 to R202). -/
def Obligations.FloatLaneResults : Prop :=
  ∀ (s : State) (vd va vb : VReg) (p : Prefix) (ok : Prefix → Bool) (i : Instr) (steps : Prefix → Nat)
    (f : FloatLane → Nat × Cond) (vs : List VReg),
    s.VecReady noPrefix ok p vs →
    (ok = Prefix.floating ∧ vs = [vd, va, vb] ∧ (i, steps, f) ∈
      [(Instr.vfadd vd va vb, drawPerLane, (fun l : FloatLane => l.put (l.A.add l.rnd l.B))),
       (Instr.vfsub vd va vb, drawPerLane, fun l => l.put (l.A.add l.rnd l.B.negate)),
       (Instr.vfmul vd va vb, drawPerLane, fun l => l.put (l.A.mul l.B)),
       (Instr.vfma vd va vb, drawPerLane, fun l => l.fused false), (Instr.vfms vd va vb, drawPerLane, fun l => l.fused true),
       (Instr.vfdiv vd va vb, drawPerLane, fun l => l.divide l.A l.B),
       (Instr.vfmin vd va vb, noDraws, fun l => l.extreme true), (Instr.vfmax vd va vb, noDraws, fun l => l.extreme false)] ∨
     ok = Prefix.floatOnly ∧ vs = [vd, va, vb] ∧ (i, steps, f) ∈
      [(Instr.vfceq vd va vb, noDraws, (fun l : FloatLane => l.equal)), (Instr.vfclt vd va vb, noDraws, fun l => l.less),
       (Instr.vfcle vd va vb, noDraws, fun l => l.lessEqual), (Instr.vfcun vd va vb, noDraws, fun l => l.unordered)] ∨
     ok = Prefix.floating ∧ vs = [vd, va] ∧ vb = 0 ∧ (i, steps, f) ∈
      [(Instr.vfsqrt vd va, drawPerLane, (fun l : FloatLane => l.root)),
       (Instr.vfrcp vd va, drawPerLane, fun l => l.divide (.fin false 1 0) l.A),
       (Instr.vfrsq vd va, drawPerLane, fun l => l.rootReciprocal), (Instr.vfexp2 vd va, drawPerLane, fun l => l.power),
       (Instr.vflog2 vd va, drawPerLane, fun l => l.logarithm), (Instr.vfabs vd va, noDraws, fun l => l.signOnly false),
       (Instr.vfneg vd va, noDraws, fun l => l.signOnly true), (Instr.vfclass vd va, noDraws, fun l => l.classify)]) →
    let t := floatFmt p.afmt
    let b := if vs = [vd, va] then 0 else s.cur.readV vb
    let at' := fun k => f ⟨t.spec, p.rnd, p.sat, (draws p.rnd s.cur.rng (steps p)).1.getD k 0,
      laneNat t.width (s.cur.readV vd) k, laneNat t.width (s.cur.readV va) k, laneNat t.width b k⟩
    ∃ u, exec i s = .next u ∧ OnlyThread s u ∧ u.cur.ended = .done ∧
      (∀ k, k < 128 / t.width → laneNat t.width (u.cur.readV vd) k = (at' k).1 % 2 ^ t.width) ∧
      u.cur.sys.fflags = s.cur.sys.fflags |||
        ((List.range (128 / t.width)).foldl (fun c k => c ||| (at' k).2) 0).setWidth 64 ∧
      u.cur.rng = (draws p.rnd s.cur.rng (steps p)).2

/-- Conversions, packing, unpacking, the quantising pair, and the floating reductions (R82, R199, R203 to R205). -/
def Obligations.ConversionResults : Prop :=
  ∀ (s : State) (vd va vb : VReg) (p : Prefix),
    let a := s.cur.readV va
    let from' := fun i => laneNat (fmtOf p.afmt).width a i
    let lanes := fun (i : Instr) (src : Nat → Nat) =>
      let n := destLanes p
      let w := (fmtOf p.cfmt).width
      let at' := fun k => convert (fmtOf p.afmt) (fmtOf p.cfmt) p.rnd p.sat ((draws p.rnd s.cur.rng n).1.getD k 0) (src k)
      ∃ u, exec i s = .next u ∧ OnlyThread s u ∧ u.cur.ended = .done ∧ u.cur.rng = (draws p.rnd s.cur.rng n).2 ∧
        ∀ k, k < 128 / w → laneNat w (u.cur.readV vd) k = (at' k).1 % 2 ^ w
    let whole := fun (i : Instr) (n : Nat) (r : List Nat → VecResult) =>
      let d := draws p.rnd s.cur.rng n
      exec i s = .next (s.withCur ((s.cur.writeVec vd (r d.1) d.2).advance 4))
    (s.VecReady noPrefix vcvtOk p [vd, va] → lanes (.vcvt vd va) from') ∧
    (s.VecReady ⟨0, 0, 1, 0, false, 0, 0⟩ vpackOk p [vd, va, vb] →
      let n := 128 / (fmtOf p.afmt).width
      lanes (.vpack vd va vb) fun i => if i < n then from' i else laneNat (fmtOf p.afmt).width (s.cur.readV vb) (i - n)) ∧
    (s.VecReady ⟨1, 1, 0, 0, false, 0, 0⟩ vunpkOk p [vd, va] →
      lanes (.vunpkl vd va) from' ∧ lanes (.vunpkh vd va) fun i => from' (destLanes p + i)) ∧
    (s.VecReady ⟨0, 0, 5, 0, false, 0, 0⟩ vqnt4Ok p [vd, va] →
      (p.afmt ≠ 0 → whole (.vqnt4 vd va 0) 8 fun us =>
        quantiseBlock p.rnd us ((List.range 8).map fun k => (fmtOf p.afmt).value (laneNat 16 a k))) ∧
      (p.afmt = 0 → s.VecReady ⟨0, 0, 5, 0, false, 0, 0⟩ vqnt4Ok p [vd, va, vb] → whole (.vqnt4 vd va vb) 8 fun us =>
        quantiseBlock p.rnd us ((List.range 8).map fun k =>
          Fmt.fp32.value (if k < 4 then laneNat 32 a k else laneNat 32 (s.cur.readV vb) (k - 4))))) ∧
    (s.VecReady ⟨5, 5, 1, 0, false, 0, 0⟩ vdqnt4Ok p [vd, va] →
      ∃ u, exec (.vdqnt4 vd va) s = .next u ∧ OnlyThread s u ∧ u.cur.ended = .done ∧
        ∀ k, k < 8 → laneNat 16 (u.cur.readV vd) k =
          ((fmtOf p.cfmt).spec.write p.rnd p.sat ((draws p.rnd s.cur.rng 8).1.getD k 0)
            ((specE2m1.value (laneNat 4 a k)).mul (blockScale (a.toNat / 2 ^ 32 % 256))).1).1 % 2 ^ 16) ∧
    (s.VecReady noPrefix Prefix.floating p [vd, va] →
      let t := floatFmt p.afmt
      let es := (List.range t.lanes).map (laneNat t.width a)
      let reduce := fun (f : FloatLane → Nat × Cond) (us : List Nat) =>
        let r := tree (fun u x y => f ⟨t.spec, p.rnd, p.sat, u, 0, x, y⟩) t.lanes.log2 es us
        (⟨BitVec.ofNat 128 r.1, r.2⟩ : VecResult)
      whole (.vfredadd vd va) (t.lanes - 1) (reduce fun l => l.put (l.A.add l.rnd l.B)) ∧
      whole (.vfredmax vd va) 0 (reduce fun l => l.extreme false))

/-- Modular vector instructions take each 64-bit lane modulo the modulus in `modq`, and the butterflies pair lanes 0 and 1 of
va with the twiddle in lane 0 of vb; an unfit modulus traps (R70, R206, R207). -/
def Obligations.ModularResults : Prop :=
  ∀ (s : State) (vd va vb : VReg) (p : Prefix), s.VecReady noPrefix Prefix.modular p [vd, va, vb] →
    let q := s.cur.sys.modq.toNat
    let lane64 := fun (r : VReg) (k : Nat) => laneNat 64 (s.cur.readV r) k
    let ops := [Instr.vmadd vd va vb, .vmsub vd va vb, .vmmul vd va vb, .vmmac vd va vb, .vntbf vd va vb, .vintbf vd va vb,
      .vmred vd va]
    (goodModulus q = false →
      ∀ i ∈ ops, exec i s = .next (s.trap { cause := .invalidModulus, tval := s.cur.sys.modq })) ∧
    (goodModulus q = true →
      let gives := fun (i : Instr) (r0 r1 : Int) => ∃ u, exec i s = .next u ∧ OnlyThread s u ∧ u.cur.ended = .done ∧
        (laneNat 64 (u.cur.readV vd) 0 : Int) = r0 % q ∧ (laneNat 64 (u.cur.readV vd) 1 : Int) = r1 % q
      let c0 : Int := lane64 vd 0; let c1 : Int := lane64 vd 1
      let a0 : Int := lane64 va 0; let a1 : Int := lane64 va 1
      let b0 : Int := lane64 vb 0; let b1 : Int := lane64 vb 1
      gives (.vmadd vd va vb) (a0 + b0) (a1 + b1) ∧ gives (.vmsub vd va vb) (a0 - b0) (a1 - b1) ∧
      gives (.vmmul vd va vb) (a0 * b0) (a1 * b1) ∧ gives (.vmmac vd va vb) (c0 + a0 * b0) (c1 + a1 * b1) ∧
      gives (.vntbf vd va vb) (a0 + b0 * a1) (a0 - b0 * a1) ∧ gives (.vintbf vd va vb) (a0 + a1) ((a0 - a1) * b0) ∧
      gives (.vmred vd va) a0 a1)

/-! ## Traps and system instructions (R34, R43, R92, R110, R310 to R319) -/

/-- Trap entry (R312, R315). With a trap base whose fetch is in order, the three trap registers, `pfx` and the prefix latch,
the status fields, the level and the pc change as R315 lists them, x31 is the S bank afterwards, and rf and every other register
keep their values. Otherwise the trap is fatal, and only the three trap registers are written. -/
def Obligations.TrapEntry : Prop :=
  ∀ (s : State) (t : Trap),
    let base := s.trapBase
    let h := s.cur
    let k := (s.trap t).cur
    (base ≠ 0 → s.fetchFaults s.cur.who.core' (base &&& ~~~1#64).toNat = false →
      (s.trap t).mem = s.mem ∧ (s.trap t).cores = s.cores ∧ (s.trap t).harts = s.harts ∧
      k.sys.tepc = h.pc ∧ k.sys.tval = t.tval ∧
      k.sys.tcause.toNat = t.cause.code + (if t.fetch then 256 else 0) + (if t.intr then 512 else 0) + (if t.write then 1024 else 0) ∧
      k.latch = .none ∧ (∀ w, h.latch = .some w → k.sys.pfx = w.setWidth 64) ∧ (h.latch = .none → k.sys.pfx = h.sys.pfx) ∧
      k.pp = (h.pp || h.latch.isSome) ∧ k.sys.status.getLsbD 9 = h.sys.status.getLsbD 0 ∧ k.sys.status.getLsbD 4 = h.ie ∧
      k.ie = false ∧ k.pl = 1 ∧ k.rf = h.rf ∧ (∀ i, 12 ≤ i → i < 64 → k.sys.status.getLsbD i = h.sys.status.getLsbD i) ∧
      k.sys = { h.sys with
        tepc := k.sys.tepc, tcause := k.sys.tcause, tval := k.sys.tval, pfx := k.sys.pfx, status := k.sys.status } ∧
      k.frame = [] ∧ k.pc = base &&& ~~~1#64 ∧ k.readX 31 = h.x[32] ∧ (∀ r, r ≠ 31 → k.readX r = h.readX r) ∧
      k.v = h.v ∧ k.xe = h.xe ∧ k.ve = h.ve ∧ k.rng = h.rng ∧ k.desc = h.desc ∧ k.stream = h.stream ∧ k.task = h.task) ∧
    (base = 0 ∨ s.fetchFaults s.cur.who.core' (base &&& ~~~1#64).toNat = true →
      s.trap t = s.withCur { h with
        sys := { h.sys with tepc := h.pc, tcause := t.word, tval := t.tval }, wait := .fatal false, ended := .trapped })

/-- `tret` (R317): at U it is a privilege violation. At S, outside a repeat frame, it returns as R317 lists it; inside one, in a
thread that follows no gang's leader, it also captures the frame's sixteen instructions anew (R100). -/
def Obligations.TrapReturn : Prop :=
  ∀ (s : State), s.mayIssue .coreOnly = .ok () →
    (s.cur.pl = 0 → exec .tret s = .next (s.trap { cause := .privilege, tval := s.cur.word.setWidth 64 })) ∧
    (s.cur.pl ≠ 0 → s.cur.rf = false → ∃ u, exec .tret s = .next u ∧ OnlyThread s u ∧ u.cur.ended = .done ∧
      u.cur.pc = s.cur.sys.tepc &&& ~~~1#64 ∧ u.cur.pl = (if s.cur.sys.status.getLsbD 9 then 1 else 0) ∧
      u.cur.ie = s.cur.sys.status.getLsbD 4 ∧ u.cur.pp = false ∧
      (s.cur.pp = true → u.cur.latch = .some (s.cur.sys.pfx.setWidth 32)) ∧ (s.cur.pp = false → u.cur.latch = .none) ∧
      u.cur.x = s.cur.x ∧ u.cur.v = s.cur.v ∧ u.cur.sys.tepc = s.cur.sys.tepc ∧ u.cur.sys.tcause = s.cur.sys.tcause ∧
      u.cur.sys.tval = s.cur.sys.tval ∧ u.cur.sys.pfx = s.cur.sys.pfx) ∧
    (s.cur.pl ≠ 0 → s.cur.rf = true → (s.coreOf s.cur.who.core').gang = .none → ∀ body p,
      let h := s.cur.returnTrap
      ({ s with cur := { h with walkFault := s.cur.walkFault } } : State).capture
        ((s.cur.sys.tepc &&& ~~~1#64) - BitVec.ofNat 64 (2 * s.cur.bofs)) 0 .none 16 = .ok (body, p) →
      exec .tret s = .next (s.withCur { h with frame := body }) ∧ body.length = 16 ∧ h.pc = s.cur.sys.tepc &&& ~~~1#64 ∧
        h.iter = s.cur.iter ∧ h.pos = s.cur.pos ∧ h.rf = true)

/-- The instructions of primary 0x70 but `tret` (R316): `trap` and, at U, `sysc` take their software traps; at S `trap 2047` is a
fatal trap, a service of the firmware writes x3, and one of R379 is waited for; `brk` traps when no debugger is attached, and
otherwise stops its thread before the `brk`; `wfe` goes on when q3 holds an event and waits otherwise. The result of a service is
the firmware's (log 13). -/
def Obligations.SystemResults : Prop :=
  ∀ (s : State) (imm : BitVec 11), s.mayIssue .coreOnly = .ok () →
    let t := fun (c : Cause) => (s.trap { cause := c, tval := imm.setWidth 64 })
    let c := s.cur.who.core'
    let slot := s.cur.who.slot'
    ((imm ≠ 2047 ∨ s.cur.pl = 0) → exec (.trap imm) s = .next (t .softwareTrap)) ∧
    (s.cur.pl ≠ 0 → exec (.trap 2047) s =
      .next (s.withCur (s.cur.fatalTrap { cause := .softwareTrap, tval := 2047 }))) ∧
    (s.cur.pl = 0 → exec (.sysc imm) s = .next (t .systemCall)) ∧
    (s.cur.pl ≠ 0 → s.cur.FullX [3, 4, 5, 6] →
      ((imm.toNat < 256 ∨ 259 < imm.toNat) →
        ∃ v, exec (.sysc imm) s = .next { s with turn := s.turn + 1, cur := (s.cur.setX 3 v).advance 4 }) ∧
      (256 ≤ imm.toNat → imm.toNat ≤ 259 →
        exec (.sysc imm) s = .next (s.withCur { s.cur with wait := .service imm.toNat, ended := .waited }))) ∧
    (s.attached c slot = false → exec (.brk imm) s = .next (t .breakpoint)) ∧
    (s.attached c slot = true → (s.coreOf c).gang = .none → s.cur.life = .live → s.cur.wait = .none → s.cur.landed = .none →
      exec (.brk imm) s = .next ((s.withCur s.cur.stopDebug).trace 8 c slot s.cur.pc 0) ∧ s.cur.stopDebug.life = .debug ∧
      s.cur.stopDebug.pc = s.cur.pc) ∧
    ((s.coreOf c).queues[3] ≠ [] → exec .wfe s = .next (s.withCur (s.cur.advance 4))) ∧
    ((s.coreOf c).queues[3] = [] → exec .wfe s = .next (s.withCur { s.cur with wait := .event, ended := .waited }))

/-- The order in which a missing precondition is met (R16, R36, R42, R44, R110): an instruction of the wrong agent, a prefix it
does not take, then an empty source. `add`, `ld.d`, `vadd` and `hend` stand for the shapes. -/
def Obligations.IssueOrder : Prop :=
  ∀ (s : State) (d a b : Reg) (w : Bool), s.cur.who.isPp = false →
    let word := s.cur.word.setWidth 64
    let h := s.cur
    (exec .hend s = .next (s.trap { cause := .illegalInstruction, tval := word })) ∧
    (∀ p, h.latch = .some p →
      exec (.add d a b w) s = .next (s.trap { cause := .illegalPrefix, tval := p.setWidth 64 })) ∧
    (h.latch = .none → ∀ r, (r = d ∨ r = a ∧ h.emptyX d = false ∨ r = b ∧ h.emptyX d = false ∧ h.emptyX a = false) →
      h.emptyX r = true → h.xr.getLsbD (h.xIdx r) = false →
      exec (.add d a b w) s = .next
        (if h.sys.temaskX.getLsbD r.toNat then s.trap { cause := .emptyRegister, tval := BitVec.ofNat 64 r.toNat }
         else s.withCur { h with wait := .scalar (h.xIdx r), ended := .waited }))

/-- Reading and writing system registers (R51, R92): where the level has the right, `crd` gives the value, `cwr` writes x[a], and
`crs` and `crc` give the old value and set or clear the bits of x[a] in the register. An access that level S alone may make traps
as a privilege violation at U; an access to a register that is never written, or to a number without a register, is an illegal
instruction. A handler reads `time` (R282). -/
def Obligations.SystemRegisterResults : Prop :=
  (∀ (s : State) (d a : Reg) (n : SysNo) (r : SysReg), s.mayIssue .coreOnly = .ok () → s.cur.FullX [d, a] →
     SysReg.ofNumber n = .some r →
     let x := s.cur.readX a
     let old := s.readSys r
     let reads := s.cur.user = false ∨ r.userReads = true
     let writes := r.writable = true ∧ (s.cur.user = false ∨ r.userWrites = true)
     let sets := fun (i : Instr) (v : Word) (g : Hart → Hart) =>
       exec i s = .next { s.writeSys r v with cur := (g (s.writeSys r v).cur).advance 4 }
     let violates := fun (i : Instr) => exec i s = .next (s.trap { cause := .privilege, tval := s.cur.word.setWidth 64 })
     (reads → exec (.crd d n) s = .next (s.withCur ((s.cur.setX d old).advance 4))) ∧
     (writes → sets (.cwr n a) x id) ∧
     (reads → writes → sets (.crs d n a) (old ||| x) (fun h => h.setX d old)) ∧
     (reads → writes → sets (.crc d n a) (old &&& ~~~x) (fun h => h.setX d old)) ∧
     (¬ reads → violates (.crd d n)) ∧
     (r.writable = true → ¬ writes → violates (.cwr n a)) ∧
     (r.writable = true → ¬ (reads ∧ writes) → violates (.crs d n a) ∧ violates (.crc d n a))) ∧
  (∀ (s : State) (d a : Reg) (n : SysNo), s.cur.who.isPp = false →
     let illegal := fun (i : Instr) => exec i s = .next (s.trap { cause := .illegalInstruction, tval := s.cur.word.setWidth 64 })
     (SysReg.ofNumber n = .none → illegal (.crd d n)) ∧
     ((SysReg.ofNumber n).all (fun r => !r.writable) = true →
       illegal (.cwr n a) ∧ illegal (.crs d n a) ∧ illegal (.crc d n a))) ∧
  (∀ (s : State) (d : Reg) (n : SysNo), s.cur.who.isPp = true → s.cur.FullX [d] → SysReg.ofNumber n = .some .time →
     exec (.crd d n) s = .next (s.withCur ((s.cur.setX d (BitVec.ofNat 64 s.time)).advance 4)))

/-- Repeat frames and gangs (R75, R97, R101 to R103): `rep` captures the sixteen instructions after it and starts the frame at
iteration 0; `fmt` fills the latch with its own word. `gang` that fails its local check gives the code and goes on, and one that
passes waits at the rendezvous; when every thread of its cores waits there, the gang forms if the cores hold the same slots, with
0 in every x[d] and every follower at its leader's pc, and otherwise every thread goes on with code 3. `ungang` outside a gang goes
on; in one it waits, until with the last of its threads there the gang dissolves. -/
def Obligations.ControlResults : Prop :=
  (∀ (s : State), s.mayIssue .coreOnly = .ok () →
    let c := s.cur.who.core'
    (∀ cnt sd sa sb body p, s.capture (s.cur.pc + 4) 0 .none 16 = .ok (body, p) →
      ∃ u, exec (.rep cnt sd sa sb) s = .next u ∧ OnlyThread s u ∧ u.cur.frame = body ∧ u.cur.frame.length = 16 ∧
        u.cur.pc = s.cur.pc + 4 ∧ u.cur.rf = true ∧ u.cur.iter = 0 ∧ u.cur.pos = 0 ∧ u.cur.bofs = 0 ∧
        u.cur.frameCount = cnt.toNat ∧ u.cur.x = s.cur.x ∧ u.cur.v = s.cur.v) ∧
    (∀ (sp sc : BitVec 2) sat (rnd : BitVec 3) (cfmt bfmt afmt : BitVec 4),
      ∃ u, exec (.fmt sp sc sat rnd cfmt bfmt afmt) s = .next u ∧ OnlyThread s u ∧
        u.cur = { s.cur.advance 4 with latch := u.cur.latch } ∧
        ∃ w, u.cur.latch = .some w ∧ encode (.fmt sp sc sat rnd cfmt bfmt afmt) = .word w ∧
          Prefix.ofWord w = ⟨afmt.toNat, bfmt.toNat, cfmt.toNat, rnd.toNat, sat, sc.toNat, sp.toNat⟩) ∧
    (∀ (d a : Reg) (w : BitVec 3), s.cur.FullX [d, a] →
      let code := s.gangCheck c (s.cur.readX a) (w.toNat + 1)
      let leader := coreAt (coreDie c) (s.cur.readX a).toNat (coreY c)
      (code = 0 → exec (.gang d a w) s =
        .next (s.withCur { s.cur with ended := .waited, wait := .gang leader (w.toNat + 1) d })) ∧
      (code ≠ 0 → exec (.gang d a w) s = .next (s.withCur ((s.cur.setX d (BitVec.ofNat 64 code)).advance 4)))) ∧
    ((s.coreOf c).gang = .none → exec .ungang s = .next (s.withCur (s.cur.advance 4))) ∧
    ((s.coreOf c).gang ≠ .none →
      let t := s.withCur { s.cur with wait := .ungang, ended := .waited }
      (t.allUngang c = false → exec .ungang s = .next t) ∧
      (t.allUngang c = true → (∀ m ∈ s.gangOf c, ∀ k ∈ s.occupied m, (s.hartOf (.core m k)).who = .core m k) →
        ∃ u, exec .ungang s = .next u ∧ ∀ m ∈ s.gangOf c, (u.coreOf m).gang = .none ∧
          ∀ k ∈ s.occupied m, u.hartOf (.core m k) = (t.hartOf (.core m k)).advance 4))) ∧
  (∀ (s : State) (leader w : Nat), s.gangWidth leader = .some w →
    let cores := gangCores leader (coreX leader) w
    let same := cores.all fun m => s.occupied m == s.occupied leader
    leader ∈ cores → (∀ c ∈ cores, ∀ k ∈ s.occupied c, (s.hartOf (.core c k)).who = .core c k) →
    ∃ u, exec (.gangFormation leader) s = .next u ∧ u.mem = s.mem ∧ ∀ c ∈ cores,
      (u.coreOf c).gang = (if same then .some ⟨leader, w⟩ else (s.coreOf c).gang) ∧
      ∀ k ∈ s.occupied c, ∀ d, (s.hartOf (.core c k)).wait = .gang leader w d →
        let h := u.hartOf (.core c k)
        h.wait = .none ∧ (d ≠ 0 → h.readX d = if same then 0 else 3) ∧
          (same = true → h.pc = (u.hartOf (.core leader k)).pc))

/-! ## Loads, stores and atomics (R146 to R157, R177 to R187) -/

/-- A scalar load on a core of data at hand writes x[d] with what the core reads at the translated address, extended as the mnemonic
says, and completes in one step; the home's memory and the other threads are unchanged. Each byte of the value is the one that the
youngest older store of the slot in the buffer would write there, if there is one; without such stores, and where the thread has
seen every write to the bytes, the value is what the core's L1 or the bank holds (R148, R151, R155). The acquire load and the compact
load do the same with their own addresses, and the release store and the compact store enter the store buffer (R37, R186). -/
def Obligations.LoadResults : Prop :=
  (∀ (s : State) (d a : Reg) (imm : BitVec 11) (t : Target) (e : Instr × Nat × Bool), s.cur.who.isPp = false →
     s.mayIssue .both = .ok () → s.cur.FullX [d, a] →
     e ∈ [(Instr.ldB d a imm, 1, true), (.ldH d a imm, 2, true), (.ldW d a imm, 4, true), (.ldD d a imm, 8, true),
       (.ldBz d a imm, 1, false), (.ldHz d a imm, 2, false), (.ldWz d a imm, 4, false)] →
     s.translate (s.cur.readX a + imm.signExtend 64) e.2.1 .read = .ok t → s.AtHand [s.loadAccess t e.2.1 false] →
     let c := s.cur.who.core'
     let acc := s.loadAccess t e.2.1 false
     let v := s.readNow c acc
     exec e.1 s = .next { s.touched [acc] with cur := (s.cur.setX d (extend e.2.2 e.2.1 v)).advance 4 } ∧
     (s.touched [acc]).mem = s.mem ∧ (s.touched [acc]).harts = s.harts ∧
     (∀ i b, i < e.2.1 → (s.coreOf c).forwardByte s.cur.who.slot' (t.pa + i) = .some b → v / 256 ^ i % 256 = b) ∧
     ((s.coreOf c).stores = [] → s.seenAll t.pa e.2.1 → v = s.bytesAt c t.pa e.2.1 % 256 ^ e.2.1)) ∧
  (∀ (s : State) (d a : Reg) (scope : BitVec 3) (dbl : Bool) (t : Target), s.cur.who.isPp = false →
     s.mayIssue .coreOnly = .ok () →
     let n := if dbl then 8 else 4
     s.cur.FullX [d, a] → s.translate (s.cur.readX a) n .read = .ok t →
     let acc := { s.loadAccess t n false with acquire := .some scope.toNat }
     s.AtHand [acc] →
     exec (.ldacq d a scope dbl) s = .next { s.touched [acc] with
       cur := (s.cur.setX d (extend true n (s.readNow s.cur.who.core' acc))).advance 4 }) ∧
  (∀ (s : State) (b a : Reg) (scope : BitVec 3) (dbl : Bool) (t : Target), s.cur.who.isPp = false →
     s.mayIssue .coreOnly = .ok () →
     let n := if dbl then 8 else 4
     s.cur.FullX [a, b] → s.translate (s.cur.readX a) n .write = .ok t →
     let acc := s.storeAccess t n (s.cur.readX b).toNat false
     s.StoresFit [acc] →
     exec (.strel b a scope dbl) s = .next { s.buffered [acc] (.some scope.toNat) with cur := s.cur.advance 4 }) ∧
  (∀ (s : State) (d a : BitVec 4) (off : BitVec 3) (t : Target), s.cur.who.isPp = false → s.mayIssue .coreOnly = .ok () →
     s.cur.FullX [wideReg d, wideReg a] →
     let va := s.cur.readX (wideReg a) + off.setWidth 64 * 8
     (s.translate va 8 .read = .ok t → s.AtHand [s.loadAccess t 8 false] →
       exec (.cLdD d a off) s = .next { s.touched [s.loadAccess t 8 false] with
         cur := (s.cur.setX (wideReg d) (extend true 8 (s.readNow s.cur.who.core' (s.loadAccess t 8 false)))).advance 2 }) ∧
     (s.translate va 8 .write = .ok t →
       let acc := s.storeAccess t 8 (s.cur.readX (wideReg d)).toNat false
       s.StoresFit [acc] →
       exec (.cStD d a off) s = .next { s.buffered [acc] .none with cur := s.cur.advance 2 }))

/-- A scalar store on a core enters the store buffer of its core, with the translated address and the low bytes of x[b]; every
byte of memory, as any other agent sees it, is unchanged until the entry is performed (R148, R151). -/
def Obligations.StoreResults : Prop :=
  ∀ (s : State) (a b : Reg) (imm : BitVec 11) (t : Target) (e : Instr × Nat), s.cur.who.isPp = false →
    s.mayIssue .both = .ok () → s.cur.FullX [a, b] →
    e ∈ [(Instr.stB b a imm, 1), (.stH b a imm, 2), (.stW b a imm, 4), (.stD b a imm, 8)] →
    s.translate (s.cur.readX a + imm.signExtend 64) e.2 .write = .ok t →
    let acc := s.storeAccess t e.2 (s.cur.readX b).toNat false
    s.StoresFit [acc] →
    ∃ u, exec e.1 s = .next u ∧ u = { s.buffered [acc] .none with cur := s.cur.advance 4 } ∧
      acc.pa = t.pa ∧ acc.size = e.2 ∧ acc.data = (s.cur.readX b).toNat % 2 ^ (8 * e.2) ∧
      (∀ p, u.byteAt p = s.byteAt p) ∧ u.cur.x = s.cur.x ∧ u.cur.v = s.cur.v

/-- Vector loads and stores, gathers, scatters and strided forms at hand (R152, R153): sixteen bytes, or elements of four or
eight bytes at the base plus each offset, in ascending order. A scatter of which the home has performed no element yet stores all. -/
def Obligations.VectorMemoryResults : Prop :=
  ∀ (s : State) (vd vb : VReg) (a b : Reg) (imm : BitVec 11) (nt st : Bool), s.mayIssue .coreOnly = .ok () →
    s.cur.who.isPp = false → s.cur.FullX [a, b] → s.cur.FullV [vd, vb] → s.needReg vd = .ok () → s.needReg vb = .ok () →
    let n := elemSize st
    let load := fun (i : Instr) (size : Nat) (nt : Bool) (addrs : List Word) => ∀ ts, s.translateAll size .read addrs = .ok ts →
      let accs := ts.map fun t => s.loadAccess t size nt
      s.AtHand accs →
      exec i s = .next { s.touched accs with cur := (s.cur.setV vd (BitVec.ofNat 128
        (joinElems (accs.map fun q => (size, s.readNow s.cur.who.core' q))))).advance 4 }
    let store := fun (i : Instr) (size : Nat) (nt : Bool) (addrs : List Word) => ∀ ts, s.translateAll size .write addrs = .ok ts →
      let accs := ts.zipIdx.map fun q => s.storeAccess q.1 size ((s.cur.readV vd).toNat / 2 ^ (8 * size * q.2)) nt
      s.StoresFit accs → s.cur.elemsDone = [] →
      exec i s = .next { s.buffered accs .none with cur := s.cur.advance 4 }
    let strided := elemAddrs st (s.cur.readX a) fun i => BitVec.ofNat 64 i * s.cur.readX b
    let indexed := elemAddrs st (s.cur.readX a) (indexOffset st (s.cur.readV vb))
    load (.vld vd a imm nt) 16 nt [s.cur.readX a + imm.signExtend 64 * 16] ∧
    store (.vst vd a imm nt) 16 nt [s.cur.readX a + imm.signExtend 64 * 16] ∧
    load (.vlds vd a b st) n false strided ∧ store (.vsts vd a b st) n false strided ∧
    load (.vldx vd a vb st) n false indexed ∧ store (.vstx vd a vb st) n false indexed

/-- A load of eight bytes from a bank or from uncached memory stays outstanding: its destination is empty, the thread moves on,
memory is unchanged, and a LOAD_FILL that finds the bytes fills the register in one step and takes the load away (R109, R148).
STORE_PERFORM of an entry at a bank or in uncached memory writes exactly its bytes, lowest first, and the entry leaves the buffer;
every other byte of memory reads as before. In the L1 the line's bytes change and the home's memory does not. -/
def Obligations.AccessesCompleted : Prop :=
  ((∀ (s : State) (d a : Reg) (imm : BitVec 11) (t : Target), s.cur.who.isPp = false → s.mayIssue .both = .ok () →
     d ≠ 0 → s.cur.FullX [d, a] → s.translate (s.cur.readX a + imm.signExtend 64) 8 .read = .ok t →
     s.reach s.cur.who.core' false t = .later →
     (s.coreOf s.cur.who.core').loadWaits s.cur.who.slot' t.pa 8 = false →
     ∃ u, exec (.ldD d a imm) s = .next u ∧ u.mem = s.mem ∧ u.cur = (s.cur.markX d).advance 4 ∧ u.cur.emptyX d = true ∧
       (u.coreOf s.cur.who.core').loads = (s.coreOf s.cur.who.core').loads ++
         [{ slot := s.cur.who.slot', dest := s.cur.destX d, signed := true, elems := [(s.loadAccess t 8 false, .none)]
            waits := .none, sentAt := s.time }]) ∧
   (∀ (s : State) (c k : Nat) (l : PendingLoad), (s.coreOf c).loads[k]? = .some l → l.waits = .none →
     (∀ q ∈ l.elems, s.poisoned q.1.pa = false) → (∀ q ∈ l.elems.map (s.readElem c k l), q.2.isSome) →
     let es := l.elems.map (s.readElem c k l)
     let t := s.withHart (.core c l.slot) fun h =>
       h.fillDest l.dest l.signed (es.foldl (fun n q => n + q.1.size) 0) (joinElems (es.map fun q => (q.1.size, q.2.getD 0)))
     ∃ u, exec (.loadFill c k) s = .next u ∧ u.cur = t.cur ∧ u.harts = t.harts ∧ u.mem = s.mem ∧
       (u.coreOf c).loads = (s.coreOf c).loads.eraseIdx k ∧ (u.coreOf c).stores = (s.coreOf c).stores ∧
       ∀ b, (u.coreOf c).line? b = (s.coreOf c).line? b)) ∧
  (∀ (s : State) (c k : Nat) (e : StoreEntry), (s.coreOf c).stores[k]? = .some e → s.heldBack c k e = false →
     e.sent = .none → e.req = .none → e.waits = .none → e.acc.kind = .store → e.acc.around = false →
     (s.reach c true e.acc.target = .later →
       ∃ u, exec (.storePerform c k) s = .next u ∧ (u.coreOf c).stores = (s.coreOf c).stores.eraseIdx k ∧
         (∀ i, i < e.acc.size → (readByte u.mem (e.acc.pa + i)).toNat = e.acc.data / 256 ^ i % 256) ∧
         (∀ p, p < e.acc.pa ∨ e.acc.pa + e.acc.size ≤ p → readByte u.mem p = readByte s.mem p)) ∧
     (s.reach c true e.acc.target = .now → placeOf e.acc.pa = .dram →
       ∃ u, exec (.storePerform c k) s = .next u ∧ u.mem = s.mem ∧ (u.coreOf c).stores = (s.coreOf c).stores.eraseIdx k ∧
         ∃ l m, (s.coreOf c).line? (blockOf e.acc.pa) = .some l ∧ (u.coreOf c).line? (blockOf e.acc.pa) = .some m ∧
           m.dirty = true ∧ m.tag = l.tag ∧ m.data = patchBlock l.data (e.acc.pa % 32) e.acc.size e.acc.data))

/-- A waited atomic on bytes of its cluster's scratchpad or of an L1 line that its core may write is performed at once when what it
has to follow is over: the old value goes to x[d] sign-extended, and the value of R182 stands in its place, in the scratchpad or in the
line of the L1; a compare-and-swap that fails writes nothing. A form that neither writes a register nor acquires enters the store
buffer instead, unless its block's tag forbids it (R182 to R185). In a gang this is the form that the home has not answered yet (R105). -/
def Obligations.AtomicResults : Prop :=
  ∀ (s : State) (d b a : Reg) (ord : BitVec 2) (scope : BitVec 3) (t : Target) (e : Instr × Nat × Nat), s.cur.who.isPp = false →
    s.mayIssue .both = .ok () → s.cur.FullX [d, b, a] →
    e ∈ [(Instr.amoaddW d b a ord scope, 0, 4), (.amoandW d b a ord scope, 1, 4), (.amoorW d b a ord scope, 2, 4),
      (.amoxorW d b a ord scope, 3, 4), (.amominW d b a ord scope, 4, 4), (.amomaxW d b a ord scope, 5, 4),
      (.amominuW d b a ord scope, 6, 4), (.amomaxuW d b a ord scope, 7, 4), (.amoswapW d b a ord scope, 8, 4),
      (.amocasW d b a ord scope, 9, 4), (.amoaddD d b a ord scope, 0, 8), (.amoandD d b a ord scope, 1, 8),
      (.amoorD d b a ord scope, 2, 8), (.amoxorD d b a ord scope, 3, 8), (.amominD d b a ord scope, 4, 8),
      (.amomaxD d b a ord scope, 5, 8), (.amominuD d b a ord scope, 6, 8), (.amomaxuD d b a ord scope, 7, 8),
      (.amoswapD d b a ord scope, 8, 8), (.amocasD d b a ord scope, 9, 8)] →
    let n := e.2.2
    s.translate (s.cur.readX a) n .write = .ok t →
    let x := (s.cur.readX b).toNat % 2 ^ (8 * n)
    let want := (s.cur.readX d).toNat % 2 ^ (8 * n)
    let acc := s.amoAccess t e.2.1 n x want (ord.getLsbD 0) scope
    let release := if ord.getLsbD 1 then Option.some scope.toNat else .none
    let c := s.cur.who.core'
    let slot := s.cur.who.slot'
    let k := s.coreOf c
    (k.ganged && s.cur.elemsDone.contains t.va) = false →
    (d ≠ 0 ∨ ord.getLsbD 0 = true → (ord.getLsbD 1 = true → s.quiet s.cur.who scope.toNat = true) →
      k.storePending slot t.pa n = false → k.readPending slot t.pa n = false → k.acquiring slot = false →
      s.poisoned t.pa = false → s.reach c true t = .now →
      ∃ u old, exec e.1 s = .next u ∧ u.cur = (s.cur.setX d (extend true n old)).advance 4 ∧ u.harts = s.harts ∧
        (placeOf t.pa = .scratch → old = s.coherentRead t.pa n ∧
          u.mem = match amoNew e.2.1 n old x want with
            | .some v => writeBytes s.mem t.pa n v
            | .none => s.mem) ∧
        (placeOf t.pa ≠ .scratch → u.mem = s.mem ∧ ∃ l, k.line? (blockOf t.pa) = .some l ∧
          old = blockBytes l.data (t.pa % 32) n ∧
          (u.coreOf c).line? (blockOf t.pa) = match amoNew e.2.1 n old x want with
            | .some v => .some { l with dirty := true, data := patchBlock l.data (t.pa % 32) n v }
            | .none => .some l)) ∧
    (d = 0 → ord.getLsbD 0 = false → k.stores.length < 16 → s.reach c true t ≠ .violation →
      exec e.1 s = .next { s.buffered [acc] release with cur := s.cur.advance 4 })

/-- A fence goes on when the accesses that it orders are over at its scope, and then has its effect on the order of its thread's
accesses: `fence.acq` when the earlier reads have returned, the others when the earlier writes are performed as well (R173, R177,
R187). Until then the thread waits. `xfence` waits for the accesses of its first path, and with the core path for a full fence
(R180). `cas128` in the own scratchpad writes the 16 bytes only when they equal x[d+1] : x[d], and fills the pair with what they
held (R185). -/
def Obligations.FenceResults : Prop :=
  (∀ (s : State) (scope p q : BitVec 3), s.cur.who.isPp = false → s.mayIssue .both = .ok () →
    let w := s.cur.who
    let k := s.coreOf w.core'
    let go := fun (s' : State) => Host.Outcome.next (φ := Fault) (ρ := Refusal) (s'.withCur (s.cur.advance 4))
    let stay := Host.Outcome.next (φ := Fault) (ρ := Refusal) (s.withCur { s.cur with wait := .again, ended := .waited })
    (k.readsBack w.slot' (s.stamps + 1) = true → exec (.fenceAcq scope) s = go (s.fenceAcq w scope.toNat)) ∧
    (k.readsBack w.slot' (s.stamps + 1) = false → exec (.fenceAcq scope) s = stay) ∧
    (s.quiet w scope.toNat = true → exec (.fenceRel scope) s = go (s.fenceRel w scope.toNat) ∧
      exec (.fenceFull scope) s = go (s.fullFence w scope.toNat)) ∧
    (s.quiet w scope.toNat = false → exec (.fenceRel scope) s = stay ∧ exec (.fenceFull scope) s = stay) ∧
    (s.attachedDone w.core' w.slot' p.toNat scope.toNat = true → (s.quiet w scope.toNat = true ∨ p ≠ 0 ∧ q ≠ 0) →
      exec (.xfence p q scope) s = go (s.orderPath w p.toNat q.toNat)) ∧
    (s.attachedDone w.core' w.slot' p.toNat scope.toNat = false → exec (.xfence p q scope) s = stay) ∧
    (s.quiet w scope.toNat = false → p = 0 ∨ q = 0 → exec (.xfence p q scope) s = stay)) ∧
  (∀ (s : State) (scope p q : BitVec 3), s.cur.who.isPp = true → s.mayIssue .both = .ok () →
    ∀ i ∈ [Instr.fenceAcq scope, .fenceRel scope, .fenceFull scope, .xfence p q scope],
      exec i s = .next (s.withCur (s.cur.advance 4))) ∧
  (∀ (s : State) (d b a : Reg) (ord : BitVec 2) (scope : BitVec 3) (t : Target), s.cur.who.isPp = false →
    s.mayIssue .coreOnly = .ok () → s.cur.FullX [d, regPlus d 1, a, b, regPlus b 1] →
    s.translate (s.cur.readX a) 16 .write = .ok t → (ord.getLsbD 1 = true → s.quiet s.cur.who scope.toNat = true) →
    let c := s.cur.who.core'
    let slot := s.cur.who.slot'
    (s.coreOf c).storePending slot t.pa 16 = false → (s.coreOf c).readPending slot t.pa 16 = false →
    (s.coreOf c).acquiring slot = false → s.poisoned t.pa = false → s.reach c true t = .now → placeOf t.pa = .scratch →
    let old := s.coherentRead t.pa 16
    let want := (s.cur.readX d).toNat + 2 ^ 64 * (s.cur.readX (regPlus d 1)).toNat
    let new := (s.cur.readX b).toNat + 2 ^ 64 * (s.cur.readX (regPlus b 1)).toNat
    ∃ u, exec (.cas128 d b a ord scope) s = .next u ∧ u.mem = (if old = want then writeBytes s.mem t.pa 16 new else s.mem) ∧
      u.cur = (s.cur.fillDest (.pair (s.cur.xIdx d) (s.cur.xIdx (regPlus d 1))) true 16 old).advance 4)

/-- Cache hints on cacheable local memory whose region asks for no notice (R156, R157): `discard` drops the line and its dirty
data, `inval` and `flush` write dirty data of a line homed on the die back first, `flush` also drops the block from the die's L2 and RDC,
`clean` keeps the line without its dirty mark, `pref` leaves a line or a request for it; `prefl2` fills the line of the die's
L2, unless its way has been repaired away, or asks the home on another die for the blocks that the die's RDC lacks, unless a write-back of
one is not acknowledged (R279, R385). -/
def Obligations.HintResults : Prop :=
  ∀ (s : State) (a : Reg) (imm : BitVec 11) (t : Target) (r : Right), s.mayIssue .coreOnly = .ok () → s.cur.FullX [a] →
    s.cur.who.isPp = false → s.translate (s.cur.readX a + imm.signExtend 64) 1 r = .ok t → s.hintable t = true →
    (s.regionOf t).hint = false →
    let c := s.cur.who.core'
    let b := blockOf t.pa
    let moves := fun (i : Instr) (good : State → Prop) => ∃ u, exec i s = .next u ∧ u.cur = s.cur.advance 4 ∧ good u
    let gone := fun (u : State) => (u.coreOf c).line? b = .none
    let back := fun (u : State) => ∀ l, (s.coreOf c).line? b = .some l → l.dirty = true →
      homeDie l.region.homePa = coreDie c → l.block = b → homeData u.mem b = l.data
    let waits := fun (kind : Nat) => (s.coreOf c).hintWaits kind s.cur.who.slot' b
    (waits 2 = false → r = .write → moves (.discard a imm) fun u => gone u ∧ u.mem = s.mem) ∧
    (waits 5 = false → r = .read → moves (.inval a imm) fun u => gone u ∧ back u) ∧
    (waits 2 = true → r = .write → exec (.discard a imm) s = .next (s.waitFor .again)) ∧
    (waits 5 = true → r = .read → exec (.inval a imm) s = .next (s.waitFor .again)) ∧
    (r = .read → moves (.flush a imm) fun u => gone u ∧
      (∀ q ∈ u.lines, q.holder = holderFor s (coreDie c) t.pa → q.line = t.pa / 256 → q.sectors.getLsbD (b / 32 % 8) = false) ∧
      (∀ q ∈ u.rdc, ¬ (q.die = coreDie c ∧ q.block = b)) ∧
      ((∀ q ∈ s.rdc, ¬ (q.die = coreDie c ∧ q.block = b)) → back u)) ∧
    (r = .read → moves (.clean a imm) fun u => back u ∧
      (u.coreOf c).line? b = ((s.coreOf c).line? b).map fun l => { l with dirty := false }) ∧
    (r = .read → ((s.coreOf c).line? b).isSome = true ∨ (s.writeBackOpen c b (s.regionOf t) = false ∧
        ((s.coreOf c).requests.filter (·.slotUsed)).length < 16) →
      moves (.pref a imm) fun u => u.mem = s.mem ∧
        (((u.coreOf c).line? b).isSome = true ∨ ∃ q ∈ (u.coreOf c).requests, q.block = b)) ∧
    (r = .read → isRemote s.pkg t.pa = false →
      (homeDie t.pa = coreDie c → s.wayOff (2 * coreDie c) (t.pa / 256) = false → moves (.prefl2 a imm) fun u => u.mem = s.mem ∧
        ∃ q ∈ u.lines, q.holder = 2 * coreDie c ∧ q.line = t.pa / 256) ∧
      (homeDie t.pa ≠ coreDie c → isRemote s.pkg (s.regionOf t).homePa = false →
        (∀ k < 8, s.rdcWriteBack (coreDie c) (homePp (s.regionOf t).homePa) (t.pa / 256 * 256 + 32 * k) = false) → moves (.prefl2 a imm) fun u => u.mem = s.mem ∧ ∀ k < 8, let k := t.pa / 256 * 256 + 32 * k
        (∃ q ∈ s.rdc, q.die = coreDie c ∧ q.block = k) ∨
          ∃ m ∈ (u.ppOf (homePp (s.regionOf t).homePa)).reqQueue, m.type = 0 ∧ m.block = k))

/-! ## Copies and sync blocks (R158 to R165) -/

/-- A copy whose arguments pass R159 enters the cluster's queue with the operands of its quads, and its ticket register is
empty until it ends; a full queue gives -1 to the form that does not wait, and the other waits out of the rotation (R159, R160). -/
def Obligations.CopyIssued : Prop :=
  ∀ (s : State) (d a b : Reg) (nb : Bool) (sync : Option Nat) (e : Instr × Nat × List Word), s.mayIssue .coreOnly = .ok () →
    s.cur.FullX (d :: run4 a ++ run4 b) →
    e ∈ [(Instr.cpy d a nb, 0, []), (.cpys d a b nb, 1, s.cur.quad b), (.cpyg d a b nb, 2, s.cur.quad b),
      (.cfill d a nb, 3, [])] →
    let q : CopyArgs := ⟨s.cur.quad a, e.2.2⟩
    copyCheck (q.shape e.2.1).1 (q.shape e.2.1).2 (q.y 3).toNat = .ok () →
    s.syncArgument (q.x 3) (trapOf .copyArgument (q.x 3)) = .ok sync →
    (s.copyRoom s.cur.who.core' = true →
      let k := s.newCopy e.2.1 q sync (s.cur.destX d)
      exec e.1 s = .next { s with copies := s.copies ++ [k], cur := (s.cur.markX d).advance 4 } ∧
      k.dst = s.cur.readX a ∧ k.src = s.cur.readX (regPlus a 1) ∧ k.done = 0 ∧ k.running = false ∧
      k.bytes = (s.cur.readX (regPlus (regPlus a 1) 1)).toNat) ∧
    (s.copyRoom s.cur.who.core' = false → nb = true →
      exec e.1 s = .next (s.withCur ((s.cur.setX d (BitVec.allOnes 64)).advance 4))) ∧
    (s.copyRoom s.cur.who.core' = false → nb = false → exec e.1 s = .next (s.waitFor (.room .copies)))

/-- COPY_START starts the first waiting copy of a cluster that runs fewer than four; COPY_COMPLETE and COPY_FAULT take a copy
away, fill its ticket with the status and the bytes performed, and send the post of a sync block of this package, with the bytes of
the whole copy and, for a failure, its status bits (R160, R161, R163). SYNC_BLOCK_POST takes the next post that has arrived and adds
its bytes to the count; the generation advances once for each multiple of the target that the count reaches, and what is left over
stays; status bits are added, and other memory is unchanged (R162, R163). -/
def Obligations.CopyEvents : Prop :=
  ((∀ (s : State) (cl : ClusterId) (k : Copy), (s.copies.filter fun q => q.cl == cl).countP (·.running) < 4 →
     s.copies.find? (fun q => q.cl == cl && !q.running) = .some k →
     exec (.copyStart cl) s = .next { s with copies := s.copies.map fun q => if q.id = k.id then { q with running := true } else q }) ∧
   (∀ (s : State) (cl i : Nat) (k : Copy), s.copyAt cl i = .some k → (∀ pa, k.sync = .some pa → isRemote s.pkg pa = false) →
     let w := Who.core k.core k.slot
     let ends := fun (j : Instr) (s' : State) (status bits : Nat) => (s'.hartOf w).who = w →
       ∃ u, exec j s = .next u ∧ u.copies = s'.copies.filter (fun q => q.id != k.id) ∧
         u.hartOf w = (s'.hartOf w).fillDest k.ticket false 8 (BitVec.ofNat 64 (status * 2 ^ 40 + k.done % 2 ^ 40)).toNat ∧
         (k.sync = .none → u.posts = s'.posts) ∧
         (∀ pa, k.sync = .some pa → ∃ n, u.posts = s'.posts ++ [⟨pa, k.rows * k.bytes, bits, false, .none, k.cover, 1, n⟩])
     (k.running = true → k.finished = true → k.fault = .none → ends (.copyComplete cl i) s 0 0) ∧
     (∀ st va f, k.fault = .some (st, va, f) →
       ends (.copyFault cl i) (s.postEngine k.ctx 5 va st k.faultSize f) st (putBits st k.faultWrite f)))) ∧
  (∀ (s : State) (cl : ClusterId) (p : Post),
     let here := s.posts.filter fun q => scratchCluster q.pa == cl && decide (q.arrives < s.unitCycles q.pa)
     here.find? (fun q => !here.any fun r => r.before q) = .some p →
     let total := s.syncCount p.pa + p.bytes % 2 ^ 40
     let tg := s.syncTarget p.pa
     ∃ u, exec (.syncBlockPost cl) s = .next u ∧ u.posts = s.posts.erase p ∧ u.syncTarget p.pa = tg ∧
       u.syncStatus p.pa = (s.syncStatus p.pa ||| p.bits) % 2 ^ 64 ∧
       (0 < tg → u.syncCount p.pa = total % tg ∧ u.syncGen p.pa = (s.syncGen p.pa + total / tg) % 2 ^ 32) ∧
       (tg = 0 → u.syncCount p.pa = total % 2 ^ 40 ∧ u.syncGen p.pa = s.syncGen p.pa ∧
         (2 ^ 40 ≤ total → u.syncFlags p.pa / 2 % 2 = 1)) ∧
       (p.broken = true → u.syncFlags p.pa % 2 = 1) ∧
       ∀ a, a < p.pa ∨ p.pa + 32 ≤ a → readByte u.mem a = readByte s.mem a)

/-- Sync-block instructions on an address in scratchpad (R164): `syncinit` sets the target and clears the count, the flags and the
status; `syncrd` reads a field, at once in the own cluster and otherwise into an empty register that the unit of the other cluster
fills; `notify` posts once its thread's accesses are done; `syncw` gives flags and generation when its condition holds, and otherwise
leaves its register empty and waits; SYNCW_RECHECK ends such a wait. Where earlier operations of the thread on the block, or posts
that have arrived, have still to act, they wait. -/
def Obligations.SyncResults : Prop :=
  (∀ (s : State) (d a b : Reg) (sel : BitVec 5) (pa : Nat), s.mayIssue .coreOnly = .ok () → s.cur.FullX [d, a, b] →
    let y := s.cur.readX b
    let w := s.cur.who
    let c := w.core'
    let stay := Host.Outcome.next (φ := Fault) (ρ := Refusal) (s.waitFor .again)
    (s.syncAddress (s.cur.readX a) .write = .ok pa → y.toNat < 2 ^ 40 →
      (s.syncBusy pa = false → s.postDue pa (s.unitCycles pa) = false → ∃ u, exec (.syncinit a b) s = .next u ∧
        u.cur = s.cur.advance 4 ∧ u.syncTarget pa = y.toNat ∧ u.syncCount pa = 0 ∧ u.syncFlags pa = 0 ∧ u.syncStatus pa = 0 ∧
        u.syncGen pa = s.syncGen pa ∧ ∀ p, p < pa ∨ pa + 32 ≤ p → readByte u.mem p = readByte s.mem p) ∧
      (s.syncBusy pa = true ∨ s.postDue pa (s.unitCycles pa) = true → exec (.syncinit a b) s = stay)) ∧
    (s.syncAddress (s.cur.readX a) .write = .ok pa →
      (s.quiet w 7 = true → isRemote s.pkg pa = false → ∃ n, exec (.notify a b) s = .next { s.markPerformed w 7 s.stamps with
        cur := s.cur.advance 4
        turn := s.turn + 1
        posts := s.posts ++ [{ pa := pa, bytes := y.toNat % 2 ^ 40, bits := y.toNat / 2 ^ 44 * 2 ^ 44, broken := false
                               source := .some (c, w.slot'), cover := s.coverOf w 0, arrives := n }] }) ∧
      (s.quiet w 7 = false → exec (.notify a b) s = stay)) ∧
    (s.syncAddress (s.cur.readX a) .read = .ok pa →
      let gen := y.toNat % 2 ^ 32
      (s.syncReadWaits pa = true → exec (.syncrd d a sel) s = stay ∧ exec (.syncw d a b) s = stay) ∧
      (s.syncReadWaits pa = false →
        (scratchCluster pa = clusterOf c → exec (.syncrd d a sel) s =
          .next ((s.withCur ((s.cur.setX d (s.syncSelect pa sel.toNat)).advance 4)).acquireSync w pa)) ∧
        (scratchCluster pa ≠ clusterOf c → exec (.syncrd d a sel) s =
          .next ((s.withCur ((s.cur.markX d).advance 4)).withCore c fun k =>
            { k with units := k.units ++ [⟨w.slot', .sync pa sel.toNat, [s.cur.destX d], s.stamps⟩] })) ∧
        (s.syncGen pa ≠ gen ∨ s.syncFlags pa % 2 = 1 → exec (.syncw d a b) s = .next ((s.withCur ((s.cur.setX d
          (BitVec.ofNat 64 (s.syncGen pa + s.syncFlags pa % 4 * 2 ^ 32))).advance 4)).acquireSync w pa)) ∧
        (s.syncGen pa = gen → s.syncFlags pa % 2 = 0 → ∃ r, exec (.syncw d a b) s =
          .next ((s.withCur (s.cur.markX d)).waitFor (.sync pa gen d r)))))) ∧
  (∀ (s : State) (core k pa gen : Nat) (d : Reg) (r : Bool), (s.hartOf (.core core k)).wait = .sync pa gen d r →
    (s.syncOpen pa gen = true → exec (.syncwRecheck core k) s =
      .next ((s.finish (.core core k) 4 fun h => h.setX d (s.syncWord pa)).acquireSync (.core core k) pa)) ∧
    (s.syncOpen pa gen = false → exec (.syncwRecheck core k) s = .next s))

/-! ## Tasks (R111 to R123) -/

/-- Task instructions: `spawn` puts a task at the head of its core's queue and gives its handle, once its thread's accesses are done
and the queue's arbiter grants no dispatch or steal; `callat` leaves its call in the call buffer and its register empty; where no
entry or reply tag is free, the form that does not wait gets 1 and the other waits out of the rotation; `join` gives a counter at
hand that is zero or less and waits for one above; `rett` and `tend` send the reply, decrement the counter as a release, and leave
the slot vacant; `tcancel` waits for its status and `yield` goes on (R113 to R117, R120 to R123). Which free entry a queue fills is
open (log 2). -/
def Obligations.TaskResults : Prop :=
  (∀ (s : State) (d a b : Reg) (nb : Bool), s.mayIssue .coreOnly = .ok () → s.cur.FullX (d :: run4 a ++ [b, regPlus b 1]) →
    let h := s.cur
    let c := h.who.core'
    let k := s.coreOf c
    let pc := h.readX b &&& ~~~1#64
    let last := h.readX (regPlus b 1)
    let args := argsOf (h.quad a)
    let free := (List.range 32).filter fun i => !k.tasks.any (·.index == i)
    let full := fun (i : Instr) (s' : State) (r : Room) =>
      exec i s = .next (if nb then s'.withCur ((h.setX a 1).advance 4) else s.waitFor (.room r))
    let tag := if d = 0 then .some 64 else k.freeReply
    (s.quiet h.who 3 = true → s.queueTaken c = false → free ≠ [] →
      ∃ u i, exec (.spawn d a b nb) s = .next u ∧ i ∈ free ∧
        (u.coreOf c).tasks = { index := i, pc := pc, args := args, tag := ⟨.none, last, false⟩, pinned := false
                               launch := s.launchOf c, cover := s.coverOf h.who 0 } :: k.tasks ∧
        let g := h.setX d (s.handle c i (k.seqs.getD i 0 + 1))
        u.cur = (if nb then g.setX a 0 else g).advance 4) ∧
    (s.quiet h.who 3 = true → s.queueTaken c = false → free = [] → full (.spawn d a b nb) (s.markPerformed h.who 3 s.stamps) .tasks) ∧
    (s.quiet h.who 3 = false ∨ s.queueTaken c = true → exec (.spawn d a b nb) s = .next (s.waitFor .again)) ∧
    (∀ t, s.targetCore c last true = .ok t →
      (∀ g, tag = .some g → k.calls.length < 8 → ∃ u, exec (.callat d a b nb) s = .next u ∧
        (u.coreOf c).calls = k.calls ++ [{
          slot := h.who.slot', pc := pc, args := args, target := last
          reply := if d = 0 then .none else .some ⟨c, h.who.slot', h.xIdx d, g⟩, retryAt := 0, sentAt := .none
          cover := s.coverOf h.who 0 ++ s.waitingWrites h.who, stamp := s.stamps + 1 }] ∧
        (d ≠ 0 → (u.coreOf c).replyTags = g :: k.replyTags) ∧
        u.cur = (if nb then (h.markX d).setX a 0 else h.markX d).advance 4) ∧
      (tag = .none ∨ 8 ≤ k.calls.length → full (.callat d a b nb) s .calls))) ∧
  (∀ (s : State) (d a : Reg), s.mayIssue .coreOnly = .ok () → s.cur.FullX [d, a] →
    let h := s.cur
    let c := h.who.core'
    (∀ t, s.translate (h.readX a) 8 .read = .ok t → (s.coreOf c).loadWaits h.who.slot' t.pa 8 = false → s.reach c false t = .now →
      s.poisoned t.pa = false →
      let acc := s.loadAccess t 8 false
      let v := s.readNow c acc
      (v = 0 ∨ 2 ^ 63 ≤ v → exec (.join d a) s = .next ((s.hasRead c { acc with acquire := .some 7 }).withCur
        ((h.setX d (BitVec.ofNat 64 v)).advance 4))) ∧
      (0 < v → v < 2 ^ 63 → exec (.join d a) s = .next ((s.hasRead c acc).waitFor (.join acc (h.destX d))))) ∧
    exec (.tcancel d a) s = .next (s.waitFor (.cancel (h.readX a) d)) ∧
    exec .yield s = .next (s.withCur (h.advance 4))) ∧
  (∀ (s : State) (e : Instr × Word), s.mayIssue .coreOnly = .ok () → e ∈ [(Instr.rett, s.cur.readX 3), (.tend, 0)] →
    let h := s.cur
    let c := h.who.core'
    let slot := h.who.slot'
    h.xe = 0 → h.ve = 0 → h.stream = .none → (s.coreOf c).openFlow slot = .none →
    (h.task.reply.isSome ∨ h.task.away = true → s.quiet h.who 7 = true) →
    let s0 := if h.task.reply.isSome ∨ h.task.away = true then s.markPerformed h.who 7 s.stamps else s
    let gone := { h.settle with life := .vacant, task := ⟨.none, 0, false⟩ }
    let replies := fun (s' : State) => s'.replies ++ (h.task.reply.map fun r => (r, e.2, s'.coverOf h.who 0)).toList
    (h.task.join = 0 → exec e.1 s = .next (({ s0 with replies := replies s0, cur := gone } : State).tryDissolve c)) ∧
    (∀ s1 t, h.task.join ≠ 0 → s0.checkWalk c h.user h.task.join.toNat 8 .write = .ok (s1, t) → (s1.coreOf c).stores.length < 16 →
      ∃ (s2 : State) (a : Access), (s2.coreOf c).stores = (s1.coreOf c).stores ++ [⟨a, .some 7, .none, .none, .none⟩] ∧
        a.slot = slot ∧ a.kind = .amo 0 ∧ a.pa = t.pa ∧ a.size = 8 ∧ a.data = 2 ^ 64 - 1 ∧
        exec e.1 s = .next (({ s2 with replies := replies s2, cur := gone } : State).tryDissolve c)) ∧
    (∀ f, h.task.join ≠ 0 → s0.checkWalk c h.user h.task.join.toNat 8 .write = .error f →
      exec e.1 s = .next (({ s0 with joinFails := s.joinFails ++ [(s.ctxNoOf c, h.task.join)], replies := replies s0, cur := gone } :
        State).tryDissolve c)))

/-- Task events: a call enters its target's queue at the tail, pinned, once the caller's earlier accesses are done and the queue's
arbiter grants no dispatch or steal, or is refused for 64 N-cycles; a reply fills the caller's register and frees its tag; a vacant
slot takes the head of its own queue, or else of another queue of its cluster the unpinned entry nearest the tail, and starts it at U
with the arguments in x3 to x6 (R109, R114 to R119). The ends of waits on tasks: a failed decrement is reported with cause 4; a
waiting `join` goes on when its counter is zero or less; a cancel request removes a queued task that `spawn` made in the launch (0),
finds it started (1), or is no handle of the launch (2); it decrements a counter once the writes of the queue's core are performed
(R117, R120 to R122). -/
def Obligations.TaskEvents : Prop :=
  (∀ (s : State) (c k slot : Nat),
     let starts := fun (u : State) (t : TaskEntry) => (s.hartOf (.core c slot)).who = .core c slot →
       let h := u.hartOf (.core c slot)
       h.life = .live ∧ h.wait = .none ∧ h.latch = .none ∧ h.frame = [] ∧ h.pc = t.pc ∧ h.user = true ∧ h.task = t.tag ∧
         h.readX 1 = 0 ∧ h.readX 3 = t.args[0] ∧ h.readX 4 = t.args[1] ∧ h.readX 5 = t.args[2] ∧ h.readX 6 = t.args[3]
     (∀ e, (s.coreOf c).calls[k]? = .some e →
       let m := e.target.toNat % 8192
       let free := (List.range 32).filter fun i => !(s.coreOf m).tasks.any (·.index == i)
       (e.retryAt = 0 → (∀ q ∈ (s.coreOf c).calls.take k, q.target ≠ e.target) →
         s.quietBefore (.core c e.slot) 7 e.stamp = true → designatedPkg e.target = s.pkg → s.queueTaken m = false →
         ∃ u, exec (.callatAccept c k) s = .next u ∧
           (free ≠ [] → (u.coreOf c).calls = (s.coreOf c).calls.eraseIdx k ∧
             ∃ i, i ∈ free ∧ (u.coreOf m).tasks = (s.coreOf m).tasks ++
               [⟨i, e.pc, e.args, ⟨e.reply, 0, false⟩, true, s.launchOf c, e.cover⟩]) ∧
           (free = [] → (u.coreOf c).calls[k]? = .some { e with retryAt := s.nCycles (coreDie c) + 64 })) ∧
       (e.retryAt ≠ 0 → ∃ u, exec (.callatRetry c k) s = .next u ∧
         (u.coreOf c).calls[k]? = .some (if e.retryAt ≤ s.nCycles (coreDie c) then { e with retryAt := 0 } else e)) ∧
       (∀ r reason, designatedPkg e.target ≠ s.pkg → e.reply = .some r →
         let s1 := s.withCore c fun q => { q with calls := q.calls.eraseIdx k }
         exec (.remoteCallFailed c k reason) s =
           .next ((s1.postError (s1.ctxNoOf c) ⟨e.pc, e.target, 3, reason.toNat * 16⟩).reply r 0 []))) ∧
     (∀ r v cover peer, s.replies[k]? = .some (r, v, cover) →
       let w := Who.core r.core r.slot
       (s.hartOf w).who = w →
       ∃ u, exec (.callatReply k peer) s = .next u ∧ u.replies = s.replies.eraseIdx k ∧
         (u.coreOf r.core).replyTags = (s.coreOf r.core).replyTags.filter (· != r.tag) ∧
         u.hartOf w = (s.hartOf w).fillDest (.scalar r.reg) false 8 v.toNat) ∧
     (∀ r rest peer, (s.coreOf c).owed = r :: rest → exec (.callatReply (s.replies.length + c) peer) s =
       .next ((s.withCore c fun q => { q with owed := rest }).reply r peer [])) ∧
     (∀ t rest, s.vacantSlot c = .some slot → (s.coreOf c).tasks = t :: rest →
       ∃ u, exec (.taskDispatch c slot) s = .next u ∧ (u.coreOf c).tasks = rest ∧ starts u t) ∧
     (∀ v t, s.vacantSlot c = .some slot → s.stealFrom c = .some v → s.wantsHead v = false →
       (clusterAfter v).find? (fun q => s.stealFrom q == .some v) = .some c → (s.coreOf v).stealable = .some t →
       ∃ u, exec (.taskSteal c slot) s = .next u ∧
         (u.coreOf v).tasks = (s.coreOf v).tasks.filter (·.index != t.index) ∧ starts u t)) ∧
  ((∀ (s : State) (k : Nat) (q : CtxNo × Word), s.joinFails[k]? = .some q →
     exec (.joinCounterFailure k) s =
       .next (({ s with joinFails := s.joinFails.eraseIdx k } : State).postError q.1 ⟨q.2, 0, 4, 3⟩)) ∧
   (∀ (s : State) (c slot : Nat) (a : Access) (d : Dest),
     let w := Who.core c slot
     let b := s.againAccess c a
     let v := s.readNow c b
     (s.hartOf w).wait = .join a d → (s.hartOf w).life = .live → (s.coreOf c).loadWaits slot b.pa 8 = false →
     s.reach c false b.target = .now ∨ s.reach c false b.target = .later → s.poisoned b.pa = false →
     (v = 0 ∨ 2 ^ 63 ≤ v → exec (.joinRecheck c slot) s =
       .next ((s.hasRead c { b with acquire := .some 7 }).land w 4 d fun h => h.fillDest d true 8 v)) ∧
     (0 < v → v < 2 ^ 63 → exec (.joinRecheck c slot) s = .next (s.hasRead c b))) ∧
   (∀ (s : State) (c slot : Nat) (h : Word) (d : Reg),
     let w := Who.core c slot
     let m := h.toNat % 8192
     let ends := fun (s1 : State) (st : Word) => exec (.taskCancelRequest c slot) s = .next (s1.finish w 4 fun q => q.setX d st)
     let whole := field h 28 4 = 0 ∧ field h 37 3 = 0 ∧ field h 13 3 = 0
     (s.hartOf w).wait = .cancel h d → (s.hartOf w).life = .live → designatedPkg h = s.pkg →
     (¬ whole ∨ s.sameLaunch c m = false → ends s 2) ∧
     (whole → s.sameLaunch c m = true → s.queueTaken m = false →
       let i := field h 32 5
       let hit := (s.coreOf m).tasks.find? fun e => e.index == i && !e.pinned &&
         ((s.coreOf m).seqs.getD i 0).toNat == field h 40 24
       let rest := s.setCore { s.coreOf m with tasks := (s.coreOf m).tasks.filter (·.index != i) }
       (hit = .none → ends s 1) ∧
       (∀ e, hit = .some e → e.tag.join = 0 → ends rest 0) ∧
       (∀ e u, hit = .some e → e.tag.join ≠ 0 → rest.coreQuiet m = true →
         rest.countDown m false 0 (rest.coreRelease m e) e.tag.join = .some u → ends u 0))))

/-! ## Messages between cores (R124 to R135) -/

/-- Message instructions: `send` leaves a word of x[b+1] : x[b] on its way to its port and waits; `sopen` opens a stream and claims
nothing; a put on a claimed stream with room sends its word; where the route is not claimed the header sets out and the thread waits,
or with `.nb` the whole route and the port are claimed at once, or the form gives 1; `sclose` closes; pops take the lower half of the
head entry and then the upper, or an entry; `qprobe` reads length, half and hold (R125, R126, R129 to R131). -/
def Obligations.MessageResults : Prop :=
  ∀ (s : State) (d a b : Reg) (port nb : Bool) (q : BitVec 2) (vd : VReg) (cd : BitVec 4), s.mayIssue .coreOnly = .ok () →
    s.cur.FullX [d, a, regPlus a 1, b, regPlus b 1, wideReg cd] → s.cur.FullV [vd] → s.needRegs [vd] = .ok () →
    let h := s.cur
    let c := h.who.core'
    let slot := h.who.slot'
    let k := s.coreOf c
    (∀ t, s.targetCore c (h.readX a) false = .ok (.some t) →
      (∃ u, exec (.send d a b port nb) s = .next u ∧ u.cur = { h with wait := .outcome, ended := .waited } ∧
        (u.coreOf c).sending = k.sending ++ [⟨slot, t, port, h.readX (regPlus b 1) ++ h.readX b,
          if nb then .some d else .none, s.vCycles c, 0, s.fenceCover h.who, false⟩]) ∧
      (coreDie t = coreDie c → h.stream = .none →
        ((List.range k.threads).filter fun i => (s.hartOf (.core c i)).stream.isSome).length < 2 →
        exec (.sopen a port) s = .next (s.withCur ({ h with stream := .some ⟨t, port, false, false⟩ }.advance 4)))) ∧
    (∀ st, h.stream = .some st →
      (st.claimed = true → st.unrouted = false → ∀ f, k.openFlow slot = .some f → f.words.length ≤ Config.routeRoom →
        (∃ u, exec (.sput d a nb) s = .next u ∧ (u.coreOf c).sentWords = k.sentWords + 1 ∧
          (u.coreOf c).openFlow slot = .some { f with words := f.words ++ [(h.readX (regPlus a 1) ++ h.readX a, s.fenceCover h.who)] } ∧
          u.cur = (if nb then h.setX d 0 else h).advance 4) ∧
        (∃ u, exec (.sputv vd) s = .next u ∧ u.cur = h.advance 4 ∧
          (u.coreOf c).openFlow slot = .some { f with words := f.words ++ [(h.readV vd, s.fenceCover h.who)] })) ∧
      (st.claimed = false →
        (s.routeFree c slot st (k.claimed slot) = false → exec (.sput d a true) s = .next (s.withCur ((h.setX d 1).advance 4))) ∧
        (s.routeFree c slot st (k.claimed slot) = true → k.openFlow slot = .none → ∃ u f, exec (.sput d a true) s = .next u ∧
          (u.coreOf c).openFlow slot = .some f ∧ f.target = st.target ∧ f.port = st.port ∧
          f.words = [(h.readX (regPlus a 1) ++ h.readX a, s.fenceCover h.who)] ∧ (u.coreOf st.target).holder st.port = .some h.who ∧
          u.cur = ({ h with stream := .some { st with claimed := true, unrouted := false } }.setX d 0).advance 4) ∧
        (∃ t, exec (.sput d a false) s =
            .next ((s.sendHeader c slot st).withCur { h with wait := .put, ended := .waited, since := .some t }) ∧
          exec (.sputv vd) s =
            .next ((s.sendHeader c slot st).withCur { h with wait := .put, ended := .waited, since := .some t }))) ∧
      (k.openFlow slot = .none → exec .sclose s = .next (s.withCur ({ h with stream := .none }.advance 4))) ∧
      (∀ f, k.openFlow slot = .some f → f.words.length ≤ Config.routeRoom → exec .sclose s =
        .next ((s.withCore c fun k => k.withFlow slot fun f => { f with closing := true }).withCur
          ({ h with stream := .none }.advance 4)))) ∧
    (∀ (r : Reg) (e : Instr × Nat), (r, e) ∈ [(d, (Instr.qpop d q, 4)), (wideReg cd, (Instr.cQpop cd q, 2))] →
      match k.queue q.toNat with
      | [] => exec e.1 s = .next (s.withCur { h with wait := .queue q.toNat (h.destX r), ended := .waited })
      | w :: rest => ∃ u, exec e.1 s = .next u ∧
          u.cur = (h.setX r (if k.half q.toNat then w.extractLsb' 64 64 else w.setWidth 64)).advance e.2 ∧
          (k.half q.toNat = false → (u.coreOf c).queue q.toNat = w :: rest ∧ (u.coreOf c).half q.toNat = true) ∧
          (k.half q.toNat = true → (u.coreOf c).half q.toNat = false ∧
            (u.coreOf c).queue q.toNat = rest ++ (if q = 0 then k.drainBuf.take (8 - rest.length) else []))) ∧
    (∀ w rest, k.queue q.toNat = w :: rest → ∃ u, exec (.vqpop vd q) s = .next u ∧ (u.coreOf c).half q.toNat = false ∧
      u.cur = (h.setV vd (if k.half q.toNat then (w.extractLsb' 64 64).setWidth 128 else w)).advance 4) ∧
    exec (.qprobe d q) s = .next (s.withCur ((h.setX d (BitVec.ofNat 64 ((k.queue q.toNat).length % 256 +
      (if k.half q.toNat then 256 else 0) +
      (if q = 1 ∧ (k.holders[0]).isSome ∨ q = 2 ∧ (k.holders[1]).isSome then 512 else 0)))).advance 4))

/-- Message events: a word enters a port with a free entry that no stream holds, in a gang once every member's word has an entry kept
for it, and else is refused: the form that does not wait gets 1, the other sends again after 16 N-cycles, or times out past its limit; a
header claims the links of its route one by one, and after the last the port; words enter in order; the closing marker gives one channel
after the other back as it passes, and then the port (R105, R126 to R129). -/
def Obligations.MessageEvents : Prop :=
  ∀ (s : State) (c slot k : Nat),
    let w := Who.core c slot
    let queue := fun (u : State) (t : CoreId) (port : Bool) => (u.coreOf t).queue (if port then 2 else 1)
    (∀ e, (s.coreOf c).sendOf slot = .some e →
      let room := (queue s e.target e.port).length + s.kept e.target e.port < 8 ∧ ((s.coreOf e.target).holder e.port).isNone
      let inGang := (s.coreOf c).ganged
      let late := s.sendExpired c e
      (e.retryAt = 0 → e.accepted = false →
        (room → inGang = false →
          ∃ d, exec (.sendDelivery c slot) s = .next (((s.enterPort e.target e.port e.word e.cover).withCore c fun q =>
            q.dropSend slot).land w 4 d fun h => h.setStatusOf e.nb 0)) ∧
        (room → inGang = true → exec (.sendDelivery c slot) s =
          .next ((s.withCore c fun q => q.withSend slot fun e => { e with accepted := true }).commitSends c slot)) ∧
        (¬ room → e.nb.isSome → ∃ d,
          let u := (s.withCore c fun q => q.dropSend slot).land w 4 d fun h => h.setStatusOf e.nb 1
          exec (.sendDelivery c slot) s = .next (if inGang then u.commitSends c slot else u)) ∧
        (¬ room → e.nb = .none → ∃ u, exec (.sendDelivery c slot) s = .next u ∧
          (u.coreOf c).sendOf slot = .some { e with retryAt := s.nCycles (coreDie c) + 16 })) ∧
      (e.retryAt ≠ 0 → e.retryAt ≤ s.nCycles (coreDie c) →
        (late = false → ∃ u, exec (.sendRetry c slot) s = .next u ∧ (u.coreOf c).sendOf slot = .some { e with retryAt := 0 }) ∧
        (late = true → (s.hartOf w).life = .live → exec (.sendTimeOut c slot) s =
          .next ((s.withCore c fun q => q.dropSend slot).trapThread w
            { cause := .sendTimeOut, tval := BitVec.ofNat 64 (s.designation e.target) })))) ∧
    (∀ i f, (s.coreOf c).flows.findIdx? (fun f => f.slot == slot && !f.arrived) = .some i → (s.coreOf c).flows[i]? = .some f →
      (∀ l, (route c f.target)[f.links]? = .some l → s.linkUse l < 2 → ∃ u, exec (.streamHeader c slot) s = .next u ∧
        (u.coreOf c).flows[i]? = .some { f with links := f.links + 1 }) ∧
      (∀ l, (route c f.target)[f.links]? = .some l → 2 ≤ s.linkUse l → exec (.streamHeader c slot) s = .next s) ∧
      ((route c f.target)[f.links]? = .none → s.portOpen c slot ((s.coreOf c).flows.take i) f.target f.port = true →
        ∃ u, exec (.streamHeader c slot) s = .next u ∧ (u.coreOf f.target).holder f.port = .some w ∧
          (u.coreOf c).flows[i]? = .some { f with arrived := true } ∧
          ∀ st, f.closing = false → (s.hartOf w).who = w → (s.hartOf w).waitsPut = true → (s.hartOf w).stream = .some st →
            (u.hartOf w).wait = .none ∧ (u.hartOf w).stream = .some { st with claimed := true, unrouted := false }) ∧
      ((route c f.target)[f.links]? = .none → s.portOpen c slot ((s.coreOf c).flows.take i) f.target f.port = false →
        exec (.streamHeader c slot) s = .next s)) ∧
    (∀ f x cover rest, (s.coreOf c).flows[k]? = .some f → f.words = (x, cover) :: rest → f.arrived = true →
      (queue s f.target f.port).length + s.kept f.target f.port < 8 →
      let u := (s.withCore c fun q => { q with flows := updateAt q.flows k fun f => { f with words := rest } }).enterPort
        f.target f.port x cover
      exec (.streamWord c k) s = .next (if f.closing then u else u.wakePut c f.slot)) ∧
    (∀ f, (s.coreOf c).flows[k]? = .some f → f.closing = true → f.arrived = true →
      (f.freed + f.words.length < f.links → ∃ u, exec (.streamCloseMarker c k) s = .next u ∧
        (u.coreOf c).flows[k]? = .some { f with freed := f.freed + 1 }) ∧
      (f.links ≤ f.freed → f.words = [] → ∃ u, exec (.streamCloseMarker c k) s = .next u ∧
        (u.coreOf c).flows = (s.coreOf c).flows.eraseIdx k ∧ (u.coreOf f.target).holder f.port = .none))

/-! ## Barriers, gangs and stops (R102, R136 to R139, R314, R319, R320) -/

/-- Barrier instructions: `barwr` gives its status and, at 0, configures every member of the rectangle anew; an arrival counts into
the phase of its group's root, waits or (`barwa`) goes on with the phase, and is held where the phase's count is met or the thread has
arrived; a channel of no group gives 2 and a broken one says so;
an arrival that comes when the limit has passed finds the group broken, and is not counted; what completes at once hears what the
channel's arrivals cover. `barww` waits for the phase of the thread's last `barwa`. Barrier events, where no arrival is held: a phase whose count is met is
released, every waiter of the phase going on with it and the root counting the next; one that is not met within the limit breaks
the group, and its waiters learn so (R136 to R139, R404). -/
def Obligations.BarrierResults : Prop :=
  (∀ (s : State) (d a : Reg), s.mayIssue .coreOnly = .ok () → s.cur.FullX [d, a] →
     let h := s.cur
     let c := h.who.core'
     let ch := (h.readX a).toNat % 4
     let rect := h.sys.barwRect &&& rectMask
     let st := s.barwrStatus c ch rect
     let gives := fun (i : Instr) (cover : List Nat) (v : Word) => exec i s =
       .next (((s.markPerformed h.who 5 s.stamps).withCur ((h.setX d v).advance 4)).orderIds h.who cover)
     let reads := fun (cover : List Nat) (v : Word) => exec (.barww d a) s =
       .next ((s.withCur ((h.setX d v).advance 4)).orderIds h.who cover)
     (st ≠ 0 → exec (.barwr d a) s = .next (s.withCur ((h.setX d (BitVec.ofNat 64 st)).advance 4))) ∧
     (st = 0 → ∃ u, exec (.barwr d a) s = .next u ∧ u.cur.readX d = 0 ∧
       ∀ m ∈ rectCores (coreDie c) rect, let q := (u.coreOf m).channel ch
         q.group = (if field h.sys.barwCnt 0 16 = 0 then .none else .some (coreDie c, rect)) ∧
         q.count = field h.sys.barwCnt 0 16 ∧ q.limit = field h.sys.barwTo 0 32 ∧ q.arrived = 0 ∧ q.phase = 0 ∧
         q.broken = false ∧ q.members = []) ∧
     (s.rootOf c ch = .none →
       (s.quiet h.who 5 = true → gives (.barw d a) [] 2 ∧ gives (.barwa d a) [] 2)) ∧
     (s.quiet h.who 5 = false → exec (.barw d a) s = .next (s.waitFor .again) ∧ exec (.barwa d a) s = .next (s.waitFor .again)) ∧
     (∀ root, s.rootOf c ch = .some root →
       let q := (s.coreOf root).channel ch
       let inTime := ∀ t, q.firstAt = .some t → q.limit = 0 ∨ s.barCycles root - t < q.limit
       (s.quiet h.who 5 = true →
         (q.broken = true → gives (.barw d a) q.done (barResult q.phase true false) ∧
           gives (.barwa d a) q.done (barResult q.phase true false)) ∧
         (∀ t, q.broken = false → q.arrived < q.count → q.firstAt = .some t → q.limit ≠ 0 → q.limit ≤ s.barCycles root - t →
           s.rootOf root ch = .some root → h.wait = .none → (∀ w ∈ s.groupThreads root ch, (s.hartOf w).who = w) →
           ∀ i ∈ [Instr.barw d a, .barwa d a], ∃ u, exec i s = .next u ∧
             u.cur = (h.setX d (barResult q.phase true false)).advance 4 ∧
             let r := (u.coreOf root).channel ch
             r.broken = true ∧ r.phase = q.phase ∧ r.arrived = 0 ∧ r.members = []) ∧
         (q.broken = false → q.arrived < q.count → inTime → h.who ∉ q.members →
           ∀ e ∈ [(Instr.barw d a, { h with wait := .barrier ch q.phase d, ended := .waited }),
               (.barwa d a, ((h.setBarwa ch q.phase).setX d (barResult q.phase false false)).advance 4)],
             ∃ u, exec e.1 s = .next u ∧ u.cur = e.2 ∧ let r := (u.coreOf root).channel ch
               r.arrived = q.arrived + 1 ∧ r.members = h.who :: q.members ∧ r.phase = q.phase ∧
               r.firstAt = .some (q.firstAt.getD (s.barCycles root))) ∧
         (q.broken = false → q.count ≤ q.arrived ∨ (inTime ∧ h.who ∈ q.members) → ∀ e ∈ [(Instr.barw d a, false), (.barwa d a, true)],
           ∃ u, exec e.1 s = .next u ∧ u.cur = { h with wait := .barrierHeld ch e.2 d, ended := .waited } ∧
             ((u.coreOf root).channel ch).held = q.held ++ [h.who])) ∧
       (∀ p, h.barwa.getD ch .none = .some p →
         (p = q.phase → q.broken = false →
           exec (.barww d a) s = .next (s.withCur { h with wait := .barrier ch p d, ended := .waited })) ∧
         (p ≠ q.phase → reads q.done (barResult p q.broken false)) ∧
         (p = q.phase → q.broken = true → reads q.done (barResult p true true))))) ∧
  ((∀ (s : State) (root ch : Nat), ch < 4 → s.rootOf root ch = .some root →
     let q := (s.coreOf root).channel ch
     q.broken = false → q.held = [] →
     (q.count ≤ q.arrived → ∃ u, exec (.barrierRelease root ch) s = .next u ∧
       (let r := (u.coreOf root).channel ch
        r.phase = (q.phase + 1) % 2 ^ 32 ∧ r.arrived = 0 ∧ r.members = [] ∧ r.firstAt = .none ∧ r.broken = false) ∧
       ∀ d, s.cur.who ∈ s.groupThreads root ch → s.cur.life = .live → s.cur.wait = .barrier ch q.phase d →
         (s.groupThreads root ch).Nodup → (∀ w ∈ s.groupThreads root ch, (s.hartOf w).who = w) → u.cur = ((s.cur.setX d (barResult q.phase false false)).usePrefix).advance 4) ∧
     (∀ t, q.firstAt = .some t → q.arrived < q.count → q.limit ≠ 0 → q.limit ≤ s.barCycles root - t →
       ∃ u, exec (.barrierTimeOut root ch) s = .next u ∧ ((u.coreOf root).channel ch).broken = true ∧
         ((u.coreOf root).channel ch).phase = q.phase ∧ ((u.coreOf root).channel ch).arrived = 0)))

/-- Event interrupts and stops: the lowest slot that may be interrupted takes cause 29 with the code of the entry at the head of
q3, which stays; a fatal stop of thread scope stops its thread alone, of core scope every slot of its core and of gang scope every
slot of its gang, with the record of the trap in its core; of partition scope the halt tree carries it on, unless an agreed switch came first,
and stops every core of the partition (R314, R319 to R321). -/
def Obligations.StopResults : Prop :=
  (∀ (s : State) (c k : Nat) (e : Vec) (l : List Vec), (s.coreOf c).queues[3] = e :: l → (s.coreOf c).gang = .none →
    (List.range (s.coreOf c).threads).find? (fun i =>
      (s.hartOf (.core c i)).interruptible && (s.hartOf (.core c i)).landed.isNone) = .some k →
    exec (.eventInterrupt c) s = .next ((s.focus (.core c k)).trap
      { cause := .eventInterrupt, tval := BitVec.ofNat 64 (e.toNat % 256), intr := true })) ∧
  (∀ (s : State) (c slot : Nat), let w := Who.core c slot
    let h := s.hartOf w
    h.who = w → h.life = .live → h.wait = .fatal false →
    let scope := ((s.partOfCore c).map (·.stopScope)).getD 0
    let record := StopRecord.mk (BitVec.ofNat 64 s.time) (BitVec.ofNat 64 (s.coreOf c).sentWords)
      (BitVec.ofNat 64 (s.coreOf c).recvWords) h.sys.tepc h.sys.tcause (BitVec.ofNat 64 (2 ^ 31 + slot))
    let slots := fun (m : CoreId) => List.range (s.coreOf m).threads
    let stops := fun (u : State) (m : CoreId) => (s.coreOf m).threads ≤ 16 → (∀ k ∈ slots m, (s.hartOf (.core m k)).who = .core m k) →
      ∀ k ∈ slots m, u.hartOf (.core m k) = { s.hartOf (.core m k) with life := .stopped }
    ∃ u, exec (.fatalStop c slot) s = .next u ∧ u.mem = s.mem ∧
      (scope = 0 → u.hartOf w = { h with life := .stopped } ∧ (u.coreOf c).stop = .some record) ∧
      (scope = 1 → stops u c ∧ ((s.coreOf c).stop = .none → (u.coreOf c).stop = .some record)) ∧
      (scope = 2 → (∀ m ∈ s.gangOf c, (s.coreOf m).threads ≤ 16 ∧ ∀ k ∈ slots m, (s.hartOf (.core m k)).who = .core m k) →
        (∀ m ∈ s.gangOf c, stops u m) ∧
        (c ∈ s.gangOf c → (s.coreOf c).stop = .none → (u.coreOf c).stop = .some record)) ∧
      (3 ≤ scope → s.switchedBefore c = false → stops u c ∧ ∀ p q, (s.coreOf c).part = .some p → q ∈ u.parts → q.id = p → q.state = .halting)) ∧
  (∀ (s : State) (ctx : CtxNo) (p : Partition), s.partOfCtx ctx = .some p → p.state = .halting →
    ∃ u, exec (.haltTreeStop ctx) s = .next u ∧ (s.arrays = [] → u.mem = s.mem) ∧ (∀ q ∈ u.parts, q.id = p.id → q.state = .stopped) ∧
      (∀ k ∈ u.ctxs, k.num = ctx → k.state = .stop ∧ k.plan = .none) ∧
      ((∀ c ∈ p.cores, (s.coreOf c).threads ≤ 16 ∧ ∀ k < (s.coreOf c).threads, (s.hartOf (.core c k)).who = .core c k) →
        ∀ c ∈ p.cores, (u.coreOf c).stop.isSome = true ∧
          ∀ k < (s.coreOf c).threads, (u.hartOf (.core c k)).life = .stopped))

/-! ## Translations and regions (R275, R276, R318) -/

/-- At S, `tlbinv` drops the context's translations that cover the address, `tlbinva` all of them, as a full fence, and the thread goes
on when no access still uses one; `rgnwr` gives its status, and at 0 replaces the entry once the recalls of the old binding's directory
entries are over (R276, R318). -/
def Obligations.MapResults : Prop :=
  ∀ (s : State) (d a b : Reg), s.mayIssue .coreOnly = .ok () → s.cur.user = false → s.cur.FullX [d, a, b, regPlus b 1] →
    let h := s.cur
    let c := h.who.core'
    let va := (h.readX a).toNat
    let ctx := s.ctxNoOf c
    let fenced := s.fullFence h.who 6
    let drops := fun (i : Instr) (hit : TlbEntry → Bool) (page : Option Nat) =>
      let t : State := { fenced with tlb := s.tlb.filter fun e => !(e.ctx == ctx && hit e) }
      (s.inFlight ctx (samePage page) = false → exec i s = .next { t with cur := h.advance 4 }) ∧
      (s.inFlight ctx (samePage page) = true → exec i s = .next (t.waitFor (.room (.unused page))))
    (s.quiet h.who 6 = true →
      (canonical va = true → drops (.tlbinv a) (fun e => decide (e.base ≤ va) && decide (va < e.base + e.size)) (.some va)) ∧
      (canonical va = false → exec (.tlbinv a) s = .next { fenced with cur := h.advance 4 }) ∧
      drops .tlbinva (fun _ => true) .none) ∧
    (s.quiet h.who 6 = false → exec (.tlbinv a) s = .next (s.waitFor (.room (.quiet 6))) ∧
      exec .tlbinva s = .next (s.waitFor (.room (.quiet 6)))) ∧
    (∀ k, s.ctxOfCore c = .some k →
      let w0 := h.readX b
      let w1 := h.readX (regPlus b 1)
      let st := s.rgnStatus k va w0 w1
      (st ≠ 0 → exec (.rgnwr d a b) s = .next (s.withCur ((h.setX d (BitVec.ofNat 64 st)).advance 4))) ∧
      let old := (k.regions.getD va (0, 0)).2
      let proto := field old 0 4
      let scan := (s.scanOf h.who).getD ⟨h.who, s.boundEntries k.num proto, []⟩
      (st = 0 → old.getLsbD 8 = true → (s.recallBinding k.num proto).2 = false →
        exec (.rgnwr d a b) s = .next ((s.recallBinding k.num proto).1.waitFor (.room .recall))) ∧
      (st = 0 → (old.getLsbD 8 = false ∨ (scan.left = [] ∧ ∀ e ∈ scan.recalled, s.recallPending e = false)) →
        ∃ u, exec (.rgnwr d a b) s = .next u ∧ u.cur = (h.setX d 0).advance 4 ∧
          u.ctxs = s.ctxs.map (fun q => if q.num = k.num then { q with
            regions := q.regions.setIfInBounds va (w0, w1)
            regionPa := q.regionPa.setIfInBounds va (if w1.getLsbD 11 then (s.rgnPa k w0).getD 0 else 0) } else q) ∧
          ∀ t ∈ u.tlb, t ∈ s.tlb ∧ (t.ctx = k.num → w1.getLsbD 8 = true →
            overlaps (rgnBase w0) (2 ^ regionLg w0) (t.base % 2 ^ 55) t.size = false)))

/-! ## Gaussian message passing (R253 to R274) -/

/-- Group arithmetic at full groups completes: sums and differences element by element, each rounded once, under the conditions of all
of them; damping by gb.beta; the Schur complement and the solutions through one factorisation, with `gbmode.rgf` set where that was
regularised. A factorisation that fails traps with the pivot and the pass in tval (R256 to R261). -/
def Obligations.GaussianResults : Prop :=
  ∀ (s : State) (vd va vb : VReg) (dim : BitVec 2), s.mayIssue .coreOnly = .ok () →
    let d := dim.toNat + 1
    let h := s.cur
    s.GroupReady va (d + 1) →
    let a := s.groupValues va (d + 1)
    let each := fun (i : Instr) (x y : List Vec) (f : Nat → Nat → Nat × Cond) (c0 : Cond) =>
      let r := elementwise d f x y
      exec i s = .next (s.withCur ((h.writeGroup (s.groupRegs vd (d + 1)) r.1 (r.2 ||| c0) false).advance 4)) ∧
        r.1.length = d + 1 ∧ ∀ k i, k ≤ d → i < 4 → laneNat 32 (r.1.getD k 0) i =
          if i < d then (f (laneNat 32 (x.getD k 0) i) (laneNat 32 (y.getD k 0) i)).1 % 2 ^ 32 else 0
    (s.GroupReady vd (d + 1) →
      (s.GroupReady vb (d + 1) →
        each (.gbadd vd va vb dim) a (s.groupValues vb (d + 1)) (fun x y => gSum [(g32 x, 0), (g32 y, 0)]) 0 ∧
        each (.gbsub vd va vb dim) a (s.groupValues vb (d + 1)) (fun x y => gSum [(g32 x, 0), ((g32 y).negate, 0)]) 0) ∧
      (let beta := specFp16.value (field h.sys.gbbeta 0 16)
       let rest := (Ext.fin false 1 0).add 0 beta.negate
       each (.gbdamp vd va dim) (s.groupValues vd (d + 1)) a (fun o n => gSum [beta.mul (g32 o), rest.1.mul (g32 n)]) rest.2)) ∧
    (∀ keep hi, let k := keep.toNat + 1
      let e := d - k
      let b := fun (i : Nat) => if hi then i else k + i
      s.GroupReady vd (k + 1) →
      (∀ f, cholesky h e (fun i j => lower (groupMat a) (b i) (b j)) = .ok f →
        ∃ vs c, schur h k d hi (groupEta a) (groupMat a) = .ok (vs, c, f.regularised) ∧ vs.length = k + 1 ∧
          exec (.gbschur vd va keep dim hi) s =
            .next (s.withCur ((h.writeGroup (s.groupRegs vd (k + 1)) vs c f.regularised).advance 4))) ∧
      (∀ x, cholesky h e (fun i j => lower (groupMat a) (b i) (b j)) = .error x →
        exec (.gbschur vd va keep dim hi) s = .next (s.raise x))) ∧
    (s.GroupReady vd 1 → h.FullV [vd] →
      (∀ f, cholesky h d (groupMat a) = .ok f →
        exec (.gbsolve vd va dim) s = .next (s.withCur ((h.writeGroup [vd] [(solveMean f d (groupEta a)).1]
          (solveMean f d (groupEta a)).2 f.regularised).advance 4)) ∧
        exec (.gbsolveVar vd va dim) s = .next (s.withCur ((h.writeGroup [vd] [(solveVar f d).1] (solveVar f d).2
          f.regularised).advance 4))) ∧
      (∀ e, cholesky h d (groupMat a) = .error e → exec (.gbsolve vd va dim) s = .next (s.raise e) ∧
        exec (.gbsolveVar vd va dim) s = .next (s.raise e) ∧
        ∃ j p, e = .trap { cause := .singularBlock, tval := BitVec.ofNat 64 (j + 256 * p) }))

/-- Mailbox instructions: `gbsend` captures a message; `gbpoll` leaves a poll pending and its register empty, and `gbpolln` takes the
slot that qualifies or gives 0x100; while a poll of the thread is pending both wait; `gbres` reads a shadow and takes the slot when
x[b] bit 0 is 1, an index past the mailbox giving bit 63; `gbld` reads the 96 bytes of a slot, at once in the own cluster and otherwise
into empty registers; each of these waits while an accepted delivery to the mailbox has still to be performed; and `gbclr` waits for
its status (R265, R266, R270 to R273). -/
def Obligations.MailboxResults : Prop :=
  ∀ (s : State) (d a b : Reg) (va : VReg) (dim : BitVec 2), s.mayIssue .coreOnly = .ok () → s.cur.FullX [d, a, b, regPlus b 1] →
    let h := s.cur
    let c := h.who.core'
    let m := (s.coreOf c).mailbox
    (∀ t, s.GroupReady va (dim.toNat + 2) → field (h.readX b) 40 24 = 0 → field (h.readX (regPlus b 1)) 16 48 = 0 →
      s.targetCore c (h.readX b &&& 0xffffffff) false = .ok (.some t) → s.sendRoom c = true →
      exec (.gbsend va b dim) s = .next { s with
        cur := h.advance 4
        sends := s.sends ++ [⟨c, h.who.slot', t, field (h.readX b) 32 8, field (h.readX (regPlus b 1)) 0 16,
          field h.sys.gbbeta 0 16, dim.toNat + 1, laneRow (dim.toNat + 1) (groupEta (s.groupValues va (dim.toNat + 2))),
          messageRows (dim.toNat + 1) (s.groupValues va (dim.toNat + 2)), .none, s.coverOf h.who 3⟩] }) ∧
    (s.pollPending = false →
      exec (.gbpoll d) s = .next ((s.withCur ((h.markX d).advance 4)).withMailbox c fun m =>
        { m with polls := m.polls ++ [⟨h.who.slot', h.destX d, h.threshold, h.roundRobin, s.stamps⟩] }) ∧
      (s.deliveryOpen c = false → match m.choose h.threshold h.roundRobin with
       | .none => exec (.gbpolln d) s = .next (s.withCur ((h.setX d 0x100).advance 4))
       | .some i => ∃ u, exec (.gbpolln d) s = .next u ∧
          u.cur = (h.setX d (BitVec.ofNat 64 (i % 256 + (m.shadow i).res.toNat * 2 ^ 32))).advance 4 ∧
          (i < m.count → (u.coreOf c).mailbox.shadow i = { m.shadow i with fresh := false, res := 0 }))) ∧
    (s.pollPending = true → exec (.gbpoll d) s = .next (s.waitFor .again) ∧ exec (.gbpolln d) s = .next (s.waitFor .again)) ∧
    (s.deliveryOpen c = true → exec (.gbpolln d) s = .next (s.waitFor .again) ∧ exec (.gbres d a b) s = .next (s.waitFor .again)) ∧
    (s.deliveryOpen c = false →
     let i := (h.readX a).toNat
     (m.count ≤ i → exec (.gbres d a b) s = .next (s.withCur ((h.setX d (1#64 <<< 63)).advance 4))) ∧
     (i < m.count → ∃ u, exec (.gbres d a b) s = .next u ∧
        u.cur = (h.setX d (BitVec.ofNat 64 ((m.shadow i).res.toNat + (if (m.shadow i).fresh then 2 ^ 32 else 0) +
          (if (m.shadow i).valid then 2 ^ 33 else 0)))).advance 4 ∧
        (u.coreOf c).mailbox.shadow i = if (h.readX b).getLsbD 0 then { m.shadow i with fresh := false, res := 0 } else m.shadow i)) ∧
    (∀ imm take pa, s.GroupReady va 6 → s.scratchAddress 128 (h.readX a + imm.signExtend 64 * 16) .read false = .ok pa →
      (s.slotBusy pa = true → exec (.gbld va a imm take) s = .next (s.waitFor .again)) ∧
      (s.slotBusy pa = false → (s.coreOf c).storePending h.who.slot' pa 96 = false → (s.coreOf c).acquiring h.who.slot' = false →
      (scratchCluster pa = clusterOf c → ([0, 32, 64].any fun k => s.poisoned (pa + k)) = false →
        ∃ u, exec (.gbld va a imm take) s = .next u ∧ (take = false → u.mem = s.mem) ∧
          u.cur = (h.setVs ((s.groupRegs va 6).zip
            ((List.range 6).map fun i => BitVec.ofNat 128 (readBytes s.mem (pa + 16 * i) 16)))).advance 4) ∧
      (scratchCluster pa ≠ clusterOf c → exec (.gbld va a imm take) s =
        .next ((s.withCur (((s.groupRegs va 6).foldl Hart.markV h).advance 4)).withCore c fun k => { k with units := k.units ++
          [⟨h.who.slot', .slot pa take, (s.groupRegs va 6).map fun r => .vector r.toNat, s.stamps⟩] })))) ∧
    exec (.gbclr d a b) s = .next (s.withCur { h with
      wait := .mailbox (h.readX a) (h.readX b) (h.readX (regPlus b 1)) d, ended := .waited })

/-- MAILBOX_CONFIGURE, once no delivery that was accepted in an earlier N-cycle is left, ends a `gbclr` with 0 and a cleared mailbox, or with 1 or 2 and nothing
changed; MAILBOX_DELIVERY first has the message accepted by its target's unit, and then, in the unit's order, writes η and Λ, counts
seq, and adds the residual to a fresh slot or sets it; a message past the mailbox is refused with cause 8 (R265 to R268, R273). -/
def Obligations.MailboxEvents : Prop :=
  (∀ (s : State) (c slot : Nat) (base count sync : Word) (d : Reg), let w := Who.core c slot
    (s.hartOf w).wait = .mailbox base count sync d →
    let gives := fun (s1 : State) (v : Word) =>
      exec (.mailboxConfigure c slot) s = .next (s1.finish w 4 fun h => h.setX d v)
    let space := s.ownSpace c
    (s.deliveryEarlier c = true → exec (.mailboxConfigure c slot) s = .next s) ∧
    (s.deliveryEarlier c = false →
    (s.mailboxBase c base = .none → gives s 1) ∧
    (∀ pa, s.mailboxBase c base = .some pa →
      let inside := pa % 128 = 0 ∧ space.1 ≤ pa ∧ pa + 128 * count.toNat ≤ space.2
      (¬ inside → gives s 1) ∧
      (inside → 256 < count.toNat → gives s 2) ∧
      (inside → count.toNat ≤ 256 → sync = 0 →
        let s1 := (s.withMailbox c fun m => { m with
          base := pa, sync := .none, shadows := List.replicate count.toNat {}, position := count.toNat - 1 })
        gives (s1.clearHeaders pa count.toNat) 0 ∧
        ∀ i, i < count.toNat → readBytes (s1.clearHeaders pa count.toNat).mem (pa + 128 * i) 16 = 0)))) ∧
  (∀ (s : State) (cl k : Nat) (g : GbMessage), (s.sends.filter fun m => clusterOf m.core == cl)[k]? = .some g →
    (((s.sends.filter fun m => clusterOf m.core == cl).take k).any fun m =>
      m.core == g.core && m.slot == g.slot && m.target == g.target && m.index == g.index) = false →
    let m := (s.coreOf g.target).mailbox
    let pa := m.base + 128 * g.index
    let h := m.shadow g.index
    let r := residual g.eta (if h.valid then BitVec.ofNat 128 (readBytes s.mem (pa + 16) 16) else 0)
    let due := g.accepted.isSome = true ∧ s.deliveredAfter g = false
    (g.accepted = .none → ∃ u, exec (.mailboxDelivery cl k) s = .next u ∧
      u.sends = s.sends.map fun q => if q = g then { q with accepted := .some (s.nCycles (coreDie g.target)) } else q) ∧
    (g.accepted.isSome = true → s.deliveredAfter g = true → exec (.mailboxDelivery cl k) s = .next s) ∧
    (due → g.index < m.count → g.beta < 2 ^ 16 → g.edge < 2 ^ 16 → 1 ≤ g.dim → g.dim ≤ 4 →
      ∃ u, exec (.mailboxDelivery cl k) s = .next u ∧ u.sends = s.sends.erase g ∧
        readBytes u.mem (pa + 16) 16 = g.eta.toNat ∧
        (∀ i : Fin 4, readBytes u.mem (pa + 32 + 16 * i.val) 16 = g.rows[i].toNat) ∧
        (u.coreOf g.target).mailbox.shadow g.index = ⟨h.seq + 1,
          BitVec.ofNat 32 (if h.fresh then (gSum [(g32 h.res.toNat, 0), (g32 r, 0)]).1 else r), true, true, g.cover⟩) ∧
    (due → m.count ≤ g.index → m.sync = .none →
      exec (.mailboxDelivery cl k) s = .next (({ s with sends := s.sends.erase g } : State).postError (s.ctxNoOf g.target)
        ⟨0, BitVec.ofNat 64 (s.designation g.target), 8, (if m.count = 0 then 1 else 2) * 256⟩)))

/-! ## The matrix array (R209 to R250) -/

/-- Leases and descriptors: `mlease` goes on with a lease held and waits otherwise; `mrelease` ends it at once when no compute command is
left, and a lease of the other partition that had ended goes on; otherwise it waits for the commands queued so far; `mtry` never waits; the eight descriptor instructions write their pair of the
thread's descriptor set (R211 to R215). -/
def Obligations.LeaseResults : Prop :=
  ∀ (s : State) (d a b : Reg), s.mayIssue .coreOnly = .ok () → s.cur.FullX [d, a, b] →
    let h := s.cur
    let cl := clusterOf h.who.core'
    let i := s.bankOf h.who.core'
    let k := s.bank cl i
    let r := s.arrayOf cl
    (k.lease = 2 → exec (.mlease d) s = .next (s.withCur ((h.setX d 0).advance 4)) ∧
      exec (.mtry d) s = .next (s.withCur ((h.setX d 0).advance 4))) ∧
    (k.lease ≠ 2 → (∃ u, exec (.mlease d) s = .next u ∧ u.cur = { h with wait := .lease d, ended := .waited } ∧
        (u.bank cl i).lease = 1) ∧
      ((r.holder.isSome ∨ r.ending.isSome ∨ r.cellsFree = false ∨ s.competes cl (1 - i) = true) → exec (.mtry d) s = .next (s.withCur ((h.setX d 1).advance 4))) ∧
      (r.holder = .none → r.ending = .none → r.cellsFree = true → s.competes cl (1 - i) = false →
        ∃ u, exec (.mtry d) s = .next u ∧ (u.bank cl i).lease = 2 ∧ (u.bank cl i).left = k.max + 1 ∧
          (u.arrayOf cl).holder = .some i)) ∧
    (k.computing = false → ∃ u, exec .mrelease s = .next u ∧ (u.bank cl i).lease = 0 ∧
      ((∀ m ∈ s.bankCores cl (1 - i), ∀ j < (s.coreOf m).threads, (s.hartOf (.core m j)).who = .core m j) → u.cur = h.advance 4) ∧
      (r.holder = .some i → r.ending = .none → (u.arrayOf cl).holder = .none) ∧
      (r.holder = .none → r.ending = .some (1 - i) → (s.bank cl (1 - i)).lease = 2 → (u.arrayOf cl).holder = .some (1 - i))) ∧
    (k.computing = true → exec .mrelease s = .next (s.waitFor (.mrelease cl i k.next))) ∧
    (∀ e ∈ [(Instr.mseta a b, 0), (.msetb a b, 1), (.msetc a b, 2), (.mscla a b, 3), (.msclb a b, 4), (.msetm a b, 5),
        (.mshape a b, 6)], exec e.1 s = .next (s.withCur ({ h with
          desc := (h.desc.setIfInBounds (2 * e.2) (h.readX a)).setIfInBounds (2 * e.2 + 1) (h.readX b) }.advance 4))) ∧
    exec (.msync a) s = .next (s.withCur ({ h with
      desc := (h.desc.setIfInBounds 14 (h.readX a)).setIfInBounds 15 0 }.advance 4))

/-- Commands of the array: one that passes its checks enters its bank's queue with the descriptor set, the prefix and the level of
its thread, whose ticket register is empty until it ends; without a lease a compute command traps; `mresume`, `mstat` and `mabort`
act on the tile's state (R217, R218, R224, R232 to R236, R243). -/
def Obligations.MatrixIssued : Prop :=
  ∀ (s : State) (d a : Reg) (t : BitVec 2), s.cur.FullX [d, a] →
    let h := s.cur
    let c := h.who.core'
    let cl := clusterOf c
    let i := s.bankOf c
    let k := s.bank cl i
    let fits := fun (j : Instr) (op : MatrixOp) (control : Word) (kind : TileKind) (sync : Option Nat) (e : Reg) =>
      ∃ u q, exec j s = .next u ∧ (u.bank cl i).queue = k.queue ++ [q] ∧ q.op = op ∧ q.tile = t.toNat ∧ q.control = control ∧
        q.kind = kind ∧ q.desc = h.desc ∧ q.fmt = h.latch ∧ q.sync = sync ∧ q.user = h.user ∧ q.core = c ∧
        q.toCore = c ∧ q.ticket = h.destX e ∧ q.running = false ∧ { u.cur with rng := h.rng } = (h.markX e).advance 4
    (s.mayIssue .vector = .ok () → ∀ e ∈ [(Instr.mma d t, 0), (.mmaz d t, 1), (.mmas d t, 2), (.mmod d t, 3), (.mntt d t, 4),
        (.mintt d t, 5), (.mtwid d t, 6)], ∀ p m sync,
      let modular := decide (3 ≤ e.2)
      let kind := if modular then TileKind.modular m else .plain
      let q := s.newCommand (.compute e.2) t.toNat d 0 kind k
      h.prefixFields (if modular then noPrefix else matrixDefault)
        (if modular then Prefix.modular else Prefix.product (e.2 == 2)) = .ok p →
      (modular = true → h.modulus = .ok m ∧ q.checkModular (k.tile t.toNat).kind = .ok ()) →
      q.checkCompute = .ok () → s.syncArgument (q.word 14) (matrixBad (q.word 14)) = .ok sync →
      (k.lease = 0 → exec e.1 s = .next (s.trap { cause := .noLease, tval := 0 })) ∧
      (k.lease ≠ 0 → k.queue.length < 16 → fits e.1 (.compute e.2) 0 kind sync d) ∧
      (k.lease ≠ 0 → 16 ≤ k.queue.length → exec e.1 s = .next (s.waitFor (.room (.commands cl i))))) ∧
    (s.mayIssue .coreOnly = .ok () →
      (∀ e ∈ [(Instr.mdrain d a t, MatrixOp.drain), (.mdrainq d a t, .drainq)], ∀ sync,
        let kind := (k.tile t.toNat).kind
        let q := s.newCommand e.2 t.toNat d (h.readX a) kind k
        goodControl (h.readX a) = true → (q.word 4).toNat % 16 = 0 → (q.word 5).toNat % 16 = 0 → q.checkShape = .ok () →
        s.syncArgument (q.word 14) (matrixBad (q.word 14)) = .ok sync →
        (kind.isModular = true → q.m ≤ 32 ∧ q.n ≤ 16) → k.queue.length < 16 → fits e.1 e.2 (h.readX a) kind sync d) ∧
      (k.queue.length < 16 → fits (.mzero t) .zero 0 .zero .none 0) ∧
      (k.lease ≠ 0 →
        ((∀ q ∈ k.queue, q.tile = t.toNat → q.suspended = false) → exec (.mresume d t) s =
          .next (s.withCur ((h.setX d (BitVec.ofNat 64 (t.toNat * 2 ^ 32 + 4 * 2 ^ 40))).advance 4))) ∧
        (∀ q, (k.queue.find? fun q => q.tile == t.toNat && q.suspended) = .some q →
          q.canResume (k.tile t.toNat).kpos (k.tile t.toNat).row = true →
          ∃ u, exec (.mresume d t) s = .next u ∧ u.cur = (h.markX d).advance 4 ∧
            ∃ r ∈ (u.bank cl i).queue, r.id = q.id ∧ r.suspended = false ∧ r.running = false ∧ r.desc = q.desc)) ∧
      (h.readX a &&& ~~~0x103#64 = 0 → ∃ u, exec (.mstat d a t) s = .next u ∧
        u.cur = (h.setX d (match field (h.readX a) 0 2 with
          | 0 => k.statusWord t.toNat
          | 1 => (k.tile t.toNat).addr
          | 2 => k.progress t.toNat
          | _ => k.leaseWord)).advance 4) ∧
      ((∀ q ∈ k.queue, q.tile ≠ t.toNat) → exec (.mabort d t) s = .next (({ s.withTile cl i t.toNat fun w =>
        { w with aborted := true } with cur := (h.setX d 0).advance 4 } : State).afterMatrix cl)) ∧
      ((∀ q ∈ k.queue, q.tile = t.toNat → q.finished = false ∧ q.writing = false) → (k.queue.map (·.id)).Nodup →
        ∃ u, exec (.mabort d t) s = .next u ∧ (u.bank cl i).queue.map (·.id) =
          (k.queue.filter fun q => q.tile != t.toNat).map (·.id)))

/-- Events of the array: a compute command at the head of its tile and of its bank starts under the lease and takes a unit of it;
`mzero` clears its tile; a finished command, a failed one and a drain leave the queue with their tickets and posts; a grant gives
its bank max + 1 units, and a lease ends at its limit, when idle, or on overrun (R213, R219 to R230). -/
def Obligations.MatrixEvents : Prop :=
  ∀ (s : State) (cl b i : Nat), b < 2 →
    let a := s.arrayOf cl
    (∀ c, s.commandAt cl b i = .some c →
      (c.running = false → c.suspended = false → s.commandLive c = true → c.isCompute = true → a.holder = .some b →
        a.cellsFree = true → (s.bank cl b).tileClear c = true → (s.bank cl b).nextCompute = .some c → 1 < (s.bank cl b).left →
        c.charged ≠ .some a.grants →
        ∃ u, exec (.matrixCommandStart cl b i) s = .next u ∧ (u.bank cl b).left = (s.bank cl b).left - 1 ∧
          (∃ q ∈ (u.bank cl b).queue, q.id = c.id ∧ q.running = true ∧ q.desc = c.desc)) ∧
      (c.running = false → c.suspended = false → s.commandLive c = true → c.op = .zero → (s.bank cl b).tileClear c = true →
        (s.bank cl b).nextPort = .some c →
        exec (.matrixCommandStart cl b i) s = .next (((s.withTile cl b c.tile fun t => { t with
          aborted := false, words := Vector.replicate 4096 0, flags := 0, iov := false, cause := 0 }).withBank cl b fun k =>
            k.dropCommand c).afterMatrix cl)) ∧
      (c.isCompute = true → c.running = true → c.finished = true →
        exec (.matrixCommandComplete cl b i) s = .next (s.completeCompute cl b c)) ∧
      (∀ cause va f mismatch, c.isCompute = true → c.running = true → c.finished = false → c.failed = .some (cause, va, f) →
        exec (.matrixSuspend cl b i mismatch) s = .next (s.suspend cl b c cause va f)) ∧
      (c.op = .drain → c.running = true → c.failed = .none → c.drainPieces.length ≤ c.put.length → c.control.getLsbD 8 = false →
        exec (.drainComplete cl b i) s = .next (((s.matrixPost cl b c 0 false).retire cl b c 0 c.drainTotal).afterMatrix cl)) ∧
      (c.op = .drainq → c.running = true → c.control.getLsbD 8 = false →
        let es := c.drainEntries ((s.bank cl b).tile c.tile)
        exec (.drainqComplete cl b i) s = .next (((es.foldl (fun s e => s.bufferEntry c.core e) s).retire cl b c 0
          (16 * es.length)).afterMatrix cl)) ∧
      (∀ cause va f, c.op = .drain → c.running = true → c.failed = .some (cause, va, f) →
        exec (.drainFault cl b i) s = .next ((((s.postEngine c.ctx 7 va cause 1 f).matrixPost cl b c (2 ^ 16) false).retire
          cl b c 3 c.bytes).afterMatrix cl)) ∧
      (∀ st n, ((s.retire cl b c st n).bank cl b).queue = (s.bank cl b).queue.filter fun q => q.id != c.id)) ∧
    ([0, 1].filter (s.competes cl) = [b] → a.holder = .none → ∃ u, exec (.leaseGrant cl) s = .next u ∧
      (u.bank cl b).lease = 2 ∧ (u.bank cl b).left = (s.bank cl b).max + 1 ∧ (u.arrayOf cl).holder = .some b ∧
      (u.arrayOf cl).grants = a.grants + 1) ∧
    (a.holder = .some b → s.competes cl (1 - b) = true →
      let ended := fun (j : Instr) => ∃ u, exec j s = .next u ∧ (u.arrayOf cl).holder = .none ∧ (u.arrayOf cl).ending = .some b ∧
        (u.arrayOf cl).last = .some b
      (a.grantedAt + a.limit ≤ s.bankCycles cl b → ended (.leaseTimeLimit cl)) ∧
      (∀ t, a.idleSince = .some t → t + 1024 ≤ s.bankCycles cl b → ended (.leaseIdleEnd cl))) ∧
    (let late := fun n => (s.bank cl n).queue.find? fun c => c.isCompute && c.running && !c.finished &&
        c.overSince.any fun t => t + 16384 ≤ s.bankCycles cl n
     ∀ c, late b = .some c → late (1 - b) = .none → c.failed = .none →
       exec (.leaseOverrunStop cl) s = .next ((s.dropRequests cl c).setCommand cl b c.halt))

/-! ## Protocol processors (R281 to R308) -/

/-- Handler instructions on tags, directory entries, busy blocks, transfers and the handler's own end (R289 to R292, R295 to
R297): each acts on the block its operand names, at the PP that runs the handler. A handler that would leave its own block busy does
not end but faults. -/
def Obligations.HandlerResults : Prop :=
  ∀ (s : State) (d a b : Reg) (block : Nat), s.mayIssue .handler = .ok () → s.cur.FullX [d, a, regPlus a 1, b] →
    s.blockOperand (s.cur.readX a) = .ok block →
    let h := s.cur
    let p := s.curPp
    let q := s.ppOf p
    let m := s.handlerMsg
    let y := h.readX b
    let gives := fun (u : State) (v : Nat) => u.cur.x = ((h.setX d (BitVec.ofNat 64 v)).advance 4).x ∧
      u.cur.pc = ((h.setX d (BitVec.ofNat 64 v)).advance 4).pc
    let fits := y = 0 ∨ (s.homeOf p block).entry ≠ 0 ∨ (s.dirSetOf p block).length < 16
    let full := 256 ≤ (q.busy.filter fun b => !b.recalled).length ∨
      8 ≤ (q.busy.filter fun b => dirSet b.block == dirSet block).length
    block = blockOf (h.readX a).toNat ∧
    (∀ tag, h.ctxOfHandler.replies < 32 → agentNo y / 2 ^ 14 < 3 →
      ∃ u, exec (.htag a b tag) s = .next u ∧
        u.net = s.net ++ [.tagChange p (agentNo y) block tag.toNat (q.busyOf block).isSome m.region s.time] ∧
        (u.ppOf p).busyOf block = (q.busyOf block).map fun k => { k with count := k.count + 1, any := true }) ∧
    exec (.htagrd d a) s = .next (s.withCur ((h.setX d (BitVec.ofNat 64 (s.summary p block +
      (if (s.homeOf p block).entry ≠ 0 then 4 else 0)))).advance 4)) ∧
    exec (.hdirrd d a) s = .next (s.withCur ((h.setX d (s.homeOf p block).entry).advance 4)) ∧
    (∀ o, (o = true → y = 0) →
      (fits → ∃ u, exec (.hdirwr d a b o) s = .next u ∧ u.cur = (h.setX d 0).advance 4 ∧
        u.homeOf p block = ⟨block, if o then 3 else 0, y, m.ctx, m.proto, m.arg, p, (s.homeOf p block).written⟩) ∧
      (¬ fits → s.entryWaits p block = false → ∃ u, exec (.hdirwr d a b o) s = .next u ∧ u.cur = (h.setX d 1).advance 4 ∧
        u.homeOf p block = ⟨block, if o then 3 else 0, y, m.ctx, m.proto, m.arg, p, (s.homeOf p block).written⟩) ∧
      (¬ fits → s.entryWaits p block = true → exec (.hdirwr d a b o) s = .next (s.waitFor .again))) ∧
    ((q.busyOf block).isSome → exec (.hbusy d a) s = .next (s.withCur ((h.setX d 2).advance 4))) ∧
    ((q.busyOf block).isNone → full → exec (.hbusy d a) s = .next (s.withCur ((h.setX d 1).advance 4))) ∧
    ((q.busyOf block).isNone → ¬ full → ∃ u, exec (.hbusy d a) s = .next u ∧ gives u 0 ∧
      (u.ppOf p).busy = q.busy ++ [⟨block, 0, false, [], false, m.ctx, m.proto, m.arg, 0⟩]) ∧
    (∀ k, q.busyOf block = .some k → ∃ u, exec (.hfree a) s = .next u ∧ (u.ppOf p).busyOf block = .none ∧
      (u.ppOf p).reqQueue = ((k.list ++ q.retry).map fun n => { n with replayed := true }) ++ q.reqQueue ∧ (u.ppOf p).retry = []) ∧
    (a.getLsbD 0 = false → y.toNat % 32 = 0 → y.toNat ≤ 65536 → ∀ dl da sl sa,
      s.moveEnd (h.readX a) y.toNat = .ok (dl, da) → s.moveEnd (h.readX (regPlus a 1)) y.toNat = .ok (sl, sa) →
      (q.move = .none → ∃ u, exec (.hblk d a b) s = .next u ∧ u.cur = (h.setX d 0).advance 4 ∧
        (u.ppOf p).move = .some ⟨sa, da, sl, dl, y.toNat, y.toNat, m.block, m.ctx, m.proto, m.arg⟩) ∧
      (q.move ≠ .none → exec (.hblk d a b) s = .next (s.withCur ((h.setX d 1).advance 4)))) ∧
    (let k := h.ctxOfHandler
     let gone := { h.settle with life := .vacant, handler := .none }
     (k.ownBusy = false ∨ k.counted = true ∨ k.freed = true →
       exec .hend s = .next (s.withCur gone) ∧
       ∃ u, exec .hdefer s = .next u ∧ u.cur = gone ∧
         ((q.busyOf m.block).isSome = false → (u.ppOf p).retry = q.retry ++ [m]) ∧
         (∀ k, q.busyOf m.block = .some k → (u.ppOf p).busyOf m.block = .some { k with list := k.list ++ [m] })) ∧
     (k.ownBusy = true → k.counted = false → k.freed = false →
       exec .hend s = .next (s.handlerFault 5) ∧ exec .hdefer s = .next (s.handlerFault 5))) ∧
    exec (.hfault a) s = .next (({ s with cur := { h.settle with life := .vacant, handler := .none } } : State).refuseMsg p m
      ((h.readX a).toNat % 256))

/-- Handler instructions that send, and the handler's own loads, stores and atomics: a request enters the forward queue of the PP on
the way to the home, or of the PP named, waits while it is full or a write-back of the proxy's die is open, and for a peer's home leaves
the package; a reply grants or releases, or is a message to a PP; the handler's
data memory and physical memory are read and written at once (R282, R293, R294, R296, R298, R299). -/
def Obligations.HandlerSends : Prop :=
  ∀ (s : State) (d a b : Reg), s.cur.FullX [d, a, b, regPlus b 1] →
    let h := s.cur
    let p := s.curPp
    let k := h.ctxOfHandler
    let m := s.handlerMsg
    let x := h.readX a
    let w := h.readX b
    let payload := h.readX (regPlus b 1)
    (s.mayIssue .handler = .ok () →
      (∀ pp dest, k.lane = 0 → k.sentReq = false → (w.toNat ≤ 2 ∨ 16 ≤ w.toNat ∧ w.toNat ≤ 63) →
        (if pp then agentAt p (agentNo x) = .pp dest else isRemote s.pkg x.toNat = false ∧ homePp x.toNat = dest) →
        (let held := k.msg.proxy && decide (w.toNat ≤ 2) && s.rdcWriteBack (p / 37) dest (if pp then k.msg.block else blockOf x.toNat)
         ((s.ppOf dest).fwdQueue.length < 64 → held = false →
          ∃ u n, exec (.hsendReq a b pp) s = .next u ∧ (u.ppOf dest).fwdQueue = enterQueue (s.ppOf dest).fwdQueue n ∧
            n.type = w.toNat ∧ n.payload = payload ∧ n.block = (if pp then k.msg.block else blockOf x.toNat) ∧
            n.sender = .some p ∧ n.ctx = k.msg.ctx ∧ n.proto = k.msg.proto ∧ u.cur.ctxOfHandler.sentReq = h.handler.isSome) ∧
         (64 ≤ (s.ppOf dest).fwdQueue.length ∨ held = true → exec (.hsendReq a b pp) s = .next (s.waitFor .again)))) ∧
      (k.lane = 0 → k.sentReq = false → (w.toNat ≤ 2 ∨ 16 ≤ w.toNat ∧ w.toNat ≤ 63) → isRemote s.pkg x.toNat = true →
        exec (.hsendReq a b false) s = .next (s.withCur ((h.setHandler fun k => { k with sentReq := true }).advance 4))) ∧
      (replyReserved w = false → replyTag w ≠ 3 → k.replies < 32 →
        let t := { s with cur := h.setHandler fun k => { k with replies := k.replies + 1 } }
        (replyType w = 0 → (∀ q, agentAt p (agentNo x) ≠ .pp q) →
          (replyTag w ≠ 0 ∨ w.getLsbD 2 = true → exec (.hsendRep a b) s =
            .next (t.sendGrant p x m.block (replyTag w) (w.getLsbD 2) payload m.ctx).step4) ∧
          (replyTag w = 0 → w.getLsbD 2 = false → exec (.hsendRep a b) s =
            .next ({ t with net := t.net ++ [.release p x m.block] } : State).step4)) ∧
        (∀ q, 16 ≤ replyType w → agentAt p (agentNo x) = .pp q →
          ∃ u n, exec (.hsendRep a b) s = .next u ∧ u.net = s.net ++ [.message (Agent.pp p).code q n] ∧
            n.type = replyType w ∧ n.payload = payload ∧ n.block = m.block ∧ n.reply = true ∧ n.ack = w.getLsbD 3)) ∧
      exec (.hresume a) s = .next { s with net := s.net ++ [.resume p x m.block], cur := h.advance 4 }) ∧
    (s.mayIssue .both = .ok () → h.who.isPp = true → ∀ imm n va,
      let data := fun (u : State) => if n then (u.ppOf p).dmem else u.mem
      let off := imm.signExtend 64
      (∀ e ∈ [(Instr.ldB d a imm, 1, true), (.ldH d a imm, 2, true), (.ldW d a imm, 4, true), (.ldD d a imm, 8, true),
          (.ldBz d a imm, 1, false), (.ldHz d a imm, 2, false), (.ldWz d a imm, 4, false)],
        handlerAddress (s.ppOf p) m (x + off).toNat e.2.1 = .ok (n, va) →
        (n = true ∨ s.poisoned va = false) →
        exec e.1 s = .next (s.withCur ((h.setX d (extend e.2.2 e.2.1 (readBytes (data s) va e.2.1))).advance 4))) ∧
      (∀ e ∈ [(Instr.stB b a imm, 1), (.stH b a imm, 2), (.stW b a imm, 4), (.stD b a imm, 8)],
        handlerAddress (s.ppOf p) m (x + off).toNat e.2 = .ok (n, va) →
        ∃ u, exec e.1 s = .next u ∧ u.cur = h.advance 4 ∧ readBytes (data u) va e.2 = w.toNat % 256 ^ e.2 ∧
          (n = true → u.mem = s.mem) ∧ (n = false → u.pps = s.pps)) ∧
      (∀ ord scope, ∀ e ∈ [(Instr.amoaddW d b a ord scope, 0, 4), (.amoandW d b a ord scope, 1, 4), (.amoorW d b a ord scope, 2, 4),
          (.amoxorW d b a ord scope, 3, 4), (.amominW d b a ord scope, 4, 4), (.amomaxW d b a ord scope, 5, 4),
          (.amominuW d b a ord scope, 6, 4), (.amomaxuW d b a ord scope, 7, 4), (.amoswapW d b a ord scope, 8, 4),
          (.amocasW d b a ord scope, 9, 4), (.amoaddD d b a ord scope, 0, 8), (.amoandD d b a ord scope, 1, 8),
          (.amoorD d b a ord scope, 2, 8), (.amoxorD d b a ord scope, 3, 8), (.amominD d b a ord scope, 4, 8),
          (.amomaxD d b a ord scope, 5, 8), (.amominuD d b a ord scope, 6, 8), (.amomaxuD d b a ord scope, 7, 8),
          (.amoswapD d b a ord scope, 8, 8), (.amocasD d b a ord scope, 9, 8)],
        handlerAddress (s.ppOf p) m x.toNat e.2.2 = .ok (true, va) →
        let old := readBytes (s.ppOf p).dmem va e.2.2
        let new := amoNew e.2.1 e.2.2 old (w.toNat % 2 ^ (8 * e.2.2)) ((h.readX d).toNat % 2 ^ (8 * e.2.2))
        ∃ u, exec e.1 s = .next u ∧ u.cur = (h.setX d (extend true e.2.2 old)).advance 4 ∧ u.mem = s.mem ∧
          (∀ v, new = .some v → readBytes (u.ppOf p).dmem va e.2.2 = v % 256 ^ e.2.2) ∧ (new = .none → u.pps = s.pps)))

/-- Once the messages that have reached a PP are in its queues, a free handler thread takes the next message that may be dispatched, of
the type its event names, and starts its handler with the message in x3 to x8; a write-back so taken lets the core's hints for its block
go; a read of a block left open is granted at once; requests
for a busy block wait on its list, behind those replayed; a finished transfer sends its length; the watchdog ends a handler after 256 steps (R278, R285, R286,
R292, R295, R301). The library's proxy role and protocols 1 to 5 act in one step of the model's (log 12). -/
def Obligations.HandlerEvents : Prop :=
  (∀ (r : State) (p tid : Nat),
    let s := r.collect p
    let w := Who.pp p tid
    let coded := fun (proto : Nat) => isLibrary proto = false ∨ proto = 0 ∧ isProxy p = false
    let started := fun (u : State) (m : PpMsg) (lane pc : Nat) =>
      let h := u.hartOf w
      h.life = .live ∧ h.pc = BitVec.ofNat 64 pc ∧ h.handler = .some ⟨m, lane, 0, false, false, false, false, 0⟩ ∧
        h.readX 3 = BitVec.ofNat 64 m.block ∧ h.readX 4 = m.agent ∧ h.readX 5 = m.info lane ∧
        h.readX 6 = (if m.type = 7 then m.removed else (s.homeOf p m.block).entry) ∧
        h.readX 7 = BitVec.ofNat 64 (s.summary p m.block) ∧
        h.readX 8 = (if m.type = 9 ∨ 16 ≤ m.type ∨ m.type = 6 ∨ m.type = 10 ∨ m.sender.isSome = true then m.payload else 0) ∧
        h.readX 28 = BitVec.ofNat 64 (2 ^ 63)
    s.threadFree p tid = true → (s.hartOf w).who = w →
    (∀ lane i m, s.nextMessage p tid = .some (lane, i, m) →
      ∀ e ∈ [(Instr.handlerRd p tid, m.type == 0), (.handlerWr p tid, m.type == 1), (.handlerAmo p tid, m.type == 2),
        (.handlerWb p tid, m.type == 3), (.handlerEvs p tid, m.type == 4), (.handlerHint p tid, m.type == 5),
        (.handlerRecall p tid, m.type == 7), (.handlerProxyTag p tid, m.type == 8), (.handlerGrant p tid, m.type == 9),
        (.handlerBlkdone p tid, m.type == 10), (.handlerProtocolMsg p tid, decide (16 ≤ m.type))],
      let taken := (s.countDispatch p m).withPp p fun q => q.takeMessage lane i
      let m' := { m with proxy := isProxy p }
      let openRead := m.lane ≠ 2 ∧ m.type = 0 ∧ s.summary p m.block = 3
      (e.2 = false → exec e.1 r = .next s) ∧
      (e.2 = true → openRead → exec e.1 r = .next ((taken.sendGrant p m.agent m.block 1 false 0 m.ctx).releaseHints p m)) ∧
      (e.2 = true → ¬ openRead → coded m.proto → (s.ppOf p).faulted m = false →
        (∀ pc, (s.ppOf p).entryFor m = .some pc → ∃ u, exec e.1 r = .next (u.releaseHints p m) ∧ u.pps = taken.pps ∧ started u m' m.lane pc) ∧
        ((s.ppOf p).entryFor m = .none → m.lane ≠ 2 → exec e.1 r = .next ((taken.refuseMsg p m' 0xfe).releaseHints p m))) ∧
      (e.2 = true → ¬ openRead → isLibrary m.proto = true → isProxy p = true → exec e.1 r = .next ((taken.proxyHandle p m').releaseHints p m)) ∧
      (e.2 = true → ¬ openRead → isLibrary m.proto = true → m.proto ≠ 0 → isProxy p = false →
        exec e.1 r = .next ((taken.libraryHandle p m').releaseHints p m))) ∧
    (∀ b pc, (s.ppOf p).busy.find? (fun b => b.any && b.count == 0 && !s.handlerRuns p b.block) = .some b →
      let m := { plainMsg 6 b.block 0 { plainRegion b.ctx b.block with proto := b.proto, arg := b.arg } with
        reply := true, payload := BitVec.ofNat 64 b.acks, proxy := isProxy p }
      coded b.proto → (s.ppOf p).faulted m = false → (s.ppOf p).entryFor m = .some pc →
      ∃ u, exec (.handlerDone p tid) r = .next u ∧ started u m 2 pc)) ∧
  (∀ (s : State) (p tid : Nat),
    (∀ i m b, let q := s.ppOf p
      let busy := fun (m : PpMsg) => (q.busyOf m.block).isSome && !m.reply && s.deferRoom p && !q.behindReplay m
      q.fwdQueue.findIdx? busy = .none → q.reqQueue.findIdx? busy = .some i →
      q.reqQueue[i]? = .some m → q.busyOf m.block = .some b →
      ∃ u, exec (.requestDeferred p) s = .next u ∧ (u.ppOf p).reqQueue = q.reqQueue.eraseIdx i ∧
        (u.ppOf p).busyOf m.block = .some { b with list := b.list ++ [m] }) ∧
    (∀ m, (s.ppOf p).move = .some m → m.dstLocal = true → m.srcLocal = false → (∀ i < m.total / 32, s.poisoned (m.src + 32 * i) = false) →
      ∃ u n, exec (.hblkComplete p) s = .next u ∧ (u.ppOf p).move = .none ∧
        readBytes (u.ppOf p).dmem m.dst m.total = readBytes s.mem m.src m.total ∧ u.mem = s.mem ∧
        (u.ppOf p).repQueue = enterQueue (s.ppOf p).repQueue n ∧ n.type = 10 ∧ n.payload = BitVec.ofNat 64 m.total) ∧
    ((s.hartOf (.pp p tid)).life = .live → 256 ≤ (s.hartOf (.pp p tid)).ctxOfHandler.steps →
      exec (.handlerWatchdog p tid) s = .next ((s.focus (.pp p tid)).handlerFault 1)))

/-! ## What arrives at caches and cores (R144, R149, R150, R166, R184, R289, R294, R296, R302, R308) -/

/-- A tag change lowers the line and returns its dirty data; an acknowledgement counts; a grant installs the line it brings, raises the
tag of the line that is there, or gives a waiting atomic the value found at the home; a release or a resume ends the request it names
and a refusal goes to its requester; for a peer that has not answered, or cannot be reached, the port acknowledges; the outcome of a
waited atomic fills its register; a merge window closes after 8 cycles, and its burst brings its sectors, but for a way that is
disabled (R149, R184, R289, R294, R296,
R302, R308). -/
def Obligations.CacheEvents : Prop :=
  (∀ (s s1 : State) (k : Nat) (m : NetMsg), s.takeNet k = .some (m, s1) →
    (∀ p a block tag counted r t c l, m = .tagChange p a block tag counted r t → agentAt p a = .core c →
      (s.coreOf c).line? block = .some l →
      let back := if l.dirty = true ∧ tag < 2 then .some l.data else .none
      ∃ u, exec (.tagChange k) s = .next u ∧ u.net = s1.net ++ [.tagAck p a block counted back s.time] ∧
        (tag = 0 → (u.coreOf c).line? block = .none) ∧
        (tag ≠ 0 → (u.coreOf c).line? block = .some { l with
          tag := lowerTag l.tag tag, dirty := l.dirty && (back : Option (BitVec 256)).isNone })) ∧
    (∀ p a block data at', m = .tagAck p a block true data at' →
      ∃ u, exec (.tagAck k) s = .next u ∧
        (u.ppOf p).busyOf block = ((s.ppOf p).busyOf block).map (fun b => { b with count := b.count - 1, acks := b.acks + 1 }) ∧
        (data = .none → u.mem = s.mem)) ∧
    (∀ p a block tag home data payload c, m = .grant p a block tag home data payload →
      agentAt p (agentNo a) = .core c →
      let alone := fun (q : Request) => tag ≠ 2 ∨ ((∀ e ∈ (s.coreOf c).stores, blockOf e.acc.pa ≠ q.block) ∧
        ∀ b ∈ (s.coreOf c).atomics, b.req ≠ .some q.rtag)
      (∀ q, (s.coreOf c).request? (rtagOf a) = .some q →
        ∃ u, exec (.grantReceive k) s = .next u ∧ (u.coreOf c).request? (rtagOf a) = .none ∧
          (home = true → (∀ b ∈ (s.coreOf c).atomics, b.req = .some (rtagOf a) → s.poisoned b.acc.pa = false) →
            ∀ b ∈ (s.coreOf c).atomics, b.req = .some (rtagOf a) → { b with req := .none, result := .some (blockBytes data (b.acc.pa % 32) b.acc.size) } ∈ (u.coreOf c).atomics) ∧
          (home = false → alone q → (s.coreOf c).line? q.block = .none → (s.coreOf c).onlyNt q.block = false →
            (u.coreOf c).line? q.block =
              .some { block := q.block, tag := tag, dirty := false, data := data, region := q.region }) ∧
          (home = false → alone q → ∀ l, (s.coreOf c).line? q.block = .some l →
            (u.coreOf c).line? q.block = .some { l with tag := max tag (l.tag % 3), region := q.region })) ∧
      ((s.coreOf c).request? (rtagOf a) = .none →
        ∃ u, exec (.grantReceive k) s = .next u ∧ (u.coreOf c).l1 = (s.coreOf c).l1 ∧ u.mem = s.mem ∧
          (u.coreOf c).engine = (s.coreOf c).engine.map fun e => if e.rtag = rtagOf a then { e with granted := true } else e)) ∧
    (∀ p a block c q, agentAt p (agentNo a) = .core c → (s.coreOf c).request? (rtagOf a) = .some q → q.retry = .none →
      ∀ j ∈ [(Instr.releaseNotice k, NetMsg.release p a block), (.resumeReceive k, .resume p a block)], m = j.2 →
        ∃ u, exec j.1 s = .next u ∧ (u.coreOf c).request? (rtagOf a) = .none ∧ u.mem = s.mem ∧ u.cur = s.cur ∧
          ∀ e ∈ (u.coreOf c).stores, e.req ≠ .some (rtagOf a)) ∧
    (∀ p a block code ctx c, m = .refuse p a block code ctx → agentAt p (agentNo a) = .core c →
      exec (.accessRefused k) s = .next (s1.refuseCore c (rtagOf a) code ctx)) ∧
    (∀ p q block code, m = .refusePp p q block code →
      exec (.accessRefused k) s = .next (s1.refuseAtPp q block code))) ∧
  (∀ (s : State) (k p a block pkg tag t : Nat) (counted : Bool) (r : Region),
    s.net[k]? = .some (.tagChange p a block tag counted r t) → agentAt p a = .peer pkg →
    let there := s.reachable pkg (block.testBit 8)
    let s1 : State := { s with net := s.net.eraseIdx k }
    (there = true → s.time < t + 2 ^ 20 → exec (.peerAckSubstitute k) s = .next s) ∧
    (there = false ∨ t + 2 ^ 20 ≤ s.time →
      (counted = false ∨ (s.ppOf p).busyOf block = .none → exec (.peerAckSubstitute k) s = .next s1) ∧
      (counted = true → ((s.ppOf p).busyOf block).isSome = true → exec (.peerAckSubstitute k) s =
        .next ((s1.withPp p fun q => q.countAck block).postError r.ctx
          ⟨BitVec.ofNat 64 block, BitVec.ofNat 64 (pkg * 2 ^ 16), 11, (if there then 3 else 1) * 16⟩)))) ∧
  (∀ (s : State) (c slot old : Nat) (a : PendingAtomic), (s.coreOf c).atomics.find? (fun a => a.slot == slot) = .some a →
    a.result = .some old →
    exec (.atomicResult c slot) s = .next ((s.withCore c fun q =>
      { q with atomics := q.atomics.filter fun b => b.slot != slot }).land (.core c slot) 4 a.dest fun h =>
        h.fillDest a.dest true a.acc.size old)) ∧
  (∀ (s : State) (k : Nat) (w : MergeWindow), s.windows[k]? = .some w →
    (w.inFlight = false → s.nCycles (w.holder / 2) < w.openedAt + 8 → exec (.mergeWindowClose k) s = .next s) ∧
    (w.inFlight = false → w.openedAt + 8 ≤ s.nCycles (w.holder / 2) → ∃ u, exec (.mergeWindowClose k) s = .next u ∧
      u.windows[k]? = .some { w with inFlight := true }) ∧
    (w.inFlight = true → ∃ u, exec (.mergeWindowClose k) s = .next u ∧ u.windows = s.windows.eraseIdx k ∧
      (s.wayOff w.holder w.line = false → ∃ l ∈ u.lines, l.holder = w.holder ∧ l.line = w.line ∧ l.sectors ||| w.sectors = l.sectors)))

/-- Remote accesses and walks: an outcome ends its operation: it fills a waited atomic, takes a store out of its buffer and answers an
engine; one that has no route fails with reason 1, and a time-out with reason 3 after 2^20 units of time; a walk that meets a fault leaves it to its threads, and one that finds a leaf with the right
marks it accessed and wakes them (R144, R145, R166, R359). -/
def Obligations.RemoteEvents : Prop :=
  (∀ (s : State) (c k t : Nat) (op : RemoteOp), (s.remoteOps c)[k]? = .some (op, t) →
    let pa := (s.coreOf c).remotePa op
    let port := s.portFrom c pa
    (∀ r, (s.canReach c pa = true → s.unsent port t = false → exec (.remoteOutcome c k r) s = .next ((s.flitPasses port).remoteArrives c op (.some r))) ∧
      (s.canReach c pa = false → exec (.remoteOutcome c k r) s = .next (s.remoteArrives c op (.some .unreachable)))) ∧
    (∀ v e a, s.canReach c pa = true → s.unsent port t = false → (s.partOfCore c).all (fun p => p.state != .saving) = true →
      let t1 := s.flitPasses port
      (∀ i, op = .store i → (s.coreOf c).stores[i]? = .some e → exec (.remoteOutcome c k (.done v)) s = .next (t1.leaveBuffer c i e)) ∧
      (∀ i, op = .atomic i → (s.coreOf c).atomics[i]? = .some a →
        exec (.remoteOutcome c k (.done v)) s = .next (t1.endAtomic c a (v.toNat % 2 ^ (8 * a.acc.size)))) ∧
      (∀ g, op = .engine g → exec (.remoteOutcome c k (.done v)) s =
        .next (t1.withCore c fun q => q.answerEngine g fun e => { e with granted := true, value := v.toNat }))) ∧
    (s.canReach c pa = false → exec (.remoteTimeOut c k) s = .next (s.remoteArrives c op (.some .unreachable))) ∧
    (s.canReach c pa = true → s.suspended port = false → t + 2 ^ 20 ≤ s.time → exec (.remoteTimeOut c k) s = .next (s.remoteArrives c op .none)) ∧
    (s.canReach c pa = true → s.suspended port = true ∨ s.time < t + 2 ^ 20 → exec (.remoteTimeOut c k) s = .next s) ∧
    (∀ i l e, op = .load i → (s.coreOf c).loads[i]? = .some l → l.elems.find? s.awayElem = .some e → s.partOfCore c = .none →
      s.remoteArrives c op .none = ((s.withCore c fun q => { q with
        loads := q.loads.eraseIdx i, requests := q.requests.filter fun r => r.block != blockOf e.1.pa }).postError 0
        ⟨BitVec.ofNat 64 e.1.va, BitVec.ofNat 64 (peerPkg e.1.pa * 2 ^ 16), 1, logSize e.1.size + 3 * 16⟩).trapThread
          (.core c l.slot) { cause := .remoteAccess, tval := BitVec.ofNat 64 e.1.va })) ∧
  (∀ (s : State) (k : Nat) (w : Walk) (ctx : Ctx) (va : Nat) (r : Right), s.walks[k]? = .some w → s.ctxOf? w.ctx = .some ctx →
    s.walkRuns k w = true → s.walkPoisoned ctx w.va = false → s.harts = [] → s.walkOf w s.cur = .some (va, r) →
    let walk := walkTables (fun a => s.coherentRead a 8) ctx.root.toNat w.va
    (∀ f, walk = .error f → va / 2 ^ 16 = w.va / 2 ^ 16 →
      ∃ u, exec (.pageWalk k) s = .next u ∧ u.walks = s.walks.eraseIdx k ∧
        u.cur = { s.cur with wait := .none, walkFault := .some (va, r, f) }) ∧
    (∀ l, walk = .ok l → (let lg := if l.large then 29 else 16; va / 2 ^ lg = w.va / 2 ^ lg) →
      rightsCover l.entry r s.cur.user = true →
      ∃ u, exec (.pageWalk k) s = .next u ∧ u.walks = s.walks.eraseIdx k ∧ u.cur = { s.cur with wait := .none } ∧
        u.mem = writeBytes s.mem l.at' 8 (l.entry ||| 64 ||| (if r = .write then 128 else 0)) ∧
        ∃ e ∈ u.tlb, e.level = 0 ∧ e.unit = s.cur.who.core' ∧ e.covers w.ctx va = true))

/-! ## Contexts (R322 to R332) -/

/-- At S, `ctxstat` reads a context of the tenant, `gswitch` records a request and answers the earliest time, and `ctxsave` and
`ctxload` refuse with their status what R326 and R331 refuse, which is recorded for a context that the thread may name, begin once all
is still, and end with the status of the image. -/
def Obligations.ContextResults : Prop :=
  ∀ (s : State) (d a b : Reg), s.mayIssue .coreOnly = .ok () → s.cur.user = false → s.cur.FullX [d, a, b, regPlus b 1] →
    let h := s.cur
    let x := h.readX a
    let y := h.readX b
    let image := h.readX (regPlus b 1)
    let via := (s.ownCtx.map (·.num)).getD 0
    let gives := fun (i : Instr) (v : Word) => exec i s = .next (s.withCur ((h.setX d v).advance 4))
    (∀ r, s.ctxOf? x.toNat = r →
      gives (.ctxstat d a) (match r with
        | .none => 0
        | .some c => if s.mayName c then s.ctxWord c else 0)) ∧
    (let num := if x = 0 then via else x.toNat
     match s.ctxOf? num with
     | .none => gives (.gswitch d a b) (BitVec.ofInt 64 (-2))
     | .some c =>
      (s.mayName c = false → gives (.gswitch d a b) (BitVec.ofInt 64 (-1))) ∧
      (s.mayName c = true → c.resident = false → gives (.gswitch d a b) (BitVec.ofInt 64 (-2))) ∧
      (s.mayName c = true → c.resident = true → s.badImage s.ownCtx image = true →
        gives (.gswitch d a b) (BitVec.ofInt 64 (-3))) ∧
      (s.mayName c = true → c.resident = true → s.badImage s.ownCtx image = false →
        let t := max y.toNat (s.time + s.switchLead (coreDie h.who.core'))
        exec (.gswitch d a b) s = .next { s with
          switches := s.switches ++ [⟨num, t, image, via⟩]
          cur := (h.setX d (BitVec.ofNat 64 ((s.switchTimes num).foldl min t))).advance 4 })) ∧
    (match s.ctxOf? x.toNat with
     | .none => gives (.ctxsave d a b) 1 ∧ gives (.ctxload d a b) 1
     | .some c =>
      (c.leaving = true → gives (.ctxsave d a b) 1 ∧ gives (.ctxload d a b) 1) ∧
      (c.leaving = false →
      (y.toNat % 4096 ≠ 0 → exec (.ctxsave d a b) s = .next (s.ctxRefuse d c 1) ∧ exec (.ctxload d a b) s = .next (s.ctxRefuse d c 1)) ∧
      (y.toNat % 4096 = 0 → s.mayName c = false → gives (.ctxsave d a b) 2 ∧ gives (.ctxload d a b) 2) ∧
      (y.toNat % 4096 = 0 → s.mayName c = true →
        (c.state ≠ .saved → exec (.ctxload d a b) s = .next (s.ctxRefuse d c 3)) ∧
        (c.state ≠ .stop ∨ s.partOfCtx c.num = .none → exec (.ctxsave d a b) s = .next (s.ctxRefuse d c 3)) ∧
        (∀ p, s.partOfCtx c.num = .some p → c.state = .stop → s.still p = false →
          exec (.ctxsave d a b) s = .next (s.waitFor (.room (.image c.num)))) ∧
        (∀ p, s.partOfCtx c.num = .some p → c.state = .stop → s.still p = true →
          (c.op = .none → exec (.ctxsave d a b) s = .next (match s.beginSave c p 0 (.some h.who) y via with
            | .none => (s.ctxDone c.num 8).withCur ((h.setX d 8).advance 4)
            | .some t => t.waitFor (.room (.image c.num)))) ∧
          (∀ o, c.op = .some o → s.opMine o 0 y = true → o.paused = false →
            exec (.ctxsave d a b) s = .next ((s.endSave c p o).1.result4 d (s.endSave c p o).2))) ∧
        (c.state = .saved →
          let r := s.checkHeader c (fun s va => s.imagePage via va .read) y.toNat
          (r.2.1 ≠ 0 → exec (.ctxload d a b) s = .next (r.1.endLoad d c.num y r.2.1 .none via)) ∧
          (r.2.1 = 0 → c.op = .none → exec (.ctxload d a b) s = .next ((r.1.withCtx c.num fun k =>
            { k with op := .some ⟨1, .some h.who, y, via, 0, 0, 0, s.switchedOut via⟩ }).waitFor (.room (.image c.num)))) ∧
          (∀ o, c.op = .some o → s.opMine o 1 y = true → o.paused = false →
            let g := checkGranules (fun s va => s.imagePage via va .read) y.toNat (r.1.imageFor c r.2.2) (le r.2.2 32 8) 0
              (le r.2.2 32 8) r.1
            exec (.ctxload d a b) s = .next (if r.2.1 ≠ 0 then r.1.endLoad d c.num y r.2.1 .none via
              else g.1.endLoad d c.num y g.2 (r.1.imageFor c r.2.2) via))))))

/-- The events of a gang switch: a request reaches the root, which keeps the earlier time; at it the partition stops and its
context is saving; the engine begins the image when everything outstanding has ended, and with it written the context is saved and
its cores are free, and with a launch that was cancelled meanwhile it ends; an image that fails leaves the partition resident and stopped; a restored context runs again. A guest's operations pause and go on with its function (R322, R323, R332). -/
def Obligations.ContextEvents : Prop :=
  ∀ (s : State) (n : CtxNo) (c : Ctx) (p : Partition), s.ctxOf? n = .some c → s.partOfCtx n = .some p →
    (∀ k q, s.switches[k]? = .some q → q.ctx = n → p.state = .running → ∃ u r, exec (.gangSwitchAgreement k) s = .next u ∧
      u.switches = s.switches.eraseIdx k ∧ u.ctxOf? n = .some { c with state := .agreed, plan := .some r } ∧
      r.time = (match c.plan with
        | .none => q.time
        | .some o => min o.time q.time)) ∧
    (∀ q, c.plan = .some q → q.time ≤ s.time → p.state = .running → ∃ u, exec (.gangSwitchStop n) s = .next u ∧
      (∃ k, u.ctxOf? n = .some k ∧ k.state = .saving ∧ k.outAt = q.time) ∧
      (∀ k ∈ u.parts, k.id = p.id → k.state = .saving)) ∧
    (∀ q, c.plan = .some q → s.time < q.time → exec (.gangSwitchStop n) s = .next s) ∧
    (∀ q, c.plan = .some q → p.state = .saving → s.still p = true →
      let kept := fun (t : State) => (t.withPart p.id fun k => { k with state := .held }).withCtx n fun k =>
        { k with state := .stop, plan := .none }
      (c.op = .none → exec (.contextImageWrite n) s = .next (match s.beginSave c p 2 .none q.image q.via with
        | .some t => t
        | .none => kept (s.ctxDone n 8))) ∧
      (∀ o, c.op = .some o → o.paused = false →
        exec (.contextImageWrite n) s = .next (if (s.endSave c p o).2 = 0 then
          ((((s.endSave c p o).1.clearPart p).withCtx n fun k => { k with state := .saved, plan := .none, absorbed := [] }).discardCancelled
            p.launch)
        else kept (s.endSave c p o).1))) ∧
    (∀ i, c.state = .restoring → p.state = .loading → s.imageOf c = .some i →
      let back := (s.unpack i.payload p).withCtx n fun k =>
        { k with state := .running, op := .none, heldEvents := [], stolen := k.stolen + (s.time - k.outAt) }
      exec (.contextRestore n) s = .next ((i.payload.ctx.absorbed.foldl State.deliverAbsorbed
        (p.cores.foldl State.resend back)).postHeld p c.heldEvents)) ∧
    (∀ vf o, c.op = .some o → s.ctxOf? o.via = .some c → c.vf = .some vf →
      (∃ u o', exec (.guestOpPause vf) s = .next u ∧ u.ctxOf? n = .some { c with op := .some o' } ∧ o'.paused = true ∧
        o'.nonce = o.nonce ∧ o.granule ≤ o'.granule) ∧
      (∃ u, exec (.guestOpContinue vf) s = .next u ∧ u.ctxOf? n = .some { c with op := .some { o with paused := false } }))

/-! ## Launches (R333 to R346) -/

/-- `launch` reads a record and gives its number or its negative status, an accepted one waiting in the distributor's queue;
`lcancel` ends a queued launch of its tenant, stops a running one and waits for its end, and then gives 1, and 3 of one that has ended
otherwise; a round places a footprint that is free; a load makes the launch run, and its end releases
what it held. -/
def Obligations.LaunchResults : Prop :=
  (∀ (s : State) (d a : Reg), s.mayIssue .coreOnly = .ok () → s.cur.FullX [d, a] →
    let h := s.cur
    let x := h.readX a
    let tenant := ((s.ctxOfCore h.who.core').map (·.tenant)).getD 0
    (∀ ts, s.quiet h.who 7 = true →
      let s1 := s.markPerformed h.who 7 s.stamps
      (List.range 8).mapM (fun (i : Nat) => s1.translate (x + BitVec.ofNat 64 (64 * i)) 64 .read) = .ok ts →
      (∀ t ∈ ts, s1.poisoned t.pa = false) →
      let raw := ts.flatMap fun t => (List.range 64).map fun i => s1.deviceByte (t.pa + i)
      let r := s1.submit s1.coreIssuer raw
      exec (.launch d a) s = .next { r.1 with cur := (r.1.cur.setX d r.2).advance 4 } ∧
        (recordFormed raw = false → r.2 = BitVec.allOnes 64)) ∧
    (s.quiet h.who 7 = false → exec (.launch d a) s = .next (s.waitFor (.room (.quiet 7)))) ∧
    ((∀ l, s.launchRec x.toNat = .some l → l.record.tenant ≠ tenant) →
      exec (.lcancel d a) s = .next (s.withCur ((h.setX d 2).advance 4))) ∧
    (∀ l, s.launchRec x.toNat = .some l → l.record.tenant = tenant → l.state = .queued →
      let t := (((s.closeLaunch l.num 2).dequeue (.launch l.num)).dequeue (.resume l.record.ctx)).releaseLaunch l
      exec (.lcancel d a) s = .next { t.withLaunch l.num (fun k => k.answered (.some h.who)) with cur := (t.cur.setX d 0).advance 4 }) ∧
    (∀ l p, s.launchRec x.toNat = .some l → l.record.tenant = tenant → l.state = .running → l.cancelled = false →
      (∀ k, s.ctxOf? l.record.ctx = .some k → k.state ≠ .saved ∧ k.state ≠ .restoring) →
      s.parts.find? (fun p => p.launch == l.num) = .some p → p.state ≠ .saving → p.state ≠ .stopped → p.state ≠ .halting →
      let t := ((s.withLaunch l.num (·.awaited (.some h.who))).withLaunch l.num fun k => { k with cancelled := true }).stopPart p
      exec (.lcancel d a) s = .next (if t.cur.life = .live then t.waitFor (.room (.launch l.num)) else t)) ∧
    (∀ l e, s.launchRec x.toNat = .some l → l.record.tenant = tenant → l.state = .ended e →
      s.parts.find? (fun p => p.launch == l.num) = .none → (∀ k, s.ctxOf? l.record.ctx = .some k → k.state ≠ .saved ∧ k.state ≠ .restoring) →
      exec (.lcancel d a) s = .next ((s.withLaunch l.num (·.answered (.some h.who))).withCur
        ((h.setX d (if e = 2 ∧ h.who ∈ l.cancellers then 1 else 3)).advance 4)))) ∧
  (∀ (s : State) (w : Waiting) (g : Group), s.dist.placing = .none → s.reservedLaunch = .none → s.heads = [w] →
    (s.remaining w [] = .some [g] → exec .distributorRound s =
      .next (({ s with dist := { s.dist with grants := s.dist.grants + 1 } } : State).place w [g])) ∧
    (s.remaining w [] = .none → exec .distributorRound s = .next s)) ∧
  (∀ (s : State) (n : LaunchNo) (l : Launch) (p : Partition), s.launchRec n = .some l →
    (s.parts.find? (fun p => p.launch == n && p.state == .loading) = .some p →
      ((s.ctxOf? l.record.ctx).bind (s.loadParts l p) = .none →
        exec (.launchLoad n) s = .next ((s.closeLaunch n 3).releaseLaunch l)) ∧
      (∀ t, (s.ctxOf? l.record.ctx).bind (s.loadParts l p) = .some t →
        ∃ u, exec (.launchLoad n) s = .next u ∧ (∀ q ∈ u.parts, q.id = p.id → q.state = .running) ∧
          (∀ q ∈ u.dist.launches, q.num = n → q.state = .running) ∧ (∀ k ∈ u.ctxs, k.num = p.ctx → k.state = .running))) ∧
    (s.parts.find? (fun p => p.launch == n) = .some p → l.state = .running →
      (p.state = .running → s.partDone p = true →
        exec (.launchEnd n) s = .next ((s.closeLaunch n 0).releaseLaunch l)) ∧
      (p.state = .stopped → s.enginesStill p = true →
        (l.cancelled = false → l.discarded = false → exec (.launchEnd n) s = .next ((s.endEngines p).closeLaunch n 1)) ∧
        (l.cancelled = true → s.settled p = true →
          exec (.launchEnd n) s = .next (((s.endEngines p).closeLaunch n 2).releaseLaunch l)))))

/-! ## Host queues (R350 to R356) -/

/-- The ops of a queue program: each writes its register or its window, branches, or ends the packet, and counts one step; one
that has to wait leaves the interpreter to the next queue, as does a store to host memory behind a `dma` that writes there (R354 to R356). -/
def Obligations.QueueOps : Prop :=
  ∀ (s : State) (q : HostQueue) (d a n : BitVec 4) (w : BitVec 2) (imm : BitVec 16) (sh : BitVec 6), s.running? = .some q →
    let x := q.r d
    let y := q.r a
    let next := fun (i : Instr) (t : State) (k : HostQueue) (pc : Nat) =>
      exec i s = .next (t.setQueue { k with pc := pc, steps := q.steps + 1 })
    let gives := fun (i : Instr) (v : Word) => next i s (q.set d v) (q.pc + 1)
    let goes := fun (i : Instr) (p : Bool) => next i s q (if p then q.pc + 1 + imm.toNat else q.pc + 1)
    let fails := fun (i : Instr) (code : Nat) => exec i s = .next (s.queueFail q code q.pc)
    let waits := fun (i : Instr) (k : QueueWait) => exec i s = .next (s.setQueue { q with st := 2, wait := k }).leaveQueue
    let off := (y + imm.signExtend 64 * 8).toNat
    gives (.qpLi d imm) (imm.signExtend 64) ∧ gives (.qpLsh d imm) (x <<< 16 ||| imm.setWidth 64) ∧
    gives (.qpAdd d a n) (y + q.r n) ∧ gives (.qpAddi d a imm) (y + imm.signExtend 64) ∧ gives (.qpAnd d a n) (y &&& q.r n) ∧
    gives (.qpShr d a sh) (y >>> sh.toNat) ∧ goes (.qpBeq d a imm) (x == y) ∧ goes (.qpBne d a imm) (x != y) ∧
    next (.qpSetlc imm) s { q with counter := imm.toNat } (q.pc + 1) ∧
    (let k := (q.counter + 2 ^ 64 - 1) % 2 ^ 64
     next (.qpLoop imm) s { q with counter := k } (if k = 0 then q.pc + 1 else q.pc - imm.toNat)) ∧
    next (.qpIrq imm) { s with trust := { s.trust with out := s.trust.out ++ [.interrupt q.fn ((q.vec + imm.toNat) % 64)] } } q
      (q.pc + 1) ∧
    exec .qpDone s = .next (s.queueDone q) ∧ fails (.qpFail imm) imm.toNat ∧
    (if q.dmas = [] then next .qpDwait s q (q.pc + 1) else waits .qpDwait .dma) ∧
    (q.range w off 8 = .none → fails (.qpLd d a w imm) 0xfff1 ∧ fails (.qpSt d a w imm) 0xfff1 ∧ fails (.qpSignal d a w imm) 0xfff1) ∧
    (∀ host va, q.range w off 8 = .some (host, va) →
      (∀ t l, s.queueRead q host va 8 = .some (t, l) → next (.qpLd d a w imm) t (q.set d (leWord l 0)) (q.pc + 1)) ∧
      (s.queueRead q host va 8 = .none → fails (.qpLd d a w imm) 0xfff2) ∧
      ∀ e ∈ [Instr.qpSt d a w imm, .qpSignal d a w imm],
        (let behind := host && q.dmas.any (·.dstHost)
         (behind = true → waits e .posted) ∧ (behind = false →
        (∀ t, s.queueWrite q host va (wordBytes x) = .some t → next e t q (q.pc + 1)) ∧
        (s.queueWrite q host va (wordBytes x) = .none → fails e 0xfff2)))) ∧
    (∀ host va t raw, q.range w y.toNat 512 = .some (host, va) → va % 64 = 0 → s.queueRead q host va 512 = .some (t, raw) →
      next (.qpLaunch d a w) (t.submit (t.queueIssuer q raw) raw).1 (q.set d (t.submit (t.queueIssuer q raw) raw).2) (q.pc + 1)) ∧
    (∀ dh dv sh sv wd, q.range wd y.toNat (q.r (a + 2)).toNat = .some (dh, dv) →
      q.range w (q.r (a + 1)).toNat (q.r (a + 2)).toNat = .some (sh, sv) →
      if q.dmas.length < 64 then
        next (.qpDma a w wd) s { q with dmas := q.dmas ++ [⟨dv, dh, sv, sh, (q.r (a + 2)).toNat, q.pc⟩] } (q.pc + 1)
      else waits (.qpDma a w wd) .room) ∧
    (match s.launchEnded q y.toNat with
     | .none => waits (.qpLwait d a) (.launch d.toNat y.toNat)
     | .some v => gives (.qpLwait d a) (BitVec.ofNat 64 v))

/-- The events of a host queue: the descriptor takes writes while enable is clear; enabling reads and checks the program; a
doorbell stores the tail; an idle interpreter takes the next ready queue and its packet; a disable waits for the boundary; the
257th step fails; a `dma` writes what it reads, to host memory in program order (R350 to R355). -/
def Obligations.QueueEvents : Prop :=
  ∀ (s : State) (fn n : Nat) (q : HostQueue), s.queue? fn n = .some q →
    let sets := fun (i : Instr) (k : HostQueue) => exec i s = .next (s.setQueue k)
    (∀ v, sets (.doorbellWrite fn n v) { q with tail := v.toNat % 2 ^ 16 }) ∧
    (q.enable = true → (∀ off v, exec (.queueDescriptorWrite fn n off v) s = .next s) ∧ exec (.queueReset fn n) s = .next s ∧
      exec (.queueEnable fn n) s = .next s ∧
      (q.active = true → sets (.queueDisable fn n) { q with closing := true }) ∧
      (q.active = false → ∃ u k, exec (.queueDisable fn n) s = .next u ∧ u = s.setQueue k ∧ k.enable = false ∧ k.ring = q.ring)) ∧
    (q.enable = false →
      (∀ v, sets (.queueDescriptorWrite fn n 0 v) { q with ring := v } ∧
        sets (.queueDescriptorWrite fn n 16 v) { q with prog := v }) ∧
      sets (.queueReset fn n) { q with st := 0, head := 0 } ∧
      (let k := { q with enable := true, closing := false, b := Vector.replicate 8 0, active := false, wait := .none }
       (q.formed = false → sets (.queueEnable fn n) { k with st := 4 }) ∧
       (∀ t l, q.formed = true → s.queueRead k (hostBit q.prog) (baseOf q.prog) (4 * q.plen) = .some (t, l) →
        exec (.queueEnable fn n) s = .next (t.setQueue (match firstBad q.win (programOf l) with
          | .some i => { k with st := 4, err := errOf 0 i }
          | .none => { k with st := 0, ops := programOf l }))))) ∧
    (s.host.current = .none → s.nextQueue = .some q →
      let s1 : State := { s with host := { s.host with current := .some q.key, last := q.key } }
      exec .queuePacketStart s = .next (if q.active then s1.setQueue { q with st := 1, wait := .none } else s1.loadPacket q)) ∧
    (q.active = true → 256 ≤ q.steps → q.pc < q.ops.length → s.host.current = .some q.key →
      exec (.packetStepLimit fn n) s = .next (s.queueFail q 0xfff0 q.pc)) ∧
    (∀ k m t l u, q.dmas[k]? = .some m → (m.dstHost = false ∨ ∀ o ∈ q.dmas.take k, o.dstHost = false) → (let e := { q with dmas := q.dmas.eraseIdx k }
      s.queueRead e m.srcHost m.src m.bytes = .some (t, l) → t.queueWrite e m.dstHost m.dst l = .some u →
      exec (.dmaComplete fn n k) s = .next (u.setQueue e)))

/-! ## Functions, sessions and keys (R349 to R351, R367 to R370, R380) -/

/-- A function's interface moves only as its tenant's session says, goes to ERROR on a write that its state forbids, and is unlocked
by a function-level reset; a binding and a time are set where the interface and its contexts allow them (R349 to R351, R380).
Keys of nine IDE streams are programmed by the operator over the physical function and by a tenant over its own. Sessions open for the
operator and for a bound tenant, each with a signature of the device; measurements are signed while the device has signatures; a key is
delivered with the status of the first check that fails; the end of a session takes the tenant's keys and contexts, those with a
partition when that is released (R367 to
R370). -/
def Obligations.TrustEvents : Prop :=
  (∀ (s : State) (vf stream : Nat) (t : TenantNo) (o m : Word) (key : Key256), 1 ≤ vf → vf ≤ 64 →
    let f := s.vfOf vf
    let own := Party.tenant t ∈ s.trust.sessions ∧ f.tenant = .some t
    let guarded := f.tdi = .locked ∨ f.tdi = .run
    let placed := ∃ c ∈ s.ctxs, c.vf = .some vf ∧ (s.partOfCtx c.num).isSome = true
    let stays := fun (i : Instr) => exec i s = .next s
    let becomes := fun (i : Instr) (g : Vf) => ∃ u, exec i s = .next u ∧
      u = { s with trust := { s.trust with vfs := u.trust.vfs } } ∧ u.vfOf vf = g ∧ ∀ n, n ≠ vf → u.vfOf n = s.vfOf n
    let moves := fun (i : Instr) (ok : Prop) (g : Tdi) =>
      (own → ok → becomes i { f with tdi := g }) ∧ (¬ (own ∧ ok) → stays i)
    let rest := f.streams.filter fun e => e.1 != stream
    moves (.tdiConfigLock vf t) (f.tdi = .unlocked) .locked ∧ moves (.tdiRunStart vf t) (f.tdi = .locked) .run ∧
    moves (.tdispStopInterface vf t) True .unlocked ∧
    (¬ guarded → stays (.tdiConfigViolation vf)) ∧
    (guarded → (s.ctxsOfVf vf = [] → becomes (.tdiConfigViolation vf) { f with tdi := .error }) ∧
      ∀ c p, s.ctxsOfVf vf = [c] → s.partOfCtx c.num = .some p → p.state = .running →
        exec (.tdiConfigViolation vf) s = .next ((s.withVf vf fun k => { k with tdi := .error }).stopPart p)) ∧
    (s.ctxsOfVf vf = [] → becomes (.functionLevelReset vf) { f with tdi := .unlocked }) ∧
    (∀ c l, s.ctxsOfVf vf = [c] → s.launchRec c.launch = .some l → c.state ≠ .free → exec (.functionLevelReset vf) s =
      .next (((s.withVf vf fun k => { k with tdi := .unlocked }).withLaunch l.num fun k => { k with discarded := true }).cancelLaunch l
        .none).1) ∧
    (f.tdi = .run → exec (.nonIdeRequest vf) s =
      .next { s with trust := { s.trust with out := s.trust.out ++ [.unsupported vf] } }) ∧
    (f.tdi ≠ .run → stays (.nonIdeRequest vf)) ∧
    (guarded → if f.tenant = .some t then stays (.vfBinding vf t)
      else exec (.vfBinding vf t) s = exec (.tdiConfigViolation vf) s) ∧
    (¬ guarded → ∃ u, exec (.vfBinding vf t) s = .next u ∧ u.vfOf vf = { f with tenant := .some t } ∧
      u.trust.measured = s.trust.measured ++ [.binding vf t] ∧ (∀ n, n ≠ vf → u.vfOf n = s.vfOf n) ∧
      u = { s with trust := { s.trust with vfs := u.trust.vfs, measured := u.trust.measured } }) ∧
    (placed → stays (.vtimeSet vf o m)) ∧ (¬ placed → becomes (.vtimeSet vf o m) { f with offset := o, scale := m }) ∧
    (9 ≤ stream → stays (.ideKmKeyProgram vf stream key t) ∧ stays (.ideKmKeyProgram 0 stream key t)) ∧
    (stream < 9 → Party.operator ∈ s.trust.sessions → (∀ g ∈ s.trust.vfs, ∀ e ∈ g.streams, e.1 ≠ stream) →
      exec (.ideKmKeyProgram 0 stream key t) s = .next { s with trust := { s.trust with
        streams := (s.trust.streams.filter fun e => e.1 != stream) ++ [(stream, key)] } }) ∧
    (stream < 9 → Party.operator ∉ s.trust.sessions → stays (.ideKmKeyProgram 0 stream key t)) ∧
    (stream < 9 → ¬ own → if f.tdi = .locked ∨ f.tdi = .run then
        exec (.ideKmKeyProgram vf stream key t) s = exec (.tdiConfigViolation vf) s
      else stays (.ideKmKeyProgram vf stream key t)) ∧
    (stream < 9 → own → if s.streamTaken vf stream then stays (.ideKmKeyProgram vf stream key t)
      else becomes (.ideKmKeyProgram vf stream key t) { f with streams := rest ++ [(stream, key)] })) ∧
  (∀ (s : State) (p : Party) (index : Nat),
    let t := s.trust
    let emits := fun (i : Instr) (t : Trust) (o : Output) => exec i s = .next { s with trust := { t with out := t.out ++ [o] } }
    let opens := fun (q : Party) =>
      (t.signatures ≠ 0 → exec (.spdmSessionStart q) s =
        .next { s with trust := { t with sessions := t.sessions ++ [q], signatures := t.signatures - 1 } }) ∧
      (t.signatures = 0 → emits (.spdmSessionStart q) t (.unsigned q))
    (p ∈ t.sessions → exec (.spdmSessionStart p) s = .next s) ∧
    (Party.operator ∉ t.sessions → opens .operator) ∧
    (∀ n, Party.tenant n ∉ t.sessions →
      if (∃ v ∈ t.vfs, v.tenant = .some n) ∧ (t.sessions.filter (· != .operator)).length < 64 then opens (.tenant n)
      else exec (.spdmSessionStart (.tenant n)) s = .next s) ∧
    (p ∉ t.sessions → exec (.getMeasurements p index) s = .next s) ∧
    (p ∈ t.sessions → t.signatures = 0 → emits (.getMeasurements p index) t (.measurements p .none [] false)) ∧
    (p ∈ t.sessions → t.signatures ≠ 0 → emits (.getMeasurements p index) { t with signatures := t.signatures - 1 }
      (.measurements p (if index = 1 then s.plant.firmware else .none) (s.measuredFor p index) true))) ∧
  (∀ (s : State) (n : TenantNo) (slot : BitVec 8) (key : Option Key256) (policy : List Byte),
    let t := s.trust
    let taken := ∃ k ∈ t.keys, k.slot = slot.toNat ∧ k.tenant ≠ n
    let answers := fun (keys : List KeySlot) (st : Nat) => exec (.keyDeliver n slot key) s =
      .next { s with trust := { t with keys := keys, out := t.out ++ [.status (.tenant n) st] } }
    (Party.tenant n ∉ t.sessions → ∀ i ∈ [Instr.keyDeliver n slot key, .policyKey n policy, .sessionEnd n], exec i s = .next s) ∧
    (Party.tenant n ∈ t.sessions →
      (taken → answers t.keys 1) ∧ (¬ taken → s.slotInUse slot.toNat = true → answers t.keys 2) ∧
      (¬ taken → s.slotInUse slot.toNat = false →
        (key = .none → answers t.keys 3) ∧
        (∀ k, key = .some k → answers (t.keys.filter (fun e => e.slot != slot.toNat) ++ [⟨slot.toNat, n, k, 0⟩]) 0)) ∧
      exec (.policyKey n policy) s =
        .next { s with trust := { t with policyKeys := t.policyKeys.filter (fun e => e.1 != n) ++ [(n, policy)] } } ∧
      (∃ u, exec (.sessionEnd n) s = .next u ∧ Party.tenant n ∉ u.trust.sessions ∧ (∀ k ∈ u.trust.keys, k.tenant ≠ n) ∧
        (∀ e ∈ u.trust.policyKeys, e.1 ≠ n) ∧ (∀ c ∈ u.ctxs, c.tenant = n → c.leaving = true ∧ (u.partOfCtx c.num).isSome = true)) ∧
      ((∀ c ∈ s.ctxs, c.tenant ≠ n) → exec (.sessionEnd n) s = .next { s with trust := { t with
        sessions := t.sessions.filter (· != .tenant n), keys := t.keys.filter fun k => k.tenant != n
        policyKeys := t.policyKeys.filter fun e => e.1 != n } })))

/-! ## The fabric map and the links (R357 to R364, R382) -/

/-- A map whose extents and minimums are in range, and which leaves a package with a launch that has not ended its number, becomes the package's,
with the links that are down; another changes nothing. A flit sent again, and the key-switch marker, leave under the key in use
with a nonce of the map's identifier and a counter value not used before.
On a link that is up: a weak lane waits for a quiet point, moves to the spare with an empty replay store, halves the rate, or takes the link down; keys are
fetched, loaded into the idle slot and retired; a third failed flit, or 10 ms without a key, takes the link down; markers of a
frozen peer suspend the link's time-outs. A flit that the replay store holds is sent again. On a port that is
down or does not exist nothing happens. -/
def Obligations.LinkEvents : Prop :=
  (∀ (s : State) (m : FabricMap),
    let ok := (s.launched = false ∨ m.self = s.pkg) ∧ (∀ i, i < 4 → 1 ≤ m.extents.getD i 0 ∧ m.extents.getD i 0 ≤ (if i < 2 then 4 else 16)) ∧ m.self < 4096 ∧
      (∀ l ∈ m.limits, l.slots ≤ 32) ∧ (s.residentTenants.map (slotMinimum m)).sum ≤ 512
    (ok → exec (.fabricMapUpdate m) s = .next { s with
      fabric := { s.fabric with map := { m with down := m.down ++ (s.fabric.links.filter (·.down)).map fun l => (m.self, l.port) } }
      pkg := m.self, trust := { s.trust with measured := s.trust.measured ++ [.map m] } }) ∧
    (¬ ok → exec (.fabricMapUpdate m) s = .next s)) ∧
  (∀ (s : State) (p lane count margin seq : Nat) (key : Key256),
    let l := s.linkOf p
    let stays := fun (i : Instr) => exec i s = .next s
    let becomes := fun (i : Instr) (k : Link) => ∃ u, exec i s = .next u ∧
      u = { s with fabric := { s.fabric with links := u.fabric.links } } ∧ u.linkOf p = k ∧ ∀ q, q ≠ p → u.linkOf q = s.linkOf q
    let down := fun (i : Instr) => exec i s = .next (s.linkDown p) ∧ ((∀ k ∈ s.cores, s.remoteOps k.id = []) →
      let u := s.linkDown p
      (u.linkOf p).down = true ∧ u.fabric.map = { s.fabric.map with down := s.fabric.map.down ++ [(s.fabric.map.self, p)] } ∧
      u = { s with fabric := u.fabric } ∧ ∀ q, q ≠ p → u.linkOf q = s.linkOf q)
    let now := s.nCycles (p / 3)
    let empty := Config.replayStore s.turn p = []
    let ops := [Instr.laneWeak p lane count margin, .quietPointTimeout p, .laneSwapMarker p, .rekeyDue p, .linkKeyUpdate p key,
      .linkKeyLoad p, .keySwitchMarker p, .keyExhausted p, .keyDownTimeout p, .flitAuthFail p seq, .replayRequest p seq,
      .freezeMarker p]
    (12 ≤ p ∨ l.down = true → ∀ i ∈ ops, stays i) ∧
    (p < 12 → l.down = false →
      (l.weak = .none → lane < 9 → lane ∉ l.swapped →
        if s.fabric.map.threshold < count ∨ margin < s.fabric.map.floor then
          becomes (.laneWeak p lane count margin) { l with weak := .some lane, weakAt := s.nCycles (p / 3) }
        else stays (.laneWeak p lane count margin)) ∧
      (∀ w, l.weak = .some w → stays (.laneWeak p lane count margin) ∧
        (l.frozenAt = .none → l.weakAt + 2 ^ 16 ≤ now → becomes (.quietPointTimeout p) { l with held := true, heldAt := now }) ∧
        (l.frozenAt.isSome = true ∨ now < l.weakAt + 2 ^ 16 → stays (.quietPointTimeout p)) ∧
        (l.swapped = [] → if empty then becomes (.laneSwapMarker p) { l with swapped := [w], weak := .none, held := false }
          else stays (.laneSwapMarker p)) ∧
        (∀ x, l.swapped = [x] → if empty then
            becomes (.laneSwapMarker p) { l with swapped := [x, w], half := true, weak := .none, held := false }
          else stays (.laneSwapMarker p)) ∧
        (2 ≤ l.swapped.length → if empty then down (.laneSwapMarker p) else stays (.laneSwapMarker p))) ∧
      (l.weak = .none → stays (.laneSwapMarker p) ∧ stays (.quietPointTimeout p)) ∧
      becomes (.rekeyDue p) { l with rekeyDue := true, count := max l.count (2 ^ 36 - 2 ^ 20) } ∧
      becomes (.linkKeyUpdate p key) { l with fetched := .some key } ∧
      (∀ k, l.fetched = .some k → l.slot < 2 → ∃ u, exec (.linkKeyLoad p) s = .next u ∧ (u.linkOf p).slot = 1 - l.slot ∧
        (u.linkOf p).keys[(u.linkOf p).slot]? = .some (.some k) ∧ (u.linkOf p).keys[l.slot]? = l.keys[l.slot]? ∧
        (u.linkOf p).count = 0 ∧ (u.linkOf p).fetched = .none ∧ (u.linkOf p).exhausted = .none ∧
        (l.exhausted = .none → ∃ n, l.count ≤ n ∧ u.trust.out = s.trust.out ++ [.flit p l.slot (s.linkIv p n)])) ∧
      (l.fetched = .none → becomes (.linkKeyLoad p) l) ∧
      becomes (.keySwitchMarker p) { l with retired := .some l.rxSlot, rxSlot := 1 - l.rxSlot } ∧
      becomes (.keyExhausted p) { l with count := 2 ^ 36, exhausted := .some (l.exhausted.getD s.time) } ∧
      (∀ t, l.exhausted = .some t →
        (l.frozenAt = .none → t + 10 ^ 7 ≤ s.time → down (.keyDownTimeout p)) ∧
        (l.frozenAt.isSome = true ∨ s.time < t + 10 ^ 7 → stays (.keyDownTimeout p))) ∧
      (l.exhausted = .none → stays (.keyDownTimeout p)) ∧
      (l.fails < 2 → becomes (.flitAuthFail p seq) { l with fails := l.fails + 1, asked := .some seq }) ∧
      (2 ≤ l.fails → down (.flitAuthFail p seq)) ∧
      (seq < 2 ^ 64 →
        (l.exhausted.isSome = true → stays (.replayRequest p seq)) ∧
        (l.exhausted = .none → if seq ∈ Config.replayStore s.turn p then ∃ u n, exec (.replayRequest p seq) s = .next u ∧ l.count ≤ n ∧
          u.linkOf p = { l with count := n + 1 } ∧ u.trust.out = s.trust.out ++ [.flit p l.slot (s.linkIv p n)] ∧
          ∀ q, q ≠ p → u.linkOf q = s.linkOf q
        else stays (.replayRequest p seq))) ∧
      becomes (.freezeMarker p) { l with frozenAt := .some (l.frozenAt.getD s.time), frozenCycle := if l.frozenAt.isSome then l.frozenCycle else now }) ∧
    (l.frozenAt = .none → stays (.thawMarker p) ∧ stays (.freezeMarkerExpiry p)) ∧
    (∀ t, l.frozenAt = .some t →
      (∃ u, exec (.thawMarker p) s = .next u ∧ (t + 10 ^ 10 ≤ s.time → exec (.freezeMarkerExpiry p) s = .next u) ∧ (u.linkOf p).frozenAt = .none ∧ u.cores.length = s.cores.length ∧
        ∀ (i j : Nat) (k m : Core) (a b : PendingAtomic), s.cores[i]? = .some k → u.cores[i]? = .some m →
          k.atomics[j]? = .some a → m.atomics[j]? = .some b →
          b.sentAt = if isRemote s.pkg a.acc.pa && s.portFrom k.id a.acc.pa == .some p then a.sentAt + (s.time - max t a.sentAt) else a.sentAt) ∧
      (s.time < t + 10 ^ 10 → stays (.freezeMarkerExpiry p))))

/-! ## Clocks, power, reset, freeze and repair (R347, R348, R365, R366, R382 to R386, R417 to R423) -/

/-- Power: one partition whose request fits its share, by the power table of the device that the model leaves open, is granted it
and told so; at a boundary the announced grants take effect; a cap from 1,000 to 2,200 W is set, measured, and decided on; a sample
sets a stack's marks, or trips. Reset, freeze and recovery: memory and cores are as at reset, flash and fuses stay, and the valid
image of higher version runs; a freeze stops every clock and tells each peer. Errors: a location becomes lasting at its fourth error
in 2^30 D-cycles; repairs change no data; an uncorrected error poisons its block. -/
def Obligations.PlantEvents : Prop :=
  (∀ (s : State) (watts die ch n : Nat) (sensors : List Int) (logic : Int),
    let stays := fun (i : Instr) => exec i s = .next s
    let plant := fun (i : Instr) (p : Plant) => exec i s = .next { s with plant := p }
    let p := s.plant
    let key := die * 32 + ch
    let seen := fun (l : List (Nat × Nat)) (k : Nat) => ((l.find? fun e => e.1 == k).map (·.2)).getD 0
    let t := sensors.foldl max 0
    (s.parts = [] → stays .powerDecision) ∧
    (∀ q, s.parts = [q] → let req := clkOf q.clkreq
      (∀ i : Fin 4, 8 ≤ req[i]) → q.draw p.temps req ≤ s.share q →
      let w := s.grantWord q req (field q.clkgrant 48 8 + 1)
      (∀ i : Fin 4, field w (8 * i) 8 = req[i]) ∧
      (field w 0 48 = field q.clkgrant 0 48 →
        exec .powerDecision s = .next (s.withPart q.id fun k => { k with nextGrant := .none })) ∧
      (field w 0 48 ≠ field q.clkgrant 0 48 → q.nextGrant ≠ .some w → exec .powerDecision s =
        .next ((s.withPart q.id fun k => { k with nextGrant := .some w }).postEvents q 1 (field w 0 56)))) ∧
    (s.time / 64000 ≤ p.boundary → stays .clockBoundary) ∧
    (p.boundary < s.time / 64000 → exec .clockBoundary s = .next (State.powerDecision { s with
      parts := s.parts.map fun q => { q with clkgrant := q.nextGrant.getD q.clkgrant, nextGrant := .none }
      plant := { p with boundary := s.time / 64000, cut := if p.reduced = 0 then 0 else p.cut + 1 } })) ∧
    (watts < 1000 ∨ 2200 < watts → stays (.setPowerCap watts)) ∧
    (1000 ≤ watts → watts ≤ 2200 → exec (.setPowerCap watts) s = .next (State.powerDecision { s with
      plant := { p with cap := watts }, trust := { s.trust with measured := s.trust.measured ++ [.cap watts] } })) ∧
    (∃ u, exec (.dramRefresh die ch) s = .next u ∧ u = { s with plant := { p with refreshes := u.plant.refreshes } } ∧
      ∀ k, seen u.plant.refreshes k = if k = key then seen p.refreshes k + 1 else seen p.refreshes k) ∧
    (105 < t ∨ 110 < logic → ∃ u, exec (.stackTempSample die sensors logic) s = .next u ∧ u.plant.off = true ∧
      u.plant.unread = true ∧ u.plant.trips = p.trips ++ [if 105 < t then (8 * die + sensors.findIdx (· == t), t) else (32 + die, logic)] ∧
      u.mem = [] ∧ u.saves = s.saves ∧ u.images = s.images ∧
      u.cores = State.reset.cores ∧ u.parts = [] ∧ u.plant.flash = p.flash ∧ u.plant.fused = p.fused) ∧
    (t ≤ 105 → logic ≤ 110 → die < 4 → ∃ u, exec (.stackTempSample die sensors logic) s = .next u ∧
      u = { s with plant := { p with temps := u.plant.temps, hot := u.plant.hot, reduced := u.plant.reduced } } ∧
      (∀ d, d < 4 → u.plant.temps.getD d 0 = if d = die then t.toNat else p.temps.getD d 0) ∧
      (∀ d, d < 4 → u.plant.hot.getLsbD d =
        if d = die ∧ 85 < t then true else if d = die ∧ t < 83 then false else p.hot.getLsbD d) ∧
      (∀ d, d < 4 → u.plant.reduced.getLsbD d =
        if d = die ∧ 95 < t then true else if d = die ∧ t < 93 then false else p.reduced.getLsbD d)) ∧
    exec (.pldmMonitor n) s = .next { s with
      plant := { p with unread := false }
      trust := { s.trust with out := s.trust.out ++ [.monitor n (Config.sensor n s.turn) p.temps p.trips s.alert] } } ∧
    (p.firmware = .none → stays .raiseSecurityVersion) ∧
    (∀ f, p.firmware = .some f → plant .raiseSecurityVersion { p with fused := max p.fused f.security })) ∧
  (∀ (s : State) (b : BootInputs) (f : FirmwareImage),
    let p := s.plant
    let markers := fun (fr : Bool) =>
      ((List.range 12).filter fun k => !(s.linkOf k).down).map fun k => Output.marker k fr
    let clocks := fun (i : Instr) (fr : Bool) (v : Option Nat) => exec i s = .next { s with
      plant := { p with frozen := v }, trust := { s.trust with out := s.trust.out ++ markers fr } }
    let holds := fun (u : State) (g : FirmwareImage) => u.plant.flash[0] = .some g ∨ u.plant.flash[1] = .some g
    (∃ u, exec (.packageReset b) s = .next u ∧ u.mem = [] ∧ u.parts = [] ∧ u.cores = State.reset.cores ∧ u.time = 0 ∧
      u.plant.flash = p.flash ∧ u.plant.fused = p.fused ∧ u.plant.trips = p.trips ∧ u.trust.signatures = s.trust.signatures ∧
      u.plant.unavailable = bootUnavailable b ∧
      (∀ g, u.plant.firmware = .some g → u.plant.recovery = false ∧ s.validImage g = true ∧ holds s g ∧
        ∀ k, holds s k → s.validImage k = true → k.version ≤ g.version) ∧
      (u.plant.firmware = .none → u.plant.recovery = true ∧ ∀ k, holds s k → s.validImage k = false)) ∧
    (p.recovery = false → exec (.recoveryDoorbell f) s = .next s) ∧
    (p.recovery = true → if s.validImage f then ∃ u, exec (.recoveryDoorbell f) s = .next u ∧ u.plant.recoveryStatus = 1 ∧
        holds u f ∧ u.plant.recovery = false ∧ u.mem = [] ∧ u.plant.fused = p.fused
      else exec (.recoveryDoorbell f) s = .next { s with plant := { p with recoveryStatus := 2 } }) ∧
    (p.frozen.isSome = true ∨ p.off = true → exec .freeze s = .next s) ∧
    (p.frozen = .none → p.off = false → clocks .freeze true (.some 0)) ∧
    (p.frozen = .none → exec .unfreeze s = .next s) ∧
    (∀ t, p.frozen = .some t →
      (t ≤ 10 ^ 10 → clocks .unfreeze false .none) ∧
      (10 ^ 10 < t → exec .unfreeze s = exec (.packageReset (Config.selfTest s.turn)) s))) ∧
  (∀ (s : State) (loc : ErrLoc) (die ch bank row slice set way pa : Nat),
    let stays := fun (i : Instr) => exec i s = .next s
    let p := s.plant
    let unit := (errUnit loc).1
    let now := s.dCycles (errUnit loc).2
    let mine := fun (l : List ErrEntry) => l.find? fun e => e.unit == unit && e.loc == loc
    let noted := fun (first count : Nat) => ∃ u, exec (.correctedError loc) s = .next u ∧
      u = { s with plant := { p with errors := u.plant.errors }, oper := { s.oper with corrected := s.oper.corrected + 1 } } ∧
      (u.plant.errors.filter fun e => e.loc == loc) = [⟨unit, loc, first, count⟩] ∧
      ((p.errors.filter fun e => e.unit == unit).length ≤ 32 → (u.plant.errors.filter fun e => e.unit == unit).length ≤ 32)
    let mended := fun (l : ErrLoc) =>
      ({ s with plant := { p with lasting := p.lasting.filter (· != l), repaired := p.repaired ++ [l] } } : State)
    let dram := ErrLoc.dramRow die ch bank row
    let l2 := ErrLoc.l2Way slice set way
    (loc ∈ p.repaired → stays (.correctedError loc)) ∧
    (loc ∉ p.repaired →
      (mine p.errors = .none → noted now 1) ∧
      (∀ e, mine p.errors = .some e →
        (e.first + 2 ^ 30 ≤ now → noted now 1) ∧ (now < e.first + 2 ^ 30 → e.count < 3 → noted e.first (e.count + 1)) ∧
        (now < e.first + 2 ^ 30 → 3 ≤ e.count → ∃ u, exec (.correctedError loc) s = .next u ∧ loc ∈ u.plant.lasting ∧
          (∀ k ∈ u.plant.errors, k.loc ≠ loc) ∧ u.mem = s.mem ∧ u.oper.corrected = s.oper.corrected + 1))) ∧
    (dram ∉ p.lasting → stays (.dramRowRepair dram)) ∧ (l2 ∉ p.lasting → stays (.l2WayRepair l2)) ∧
    (dram ∈ p.lasting → if (p.repaired.filter (sameBank dram)).length < Config.spareRows (bankKey dram) then
        exec (.dramRowRepair dram) s = .next (mended dram)
      else exec (.dramRowRepair dram) s = .next { s with
        plant := { p with lasting := p.lasting.filter (· != dram) }
        trust := { s.trust with out := s.trust.out ++ [.noSpare dram] } }) ∧
    (l2 ∈ p.lasting → ∃ u, exec (.l2WayRepair l2) s = .next u ∧
      u = { mended l2 with lines := u.lines, oper := { s.oper with faults := u.oper.faults } } ∧
      (∀ l, l ∈ u.lines ↔ l ∈ s.lines ∧ l.inWay slice set way = false) ∧
      (∀ holder line, (⟨holder, line, 0, 0⟩ : CacheLine).inWay slice set way = true → u.wayOff holder line = true) ∧
      ∀ c ∈ s.ctxs, ∀ l ∈ s.lines, l.inWay slice set way = true → l.tenant = c.tenant →
        (⟨s.time, c.num, 0, 0⟩ : FaultRecord) ∈ u.oper.faults) ∧
    (∃ u, exec (.uncorrectedError pa) s = .next u ∧ u = { s with poison := u.poison } ∧
      ∀ b, b ∈ u.poison ↔ b = blockOf pa ∨ b ∈ s.poison))

/-! ## Observation (R371 to R381) -/

/-- A counter is disclosed at the level of its class: withheld, in steps of 2^p, as latched at the last boundary, or exact; a
boundary latches every counter of the class. A sample that is due names the slot that issues. A debug stop takes a thread out
before its instruction, its prefix put away (R79); a command of the operator attaches the debugger to the thread it names, and acts
only on a context that allows it. The services of a tenant answer in x3, or -1; which unit and index a service's counter names,
and the lengths at which a data breakpoint is enabled, are the model's choices (log 51, log 39). -/
def Obligations.ObserveEvents : Prop :=
  (∀ (s : State) (ctx : CtxNo) (unit cls idx : Nat),
    let p := s.policyOfCtx ctx
    let raw := s.rawCounter ctx unit cls idx
    let shows := fun (w : Bool) (v : Nat) => exec (.operatorCounterRead ctx unit cls idx) s =
      .next { s with trust := { s.trust with out := s.trust.out ++ [.counter w v] } }
    let level := fun (n : Nat) => cls < 8 ∧ p.level cls = n
    (8 ≤ cls ∨ p.level cls = 0 → shows true 0) ∧
    (level 1 → shows false (raw.toNat - raw.toNat % 2 ^ p.param cls)) ∧
    (level 2 → shows false (s.bucketValue (ctx, unit, cls, idx)).toNat) ∧ (level 3 → shows false raw.toNat) ∧
    (level 2 → s.time % 2 ^ p.param cls = 0 → ∃ u, exec (.counterBucketBoundary ctx cls) s = .next u ∧
      u = { s with oper := { s.oper with buckets := u.oper.buckets } } ∧
      (∀ k ∈ s.counterKeys ctx cls, u.bucketValue (ctx, k.1, cls, k.2) = s.rawCounter ctx k.1 cls k.2) ∧
      ∀ n v c j, (n ≠ ctx ∨ c ≠ cls) → u.bucketValue (n, v, c, j) = s.bucketValue (n, v, c, j)) ∧
    (¬ (level 2 ∧ s.time % 2 ^ p.param cls = 0) → exec (.counterBucketBoundary ctx cls) s = .next s)) ∧
  (∀ (s : State) (c slot : Nat),
    let w := Who.core c slot
    let h := s.hartOf w
    let x := h.readX
    let stays := fun (i : Instr) => exec i s = .next s
    let answers := fun (i : Instr) (t : State) (v : Word) => exec i s = .next (t.finish w 4 fun k => k.setX 3 v)
    let refuses := fun (i : Instr) => answers i s (BitVec.allOnes 64)
    let waits := fun (n : Nat) => h.life = .live ∧ h.wait = .service n
    let p := s.withCore c fun k => { k with sampledAt := s.vCycles c / 2 ^ k.sample.getD 0 }
    let leader := (p.gangOf c).headD c
    let samples := fun (slot : Nat) (pc detail : Word) => ∃ u r, exec (.pcSample c) s = .next u ∧
      u = { p with oper := { p.oper with traced := p.oper.traced ++ [r] } } ∧ r.time = s.time ∧ r.core = c ∧ r.slot = slot ∧
      r.type = 0 ∧ r.pc = pc ∧ r.detail = detail
    let debugs := fun (n : Nat) => ∃ u r, exec (.debugStop c slot) s = .next u ∧ u.mem = s.mem ∧ u.oper.traced = s.oper.traced ++ [r] ∧
      r.type = 8 ∧ r.pc = h.pc ∧ r.slot = slot ∧ r.detail = BitVec.ofNat 64 n ∧ u.hartOf w = h.stopDebug ∧ (u.hartOf w).life = .debug ∧ (u.hartOf w).pc = h.pc ∧
      (u.hartOf w).stopAsked = false ∧
      ∀ f, h.latch = .some f → (u.hartOf w).latch = .none ∧ (u.hartOf w).sys.pfx = f.setWidth 64
    let allowed := ∃ k, s.ctxOfCore c = .some k ∧ k.policy.level 14 = 3
    let a := s.withHart w fun k => { k with debugger := true }
    let due := (s.partOfCore c).isSome = true ∧ s.sampleDue c = true
    (¬ due → stays (.pcSample c)) ∧
    (∀ k, (s.coreOf c).sample = .some k → s.vCycles c / 2 ^ k = (s.coreOf c).sampledAt → stays (.pcSample c)) ∧
    (due → p.nextSlot leader = .none → samples 0xff 0 3) ∧
    (∀ i, due → p.nextSlot leader = .some i →
      samples i (p.hartOf (.core c i)).pc (BitVec.ofNat 64 (p.rotationClass (p.hartOf (.core c i))))) ∧
    (h.stopAsked = false → (s.focus w).fetchBreak = .none → stays (.debugStop c slot)) ∧
    (∀ n, (h.stopAsked = true ∧ n = 0 ∨ h.stopAsked = false ∧ (s.focus w).fetchBreak = .some n) → h.who = w →
      (s.coreOf c).gang = .none → h.life = .live → h.wait.restarts = true → h.landed = .none → debugs n) ∧
    ((s.coreOf c).gang = .none → h.wait.restarts = false → stays (.debugStop c slot)) ∧
    (¬ allowed → ∀ cmd, stays (.operatorDebugCommand c slot cmd)) ∧
    (allowed →
      exec (.operatorDebugCommand c slot .attach) s = .next a ∧
      (h.who = w → (s.coreOf c).gang = .none → h.life = .live → h.wait.restarts = true → h.landed = .none →
        ∃ u, exec (.operatorDebugCommand c slot .stop) s = .next u ∧ (u.hartOf w).life = .debug ∧ (u.hartOf w).pc = h.pc ∧
          (u.hartOf w).debugger = true ∧ u.mem = s.mem) ∧
      (h.who = w → (s.coreOf c).gang = .none → h.life = .live → h.wait.restarts = false →
        ∃ u, exec (.operatorDebugCommand c slot .stop) s = .next u ∧ (u.hartOf w).life = .live ∧ (u.hartOf w).stopAsked = true) ∧
      ((s.coreOf c).gang = .none → (a.hartOf w).life = .debug → exec (.operatorDebugCommand c slot .resume) s =
        .next (a.withHart w fun k => { k.loadPrefix with life := .live, resumed := true })) ∧
      (∀ n b, n < 6 → ∃ u k, exec (.operatorDebugCommand c slot (.breakpoint n b)) s = .next u ∧ u.harts = a.harts ∧
        u.cur = a.cur ∧ (u.coreOf c).breaks[n]? = .some k ∧ k.addr = b.addr ∧ k.slots = b.mask ∧
        (4 ≤ n → k.enabled = true → 1 ≤ k.len ∧ k.len ≤ 64))) ∧
    (∀ e ∈ [(Instr.obsRawCounter c slot, 256), (.obsRecordRing c slot, 257), (.obsSetBreakpoint c slot, 258),
      (.obsDebugResume c slot, 259)], ¬ waits e.2 → stays e.1) ∧
    (waits 256 → (7 < (x 3).toNat ∨ s.ownCore c (x 5) = .none → refuses (.obsRawCounter c slot)) ∧
      ∀ m, s.ownCore c (x 5) = .some m →
        (s.serviceUnit m (x 3).toNat (x 4).toNat = .none → refuses (.obsRawCounter c slot)) ∧
        (x 3 = 0 → 4 * (s.coreOf m).threads ≤ (x 4).toNat → refuses (.obsRawCounter c slot)) ∧
        (x 3 = 1 → 17 ≤ (x 4).toNat → refuses (.obsRawCounter c slot)) ∧
        ∀ u j, s.serviceUnit m (x 3).toNat (x 4).toNat = .some (u, j) →
          answers (.obsRawCounter c slot) s ((s.rawCounter (s.ctxNoOf c) u (x 3).toNat j).setWidth 64)) ∧
    (waits 257 → (1 < (x 3).toNat ∨ (x 4).toNat % 4096 ≠ 0 ∨ (x 5).toNat % 4096 ≠ 0 ∨ x 5 = 0 ∨
        (x 3 = 0 ∧ ((x 6).toNat < 10 ∨ 24 < (x 6).toNat)) → refuses (.obsRecordRing c slot)) ∧
      ∀ k q, s.ctxOfCore c = .some k → s.partOfCore c = .some q →
        ((∃ i < (x 5).toNat / 4096, s.hostPath k ((x 4).toNat + 4096 * i) .write = .none) → refuses (.obsRecordRing c slot)) ∧
        ((∀ i < (x 5).toNat / 4096, (s.hostPath k ((x 4).toNat + 4096 * i) .write).isSome = true) → x 3 = 1 →
        (x 4).toNat % 4096 = 0 → (x 5).toNat % 4096 = 0 → x 5 ≠ 0 →
        answers (.obsRecordRing c slot) { s with oper := { s.oper with rings :=
          (s.oper.rings.filter fun r => !(r.ctx == k.num && r.kind == 1)) ++
            [⟨k.num, 1, x 4, (x 5).toNat, (x 6).toNat⟩] } } 0)) ∧
    (waits 258 → (5 < (x 3).toNat → refuses (.obsSetBreakpoint c slot)) ∧
      ((x 3).toNat ≤ 5 → answers (.obsSetBreakpoint c slot) (s.setBreak c (x 3).toNat (x 4) ((x 5).setWidth 16) (x 6)) 0)) ∧
    (waits 259 → (x 3 ≠ 0 ∨ s.ownCore c (x 4) = .none ∨ 16 ≤ (x 5).toNat → refuses (.obsDebugResume c slot)) ∧
      ∀ m, x 3 = 0 → s.ownCore c (x 4) = .some m → (x 5).toNat < 16 → (s.hartOf (.core m (x 5).toNat)).life = .debug →
        answers (.obsDebugResume c slot) (s.debugResume m (x 5).toNat) 0))

/-! ## Encodings (R29 to R42, R354) -/

/-- Decoding what the encoder writes gives the instruction back, with every operand at every value that its encoding admits. -/
def Obligations.DecodeEncode : Prop :=
  ∀ i : Instr, wellFormed i = true →
    match encode i with
    | .word w => w.getLsbD 0 = true ∧ decodeWord w = .ok i
    | .parcel p => p.getLsbD 0 = false ∧ decodeParcel p = .ok i
    | .queueOp w => decodeQueueOp w = .ok i
    | .noCode => isEvent i = true

/-- No word has two meanings, and the table of the opcode map says which words have one: a word or parcel is an instruction exactly
when its row is in the table and its operands pass, and then it is that instruction's encoding. -/
def Obligations.EncodingUnique : Prop :=
  (∀ w : BitVec 32, w.getLsbD 0 = true → (legalWord w = true ↔ ∃ i, decodeWord w = .ok i) ∧
    ∀ i, decodeWord w = .ok i → wellFormed i = true ∧ encode i = .word w) ∧
  (∀ p : BitVec 16, p.getLsbD 0 = false → (legalParcel p = true ↔ ∃ i, decodeParcel p = .ok i) ∧
    ∀ i, decodeParcel p = .ok i → encode i = .parcel p)

/-- Words written out from the tables of the encoding: one each of a scalar, a branch, a load, an atomic, a fence, a copy, a task, a
message, a vector, a matrix, a Gaussian, a handler and a system instruction, a prefix, a compact form and a queue op. -/
def Obligations.DecodedWords : Prop :=
  (decodeWord 0xa382e705#32).toOption = .some (.addi 7 2 10471) ∧
  (decodeWord 0x55416e21#32).toOption = .some (.bge 1 10 686) ∧
  (decodeWord 0x8b38a631#32).toOption = .some (.ldHz 6 24 1113) ∧
  (decodeWord 0x814f0143#32).toOption = .some (.amoswapD 1 10 15 0 0) ∧
  (decodeWord 0x54c0204b#32).toOption = .some (.xfence 5 2 6) ∧
  (decodeWord 0x050c324d#32).toOption = .some (.cpys 18 12 8 true) ∧
  (decodeWord 0x04915b51#32).toOption = .some (.callat 27 17 4 true) ∧
  (decodeWord 0x0e071953#32).toOption = .some (.send 25 7 16 true true) ∧
  (decodeWord 0x752b8871#32).toOption = .some (.vfma 8 87 84) ∧
  (decodeWord 0x1080697b#32).toOption = .some (.vqpop 105 2) ∧
  (decodeWord 0x0c0009a5#32).toOption = .some (.mma 9 3) ∧
  (decodeWord 0xa0b118c3#32).toOption = .some (.gbschur 24 98 1 2 true) ∧
  (decodeWord 0x04c800d3#32).toOption = .some (.hsendReq 8 6 true) ∧
  (decodeWord 0x00574be3#32).toOption = .some (.rgnwr 11 23 2) ∧
  (decodeWord 0x0bb66af1#32).toOption = .some (.fmt 2 3 true 3 6 6 10) ∧
  (decodeParcel 0x83d4#16).toOption = .some (.cBeqz 14 65) ∧
  (decodeQueueOp 0x4ea229d1#32).toOption = .some (.qpSignal 9 2 3 20130) ∧
  (decodeWord 0xfc000003#32).toOption = .none

/-! ## Issue (R29, R30, R34, R35) -/

/-- An issue runs the instruction that the thread's next word decodes to, and counts it. The next word outside a frame is the two
or four bytes at the pc, each parcel translated by itself; when a parcel's fetch faults, the trap is the instruction's, with `tepc`
the first parcel's address and `tval` the faulting one's (R30). -/
def Obligations.StepRunsDecoded : Prop :=
  (∀ (s : State) (c slot : Nat) (rest : List Activity), s.agenda = .issue c :: rest →
    let t : State := { s with agenda := rest }
    t.alive = true → t.nextSlot c = .some slot → (t.coreOf c).ganged = false →
    let f := t.issuing c slot
    let counted := (t.withCore c fun k => { k with lastSlot := slot }).countedBy c
    f.cur.recapture = false →
    (∀ w len i, f.nextWord = .ok (w, len) → decodeNext w len = .ok i → step s = counted (exec i (f.fetched w))) ∧
    (∀ x, f.nextWord = .error (.trap x) → step s = counted (.next (f.trap x)) ∧ (f.trap x).cur.sys.tepc = f.cur.pc ∧
      (f.trap x).cur.sys.tval = x.tval)) ∧
  (∀ (s : State) (a : Word), s.cur.who.isPp = false → s.cur.pc = a → s.fetchBreak = .none → s.cur.frame = [] →
    let good := fun (va : Word) (t : Target) =>
      s.translate va 2 .fetch = .ok t ∧ isRemote s.pkg t.pa = false ∧ s.poisoned t.pa = false ∧
        s.cachedParcel s.cur.who.core' t.pa = .none
    let bytes := fun (t : Target) => s.coherentRead t.pa 2
    (∀ t, good a t → bytes t % 2 = 0 → s.nextWord = .ok (BitVec.ofNat 32 (bytes t % 2 ^ 16), 2)) ∧
    (∀ t u, good a t → bytes t % 2 = 1 → good (a + 2) u →
      s.nextWord = .ok (BitVec.ofNat 32 (bytes t % 2 ^ 16 + bytes u % 2 ^ 16 * 2 ^ 16), 4)) ∧
    (∀ x, s.translate a 2 .fetch = .error (.trap x) → s.nextWord = .error (.trap x) ∧ x.tval = a ∧ x.fetch = true) ∧
    (∀ t x, good a t → bytes t % 2 = 1 → s.translate (a + 2) 2 .fetch = .error (.trap x) →
      s.nextWord = .error (.trap x) ∧ x.tval = a + 2 ∧ x.fetch = true)) ∧
  (∀ (s : State) (i : Instr) (rest : List Activity), isEvent i = true → s.agenda = .event i :: rest →
    let t : State := { s with agenda := rest }
    (∀ c, i = .eventInterrupt c → t.stopFirst c = .none) →
    step s = if t.mayHappen i then t.counted (exec i t) else .next t) ∧
  (∀ (s : State) (q : HostQueue) (w : BitVec 32) (i : Instr) (rest : List Activity), s.agenda = .queue :: rest →
    let t : State := { s with agenda := rest }
    t.alive = true → t.running? = .some q → q.steps < 256 → q.ops[q.pc]? = .some w → decodeQueueOp w = .ok i →
    step s = exec i t) ∧
  (∀ (s : State) (p k : Nat) (w : BitVec 32) (len : Nat) (i : Instr) (rest : List Activity), s.agenda = .handler p :: rest →
    let t : State := { s with agenda := rest }
    t.alive = true → t.nextHandler p = .some k →
    let f := (t.withPp p fun q => { q with lastThread := k }).focus (.pp p k)
    f.cur.recapture = false → f.cur.ctxOfHandler.steps < 256 → f.nextWord = .ok (w, len) → decodeNext w len = .ok i →
    (∀ u, exec i (f.fetched w) = .next u → step s = .next (u.countStep p)))

/-- A word that is no instruction traps at its address with itself in `tval`, and changes nothing but what the trap does; a parcel
of compact form 0, so the all-zero parcel too, is one of them (R35). -/
def Obligations.IllegalParcel : Prop :=
  (∀ (s : State) (w : BitVec 32) (len : Nat), s.cur.who.isPp = false →
    (len = 4 ∧ w.getLsbD 0 = true ∧ legalWord w = false ∨ len = 2 ∧ legalParcel (w.setWidth 16) = false) →
    s.runWord w len = .next ((s.fetched w).trap { cause := .illegalInstruction, tval := w.setWidth 64 })) ∧
  (∀ (s : State) (t : Target), s.cur.who.isPp = false → s.fetchBreak = .none → s.cur.frame = [] → s.cur.recapture = false →
    s.translate s.cur.pc 2 .fetch = .ok t → isRemote s.pkg t.pa = false → s.poisoned t.pa = false →
    s.cachedParcel s.cur.who.core' t.pa = .none →
    let n := s.coherentRead t.pa 2 % 2 ^ 16
    n / 2 % 16 = 0 → n % 2 = 0 →
    s.runCur = .next ((s.fetched (BitVec.ofNat 32 n)).trap { cause := .illegalInstruction, tval := BitVec.ofNat 64 n })) ∧
  (legalParcel 0 = false)

/-! ## What holds of every state -/

/-- An instruction that only writes registers of its own thread leaves every other register, the system registers but `status`,
`repst` and `fflags`, every byte of memory, and every other thread and agent as they were. -/
def Obligations.RegisterFrame : Prop :=
  ∀ (s u : State) (i : Instr) (w : List Reg × List VReg), s.cur.who.isPp = false → ownWrites i = .some w → exec i s = .next u →
    u.cur.ended = .done → OnlyThread s u ∧ RegistersBut s.cur u.cur w.1 w.2 ∧ u.mem = s.mem ∧ ∀ a, u.byteAt a = s.byteAt a

/-- Memory keeps its canonical form through every step, of whatever agent: addresses rise, and no cell holds what an unlisted
address reads as. -/
def Obligations.MemoryFormKept : Prop :=
  ∀ (s u : State), Memory.wf s.mem = true → step s = .next u → Memory.wf u.mem = true

/-- Right after reset memory has its canonical form and reads as zero everywhere (R421), x0 reads 0 in every thread, every register
is full, `sendto` and `modk` hold their reset values, the status is at level U with no flag set, no partition is resident, the
host queues are idle, and the clocks run. The values that the model chose are not stated (log 1). -/
def Obligations.ResetState : Prop :=
  let s := State.reset
  Memory.wf s.mem = true ∧ (∀ a, readByte s.mem a = 0) ∧ (∀ a, s.byteAt a = 0) ∧
  (∀ w r, (s.hartOf w).readX 0 = 0 ∧ (s.hartOf w).emptyX r = false) ∧ (∀ w r, (s.hartOf w).emptyV r = false) ∧
  (∀ w, (s.hartOf w).sys.status = 0 ∧ (s.hartOf w).sys.fflags = 0 ∧ (s.hartOf w).sys.sendto = 0x100000 ∧
    (s.hartOf w).sys.modk = 0 ∧ (s.hartOf w).latch = .none ∧ (s.hartOf w).rf = false) ∧
  (∀ c, (s.coreOf c).l1 = [] ∧ (s.coreOf c).stores = [] ∧ (s.coreOf c).halves = 0 ∧ (s.coreOf c).gang = .none) ∧
  s.parts = [] ∧ s.ctxs = [] ∧ s.dist.launches = [] ∧ (∀ k, (s.queueAt k).enable = false) ∧ s.trust.sessions = [] ∧
  (∀ n, (s.vfOf n).tdi = .unlocked) ∧ s.plant.cap = 2200 ∧ s.plant.frozen = .none ∧ s.plant.off = false ∧ s.alive = true
end

