-- ==== Sys2Proof/Laws/Fields.lean ====
section
/-! SUPPORT. What each field function reads from each format of the encoder (R31, R354). -/

namespace Sys2Proof.Laws

open Sys2Proof

/-- The two parts of a value, joined. -/
theorem join_parts (h l : Nat) (x : BitVec (h + l)) : x.extractLsb' l h ++ x.extractLsb' 0 l = x := by
  ext i hi
  simp only [BitVec.getElem_append, BitVec.getElem_extractLsb']
  split
  · simp [BitVec.getLsbD_eq_getElem hi]
  · rename_i c; rw [show l + (i - l) = i by omega]; exact BitVec.getLsbD_eq_getElem hi

/-- Bit 0 of f3 is the flag that `wBit` puts there, and the other two bits are zero. -/
theorem wBit_hi (w : Bool) : (wBit w).extractLsb' 1 2 = 0#2 := by cases w <;> rfl
theorem wBit_lo (w : Bool) : (wBit w).getLsbD 0 = w := by cases w <;> rfl
theorem flag_top {n : Nat} (w : Bool) (x : BitVec n) : (BitVec.ofBool w ++ x).getLsbD n = w := by
  rw [BitVec.getLsbD_append]; cases w <;> simp
theorem zero_top {n : Nat} (x : BitVec n) : (0#1 ++ x).getLsbD n = false := by rw [BitVec.getLsbD_append]; simp
theorem ofBool_bit (w : Bool) : (BitVec.ofBool w).getLsbD 0 = w := by cases w <;> rfl

section
variable (f6 : BitVec 6) (b a : BitVec 5) (f3 : BitVec 3) (d : BitVec 5) (op : BitVec 7)
theorem fOp_fmtA : fOp (fmtA f6 b a f3 d op) = op := by
  simp (disch := decide) only [fOp, fmtA, BitVec.extractLsb'_append_eq_of_le,
    BitVec.extractLsb'_append_eq_of_add_le, BitVec.extractLsb'_eq_self, Nat.sub_self]
theorem fF6_fmtA : fF6 (fmtA f6 b a f3 d op) = f6 := by
  simp (disch := decide) only [fF6, fmtA, BitVec.extractLsb'_append_eq_of_le,
    BitVec.extractLsb'_eq_self, Nat.sub_self, Nat.reduceSub]
theorem fB_fmtA : fB (fmtA f6 b a f3 d op) = b := by
  simp (disch := decide) only [fB, fmtA, BitVec.extractLsb'_append_eq_of_le,
    BitVec.extractLsb'_append_eq_of_add_le, BitVec.extractLsb'_eq_self, Nat.sub_self, Nat.reduceSub]
theorem fA_fmtA : fA (fmtA f6 b a f3 d op) = a := by
  simp (disch := decide) only [fA, fmtA, BitVec.extractLsb'_append_eq_of_le,
    BitVec.extractLsb'_append_eq_of_add_le, BitVec.extractLsb'_eq_self, Nat.sub_self, Nat.reduceSub]
theorem fF3_fmtA : fF3 (fmtA f6 b a f3 d op) = f3 := by
  simp (disch := decide) only [fF3, fmtA, BitVec.extractLsb'_append_eq_of_le,
    BitVec.extractLsb'_append_eq_of_add_le, BitVec.extractLsb'_eq_self, Nat.sub_self, Nat.reduceSub]
theorem fD_fmtA : fD (fmtA f6 b a f3 d op) = d := by
  simp (disch := decide) only [fD, fmtA, BitVec.extractLsb'_append_eq_of_le,
    BitVec.extractLsb'_append_eq_of_add_le, BitVec.extractLsb'_eq_self, Nat.sub_self, Nat.reduceSub]
theorem bit0_fmtA : (fmtA f6 b a f3 d op).getLsbD 0 = true := by simp only [fmtA, BitVec.getLsbD_append]; rfl
end

section
variable (imm : BitVec 14) (a d : BitVec 5) (op : BitVec 7)
theorem fOp_fmtI : fOp (fmtI imm a d op) = op := by
  simp (disch := decide) only [fOp, fmtI, BitVec.extractLsb'_append_eq_of_le,
    BitVec.extractLsb'_append_eq_of_add_le, BitVec.extractLsb'_eq_self, Nat.sub_self]
theorem fA_fmtI : fA (fmtI imm a d op) = a := by
  simp (disch := decide) only [fA, fmtI, BitVec.extractLsb'_append_eq_of_le,
    BitVec.extractLsb'_append_eq_of_add_le, BitVec.extractLsb'_eq_self, Nat.sub_self, Nat.reduceSub]
theorem fD_fmtI : fD (fmtI imm a d op) = d := by
  simp (disch := decide) only [fD, fmtI, BitVec.extractLsb'_append_eq_of_le,
    BitVec.extractLsb'_append_eq_of_add_le, BitVec.extractLsb'_eq_self, Nat.sub_self, Nat.reduceSub]
theorem immI_fmtI : immI (fmtI imm a d op) = imm := by
  simp (disch := decide) only [immI, fmtI, BitVec.extractLsb'_append_eq_of_le,
    BitVec.extractLsb'_append_eq_of_add_le, BitVec.extractLsb'_eq_self, Nat.sub_self, Nat.reduceSub]
  exact join_parts 11 3 imm
theorem bit0_fmtI : (fmtI imm a d op).getLsbD 0 = true := by simp only [fmtI, BitVec.getLsbD_append]; rfl
end

section
variable (imm : BitVec 11) (a : BitVec 5) (f3 : BitVec 3) (d : BitVec 5) (op : BitVec 7)
theorem fOp_fmtL : fOp (fmtL imm a f3 d op) = op := by
  simp (disch := decide) only [fOp, fmtL, BitVec.extractLsb'_append_eq_of_le,
    BitVec.extractLsb'_append_eq_of_add_le, BitVec.extractLsb'_eq_self, Nat.sub_self]
theorem imm11_fmtL : imm11 (fmtL imm a f3 d op) = imm := by
  simp (disch := decide) only [imm11, fmtL, BitVec.extractLsb'_append_eq_of_le,
    BitVec.extractLsb'_eq_self, Nat.sub_self, Nat.reduceSub]
theorem fA_fmtL : fA (fmtL imm a f3 d op) = a := by
  simp (disch := decide) only [fA, fmtL, BitVec.extractLsb'_append_eq_of_le,
    BitVec.extractLsb'_append_eq_of_add_le, BitVec.extractLsb'_eq_self, Nat.sub_self, Nat.reduceSub]
theorem fF3_fmtL : fF3 (fmtL imm a f3 d op) = f3 := by
  simp (disch := decide) only [fF3, fmtL, BitVec.extractLsb'_append_eq_of_le,
    BitVec.extractLsb'_append_eq_of_add_le, BitVec.extractLsb'_eq_self, Nat.sub_self, Nat.reduceSub]
theorem fD_fmtL : fD (fmtL imm a f3 d op) = d := by
  simp (disch := decide) only [fD, fmtL, BitVec.extractLsb'_append_eq_of_le,
    BitVec.extractLsb'_append_eq_of_add_le, BitVec.extractLsb'_eq_self, Nat.sub_self, Nat.reduceSub]
theorem bit0_fmtL : (fmtL imm a f3 d op).getLsbD 0 = true := by simp only [fmtL, BitVec.getLsbD_append]; rfl
end

section
variable (imm : BitVec 11) (b a : BitVec 5) (f3 : BitVec 3) (op : BitVec 7)
theorem fOp_fmtS : fOp (fmtS imm b a f3 op) = op := by
  simp (disch := decide) only [fOp, fmtS, BitVec.extractLsb'_append_eq_of_le,
    BitVec.extractLsb'_append_eq_of_add_le, BitVec.extractLsb'_eq_self, Nat.sub_self]
theorem fB_fmtS : fB (fmtS imm b a f3 op) = b := by
  simp (disch := decide) only [fB, fmtS, BitVec.extractLsb'_append_eq_of_le,
    BitVec.extractLsb'_append_eq_of_add_le, BitVec.extractLsb'_eq_self, Nat.sub_self, Nat.reduceSub]
theorem fA_fmtS : fA (fmtS imm b a f3 op) = a := by
  simp (disch := decide) only [fA, fmtS, BitVec.extractLsb'_append_eq_of_le,
    BitVec.extractLsb'_append_eq_of_add_le, BitVec.extractLsb'_eq_self, Nat.sub_self, Nat.reduceSub]
theorem fF3_fmtS : fF3 (fmtS imm b a f3 op) = f3 := by
  simp (disch := decide) only [fF3, fmtS, BitVec.extractLsb'_append_eq_of_le,
    BitVec.extractLsb'_append_eq_of_add_le, BitVec.extractLsb'_eq_self, Nat.sub_self, Nat.reduceSub]
theorem immS_fmtS : immS (fmtS imm b a f3 op) = imm := by
  simp (disch := decide) only [immS, fmtS, BitVec.extractLsb'_append_eq_of_le,
    BitVec.extractLsb'_append_eq_of_add_le, BitVec.extractLsb'_eq_self, Nat.sub_self, Nat.reduceSub]
  exact join_parts 6 5 imm
theorem bit0_fmtS : (fmtS imm b a f3 op).getLsbD 0 = true := by simp only [fmtS, BitVec.getLsbD_append]; rfl
end

section
variable (imm : BitVec 19) (d : BitVec 5) (op : BitVec 7)
theorem fOp_fmtU : fOp (fmtU imm d op) = op := by
  simp (disch := decide) only [fOp, fmtU, BitVec.extractLsb'_append_eq_of_le,
    BitVec.extractLsb'_append_eq_of_add_le, BitVec.extractLsb'_eq_self, Nat.sub_self]
theorem imm19_fmtU : imm19 (fmtU imm d op) = imm := by
  simp (disch := decide) only [imm19, fmtU, BitVec.extractLsb'_append_eq_of_le,
    BitVec.extractLsb'_eq_self, Nat.sub_self, Nat.reduceSub]
theorem fD_fmtU : fD (fmtU imm d op) = d := by
  simp (disch := decide) only [fD, fmtU, BitVec.extractLsb'_append_eq_of_le,
    BitVec.extractLsb'_append_eq_of_add_le, BitVec.extractLsb'_eq_self, Nat.sub_self, Nat.reduceSub]
theorem bit0_fmtU : (fmtU imm d op).getLsbD 0 = true := by simp only [fmtU, BitVec.getLsbD_append]; rfl
end

section
variable (cnt : BitVec 8) (sd sa sb : BitVec 3) (op : BitVec 7)
theorem fOp_fmtRep : fOp (fmtRep cnt sd sa sb op) = op := by
  simp (disch := decide) only [fOp, fmtRep, BitVec.extractLsb'_append_eq_of_le,
    BitVec.extractLsb'_append_eq_of_add_le, BitVec.extractLsb'_eq_self, Nat.sub_self]
theorem repCnt_fmtRep : repCnt (fmtRep cnt sd sa sb op) = cnt := by
  simp (disch := decide) only [repCnt, fmtRep, BitVec.extractLsb'_append_eq_of_le,
    BitVec.extractLsb'_eq_self, Nat.sub_self, Nat.reduceSub]
theorem repD_fmtRep : repD (fmtRep cnt sd sa sb op) = sd := by
  simp (disch := decide) only [repD, fmtRep, BitVec.extractLsb'_append_eq_of_le,
    BitVec.extractLsb'_append_eq_of_add_le, BitVec.extractLsb'_eq_self, Nat.sub_self, Nat.reduceSub]
theorem repA_fmtRep : repA (fmtRep cnt sd sa sb op) = sa := by
  simp (disch := decide) only [repA, fmtRep, BitVec.extractLsb'_append_eq_of_le,
    BitVec.extractLsb'_append_eq_of_add_le, BitVec.extractLsb'_eq_self, Nat.sub_self, Nat.reduceSub]
theorem repB_fmtRep : repB (fmtRep cnt sd sa sb op) = sb := by
  simp (disch := decide) only [repB, fmtRep, BitVec.extractLsb'_append_eq_of_le,
    BitVec.extractLsb'_append_eq_of_add_le, BitVec.extractLsb'_eq_self, Nat.sub_self, Nat.reduceSub]
theorem fRsvRep_fmtRep : fRsvRep (fmtRep cnt sd sa sb op) = 0#7 := by
  simp (disch := decide) only [fRsvRep, fmtRep, BitVec.extractLsb'_append_eq_of_le,
    BitVec.extractLsb'_append_eq_of_add_le, BitVec.extractLsb'_eq_self, Nat.sub_self, Nat.reduceSub]
theorem bit0_fmtRep : (fmtRep cnt sd sa sb op).getLsbD 0 = true := by simp only [fmtRep, BitVec.getLsbD_append]; rfl
end

section
variable (f3 : BitVec 3) (vb va vd : BitVec 7) (op : BitVec 7)
theorem fOp_fmtV : fOp (fmtV f3 vb va vd op) = op := by
  simp (disch := decide) only [fOp, fmtV, BitVec.extractLsb'_append_eq_of_le,
    BitVec.extractLsb'_append_eq_of_add_le, BitVec.extractLsb'_eq_self, Nat.sub_self]
theorem fF3v_fmtV : fF3v (fmtV f3 vb va vd op) = f3 := by
  simp (disch := decide) only [fF3v, fmtV, BitVec.extractLsb'_append_eq_of_le,
    BitVec.extractLsb'_eq_self, Nat.sub_self, Nat.reduceSub]
theorem fVb_fmtV : fVb (fmtV f3 vb va vd op) = vb := by
  simp (disch := decide) only [fVb, fmtV, BitVec.extractLsb'_append_eq_of_le,
    BitVec.extractLsb'_append_eq_of_add_le, BitVec.extractLsb'_eq_self, Nat.sub_self, Nat.reduceSub]
theorem fVa_fmtV : fVa (fmtV f3 vb va vd op) = va := by
  simp (disch := decide) only [fVa, fmtV, BitVec.extractLsb'_append_eq_of_le,
    BitVec.extractLsb'_append_eq_of_add_le, BitVec.extractLsb'_eq_self, Nat.sub_self, Nat.reduceSub]
theorem fVd_fmtV : fVd (fmtV f3 vb va vd op) = vd := by
  simp (disch := decide) only [fVd, fmtV, BitVec.extractLsb'_append_eq_of_le,
    BitVec.extractLsb'_append_eq_of_add_le, BitVec.extractLsb'_eq_self, Nat.sub_self, Nat.reduceSub]
theorem bit0_fmtV : (fmtV f3 vb va vd op).getLsbD 0 = true := by simp only [fmtV, BitVec.getLsbD_append]; rfl
end

section
variable (f5 b : BitVec 5) (va vd : BitVec 7) (op : BitVec 7)
theorem fOp_fmtVS : fOp (fmtVS f5 b va vd op) = op := by
  simp (disch := decide) only [fOp, fmtVS, BitVec.extractLsb'_append_eq_of_le,
    BitVec.extractLsb'_append_eq_of_add_le, BitVec.extractLsb'_eq_self, Nat.sub_self]
theorem fF5_fmtVS : fF5 (fmtVS f5 b va vd op) = f5 := by
  simp (disch := decide) only [fF5, fmtVS, BitVec.extractLsb'_append_eq_of_le,
    BitVec.extractLsb'_eq_self, Nat.sub_self, Nat.reduceSub]
theorem fBv_fmtVS : fBv (fmtVS f5 b va vd op) = b := by
  simp (disch := decide) only [fBv, fmtVS, BitVec.extractLsb'_append_eq_of_le,
    BitVec.extractLsb'_append_eq_of_add_le, BitVec.extractLsb'_eq_self, Nat.sub_self, Nat.reduceSub]
theorem fVa_fmtVS : fVa (fmtVS f5 b va vd op) = va := by
  simp (disch := decide) only [fVa, fmtVS, BitVec.extractLsb'_append_eq_of_le,
    BitVec.extractLsb'_append_eq_of_add_le, BitVec.extractLsb'_eq_self, Nat.sub_self, Nat.reduceSub]
theorem fVd_fmtVS : fVd (fmtVS f5 b va vd op) = vd := by
  simp (disch := decide) only [fVd, fmtVS, BitVec.extractLsb'_append_eq_of_le,
    BitVec.extractLsb'_append_eq_of_add_le, BitVec.extractLsb'_eq_self, Nat.sub_self, Nat.reduceSub]
theorem bit0_fmtVS : (fmtVS f5 b va vd op).getLsbD 0 = true := by simp only [fmtVS, BitVec.getLsbD_append]; rfl
end

section
variable (imm : BitVec 11) (a : BitVec 5) (t : Bool) (vd : BitVec 7) (op : BitVec 7)
theorem fOp_fmtVM : fOp (fmtVM imm a t vd op) = op := by
  simp (disch := decide) only [fOp, fmtVM, BitVec.extractLsb'_append_eq_of_le,
    BitVec.extractLsb'_append_eq_of_add_le, BitVec.extractLsb'_eq_self, Nat.sub_self]
theorem imm11_fmtVM : imm11 (fmtVM imm a t vd op) = imm := by
  simp (disch := decide) only [imm11, fmtVM, BitVec.extractLsb'_append_eq_of_le,
    BitVec.extractLsb'_eq_self, Nat.sub_self, Nat.reduceSub]
theorem fA_fmtVM : fA (fmtVM imm a t vd op) = a := by
  simp (disch := decide) only [fA, fmtVM, BitVec.extractLsb'_append_eq_of_le,
    BitVec.extractLsb'_append_eq_of_add_le, BitVec.extractLsb'_eq_self, Nat.sub_self, Nat.reduceSub]
theorem nt_fmtVM : nt (fmtVM imm a t vd op) = BitVec.ofBool t := by
  simp (disch := decide) only [nt, fmtVM, BitVec.extractLsb'_append_eq_of_le,
    BitVec.extractLsb'_append_eq_of_add_le, BitVec.extractLsb'_eq_self, Nat.sub_self, Nat.reduceSub]
theorem fVd_fmtVM : fVd (fmtVM imm a t vd op) = vd := by
  simp (disch := decide) only [fVd, fmtVM, BitVec.extractLsb'_append_eq_of_le,
    BitVec.extractLsb'_append_eq_of_add_le, BitVec.extractLsb'_eq_self, Nat.sub_self, Nat.reduceSub]
theorem bit0_fmtVM : (fmtVM imm a t vd op).getLsbD 0 = true := by simp only [fmtVM, BitVec.getLsbD_append]; rfl
end

section
variable (f3 : BitVec 3) (vb : BitVec 7) (t : Bool) (a : BitVec 5) (vd : BitVec 7) (op : BitVec 7)
theorem fOp_fmtVX : fOp (fmtVX f3 vb t a vd op) = op := by
  simp (disch := decide) only [fOp, fmtVX, BitVec.extractLsb'_append_eq_of_le,
    BitVec.extractLsb'_append_eq_of_add_le, BitVec.extractLsb'_eq_self, Nat.sub_self]
theorem fF3v_fmtVX : fF3v (fmtVX f3 vb t a vd op) = f3 := by
  simp (disch := decide) only [fF3v, fmtVX, BitVec.extractLsb'_append_eq_of_le,
    BitVec.extractLsb'_eq_self, Nat.sub_self, Nat.reduceSub]
theorem fVb_fmtVX : fVb (fmtVX f3 vb t a vd op) = vb := by
  simp (disch := decide) only [fVb, fmtVX, BitVec.extractLsb'_append_eq_of_le,
    BitVec.extractLsb'_append_eq_of_add_le, BitVec.extractLsb'_eq_self, Nat.sub_self, Nat.reduceSub]
theorem st_fmtVX : st (fmtVX f3 vb t a vd op) = BitVec.ofBool t := by
  simp (disch := decide) only [st, fmtVX, BitVec.extractLsb'_append_eq_of_le,
    BitVec.extractLsb'_append_eq_of_add_le, BitVec.extractLsb'_eq_self, Nat.sub_self, Nat.reduceSub]
theorem fA_fmtVX : fA (fmtVX f3 vb t a vd op) = a := by
  simp (disch := decide) only [fA, fmtVX, BitVec.extractLsb'_append_eq_of_le,
    BitVec.extractLsb'_append_eq_of_add_le, BitVec.extractLsb'_eq_self, Nat.sub_self, Nat.reduceSub]
theorem fRsvX_fmtVX : fRsvX (fmtVX f3 vb t a vd op) = 0#1 := by
  simp (disch := decide) only [fRsvX, fmtVX, BitVec.extractLsb'_append_eq_of_le,
    BitVec.extractLsb'_append_eq_of_add_le, BitVec.extractLsb'_eq_self, Nat.sub_self, Nat.reduceSub]
theorem fVd_fmtVX : fVd (fmtVX f3 vb t a vd op) = vd := by
  simp (disch := decide) only [fVd, fmtVX, BitVec.extractLsb'_append_eq_of_le,
    BitVec.extractLsb'_append_eq_of_add_le, BitVec.extractLsb'_eq_self, Nat.sub_self, Nat.reduceSub]
theorem bit0_fmtVX : (fmtVX f3 vb t a vd op).getLsbD 0 = true := by simp only [fmtVX, BitVec.getLsbD_append]; rfl
end

section
variable (sp sc : BitVec 2) (sat : Bool) (rnd : BitVec 3) (cfmt bfmt afmt : BitVec 4) (op : BitVec 7)
theorem fOp_fmtP : fOp (fmtP sp sc sat rnd cfmt bfmt afmt op) = op := by
  simp (disch := decide) only [fOp, fmtP, BitVec.extractLsb'_append_eq_of_le,
    BitVec.extractLsb'_append_eq_of_add_le, BitVec.extractLsb'_eq_self, Nat.sub_self]
theorem fRsvP_fmtP : fRsvP (fmtP sp sc sat rnd cfmt bfmt afmt op) = 0#4 := by
  simp (disch := decide) only [fRsvP, fmtP, BitVec.extractLsb'_append_eq_of_le,
    BitVec.extractLsb'_eq_self, Nat.sub_self, Nat.reduceSub]
theorem pSp_fmtP : pSp (fmtP sp sc sat rnd cfmt bfmt afmt op) = sp := by
  simp (disch := decide) only [pSp, fmtP, BitVec.extractLsb'_append_eq_of_le,
    BitVec.extractLsb'_append_eq_of_add_le, BitVec.extractLsb'_eq_self, Nat.sub_self, Nat.reduceSub]
theorem pSc_fmtP : pSc (fmtP sp sc sat rnd cfmt bfmt afmt op) = sc := by
  simp (disch := decide) only [pSc, fmtP, BitVec.extractLsb'_append_eq_of_le,
    BitVec.extractLsb'_append_eq_of_add_le, BitVec.extractLsb'_eq_self, Nat.sub_self, Nat.reduceSub]
theorem pSat_fmtP : pSat (fmtP sp sc sat rnd cfmt bfmt afmt op) = BitVec.ofBool sat := by
  simp (disch := decide) only [pSat, fmtP, BitVec.extractLsb'_append_eq_of_le,
    BitVec.extractLsb'_append_eq_of_add_le, BitVec.extractLsb'_eq_self, Nat.sub_self, Nat.reduceSub]
theorem pRnd_fmtP : pRnd (fmtP sp sc sat rnd cfmt bfmt afmt op) = rnd := by
  simp (disch := decide) only [pRnd, fmtP, BitVec.extractLsb'_append_eq_of_le,
    BitVec.extractLsb'_append_eq_of_add_le, BitVec.extractLsb'_eq_self, Nat.sub_self, Nat.reduceSub]
theorem pC_fmtP : pC (fmtP sp sc sat rnd cfmt bfmt afmt op) = cfmt := by
  simp (disch := decide) only [pC, fmtP, BitVec.extractLsb'_append_eq_of_le,
    BitVec.extractLsb'_append_eq_of_add_le, BitVec.extractLsb'_eq_self, Nat.sub_self, Nat.reduceSub]
theorem pB_fmtP : pB (fmtP sp sc sat rnd cfmt bfmt afmt op) = bfmt := by
  simp (disch := decide) only [pB, fmtP, BitVec.extractLsb'_append_eq_of_le,
    BitVec.extractLsb'_append_eq_of_add_le, BitVec.extractLsb'_eq_self, Nat.sub_self, Nat.reduceSub]
theorem pA_fmtP : pA (fmtP sp sc sat rnd cfmt bfmt afmt op) = afmt := by
  simp (disch := decide) only [pA, fmtP, BitVec.extractLsb'_append_eq_of_le,
    BitVec.extractLsb'_append_eq_of_add_le, BitVec.extractLsb'_eq_self, Nat.sub_self, Nat.reduceSub]
theorem bit0_fmtP : (fmtP sp sc sat rnd cfmt bfmt afmt op).getLsbD 0 = true := by simp only [fmtP, BitVec.getLsbD_append]; rfl
end

section
variable (imm : BitVec 16) (a d : BitVec 4) (w : BitVec 2) (op : BitVec 6)
theorem qOp_fmtQ : qOp (fmtQ imm a d w op) = op := by
  simp (disch := decide) only [qOp, fmtQ, 
    BitVec.extractLsb'_append_eq_of_add_le, BitVec.extractLsb'_eq_self]
theorem qImm_fmtQ : qImm (fmtQ imm a d w op) = imm := by
  simp (disch := decide) only [qImm, fmtQ, BitVec.extractLsb'_append_eq_of_le,
    BitVec.extractLsb'_eq_self, Nat.sub_self, Nat.reduceSub]
theorem qA_fmtQ : qA (fmtQ imm a d w op) = a := by
  simp (disch := decide) only [qA, fmtQ, BitVec.extractLsb'_append_eq_of_le,
    BitVec.extractLsb'_append_eq_of_add_le, BitVec.extractLsb'_eq_self, Nat.sub_self, Nat.reduceSub]
theorem qD_fmtQ : qD (fmtQ imm a d w op) = d := by
  simp (disch := decide) only [qD, fmtQ, BitVec.extractLsb'_append_eq_of_le,
    BitVec.extractLsb'_append_eq_of_add_le, BitVec.extractLsb'_eq_self, Nat.sub_self, Nat.reduceSub]
theorem qW_fmtQ : qW (fmtQ imm a d w op) = w := by
  simp (disch := decide) only [qW, fmtQ, BitVec.extractLsb'_append_eq_of_le,
    BitVec.extractLsb'_append_eq_of_add_le, BitVec.extractLsb'_eq_self, Nat.sub_self]
end

end Sys2Proof.Laws
end

