-- ==== Sys2Proof/Laws/State.lean ====
section
/-! SUPPORT. What each update of the state and of a thread leaves alone: one lemma per field per update. -/

namespace Sys2Proof.Machine

open Sys2Proof

set_option Elab.async false

/-! ## The package -/

namespace State

@[simp] theorem setCore_cur (s : State) (c : Core) : (s.setCore c).cur = s.cur := rfl
@[simp] theorem setCore_harts (s : State) (c : Core) : (s.setCore c).harts = s.harts := rfl
@[simp] theorem setCore_mem (s : State) (c : Core) : (s.setCore c).mem = s.mem := rfl
@[simp] theorem setCore_tlb (s : State) (c : Core) : (s.setCore c).tlb = s.tlb := rfl
@[simp] theorem setCore_past (s : State) (c : Core) : (s.setCore c).past = s.past := rfl
@[simp] theorem setCore_stamps (s : State) (c : Core) : (s.setCore c).stamps = s.stamps := rfl
@[simp] theorem setCore_syncs (s : State) (c : Core) : (s.setCore c).syncs = s.syncs := rfl
@[simp] theorem setCore_walks (s : State) (c : Core) : (s.setCore c).walks = s.walks := rfl
@[simp] theorem setCore_poison (s : State) (c : Core) : (s.setCore c).poison = s.poison := rfl
@[simp] theorem setCore_lines (s : State) (c : Core) : (s.setCore c).lines = s.lines := rfl
@[simp] theorem setCore_rdc (s : State) (c : Core) : (s.setCore c).rdc = s.rdc := rfl
@[simp] theorem setCore_windows (s : State) (c : Core) : (s.setCore c).windows = s.windows := rfl
@[simp] theorem setCore_home (s : State) (c : Core) : (s.setCore c).home = s.home := rfl
@[simp] theorem setCore_net (s : State) (c : Core) : (s.setCore c).net = s.net := rfl
@[simp] theorem setCore_pps (s : State) (c : Core) : (s.setCore c).pps = s.pps := rfl
@[simp] theorem setCore_replies (s : State) (c : Core) : (s.setCore c).replies = s.replies := rfl
@[simp] theorem setCore_joinFails (s : State) (c : Core) : (s.setCore c).joinFails = s.joinFails := rfl
@[simp] theorem setCore_copies (s : State) (c : Core) : (s.setCore c).copies = s.copies := rfl
@[simp] theorem setCore_posts (s : State) (c : Core) : (s.setCore c).posts = s.posts := rfl
@[simp] theorem setCore_arrays (s : State) (c : Core) : (s.setCore c).arrays = s.arrays := rfl
@[simp] theorem setCore_sends (s : State) (c : Core) : (s.setCore c).sends = s.sends := rfl
@[simp] theorem setCore_ctxs (s : State) (c : Core) : (s.setCore c).ctxs = s.ctxs := rfl
@[simp] theorem setCore_parts (s : State) (c : Core) : (s.setCore c).parts = s.parts := rfl
@[simp] theorem setCore_switches (s : State) (c : Core) : (s.setCore c).switches = s.switches := rfl
@[simp] theorem setCore_images (s : State) (c : Core) : (s.setCore c).images = s.images := rfl
@[simp] theorem setCore_saves (s : State) (c : Core) : (s.setCore c).saves = s.saves := rfl
@[simp] theorem setCore_dist (s : State) (c : Core) : (s.setCore c).dist = s.dist := rfl
@[simp] theorem setCore_trust (s : State) (c : Core) : (s.setCore c).trust = s.trust := rfl
@[simp] theorem setCore_host (s : State) (c : Core) : (s.setCore c).host = s.host := rfl
@[simp] theorem setCore_fabric (s : State) (c : Core) : (s.setCore c).fabric = s.fabric := rfl
@[simp] theorem setCore_plant (s : State) (c : Core) : (s.setCore c).plant = s.plant := rfl
@[simp] theorem setCore_oper (s : State) (c : Core) : (s.setCore c).oper = s.oper := rfl
@[simp] theorem setCore_time (s : State) (c : Core) : (s.setCore c).time = s.time := rfl
@[simp] theorem setCore_nTicks (s : State) (c : Core) : (s.setCore c).nTicks = s.nTicks := rfl
@[simp] theorem setCore_dTicks (s : State) (c : Core) : (s.setCore c).dTicks = s.dTicks := rfl
@[simp] theorem setCore_tally (s : State) (c : Core) : (s.setCore c).tally = s.tally := rfl
@[simp] theorem setCore_pkg (s : State) (c : Core) : (s.setCore c).pkg = s.pkg := rfl
@[simp] theorem setCore_agenda (s : State) (c : Core) : (s.setCore c).agenda = s.agenda := rfl
@[simp] theorem setCore_turn (s : State) (c : Core) : (s.setCore c).turn = s.turn := rfl
@[simp] theorem withCore_cur (s : State) (c : CoreId) (f : Core → Core) : (s.withCore c f).cur = s.cur := rfl
@[simp] theorem withCore_harts (s : State) (c : CoreId) (f : Core → Core) : (s.withCore c f).harts = s.harts := rfl
@[simp] theorem withCore_mem (s : State) (c : CoreId) (f : Core → Core) : (s.withCore c f).mem = s.mem := rfl
@[simp] theorem withCore_tlb (s : State) (c : CoreId) (f : Core → Core) : (s.withCore c f).tlb = s.tlb := rfl
@[simp] theorem withCore_past (s : State) (c : CoreId) (f : Core → Core) : (s.withCore c f).past = s.past := rfl
@[simp] theorem withCore_stamps (s : State) (c : CoreId) (f : Core → Core) : (s.withCore c f).stamps = s.stamps := rfl
@[simp] theorem withCore_syncs (s : State) (c : CoreId) (f : Core → Core) : (s.withCore c f).syncs = s.syncs := rfl
@[simp] theorem withCore_walks (s : State) (c : CoreId) (f : Core → Core) : (s.withCore c f).walks = s.walks := rfl
@[simp] theorem withCore_poison (s : State) (c : CoreId) (f : Core → Core) : (s.withCore c f).poison = s.poison := rfl
@[simp] theorem withCore_lines (s : State) (c : CoreId) (f : Core → Core) : (s.withCore c f).lines = s.lines := rfl
@[simp] theorem withCore_rdc (s : State) (c : CoreId) (f : Core → Core) : (s.withCore c f).rdc = s.rdc := rfl
@[simp] theorem withCore_windows (s : State) (c : CoreId) (f : Core → Core) : (s.withCore c f).windows = s.windows := rfl
@[simp] theorem withCore_home (s : State) (c : CoreId) (f : Core → Core) : (s.withCore c f).home = s.home := rfl
@[simp] theorem withCore_net (s : State) (c : CoreId) (f : Core → Core) : (s.withCore c f).net = s.net := rfl
@[simp] theorem withCore_pps (s : State) (c : CoreId) (f : Core → Core) : (s.withCore c f).pps = s.pps := rfl
@[simp] theorem withCore_replies (s : State) (c : CoreId) (f : Core → Core) : (s.withCore c f).replies = s.replies := rfl
@[simp] theorem withCore_joinFails (s : State) (c : CoreId) (f : Core → Core) : (s.withCore c f).joinFails = s.joinFails := rfl
@[simp] theorem withCore_copies (s : State) (c : CoreId) (f : Core → Core) : (s.withCore c f).copies = s.copies := rfl
@[simp] theorem withCore_posts (s : State) (c : CoreId) (f : Core → Core) : (s.withCore c f).posts = s.posts := rfl
@[simp] theorem withCore_arrays (s : State) (c : CoreId) (f : Core → Core) : (s.withCore c f).arrays = s.arrays := rfl
@[simp] theorem withCore_sends (s : State) (c : CoreId) (f : Core → Core) : (s.withCore c f).sends = s.sends := rfl
@[simp] theorem withCore_ctxs (s : State) (c : CoreId) (f : Core → Core) : (s.withCore c f).ctxs = s.ctxs := rfl
@[simp] theorem withCore_parts (s : State) (c : CoreId) (f : Core → Core) : (s.withCore c f).parts = s.parts := rfl
@[simp] theorem withCore_switches (s : State) (c : CoreId) (f : Core → Core) : (s.withCore c f).switches = s.switches := rfl
@[simp] theorem withCore_images (s : State) (c : CoreId) (f : Core → Core) : (s.withCore c f).images = s.images := rfl
@[simp] theorem withCore_saves (s : State) (c : CoreId) (f : Core → Core) : (s.withCore c f).saves = s.saves := rfl
@[simp] theorem withCore_dist (s : State) (c : CoreId) (f : Core → Core) : (s.withCore c f).dist = s.dist := rfl
@[simp] theorem withCore_trust (s : State) (c : CoreId) (f : Core → Core) : (s.withCore c f).trust = s.trust := rfl
@[simp] theorem withCore_host (s : State) (c : CoreId) (f : Core → Core) : (s.withCore c f).host = s.host := rfl
@[simp] theorem withCore_fabric (s : State) (c : CoreId) (f : Core → Core) : (s.withCore c f).fabric = s.fabric := rfl
@[simp] theorem withCore_plant (s : State) (c : CoreId) (f : Core → Core) : (s.withCore c f).plant = s.plant := rfl
@[simp] theorem withCore_oper (s : State) (c : CoreId) (f : Core → Core) : (s.withCore c f).oper = s.oper := rfl
@[simp] theorem withCore_time (s : State) (c : CoreId) (f : Core → Core) : (s.withCore c f).time = s.time := rfl
@[simp] theorem withCore_nTicks (s : State) (c : CoreId) (f : Core → Core) : (s.withCore c f).nTicks = s.nTicks := rfl
@[simp] theorem withCore_dTicks (s : State) (c : CoreId) (f : Core → Core) : (s.withCore c f).dTicks = s.dTicks := rfl
@[simp] theorem withCore_tally (s : State) (c : CoreId) (f : Core → Core) : (s.withCore c f).tally = s.tally := rfl
@[simp] theorem withCore_pkg (s : State) (c : CoreId) (f : Core → Core) : (s.withCore c f).pkg = s.pkg := rfl
@[simp] theorem withCore_agenda (s : State) (c : CoreId) (f : Core → Core) : (s.withCore c f).agenda = s.agenda := rfl
@[simp] theorem withCore_turn (s : State) (c : CoreId) (f : Core → Core) : (s.withCore c f).turn = s.turn := rfl
@[simp] theorem setHart_cores (s : State) (h : Hart) : (s.setHart h).cores = s.cores := by unfold State.setHart; split <;> rfl
@[simp] theorem setHart_mem (s : State) (h : Hart) : (s.setHart h).mem = s.mem := by unfold State.setHart; split <;> rfl
@[simp] theorem setHart_tlb (s : State) (h : Hart) : (s.setHart h).tlb = s.tlb := by unfold State.setHart; split <;> rfl
@[simp] theorem setHart_past (s : State) (h : Hart) : (s.setHart h).past = s.past := by unfold State.setHart; split <;> rfl
@[simp] theorem setHart_stamps (s : State) (h : Hart) : (s.setHart h).stamps = s.stamps := by unfold State.setHart; split <;> rfl
@[simp] theorem setHart_syncs (s : State) (h : Hart) : (s.setHart h).syncs = s.syncs := by unfold State.setHart; split <;> rfl
@[simp] theorem setHart_walks (s : State) (h : Hart) : (s.setHart h).walks = s.walks := by unfold State.setHart; split <;> rfl
@[simp] theorem setHart_poison (s : State) (h : Hart) : (s.setHart h).poison = s.poison := by unfold State.setHart; split <;> rfl
@[simp] theorem setHart_lines (s : State) (h : Hart) : (s.setHart h).lines = s.lines := by unfold State.setHart; split <;> rfl
@[simp] theorem setHart_rdc (s : State) (h : Hart) : (s.setHart h).rdc = s.rdc := by unfold State.setHart; split <;> rfl
@[simp] theorem setHart_windows (s : State) (h : Hart) : (s.setHart h).windows = s.windows := by unfold State.setHart; split <;> rfl
@[simp] theorem setHart_home (s : State) (h : Hart) : (s.setHart h).home = s.home := by unfold State.setHart; split <;> rfl
@[simp] theorem setHart_net (s : State) (h : Hart) : (s.setHart h).net = s.net := by unfold State.setHart; split <;> rfl
@[simp] theorem setHart_pps (s : State) (h : Hart) : (s.setHart h).pps = s.pps := by unfold State.setHart; split <;> rfl
@[simp] theorem setHart_replies (s : State) (h : Hart) : (s.setHart h).replies = s.replies := by unfold State.setHart; split <;> rfl
@[simp] theorem setHart_joinFails (s : State) (h : Hart) : (s.setHart h).joinFails = s.joinFails := by unfold State.setHart; split <;> rfl
@[simp] theorem setHart_copies (s : State) (h : Hart) : (s.setHart h).copies = s.copies := by unfold State.setHart; split <;> rfl
@[simp] theorem setHart_posts (s : State) (h : Hart) : (s.setHart h).posts = s.posts := by unfold State.setHart; split <;> rfl
@[simp] theorem setHart_arrays (s : State) (h : Hart) : (s.setHart h).arrays = s.arrays := by unfold State.setHart; split <;> rfl
@[simp] theorem setHart_sends (s : State) (h : Hart) : (s.setHart h).sends = s.sends := by unfold State.setHart; split <;> rfl
@[simp] theorem setHart_ctxs (s : State) (h : Hart) : (s.setHart h).ctxs = s.ctxs := by unfold State.setHart; split <;> rfl
@[simp] theorem setHart_parts (s : State) (h : Hart) : (s.setHart h).parts = s.parts := by unfold State.setHart; split <;> rfl
@[simp] theorem setHart_switches (s : State) (h : Hart) : (s.setHart h).switches = s.switches := by unfold State.setHart; split <;> rfl
@[simp] theorem setHart_images (s : State) (h : Hart) : (s.setHart h).images = s.images := by unfold State.setHart; split <;> rfl
@[simp] theorem setHart_saves (s : State) (h : Hart) : (s.setHart h).saves = s.saves := by unfold State.setHart; split <;> rfl
@[simp] theorem setHart_dist (s : State) (h : Hart) : (s.setHart h).dist = s.dist := by unfold State.setHart; split <;> rfl
@[simp] theorem setHart_trust (s : State) (h : Hart) : (s.setHart h).trust = s.trust := by unfold State.setHart; split <;> rfl
@[simp] theorem setHart_host (s : State) (h : Hart) : (s.setHart h).host = s.host := by unfold State.setHart; split <;> rfl
@[simp] theorem setHart_fabric (s : State) (h : Hart) : (s.setHart h).fabric = s.fabric := by unfold State.setHart; split <;> rfl
@[simp] theorem setHart_plant (s : State) (h : Hart) : (s.setHart h).plant = s.plant := by unfold State.setHart; split <;> rfl
@[simp] theorem setHart_oper (s : State) (h : Hart) : (s.setHart h).oper = s.oper := by unfold State.setHart; split <;> rfl
@[simp] theorem setHart_time (s : State) (h : Hart) : (s.setHart h).time = s.time := by unfold State.setHart; split <;> rfl
@[simp] theorem setHart_nTicks (s : State) (h : Hart) : (s.setHart h).nTicks = s.nTicks := by unfold State.setHart; split <;> rfl
@[simp] theorem setHart_dTicks (s : State) (h : Hart) : (s.setHart h).dTicks = s.dTicks := by unfold State.setHart; split <;> rfl
@[simp] theorem setHart_tally (s : State) (h : Hart) : (s.setHart h).tally = s.tally := by unfold State.setHart; split <;> rfl
@[simp] theorem setHart_pkg (s : State) (h : Hart) : (s.setHart h).pkg = s.pkg := by unfold State.setHart; split <;> rfl
@[simp] theorem setHart_agenda (s : State) (h : Hart) : (s.setHart h).agenda = s.agenda := by unfold State.setHart; split <;> rfl
@[simp] theorem setHart_turn (s : State) (h : Hart) : (s.setHart h).turn = s.turn := by unfold State.setHart; split <;> rfl
@[simp] theorem withHart_cores (s : State) (w : Who) (f : Hart → Hart) : (s.withHart w f).cores = s.cores := setHart_cores _ _
@[simp] theorem withHart_mem (s : State) (w : Who) (f : Hart → Hart) : (s.withHart w f).mem = s.mem := setHart_mem _ _
@[simp] theorem withHart_tlb (s : State) (w : Who) (f : Hart → Hart) : (s.withHart w f).tlb = s.tlb := setHart_tlb _ _
@[simp] theorem withHart_past (s : State) (w : Who) (f : Hart → Hart) : (s.withHart w f).past = s.past := setHart_past _ _
@[simp] theorem withHart_stamps (s : State) (w : Who) (f : Hart → Hart) : (s.withHart w f).stamps = s.stamps := setHart_stamps _ _
@[simp] theorem withHart_syncs (s : State) (w : Who) (f : Hart → Hart) : (s.withHart w f).syncs = s.syncs := setHart_syncs _ _
@[simp] theorem withHart_walks (s : State) (w : Who) (f : Hart → Hart) : (s.withHart w f).walks = s.walks := setHart_walks _ _
@[simp] theorem withHart_poison (s : State) (w : Who) (f : Hart → Hart) : (s.withHart w f).poison = s.poison := setHart_poison _ _
@[simp] theorem withHart_lines (s : State) (w : Who) (f : Hart → Hart) : (s.withHart w f).lines = s.lines := setHart_lines _ _
@[simp] theorem withHart_rdc (s : State) (w : Who) (f : Hart → Hart) : (s.withHart w f).rdc = s.rdc := setHart_rdc _ _
@[simp] theorem withHart_windows (s : State) (w : Who) (f : Hart → Hart) : (s.withHart w f).windows = s.windows := setHart_windows _ _
@[simp] theorem withHart_home (s : State) (w : Who) (f : Hart → Hart) : (s.withHart w f).home = s.home := setHart_home _ _
@[simp] theorem withHart_net (s : State) (w : Who) (f : Hart → Hart) : (s.withHart w f).net = s.net := setHart_net _ _
@[simp] theorem withHart_pps (s : State) (w : Who) (f : Hart → Hart) : (s.withHart w f).pps = s.pps := setHart_pps _ _
@[simp] theorem withHart_replies (s : State) (w : Who) (f : Hart → Hart) : (s.withHart w f).replies = s.replies := setHart_replies _ _
@[simp] theorem withHart_joinFails (s : State) (w : Who) (f : Hart → Hart) : (s.withHart w f).joinFails = s.joinFails := setHart_joinFails _ _
@[simp] theorem withHart_copies (s : State) (w : Who) (f : Hart → Hart) : (s.withHart w f).copies = s.copies := setHart_copies _ _
@[simp] theorem withHart_posts (s : State) (w : Who) (f : Hart → Hart) : (s.withHart w f).posts = s.posts := setHart_posts _ _
@[simp] theorem withHart_arrays (s : State) (w : Who) (f : Hart → Hart) : (s.withHart w f).arrays = s.arrays := setHart_arrays _ _
@[simp] theorem withHart_sends (s : State) (w : Who) (f : Hart → Hart) : (s.withHart w f).sends = s.sends := setHart_sends _ _
@[simp] theorem withHart_ctxs (s : State) (w : Who) (f : Hart → Hart) : (s.withHart w f).ctxs = s.ctxs := setHart_ctxs _ _
@[simp] theorem withHart_parts (s : State) (w : Who) (f : Hart → Hart) : (s.withHart w f).parts = s.parts := setHart_parts _ _
@[simp] theorem withHart_switches (s : State) (w : Who) (f : Hart → Hart) : (s.withHart w f).switches = s.switches := setHart_switches _ _
@[simp] theorem withHart_images (s : State) (w : Who) (f : Hart → Hart) : (s.withHart w f).images = s.images := setHart_images _ _
@[simp] theorem withHart_saves (s : State) (w : Who) (f : Hart → Hart) : (s.withHart w f).saves = s.saves := setHart_saves _ _
@[simp] theorem withHart_dist (s : State) (w : Who) (f : Hart → Hart) : (s.withHart w f).dist = s.dist := setHart_dist _ _
@[simp] theorem withHart_trust (s : State) (w : Who) (f : Hart → Hart) : (s.withHart w f).trust = s.trust := setHart_trust _ _
@[simp] theorem withHart_host (s : State) (w : Who) (f : Hart → Hart) : (s.withHart w f).host = s.host := setHart_host _ _
@[simp] theorem withHart_fabric (s : State) (w : Who) (f : Hart → Hart) : (s.withHart w f).fabric = s.fabric := setHart_fabric _ _
@[simp] theorem withHart_plant (s : State) (w : Who) (f : Hart → Hart) : (s.withHart w f).plant = s.plant := setHart_plant _ _
@[simp] theorem withHart_oper (s : State) (w : Who) (f : Hart → Hart) : (s.withHart w f).oper = s.oper := setHart_oper _ _
@[simp] theorem withHart_time (s : State) (w : Who) (f : Hart → Hart) : (s.withHart w f).time = s.time := setHart_time _ _
@[simp] theorem withHart_nTicks (s : State) (w : Who) (f : Hart → Hart) : (s.withHart w f).nTicks = s.nTicks := setHart_nTicks _ _
@[simp] theorem withHart_dTicks (s : State) (w : Who) (f : Hart → Hart) : (s.withHart w f).dTicks = s.dTicks := setHart_dTicks _ _
@[simp] theorem withHart_tally (s : State) (w : Who) (f : Hart → Hart) : (s.withHart w f).tally = s.tally := setHart_tally _ _
@[simp] theorem withHart_pkg (s : State) (w : Who) (f : Hart → Hart) : (s.withHart w f).pkg = s.pkg := setHart_pkg _ _
@[simp] theorem withHart_agenda (s : State) (w : Who) (f : Hart → Hart) : (s.withHart w f).agenda = s.agenda := setHart_agenda _ _
@[simp] theorem withHart_turn (s : State) (w : Who) (f : Hart → Hart) : (s.withHart w f).turn = s.turn := setHart_turn _ _
@[simp] theorem focus_cores (s : State) (w : Who) : (s.focus w).cores = s.cores := by unfold State.focus; split <;> rfl
@[simp] theorem focus_mem (s : State) (w : Who) : (s.focus w).mem = s.mem := by unfold State.focus; split <;> rfl
@[simp] theorem focus_tlb (s : State) (w : Who) : (s.focus w).tlb = s.tlb := by unfold State.focus; split <;> rfl
@[simp] theorem focus_past (s : State) (w : Who) : (s.focus w).past = s.past := by unfold State.focus; split <;> rfl
@[simp] theorem focus_stamps (s : State) (w : Who) : (s.focus w).stamps = s.stamps := by unfold State.focus; split <;> rfl
@[simp] theorem focus_syncs (s : State) (w : Who) : (s.focus w).syncs = s.syncs := by unfold State.focus; split <;> rfl
@[simp] theorem focus_walks (s : State) (w : Who) : (s.focus w).walks = s.walks := by unfold State.focus; split <;> rfl
@[simp] theorem focus_poison (s : State) (w : Who) : (s.focus w).poison = s.poison := by unfold State.focus; split <;> rfl
@[simp] theorem focus_lines (s : State) (w : Who) : (s.focus w).lines = s.lines := by unfold State.focus; split <;> rfl
@[simp] theorem focus_rdc (s : State) (w : Who) : (s.focus w).rdc = s.rdc := by unfold State.focus; split <;> rfl
@[simp] theorem focus_windows (s : State) (w : Who) : (s.focus w).windows = s.windows := by unfold State.focus; split <;> rfl
@[simp] theorem focus_home (s : State) (w : Who) : (s.focus w).home = s.home := by unfold State.focus; split <;> rfl
@[simp] theorem focus_net (s : State) (w : Who) : (s.focus w).net = s.net := by unfold State.focus; split <;> rfl
@[simp] theorem focus_pps (s : State) (w : Who) : (s.focus w).pps = s.pps := by unfold State.focus; split <;> rfl
@[simp] theorem focus_replies (s : State) (w : Who) : (s.focus w).replies = s.replies := by unfold State.focus; split <;> rfl
@[simp] theorem focus_joinFails (s : State) (w : Who) : (s.focus w).joinFails = s.joinFails := by unfold State.focus; split <;> rfl
@[simp] theorem focus_copies (s : State) (w : Who) : (s.focus w).copies = s.copies := by unfold State.focus; split <;> rfl
@[simp] theorem focus_posts (s : State) (w : Who) : (s.focus w).posts = s.posts := by unfold State.focus; split <;> rfl
@[simp] theorem focus_arrays (s : State) (w : Who) : (s.focus w).arrays = s.arrays := by unfold State.focus; split <;> rfl
@[simp] theorem focus_sends (s : State) (w : Who) : (s.focus w).sends = s.sends := by unfold State.focus; split <;> rfl
@[simp] theorem focus_ctxs (s : State) (w : Who) : (s.focus w).ctxs = s.ctxs := by unfold State.focus; split <;> rfl
@[simp] theorem focus_parts (s : State) (w : Who) : (s.focus w).parts = s.parts := by unfold State.focus; split <;> rfl
@[simp] theorem focus_switches (s : State) (w : Who) : (s.focus w).switches = s.switches := by unfold State.focus; split <;> rfl
@[simp] theorem focus_images (s : State) (w : Who) : (s.focus w).images = s.images := by unfold State.focus; split <;> rfl
@[simp] theorem focus_saves (s : State) (w : Who) : (s.focus w).saves = s.saves := by unfold State.focus; split <;> rfl
@[simp] theorem focus_dist (s : State) (w : Who) : (s.focus w).dist = s.dist := by unfold State.focus; split <;> rfl
@[simp] theorem focus_trust (s : State) (w : Who) : (s.focus w).trust = s.trust := by unfold State.focus; split <;> rfl
@[simp] theorem focus_host (s : State) (w : Who) : (s.focus w).host = s.host := by unfold State.focus; split <;> rfl
@[simp] theorem focus_fabric (s : State) (w : Who) : (s.focus w).fabric = s.fabric := by unfold State.focus; split <;> rfl
@[simp] theorem focus_plant (s : State) (w : Who) : (s.focus w).plant = s.plant := by unfold State.focus; split <;> rfl
@[simp] theorem focus_oper (s : State) (w : Who) : (s.focus w).oper = s.oper := by unfold State.focus; split <;> rfl
@[simp] theorem focus_time (s : State) (w : Who) : (s.focus w).time = s.time := by unfold State.focus; split <;> rfl
@[simp] theorem focus_nTicks (s : State) (w : Who) : (s.focus w).nTicks = s.nTicks := by unfold State.focus; split <;> rfl
@[simp] theorem focus_dTicks (s : State) (w : Who) : (s.focus w).dTicks = s.dTicks := by unfold State.focus; split <;> rfl
@[simp] theorem focus_tally (s : State) (w : Who) : (s.focus w).tally = s.tally := by unfold State.focus; split <;> rfl
@[simp] theorem focus_pkg (s : State) (w : Who) : (s.focus w).pkg = s.pkg := by unfold State.focus; split <;> rfl
@[simp] theorem focus_agenda (s : State) (w : Who) : (s.focus w).agenda = s.agenda := by unfold State.focus; split <;> rfl
@[simp] theorem focus_turn (s : State) (w : Who) : (s.focus w).turn = s.turn := by unfold State.focus; split <;> rfl
@[simp] theorem setPp_cur (s : State) (p : Pp) : (s.setPp p).cur = s.cur := rfl
@[simp] theorem setPp_harts (s : State) (p : Pp) : (s.setPp p).harts = s.harts := rfl
@[simp] theorem setPp_cores (s : State) (p : Pp) : (s.setPp p).cores = s.cores := rfl
@[simp] theorem setPp_mem (s : State) (p : Pp) : (s.setPp p).mem = s.mem := rfl
@[simp] theorem setPp_tlb (s : State) (p : Pp) : (s.setPp p).tlb = s.tlb := rfl
@[simp] theorem setPp_past (s : State) (p : Pp) : (s.setPp p).past = s.past := rfl
@[simp] theorem setPp_stamps (s : State) (p : Pp) : (s.setPp p).stamps = s.stamps := rfl
@[simp] theorem setPp_syncs (s : State) (p : Pp) : (s.setPp p).syncs = s.syncs := rfl
@[simp] theorem setPp_walks (s : State) (p : Pp) : (s.setPp p).walks = s.walks := rfl
@[simp] theorem setPp_poison (s : State) (p : Pp) : (s.setPp p).poison = s.poison := rfl
@[simp] theorem setPp_lines (s : State) (p : Pp) : (s.setPp p).lines = s.lines := rfl
@[simp] theorem setPp_rdc (s : State) (p : Pp) : (s.setPp p).rdc = s.rdc := rfl
@[simp] theorem setPp_windows (s : State) (p : Pp) : (s.setPp p).windows = s.windows := rfl
@[simp] theorem setPp_home (s : State) (p : Pp) : (s.setPp p).home = s.home := rfl
@[simp] theorem setPp_net (s : State) (p : Pp) : (s.setPp p).net = s.net := rfl
@[simp] theorem setPp_replies (s : State) (p : Pp) : (s.setPp p).replies = s.replies := rfl
@[simp] theorem setPp_joinFails (s : State) (p : Pp) : (s.setPp p).joinFails = s.joinFails := rfl
@[simp] theorem setPp_copies (s : State) (p : Pp) : (s.setPp p).copies = s.copies := rfl
@[simp] theorem setPp_posts (s : State) (p : Pp) : (s.setPp p).posts = s.posts := rfl
@[simp] theorem setPp_arrays (s : State) (p : Pp) : (s.setPp p).arrays = s.arrays := rfl
@[simp] theorem setPp_sends (s : State) (p : Pp) : (s.setPp p).sends = s.sends := rfl
@[simp] theorem setPp_ctxs (s : State) (p : Pp) : (s.setPp p).ctxs = s.ctxs := rfl
@[simp] theorem setPp_parts (s : State) (p : Pp) : (s.setPp p).parts = s.parts := rfl
@[simp] theorem setPp_switches (s : State) (p : Pp) : (s.setPp p).switches = s.switches := rfl
@[simp] theorem setPp_images (s : State) (p : Pp) : (s.setPp p).images = s.images := rfl
@[simp] theorem setPp_saves (s : State) (p : Pp) : (s.setPp p).saves = s.saves := rfl
@[simp] theorem setPp_dist (s : State) (p : Pp) : (s.setPp p).dist = s.dist := rfl
@[simp] theorem setPp_trust (s : State) (p : Pp) : (s.setPp p).trust = s.trust := rfl
@[simp] theorem setPp_host (s : State) (p : Pp) : (s.setPp p).host = s.host := rfl
@[simp] theorem setPp_fabric (s : State) (p : Pp) : (s.setPp p).fabric = s.fabric := rfl
@[simp] theorem setPp_plant (s : State) (p : Pp) : (s.setPp p).plant = s.plant := rfl
@[simp] theorem setPp_oper (s : State) (p : Pp) : (s.setPp p).oper = s.oper := rfl
@[simp] theorem setPp_time (s : State) (p : Pp) : (s.setPp p).time = s.time := rfl
@[simp] theorem setPp_nTicks (s : State) (p : Pp) : (s.setPp p).nTicks = s.nTicks := rfl
@[simp] theorem setPp_dTicks (s : State) (p : Pp) : (s.setPp p).dTicks = s.dTicks := rfl
@[simp] theorem setPp_tally (s : State) (p : Pp) : (s.setPp p).tally = s.tally := rfl
@[simp] theorem setPp_pkg (s : State) (p : Pp) : (s.setPp p).pkg = s.pkg := rfl
@[simp] theorem setPp_agenda (s : State) (p : Pp) : (s.setPp p).agenda = s.agenda := rfl
@[simp] theorem setPp_turn (s : State) (p : Pp) : (s.setPp p).turn = s.turn := rfl
@[simp] theorem withPp_cur (s : State) (p : PpId) (f : Pp → Pp) : (s.withPp p f).cur = s.cur := rfl
@[simp] theorem withPp_harts (s : State) (p : PpId) (f : Pp → Pp) : (s.withPp p f).harts = s.harts := rfl
@[simp] theorem withPp_cores (s : State) (p : PpId) (f : Pp → Pp) : (s.withPp p f).cores = s.cores := rfl
@[simp] theorem withPp_mem (s : State) (p : PpId) (f : Pp → Pp) : (s.withPp p f).mem = s.mem := rfl
@[simp] theorem withPp_tlb (s : State) (p : PpId) (f : Pp → Pp) : (s.withPp p f).tlb = s.tlb := rfl
@[simp] theorem withPp_past (s : State) (p : PpId) (f : Pp → Pp) : (s.withPp p f).past = s.past := rfl
@[simp] theorem withPp_stamps (s : State) (p : PpId) (f : Pp → Pp) : (s.withPp p f).stamps = s.stamps := rfl
@[simp] theorem withPp_syncs (s : State) (p : PpId) (f : Pp → Pp) : (s.withPp p f).syncs = s.syncs := rfl
@[simp] theorem withPp_walks (s : State) (p : PpId) (f : Pp → Pp) : (s.withPp p f).walks = s.walks := rfl
@[simp] theorem withPp_poison (s : State) (p : PpId) (f : Pp → Pp) : (s.withPp p f).poison = s.poison := rfl
@[simp] theorem withPp_lines (s : State) (p : PpId) (f : Pp → Pp) : (s.withPp p f).lines = s.lines := rfl
@[simp] theorem withPp_rdc (s : State) (p : PpId) (f : Pp → Pp) : (s.withPp p f).rdc = s.rdc := rfl
@[simp] theorem withPp_windows (s : State) (p : PpId) (f : Pp → Pp) : (s.withPp p f).windows = s.windows := rfl
@[simp] theorem withPp_home (s : State) (p : PpId) (f : Pp → Pp) : (s.withPp p f).home = s.home := rfl
@[simp] theorem withPp_net (s : State) (p : PpId) (f : Pp → Pp) : (s.withPp p f).net = s.net := rfl
@[simp] theorem withPp_replies (s : State) (p : PpId) (f : Pp → Pp) : (s.withPp p f).replies = s.replies := rfl
@[simp] theorem withPp_joinFails (s : State) (p : PpId) (f : Pp → Pp) : (s.withPp p f).joinFails = s.joinFails := rfl
@[simp] theorem withPp_copies (s : State) (p : PpId) (f : Pp → Pp) : (s.withPp p f).copies = s.copies := rfl
@[simp] theorem withPp_posts (s : State) (p : PpId) (f : Pp → Pp) : (s.withPp p f).posts = s.posts := rfl
@[simp] theorem withPp_arrays (s : State) (p : PpId) (f : Pp → Pp) : (s.withPp p f).arrays = s.arrays := rfl
@[simp] theorem withPp_sends (s : State) (p : PpId) (f : Pp → Pp) : (s.withPp p f).sends = s.sends := rfl
@[simp] theorem withPp_ctxs (s : State) (p : PpId) (f : Pp → Pp) : (s.withPp p f).ctxs = s.ctxs := rfl
@[simp] theorem withPp_parts (s : State) (p : PpId) (f : Pp → Pp) : (s.withPp p f).parts = s.parts := rfl
@[simp] theorem withPp_switches (s : State) (p : PpId) (f : Pp → Pp) : (s.withPp p f).switches = s.switches := rfl
@[simp] theorem withPp_images (s : State) (p : PpId) (f : Pp → Pp) : (s.withPp p f).images = s.images := rfl
@[simp] theorem withPp_saves (s : State) (p : PpId) (f : Pp → Pp) : (s.withPp p f).saves = s.saves := rfl
@[simp] theorem withPp_dist (s : State) (p : PpId) (f : Pp → Pp) : (s.withPp p f).dist = s.dist := rfl
@[simp] theorem withPp_trust (s : State) (p : PpId) (f : Pp → Pp) : (s.withPp p f).trust = s.trust := rfl
@[simp] theorem withPp_host (s : State) (p : PpId) (f : Pp → Pp) : (s.withPp p f).host = s.host := rfl
@[simp] theorem withPp_fabric (s : State) (p : PpId) (f : Pp → Pp) : (s.withPp p f).fabric = s.fabric := rfl
@[simp] theorem withPp_plant (s : State) (p : PpId) (f : Pp → Pp) : (s.withPp p f).plant = s.plant := rfl
@[simp] theorem withPp_oper (s : State) (p : PpId) (f : Pp → Pp) : (s.withPp p f).oper = s.oper := rfl
@[simp] theorem withPp_time (s : State) (p : PpId) (f : Pp → Pp) : (s.withPp p f).time = s.time := rfl
@[simp] theorem withPp_nTicks (s : State) (p : PpId) (f : Pp → Pp) : (s.withPp p f).nTicks = s.nTicks := rfl
@[simp] theorem withPp_dTicks (s : State) (p : PpId) (f : Pp → Pp) : (s.withPp p f).dTicks = s.dTicks := rfl
@[simp] theorem withPp_tally (s : State) (p : PpId) (f : Pp → Pp) : (s.withPp p f).tally = s.tally := rfl
@[simp] theorem withPp_pkg (s : State) (p : PpId) (f : Pp → Pp) : (s.withPp p f).pkg = s.pkg := rfl
@[simp] theorem withPp_agenda (s : State) (p : PpId) (f : Pp → Pp) : (s.withPp p f).agenda = s.agenda := rfl
@[simp] theorem withPp_turn (s : State) (p : PpId) (f : Pp → Pp) : (s.withPp p f).turn = s.turn := rfl
@[simp] theorem withCtx_cur (s : State) (n : CtxNo) (f : Ctx → Ctx) : (s.withCtx n f).cur = s.cur := rfl
@[simp] theorem withCtx_harts (s : State) (n : CtxNo) (f : Ctx → Ctx) : (s.withCtx n f).harts = s.harts := rfl
@[simp] theorem withCtx_cores (s : State) (n : CtxNo) (f : Ctx → Ctx) : (s.withCtx n f).cores = s.cores := rfl
@[simp] theorem withCtx_mem (s : State) (n : CtxNo) (f : Ctx → Ctx) : (s.withCtx n f).mem = s.mem := rfl
@[simp] theorem withCtx_tlb (s : State) (n : CtxNo) (f : Ctx → Ctx) : (s.withCtx n f).tlb = s.tlb := rfl
@[simp] theorem withCtx_past (s : State) (n : CtxNo) (f : Ctx → Ctx) : (s.withCtx n f).past = s.past := rfl
@[simp] theorem withCtx_stamps (s : State) (n : CtxNo) (f : Ctx → Ctx) : (s.withCtx n f).stamps = s.stamps := rfl
@[simp] theorem withCtx_syncs (s : State) (n : CtxNo) (f : Ctx → Ctx) : (s.withCtx n f).syncs = s.syncs := rfl
@[simp] theorem withCtx_walks (s : State) (n : CtxNo) (f : Ctx → Ctx) : (s.withCtx n f).walks = s.walks := rfl
@[simp] theorem withCtx_poison (s : State) (n : CtxNo) (f : Ctx → Ctx) : (s.withCtx n f).poison = s.poison := rfl
@[simp] theorem withCtx_lines (s : State) (n : CtxNo) (f : Ctx → Ctx) : (s.withCtx n f).lines = s.lines := rfl
@[simp] theorem withCtx_rdc (s : State) (n : CtxNo) (f : Ctx → Ctx) : (s.withCtx n f).rdc = s.rdc := rfl
@[simp] theorem withCtx_windows (s : State) (n : CtxNo) (f : Ctx → Ctx) : (s.withCtx n f).windows = s.windows := rfl
@[simp] theorem withCtx_home (s : State) (n : CtxNo) (f : Ctx → Ctx) : (s.withCtx n f).home = s.home := rfl
@[simp] theorem withCtx_net (s : State) (n : CtxNo) (f : Ctx → Ctx) : (s.withCtx n f).net = s.net := rfl
@[simp] theorem withCtx_pps (s : State) (n : CtxNo) (f : Ctx → Ctx) : (s.withCtx n f).pps = s.pps := rfl
@[simp] theorem withCtx_replies (s : State) (n : CtxNo) (f : Ctx → Ctx) : (s.withCtx n f).replies = s.replies := rfl
@[simp] theorem withCtx_joinFails (s : State) (n : CtxNo) (f : Ctx → Ctx) : (s.withCtx n f).joinFails = s.joinFails := rfl
@[simp] theorem withCtx_copies (s : State) (n : CtxNo) (f : Ctx → Ctx) : (s.withCtx n f).copies = s.copies := rfl
@[simp] theorem withCtx_posts (s : State) (n : CtxNo) (f : Ctx → Ctx) : (s.withCtx n f).posts = s.posts := rfl
@[simp] theorem withCtx_arrays (s : State) (n : CtxNo) (f : Ctx → Ctx) : (s.withCtx n f).arrays = s.arrays := rfl
@[simp] theorem withCtx_sends (s : State) (n : CtxNo) (f : Ctx → Ctx) : (s.withCtx n f).sends = s.sends := rfl
@[simp] theorem withCtx_parts (s : State) (n : CtxNo) (f : Ctx → Ctx) : (s.withCtx n f).parts = s.parts := rfl
@[simp] theorem withCtx_switches (s : State) (n : CtxNo) (f : Ctx → Ctx) : (s.withCtx n f).switches = s.switches := rfl
@[simp] theorem withCtx_images (s : State) (n : CtxNo) (f : Ctx → Ctx) : (s.withCtx n f).images = s.images := rfl
@[simp] theorem withCtx_saves (s : State) (n : CtxNo) (f : Ctx → Ctx) : (s.withCtx n f).saves = s.saves := rfl
@[simp] theorem withCtx_dist (s : State) (n : CtxNo) (f : Ctx → Ctx) : (s.withCtx n f).dist = s.dist := rfl
@[simp] theorem withCtx_trust (s : State) (n : CtxNo) (f : Ctx → Ctx) : (s.withCtx n f).trust = s.trust := rfl
@[simp] theorem withCtx_host (s : State) (n : CtxNo) (f : Ctx → Ctx) : (s.withCtx n f).host = s.host := rfl
@[simp] theorem withCtx_fabric (s : State) (n : CtxNo) (f : Ctx → Ctx) : (s.withCtx n f).fabric = s.fabric := rfl
@[simp] theorem withCtx_plant (s : State) (n : CtxNo) (f : Ctx → Ctx) : (s.withCtx n f).plant = s.plant := rfl
@[simp] theorem withCtx_oper (s : State) (n : CtxNo) (f : Ctx → Ctx) : (s.withCtx n f).oper = s.oper := rfl
@[simp] theorem withCtx_time (s : State) (n : CtxNo) (f : Ctx → Ctx) : (s.withCtx n f).time = s.time := rfl
@[simp] theorem withCtx_nTicks (s : State) (n : CtxNo) (f : Ctx → Ctx) : (s.withCtx n f).nTicks = s.nTicks := rfl
@[simp] theorem withCtx_dTicks (s : State) (n : CtxNo) (f : Ctx → Ctx) : (s.withCtx n f).dTicks = s.dTicks := rfl
@[simp] theorem withCtx_tally (s : State) (n : CtxNo) (f : Ctx → Ctx) : (s.withCtx n f).tally = s.tally := rfl
@[simp] theorem withCtx_pkg (s : State) (n : CtxNo) (f : Ctx → Ctx) : (s.withCtx n f).pkg = s.pkg := rfl
@[simp] theorem withCtx_agenda (s : State) (n : CtxNo) (f : Ctx → Ctx) : (s.withCtx n f).agenda = s.agenda := rfl
@[simp] theorem withCtx_turn (s : State) (n : CtxNo) (f : Ctx → Ctx) : (s.withCtx n f).turn = s.turn := rfl
@[simp] theorem withPart_cur (s : State) (p : Nat) (f : Partition → Partition) : (s.withPart p f).cur = s.cur := rfl
@[simp] theorem withPart_harts (s : State) (p : Nat) (f : Partition → Partition) : (s.withPart p f).harts = s.harts := rfl
@[simp] theorem withPart_cores (s : State) (p : Nat) (f : Partition → Partition) : (s.withPart p f).cores = s.cores := rfl
@[simp] theorem withPart_mem (s : State) (p : Nat) (f : Partition → Partition) : (s.withPart p f).mem = s.mem := rfl
@[simp] theorem withPart_tlb (s : State) (p : Nat) (f : Partition → Partition) : (s.withPart p f).tlb = s.tlb := rfl
@[simp] theorem withPart_past (s : State) (p : Nat) (f : Partition → Partition) : (s.withPart p f).past = s.past := rfl
@[simp] theorem withPart_stamps (s : State) (p : Nat) (f : Partition → Partition) : (s.withPart p f).stamps = s.stamps := rfl
@[simp] theorem withPart_syncs (s : State) (p : Nat) (f : Partition → Partition) : (s.withPart p f).syncs = s.syncs := rfl
@[simp] theorem withPart_walks (s : State) (p : Nat) (f : Partition → Partition) : (s.withPart p f).walks = s.walks := rfl
@[simp] theorem withPart_poison (s : State) (p : Nat) (f : Partition → Partition) : (s.withPart p f).poison = s.poison := rfl
@[simp] theorem withPart_lines (s : State) (p : Nat) (f : Partition → Partition) : (s.withPart p f).lines = s.lines := rfl
@[simp] theorem withPart_rdc (s : State) (p : Nat) (f : Partition → Partition) : (s.withPart p f).rdc = s.rdc := rfl
@[simp] theorem withPart_windows (s : State) (p : Nat) (f : Partition → Partition) : (s.withPart p f).windows = s.windows := rfl
@[simp] theorem withPart_home (s : State) (p : Nat) (f : Partition → Partition) : (s.withPart p f).home = s.home := rfl
@[simp] theorem withPart_net (s : State) (p : Nat) (f : Partition → Partition) : (s.withPart p f).net = s.net := rfl
@[simp] theorem withPart_pps (s : State) (p : Nat) (f : Partition → Partition) : (s.withPart p f).pps = s.pps := rfl
@[simp] theorem withPart_replies (s : State) (p : Nat) (f : Partition → Partition) : (s.withPart p f).replies = s.replies := rfl
@[simp] theorem withPart_joinFails (s : State) (p : Nat) (f : Partition → Partition) : (s.withPart p f).joinFails = s.joinFails := rfl
@[simp] theorem withPart_copies (s : State) (p : Nat) (f : Partition → Partition) : (s.withPart p f).copies = s.copies := rfl
@[simp] theorem withPart_posts (s : State) (p : Nat) (f : Partition → Partition) : (s.withPart p f).posts = s.posts := rfl
@[simp] theorem withPart_arrays (s : State) (p : Nat) (f : Partition → Partition) : (s.withPart p f).arrays = s.arrays := rfl
@[simp] theorem withPart_sends (s : State) (p : Nat) (f : Partition → Partition) : (s.withPart p f).sends = s.sends := rfl
@[simp] theorem withPart_ctxs (s : State) (p : Nat) (f : Partition → Partition) : (s.withPart p f).ctxs = s.ctxs := rfl
@[simp] theorem withPart_switches (s : State) (p : Nat) (f : Partition → Partition) : (s.withPart p f).switches = s.switches := rfl
@[simp] theorem withPart_images (s : State) (p : Nat) (f : Partition → Partition) : (s.withPart p f).images = s.images := rfl
@[simp] theorem withPart_saves (s : State) (p : Nat) (f : Partition → Partition) : (s.withPart p f).saves = s.saves := rfl
@[simp] theorem withPart_dist (s : State) (p : Nat) (f : Partition → Partition) : (s.withPart p f).dist = s.dist := rfl
@[simp] theorem withPart_trust (s : State) (p : Nat) (f : Partition → Partition) : (s.withPart p f).trust = s.trust := rfl
@[simp] theorem withPart_host (s : State) (p : Nat) (f : Partition → Partition) : (s.withPart p f).host = s.host := rfl
@[simp] theorem withPart_fabric (s : State) (p : Nat) (f : Partition → Partition) : (s.withPart p f).fabric = s.fabric := rfl
@[simp] theorem withPart_plant (s : State) (p : Nat) (f : Partition → Partition) : (s.withPart p f).plant = s.plant := rfl
@[simp] theorem withPart_oper (s : State) (p : Nat) (f : Partition → Partition) : (s.withPart p f).oper = s.oper := rfl
@[simp] theorem withPart_time (s : State) (p : Nat) (f : Partition → Partition) : (s.withPart p f).time = s.time := rfl
@[simp] theorem withPart_nTicks (s : State) (p : Nat) (f : Partition → Partition) : (s.withPart p f).nTicks = s.nTicks := rfl
@[simp] theorem withPart_dTicks (s : State) (p : Nat) (f : Partition → Partition) : (s.withPart p f).dTicks = s.dTicks := rfl
@[simp] theorem withPart_tally (s : State) (p : Nat) (f : Partition → Partition) : (s.withPart p f).tally = s.tally := rfl
@[simp] theorem withPart_pkg (s : State) (p : Nat) (f : Partition → Partition) : (s.withPart p f).pkg = s.pkg := rfl
@[simp] theorem withPart_agenda (s : State) (p : Nat) (f : Partition → Partition) : (s.withPart p f).agenda = s.agenda := rfl
@[simp] theorem withPart_turn (s : State) (p : Nat) (f : Partition → Partition) : (s.withPart p f).turn = s.turn := rfl
@[simp] theorem setCopy_cur (s : State) (q : Copy) : (s.setCopy q).cur = s.cur := rfl
@[simp] theorem setCopy_harts (s : State) (q : Copy) : (s.setCopy q).harts = s.harts := rfl
@[simp] theorem setCopy_cores (s : State) (q : Copy) : (s.setCopy q).cores = s.cores := rfl
@[simp] theorem setCopy_mem (s : State) (q : Copy) : (s.setCopy q).mem = s.mem := rfl
@[simp] theorem setCopy_tlb (s : State) (q : Copy) : (s.setCopy q).tlb = s.tlb := rfl
@[simp] theorem setCopy_past (s : State) (q : Copy) : (s.setCopy q).past = s.past := rfl
@[simp] theorem setCopy_stamps (s : State) (q : Copy) : (s.setCopy q).stamps = s.stamps := rfl
@[simp] theorem setCopy_syncs (s : State) (q : Copy) : (s.setCopy q).syncs = s.syncs := rfl
@[simp] theorem setCopy_walks (s : State) (q : Copy) : (s.setCopy q).walks = s.walks := rfl
@[simp] theorem setCopy_poison (s : State) (q : Copy) : (s.setCopy q).poison = s.poison := rfl
@[simp] theorem setCopy_lines (s : State) (q : Copy) : (s.setCopy q).lines = s.lines := rfl
@[simp] theorem setCopy_rdc (s : State) (q : Copy) : (s.setCopy q).rdc = s.rdc := rfl
@[simp] theorem setCopy_windows (s : State) (q : Copy) : (s.setCopy q).windows = s.windows := rfl
@[simp] theorem setCopy_home (s : State) (q : Copy) : (s.setCopy q).home = s.home := rfl
@[simp] theorem setCopy_net (s : State) (q : Copy) : (s.setCopy q).net = s.net := rfl
@[simp] theorem setCopy_pps (s : State) (q : Copy) : (s.setCopy q).pps = s.pps := rfl
@[simp] theorem setCopy_replies (s : State) (q : Copy) : (s.setCopy q).replies = s.replies := rfl
@[simp] theorem setCopy_joinFails (s : State) (q : Copy) : (s.setCopy q).joinFails = s.joinFails := rfl
@[simp] theorem setCopy_posts (s : State) (q : Copy) : (s.setCopy q).posts = s.posts := rfl
@[simp] theorem setCopy_arrays (s : State) (q : Copy) : (s.setCopy q).arrays = s.arrays := rfl
@[simp] theorem setCopy_sends (s : State) (q : Copy) : (s.setCopy q).sends = s.sends := rfl
@[simp] theorem setCopy_ctxs (s : State) (q : Copy) : (s.setCopy q).ctxs = s.ctxs := rfl
@[simp] theorem setCopy_parts (s : State) (q : Copy) : (s.setCopy q).parts = s.parts := rfl
@[simp] theorem setCopy_switches (s : State) (q : Copy) : (s.setCopy q).switches = s.switches := rfl
@[simp] theorem setCopy_images (s : State) (q : Copy) : (s.setCopy q).images = s.images := rfl
@[simp] theorem setCopy_saves (s : State) (q : Copy) : (s.setCopy q).saves = s.saves := rfl
@[simp] theorem setCopy_dist (s : State) (q : Copy) : (s.setCopy q).dist = s.dist := rfl
@[simp] theorem setCopy_trust (s : State) (q : Copy) : (s.setCopy q).trust = s.trust := rfl
@[simp] theorem setCopy_host (s : State) (q : Copy) : (s.setCopy q).host = s.host := rfl
@[simp] theorem setCopy_fabric (s : State) (q : Copy) : (s.setCopy q).fabric = s.fabric := rfl
@[simp] theorem setCopy_plant (s : State) (q : Copy) : (s.setCopy q).plant = s.plant := rfl
@[simp] theorem setCopy_oper (s : State) (q : Copy) : (s.setCopy q).oper = s.oper := rfl
@[simp] theorem setCopy_time (s : State) (q : Copy) : (s.setCopy q).time = s.time := rfl
@[simp] theorem setCopy_nTicks (s : State) (q : Copy) : (s.setCopy q).nTicks = s.nTicks := rfl
@[simp] theorem setCopy_dTicks (s : State) (q : Copy) : (s.setCopy q).dTicks = s.dTicks := rfl
@[simp] theorem setCopy_tally (s : State) (q : Copy) : (s.setCopy q).tally = s.tally := rfl
@[simp] theorem setCopy_pkg (s : State) (q : Copy) : (s.setCopy q).pkg = s.pkg := rfl
@[simp] theorem setCopy_agenda (s : State) (q : Copy) : (s.setCopy q).agenda = s.agenda := rfl
@[simp] theorem setCopy_turn (s : State) (q : Copy) : (s.setCopy q).turn = s.turn := rfl
@[simp] theorem setArray_cur (s : State) (a : MatrixArray) : (s.setArray a).cur = s.cur := rfl
@[simp] theorem setArray_harts (s : State) (a : MatrixArray) : (s.setArray a).harts = s.harts := rfl
@[simp] theorem setArray_cores (s : State) (a : MatrixArray) : (s.setArray a).cores = s.cores := rfl
@[simp] theorem setArray_mem (s : State) (a : MatrixArray) : (s.setArray a).mem = s.mem := rfl
@[simp] theorem setArray_tlb (s : State) (a : MatrixArray) : (s.setArray a).tlb = s.tlb := rfl
@[simp] theorem setArray_past (s : State) (a : MatrixArray) : (s.setArray a).past = s.past := rfl
@[simp] theorem setArray_stamps (s : State) (a : MatrixArray) : (s.setArray a).stamps = s.stamps := rfl
@[simp] theorem setArray_syncs (s : State) (a : MatrixArray) : (s.setArray a).syncs = s.syncs := rfl
@[simp] theorem setArray_walks (s : State) (a : MatrixArray) : (s.setArray a).walks = s.walks := rfl
@[simp] theorem setArray_poison (s : State) (a : MatrixArray) : (s.setArray a).poison = s.poison := rfl
@[simp] theorem setArray_lines (s : State) (a : MatrixArray) : (s.setArray a).lines = s.lines := rfl
@[simp] theorem setArray_rdc (s : State) (a : MatrixArray) : (s.setArray a).rdc = s.rdc := rfl
@[simp] theorem setArray_windows (s : State) (a : MatrixArray) : (s.setArray a).windows = s.windows := rfl
@[simp] theorem setArray_home (s : State) (a : MatrixArray) : (s.setArray a).home = s.home := rfl
@[simp] theorem setArray_net (s : State) (a : MatrixArray) : (s.setArray a).net = s.net := rfl
@[simp] theorem setArray_pps (s : State) (a : MatrixArray) : (s.setArray a).pps = s.pps := rfl
@[simp] theorem setArray_replies (s : State) (a : MatrixArray) : (s.setArray a).replies = s.replies := rfl
@[simp] theorem setArray_joinFails (s : State) (a : MatrixArray) : (s.setArray a).joinFails = s.joinFails := rfl
@[simp] theorem setArray_copies (s : State) (a : MatrixArray) : (s.setArray a).copies = s.copies := rfl
@[simp] theorem setArray_posts (s : State) (a : MatrixArray) : (s.setArray a).posts = s.posts := rfl
@[simp] theorem setArray_sends (s : State) (a : MatrixArray) : (s.setArray a).sends = s.sends := rfl
@[simp] theorem setArray_ctxs (s : State) (a : MatrixArray) : (s.setArray a).ctxs = s.ctxs := rfl
@[simp] theorem setArray_parts (s : State) (a : MatrixArray) : (s.setArray a).parts = s.parts := rfl
@[simp] theorem setArray_switches (s : State) (a : MatrixArray) : (s.setArray a).switches = s.switches := rfl
@[simp] theorem setArray_images (s : State) (a : MatrixArray) : (s.setArray a).images = s.images := rfl
@[simp] theorem setArray_saves (s : State) (a : MatrixArray) : (s.setArray a).saves = s.saves := rfl
@[simp] theorem setArray_dist (s : State) (a : MatrixArray) : (s.setArray a).dist = s.dist := rfl
@[simp] theorem setArray_trust (s : State) (a : MatrixArray) : (s.setArray a).trust = s.trust := rfl
@[simp] theorem setArray_host (s : State) (a : MatrixArray) : (s.setArray a).host = s.host := rfl
@[simp] theorem setArray_fabric (s : State) (a : MatrixArray) : (s.setArray a).fabric = s.fabric := rfl
@[simp] theorem setArray_plant (s : State) (a : MatrixArray) : (s.setArray a).plant = s.plant := rfl
@[simp] theorem setArray_oper (s : State) (a : MatrixArray) : (s.setArray a).oper = s.oper := rfl
@[simp] theorem setArray_time (s : State) (a : MatrixArray) : (s.setArray a).time = s.time := rfl
@[simp] theorem setArray_nTicks (s : State) (a : MatrixArray) : (s.setArray a).nTicks = s.nTicks := rfl
@[simp] theorem setArray_dTicks (s : State) (a : MatrixArray) : (s.setArray a).dTicks = s.dTicks := rfl
@[simp] theorem setArray_tally (s : State) (a : MatrixArray) : (s.setArray a).tally = s.tally := rfl
@[simp] theorem setArray_pkg (s : State) (a : MatrixArray) : (s.setArray a).pkg = s.pkg := rfl
@[simp] theorem setArray_agenda (s : State) (a : MatrixArray) : (s.setArray a).agenda = s.agenda := rfl
@[simp] theorem setArray_turn (s : State) (a : MatrixArray) : (s.setArray a).turn = s.turn := rfl
@[simp] theorem withArray_cur (s : State) (cl : ClusterId) (f : MatrixArray → MatrixArray) : (s.withArray cl f).cur = s.cur := rfl
@[simp] theorem withArray_harts (s : State) (cl : ClusterId) (f : MatrixArray → MatrixArray) : (s.withArray cl f).harts = s.harts := rfl
@[simp] theorem withArray_cores (s : State) (cl : ClusterId) (f : MatrixArray → MatrixArray) : (s.withArray cl f).cores = s.cores := rfl
@[simp] theorem withArray_mem (s : State) (cl : ClusterId) (f : MatrixArray → MatrixArray) : (s.withArray cl f).mem = s.mem := rfl
@[simp] theorem withArray_tlb (s : State) (cl : ClusterId) (f : MatrixArray → MatrixArray) : (s.withArray cl f).tlb = s.tlb := rfl
@[simp] theorem withArray_past (s : State) (cl : ClusterId) (f : MatrixArray → MatrixArray) : (s.withArray cl f).past = s.past := rfl
@[simp] theorem withArray_stamps (s : State) (cl : ClusterId) (f : MatrixArray → MatrixArray) : (s.withArray cl f).stamps = s.stamps := rfl
@[simp] theorem withArray_syncs (s : State) (cl : ClusterId) (f : MatrixArray → MatrixArray) : (s.withArray cl f).syncs = s.syncs := rfl
@[simp] theorem withArray_walks (s : State) (cl : ClusterId) (f : MatrixArray → MatrixArray) : (s.withArray cl f).walks = s.walks := rfl
@[simp] theorem withArray_poison (s : State) (cl : ClusterId) (f : MatrixArray → MatrixArray) : (s.withArray cl f).poison = s.poison := rfl
@[simp] theorem withArray_lines (s : State) (cl : ClusterId) (f : MatrixArray → MatrixArray) : (s.withArray cl f).lines = s.lines := rfl
@[simp] theorem withArray_rdc (s : State) (cl : ClusterId) (f : MatrixArray → MatrixArray) : (s.withArray cl f).rdc = s.rdc := rfl
@[simp] theorem withArray_windows (s : State) (cl : ClusterId) (f : MatrixArray → MatrixArray) : (s.withArray cl f).windows = s.windows := rfl
@[simp] theorem withArray_home (s : State) (cl : ClusterId) (f : MatrixArray → MatrixArray) : (s.withArray cl f).home = s.home := rfl
@[simp] theorem withArray_net (s : State) (cl : ClusterId) (f : MatrixArray → MatrixArray) : (s.withArray cl f).net = s.net := rfl
@[simp] theorem withArray_pps (s : State) (cl : ClusterId) (f : MatrixArray → MatrixArray) : (s.withArray cl f).pps = s.pps := rfl
@[simp] theorem withArray_replies (s : State) (cl : ClusterId) (f : MatrixArray → MatrixArray) : (s.withArray cl f).replies = s.replies := rfl
@[simp] theorem withArray_joinFails (s : State) (cl : ClusterId) (f : MatrixArray → MatrixArray) : (s.withArray cl f).joinFails = s.joinFails := rfl
@[simp] theorem withArray_copies (s : State) (cl : ClusterId) (f : MatrixArray → MatrixArray) : (s.withArray cl f).copies = s.copies := rfl
@[simp] theorem withArray_posts (s : State) (cl : ClusterId) (f : MatrixArray → MatrixArray) : (s.withArray cl f).posts = s.posts := rfl
@[simp] theorem withArray_sends (s : State) (cl : ClusterId) (f : MatrixArray → MatrixArray) : (s.withArray cl f).sends = s.sends := rfl
@[simp] theorem withArray_ctxs (s : State) (cl : ClusterId) (f : MatrixArray → MatrixArray) : (s.withArray cl f).ctxs = s.ctxs := rfl
@[simp] theorem withArray_parts (s : State) (cl : ClusterId) (f : MatrixArray → MatrixArray) : (s.withArray cl f).parts = s.parts := rfl
@[simp] theorem withArray_switches (s : State) (cl : ClusterId) (f : MatrixArray → MatrixArray) : (s.withArray cl f).switches = s.switches := rfl
@[simp] theorem withArray_images (s : State) (cl : ClusterId) (f : MatrixArray → MatrixArray) : (s.withArray cl f).images = s.images := rfl
@[simp] theorem withArray_saves (s : State) (cl : ClusterId) (f : MatrixArray → MatrixArray) : (s.withArray cl f).saves = s.saves := rfl
@[simp] theorem withArray_dist (s : State) (cl : ClusterId) (f : MatrixArray → MatrixArray) : (s.withArray cl f).dist = s.dist := rfl
@[simp] theorem withArray_trust (s : State) (cl : ClusterId) (f : MatrixArray → MatrixArray) : (s.withArray cl f).trust = s.trust := rfl
@[simp] theorem withArray_host (s : State) (cl : ClusterId) (f : MatrixArray → MatrixArray) : (s.withArray cl f).host = s.host := rfl
@[simp] theorem withArray_fabric (s : State) (cl : ClusterId) (f : MatrixArray → MatrixArray) : (s.withArray cl f).fabric = s.fabric := rfl
@[simp] theorem withArray_plant (s : State) (cl : ClusterId) (f : MatrixArray → MatrixArray) : (s.withArray cl f).plant = s.plant := rfl
@[simp] theorem withArray_oper (s : State) (cl : ClusterId) (f : MatrixArray → MatrixArray) : (s.withArray cl f).oper = s.oper := rfl
@[simp] theorem withArray_time (s : State) (cl : ClusterId) (f : MatrixArray → MatrixArray) : (s.withArray cl f).time = s.time := rfl
@[simp] theorem withArray_nTicks (s : State) (cl : ClusterId) (f : MatrixArray → MatrixArray) : (s.withArray cl f).nTicks = s.nTicks := rfl
@[simp] theorem withArray_dTicks (s : State) (cl : ClusterId) (f : MatrixArray → MatrixArray) : (s.withArray cl f).dTicks = s.dTicks := rfl
@[simp] theorem withArray_tally (s : State) (cl : ClusterId) (f : MatrixArray → MatrixArray) : (s.withArray cl f).tally = s.tally := rfl
@[simp] theorem withArray_pkg (s : State) (cl : ClusterId) (f : MatrixArray → MatrixArray) : (s.withArray cl f).pkg = s.pkg := rfl
@[simp] theorem withArray_agenda (s : State) (cl : ClusterId) (f : MatrixArray → MatrixArray) : (s.withArray cl f).agenda = s.agenda := rfl
@[simp] theorem withArray_turn (s : State) (cl : ClusterId) (f : MatrixArray → MatrixArray) : (s.withArray cl f).turn = s.turn := rfl
@[simp] theorem withTrust_cur (s : State) (f : Trust → Trust) : (s.withTrust f).cur = s.cur := rfl
@[simp] theorem withTrust_harts (s : State) (f : Trust → Trust) : (s.withTrust f).harts = s.harts := rfl
@[simp] theorem withTrust_cores (s : State) (f : Trust → Trust) : (s.withTrust f).cores = s.cores := rfl
@[simp] theorem withTrust_mem (s : State) (f : Trust → Trust) : (s.withTrust f).mem = s.mem := rfl
@[simp] theorem withTrust_tlb (s : State) (f : Trust → Trust) : (s.withTrust f).tlb = s.tlb := rfl
@[simp] theorem withTrust_past (s : State) (f : Trust → Trust) : (s.withTrust f).past = s.past := rfl
@[simp] theorem withTrust_stamps (s : State) (f : Trust → Trust) : (s.withTrust f).stamps = s.stamps := rfl
@[simp] theorem withTrust_syncs (s : State) (f : Trust → Trust) : (s.withTrust f).syncs = s.syncs := rfl
@[simp] theorem withTrust_walks (s : State) (f : Trust → Trust) : (s.withTrust f).walks = s.walks := rfl
@[simp] theorem withTrust_poison (s : State) (f : Trust → Trust) : (s.withTrust f).poison = s.poison := rfl
@[simp] theorem withTrust_lines (s : State) (f : Trust → Trust) : (s.withTrust f).lines = s.lines := rfl
@[simp] theorem withTrust_rdc (s : State) (f : Trust → Trust) : (s.withTrust f).rdc = s.rdc := rfl
@[simp] theorem withTrust_windows (s : State) (f : Trust → Trust) : (s.withTrust f).windows = s.windows := rfl
@[simp] theorem withTrust_home (s : State) (f : Trust → Trust) : (s.withTrust f).home = s.home := rfl
@[simp] theorem withTrust_net (s : State) (f : Trust → Trust) : (s.withTrust f).net = s.net := rfl
@[simp] theorem withTrust_pps (s : State) (f : Trust → Trust) : (s.withTrust f).pps = s.pps := rfl
@[simp] theorem withTrust_replies (s : State) (f : Trust → Trust) : (s.withTrust f).replies = s.replies := rfl
@[simp] theorem withTrust_joinFails (s : State) (f : Trust → Trust) : (s.withTrust f).joinFails = s.joinFails := rfl
@[simp] theorem withTrust_copies (s : State) (f : Trust → Trust) : (s.withTrust f).copies = s.copies := rfl
@[simp] theorem withTrust_posts (s : State) (f : Trust → Trust) : (s.withTrust f).posts = s.posts := rfl
@[simp] theorem withTrust_arrays (s : State) (f : Trust → Trust) : (s.withTrust f).arrays = s.arrays := rfl
@[simp] theorem withTrust_sends (s : State) (f : Trust → Trust) : (s.withTrust f).sends = s.sends := rfl
@[simp] theorem withTrust_ctxs (s : State) (f : Trust → Trust) : (s.withTrust f).ctxs = s.ctxs := rfl
@[simp] theorem withTrust_parts (s : State) (f : Trust → Trust) : (s.withTrust f).parts = s.parts := rfl
@[simp] theorem withTrust_switches (s : State) (f : Trust → Trust) : (s.withTrust f).switches = s.switches := rfl
@[simp] theorem withTrust_images (s : State) (f : Trust → Trust) : (s.withTrust f).images = s.images := rfl
@[simp] theorem withTrust_saves (s : State) (f : Trust → Trust) : (s.withTrust f).saves = s.saves := rfl
@[simp] theorem withTrust_dist (s : State) (f : Trust → Trust) : (s.withTrust f).dist = s.dist := rfl
@[simp] theorem withTrust_host (s : State) (f : Trust → Trust) : (s.withTrust f).host = s.host := rfl
@[simp] theorem withTrust_fabric (s : State) (f : Trust → Trust) : (s.withTrust f).fabric = s.fabric := rfl
@[simp] theorem withTrust_plant (s : State) (f : Trust → Trust) : (s.withTrust f).plant = s.plant := rfl
@[simp] theorem withTrust_oper (s : State) (f : Trust → Trust) : (s.withTrust f).oper = s.oper := rfl
@[simp] theorem withTrust_time (s : State) (f : Trust → Trust) : (s.withTrust f).time = s.time := rfl
@[simp] theorem withTrust_nTicks (s : State) (f : Trust → Trust) : (s.withTrust f).nTicks = s.nTicks := rfl
@[simp] theorem withTrust_dTicks (s : State) (f : Trust → Trust) : (s.withTrust f).dTicks = s.dTicks := rfl
@[simp] theorem withTrust_tally (s : State) (f : Trust → Trust) : (s.withTrust f).tally = s.tally := rfl
@[simp] theorem withTrust_pkg (s : State) (f : Trust → Trust) : (s.withTrust f).pkg = s.pkg := rfl
@[simp] theorem withTrust_agenda (s : State) (f : Trust → Trust) : (s.withTrust f).agenda = s.agenda := rfl
@[simp] theorem withTrust_turn (s : State) (f : Trust → Trust) : (s.withTrust f).turn = s.turn := rfl
@[simp] theorem withVf_cur (s : State) (n : Nat) (f : Vf → Vf) : (s.withVf n f).cur = s.cur := by unfold State.withVf; split <;> rfl
@[simp] theorem withVf_harts (s : State) (n : Nat) (f : Vf → Vf) : (s.withVf n f).harts = s.harts := by unfold State.withVf; split <;> rfl
@[simp] theorem withVf_cores (s : State) (n : Nat) (f : Vf → Vf) : (s.withVf n f).cores = s.cores := by unfold State.withVf; split <;> rfl
@[simp] theorem withVf_mem (s : State) (n : Nat) (f : Vf → Vf) : (s.withVf n f).mem = s.mem := by unfold State.withVf; split <;> rfl
@[simp] theorem withVf_tlb (s : State) (n : Nat) (f : Vf → Vf) : (s.withVf n f).tlb = s.tlb := by unfold State.withVf; split <;> rfl
@[simp] theorem withVf_past (s : State) (n : Nat) (f : Vf → Vf) : (s.withVf n f).past = s.past := by unfold State.withVf; split <;> rfl
@[simp] theorem withVf_stamps (s : State) (n : Nat) (f : Vf → Vf) : (s.withVf n f).stamps = s.stamps := by unfold State.withVf; split <;> rfl
@[simp] theorem withVf_syncs (s : State) (n : Nat) (f : Vf → Vf) : (s.withVf n f).syncs = s.syncs := by unfold State.withVf; split <;> rfl
@[simp] theorem withVf_walks (s : State) (n : Nat) (f : Vf → Vf) : (s.withVf n f).walks = s.walks := by unfold State.withVf; split <;> rfl
@[simp] theorem withVf_poison (s : State) (n : Nat) (f : Vf → Vf) : (s.withVf n f).poison = s.poison := by unfold State.withVf; split <;> rfl
@[simp] theorem withVf_lines (s : State) (n : Nat) (f : Vf → Vf) : (s.withVf n f).lines = s.lines := by unfold State.withVf; split <;> rfl
@[simp] theorem withVf_rdc (s : State) (n : Nat) (f : Vf → Vf) : (s.withVf n f).rdc = s.rdc := by unfold State.withVf; split <;> rfl
@[simp] theorem withVf_windows (s : State) (n : Nat) (f : Vf → Vf) : (s.withVf n f).windows = s.windows := by unfold State.withVf; split <;> rfl
@[simp] theorem withVf_home (s : State) (n : Nat) (f : Vf → Vf) : (s.withVf n f).home = s.home := by unfold State.withVf; split <;> rfl
@[simp] theorem withVf_net (s : State) (n : Nat) (f : Vf → Vf) : (s.withVf n f).net = s.net := by unfold State.withVf; split <;> rfl
@[simp] theorem withVf_pps (s : State) (n : Nat) (f : Vf → Vf) : (s.withVf n f).pps = s.pps := by unfold State.withVf; split <;> rfl
@[simp] theorem withVf_replies (s : State) (n : Nat) (f : Vf → Vf) : (s.withVf n f).replies = s.replies := by unfold State.withVf; split <;> rfl
@[simp] theorem withVf_joinFails (s : State) (n : Nat) (f : Vf → Vf) : (s.withVf n f).joinFails = s.joinFails := by unfold State.withVf; split <;> rfl
@[simp] theorem withVf_copies (s : State) (n : Nat) (f : Vf → Vf) : (s.withVf n f).copies = s.copies := by unfold State.withVf; split <;> rfl
@[simp] theorem withVf_posts (s : State) (n : Nat) (f : Vf → Vf) : (s.withVf n f).posts = s.posts := by unfold State.withVf; split <;> rfl
@[simp] theorem withVf_arrays (s : State) (n : Nat) (f : Vf → Vf) : (s.withVf n f).arrays = s.arrays := by unfold State.withVf; split <;> rfl
@[simp] theorem withVf_sends (s : State) (n : Nat) (f : Vf → Vf) : (s.withVf n f).sends = s.sends := by unfold State.withVf; split <;> rfl
@[simp] theorem withVf_ctxs (s : State) (n : Nat) (f : Vf → Vf) : (s.withVf n f).ctxs = s.ctxs := by unfold State.withVf; split <;> rfl
@[simp] theorem withVf_parts (s : State) (n : Nat) (f : Vf → Vf) : (s.withVf n f).parts = s.parts := by unfold State.withVf; split <;> rfl
@[simp] theorem withVf_switches (s : State) (n : Nat) (f : Vf → Vf) : (s.withVf n f).switches = s.switches := by unfold State.withVf; split <;> rfl
@[simp] theorem withVf_images (s : State) (n : Nat) (f : Vf → Vf) : (s.withVf n f).images = s.images := by unfold State.withVf; split <;> rfl
@[simp] theorem withVf_saves (s : State) (n : Nat) (f : Vf → Vf) : (s.withVf n f).saves = s.saves := by unfold State.withVf; split <;> rfl
@[simp] theorem withVf_dist (s : State) (n : Nat) (f : Vf → Vf) : (s.withVf n f).dist = s.dist := by unfold State.withVf; split <;> rfl
@[simp] theorem withVf_host (s : State) (n : Nat) (f : Vf → Vf) : (s.withVf n f).host = s.host := by unfold State.withVf; split <;> rfl
@[simp] theorem withVf_fabric (s : State) (n : Nat) (f : Vf → Vf) : (s.withVf n f).fabric = s.fabric := by unfold State.withVf; split <;> rfl
@[simp] theorem withVf_plant (s : State) (n : Nat) (f : Vf → Vf) : (s.withVf n f).plant = s.plant := by unfold State.withVf; split <;> rfl
@[simp] theorem withVf_oper (s : State) (n : Nat) (f : Vf → Vf) : (s.withVf n f).oper = s.oper := by unfold State.withVf; split <;> rfl
@[simp] theorem withVf_time (s : State) (n : Nat) (f : Vf → Vf) : (s.withVf n f).time = s.time := by unfold State.withVf; split <;> rfl
@[simp] theorem withVf_nTicks (s : State) (n : Nat) (f : Vf → Vf) : (s.withVf n f).nTicks = s.nTicks := by unfold State.withVf; split <;> rfl
@[simp] theorem withVf_dTicks (s : State) (n : Nat) (f : Vf → Vf) : (s.withVf n f).dTicks = s.dTicks := by unfold State.withVf; split <;> rfl
@[simp] theorem withVf_tally (s : State) (n : Nat) (f : Vf → Vf) : (s.withVf n f).tally = s.tally := by unfold State.withVf; split <;> rfl
@[simp] theorem withVf_pkg (s : State) (n : Nat) (f : Vf → Vf) : (s.withVf n f).pkg = s.pkg := by unfold State.withVf; split <;> rfl
@[simp] theorem withVf_agenda (s : State) (n : Nat) (f : Vf → Vf) : (s.withVf n f).agenda = s.agenda := by unfold State.withVf; split <;> rfl
@[simp] theorem withVf_turn (s : State) (n : Nat) (f : Vf → Vf) : (s.withVf n f).turn = s.turn := by unfold State.withVf; split <;> rfl
@[simp] theorem withLink_cur (s : State) (p : Nat) (f : Link → Link) : (s.withLink p f).cur = s.cur := rfl
@[simp] theorem withLink_harts (s : State) (p : Nat) (f : Link → Link) : (s.withLink p f).harts = s.harts := rfl
@[simp] theorem withLink_cores (s : State) (p : Nat) (f : Link → Link) : (s.withLink p f).cores = s.cores := rfl
@[simp] theorem withLink_mem (s : State) (p : Nat) (f : Link → Link) : (s.withLink p f).mem = s.mem := rfl
@[simp] theorem withLink_tlb (s : State) (p : Nat) (f : Link → Link) : (s.withLink p f).tlb = s.tlb := rfl
@[simp] theorem withLink_past (s : State) (p : Nat) (f : Link → Link) : (s.withLink p f).past = s.past := rfl
@[simp] theorem withLink_stamps (s : State) (p : Nat) (f : Link → Link) : (s.withLink p f).stamps = s.stamps := rfl
@[simp] theorem withLink_syncs (s : State) (p : Nat) (f : Link → Link) : (s.withLink p f).syncs = s.syncs := rfl
@[simp] theorem withLink_walks (s : State) (p : Nat) (f : Link → Link) : (s.withLink p f).walks = s.walks := rfl
@[simp] theorem withLink_poison (s : State) (p : Nat) (f : Link → Link) : (s.withLink p f).poison = s.poison := rfl
@[simp] theorem withLink_lines (s : State) (p : Nat) (f : Link → Link) : (s.withLink p f).lines = s.lines := rfl
@[simp] theorem withLink_rdc (s : State) (p : Nat) (f : Link → Link) : (s.withLink p f).rdc = s.rdc := rfl
@[simp] theorem withLink_windows (s : State) (p : Nat) (f : Link → Link) : (s.withLink p f).windows = s.windows := rfl
@[simp] theorem withLink_home (s : State) (p : Nat) (f : Link → Link) : (s.withLink p f).home = s.home := rfl
@[simp] theorem withLink_net (s : State) (p : Nat) (f : Link → Link) : (s.withLink p f).net = s.net := rfl
@[simp] theorem withLink_pps (s : State) (p : Nat) (f : Link → Link) : (s.withLink p f).pps = s.pps := rfl
@[simp] theorem withLink_replies (s : State) (p : Nat) (f : Link → Link) : (s.withLink p f).replies = s.replies := rfl
@[simp] theorem withLink_joinFails (s : State) (p : Nat) (f : Link → Link) : (s.withLink p f).joinFails = s.joinFails := rfl
@[simp] theorem withLink_copies (s : State) (p : Nat) (f : Link → Link) : (s.withLink p f).copies = s.copies := rfl
@[simp] theorem withLink_posts (s : State) (p : Nat) (f : Link → Link) : (s.withLink p f).posts = s.posts := rfl
@[simp] theorem withLink_arrays (s : State) (p : Nat) (f : Link → Link) : (s.withLink p f).arrays = s.arrays := rfl
@[simp] theorem withLink_sends (s : State) (p : Nat) (f : Link → Link) : (s.withLink p f).sends = s.sends := rfl
@[simp] theorem withLink_ctxs (s : State) (p : Nat) (f : Link → Link) : (s.withLink p f).ctxs = s.ctxs := rfl
@[simp] theorem withLink_parts (s : State) (p : Nat) (f : Link → Link) : (s.withLink p f).parts = s.parts := rfl
@[simp] theorem withLink_switches (s : State) (p : Nat) (f : Link → Link) : (s.withLink p f).switches = s.switches := rfl
@[simp] theorem withLink_images (s : State) (p : Nat) (f : Link → Link) : (s.withLink p f).images = s.images := rfl
@[simp] theorem withLink_saves (s : State) (p : Nat) (f : Link → Link) : (s.withLink p f).saves = s.saves := rfl
@[simp] theorem withLink_dist (s : State) (p : Nat) (f : Link → Link) : (s.withLink p f).dist = s.dist := rfl
@[simp] theorem withLink_trust (s : State) (p : Nat) (f : Link → Link) : (s.withLink p f).trust = s.trust := rfl
@[simp] theorem withLink_host (s : State) (p : Nat) (f : Link → Link) : (s.withLink p f).host = s.host := rfl
@[simp] theorem withLink_plant (s : State) (p : Nat) (f : Link → Link) : (s.withLink p f).plant = s.plant := rfl
@[simp] theorem withLink_oper (s : State) (p : Nat) (f : Link → Link) : (s.withLink p f).oper = s.oper := rfl
@[simp] theorem withLink_time (s : State) (p : Nat) (f : Link → Link) : (s.withLink p f).time = s.time := rfl
@[simp] theorem withLink_nTicks (s : State) (p : Nat) (f : Link → Link) : (s.withLink p f).nTicks = s.nTicks := rfl
@[simp] theorem withLink_dTicks (s : State) (p : Nat) (f : Link → Link) : (s.withLink p f).dTicks = s.dTicks := rfl
@[simp] theorem withLink_tally (s : State) (p : Nat) (f : Link → Link) : (s.withLink p f).tally = s.tally := rfl
@[simp] theorem withLink_pkg (s : State) (p : Nat) (f : Link → Link) : (s.withLink p f).pkg = s.pkg := rfl
@[simp] theorem withLink_agenda (s : State) (p : Nat) (f : Link → Link) : (s.withLink p f).agenda = s.agenda := rfl
@[simp] theorem withLink_turn (s : State) (p : Nat) (f : Link → Link) : (s.withLink p f).turn = s.turn := rfl
@[simp] theorem setQueue_cur (s : State) (q : HostQueue) : (s.setQueue q).cur = s.cur := rfl
@[simp] theorem setQueue_harts (s : State) (q : HostQueue) : (s.setQueue q).harts = s.harts := rfl
@[simp] theorem setQueue_cores (s : State) (q : HostQueue) : (s.setQueue q).cores = s.cores := rfl
@[simp] theorem setQueue_mem (s : State) (q : HostQueue) : (s.setQueue q).mem = s.mem := rfl
@[simp] theorem setQueue_tlb (s : State) (q : HostQueue) : (s.setQueue q).tlb = s.tlb := rfl
@[simp] theorem setQueue_past (s : State) (q : HostQueue) : (s.setQueue q).past = s.past := rfl
@[simp] theorem setQueue_stamps (s : State) (q : HostQueue) : (s.setQueue q).stamps = s.stamps := rfl
@[simp] theorem setQueue_syncs (s : State) (q : HostQueue) : (s.setQueue q).syncs = s.syncs := rfl
@[simp] theorem setQueue_walks (s : State) (q : HostQueue) : (s.setQueue q).walks = s.walks := rfl
@[simp] theorem setQueue_poison (s : State) (q : HostQueue) : (s.setQueue q).poison = s.poison := rfl
@[simp] theorem setQueue_lines (s : State) (q : HostQueue) : (s.setQueue q).lines = s.lines := rfl
@[simp] theorem setQueue_rdc (s : State) (q : HostQueue) : (s.setQueue q).rdc = s.rdc := rfl
@[simp] theorem setQueue_windows (s : State) (q : HostQueue) : (s.setQueue q).windows = s.windows := rfl
@[simp] theorem setQueue_home (s : State) (q : HostQueue) : (s.setQueue q).home = s.home := rfl
@[simp] theorem setQueue_net (s : State) (q : HostQueue) : (s.setQueue q).net = s.net := rfl
@[simp] theorem setQueue_pps (s : State) (q : HostQueue) : (s.setQueue q).pps = s.pps := rfl
@[simp] theorem setQueue_replies (s : State) (q : HostQueue) : (s.setQueue q).replies = s.replies := rfl
@[simp] theorem setQueue_joinFails (s : State) (q : HostQueue) : (s.setQueue q).joinFails = s.joinFails := rfl
@[simp] theorem setQueue_copies (s : State) (q : HostQueue) : (s.setQueue q).copies = s.copies := rfl
@[simp] theorem setQueue_posts (s : State) (q : HostQueue) : (s.setQueue q).posts = s.posts := rfl
@[simp] theorem setQueue_arrays (s : State) (q : HostQueue) : (s.setQueue q).arrays = s.arrays := rfl
@[simp] theorem setQueue_sends (s : State) (q : HostQueue) : (s.setQueue q).sends = s.sends := rfl
@[simp] theorem setQueue_ctxs (s : State) (q : HostQueue) : (s.setQueue q).ctxs = s.ctxs := rfl
@[simp] theorem setQueue_parts (s : State) (q : HostQueue) : (s.setQueue q).parts = s.parts := rfl
@[simp] theorem setQueue_switches (s : State) (q : HostQueue) : (s.setQueue q).switches = s.switches := rfl
@[simp] theorem setQueue_images (s : State) (q : HostQueue) : (s.setQueue q).images = s.images := rfl
@[simp] theorem setQueue_saves (s : State) (q : HostQueue) : (s.setQueue q).saves = s.saves := rfl
@[simp] theorem setQueue_dist (s : State) (q : HostQueue) : (s.setQueue q).dist = s.dist := rfl
@[simp] theorem setQueue_trust (s : State) (q : HostQueue) : (s.setQueue q).trust = s.trust := rfl
@[simp] theorem setQueue_fabric (s : State) (q : HostQueue) : (s.setQueue q).fabric = s.fabric := rfl
@[simp] theorem setQueue_plant (s : State) (q : HostQueue) : (s.setQueue q).plant = s.plant := rfl
@[simp] theorem setQueue_oper (s : State) (q : HostQueue) : (s.setQueue q).oper = s.oper := rfl
@[simp] theorem setQueue_time (s : State) (q : HostQueue) : (s.setQueue q).time = s.time := rfl
@[simp] theorem setQueue_nTicks (s : State) (q : HostQueue) : (s.setQueue q).nTicks = s.nTicks := rfl
@[simp] theorem setQueue_dTicks (s : State) (q : HostQueue) : (s.setQueue q).dTicks = s.dTicks := rfl
@[simp] theorem setQueue_tally (s : State) (q : HostQueue) : (s.setQueue q).tally = s.tally := rfl
@[simp] theorem setQueue_pkg (s : State) (q : HostQueue) : (s.setQueue q).pkg = s.pkg := rfl
@[simp] theorem setQueue_agenda (s : State) (q : HostQueue) : (s.setQueue q).agenda = s.agenda := rfl
@[simp] theorem setQueue_turn (s : State) (q : HostQueue) : (s.setQueue q).turn = s.turn := rfl
@[simp] theorem setHome_cur (s : State) (b : HomeBlock) : (s.setHome b).cur = s.cur := rfl
@[simp] theorem setHome_harts (s : State) (b : HomeBlock) : (s.setHome b).harts = s.harts := rfl
@[simp] theorem setHome_cores (s : State) (b : HomeBlock) : (s.setHome b).cores = s.cores := rfl
@[simp] theorem setHome_mem (s : State) (b : HomeBlock) : (s.setHome b).mem = s.mem := rfl
@[simp] theorem setHome_tlb (s : State) (b : HomeBlock) : (s.setHome b).tlb = s.tlb := rfl
@[simp] theorem setHome_past (s : State) (b : HomeBlock) : (s.setHome b).past = s.past := rfl
@[simp] theorem setHome_stamps (s : State) (b : HomeBlock) : (s.setHome b).stamps = s.stamps := rfl
@[simp] theorem setHome_syncs (s : State) (b : HomeBlock) : (s.setHome b).syncs = s.syncs := rfl
@[simp] theorem setHome_walks (s : State) (b : HomeBlock) : (s.setHome b).walks = s.walks := rfl
@[simp] theorem setHome_poison (s : State) (b : HomeBlock) : (s.setHome b).poison = s.poison := rfl
@[simp] theorem setHome_lines (s : State) (b : HomeBlock) : (s.setHome b).lines = s.lines := rfl
@[simp] theorem setHome_rdc (s : State) (b : HomeBlock) : (s.setHome b).rdc = s.rdc := rfl
@[simp] theorem setHome_windows (s : State) (b : HomeBlock) : (s.setHome b).windows = s.windows := rfl
@[simp] theorem setHome_net (s : State) (b : HomeBlock) : (s.setHome b).net = s.net := rfl
@[simp] theorem setHome_pps (s : State) (b : HomeBlock) : (s.setHome b).pps = s.pps := rfl
@[simp] theorem setHome_replies (s : State) (b : HomeBlock) : (s.setHome b).replies = s.replies := rfl
@[simp] theorem setHome_joinFails (s : State) (b : HomeBlock) : (s.setHome b).joinFails = s.joinFails := rfl
@[simp] theorem setHome_copies (s : State) (b : HomeBlock) : (s.setHome b).copies = s.copies := rfl
@[simp] theorem setHome_posts (s : State) (b : HomeBlock) : (s.setHome b).posts = s.posts := rfl
@[simp] theorem setHome_arrays (s : State) (b : HomeBlock) : (s.setHome b).arrays = s.arrays := rfl
@[simp] theorem setHome_sends (s : State) (b : HomeBlock) : (s.setHome b).sends = s.sends := rfl
@[simp] theorem setHome_ctxs (s : State) (b : HomeBlock) : (s.setHome b).ctxs = s.ctxs := rfl
@[simp] theorem setHome_parts (s : State) (b : HomeBlock) : (s.setHome b).parts = s.parts := rfl
@[simp] theorem setHome_switches (s : State) (b : HomeBlock) : (s.setHome b).switches = s.switches := rfl
@[simp] theorem setHome_images (s : State) (b : HomeBlock) : (s.setHome b).images = s.images := rfl
@[simp] theorem setHome_saves (s : State) (b : HomeBlock) : (s.setHome b).saves = s.saves := rfl
@[simp] theorem setHome_dist (s : State) (b : HomeBlock) : (s.setHome b).dist = s.dist := rfl
@[simp] theorem setHome_trust (s : State) (b : HomeBlock) : (s.setHome b).trust = s.trust := rfl
@[simp] theorem setHome_host (s : State) (b : HomeBlock) : (s.setHome b).host = s.host := rfl
@[simp] theorem setHome_fabric (s : State) (b : HomeBlock) : (s.setHome b).fabric = s.fabric := rfl
@[simp] theorem setHome_plant (s : State) (b : HomeBlock) : (s.setHome b).plant = s.plant := rfl
@[simp] theorem setHome_oper (s : State) (b : HomeBlock) : (s.setHome b).oper = s.oper := rfl
@[simp] theorem setHome_time (s : State) (b : HomeBlock) : (s.setHome b).time = s.time := rfl
@[simp] theorem setHome_nTicks (s : State) (b : HomeBlock) : (s.setHome b).nTicks = s.nTicks := rfl
@[simp] theorem setHome_dTicks (s : State) (b : HomeBlock) : (s.setHome b).dTicks = s.dTicks := rfl
@[simp] theorem setHome_tally (s : State) (b : HomeBlock) : (s.setHome b).tally = s.tally := rfl
@[simp] theorem setHome_pkg (s : State) (b : HomeBlock) : (s.setHome b).pkg = s.pkg := rfl
@[simp] theorem setHome_agenda (s : State) (b : HomeBlock) : (s.setHome b).agenda = s.agenda := rfl
@[simp] theorem setHome_turn (s : State) (b : HomeBlock) : (s.setHome b).turn = s.turn := rfl
@[simp] theorem setSync_cur (s : State) (pa off n v : Nat) : (s.setSync pa off n v).cur = s.cur := rfl
@[simp] theorem setSync_harts (s : State) (pa off n v : Nat) : (s.setSync pa off n v).harts = s.harts := rfl
@[simp] theorem setSync_cores (s : State) (pa off n v : Nat) : (s.setSync pa off n v).cores = s.cores := rfl
@[simp] theorem setSync_tlb (s : State) (pa off n v : Nat) : (s.setSync pa off n v).tlb = s.tlb := rfl
@[simp] theorem setSync_stamps (s : State) (pa off n v : Nat) : (s.setSync pa off n v).stamps = s.stamps := rfl
@[simp] theorem setSync_syncs (s : State) (pa off n v : Nat) : (s.setSync pa off n v).syncs = s.syncs := rfl
@[simp] theorem setSync_walks (s : State) (pa off n v : Nat) : (s.setSync pa off n v).walks = s.walks := rfl
@[simp] theorem setSync_poison (s : State) (pa off n v : Nat) : (s.setSync pa off n v).poison = s.poison := rfl
@[simp] theorem setSync_lines (s : State) (pa off n v : Nat) : (s.setSync pa off n v).lines = s.lines := rfl
@[simp] theorem setSync_rdc (s : State) (pa off n v : Nat) : (s.setSync pa off n v).rdc = s.rdc := rfl
@[simp] theorem setSync_windows (s : State) (pa off n v : Nat) : (s.setSync pa off n v).windows = s.windows := rfl
@[simp] theorem setSync_home (s : State) (pa off n v : Nat) : (s.setSync pa off n v).home = s.home := rfl
@[simp] theorem setSync_net (s : State) (pa off n v : Nat) : (s.setSync pa off n v).net = s.net := rfl
@[simp] theorem setSync_pps (s : State) (pa off n v : Nat) : (s.setSync pa off n v).pps = s.pps := rfl
@[simp] theorem setSync_replies (s : State) (pa off n v : Nat) : (s.setSync pa off n v).replies = s.replies := rfl
@[simp] theorem setSync_joinFails (s : State) (pa off n v : Nat) : (s.setSync pa off n v).joinFails = s.joinFails := rfl
@[simp] theorem setSync_copies (s : State) (pa off n v : Nat) : (s.setSync pa off n v).copies = s.copies := rfl
@[simp] theorem setSync_posts (s : State) (pa off n v : Nat) : (s.setSync pa off n v).posts = s.posts := rfl
@[simp] theorem setSync_arrays (s : State) (pa off n v : Nat) : (s.setSync pa off n v).arrays = s.arrays := rfl
@[simp] theorem setSync_sends (s : State) (pa off n v : Nat) : (s.setSync pa off n v).sends = s.sends := rfl
@[simp] theorem setSync_ctxs (s : State) (pa off n v : Nat) : (s.setSync pa off n v).ctxs = s.ctxs := rfl
@[simp] theorem setSync_parts (s : State) (pa off n v : Nat) : (s.setSync pa off n v).parts = s.parts := rfl
@[simp] theorem setSync_switches (s : State) (pa off n v : Nat) : (s.setSync pa off n v).switches = s.switches := rfl
@[simp] theorem setSync_images (s : State) (pa off n v : Nat) : (s.setSync pa off n v).images = s.images := rfl
@[simp] theorem setSync_saves (s : State) (pa off n v : Nat) : (s.setSync pa off n v).saves = s.saves := rfl
@[simp] theorem setSync_dist (s : State) (pa off n v : Nat) : (s.setSync pa off n v).dist = s.dist := rfl
@[simp] theorem setSync_trust (s : State) (pa off n v : Nat) : (s.setSync pa off n v).trust = s.trust := rfl
@[simp] theorem setSync_host (s : State) (pa off n v : Nat) : (s.setSync pa off n v).host = s.host := rfl
@[simp] theorem setSync_fabric (s : State) (pa off n v : Nat) : (s.setSync pa off n v).fabric = s.fabric := rfl
@[simp] theorem setSync_plant (s : State) (pa off n v : Nat) : (s.setSync pa off n v).plant = s.plant := rfl
@[simp] theorem setSync_oper (s : State) (pa off n v : Nat) : (s.setSync pa off n v).oper = s.oper := rfl
@[simp] theorem setSync_time (s : State) (pa off n v : Nat) : (s.setSync pa off n v).time = s.time := rfl
@[simp] theorem setSync_nTicks (s : State) (pa off n v : Nat) : (s.setSync pa off n v).nTicks = s.nTicks := rfl
@[simp] theorem setSync_dTicks (s : State) (pa off n v : Nat) : (s.setSync pa off n v).dTicks = s.dTicks := rfl
@[simp] theorem setSync_tally (s : State) (pa off n v : Nat) : (s.setSync pa off n v).tally = s.tally := rfl
@[simp] theorem setSync_pkg (s : State) (pa off n v : Nat) : (s.setSync pa off n v).pkg = s.pkg := rfl
@[simp] theorem setSync_agenda (s : State) (pa off n v : Nat) : (s.setSync pa off n v).agenda = s.agenda := rfl
@[simp] theorem setSync_turn (s : State) (pa off n v : Nat) : (s.setSync pa off n v).turn = s.turn := rfl
@[simp] theorem trace_cur (s : State) (k : Nat) (c : CoreId) (i : Nat) (pc d : Word) : (s.trace k c i pc d).cur = s.cur := rfl
@[simp] theorem trace_harts (s : State) (k : Nat) (c : CoreId) (i : Nat) (pc d : Word) : (s.trace k c i pc d).harts = s.harts := rfl
@[simp] theorem trace_cores (s : State) (k : Nat) (c : CoreId) (i : Nat) (pc d : Word) : (s.trace k c i pc d).cores = s.cores := rfl
@[simp] theorem trace_mem (s : State) (k : Nat) (c : CoreId) (i : Nat) (pc d : Word) : (s.trace k c i pc d).mem = s.mem := rfl
@[simp] theorem trace_tlb (s : State) (k : Nat) (c : CoreId) (i : Nat) (pc d : Word) : (s.trace k c i pc d).tlb = s.tlb := rfl
@[simp] theorem trace_past (s : State) (k : Nat) (c : CoreId) (i : Nat) (pc d : Word) : (s.trace k c i pc d).past = s.past := rfl
@[simp] theorem trace_stamps (s : State) (k : Nat) (c : CoreId) (i : Nat) (pc d : Word) : (s.trace k c i pc d).stamps = s.stamps := rfl
@[simp] theorem trace_syncs (s : State) (k : Nat) (c : CoreId) (i : Nat) (pc d : Word) : (s.trace k c i pc d).syncs = s.syncs := rfl
@[simp] theorem trace_walks (s : State) (k : Nat) (c : CoreId) (i : Nat) (pc d : Word) : (s.trace k c i pc d).walks = s.walks := rfl
@[simp] theorem trace_poison (s : State) (k : Nat) (c : CoreId) (i : Nat) (pc d : Word) : (s.trace k c i pc d).poison = s.poison := rfl
@[simp] theorem trace_lines (s : State) (k : Nat) (c : CoreId) (i : Nat) (pc d : Word) : (s.trace k c i pc d).lines = s.lines := rfl
@[simp] theorem trace_rdc (s : State) (k : Nat) (c : CoreId) (i : Nat) (pc d : Word) : (s.trace k c i pc d).rdc = s.rdc := rfl
@[simp] theorem trace_windows (s : State) (k : Nat) (c : CoreId) (i : Nat) (pc d : Word) : (s.trace k c i pc d).windows = s.windows := rfl
@[simp] theorem trace_home (s : State) (k : Nat) (c : CoreId) (i : Nat) (pc d : Word) : (s.trace k c i pc d).home = s.home := rfl
@[simp] theorem trace_net (s : State) (k : Nat) (c : CoreId) (i : Nat) (pc d : Word) : (s.trace k c i pc d).net = s.net := rfl
@[simp] theorem trace_pps (s : State) (k : Nat) (c : CoreId) (i : Nat) (pc d : Word) : (s.trace k c i pc d).pps = s.pps := rfl
@[simp] theorem trace_replies (s : State) (k : Nat) (c : CoreId) (i : Nat) (pc d : Word) : (s.trace k c i pc d).replies = s.replies := rfl
@[simp] theorem trace_joinFails (s : State) (k : Nat) (c : CoreId) (i : Nat) (pc d : Word) : (s.trace k c i pc d).joinFails = s.joinFails := rfl
@[simp] theorem trace_copies (s : State) (k : Nat) (c : CoreId) (i : Nat) (pc d : Word) : (s.trace k c i pc d).copies = s.copies := rfl
@[simp] theorem trace_posts (s : State) (k : Nat) (c : CoreId) (i : Nat) (pc d : Word) : (s.trace k c i pc d).posts = s.posts := rfl
@[simp] theorem trace_arrays (s : State) (k : Nat) (c : CoreId) (i : Nat) (pc d : Word) : (s.trace k c i pc d).arrays = s.arrays := rfl
@[simp] theorem trace_sends (s : State) (k : Nat) (c : CoreId) (i : Nat) (pc d : Word) : (s.trace k c i pc d).sends = s.sends := rfl
@[simp] theorem trace_ctxs (s : State) (k : Nat) (c : CoreId) (i : Nat) (pc d : Word) : (s.trace k c i pc d).ctxs = s.ctxs := rfl
@[simp] theorem trace_parts (s : State) (k : Nat) (c : CoreId) (i : Nat) (pc d : Word) : (s.trace k c i pc d).parts = s.parts := rfl
@[simp] theorem trace_switches (s : State) (k : Nat) (c : CoreId) (i : Nat) (pc d : Word) : (s.trace k c i pc d).switches = s.switches := rfl
@[simp] theorem trace_images (s : State) (k : Nat) (c : CoreId) (i : Nat) (pc d : Word) : (s.trace k c i pc d).images = s.images := rfl
@[simp] theorem trace_saves (s : State) (k : Nat) (c : CoreId) (i : Nat) (pc d : Word) : (s.trace k c i pc d).saves = s.saves := rfl
@[simp] theorem trace_dist (s : State) (k : Nat) (c : CoreId) (i : Nat) (pc d : Word) : (s.trace k c i pc d).dist = s.dist := rfl
@[simp] theorem trace_trust (s : State) (k : Nat) (c : CoreId) (i : Nat) (pc d : Word) : (s.trace k c i pc d).trust = s.trust := rfl
@[simp] theorem trace_host (s : State) (k : Nat) (c : CoreId) (i : Nat) (pc d : Word) : (s.trace k c i pc d).host = s.host := rfl
@[simp] theorem trace_fabric (s : State) (k : Nat) (c : CoreId) (i : Nat) (pc d : Word) : (s.trace k c i pc d).fabric = s.fabric := rfl
@[simp] theorem trace_plant (s : State) (k : Nat) (c : CoreId) (i : Nat) (pc d : Word) : (s.trace k c i pc d).plant = s.plant := rfl
@[simp] theorem trace_time (s : State) (k : Nat) (c : CoreId) (i : Nat) (pc d : Word) : (s.trace k c i pc d).time = s.time := rfl
@[simp] theorem trace_nTicks (s : State) (k : Nat) (c : CoreId) (i : Nat) (pc d : Word) : (s.trace k c i pc d).nTicks = s.nTicks := rfl
@[simp] theorem trace_dTicks (s : State) (k : Nat) (c : CoreId) (i : Nat) (pc d : Word) : (s.trace k c i pc d).dTicks = s.dTicks := rfl
@[simp] theorem trace_tally (s : State) (k : Nat) (c : CoreId) (i : Nat) (pc d : Word) : (s.trace k c i pc d).tally = s.tally := rfl
@[simp] theorem trace_pkg (s : State) (k : Nat) (c : CoreId) (i : Nat) (pc d : Word) : (s.trace k c i pc d).pkg = s.pkg := rfl
@[simp] theorem trace_agenda (s : State) (k : Nat) (c : CoreId) (i : Nat) (pc d : Word) : (s.trace k c i pc d).agenda = s.agenda := rfl
@[simp] theorem trace_turn (s : State) (k : Nat) (c : CoreId) (i : Nat) (pc d : Word) : (s.trace k c i pc d).turn = s.turn := rfl
@[simp] theorem count_cur (s : State) (n : CtxNo) (u c i k : Nat) : (s.count n u c i k).cur = s.cur := rfl
@[simp] theorem count_harts (s : State) (n : CtxNo) (u c i k : Nat) : (s.count n u c i k).harts = s.harts := rfl
@[simp] theorem count_cores (s : State) (n : CtxNo) (u c i k : Nat) : (s.count n u c i k).cores = s.cores := rfl
@[simp] theorem count_mem (s : State) (n : CtxNo) (u c i k : Nat) : (s.count n u c i k).mem = s.mem := rfl
@[simp] theorem count_tlb (s : State) (n : CtxNo) (u c i k : Nat) : (s.count n u c i k).tlb = s.tlb := rfl
@[simp] theorem count_past (s : State) (n : CtxNo) (u c i k : Nat) : (s.count n u c i k).past = s.past := rfl
@[simp] theorem count_stamps (s : State) (n : CtxNo) (u c i k : Nat) : (s.count n u c i k).stamps = s.stamps := rfl
@[simp] theorem count_syncs (s : State) (n : CtxNo) (u c i k : Nat) : (s.count n u c i k).syncs = s.syncs := rfl
@[simp] theorem count_walks (s : State) (n : CtxNo) (u c i k : Nat) : (s.count n u c i k).walks = s.walks := rfl
@[simp] theorem count_poison (s : State) (n : CtxNo) (u c i k : Nat) : (s.count n u c i k).poison = s.poison := rfl
@[simp] theorem count_lines (s : State) (n : CtxNo) (u c i k : Nat) : (s.count n u c i k).lines = s.lines := rfl
@[simp] theorem count_rdc (s : State) (n : CtxNo) (u c i k : Nat) : (s.count n u c i k).rdc = s.rdc := rfl
@[simp] theorem count_windows (s : State) (n : CtxNo) (u c i k : Nat) : (s.count n u c i k).windows = s.windows := rfl
@[simp] theorem count_home (s : State) (n : CtxNo) (u c i k : Nat) : (s.count n u c i k).home = s.home := rfl
@[simp] theorem count_net (s : State) (n : CtxNo) (u c i k : Nat) : (s.count n u c i k).net = s.net := rfl
@[simp] theorem count_pps (s : State) (n : CtxNo) (u c i k : Nat) : (s.count n u c i k).pps = s.pps := rfl
@[simp] theorem count_replies (s : State) (n : CtxNo) (u c i k : Nat) : (s.count n u c i k).replies = s.replies := rfl
@[simp] theorem count_joinFails (s : State) (n : CtxNo) (u c i k : Nat) : (s.count n u c i k).joinFails = s.joinFails := rfl
@[simp] theorem count_copies (s : State) (n : CtxNo) (u c i k : Nat) : (s.count n u c i k).copies = s.copies := rfl
@[simp] theorem count_posts (s : State) (n : CtxNo) (u c i k : Nat) : (s.count n u c i k).posts = s.posts := rfl
@[simp] theorem count_arrays (s : State) (n : CtxNo) (u c i k : Nat) : (s.count n u c i k).arrays = s.arrays := rfl
@[simp] theorem count_sends (s : State) (n : CtxNo) (u c i k : Nat) : (s.count n u c i k).sends = s.sends := rfl
@[simp] theorem count_ctxs (s : State) (n : CtxNo) (u c i k : Nat) : (s.count n u c i k).ctxs = s.ctxs := rfl
@[simp] theorem count_parts (s : State) (n : CtxNo) (u c i k : Nat) : (s.count n u c i k).parts = s.parts := rfl
@[simp] theorem count_switches (s : State) (n : CtxNo) (u c i k : Nat) : (s.count n u c i k).switches = s.switches := rfl
@[simp] theorem count_images (s : State) (n : CtxNo) (u c i k : Nat) : (s.count n u c i k).images = s.images := rfl
@[simp] theorem count_saves (s : State) (n : CtxNo) (u c i k : Nat) : (s.count n u c i k).saves = s.saves := rfl
@[simp] theorem count_dist (s : State) (n : CtxNo) (u c i k : Nat) : (s.count n u c i k).dist = s.dist := rfl
@[simp] theorem count_trust (s : State) (n : CtxNo) (u c i k : Nat) : (s.count n u c i k).trust = s.trust := rfl
@[simp] theorem count_host (s : State) (n : CtxNo) (u c i k : Nat) : (s.count n u c i k).host = s.host := rfl
@[simp] theorem count_fabric (s : State) (n : CtxNo) (u c i k : Nat) : (s.count n u c i k).fabric = s.fabric := rfl
@[simp] theorem count_plant (s : State) (n : CtxNo) (u c i k : Nat) : (s.count n u c i k).plant = s.plant := rfl
@[simp] theorem count_oper (s : State) (n : CtxNo) (u c i k : Nat) : (s.count n u c i k).oper = s.oper := rfl
@[simp] theorem count_time (s : State) (n : CtxNo) (u c i k : Nat) : (s.count n u c i k).time = s.time := rfl
@[simp] theorem count_nTicks (s : State) (n : CtxNo) (u c i k : Nat) : (s.count n u c i k).nTicks = s.nTicks := rfl
@[simp] theorem count_dTicks (s : State) (n : CtxNo) (u c i k : Nat) : (s.count n u c i k).dTicks = s.dTicks := rfl
@[simp] theorem count_pkg (s : State) (n : CtxNo) (u c i k : Nat) : (s.count n u c i k).pkg = s.pkg := rfl
@[simp] theorem count_agenda (s : State) (n : CtxNo) (u c i k : Nat) : (s.count n u c i k).agenda = s.agenda := rfl
@[simp] theorem count_turn (s : State) (n : CtxNo) (u c i k : Nat) : (s.count n u c i k).turn = s.turn := rfl
@[simp] theorem noteFault_cur (s : State) (n : CtxNo) (c : Nat) (a : Word) : (s.noteFault n c a).cur = s.cur := rfl
@[simp] theorem noteFault_harts (s : State) (n : CtxNo) (c : Nat) (a : Word) : (s.noteFault n c a).harts = s.harts := rfl
@[simp] theorem noteFault_cores (s : State) (n : CtxNo) (c : Nat) (a : Word) : (s.noteFault n c a).cores = s.cores := rfl
@[simp] theorem noteFault_mem (s : State) (n : CtxNo) (c : Nat) (a : Word) : (s.noteFault n c a).mem = s.mem := rfl
@[simp] theorem noteFault_tlb (s : State) (n : CtxNo) (c : Nat) (a : Word) : (s.noteFault n c a).tlb = s.tlb := rfl
@[simp] theorem noteFault_past (s : State) (n : CtxNo) (c : Nat) (a : Word) : (s.noteFault n c a).past = s.past := rfl
@[simp] theorem noteFault_stamps (s : State) (n : CtxNo) (c : Nat) (a : Word) : (s.noteFault n c a).stamps = s.stamps := rfl
@[simp] theorem noteFault_syncs (s : State) (n : CtxNo) (c : Nat) (a : Word) : (s.noteFault n c a).syncs = s.syncs := rfl
@[simp] theorem noteFault_walks (s : State) (n : CtxNo) (c : Nat) (a : Word) : (s.noteFault n c a).walks = s.walks := rfl
@[simp] theorem noteFault_poison (s : State) (n : CtxNo) (c : Nat) (a : Word) : (s.noteFault n c a).poison = s.poison := rfl
@[simp] theorem noteFault_lines (s : State) (n : CtxNo) (c : Nat) (a : Word) : (s.noteFault n c a).lines = s.lines := rfl
@[simp] theorem noteFault_rdc (s : State) (n : CtxNo) (c : Nat) (a : Word) : (s.noteFault n c a).rdc = s.rdc := rfl
@[simp] theorem noteFault_windows (s : State) (n : CtxNo) (c : Nat) (a : Word) : (s.noteFault n c a).windows = s.windows := rfl
@[simp] theorem noteFault_home (s : State) (n : CtxNo) (c : Nat) (a : Word) : (s.noteFault n c a).home = s.home := rfl
@[simp] theorem noteFault_net (s : State) (n : CtxNo) (c : Nat) (a : Word) : (s.noteFault n c a).net = s.net := rfl
@[simp] theorem noteFault_pps (s : State) (n : CtxNo) (c : Nat) (a : Word) : (s.noteFault n c a).pps = s.pps := rfl
@[simp] theorem noteFault_replies (s : State) (n : CtxNo) (c : Nat) (a : Word) : (s.noteFault n c a).replies = s.replies := rfl
@[simp] theorem noteFault_joinFails (s : State) (n : CtxNo) (c : Nat) (a : Word) : (s.noteFault n c a).joinFails = s.joinFails := rfl
@[simp] theorem noteFault_copies (s : State) (n : CtxNo) (c : Nat) (a : Word) : (s.noteFault n c a).copies = s.copies := rfl
@[simp] theorem noteFault_posts (s : State) (n : CtxNo) (c : Nat) (a : Word) : (s.noteFault n c a).posts = s.posts := rfl
@[simp] theorem noteFault_arrays (s : State) (n : CtxNo) (c : Nat) (a : Word) : (s.noteFault n c a).arrays = s.arrays := rfl
@[simp] theorem noteFault_sends (s : State) (n : CtxNo) (c : Nat) (a : Word) : (s.noteFault n c a).sends = s.sends := rfl
@[simp] theorem noteFault_ctxs (s : State) (n : CtxNo) (c : Nat) (a : Word) : (s.noteFault n c a).ctxs = s.ctxs := rfl
@[simp] theorem noteFault_parts (s : State) (n : CtxNo) (c : Nat) (a : Word) : (s.noteFault n c a).parts = s.parts := rfl
@[simp] theorem noteFault_switches (s : State) (n : CtxNo) (c : Nat) (a : Word) : (s.noteFault n c a).switches = s.switches := rfl
@[simp] theorem noteFault_images (s : State) (n : CtxNo) (c : Nat) (a : Word) : (s.noteFault n c a).images = s.images := rfl
@[simp] theorem noteFault_saves (s : State) (n : CtxNo) (c : Nat) (a : Word) : (s.noteFault n c a).saves = s.saves := rfl
@[simp] theorem noteFault_dist (s : State) (n : CtxNo) (c : Nat) (a : Word) : (s.noteFault n c a).dist = s.dist := rfl
@[simp] theorem noteFault_trust (s : State) (n : CtxNo) (c : Nat) (a : Word) : (s.noteFault n c a).trust = s.trust := rfl
@[simp] theorem noteFault_host (s : State) (n : CtxNo) (c : Nat) (a : Word) : (s.noteFault n c a).host = s.host := rfl
@[simp] theorem noteFault_fabric (s : State) (n : CtxNo) (c : Nat) (a : Word) : (s.noteFault n c a).fabric = s.fabric := rfl
@[simp] theorem noteFault_plant (s : State) (n : CtxNo) (c : Nat) (a : Word) : (s.noteFault n c a).plant = s.plant := rfl
@[simp] theorem noteFault_time (s : State) (n : CtxNo) (c : Nat) (a : Word) : (s.noteFault n c a).time = s.time := rfl
@[simp] theorem noteFault_nTicks (s : State) (n : CtxNo) (c : Nat) (a : Word) : (s.noteFault n c a).nTicks = s.nTicks := rfl
@[simp] theorem noteFault_dTicks (s : State) (n : CtxNo) (c : Nat) (a : Word) : (s.noteFault n c a).dTicks = s.dTicks := rfl
@[simp] theorem noteFault_tally (s : State) (n : CtxNo) (c : Nat) (a : Word) : (s.noteFault n c a).tally = s.tally := rfl
@[simp] theorem noteFault_pkg (s : State) (n : CtxNo) (c : Nat) (a : Word) : (s.noteFault n c a).pkg = s.pkg := rfl
@[simp] theorem noteFault_agenda (s : State) (n : CtxNo) (c : Nat) (a : Word) : (s.noteFault n c a).agenda = s.agenda := rfl
@[simp] theorem noteFault_turn (s : State) (n : CtxNo) (c : Nat) (a : Word) : (s.noteFault n c a).turn = s.turn := rfl
@[simp] theorem withCur_harts (s : State) (h : Hart) : (s.withCur h).harts = s.harts := rfl
@[simp] theorem withCur_cores (s : State) (h : Hart) : (s.withCur h).cores = s.cores := rfl
@[simp] theorem withCur_mem (s : State) (h : Hart) : (s.withCur h).mem = s.mem := rfl
@[simp] theorem withCur_tlb (s : State) (h : Hart) : (s.withCur h).tlb = s.tlb := rfl
@[simp] theorem withCur_past (s : State) (h : Hart) : (s.withCur h).past = s.past := rfl
@[simp] theorem withCur_stamps (s : State) (h : Hart) : (s.withCur h).stamps = s.stamps := rfl
@[simp] theorem withCur_syncs (s : State) (h : Hart) : (s.withCur h).syncs = s.syncs := rfl
@[simp] theorem withCur_walks (s : State) (h : Hart) : (s.withCur h).walks = s.walks := rfl
@[simp] theorem withCur_poison (s : State) (h : Hart) : (s.withCur h).poison = s.poison := rfl
@[simp] theorem withCur_lines (s : State) (h : Hart) : (s.withCur h).lines = s.lines := rfl
@[simp] theorem withCur_rdc (s : State) (h : Hart) : (s.withCur h).rdc = s.rdc := rfl
@[simp] theorem withCur_windows (s : State) (h : Hart) : (s.withCur h).windows = s.windows := rfl
@[simp] theorem withCur_home (s : State) (h : Hart) : (s.withCur h).home = s.home := rfl
@[simp] theorem withCur_net (s : State) (h : Hart) : (s.withCur h).net = s.net := rfl
@[simp] theorem withCur_pps (s : State) (h : Hart) : (s.withCur h).pps = s.pps := rfl
@[simp] theorem withCur_replies (s : State) (h : Hart) : (s.withCur h).replies = s.replies := rfl
@[simp] theorem withCur_joinFails (s : State) (h : Hart) : (s.withCur h).joinFails = s.joinFails := rfl
@[simp] theorem withCur_copies (s : State) (h : Hart) : (s.withCur h).copies = s.copies := rfl
@[simp] theorem withCur_posts (s : State) (h : Hart) : (s.withCur h).posts = s.posts := rfl
@[simp] theorem withCur_arrays (s : State) (h : Hart) : (s.withCur h).arrays = s.arrays := rfl
@[simp] theorem withCur_sends (s : State) (h : Hart) : (s.withCur h).sends = s.sends := rfl
@[simp] theorem withCur_ctxs (s : State) (h : Hart) : (s.withCur h).ctxs = s.ctxs := rfl
@[simp] theorem withCur_parts (s : State) (h : Hart) : (s.withCur h).parts = s.parts := rfl
@[simp] theorem withCur_switches (s : State) (h : Hart) : (s.withCur h).switches = s.switches := rfl
@[simp] theorem withCur_images (s : State) (h : Hart) : (s.withCur h).images = s.images := rfl
@[simp] theorem withCur_saves (s : State) (h : Hart) : (s.withCur h).saves = s.saves := rfl
@[simp] theorem withCur_dist (s : State) (h : Hart) : (s.withCur h).dist = s.dist := rfl
@[simp] theorem withCur_trust (s : State) (h : Hart) : (s.withCur h).trust = s.trust := rfl
@[simp] theorem withCur_host (s : State) (h : Hart) : (s.withCur h).host = s.host := rfl
@[simp] theorem withCur_fabric (s : State) (h : Hart) : (s.withCur h).fabric = s.fabric := rfl
@[simp] theorem withCur_plant (s : State) (h : Hart) : (s.withCur h).plant = s.plant := rfl
@[simp] theorem withCur_oper (s : State) (h : Hart) : (s.withCur h).oper = s.oper := rfl
@[simp] theorem withCur_time (s : State) (h : Hart) : (s.withCur h).time = s.time := rfl
@[simp] theorem withCur_nTicks (s : State) (h : Hart) : (s.withCur h).nTicks = s.nTicks := rfl
@[simp] theorem withCur_dTicks (s : State) (h : Hart) : (s.withCur h).dTicks = s.dTicks := rfl
@[simp] theorem withCur_tally (s : State) (h : Hart) : (s.withCur h).tally = s.tally := rfl
@[simp] theorem withCur_pkg (s : State) (h : Hart) : (s.withCur h).pkg = s.pkg := rfl
@[simp] theorem withCur_agenda (s : State) (h : Hart) : (s.withCur h).agenda = s.agenda := rfl
@[simp] theorem withCur_turn (s : State) (h : Hart) : (s.withCur h).turn = s.turn := rfl
@[simp] theorem waitFor_harts (s : State) (w : Wait) : (s.waitFor w).harts = s.harts := rfl
@[simp] theorem waitFor_cores (s : State) (w : Wait) : (s.waitFor w).cores = s.cores := rfl
@[simp] theorem waitFor_mem (s : State) (w : Wait) : (s.waitFor w).mem = s.mem := rfl
@[simp] theorem waitFor_tlb (s : State) (w : Wait) : (s.waitFor w).tlb = s.tlb := rfl
@[simp] theorem waitFor_past (s : State) (w : Wait) : (s.waitFor w).past = s.past := rfl
@[simp] theorem waitFor_stamps (s : State) (w : Wait) : (s.waitFor w).stamps = s.stamps := rfl
@[simp] theorem waitFor_syncs (s : State) (w : Wait) : (s.waitFor w).syncs = s.syncs := rfl
@[simp] theorem waitFor_walks (s : State) (w : Wait) : (s.waitFor w).walks = s.walks := rfl
@[simp] theorem waitFor_poison (s : State) (w : Wait) : (s.waitFor w).poison = s.poison := rfl
@[simp] theorem waitFor_lines (s : State) (w : Wait) : (s.waitFor w).lines = s.lines := rfl
@[simp] theorem waitFor_rdc (s : State) (w : Wait) : (s.waitFor w).rdc = s.rdc := rfl
@[simp] theorem waitFor_windows (s : State) (w : Wait) : (s.waitFor w).windows = s.windows := rfl
@[simp] theorem waitFor_home (s : State) (w : Wait) : (s.waitFor w).home = s.home := rfl
@[simp] theorem waitFor_net (s : State) (w : Wait) : (s.waitFor w).net = s.net := rfl
@[simp] theorem waitFor_pps (s : State) (w : Wait) : (s.waitFor w).pps = s.pps := rfl
@[simp] theorem waitFor_replies (s : State) (w : Wait) : (s.waitFor w).replies = s.replies := rfl
@[simp] theorem waitFor_joinFails (s : State) (w : Wait) : (s.waitFor w).joinFails = s.joinFails := rfl
@[simp] theorem waitFor_copies (s : State) (w : Wait) : (s.waitFor w).copies = s.copies := rfl
@[simp] theorem waitFor_posts (s : State) (w : Wait) : (s.waitFor w).posts = s.posts := rfl
@[simp] theorem waitFor_arrays (s : State) (w : Wait) : (s.waitFor w).arrays = s.arrays := rfl
@[simp] theorem waitFor_sends (s : State) (w : Wait) : (s.waitFor w).sends = s.sends := rfl
@[simp] theorem waitFor_ctxs (s : State) (w : Wait) : (s.waitFor w).ctxs = s.ctxs := rfl
@[simp] theorem waitFor_parts (s : State) (w : Wait) : (s.waitFor w).parts = s.parts := rfl
@[simp] theorem waitFor_switches (s : State) (w : Wait) : (s.waitFor w).switches = s.switches := rfl
@[simp] theorem waitFor_images (s : State) (w : Wait) : (s.waitFor w).images = s.images := rfl
@[simp] theorem waitFor_saves (s : State) (w : Wait) : (s.waitFor w).saves = s.saves := rfl
@[simp] theorem waitFor_dist (s : State) (w : Wait) : (s.waitFor w).dist = s.dist := rfl
@[simp] theorem waitFor_trust (s : State) (w : Wait) : (s.waitFor w).trust = s.trust := rfl
@[simp] theorem waitFor_host (s : State) (w : Wait) : (s.waitFor w).host = s.host := rfl
@[simp] theorem waitFor_fabric (s : State) (w : Wait) : (s.waitFor w).fabric = s.fabric := rfl
@[simp] theorem waitFor_plant (s : State) (w : Wait) : (s.waitFor w).plant = s.plant := rfl
@[simp] theorem waitFor_oper (s : State) (w : Wait) : (s.waitFor w).oper = s.oper := rfl
@[simp] theorem waitFor_time (s : State) (w : Wait) : (s.waitFor w).time = s.time := rfl
@[simp] theorem waitFor_nTicks (s : State) (w : Wait) : (s.waitFor w).nTicks = s.nTicks := rfl
@[simp] theorem waitFor_dTicks (s : State) (w : Wait) : (s.waitFor w).dTicks = s.dTicks := rfl
@[simp] theorem waitFor_tally (s : State) (w : Wait) : (s.waitFor w).tally = s.tally := rfl
@[simp] theorem waitFor_pkg (s : State) (w : Wait) : (s.waitFor w).pkg = s.pkg := rfl
@[simp] theorem waitFor_agenda (s : State) (w : Wait) : (s.waitFor w).agenda = s.agenda := rfl
@[simp] theorem waitFor_turn (s : State) (w : Wait) : (s.waitFor w).turn = s.turn := rfl

end State

/-! ## A thread -/

namespace Hart

@[simp] theorem fillX_who (h : Hart) (i : Fin 33) (v : Word) : (h.fillX i v).who = h.who := rfl
@[simp] theorem fillX_life (h : Hart) (i : Fin 33) (v : Word) : (h.fillX i v).life = h.life := rfl
@[simp] theorem fillX_wait (h : Hart) (i : Fin 33) (v : Word) : (h.fillX i v).wait = h.wait := rfl
@[simp] theorem fillX_v (h : Hart) (i : Fin 33) (v : Word) : (h.fillX i v).v = h.v := rfl
@[simp] theorem fillX_ve (h : Hart) (i : Fin 33) (v : Word) : (h.fillX i v).ve = h.ve := rfl
@[simp] theorem fillX_vr (h : Hart) (i : Fin 33) (v : Word) : (h.fillX i v).vr = h.vr := rfl
@[simp] theorem fillX_pc (h : Hart) (i : Fin 33) (v : Word) : (h.fillX i v).pc = h.pc := rfl
@[simp] theorem fillX_word (h : Hart) (i : Fin 33) (v : Word) : (h.fillX i v).word = h.word := rfl
@[simp] theorem fillX_latch (h : Hart) (i : Fin 33) (v : Word) : (h.fillX i v).latch = h.latch := rfl
@[simp] theorem fillX_sys (h : Hart) (i : Fin 33) (v : Word) : (h.fillX i v).sys = h.sys := rfl
@[simp] theorem fillX_frame (h : Hart) (i : Fin 33) (v : Word) : (h.fillX i v).frame = h.frame := rfl
@[simp] theorem fillX_rng (h : Hart) (i : Fin 33) (v : Word) : (h.fillX i v).rng = h.rng := rfl
@[simp] theorem fillX_desc (h : Hart) (i : Fin 33) (v : Word) : (h.fillX i v).desc = h.desc := rfl
@[simp] theorem fillX_stream (h : Hart) (i : Fin 33) (v : Word) : (h.fillX i v).stream = h.stream := rfl
@[simp] theorem fillX_task (h : Hart) (i : Fin 33) (v : Word) : (h.fillX i v).task = h.task := rfl
@[simp] theorem fillX_barwa (h : Hart) (i : Fin 33) (v : Word) : (h.fillX i v).barwa = h.barwa := rfl
@[simp] theorem fillX_handler (h : Hart) (i : Fin 33) (v : Word) : (h.fillX i v).handler = h.handler := rfl
@[simp] theorem fillX_ended (h : Hart) (i : Fin 33) (v : Word) : (h.fillX i v).ended = h.ended := rfl
@[simp] theorem fillX_walkFault (h : Hart) (i : Fin 33) (v : Word) : (h.fillX i v).walkFault = h.walkFault := rfl
@[simp] theorem fillX_since (h : Hart) (i : Fin 33) (v : Word) : (h.fillX i v).since = h.since := rfl
@[simp] theorem fillX_resumed (h : Hart) (i : Fin 33) (v : Word) : (h.fillX i v).resumed = h.resumed := rfl
@[simp] theorem fillX_prefixSaved (h : Hart) (i : Fin 33) (v : Word) : (h.fillX i v).prefixSaved = h.prefixSaved := rfl
@[simp] theorem fillX_landed (h : Hart) (i : Fin 33) (v : Word) : (h.fillX i v).landed = h.landed := rfl
@[simp] theorem fillX_elemsDone (h : Hart) (i : Fin 33) (v : Word) : (h.fillX i v).elemsDone = h.elemsDone := rfl
@[simp] theorem fillX_debugger (h : Hart) (i : Fin 33) (v : Word) : (h.fillX i v).debugger = h.debugger := rfl
@[simp] theorem fillX_counters (h : Hart) (i : Fin 33) (v : Word) : (h.fillX i v).counters = h.counters := rfl
@[simp] theorem setX_who (h : Hart) (r : Reg) (v : Word) : (h.setX r v).who = h.who := by unfold Hart.setX; split <;> rfl
@[simp] theorem setX_life (h : Hart) (r : Reg) (v : Word) : (h.setX r v).life = h.life := by unfold Hart.setX; split <;> rfl
@[simp] theorem setX_wait (h : Hart) (r : Reg) (v : Word) : (h.setX r v).wait = h.wait := by unfold Hart.setX; split <;> rfl
@[simp] theorem setX_v (h : Hart) (r : Reg) (v : Word) : (h.setX r v).v = h.v := by unfold Hart.setX; split <;> rfl
@[simp] theorem setX_ve (h : Hart) (r : Reg) (v : Word) : (h.setX r v).ve = h.ve := by unfold Hart.setX; split <;> rfl
@[simp] theorem setX_vr (h : Hart) (r : Reg) (v : Word) : (h.setX r v).vr = h.vr := by unfold Hart.setX; split <;> rfl
@[simp] theorem setX_pc (h : Hart) (r : Reg) (v : Word) : (h.setX r v).pc = h.pc := by unfold Hart.setX; split <;> rfl
@[simp] theorem setX_word (h : Hart) (r : Reg) (v : Word) : (h.setX r v).word = h.word := by unfold Hart.setX; split <;> rfl
@[simp] theorem setX_latch (h : Hart) (r : Reg) (v : Word) : (h.setX r v).latch = h.latch := by unfold Hart.setX; split <;> rfl
@[simp] theorem setX_sys (h : Hart) (r : Reg) (v : Word) : (h.setX r v).sys = h.sys := by unfold Hart.setX; split <;> rfl
@[simp] theorem setX_frame (h : Hart) (r : Reg) (v : Word) : (h.setX r v).frame = h.frame := by unfold Hart.setX; split <;> rfl
@[simp] theorem setX_rng (h : Hart) (r : Reg) (v : Word) : (h.setX r v).rng = h.rng := by unfold Hart.setX; split <;> rfl
@[simp] theorem setX_desc (h : Hart) (r : Reg) (v : Word) : (h.setX r v).desc = h.desc := by unfold Hart.setX; split <;> rfl
@[simp] theorem setX_stream (h : Hart) (r : Reg) (v : Word) : (h.setX r v).stream = h.stream := by unfold Hart.setX; split <;> rfl
@[simp] theorem setX_task (h : Hart) (r : Reg) (v : Word) : (h.setX r v).task = h.task := by unfold Hart.setX; split <;> rfl
@[simp] theorem setX_barwa (h : Hart) (r : Reg) (v : Word) : (h.setX r v).barwa = h.barwa := by unfold Hart.setX; split <;> rfl
@[simp] theorem setX_handler (h : Hart) (r : Reg) (v : Word) : (h.setX r v).handler = h.handler := by unfold Hart.setX; split <;> rfl
@[simp] theorem setX_ended (h : Hart) (r : Reg) (v : Word) : (h.setX r v).ended = h.ended := by unfold Hart.setX; split <;> rfl
@[simp] theorem setX_walkFault (h : Hart) (r : Reg) (v : Word) : (h.setX r v).walkFault = h.walkFault := by unfold Hart.setX; split <;> rfl
@[simp] theorem setX_since (h : Hart) (r : Reg) (v : Word) : (h.setX r v).since = h.since := by unfold Hart.setX; split <;> rfl
@[simp] theorem setX_resumed (h : Hart) (r : Reg) (v : Word) : (h.setX r v).resumed = h.resumed := by unfold Hart.setX; split <;> rfl
@[simp] theorem setX_prefixSaved (h : Hart) (r : Reg) (v : Word) : (h.setX r v).prefixSaved = h.prefixSaved := by unfold Hart.setX; split <;> rfl
@[simp] theorem setX_landed (h : Hart) (r : Reg) (v : Word) : (h.setX r v).landed = h.landed := by unfold Hart.setX; split <;> rfl
@[simp] theorem setX_elemsDone (h : Hart) (r : Reg) (v : Word) : (h.setX r v).elemsDone = h.elemsDone := by unfold Hart.setX; split <;> rfl
@[simp] theorem setX_debugger (h : Hart) (r : Reg) (v : Word) : (h.setX r v).debugger = h.debugger := by unfold Hart.setX; split <;> rfl
@[simp] theorem setX_counters (h : Hart) (r : Reg) (v : Word) : (h.setX r v).counters = h.counters := by unfold Hart.setX; split <;> rfl
@[simp] theorem markX_who (h : Hart) (r : Reg) : (h.markX r).who = h.who := by unfold Hart.markX; split <;> rfl
@[simp] theorem markX_life (h : Hart) (r : Reg) : (h.markX r).life = h.life := by unfold Hart.markX; split <;> rfl
@[simp] theorem markX_wait (h : Hart) (r : Reg) : (h.markX r).wait = h.wait := by unfold Hart.markX; split <;> rfl
@[simp] theorem markX_x (h : Hart) (r : Reg) : (h.markX r).x = h.x := by unfold Hart.markX; split <;> rfl
@[simp] theorem markX_xr (h : Hart) (r : Reg) : (h.markX r).xr = h.xr := by unfold Hart.markX; split <;> rfl
@[simp] theorem markX_v (h : Hart) (r : Reg) : (h.markX r).v = h.v := by unfold Hart.markX; split <;> rfl
@[simp] theorem markX_ve (h : Hart) (r : Reg) : (h.markX r).ve = h.ve := by unfold Hart.markX; split <;> rfl
@[simp] theorem markX_vr (h : Hart) (r : Reg) : (h.markX r).vr = h.vr := by unfold Hart.markX; split <;> rfl
@[simp] theorem markX_pc (h : Hart) (r : Reg) : (h.markX r).pc = h.pc := by unfold Hart.markX; split <;> rfl
@[simp] theorem markX_word (h : Hart) (r : Reg) : (h.markX r).word = h.word := by unfold Hart.markX; split <;> rfl
@[simp] theorem markX_latch (h : Hart) (r : Reg) : (h.markX r).latch = h.latch := by unfold Hart.markX; split <;> rfl
@[simp] theorem markX_sys (h : Hart) (r : Reg) : (h.markX r).sys = h.sys := by unfold Hart.markX; split <;> rfl
@[simp] theorem markX_frame (h : Hart) (r : Reg) : (h.markX r).frame = h.frame := by unfold Hart.markX; split <;> rfl
@[simp] theorem markX_rng (h : Hart) (r : Reg) : (h.markX r).rng = h.rng := by unfold Hart.markX; split <;> rfl
@[simp] theorem markX_desc (h : Hart) (r : Reg) : (h.markX r).desc = h.desc := by unfold Hart.markX; split <;> rfl
@[simp] theorem markX_stream (h : Hart) (r : Reg) : (h.markX r).stream = h.stream := by unfold Hart.markX; split <;> rfl
@[simp] theorem markX_task (h : Hart) (r : Reg) : (h.markX r).task = h.task := by unfold Hart.markX; split <;> rfl
@[simp] theorem markX_barwa (h : Hart) (r : Reg) : (h.markX r).barwa = h.barwa := by unfold Hart.markX; split <;> rfl
@[simp] theorem markX_handler (h : Hart) (r : Reg) : (h.markX r).handler = h.handler := by unfold Hart.markX; split <;> rfl
@[simp] theorem markX_ended (h : Hart) (r : Reg) : (h.markX r).ended = h.ended := by unfold Hart.markX; split <;> rfl
@[simp] theorem markX_walkFault (h : Hart) (r : Reg) : (h.markX r).walkFault = h.walkFault := by unfold Hart.markX; split <;> rfl
@[simp] theorem markX_since (h : Hart) (r : Reg) : (h.markX r).since = h.since := by unfold Hart.markX; split <;> rfl
@[simp] theorem markX_resumed (h : Hart) (r : Reg) : (h.markX r).resumed = h.resumed := by unfold Hart.markX; split <;> rfl
@[simp] theorem markX_prefixSaved (h : Hart) (r : Reg) : (h.markX r).prefixSaved = h.prefixSaved := by unfold Hart.markX; split <;> rfl
@[simp] theorem markX_landed (h : Hart) (r : Reg) : (h.markX r).landed = h.landed := by unfold Hart.markX; split <;> rfl
@[simp] theorem markX_elemsDone (h : Hart) (r : Reg) : (h.markX r).elemsDone = h.elemsDone := by unfold Hart.markX; split <;> rfl
@[simp] theorem markX_debugger (h : Hart) (r : Reg) : (h.markX r).debugger = h.debugger := by unfold Hart.markX; split <;> rfl
@[simp] theorem markX_counters (h : Hart) (r : Reg) : (h.markX r).counters = h.counters := by unfold Hart.markX; split <;> rfl
@[simp] theorem setV_who (h : Hart) (r : VReg) (v : Vec) : (h.setV r v).who = h.who := rfl
@[simp] theorem setV_life (h : Hart) (r : VReg) (v : Vec) : (h.setV r v).life = h.life := rfl
@[simp] theorem setV_wait (h : Hart) (r : VReg) (v : Vec) : (h.setV r v).wait = h.wait := rfl
@[simp] theorem setV_x (h : Hart) (r : VReg) (v : Vec) : (h.setV r v).x = h.x := rfl
@[simp] theorem setV_xe (h : Hart) (r : VReg) (v : Vec) : (h.setV r v).xe = h.xe := rfl
@[simp] theorem setV_xr (h : Hart) (r : VReg) (v : Vec) : (h.setV r v).xr = h.xr := rfl
@[simp] theorem setV_pc (h : Hart) (r : VReg) (v : Vec) : (h.setV r v).pc = h.pc := rfl
@[simp] theorem setV_word (h : Hart) (r : VReg) (v : Vec) : (h.setV r v).word = h.word := rfl
@[simp] theorem setV_latch (h : Hart) (r : VReg) (v : Vec) : (h.setV r v).latch = h.latch := rfl
@[simp] theorem setV_sys (h : Hart) (r : VReg) (v : Vec) : (h.setV r v).sys = h.sys := rfl
@[simp] theorem setV_frame (h : Hart) (r : VReg) (v : Vec) : (h.setV r v).frame = h.frame := rfl
@[simp] theorem setV_rng (h : Hart) (r : VReg) (v : Vec) : (h.setV r v).rng = h.rng := rfl
@[simp] theorem setV_desc (h : Hart) (r : VReg) (v : Vec) : (h.setV r v).desc = h.desc := rfl
@[simp] theorem setV_stream (h : Hart) (r : VReg) (v : Vec) : (h.setV r v).stream = h.stream := rfl
@[simp] theorem setV_task (h : Hart) (r : VReg) (v : Vec) : (h.setV r v).task = h.task := rfl
@[simp] theorem setV_barwa (h : Hart) (r : VReg) (v : Vec) : (h.setV r v).barwa = h.barwa := rfl
@[simp] theorem setV_handler (h : Hart) (r : VReg) (v : Vec) : (h.setV r v).handler = h.handler := rfl
@[simp] theorem setV_ended (h : Hart) (r : VReg) (v : Vec) : (h.setV r v).ended = h.ended := rfl
@[simp] theorem setV_walkFault (h : Hart) (r : VReg) (v : Vec) : (h.setV r v).walkFault = h.walkFault := rfl
@[simp] theorem setV_since (h : Hart) (r : VReg) (v : Vec) : (h.setV r v).since = h.since := rfl
@[simp] theorem setV_resumed (h : Hart) (r : VReg) (v : Vec) : (h.setV r v).resumed = h.resumed := rfl
@[simp] theorem setV_prefixSaved (h : Hart) (r : VReg) (v : Vec) : (h.setV r v).prefixSaved = h.prefixSaved := rfl
@[simp] theorem setV_landed (h : Hart) (r : VReg) (v : Vec) : (h.setV r v).landed = h.landed := rfl
@[simp] theorem setV_elemsDone (h : Hart) (r : VReg) (v : Vec) : (h.setV r v).elemsDone = h.elemsDone := rfl
@[simp] theorem setV_debugger (h : Hart) (r : VReg) (v : Vec) : (h.setV r v).debugger = h.debugger := rfl
@[simp] theorem setV_counters (h : Hart) (r : VReg) (v : Vec) : (h.setV r v).counters = h.counters := rfl
@[simp] theorem markV_who (h : Hart) (r : VReg) : (h.markV r).who = h.who := rfl
@[simp] theorem markV_life (h : Hart) (r : VReg) : (h.markV r).life = h.life := rfl
@[simp] theorem markV_wait (h : Hart) (r : VReg) : (h.markV r).wait = h.wait := rfl
@[simp] theorem markV_x (h : Hart) (r : VReg) : (h.markV r).x = h.x := rfl
@[simp] theorem markV_xe (h : Hart) (r : VReg) : (h.markV r).xe = h.xe := rfl
@[simp] theorem markV_xr (h : Hart) (r : VReg) : (h.markV r).xr = h.xr := rfl
@[simp] theorem markV_v (h : Hart) (r : VReg) : (h.markV r).v = h.v := rfl
@[simp] theorem markV_vr (h : Hart) (r : VReg) : (h.markV r).vr = h.vr := rfl
@[simp] theorem markV_pc (h : Hart) (r : VReg) : (h.markV r).pc = h.pc := rfl
@[simp] theorem markV_word (h : Hart) (r : VReg) : (h.markV r).word = h.word := rfl
@[simp] theorem markV_latch (h : Hart) (r : VReg) : (h.markV r).latch = h.latch := rfl
@[simp] theorem markV_sys (h : Hart) (r : VReg) : (h.markV r).sys = h.sys := rfl
@[simp] theorem markV_frame (h : Hart) (r : VReg) : (h.markV r).frame = h.frame := rfl
@[simp] theorem markV_rng (h : Hart) (r : VReg) : (h.markV r).rng = h.rng := rfl
@[simp] theorem markV_desc (h : Hart) (r : VReg) : (h.markV r).desc = h.desc := rfl
@[simp] theorem markV_stream (h : Hart) (r : VReg) : (h.markV r).stream = h.stream := rfl
@[simp] theorem markV_task (h : Hart) (r : VReg) : (h.markV r).task = h.task := rfl
@[simp] theorem markV_barwa (h : Hart) (r : VReg) : (h.markV r).barwa = h.barwa := rfl
@[simp] theorem markV_handler (h : Hart) (r : VReg) : (h.markV r).handler = h.handler := rfl
@[simp] theorem markV_ended (h : Hart) (r : VReg) : (h.markV r).ended = h.ended := rfl
@[simp] theorem markV_walkFault (h : Hart) (r : VReg) : (h.markV r).walkFault = h.walkFault := rfl
@[simp] theorem markV_since (h : Hart) (r : VReg) : (h.markV r).since = h.since := rfl
@[simp] theorem markV_resumed (h : Hart) (r : VReg) : (h.markV r).resumed = h.resumed := rfl
@[simp] theorem markV_prefixSaved (h : Hart) (r : VReg) : (h.markV r).prefixSaved = h.prefixSaved := rfl
@[simp] theorem markV_landed (h : Hart) (r : VReg) : (h.markV r).landed = h.landed := rfl
@[simp] theorem markV_elemsDone (h : Hart) (r : VReg) : (h.markV r).elemsDone = h.elemsDone := rfl
@[simp] theorem markV_debugger (h : Hart) (r : VReg) : (h.markV r).debugger = h.debugger := rfl
@[simp] theorem markV_counters (h : Hart) (r : VReg) : (h.markV r).counters = h.counters := rfl
@[simp] theorem setStatus_who (h : Hart) (v : Word) : (h.setStatus v).who = h.who := rfl
@[simp] theorem setStatus_life (h : Hart) (v : Word) : (h.setStatus v).life = h.life := rfl
@[simp] theorem setStatus_wait (h : Hart) (v : Word) : (h.setStatus v).wait = h.wait := rfl
@[simp] theorem setStatus_x (h : Hart) (v : Word) : (h.setStatus v).x = h.x := rfl
@[simp] theorem setStatus_xe (h : Hart) (v : Word) : (h.setStatus v).xe = h.xe := rfl
@[simp] theorem setStatus_xr (h : Hart) (v : Word) : (h.setStatus v).xr = h.xr := rfl
@[simp] theorem setStatus_v (h : Hart) (v : Word) : (h.setStatus v).v = h.v := rfl
@[simp] theorem setStatus_ve (h : Hart) (v : Word) : (h.setStatus v).ve = h.ve := rfl
@[simp] theorem setStatus_vr (h : Hart) (v : Word) : (h.setStatus v).vr = h.vr := rfl
@[simp] theorem setStatus_pc (h : Hart) (v : Word) : (h.setStatus v).pc = h.pc := rfl
@[simp] theorem setStatus_word (h : Hart) (v : Word) : (h.setStatus v).word = h.word := rfl
@[simp] theorem setStatus_latch (h : Hart) (v : Word) : (h.setStatus v).latch = h.latch := rfl
@[simp] theorem setStatus_frame (h : Hart) (v : Word) : (h.setStatus v).frame = h.frame := rfl
@[simp] theorem setStatus_rng (h : Hart) (v : Word) : (h.setStatus v).rng = h.rng := rfl
@[simp] theorem setStatus_desc (h : Hart) (v : Word) : (h.setStatus v).desc = h.desc := rfl
@[simp] theorem setStatus_stream (h : Hart) (v : Word) : (h.setStatus v).stream = h.stream := rfl
@[simp] theorem setStatus_task (h : Hart) (v : Word) : (h.setStatus v).task = h.task := rfl
@[simp] theorem setStatus_barwa (h : Hart) (v : Word) : (h.setStatus v).barwa = h.barwa := rfl
@[simp] theorem setStatus_handler (h : Hart) (v : Word) : (h.setStatus v).handler = h.handler := rfl
@[simp] theorem setStatus_ended (h : Hart) (v : Word) : (h.setStatus v).ended = h.ended := rfl
@[simp] theorem setStatus_walkFault (h : Hart) (v : Word) : (h.setStatus v).walkFault = h.walkFault := rfl
@[simp] theorem setStatus_since (h : Hart) (v : Word) : (h.setStatus v).since = h.since := rfl
@[simp] theorem setStatus_resumed (h : Hart) (v : Word) : (h.setStatus v).resumed = h.resumed := rfl
@[simp] theorem setStatus_prefixSaved (h : Hart) (v : Word) : (h.setStatus v).prefixSaved = h.prefixSaved := rfl
@[simp] theorem setStatus_landed (h : Hart) (v : Word) : (h.setStatus v).landed = h.landed := rfl
@[simp] theorem setStatus_elemsDone (h : Hart) (v : Word) : (h.setStatus v).elemsDone = h.elemsDone := rfl
@[simp] theorem setStatus_debugger (h : Hart) (v : Word) : (h.setStatus v).debugger = h.debugger := rfl
@[simp] theorem setStatus_counters (h : Hart) (v : Word) : (h.setStatus v).counters = h.counters := rfl
@[simp] theorem setFramePos_who (h : Hart) (i p b : Nat) : (h.setFramePos i p b).who = h.who := rfl
@[simp] theorem setFramePos_life (h : Hart) (i p b : Nat) : (h.setFramePos i p b).life = h.life := rfl
@[simp] theorem setFramePos_wait (h : Hart) (i p b : Nat) : (h.setFramePos i p b).wait = h.wait := rfl
@[simp] theorem setFramePos_x (h : Hart) (i p b : Nat) : (h.setFramePos i p b).x = h.x := rfl
@[simp] theorem setFramePos_xe (h : Hart) (i p b : Nat) : (h.setFramePos i p b).xe = h.xe := rfl
@[simp] theorem setFramePos_xr (h : Hart) (i p b : Nat) : (h.setFramePos i p b).xr = h.xr := rfl
@[simp] theorem setFramePos_v (h : Hart) (i p b : Nat) : (h.setFramePos i p b).v = h.v := rfl
@[simp] theorem setFramePos_ve (h : Hart) (i p b : Nat) : (h.setFramePos i p b).ve = h.ve := rfl
@[simp] theorem setFramePos_vr (h : Hart) (i p b : Nat) : (h.setFramePos i p b).vr = h.vr := rfl
@[simp] theorem setFramePos_pc (h : Hart) (i p b : Nat) : (h.setFramePos i p b).pc = h.pc := rfl
@[simp] theorem setFramePos_word (h : Hart) (i p b : Nat) : (h.setFramePos i p b).word = h.word := rfl
@[simp] theorem setFramePos_latch (h : Hart) (i p b : Nat) : (h.setFramePos i p b).latch = h.latch := rfl
@[simp] theorem setFramePos_frame (h : Hart) (i p b : Nat) : (h.setFramePos i p b).frame = h.frame := rfl
@[simp] theorem setFramePos_rng (h : Hart) (i p b : Nat) : (h.setFramePos i p b).rng = h.rng := rfl
@[simp] theorem setFramePos_desc (h : Hart) (i p b : Nat) : (h.setFramePos i p b).desc = h.desc := rfl
@[simp] theorem setFramePos_stream (h : Hart) (i p b : Nat) : (h.setFramePos i p b).stream = h.stream := rfl
@[simp] theorem setFramePos_task (h : Hart) (i p b : Nat) : (h.setFramePos i p b).task = h.task := rfl
@[simp] theorem setFramePos_barwa (h : Hart) (i p b : Nat) : (h.setFramePos i p b).barwa = h.barwa := rfl
@[simp] theorem setFramePos_handler (h : Hart) (i p b : Nat) : (h.setFramePos i p b).handler = h.handler := rfl
@[simp] theorem setFramePos_ended (h : Hart) (i p b : Nat) : (h.setFramePos i p b).ended = h.ended := rfl
@[simp] theorem setFramePos_walkFault (h : Hart) (i p b : Nat) : (h.setFramePos i p b).walkFault = h.walkFault := rfl
@[simp] theorem setFramePos_since (h : Hart) (i p b : Nat) : (h.setFramePos i p b).since = h.since := rfl
@[simp] theorem setFramePos_resumed (h : Hart) (i p b : Nat) : (h.setFramePos i p b).resumed = h.resumed := rfl
@[simp] theorem setFramePos_prefixSaved (h : Hart) (i p b : Nat) : (h.setFramePos i p b).prefixSaved = h.prefixSaved := rfl
@[simp] theorem setFramePos_landed (h : Hart) (i p b : Nat) : (h.setFramePos i p b).landed = h.landed := rfl
@[simp] theorem setFramePos_elemsDone (h : Hart) (i p b : Nat) : (h.setFramePos i p b).elemsDone = h.elemsDone := rfl
@[simp] theorem setFramePos_debugger (h : Hart) (i p b : Nat) : (h.setFramePos i p b).debugger = h.debugger := rfl
@[simp] theorem setFramePos_counters (h : Hart) (i p b : Nat) : (h.setFramePos i p b).counters = h.counters := rfl
@[simp] theorem settle_who (h : Hart) : (h.settle).who = h.who := rfl
@[simp] theorem settle_life (h : Hart) : (h.settle).life = h.life := rfl
@[simp] theorem settle_x (h : Hart) : (h.settle).x = h.x := rfl
@[simp] theorem settle_xe (h : Hart) : (h.settle).xe = h.xe := rfl
@[simp] theorem settle_xr (h : Hart) : (h.settle).xr = h.xr := rfl
@[simp] theorem settle_v (h : Hart) : (h.settle).v = h.v := rfl
@[simp] theorem settle_ve (h : Hart) : (h.settle).ve = h.ve := rfl
@[simp] theorem settle_vr (h : Hart) : (h.settle).vr = h.vr := rfl
@[simp] theorem settle_pc (h : Hart) : (h.settle).pc = h.pc := rfl
@[simp] theorem settle_word (h : Hart) : (h.settle).word = h.word := rfl
@[simp] theorem settle_sys (h : Hart) : (h.settle).sys = h.sys := rfl
@[simp] theorem settle_frame (h : Hart) : (h.settle).frame = h.frame := rfl
@[simp] theorem settle_rng (h : Hart) : (h.settle).rng = h.rng := rfl
@[simp] theorem settle_desc (h : Hart) : (h.settle).desc = h.desc := rfl
@[simp] theorem settle_stream (h : Hart) : (h.settle).stream = h.stream := rfl
@[simp] theorem settle_task (h : Hart) : (h.settle).task = h.task := rfl
@[simp] theorem settle_barwa (h : Hart) : (h.settle).barwa = h.barwa := rfl
@[simp] theorem settle_handler (h : Hart) : (h.settle).handler = h.handler := rfl
@[simp] theorem settle_debugger (h : Hart) : (h.settle).debugger = h.debugger := rfl
@[simp] theorem settle_counters (h : Hart) : (h.settle).counters = h.counters := rfl
@[simp] theorem frameNext_who (h : Hart) (n : Nat) : (h.frameNext n).who = h.who := by unfold Hart.frameNext; split <;> (try split) <;> rfl
@[simp] theorem frameNext_life (h : Hart) (n : Nat) : (h.frameNext n).life = h.life := by unfold Hart.frameNext; split <;> (try split) <;> rfl
@[simp] theorem frameNext_wait (h : Hart) (n : Nat) : (h.frameNext n).wait = h.wait := by unfold Hart.frameNext; split <;> (try split) <;> rfl
@[simp] theorem frameNext_x (h : Hart) (n : Nat) : (h.frameNext n).x = h.x := by unfold Hart.frameNext; split <;> (try split) <;> rfl
@[simp] theorem frameNext_xe (h : Hart) (n : Nat) : (h.frameNext n).xe = h.xe := by unfold Hart.frameNext; split <;> (try split) <;> rfl
@[simp] theorem frameNext_xr (h : Hart) (n : Nat) : (h.frameNext n).xr = h.xr := by unfold Hart.frameNext; split <;> (try split) <;> rfl
@[simp] theorem frameNext_v (h : Hart) (n : Nat) : (h.frameNext n).v = h.v := by unfold Hart.frameNext; split <;> (try split) <;> rfl
@[simp] theorem frameNext_ve (h : Hart) (n : Nat) : (h.frameNext n).ve = h.ve := by unfold Hart.frameNext; split <;> (try split) <;> rfl
@[simp] theorem frameNext_vr (h : Hart) (n : Nat) : (h.frameNext n).vr = h.vr := by unfold Hart.frameNext; split <;> (try split) <;> rfl
@[simp] theorem frameNext_word (h : Hart) (n : Nat) : (h.frameNext n).word = h.word := by unfold Hart.frameNext; split <;> (try split) <;> rfl
@[simp] theorem frameNext_latch (h : Hart) (n : Nat) : (h.frameNext n).latch = h.latch := by unfold Hart.frameNext; split <;> (try split) <;> rfl
@[simp] theorem frameNext_rng (h : Hart) (n : Nat) : (h.frameNext n).rng = h.rng := by unfold Hart.frameNext; split <;> (try split) <;> rfl
@[simp] theorem frameNext_desc (h : Hart) (n : Nat) : (h.frameNext n).desc = h.desc := by unfold Hart.frameNext; split <;> (try split) <;> rfl
@[simp] theorem frameNext_stream (h : Hart) (n : Nat) : (h.frameNext n).stream = h.stream := by unfold Hart.frameNext; split <;> (try split) <;> rfl
@[simp] theorem frameNext_task (h : Hart) (n : Nat) : (h.frameNext n).task = h.task := by unfold Hart.frameNext; split <;> (try split) <;> rfl
@[simp] theorem frameNext_barwa (h : Hart) (n : Nat) : (h.frameNext n).barwa = h.barwa := by unfold Hart.frameNext; split <;> (try split) <;> rfl
@[simp] theorem frameNext_handler (h : Hart) (n : Nat) : (h.frameNext n).handler = h.handler := by unfold Hart.frameNext; split <;> (try split) <;> rfl
@[simp] theorem frameNext_ended (h : Hart) (n : Nat) : (h.frameNext n).ended = h.ended := by unfold Hart.frameNext; split <;> (try split) <;> rfl
@[simp] theorem frameNext_walkFault (h : Hart) (n : Nat) : (h.frameNext n).walkFault = h.walkFault := by unfold Hart.frameNext; split <;> (try split) <;> rfl
@[simp] theorem frameNext_since (h : Hart) (n : Nat) : (h.frameNext n).since = h.since := by unfold Hart.frameNext; split <;> (try split) <;> rfl
@[simp] theorem frameNext_resumed (h : Hart) (n : Nat) : (h.frameNext n).resumed = h.resumed := by unfold Hart.frameNext; split <;> (try split) <;> rfl
@[simp] theorem frameNext_prefixSaved (h : Hart) (n : Nat) : (h.frameNext n).prefixSaved = h.prefixSaved := by unfold Hart.frameNext; split <;> (try split) <;> rfl
@[simp] theorem frameNext_landed (h : Hart) (n : Nat) : (h.frameNext n).landed = h.landed := by unfold Hart.frameNext; split <;> (try split) <;> rfl
@[simp] theorem frameNext_elemsDone (h : Hart) (n : Nat) : (h.frameNext n).elemsDone = h.elemsDone := by unfold Hart.frameNext; split <;> (try split) <;> rfl
@[simp] theorem frameNext_debugger (h : Hart) (n : Nat) : (h.frameNext n).debugger = h.debugger := by unfold Hart.frameNext; split <;> (try split) <;> rfl
@[simp] theorem frameNext_counters (h : Hart) (n : Nat) : (h.frameNext n).counters = h.counters := by unfold Hart.frameNext; split <;> (try split) <;> rfl
@[simp] theorem advance_who (h : Hart) (n : Nat) : (h.advance n).who = h.who := by unfold Hart.advance; split <;> simp
@[simp] theorem advance_life (h : Hart) (n : Nat) : (h.advance n).life = h.life := by unfold Hart.advance; split <;> simp
@[simp] theorem advance_x (h : Hart) (n : Nat) : (h.advance n).x = h.x := by unfold Hart.advance; split <;> simp
@[simp] theorem advance_xe (h : Hart) (n : Nat) : (h.advance n).xe = h.xe := by unfold Hart.advance; split <;> simp
@[simp] theorem advance_xr (h : Hart) (n : Nat) : (h.advance n).xr = h.xr := by unfold Hart.advance; split <;> simp
@[simp] theorem advance_v (h : Hart) (n : Nat) : (h.advance n).v = h.v := by unfold Hart.advance; split <;> simp
@[simp] theorem advance_ve (h : Hart) (n : Nat) : (h.advance n).ve = h.ve := by unfold Hart.advance; split <;> simp
@[simp] theorem advance_vr (h : Hart) (n : Nat) : (h.advance n).vr = h.vr := by unfold Hart.advance; split <;> simp
@[simp] theorem advance_word (h : Hart) (n : Nat) : (h.advance n).word = h.word := by unfold Hart.advance; split <;> simp
@[simp] theorem advance_rng (h : Hart) (n : Nat) : (h.advance n).rng = h.rng := by unfold Hart.advance; split <;> simp
@[simp] theorem advance_desc (h : Hart) (n : Nat) : (h.advance n).desc = h.desc := by unfold Hart.advance; split <;> simp
@[simp] theorem advance_stream (h : Hart) (n : Nat) : (h.advance n).stream = h.stream := by unfold Hart.advance; split <;> simp
@[simp] theorem advance_task (h : Hart) (n : Nat) : (h.advance n).task = h.task := by unfold Hart.advance; split <;> simp
@[simp] theorem advance_barwa (h : Hart) (n : Nat) : (h.advance n).barwa = h.barwa := by unfold Hart.advance; split <;> simp
@[simp] theorem advance_handler (h : Hart) (n : Nat) : (h.advance n).handler = h.handler := by unfold Hart.advance; split <;> simp
@[simp] theorem advance_debugger (h : Hart) (n : Nat) : (h.advance n).debugger = h.debugger := by unfold Hart.advance; split <;> simp
@[simp] theorem advance_counters (h : Hart) (n : Nat) : (h.advance n).counters = h.counters := by unfold Hart.advance; split <;> simp
@[simp] theorem jump_who (h : Hart) (t : Word) : (h.jump t).who = h.who := rfl
@[simp] theorem jump_life (h : Hart) (t : Word) : (h.jump t).life = h.life := rfl
@[simp] theorem jump_x (h : Hart) (t : Word) : (h.jump t).x = h.x := rfl
@[simp] theorem jump_xe (h : Hart) (t : Word) : (h.jump t).xe = h.xe := rfl
@[simp] theorem jump_xr (h : Hart) (t : Word) : (h.jump t).xr = h.xr := rfl
@[simp] theorem jump_v (h : Hart) (t : Word) : (h.jump t).v = h.v := rfl
@[simp] theorem jump_ve (h : Hart) (t : Word) : (h.jump t).ve = h.ve := rfl
@[simp] theorem jump_vr (h : Hart) (t : Word) : (h.jump t).vr = h.vr := rfl
@[simp] theorem jump_word (h : Hart) (t : Word) : (h.jump t).word = h.word := rfl
@[simp] theorem jump_sys (h : Hart) (t : Word) : (h.jump t).sys = h.sys := rfl
@[simp] theorem jump_frame (h : Hart) (t : Word) : (h.jump t).frame = h.frame := rfl
@[simp] theorem jump_rng (h : Hart) (t : Word) : (h.jump t).rng = h.rng := rfl
@[simp] theorem jump_desc (h : Hart) (t : Word) : (h.jump t).desc = h.desc := rfl
@[simp] theorem jump_stream (h : Hart) (t : Word) : (h.jump t).stream = h.stream := rfl
@[simp] theorem jump_task (h : Hart) (t : Word) : (h.jump t).task = h.task := rfl
@[simp] theorem jump_barwa (h : Hart) (t : Word) : (h.jump t).barwa = h.barwa := rfl
@[simp] theorem jump_handler (h : Hart) (t : Word) : (h.jump t).handler = h.handler := rfl
@[simp] theorem jump_debugger (h : Hart) (t : Word) : (h.jump t).debugger = h.debugger := rfl
@[simp] theorem jump_counters (h : Hart) (t : Word) : (h.jump t).counters = h.counters := rfl
@[simp] theorem fillDest_who (h : Hart) (d : Dest) (g : Bool) (n v : Nat) : (h.fillDest d g n v).who = h.who := by unfold Hart.fillDest; split <;> (try split) <;> (try split) <;> simp
@[simp] theorem fillDest_life (h : Hart) (d : Dest) (g : Bool) (n v : Nat) : (h.fillDest d g n v).life = h.life := by unfold Hart.fillDest; split <;> (try split) <;> (try split) <;> simp
@[simp] theorem fillDest_wait (h : Hart) (d : Dest) (g : Bool) (n v : Nat) : (h.fillDest d g n v).wait = h.wait := by unfold Hart.fillDest; split <;> (try split) <;> (try split) <;> simp
@[simp] theorem fillDest_pc (h : Hart) (d : Dest) (g : Bool) (n v : Nat) : (h.fillDest d g n v).pc = h.pc := by unfold Hart.fillDest; split <;> (try split) <;> (try split) <;> simp
@[simp] theorem fillDest_word (h : Hart) (d : Dest) (g : Bool) (n v : Nat) : (h.fillDest d g n v).word = h.word := by unfold Hart.fillDest; split <;> (try split) <;> (try split) <;> simp
@[simp] theorem fillDest_latch (h : Hart) (d : Dest) (g : Bool) (n v : Nat) : (h.fillDest d g n v).latch = h.latch := by unfold Hart.fillDest; split <;> (try split) <;> (try split) <;> simp
@[simp] theorem fillDest_sys (h : Hart) (d : Dest) (g : Bool) (n v : Nat) : (h.fillDest d g n v).sys = h.sys := by unfold Hart.fillDest; split <;> (try split) <;> (try split) <;> simp
@[simp] theorem fillDest_frame (h : Hart) (d : Dest) (g : Bool) (n v : Nat) : (h.fillDest d g n v).frame = h.frame := by unfold Hart.fillDest; split <;> (try split) <;> (try split) <;> simp
@[simp] theorem fillDest_rng (h : Hart) (d : Dest) (g : Bool) (n v : Nat) : (h.fillDest d g n v).rng = h.rng := by unfold Hart.fillDest; split <;> (try split) <;> (try split) <;> simp
@[simp] theorem fillDest_desc (h : Hart) (d : Dest) (g : Bool) (n v : Nat) : (h.fillDest d g n v).desc = h.desc := by unfold Hart.fillDest; split <;> (try split) <;> (try split) <;> simp
@[simp] theorem fillDest_stream (h : Hart) (d : Dest) (g : Bool) (n v : Nat) : (h.fillDest d g n v).stream = h.stream := by unfold Hart.fillDest; split <;> (try split) <;> (try split) <;> simp
@[simp] theorem fillDest_task (h : Hart) (d : Dest) (g : Bool) (n v : Nat) : (h.fillDest d g n v).task = h.task := by unfold Hart.fillDest; split <;> (try split) <;> (try split) <;> simp
@[simp] theorem fillDest_barwa (h : Hart) (d : Dest) (g : Bool) (n v : Nat) : (h.fillDest d g n v).barwa = h.barwa := by unfold Hart.fillDest; split <;> (try split) <;> (try split) <;> simp
@[simp] theorem fillDest_handler (h : Hart) (d : Dest) (g : Bool) (n v : Nat) : (h.fillDest d g n v).handler = h.handler := by unfold Hart.fillDest; split <;> (try split) <;> (try split) <;> simp
@[simp] theorem fillDest_ended (h : Hart) (d : Dest) (g : Bool) (n v : Nat) : (h.fillDest d g n v).ended = h.ended := by unfold Hart.fillDest; split <;> (try split) <;> (try split) <;> simp
@[simp] theorem fillDest_walkFault (h : Hart) (d : Dest) (g : Bool) (n v : Nat) : (h.fillDest d g n v).walkFault = h.walkFault := by unfold Hart.fillDest; split <;> (try split) <;> (try split) <;> simp
@[simp] theorem fillDest_since (h : Hart) (d : Dest) (g : Bool) (n v : Nat) : (h.fillDest d g n v).since = h.since := by unfold Hart.fillDest; split <;> (try split) <;> (try split) <;> simp
@[simp] theorem fillDest_resumed (h : Hart) (d : Dest) (g : Bool) (n v : Nat) : (h.fillDest d g n v).resumed = h.resumed := by unfold Hart.fillDest; split <;> (try split) <;> (try split) <;> simp
@[simp] theorem fillDest_prefixSaved (h : Hart) (d : Dest) (g : Bool) (n v : Nat) : (h.fillDest d g n v).prefixSaved = h.prefixSaved := by unfold Hart.fillDest; split <;> (try split) <;> (try split) <;> simp
@[simp] theorem fillDest_landed (h : Hart) (d : Dest) (g : Bool) (n v : Nat) : (h.fillDest d g n v).landed = h.landed := by unfold Hart.fillDest; split <;> (try split) <;> (try split) <;> simp
@[simp] theorem fillDest_elemsDone (h : Hart) (d : Dest) (g : Bool) (n v : Nat) : (h.fillDest d g n v).elemsDone = h.elemsDone := by unfold Hart.fillDest; split <;> (try split) <;> (try split) <;> simp
@[simp] theorem fillDest_debugger (h : Hart) (d : Dest) (g : Bool) (n v : Nat) : (h.fillDest d g n v).debugger = h.debugger := by unfold Hart.fillDest; split <;> (try split) <;> (try split) <;> simp
@[simp] theorem fillDest_counters (h : Hart) (d : Dest) (g : Bool) (n v : Nat) : (h.fillDest d g n v).counters = h.counters := by unfold Hart.fillDest; split <;> (try split) <;> (try split) <;> simp
@[simp] theorem markDest_who (h : Hart) (d : Dest) : (h.markDest d).who = h.who := by unfold Hart.markDest; split <;> simp
@[simp] theorem markDest_life (h : Hart) (d : Dest) : (h.markDest d).life = h.life := by unfold Hart.markDest; split <;> simp
@[simp] theorem markDest_wait (h : Hart) (d : Dest) : (h.markDest d).wait = h.wait := by unfold Hart.markDest; split <;> simp
@[simp] theorem markDest_x (h : Hart) (d : Dest) : (h.markDest d).x = h.x := by unfold Hart.markDest; split <;> simp
@[simp] theorem markDest_xr (h : Hart) (d : Dest) : (h.markDest d).xr = h.xr := by unfold Hart.markDest; split <;> simp
@[simp] theorem markDest_v (h : Hart) (d : Dest) : (h.markDest d).v = h.v := by unfold Hart.markDest; split <;> simp
@[simp] theorem markDest_vr (h : Hart) (d : Dest) : (h.markDest d).vr = h.vr := by unfold Hart.markDest; split <;> simp
@[simp] theorem markDest_pc (h : Hart) (d : Dest) : (h.markDest d).pc = h.pc := by unfold Hart.markDest; split <;> simp
@[simp] theorem markDest_word (h : Hart) (d : Dest) : (h.markDest d).word = h.word := by unfold Hart.markDest; split <;> simp
@[simp] theorem markDest_latch (h : Hart) (d : Dest) : (h.markDest d).latch = h.latch := by unfold Hart.markDest; split <;> simp
@[simp] theorem markDest_sys (h : Hart) (d : Dest) : (h.markDest d).sys = h.sys := by unfold Hart.markDest; split <;> simp
@[simp] theorem markDest_frame (h : Hart) (d : Dest) : (h.markDest d).frame = h.frame := by unfold Hart.markDest; split <;> simp
@[simp] theorem markDest_rng (h : Hart) (d : Dest) : (h.markDest d).rng = h.rng := by unfold Hart.markDest; split <;> simp
@[simp] theorem markDest_desc (h : Hart) (d : Dest) : (h.markDest d).desc = h.desc := by unfold Hart.markDest; split <;> simp
@[simp] theorem markDest_stream (h : Hart) (d : Dest) : (h.markDest d).stream = h.stream := by unfold Hart.markDest; split <;> simp
@[simp] theorem markDest_task (h : Hart) (d : Dest) : (h.markDest d).task = h.task := by unfold Hart.markDest; split <;> simp
@[simp] theorem markDest_barwa (h : Hart) (d : Dest) : (h.markDest d).barwa = h.barwa := by unfold Hart.markDest; split <;> simp
@[simp] theorem markDest_handler (h : Hart) (d : Dest) : (h.markDest d).handler = h.handler := by unfold Hart.markDest; split <;> simp
@[simp] theorem markDest_ended (h : Hart) (d : Dest) : (h.markDest d).ended = h.ended := by unfold Hart.markDest; split <;> simp
@[simp] theorem markDest_walkFault (h : Hart) (d : Dest) : (h.markDest d).walkFault = h.walkFault := by unfold Hart.markDest; split <;> simp
@[simp] theorem markDest_since (h : Hart) (d : Dest) : (h.markDest d).since = h.since := by unfold Hart.markDest; split <;> simp
@[simp] theorem markDest_resumed (h : Hart) (d : Dest) : (h.markDest d).resumed = h.resumed := by unfold Hart.markDest; split <;> simp
@[simp] theorem markDest_prefixSaved (h : Hart) (d : Dest) : (h.markDest d).prefixSaved = h.prefixSaved := by unfold Hart.markDest; split <;> simp
@[simp] theorem markDest_landed (h : Hart) (d : Dest) : (h.markDest d).landed = h.landed := by unfold Hart.markDest; split <;> simp
@[simp] theorem markDest_elemsDone (h : Hart) (d : Dest) : (h.markDest d).elemsDone = h.elemsDone := by unfold Hart.markDest; split <;> simp
@[simp] theorem markDest_debugger (h : Hart) (d : Dest) : (h.markDest d).debugger = h.debugger := by unfold Hart.markDest; split <;> simp
@[simp] theorem markDest_counters (h : Hart) (d : Dest) : (h.markDest d).counters = h.counters := by unfold Hart.markDest; split <;> simp

end Hart

end Sys2Proof.Machine
end

