-- ==== Sys2Proof/Laws/Registers.lean ====
section
/-! SUPPORT. Registers: what a read gives after a write, and that moving on leaves every register alone (R45, R46, R311). -/

namespace Sys2Proof.Machine

open Sys2Proof

/-! ## Scalar registers -/

@[simp] theorem readX_zero (h : Hart) : h.readX 0 = 0 := rfl

@[simp] theorem emptyX_zero (h : Hart) : h.emptyX 0 = false := rfl

theorem setX_zero (h : Hart) (v : Word) : h.setX 0 v = h := rfl

/-- The level, which alone chooses between the banks of x31, comes from the status. -/
theorem xIdx_congr {h k : Hart} (e : k.pl = h.pl) (r : Reg) : k.xIdx r = h.xIdx r := by unfold Hart.xIdx; rw [e]

theorem xIdx_inj (h : Hart) {r q : Reg} : h.xIdx r = h.xIdx q ↔ r = q := by
  constructor
  · intro e
    have v := congrArg Fin.val e
    unfold Hart.xIdx at v
    have hr := r.isLt; have hq := q.isLt
    by_cases a : r = 31#5 <;> by_cases b : q = 31#5
    · rw [a, b]
    · exfalso; rw [if_pos a, if_neg b] at v; have c : q.toNat ≠ 31 := fun c => b (BitVec.eq_of_toNat_eq c); split at v <;> simp at v <;> omega
    · exfalso; rw [if_neg a, if_pos b] at v; have c : r.toNat ≠ 31 := fun c => a (BitVec.eq_of_toNat_eq c); split at v <;> simp at v <;> omega
    · rw [if_neg a, if_neg b] at v; exact BitVec.eq_of_toNat_eq v
  · rintro rfl; rfl

@[simp] theorem pl_setX (h : Hart) (r : Reg) (v : Word) : (h.setX r v).pl = h.pl := by unfold Hart.pl; rw [Hart.setX_sys]

/-- A register other than x0 reads as written, and no other register changes. -/
theorem readX_setX (h : Hart) (r q : Reg) (v : Word) : (h.setX r v).readX q = if q = r ∧ r ≠ 0 then v else h.readX q := by
  by_cases z : r = 0#5
  · subst z; rw [if_neg fun c => c.2 rfl]; rfl
  · unfold Hart.readX
    by_cases y : q = 0#5
    · subst y; rw [if_pos rfl, if_pos rfl, if_neg fun c => z c.1.symm]
    · have i := xIdx_congr (pl_setX h r v) q
      have f : (h.setX r v).x = h.x.set (h.xIdx r) v := by unfold Hart.setX Hart.fillX; rw [if_neg z]
      rw [if_neg y, if_neg y]
      simp only [i, f]
      by_cases e : q = r
      · subst e; rw [if_pos ⟨rfl, z⟩]; exact Vector.getElem_set_self _
      · rw [if_neg fun c => e c.1]
        exact Vector.getElem_set_ne _ _ fun c => e ((xIdx_inj h).1 (Fin.ext c.symm))

theorem getLsbD_clearBit33 (b : BitVec 33) (i j : Nat) (h : j < 33) :
    (clearBit33 b i).getLsbD j = (b.getLsbD j && decide (j ≠ i)) := by
  unfold clearBit33
  by_cases e : j = i
  · subst e; simp [h]
  · by_cases l : j < i
    · simp [h, l, e]
    · simp [h, l, e]; intro; omega

/-- A written register is full, and no other register's bit changes. -/
theorem emptyX_setX (h : Hart) (r q : Reg) (v : Word) : (h.setX r v).emptyX q = if q = r then false else h.emptyX q := by
  by_cases z : r = 0#5
  · subst z; show h.emptyX q = _; split
    · subst_vars; rfl
    · rfl
  · unfold Hart.emptyX
    rw [xIdx_congr (pl_setX h r v) q]
    unfold Hart.setX Hart.fillX
    rw [if_neg z, getLsbD_clearBit33 _ _ _ (h.xIdx q).isLt]
    by_cases e : q = r
    · subst e; simp
    · rw [if_neg e]
      have : (h.xIdx q).val ≠ (h.xIdx r).val := fun c => e ((xIdx_inj h).1 (Fin.ext c))
      simp [this]

/-! ## Vector registers -/

theorem readV_setV (h : Hart) (r q : VReg) (v : Vec) : (h.setV r v).readV q = if q = r then v else h.readV q := by
  unfold Hart.setV Hart.readV
  by_cases e : q = r
  · subst e; rw [if_pos rfl]; exact Vector.getElem_set_self _
  · rw [if_neg e]; exact Vector.getElem_set_ne r.isLt q.isLt fun c => e (BitVec.eq_of_toNat_eq c.symm)

theorem emptyV_setV (h : Hart) (r q : VReg) (v : Vec) : (h.setV r v).emptyV q = if q = r then false else h.emptyV q := by
  unfold Hart.setV Hart.emptyV clearBit128
  have hq := q.isLt
  by_cases e : q = r
  · subst e; simp
  · rw [if_neg e]
    have n : q.toNat ≠ r.toNat := fun c => e (BitVec.eq_of_toNat_eq c)
    by_cases l : q.toNat < r.toNat
    · simp [l]; omega
    · simp [l]; intro; omega

/-! ## Moving on -/

/-- Ending a repeat frame changes bit 11 of the status, and so neither the level nor any bank. -/
theorem pl_clear11 (h : Hart) : (h.setStatus (setField h.sys.status 11 1 0)).pl = h.pl := by
  have e : setField h.sys.status 11 1 0 = h.sys.status &&& ~~~2048#64 := by
    unfold setField; simp
  unfold Hart.setStatus Hart.pl field
  rw [e]
  apply Nat.eq_of_testBit_eq
  intro i
  have q : ∀ w : Word, (w.toNat / 2 ^ 0 % 2 ^ 2).testBit i = (decide (i < 2) && w.getLsbD i) := by
    intro w; rw [Nat.pow_zero, Nat.div_one, Nat.testBit_mod_two_pow]; rfl
  rw [q, q]
  by_cases l : i < 2
  · obtain rfl | rfl : i = 0 ∨ i = 1 := by omega
    all_goals simp
  · simp [l]

theorem pl_settle (h : Hart) : h.settle.pl = h.pl := rfl

theorem pl_frameNext (h : Hart) (n : Nat) : (h.frameNext n).pl = h.pl := by
  unfold Hart.frameNext
  split
  · rfl
  · split
    · rfl
    · exact pl_clear11 h

theorem pl_advance (h : Hart) (n : Nat) : (h.advance n).pl = h.pl := by
  unfold Hart.advance
  split
  · rfl
  · exact pl_frameNext _ _

theorem readX_congr {h k : Hart} (p : k.pl = h.pl) (x : k.x = h.x) (r : Reg) : k.readX r = h.readX r := by
  unfold Hart.readX; simp only [xIdx_congr p, x]

theorem emptyX_congr {h k : Hart} (p : k.pl = h.pl) (x : k.xe = h.xe) (r : Reg) : k.emptyX r = h.emptyX r := by
  unfold Hart.emptyX; rw [xIdx_congr p, x]

/-- Moving past an instruction leaves every register and its full bit alone. -/
@[simp] theorem readX_advance (h : Hart) (n : Nat) (r : Reg) : (h.advance n).readX r = h.readX r :=
  readX_congr (pl_advance h n) (Hart.advance_x h n) r
@[simp] theorem emptyX_advance (h : Hart) (n : Nat) (r : Reg) : (h.advance n).emptyX r = h.emptyX r :=
  emptyX_congr (pl_advance h n) (Hart.advance_xe h n) r
@[simp] theorem readV_advance (h : Hart) (n : Nat) (r : VReg) : (h.advance n).readV r = h.readV r := by
  unfold Hart.readV; simp only [Hart.advance_v]
@[simp] theorem emptyV_advance (h : Hart) (n : Nat) (r : VReg) : (h.advance n).emptyV r = h.emptyV r := by
  unfold Hart.emptyV; rw [Hart.advance_ve]
@[simp] theorem readX_jump (h : Hart) (t : Word) (r : Reg) : (h.jump t).readX r = h.readX r := rfl
@[simp] theorem emptyX_jump (h : Hart) (t : Word) (r : Reg) : (h.jump t).emptyX r = h.emptyX r := rfl

theorem pc_advance (h : Hart) (n : Nat) (f : h.frame = []) : (h.advance n).pc = h.pc + BitVec.ofNat 64 n := by
  unfold Hart.advance; rw [if_pos f]

@[simp] theorem ended_advance (h : Hart) (n : Nat) : (h.advance n).ended = .done := by
  unfold Hart.advance
  split
  · rfl
  · rw [Hart.frameNext_ended]; rfl

end Sys2Proof.Machine
end

