-- ==== Sys2Proof/Laws/Issue.lean ====
section
/-! SUPPORT. The shared course of an instruction: its checks, its operands, its effect, and what an exception does in its place. -/

namespace Sys2Proof.Machine

open Sys2Proof

/-! ## Operands (R16, R110) -/

theorem needX_ok {h : Hart} {r : Reg} (e : h.emptyX r = false) : h.needX r = .ok () := by simp [Hart.needX, e]

theorem getX_ok {h : Hart} {r : Reg} (e : h.emptyX r = false) : h.getX r = .ok (h.readX r) := by simp [Hart.getX, needX_ok e]

theorem needV_ok {h : Hart} {r : VReg} (e : h.emptyV r = false) : h.needV r = .ok () := by simp [Hart.needV, e]

theorem getV_ok {h : Hart} {r : VReg} (e : h.emptyV r = false) : h.getV r = .ok (h.readV r) := by simp [Hart.getV, needV_ok e]

/-- An empty register that is not marked refused traps when its trap-if-empty bit is 1, and makes the thread wait otherwise. -/
theorem needX_empty {h : Hart} {r : Reg} (e : h.emptyX r = true) (m : h.xr.getLsbD (h.xIdx r) = false) :
    h.needX r = .error (if h.sys.temaskX.getLsbD r.toNat then trapOf .emptyRegister (BitVec.ofNat 64 r.toNat)
      else .wait (.scalar (h.xIdx r))) := by
  simp only [Hart.needX, e, m]; cases h.sys.temaskX.getLsbD r.toNat <;> rfl

/-! ## Issue -/

/-- An instruction whose checks pass ends as its effect says. -/
theorem issue_ok {s t : State} {sh : Shape} {body : State → Except Exc State} (m : s.mayIssue sh = .ok ()) (b : body s = .ok t) :
    s.issue sh body = .next t := by simp [State.issue, State.conclude, m, b]

/-- An instruction whose checks pass and whose effect meets an exception takes it. -/
theorem issue_exc {s : State} {e : Exc} {sh : Shape} {body : State → Except Exc State} (m : s.mayIssue sh = .ok ())
    (b : body s = .error e) : s.issue sh body = .next (s.raise e) := by simp [State.issue, State.conclude, m, b]

/-- An instruction that may not issue takes the exception of the check. -/
theorem issue_refused {s : State} {e : Exc} {sh : Shape} {body : State → Except Exc State} (m : s.mayIssue sh = .error e) :
    s.issue sh body = .next (s.raise e) := by simp [State.issue, State.conclude, m]

/-- Every instruction of a core or a PP goes on: with its effect, or with an exception. -/
theorem issue_next (s : State) (sh : Shape) (body : State → Except Exc State) :
    (∃ t, body s = .ok t ∧ s.mayIssue sh = .ok () ∧ s.issue sh body = .next t) ∨ ∃ e, s.issue sh body = .next (s.raise e) := by
  cases m : s.mayIssue sh with
  | error e => exact .inr ⟨e, issue_refused m⟩
  | ok _ =>
    cases b : body s with
    | error e => exact .inr ⟨e, issue_exc m b⟩
    | ok t => exact .inl ⟨t, rfl, rfl, issue_ok m b⟩

theorem issueHart_ok {s : State} {h : Hart} {sh : Shape} {body : Hart → Except Exc Hart} (m : s.mayIssue sh = .ok ())
    (b : body s.cur = .ok h) : s.issueHart sh body = .next (s.withCur h) := by
  unfold State.issueHart; exact issue_ok m (by rw [b]; rfl)

/-! ## Exceptions (R312, R315) -/

/-- A trap is entered, or it is fatal; nothing but the executing thread and the trace changes. -/
theorem trap_cases (s : State) (t : Trap) :
    (s.trap t = { s with cur := s.cur.fatalTrap t }) ∨
      s.trap t = ({ s with cur := s.cur.enterTrap t s.trapBase } : State).trace 1 s.cur.who.core' s.cur.who.slot' s.cur.pc t.word := by
  unfold State.trap; simp only; split
  · exact .inl rfl
  · exact .inr rfl

@[simp] theorem trap_mem (s : State) (t : Trap) : (s.trap t).mem = s.mem :=
  (trap_cases s t).elim (congrArg State.mem) (congrArg State.mem)
@[simp] theorem trap_cores (s : State) (t : Trap) : (s.trap t).cores = s.cores :=
  (trap_cases s t).elim (congrArg State.cores) (congrArg State.cores)
@[simp] theorem trap_harts (s : State) (t : Trap) : (s.trap t).harts = s.harts :=
  (trap_cases s t).elim (congrArg State.harts) (congrArg State.harts)
@[simp] theorem trap_pps (s : State) (t : Trap) : (s.trap t).pps = s.pps :=
  (trap_cases s t).elim (congrArg State.pps) (congrArg State.pps)
@[simp] theorem trap_ended (s : State) (t : Trap) : (s.trap t).cur.ended = .trapped :=
  (trap_cases s t).elim (congrArg (fun u : State => u.cur.ended)) (congrArg (fun u : State => u.cur.ended))

/-- A walk that is queued changes no memory and no register. -/
@[simp] theorem startWalk_mem (s : State) (va : Nat) (r : Right) : (s.startWalk va r).mem = s.mem := by
  simp only [State.startWalk]; repeat' split
  all_goals rfl
@[simp] theorem startWalk_ended (s : State) (va : Nat) (r : Right) : (s.startWalk va r).cur.ended = .waited := by
  simp only [State.startWalk]; repeat' split
  all_goals rfl

/-- On a core no exception leaves an instruction done. -/
theorem raise_ended (s : State) (e : Exc) (h : ∀ k, e ≠ .handler k) : (s.raise e).cur.ended ≠ .done := by
  cases e with
  | trap t => rw [State.raise, trap_ended]; decide
  | refusedX i r => rw [State.raise, trap_ended]; decide
  | refusedV r => rw [State.raise, trap_ended]; decide
  | wait w => exact fun c => nomatch c
  | walk va r => rw [State.raise, startWalk_ended]; decide
  | handler k => exact absurd rfl (h k)
  | poison => exact fun c => nomatch c
  | debug n => exact fun c => nomatch c

/-- No exception of a core writes memory. -/
theorem raise_mem (s : State) (e : Exc) (h : ∀ k, e ≠ .handler k) : (s.raise e).mem = s.mem := by
  cases e with
  | trap t => exact trap_mem s t
  | refusedX i r => exact trap_mem _ _
  | refusedV r => exact trap_mem _ _
  | wait w => rfl
  | walk va r => exact startWalk_mem s va r
  | handler k => exact absurd rfl (h k)
  | poison => rfl
  | debug n => rfl

/-! ## Memory at hand -/

/-- A coherent read looks at memory, the L1s and the RDCs alone. -/
theorem byteAt_congr {s t : State} (m : t.mem = s.mem) (c : t.cores = s.cores) (r : t.rdc = s.rdc) (a : Nat) :
    t.byteAt a = s.byteAt a := by
  unfold State.byteAt State.coherentRead State.blockData State.dirtyCopy; simp only [m, c, r]

end Sys2Proof.Machine
end

