-- ==== Sys2Proof/Laws/Memory.lean ====
section
/-! SUPPORT. Bytes of memory: what a read gives after a write, and that every memory operation keeps the canonical form. -/

namespace Sys2Proof.Machine

open Sys2Proof

/-! ## One byte -/

theorem readByte_insertByte (m : List Host.Cell) (k a : Nat) (v : Byte) :
    readByte (insertByte m k v) a = if a = k then v else readByte m a := by
  induction m with
  | nil => simp [insertByte, readByte]
  | cons c m ih =>
    obtain ⟨b, w⟩ := c
    simp only [insertByte]
    split
    · simp only [readByte]
    · split
      · subst_vars; simp only [readByte]; split <;> rfl
      · simp only [readByte, ih]; split <;> split <;> first | rfl | omega

theorem wfFrom_mono {m : List Host.Cell} {lo k : Nat} (h : wfFrom k m = true) (le : lo ≤ k) : wfFrom lo m = true := by
  cases m with
  | nil => rfl
  | cons c m =>
    obtain ⟨b, w⟩ := c
    simp only [wfFrom, Bool.and_eq_true, decide_eq_true_eq] at h ⊢
    exact ⟨⟨by omega, h.1.2⟩, h.2⟩

theorem readByte_eraseByte (m : List Host.Cell) (k a : Nat) :
    readByte (eraseByte m k) a = if a = k then unlisted else readByte m a := by
  induction m with
  | nil => simp [eraseByte, readByte]
  | cons c m ih =>
    obtain ⟨b, w⟩ := c
    simp only [eraseByte]
    split
    · subst_vars; simp only [readByte, ih]; split <;> rfl
    · simp only [readByte, ih]; split <;> split <;> first | rfl | omega

/-- A write to an address is what a read there gives, and other reads are as before. -/
theorem readByte_writeByte (m : List Host.Cell) (k a : Nat) (v : Byte) :
    readByte (writeByte m k v) a = if a = k then v else readByte m a := by
  unfold writeByte
  split
  · subst_vars; exact readByte_eraseByte m k a
  · exact readByte_insertByte m k a v

theorem wfFrom_insertByte {m : List Host.Cell} {lo : Nat} (h : wfFrom lo m = true) {k : Nat} (l : lo ≤ k) {v : Byte}
    (n : v ≠ unlisted) : wfFrom lo (insertByte m k v) = true := by
  induction m generalizing lo with
  | nil => simp [insertByte, wfFrom, l, n]
  | cons c m ih =>
    obtain ⟨b, w⟩ := c
    simp only [wfFrom, Bool.and_eq_true, decide_eq_true_eq] at h
    simp only [insertByte]
    split
    · simp only [wfFrom, Bool.and_eq_true, decide_eq_true_eq]
      exact ⟨⟨l, by simpa using n⟩, ⟨by omega, h.1.2⟩, h.2⟩
    · split
      · subst_vars; simp only [wfFrom, Bool.and_eq_true, decide_eq_true_eq]
        exact ⟨⟨h.1.1, by simpa using n⟩, h.2⟩
      · simp only [wfFrom, Bool.and_eq_true, decide_eq_true_eq]
        exact ⟨h.1, ih h.2 (by omega)⟩

theorem wfFrom_eraseByte {m : List Host.Cell} {lo : Nat} (h : wfFrom lo m = true) (k : Nat) : wfFrom lo (eraseByte m k) = true := by
  induction m generalizing lo with
  | nil => rfl
  | cons c m ih =>
    obtain ⟨b, w⟩ := c
    simp only [wfFrom, Bool.and_eq_true, decide_eq_true_eq] at h
    simp only [eraseByte]
    split
    · exact wfFrom_mono (ih h.2) (by omega)
    · simp only [wfFrom, Bool.and_eq_true, decide_eq_true_eq]; exact ⟨h.1, ih h.2⟩

/-! ## The canonical form -/

theorem wf_writeByte {m : List Host.Cell} (h : Memory.wf m = true) (k : Nat) (v : Byte) : Memory.wf (writeByte m k v) = true := by
  unfold writeByte
  split
  · exact wfFrom_eraseByte h k
  · exact wfFrom_insertByte h (Nat.zero_le _) (by assumption)

theorem wf_writeBytes {m : List Host.Cell} (h : Memory.wf m = true) (a n v : Nat) : Memory.wf (writeBytes m a n v) = true := by
  induction n generalizing m a v with
  | zero => exact h
  | succ n ih => exact ih (wf_writeByte h _ _) _ _

theorem wf_storeBytes {m : List Host.Cell} (h : Memory.wf m = true) (a : Nat) (l : List Byte) :
    Memory.wf (storeBytes m a l) = true := by
  induction l generalizing m a with
  | nil => exact h
  | cons b l ih => exact ih (wf_writeByte h _ _) _

theorem wf_putHomeData {m : List Host.Cell} (h : Memory.wf m = true) (b : Nat) (d : BitVec 256) :
    Memory.wf (putHomeData m b d) = true := wf_writeBytes h _ _ _

theorem wfFrom_filter {m : List Host.Cell} {lo : Nat} (h : wfFrom lo m = true) (p : Host.Cell → Bool) :
    wfFrom lo (m.filter p) = true := by
  induction m generalizing lo with
  | nil => rfl
  | cons c m ih =>
    obtain ⟨b, w⟩ := c
    simp only [wfFrom, Bool.and_eq_true, decide_eq_true_eq] at h
    simp only [List.filter]
    split
    · simp only [wfFrom, Bool.and_eq_true, decide_eq_true_eq]; exact ⟨h.1, ih h.2⟩
    · exact wfFrom_mono (ih h.2) (by omega)

theorem wf_filter {m : List Host.Cell} (h : Memory.wf m = true) (p : Host.Cell → Bool) : Memory.wf (m.filter p) = true :=
  wfFrom_filter h p

theorem wf_restore {m : List Host.Cell} (h : Memory.wf m = true) (l : List Host.Cell) :
    Memory.wf (l.foldl (fun m e => writeByte m e.1 e.2) m) = true := by
  induction l generalizing m with
  | nil => exact h
  | cons c l ih => exact ih (wf_writeByte h _ _)

theorem wf_coherentWrite {s : State} (h : Memory.wf s.mem = true) (a n v : Nat) : Memory.wf (s.coherentWrite a n v).mem = true :=
  wf_writeBytes h _ _ _

theorem wf_writeThrough {s : State} (h : Memory.wf s.mem = true) (a n v : Nat) : Memory.wf (s.writeThrough a n v).mem = true :=
  wf_writeBytes h _ _ _

theorem wf_homeWrite {s : State} (h : Memory.wf s.mem = true) (a n v : Nat) : Memory.wf (s.homeWrite a n v).mem = true :=
  wf_writeBytes h _ _ _

/-! ## Several bytes (R4) -/

theorem readByte_writeBytes (m : List Host.Cell) (a n v k : Nat) :
    readByte (writeBytes m a n v) k =
      if a ≤ k ∧ k < a + n then BitVec.ofNat 8 (v / 256 ^ (k - a)) else readByte m k := by
  induction n generalizing m a v with
  | zero => rw [if_neg (by omega)]; rfl
  | succ n ih =>
    simp only [writeBytes]
    rw [ih, readByte_writeByte]
    by_cases c : k = a
    · subst c; rw [if_neg (by omega), if_pos rfl, if_pos (by omega)]; simp
    · by_cases d : a + 1 ≤ k ∧ k < a + 1 + n
      · rw [if_pos d, if_pos (by omega), Nat.div_div_eq_div_mul, ← Nat.pow_succ', show (k - (a + 1)).succ = k - a by omega]
      · rw [if_neg d, if_neg c, if_neg (by omega)]

theorem readBytes_lt (m : List Host.Cell) (a n : Nat) : readBytes m a n < 256 ^ n := by
  induction n generalizing a with
  | zero => simp [readBytes]
  | succ n ih =>
    simp only [readBytes, Nat.pow_succ]
    have := ih (a + 1); have := (readByte m a).isLt
    omega

/-- Reads of bytes that a write did not touch are as before. -/
theorem readBytes_writeBytes_apart (m : List Host.Cell) {a n v b k : Nat}
    (d : b + k ≤ a ∨ a + n ≤ b) : readBytes (writeBytes m a n v) b k = readBytes m b k := by
  induction k generalizing b with
  | zero => rfl
  | succ k ih =>
    simp only [readBytes]
    rw [ih (by omega), readByte_writeBytes, if_neg (by omega)]

/-- Reading back what was written gives its low bytes. -/
theorem readBytes_writeBytes (m : List Host.Cell) (a n v : Nat) :
    readBytes (writeBytes m a n v) a n = v % 256 ^ n := by
  induction n generalizing m a v with
  | zero => simp [readBytes, Nat.mod_one]
  | succ n ih =>
    simp only [readBytes, writeBytes]
    rw [ih, readByte_writeBytes, if_neg (by omega), readByte_writeByte, if_pos rfl]
    rw [BitVec.toNat_ofNat, show (2 : Nat) ^ 8 = 256 from rfl, Nat.pow_succ', Nat.mod_mul]

end Sys2Proof.Machine
end

