-- ==== Sys2Proof/Laws/PerInstr.lean ====
section
/-! SUPPORT. The round trip of each instruction: what its code decodes to. -/

namespace Sys2Proof.Laws.RoundTrip

open Sys2Proof Sys2Proof.Machine Sys2Proof.Laws

set_option Elab.async false

/-- A well-formed instruction's code decodes to the instruction, by the decoder of its kind; an instruction without a code is an
event. -/
def Statement (i : Instr) : Prop :=
  wellFormed i = true →
    match encode i with
    | .word w => w.getLsbD 0 = true ∧ decodeWord w = .ok i
    | .parcel p => p.getLsbD 0 = false ∧ decodeParcel p = .ok i
    | .queueOp w => decodeQueueOp w = .ok i
    | .noCode => isEvent i = true

/-- A word whose fields give a well-formed instruction decodes to it. -/
theorem decodeWord_ok {w : BitVec 32} {i : Instr} (h : decodeFields w = .ok i) (e : wellFormed i = true) : decodeWord w = .ok i := by
  simp [decodeWord, onlyWellFormed, h, e]

theorem word_ok {w : BitVec 32} {i : Instr} (b : w.getLsbD 0 = true) (h : decodeFields w = .ok i) :
    wellFormed i = true → w.getLsbD 0 = true ∧ decodeWord w = .ok i := fun e => ⟨b, decodeWord_ok h e⟩

theorem primary_01 {w : BitVec 32} (h : fOp w = 0x01#7) : decodeFields w = decodeAlu w := by
  unfold decodeFields; rw [h]; rfl
theorem primary_02 {w : BitVec 32} (h : fOp w = 0x02#7) : decodeFields w = .ok (.addi (fD w) (fA w) (immI w)) := by
  unfold decodeFields; rw [h]; rfl
theorem primary_03 {w : BitVec 32} (h : fOp w = 0x03#7) : decodeFields w = .ok (.andi (fD w) (fA w) (immI w)) := by
  unfold decodeFields; rw [h]; rfl
theorem primary_04 {w : BitVec 32} (h : fOp w = 0x04#7) : decodeFields w = .ok (.ori (fD w) (fA w) (immI w)) := by
  unfold decodeFields; rw [h]; rfl
theorem primary_05 {w : BitVec 32} (h : fOp w = 0x05#7) : decodeFields w = .ok (.xori (fD w) (fA w) (immI w)) := by
  unfold decodeFields; rw [h]; rfl
theorem primary_06 {w : BitVec 32} (h : fOp w = 0x06#7) : decodeFields w = .ok (.slti (fD w) (fA w) (immI w)) := by
  unfold decodeFields; rw [h]; rfl
theorem primary_07 {w : BitVec 32} (h : fOp w = 0x07#7) : decodeFields w = .ok (.sltui (fD w) (fA w) (immI w)) := by
  unfold decodeFields; rw [h]; rfl
theorem primary_08 {w : BitVec 32} (h : fOp w = 0x08#7) : decodeFields w = decodeShiftImm w := by
  unfold decodeFields; rw [h]; rfl
theorem primary_09 {w : BitVec 32} (h : fOp w = 0x09#7) : decodeFields w = .ok (.ldhi (fD w) (imm19 w)) := by
  unfold decodeFields; rw [h]; rfl
theorem primary_0a {w : BitVec 32} (h : fOp w = 0x0a#7) : decodeFields w = .ok (.pcaddhi (fD w) (imm19 w)) := by
  unfold decodeFields; rw [h]; rfl
theorem primary_0b {w : BitVec 32} (h : fOp w = 0x0b#7) : decodeFields w = decodeSys w := by
  unfold decodeFields; rw [h]; rfl
theorem primary_10 {w : BitVec 32} (h : fOp w = 0x10#7) : decodeFields w = decodeBranch w := by
  unfold decodeFields; rw [h]; rfl
theorem primary_11 {w : BitVec 32} (h : fOp w = 0x11#7) : decodeFields w = .ok (.jal (fD w) (imm19 w)) := by
  unfold decodeFields; rw [h]; rfl
theorem primary_12 {w : BitVec 32} (h : fOp w = 0x12#7) : decodeFields w = decodeJalr w := by
  unfold decodeFields; rw [h]; rfl
theorem primary_13 {w : BitVec 32} (h : fOp w = 0x13#7) : decodeFields w = checked (fRsvRep w == 0#7) (.rep (repCnt w) (repD w) (repA w) (repB w)) := by
  unfold decodeFields; rw [h]; rfl
theorem primary_14 {w : BitVec 32} (h : fOp w = 0x14#7) : decodeFields w = decodeGang w := by
  unfold decodeFields; rw [h]; rfl
theorem primary_18 {w : BitVec 32} (h : fOp w = 0x18#7) : decodeFields w = decodeLoad w := by
  unfold decodeFields; rw [h]; rfl
theorem primary_19 {w : BitVec 32} (h : fOp w = 0x19#7) : decodeFields w = decodeStore w := by
  unfold decodeFields; rw [h]; rfl
theorem primary_1a {w : BitVec 32} (h : fOp w = 0x1a#7) : decodeFields w = .ok (.vld (fVd w) (fA w) (imm11 w) ((nt w).getLsbD 0)) := by
  unfold decodeFields; rw [h]; rfl
theorem primary_1b {w : BitVec 32} (h : fOp w = 0x1b#7) : decodeFields w = .ok (.vst (fVd w) (fA w) (imm11 w) ((nt w).getLsbD 0)) := by
  unfold decodeFields; rw [h]; rfl
theorem primary_1c {w : BitVec 32} (h : fOp w = 0x1c#7) : decodeFields w = decodeGather w := by
  unfold decodeFields; rw [h]; rfl
theorem primary_1d {w : BitVec 32} (h : fOp w = 0x1d#7) : decodeFields w = decodeHint w := by
  unfold decodeFields; rw [h]; rfl
theorem primary_20 {w : BitVec 32} (h : fOp w = 0x20#7) : decodeFields w = decodeAmoW w := by
  unfold decodeFields; rw [h]; rfl
theorem primary_21 {w : BitVec 32} (h : fOp w = 0x21#7) : decodeFields w = decodeAmoD w := by
  unfold decodeFields; rw [h]; rfl
theorem primary_22 {w : BitVec 32} (h : fOp w = 0x22#7) : decodeFields w = decodeCas128 w := by
  unfold decodeFields; rw [h]; rfl
theorem primary_23 {w : BitVec 32} (h : fOp w = 0x23#7) : decodeFields w = decodeLdacq w := by
  unfold decodeFields; rw [h]; rfl
theorem primary_24 {w : BitVec 32} (h : fOp w = 0x24#7) : decodeFields w = decodeStrel w := by
  unfold decodeFields; rw [h]; rfl
theorem primary_25 {w : BitVec 32} (h : fOp w = 0x25#7) : decodeFields w = decodeFence w := by
  unfold decodeFields; rw [h]; rfl
theorem primary_26 {w : BitVec 32} (h : fOp w = 0x26#7) : decodeFields w = decodeCopy w := by
  unfold decodeFields; rw [h]; rfl
theorem primary_27 {w : BitVec 32} (h : fOp w = 0x27#7) : decodeFields w = decodeSync w := by
  unfold decodeFields; rw [h]; rfl
theorem primary_28 {w : BitVec 32} (h : fOp w = 0x28#7) : decodeFields w = decodeTask w := by
  unfold decodeFields; rw [h]; rfl
theorem primary_29 {w : BitVec 32} (h : fOp w = 0x29#7) : decodeFields w = decodeMessage w := by
  unfold decodeFields; rw [h]; rfl
theorem primary_2b {w : BitVec 32} (h : fOp w = 0x2b#7) : decodeFields w = decodeBarrier w := by
  unfold decodeFields; rw [h]; rfl
theorem primary_30 {w : BitVec 32} (h : fOp w = 0x30#7) : decodeFields w = decodeVArith w := by
  unfold decodeFields; rw [h]; rfl
theorem primary_31 {w : BitVec 32} (h : fOp w = 0x31#7) : decodeFields w = decodeVLogic w := by
  unfold decodeFields; rw [h]; rfl
theorem primary_32 {w : BitVec 32} (h : fOp w = 0x32#7) : decodeFields w = decodeVShift w := by
  unfold decodeFields; rw [h]; rfl
theorem primary_33 {w : BitVec 32} (h : fOp w = 0x33#7) : decodeFields w = decodeVScalar w := by
  unfold decodeFields; rw [h]; rfl
theorem primary_34 {w : BitVec 32} (h : fOp w = 0x34#7) : decodeFields w = decodeVCompare w := by
  unfold decodeFields; rw [h]; rfl
theorem primary_35 {w : BitVec 32} (h : fOp w = 0x35#7) : decodeFields w = decodeVPermute w := by
  unfold decodeFields; rw [h]; rfl
theorem primary_37 {w : BitVec 32} (h : fOp w = 0x37#7) : decodeFields w = decodeVReduce w := by
  unfold decodeFields; rw [h]; rfl
theorem primary_38 {w : BitVec 32} (h : fOp w = 0x38#7) : decodeFields w = decodeVFloat w := by
  unfold decodeFields; rw [h]; rfl
theorem primary_39 {w : BitVec 32} (h : fOp w = 0x39#7) : decodeFields w = decodeVFloatOne w := by
  unfold decodeFields; rw [h]; rfl
theorem primary_3a {w : BitVec 32} (h : fOp w = 0x3a#7) : decodeFields w = decodeVFloatCompare w := by
  unfold decodeFields; rw [h]; rfl
theorem primary_3b {w : BitVec 32} (h : fOp w = 0x3b#7) : decodeFields w = decodeVConvert w := by
  unfold decodeFields; rw [h]; rfl
theorem primary_3c {w : BitVec 32} (h : fOp w = 0x3c#7) : decodeFields w = decodeVModular w := by
  unfold decodeFields; rw [h]; rfl
theorem primary_3d {w : BitVec 32} (h : fOp w = 0x3d#7) : decodeFields w = decodeVMove w := by
  unfold decodeFields; rw [h]; rfl
theorem primary_50 {w : BitVec 32} (h : fOp w = 0x50#7) : decodeFields w = decodeMLease w := by
  unfold decodeFields; rw [h]; rfl
theorem primary_51 {w : BitVec 32} (h : fOp w = 0x51#7) : decodeFields w = decodeMSet w := by
  unfold decodeFields; rw [h]; rfl
theorem primary_52 {w : BitVec 32} (h : fOp w = 0x52#7) : decodeFields w = decodeMCommand w := by
  unfold decodeFields; rw [h]; rfl
theorem primary_53 {w : BitVec 32} (h : fOp w = 0x53#7) : decodeFields w = decodeMTile w := by
  unfold decodeFields; rw [h]; rfl
theorem primary_60 {w : BitVec 32} (h : fOp w = 0x60#7) : decodeFields w = decodeGbAdd w := by
  unfold decodeFields; rw [h]; rfl
theorem primary_61 {w : BitVec 32} (h : fOp w = 0x61#7) : decodeFields w = checked ((fVb w).extractLsb' 2 5 == 0#5) (.gbschur (fVd w) (fVa w) ((fF3v w).extractLsb' 0 2) ((fVb w).extractLsb' 0 2) ((fF3v w).getLsbD 2)) := by
  unfold decodeFields; rw [h]; rfl
theorem primary_62 {w : BitVec 32} (h : fOp w = 0x62#7) : decodeFields w = decodeGbSolve w := by
  unfold decodeFields; rw [h]; rfl
theorem primary_63 {w : BitVec 32} (h : fOp w = 0x63#7) : decodeFields w = checked ((fF3v w).extractLsb' 2 1 == 0#1 && fVb w == 0#7) (.gbdamp (fVd w) (fVa w) ((fF3v w).extractLsb' 0 2)) := by
  unfold decodeFields; rw [h]; rfl
theorem primary_64 {w : BitVec 32} (h : fOp w = 0x64#7) : decodeFields w = checked ((fF5 w).extractLsb' 2 3 == 0#3 && fVd w == 0#7) (.gbsend (fVa w) (fBv w) ((fF5 w).extractLsb' 0 2)) := by
  unfold decodeFields; rw [h]; rfl
theorem primary_65 {w : BitVec 32} (h : fOp w = 0x65#7) : decodeFields w = decodeGbPoll w := by
  unfold decodeFields; rw [h]; rfl
theorem primary_66 {w : BitVec 32} (h : fOp w = 0x66#7) : decodeFields w = .ok (.gbld (fVd w) (fA w) (imm11 w) ((nt w).getLsbD 0)) := by
  unfold decodeFields; rw [h]; rfl
theorem primary_68 {w : BitVec 32} (h : fOp w = 0x68#7) : decodeFields w = decodeHDir w := by
  unfold decodeFields; rw [h]; rfl
theorem primary_69 {w : BitVec 32} (h : fOp w = 0x69#7) : decodeFields w = decodeHSend w := by
  unfold decodeFields; rw [h]; rfl
theorem primary_6a {w : BitVec 32} (h : fOp w = 0x6a#7) : decodeFields w = decodeHEnd w := by
  unfold decodeFields; rw [h]; rfl
theorem primary_70 {w : BitVec 32} (h : fOp w = 0x70#7) : decodeFields w = decodeTrap w := by
  unfold decodeFields; rw [h]; rfl
theorem primary_71 {w : BitVec 32} (h : fOp w = 0x71#7) : decodeFields w = decodeTlb w := by
  unfold decodeFields; rw [h]; rfl
theorem primary_72 {w : BitVec 32} (h : fOp w = 0x72#7) : decodeFields w = decodeCtx w := by
  unfold decodeFields; rw [h]; rfl
theorem primary_73 {w : BitVec 32} (h : fOp w = 0x73#7) : decodeFields w = decodeLaunch w := by
  unfold decodeFields; rw [h]; rfl
theorem primary_78 {w : BitVec 32} (h : fOp w = 0x78#7) : decodeFields w = checked (fRsvP w == 0#4) (.fmt (pSp w) (pSc w) ((pSat w).getLsbD 0) (pRnd w) (pC w) (pB w) (pA w)) := by
  unfold decodeFields; rw [h]; rfl

theorem add x0 x1 x2 x3 : Statement (.add x0 x1 x2 x3) :=
  word_ok (bit0_fmtA _ _ _ _ _ _) ((primary_01 (fOp_fmtA _ _ _ _ _ _)).trans (by
  simp (disch := decide) only [decodeAlu, fF6_fmtA, fB_fmtA, fA_fmtA, fF3_fmtA, fD_fmtA, wBit_hi, wBit_lo]
  all_goals rfl))
theorem sub x0 x1 x2 x3 : Statement (.sub x0 x1 x2 x3) :=
  word_ok (bit0_fmtA _ _ _ _ _ _) ((primary_01 (fOp_fmtA _ _ _ _ _ _)).trans (by
  simp (disch := decide) only [decodeAlu, fF6_fmtA, fB_fmtA, fA_fmtA, fF3_fmtA, fD_fmtA, wBit_hi, wBit_lo]
  all_goals rfl))
theorem and x0 x1 x2 x3 : Statement (.and x0 x1 x2 x3) :=
  word_ok (bit0_fmtA _ _ _ _ _ _) ((primary_01 (fOp_fmtA _ _ _ _ _ _)).trans (by
  simp (disch := decide) only [decodeAlu, fF6_fmtA, fB_fmtA, fA_fmtA, fF3_fmtA, fD_fmtA, wBit_hi, wBit_lo]
  all_goals rfl))
theorem or x0 x1 x2 x3 : Statement (.or x0 x1 x2 x3) :=
  word_ok (bit0_fmtA _ _ _ _ _ _) ((primary_01 (fOp_fmtA _ _ _ _ _ _)).trans (by
  simp (disch := decide) only [decodeAlu, fF6_fmtA, fB_fmtA, fA_fmtA, fF3_fmtA, fD_fmtA, wBit_hi, wBit_lo]
  all_goals rfl))
theorem xor x0 x1 x2 x3 : Statement (.xor x0 x1 x2 x3) :=
  word_ok (bit0_fmtA _ _ _ _ _ _) ((primary_01 (fOp_fmtA _ _ _ _ _ _)).trans (by
  simp (disch := decide) only [decodeAlu, fF6_fmtA, fB_fmtA, fA_fmtA, fF3_fmtA, fD_fmtA, wBit_hi, wBit_lo]
  all_goals rfl))
theorem andn x0 x1 x2 x3 : Statement (.andn x0 x1 x2 x3) :=
  word_ok (bit0_fmtA _ _ _ _ _ _) ((primary_01 (fOp_fmtA _ _ _ _ _ _)).trans (by
  simp (disch := decide) only [decodeAlu, fF6_fmtA, fB_fmtA, fA_fmtA, fF3_fmtA, fD_fmtA, wBit_hi, wBit_lo]
  all_goals rfl))
theorem sll x0 x1 x2 x3 : Statement (.sll x0 x1 x2 x3) :=
  word_ok (bit0_fmtA _ _ _ _ _ _) ((primary_01 (fOp_fmtA _ _ _ _ _ _)).trans (by
  simp (disch := decide) only [decodeAlu, fF6_fmtA, fB_fmtA, fA_fmtA, fF3_fmtA, fD_fmtA, wBit_hi, wBit_lo]
  all_goals rfl))
theorem srl x0 x1 x2 x3 : Statement (.srl x0 x1 x2 x3) :=
  word_ok (bit0_fmtA _ _ _ _ _ _) ((primary_01 (fOp_fmtA _ _ _ _ _ _)).trans (by
  simp (disch := decide) only [decodeAlu, fF6_fmtA, fB_fmtA, fA_fmtA, fF3_fmtA, fD_fmtA, wBit_hi, wBit_lo]
  all_goals rfl))
theorem sra x0 x1 x2 x3 : Statement (.sra x0 x1 x2 x3) :=
  word_ok (bit0_fmtA _ _ _ _ _ _) ((primary_01 (fOp_fmtA _ _ _ _ _ _)).trans (by
  simp (disch := decide) only [decodeAlu, fF6_fmtA, fB_fmtA, fA_fmtA, fF3_fmtA, fD_fmtA, wBit_hi, wBit_lo]
  all_goals rfl))
theorem rol x0 x1 x2 x3 : Statement (.rol x0 x1 x2 x3) :=
  word_ok (bit0_fmtA _ _ _ _ _ _) ((primary_01 (fOp_fmtA _ _ _ _ _ _)).trans (by
  simp (disch := decide) only [decodeAlu, fF6_fmtA, fB_fmtA, fA_fmtA, fF3_fmtA, fD_fmtA, wBit_hi, wBit_lo]
  all_goals rfl))
theorem ror x0 x1 x2 x3 : Statement (.ror x0 x1 x2 x3) :=
  word_ok (bit0_fmtA _ _ _ _ _ _) ((primary_01 (fOp_fmtA _ _ _ _ _ _)).trans (by
  simp (disch := decide) only [decodeAlu, fF6_fmtA, fB_fmtA, fA_fmtA, fF3_fmtA, fD_fmtA, wBit_hi, wBit_lo]
  all_goals rfl))
theorem slt x0 x1 x2 x3 : Statement (.slt x0 x1 x2 x3) :=
  word_ok (bit0_fmtA _ _ _ _ _ _) ((primary_01 (fOp_fmtA _ _ _ _ _ _)).trans (by
  simp (disch := decide) only [decodeAlu, fF6_fmtA, fB_fmtA, fA_fmtA, fF3_fmtA, fD_fmtA, wBit_hi, wBit_lo]
  all_goals rfl))
theorem sltu x0 x1 x2 x3 : Statement (.sltu x0 x1 x2 x3) :=
  word_ok (bit0_fmtA _ _ _ _ _ _) ((primary_01 (fOp_fmtA _ _ _ _ _ _)).trans (by
  simp (disch := decide) only [decodeAlu, fF6_fmtA, fB_fmtA, fA_fmtA, fF3_fmtA, fD_fmtA, wBit_hi, wBit_lo]
  all_goals rfl))
theorem min x0 x1 x2 x3 : Statement (.min x0 x1 x2 x3) :=
  word_ok (bit0_fmtA _ _ _ _ _ _) ((primary_01 (fOp_fmtA _ _ _ _ _ _)).trans (by
  simp (disch := decide) only [decodeAlu, fF6_fmtA, fB_fmtA, fA_fmtA, fF3_fmtA, fD_fmtA, wBit_hi, wBit_lo]
  all_goals rfl))
theorem max x0 x1 x2 x3 : Statement (.max x0 x1 x2 x3) :=
  word_ok (bit0_fmtA _ _ _ _ _ _) ((primary_01 (fOp_fmtA _ _ _ _ _ _)).trans (by
  simp (disch := decide) only [decodeAlu, fF6_fmtA, fB_fmtA, fA_fmtA, fF3_fmtA, fD_fmtA, wBit_hi, wBit_lo]
  all_goals rfl))
theorem minu x0 x1 x2 x3 : Statement (.minu x0 x1 x2 x3) :=
  word_ok (bit0_fmtA _ _ _ _ _ _) ((primary_01 (fOp_fmtA _ _ _ _ _ _)).trans (by
  simp (disch := decide) only [decodeAlu, fF6_fmtA, fB_fmtA, fA_fmtA, fF3_fmtA, fD_fmtA, wBit_hi, wBit_lo]
  all_goals rfl))
theorem maxu x0 x1 x2 x3 : Statement (.maxu x0 x1 x2 x3) :=
  word_ok (bit0_fmtA _ _ _ _ _ _) ((primary_01 (fOp_fmtA _ _ _ _ _ _)).trans (by
  simp (disch := decide) only [decodeAlu, fF6_fmtA, fB_fmtA, fA_fmtA, fF3_fmtA, fD_fmtA, wBit_hi, wBit_lo]
  all_goals rfl))
theorem mul x0 x1 x2 x3 : Statement (.mul x0 x1 x2 x3) :=
  word_ok (bit0_fmtA _ _ _ _ _ _) ((primary_01 (fOp_fmtA _ _ _ _ _ _)).trans (by
  simp (disch := decide) only [decodeAlu, fF6_fmtA, fB_fmtA, fA_fmtA, fF3_fmtA, fD_fmtA, wBit_hi, wBit_lo]
  all_goals rfl))
theorem mulh x0 x1 x2 x3 : Statement (.mulh x0 x1 x2 x3) :=
  word_ok (bit0_fmtA _ _ _ _ _ _) ((primary_01 (fOp_fmtA _ _ _ _ _ _)).trans (by
  simp (disch := decide) only [decodeAlu, fF6_fmtA, fB_fmtA, fA_fmtA, fF3_fmtA, fD_fmtA, wBit_hi, wBit_lo]
  all_goals rfl))
theorem mulhu x0 x1 x2 x3 : Statement (.mulhu x0 x1 x2 x3) :=
  word_ok (bit0_fmtA _ _ _ _ _ _) ((primary_01 (fOp_fmtA _ _ _ _ _ _)).trans (by
  simp (disch := decide) only [decodeAlu, fF6_fmtA, fB_fmtA, fA_fmtA, fF3_fmtA, fD_fmtA, wBit_hi, wBit_lo]
  all_goals rfl))
theorem mulhsu x0 x1 x2 x3 : Statement (.mulhsu x0 x1 x2 x3) :=
  word_ok (bit0_fmtA _ _ _ _ _ _) ((primary_01 (fOp_fmtA _ _ _ _ _ _)).trans (by
  simp (disch := decide) only [decodeAlu, fF6_fmtA, fB_fmtA, fA_fmtA, fF3_fmtA, fD_fmtA, wBit_hi, wBit_lo]
  all_goals rfl))
theorem div x0 x1 x2 x3 : Statement (.div x0 x1 x2 x3) :=
  word_ok (bit0_fmtA _ _ _ _ _ _) ((primary_01 (fOp_fmtA _ _ _ _ _ _)).trans (by
  simp (disch := decide) only [decodeAlu, fF6_fmtA, fB_fmtA, fA_fmtA, fF3_fmtA, fD_fmtA, wBit_hi, wBit_lo]
  all_goals rfl))
theorem divu x0 x1 x2 x3 : Statement (.divu x0 x1 x2 x3) :=
  word_ok (bit0_fmtA _ _ _ _ _ _) ((primary_01 (fOp_fmtA _ _ _ _ _ _)).trans (by
  simp (disch := decide) only [decodeAlu, fF6_fmtA, fB_fmtA, fA_fmtA, fF3_fmtA, fD_fmtA, wBit_hi, wBit_lo]
  all_goals rfl))
theorem rem x0 x1 x2 x3 : Statement (.rem x0 x1 x2 x3) :=
  word_ok (bit0_fmtA _ _ _ _ _ _) ((primary_01 (fOp_fmtA _ _ _ _ _ _)).trans (by
  simp (disch := decide) only [decodeAlu, fF6_fmtA, fB_fmtA, fA_fmtA, fF3_fmtA, fD_fmtA, wBit_hi, wBit_lo]
  all_goals rfl))
theorem remu x0 x1 x2 x3 : Statement (.remu x0 x1 x2 x3) :=
  word_ok (bit0_fmtA _ _ _ _ _ _) ((primary_01 (fOp_fmtA _ _ _ _ _ _)).trans (by
  simp (disch := decide) only [decodeAlu, fF6_fmtA, fB_fmtA, fA_fmtA, fF3_fmtA, fD_fmtA, wBit_hi, wBit_lo]
  all_goals rfl))
theorem sel x0 x1 x2 x3 : Statement (.sel x0 x1 x2 x3) :=
  word_ok (bit0_fmtA _ _ _ _ _ _) ((primary_01 (fOp_fmtA _ _ _ _ _ _)).trans (by
  simp (disch := decide) only [decodeAlu, fF6_fmtA, fB_fmtA, fA_fmtA, fF3_fmtA, fD_fmtA, wBit_hi, wBit_lo]
  all_goals rfl))
theorem clz x0 x1 x2 : Statement (.clz x0 x1 x2) := word_ok (bit0_fmtA _ _ _ _ _ _) ((primary_01 (fOp_fmtA _ _ _ _ _ _)).trans (by
  simp (disch := decide) only [decodeAlu, fF6_fmtA, fB_fmtA, fA_fmtA, fF3_fmtA, fD_fmtA, wBit_hi, wBit_lo]
  all_goals rfl))
theorem ctz x0 x1 x2 : Statement (.ctz x0 x1 x2) := word_ok (bit0_fmtA _ _ _ _ _ _) ((primary_01 (fOp_fmtA _ _ _ _ _ _)).trans (by
  simp (disch := decide) only [decodeAlu, fF6_fmtA, fB_fmtA, fA_fmtA, fF3_fmtA, fD_fmtA, wBit_hi, wBit_lo]
  all_goals rfl))
theorem popc x0 x1 x2 : Statement (.popc x0 x1 x2) :=
  word_ok (bit0_fmtA _ _ _ _ _ _) ((primary_01 (fOp_fmtA _ _ _ _ _ _)).trans (by
  simp (disch := decide) only [decodeAlu, fF6_fmtA, fB_fmtA, fA_fmtA, fF3_fmtA, fD_fmtA, wBit_hi, wBit_lo]
  all_goals rfl))
theorem bswap x0 x1 x2 : Statement (.bswap x0 x1 x2) :=
  word_ok (bit0_fmtA _ _ _ _ _ _) ((primary_01 (fOp_fmtA _ _ _ _ _ _)).trans (by
  simp (disch := decide) only [decodeAlu, fF6_fmtA, fB_fmtA, fA_fmtA, fF3_fmtA, fD_fmtA, wBit_hi, wBit_lo]
  all_goals rfl))
theorem addi x0 x1 x2 : Statement (.addi x0 x1 x2) := word_ok (bit0_fmtI _ _ _ _) ((primary_02 (fOp_fmtI _ _ _ _)).trans (by
  simp (disch := decide) only [fA_fmtI, fD_fmtI, immI_fmtI]))
theorem andi x0 x1 x2 : Statement (.andi x0 x1 x2) := word_ok (bit0_fmtI _ _ _ _) ((primary_03 (fOp_fmtI _ _ _ _)).trans (by
  simp (disch := decide) only [fA_fmtI, fD_fmtI, immI_fmtI]))
theorem ori x0 x1 x2 : Statement (.ori x0 x1 x2) := word_ok (bit0_fmtI _ _ _ _) ((primary_04 (fOp_fmtI _ _ _ _)).trans (by
  simp (disch := decide) only [fA_fmtI, fD_fmtI, immI_fmtI]))
theorem xori x0 x1 x2 : Statement (.xori x0 x1 x2) := word_ok (bit0_fmtI _ _ _ _) ((primary_05 (fOp_fmtI _ _ _ _)).trans (by
  simp (disch := decide) only [fA_fmtI, fD_fmtI, immI_fmtI]))
theorem slti x0 x1 x2 : Statement (.slti x0 x1 x2) := word_ok (bit0_fmtI _ _ _ _) ((primary_06 (fOp_fmtI _ _ _ _)).trans (by
  simp (disch := decide) only [fA_fmtI, fD_fmtI, immI_fmtI]))
theorem sltui x0 x1 x2 : Statement (.sltui x0 x1 x2) := word_ok (bit0_fmtI _ _ _ _) ((primary_07 (fOp_fmtI _ _ _ _)).trans (by
  simp (disch := decide) only [fA_fmtI, fD_fmtI, immI_fmtI]))
theorem slli x0 x1 x2 x3 : Statement (.slli x0 x1 x2 x3) :=
  word_ok (bit0_fmtL _ _ _ _ _) ((primary_08 (fOp_fmtL _ _ _ _ _)).trans (by
  cases x3 <;> simp (disch := decide) only [decodeShiftImm, imm11_fmtL, fA_fmtL, fF3_fmtL, fD_fmtL,
    BitVec.extractLsb'_append_eq_of_le, BitVec.extractLsb'_append_eq_of_add_le, BitVec.extractLsb'_eq_self, Nat.sub_self]
  all_goals rfl))
theorem srli x0 x1 x2 x3 : Statement (.srli x0 x1 x2 x3) :=
  word_ok (bit0_fmtL _ _ _ _ _) ((primary_08 (fOp_fmtL _ _ _ _ _)).trans (by
  cases x3 <;> simp (disch := decide) only [decodeShiftImm, imm11_fmtL, fA_fmtL, fF3_fmtL, fD_fmtL,
    BitVec.extractLsb'_append_eq_of_le, BitVec.extractLsb'_append_eq_of_add_le, BitVec.extractLsb'_eq_self, Nat.sub_self]
  all_goals rfl))
theorem srai x0 x1 x2 x3 : Statement (.srai x0 x1 x2 x3) :=
  word_ok (bit0_fmtL _ _ _ _ _) ((primary_08 (fOp_fmtL _ _ _ _ _)).trans (by
  cases x3 <;> simp (disch := decide) only [decodeShiftImm, imm11_fmtL, fA_fmtL, fF3_fmtL, fD_fmtL,
    BitVec.extractLsb'_append_eq_of_le, BitVec.extractLsb'_append_eq_of_add_le, BitVec.extractLsb'_eq_self, Nat.sub_self]
  all_goals rfl))
theorem rori x0 x1 x2 x3 : Statement (.rori x0 x1 x2 x3) :=
  word_ok (bit0_fmtL _ _ _ _ _) ((primary_08 (fOp_fmtL _ _ _ _ _)).trans (by
  cases x3 <;> simp (disch := decide) only [decodeShiftImm, imm11_fmtL, fA_fmtL, fF3_fmtL, fD_fmtL,
    BitVec.extractLsb'_append_eq_of_le, BitVec.extractLsb'_append_eq_of_add_le, BitVec.extractLsb'_eq_self, Nat.sub_self]
  all_goals rfl))
theorem ldhi x0 x1 : Statement (.ldhi x0 x1) := word_ok (bit0_fmtU _ _ _) ((primary_09 (fOp_fmtU _ _ _)).trans (by
  simp (disch := decide) only [imm19_fmtU, fD_fmtU]))
theorem pcaddhi x0 x1 : Statement (.pcaddhi x0 x1) := word_ok (bit0_fmtU _ _ _) ((primary_0a (fOp_fmtU _ _ _)).trans (by
  simp (disch := decide) only [imm19_fmtU, fD_fmtU]))
theorem crd x0 x1 : Statement (.crd x0 x1) := word_ok (bit0_fmtL _ _ _ _ _) ((primary_0b (fOp_fmtL _ _ _ _ _)).trans (by
  simp (disch := decide) only [decodeSys, imm11_fmtL, fA_fmtL, fF3_fmtL, fD_fmtL]
  all_goals rfl))
theorem cwr x0 x1 : Statement (.cwr x0 x1) := word_ok (bit0_fmtL _ _ _ _ _) ((primary_0b (fOp_fmtL _ _ _ _ _)).trans (by
  simp (disch := decide) only [decodeSys, imm11_fmtL, fA_fmtL, fF3_fmtL, fD_fmtL]
  all_goals rfl))
theorem crs x0 x1 x2 : Statement (.crs x0 x1 x2) := word_ok (bit0_fmtL _ _ _ _ _) ((primary_0b (fOp_fmtL _ _ _ _ _)).trans (by
  simp (disch := decide) only [decodeSys, imm11_fmtL, fA_fmtL, fF3_fmtL, fD_fmtL]))
theorem crc x0 x1 x2 : Statement (.crc x0 x1 x2) := word_ok (bit0_fmtL _ _ _ _ _) ((primary_0b (fOp_fmtL _ _ _ _ _)).trans (by
  simp (disch := decide) only [decodeSys, imm11_fmtL, fA_fmtL, fF3_fmtL, fD_fmtL]))
theorem beq x0 x1 x2 : Statement (.beq x0 x1 x2) := word_ok (bit0_fmtS _ _ _ _ _) ((primary_10 (fOp_fmtS _ _ _ _ _)).trans (by
  simp (disch := decide) only [decodeBranch, fB_fmtS, fA_fmtS, fF3_fmtS, immS_fmtS]))
theorem bne x0 x1 x2 : Statement (.bne x0 x1 x2) := word_ok (bit0_fmtS _ _ _ _ _) ((primary_10 (fOp_fmtS _ _ _ _ _)).trans (by
  simp (disch := decide) only [decodeBranch, fB_fmtS, fA_fmtS, fF3_fmtS, immS_fmtS]))
theorem blt x0 x1 x2 : Statement (.blt x0 x1 x2) := word_ok (bit0_fmtS _ _ _ _ _) ((primary_10 (fOp_fmtS _ _ _ _ _)).trans (by
  simp (disch := decide) only [decodeBranch, fB_fmtS, fA_fmtS, fF3_fmtS, immS_fmtS]))
theorem bge x0 x1 x2 : Statement (.bge x0 x1 x2) := word_ok (bit0_fmtS _ _ _ _ _) ((primary_10 (fOp_fmtS _ _ _ _ _)).trans (by
  simp (disch := decide) only [decodeBranch, fB_fmtS, fA_fmtS, fF3_fmtS, immS_fmtS]))
theorem bltu x0 x1 x2 : Statement (.bltu x0 x1 x2) := word_ok (bit0_fmtS _ _ _ _ _) ((primary_10 (fOp_fmtS _ _ _ _ _)).trans (by
  simp (disch := decide) only [decodeBranch, fB_fmtS, fA_fmtS, fF3_fmtS, immS_fmtS]))
theorem bgeu x0 x1 x2 : Statement (.bgeu x0 x1 x2) := word_ok (bit0_fmtS _ _ _ _ _) ((primary_10 (fOp_fmtS _ _ _ _ _)).trans (by
  simp (disch := decide) only [decodeBranch, fB_fmtS, fA_fmtS, fF3_fmtS, immS_fmtS]))
theorem jal x0 x1 : Statement (.jal x0 x1) := word_ok (bit0_fmtU _ _ _) ((primary_11 (fOp_fmtU _ _ _)).trans (by
  simp (disch := decide) only [imm19_fmtU, fD_fmtU]))
theorem jalr x0 x1 x2 : Statement (.jalr x0 x1 x2) := word_ok (bit0_fmtL _ _ _ _ _) ((primary_12 (fOp_fmtL _ _ _ _ _)).trans (by
  simp (disch := decide) only [decodeJalr, imm11_fmtL, fA_fmtL, fF3_fmtL, fD_fmtL]))
theorem rep x0 x1 x2 x3 : Statement (.rep x0 x1 x2 x3) :=
  word_ok (bit0_fmtRep _ _ _ _ _) ((primary_13 (fOp_fmtRep _ _ _ _ _)).trans (by
  simp (disch := decide) only [repCnt_fmtRep, repD_fmtRep, repA_fmtRep, repB_fmtRep, fRsvRep_fmtRep]
  all_goals rfl))
theorem gang x0 x1 x2 : Statement (.gang x0 x1 x2) := word_ok (bit0_fmtL _ _ _ _ _) ((primary_14 (fOp_fmtL _ _ _ _ _)).trans (by
  simp (disch := decide) only [decodeGang, imm11_fmtL, fA_fmtL, fF3_fmtL, fD_fmtL, BitVec.extractLsb'_append_eq_of_le,
    BitVec.extractLsb'_append_eq_of_add_le, BitVec.extractLsb'_eq_self, Nat.sub_self]
  all_goals rfl))
theorem gangFormation x0 : Statement (.gangFormation x0) := fun _ => rfl
theorem ungang : Statement (.ungang) := word_ok (bit0_fmtL _ _ _ _ _) ((primary_14 (fOp_fmtL _ _ _ _ _)).trans (by
  simp (disch := decide) only [decodeGang, imm11_fmtL, fA_fmtL, fF3_fmtL, fD_fmtL]
  all_goals rfl))
theorem ldB x0 x1 x2 : Statement (.ldB x0 x1 x2) := word_ok (bit0_fmtL _ _ _ _ _) ((primary_18 (fOp_fmtL _ _ _ _ _)).trans (by
  simp (disch := decide) only [decodeLoad, imm11_fmtL, fA_fmtL, fF3_fmtL, fD_fmtL]))
theorem ldH x0 x1 x2 : Statement (.ldH x0 x1 x2) := word_ok (bit0_fmtL _ _ _ _ _) ((primary_18 (fOp_fmtL _ _ _ _ _)).trans (by
  simp (disch := decide) only [decodeLoad, imm11_fmtL, fA_fmtL, fF3_fmtL, fD_fmtL]))
theorem ldW x0 x1 x2 : Statement (.ldW x0 x1 x2) := word_ok (bit0_fmtL _ _ _ _ _) ((primary_18 (fOp_fmtL _ _ _ _ _)).trans (by
  simp (disch := decide) only [decodeLoad, imm11_fmtL, fA_fmtL, fF3_fmtL, fD_fmtL]))
theorem ldD x0 x1 x2 : Statement (.ldD x0 x1 x2) := word_ok (bit0_fmtL _ _ _ _ _) ((primary_18 (fOp_fmtL _ _ _ _ _)).trans (by
  simp (disch := decide) only [decodeLoad, imm11_fmtL, fA_fmtL, fF3_fmtL, fD_fmtL]))
theorem ldBz x0 x1 x2 : Statement (.ldBz x0 x1 x2) := word_ok (bit0_fmtL _ _ _ _ _) ((primary_18 (fOp_fmtL _ _ _ _ _)).trans (by
  simp (disch := decide) only [decodeLoad, imm11_fmtL, fA_fmtL, fF3_fmtL, fD_fmtL]))
theorem ldHz x0 x1 x2 : Statement (.ldHz x0 x1 x2) := word_ok (bit0_fmtL _ _ _ _ _) ((primary_18 (fOp_fmtL _ _ _ _ _)).trans (by
  simp (disch := decide) only [decodeLoad, imm11_fmtL, fA_fmtL, fF3_fmtL, fD_fmtL]))
theorem ldWz x0 x1 x2 : Statement (.ldWz x0 x1 x2) := word_ok (bit0_fmtL _ _ _ _ _) ((primary_18 (fOp_fmtL _ _ _ _ _)).trans (by
  simp (disch := decide) only [decodeLoad, imm11_fmtL, fA_fmtL, fF3_fmtL, fD_fmtL]))
theorem stB x0 x1 x2 : Statement (.stB x0 x1 x2) := word_ok (bit0_fmtS _ _ _ _ _) ((primary_19 (fOp_fmtS _ _ _ _ _)).trans (by
  simp (disch := decide) only [decodeStore, fB_fmtS, fA_fmtS, fF3_fmtS, immS_fmtS]))
theorem stH x0 x1 x2 : Statement (.stH x0 x1 x2) := word_ok (bit0_fmtS _ _ _ _ _) ((primary_19 (fOp_fmtS _ _ _ _ _)).trans (by
  simp (disch := decide) only [decodeStore, fB_fmtS, fA_fmtS, fF3_fmtS, immS_fmtS]))
theorem stW x0 x1 x2 : Statement (.stW x0 x1 x2) := word_ok (bit0_fmtS _ _ _ _ _) ((primary_19 (fOp_fmtS _ _ _ _ _)).trans (by
  simp (disch := decide) only [decodeStore, fB_fmtS, fA_fmtS, fF3_fmtS, immS_fmtS]))
theorem stD x0 x1 x2 : Statement (.stD x0 x1 x2) := word_ok (bit0_fmtS _ _ _ _ _) ((primary_19 (fOp_fmtS _ _ _ _ _)).trans (by
  simp (disch := decide) only [decodeStore, fB_fmtS, fA_fmtS, fF3_fmtS, immS_fmtS]))
theorem vld x0 x1 x2 x3 : Statement (.vld x0 x1 x2 x3) :=
  word_ok (bit0_fmtVM _ _ _ _ _) ((primary_1a (fOp_fmtVM _ _ _ _ _)).trans (by
  simp (disch := decide) only [imm11_fmtVM, fA_fmtVM, nt_fmtVM, fVd_fmtVM, ofBool_bit]))
theorem vst x0 x1 x2 x3 : Statement (.vst x0 x1 x2 x3) :=
  word_ok (bit0_fmtVM _ _ _ _ _) ((primary_1b (fOp_fmtVM _ _ _ _ _)).trans (by
  simp (disch := decide) only [imm11_fmtVM, fA_fmtVM, nt_fmtVM, fVd_fmtVM, ofBool_bit]))
theorem vldx x0 x1 x2 x3 : Statement (.vldx x0 x1 x2 x3) :=
  word_ok (bit0_fmtVX _ _ _ _ _ _) ((primary_1c (fOp_fmtVX _ _ _ _ _ _)).trans (by
  simp (disch := decide) only [decodeGather, fF3v_fmtVX, fVb_fmtVX, st_fmtVX, fA_fmtVX, fRsvX_fmtVX, fVd_fmtVX, ofBool_bit]
  all_goals rfl))
theorem vstx x0 x1 x2 x3 : Statement (.vstx x0 x1 x2 x3) :=
  word_ok (bit0_fmtVX _ _ _ _ _ _) ((primary_1c (fOp_fmtVX _ _ _ _ _ _)).trans (by
  simp (disch := decide) only [decodeGather, fF3v_fmtVX, fVb_fmtVX, st_fmtVX, fA_fmtVX, fRsvX_fmtVX, fVd_fmtVX, ofBool_bit]
  all_goals rfl))
theorem vlds x0 x1 x2 x3 : Statement (.vlds x0 x1 x2 x3) :=
  word_ok (bit0_fmtVX _ _ _ _ _ _) ((primary_1c (fOp_fmtVX _ _ _ _ _ _)).trans (by
  simp (disch := decide) only [decodeGather, fF3v_fmtVX, fVb_fmtVX, st_fmtVX, fA_fmtVX, fRsvX_fmtVX, fVd_fmtVX, ofBool_bit,
    BitVec.extractLsb'_append_eq_of_le, BitVec.extractLsb'_append_eq_of_add_le, BitVec.extractLsb'_eq_self, Nat.sub_self]
  all_goals rfl))
theorem vsts x0 x1 x2 x3 : Statement (.vsts x0 x1 x2 x3) :=
  word_ok (bit0_fmtVX _ _ _ _ _ _) ((primary_1c (fOp_fmtVX _ _ _ _ _ _)).trans (by
  simp (disch := decide) only [decodeGather, fF3v_fmtVX, fVb_fmtVX, st_fmtVX, fA_fmtVX, fRsvX_fmtVX, fVd_fmtVX, ofBool_bit,
    BitVec.extractLsb'_append_eq_of_le, BitVec.extractLsb'_append_eq_of_add_le, BitVec.extractLsb'_eq_self, Nat.sub_self]
  all_goals rfl))
theorem pref x0 x1 : Statement (.pref x0 x1) := word_ok (bit0_fmtL _ _ _ _ _) ((primary_1d (fOp_fmtL _ _ _ _ _)).trans (by
  simp (disch := decide) only [decodeHint, imm11_fmtL, fA_fmtL, fF3_fmtL, fD_fmtL]
  all_goals rfl))
theorem prefl2 x0 x1 : Statement (.prefl2 x0 x1) := word_ok (bit0_fmtL _ _ _ _ _) ((primary_1d (fOp_fmtL _ _ _ _ _)).trans (by
  simp (disch := decide) only [decodeHint, imm11_fmtL, fA_fmtL, fF3_fmtL, fD_fmtL]
  all_goals rfl))
theorem discard x0 x1 : Statement (.discard x0 x1) := word_ok (bit0_fmtL _ _ _ _ _) ((primary_1d (fOp_fmtL _ _ _ _ _)).trans (by
  simp (disch := decide) only [decodeHint, imm11_fmtL, fA_fmtL, fF3_fmtL, fD_fmtL]
  all_goals rfl))
theorem flush x0 x1 : Statement (.flush x0 x1) := word_ok (bit0_fmtL _ _ _ _ _) ((primary_1d (fOp_fmtL _ _ _ _ _)).trans (by
  simp (disch := decide) only [decodeHint, imm11_fmtL, fA_fmtL, fF3_fmtL, fD_fmtL]
  all_goals rfl))
theorem clean x0 x1 : Statement (.clean x0 x1) := word_ok (bit0_fmtL _ _ _ _ _) ((primary_1d (fOp_fmtL _ _ _ _ _)).trans (by
  simp (disch := decide) only [decodeHint, imm11_fmtL, fA_fmtL, fF3_fmtL, fD_fmtL]
  all_goals rfl))
theorem inval x0 x1 : Statement (.inval x0 x1) := word_ok (bit0_fmtL _ _ _ _ _) ((primary_1d (fOp_fmtL _ _ _ _ _)).trans (by
  simp (disch := decide) only [decodeHint, imm11_fmtL, fA_fmtL, fF3_fmtL, fD_fmtL]
  all_goals rfl))
theorem amoaddW x0 x1 x2 x3 x4 : Statement (.amoaddW x0 x1 x2 x3 x4) :=
  word_ok (bit0_fmtA _ _ _ _ _ _) ((primary_20 (fOp_fmtA _ _ _ _ _ _)).trans (by
  simp (disch := decide) only [decodeAmoW, fF6_fmtA, fB_fmtA, fA_fmtA, fF3_fmtA, fD_fmtA, BitVec.extractLsb'_append_eq_of_le,
    BitVec.extractLsb'_append_eq_of_add_le, BitVec.extractLsb'_eq_self, Nat.sub_self]))
theorem amoandW x0 x1 x2 x3 x4 : Statement (.amoandW x0 x1 x2 x3 x4) :=
  word_ok (bit0_fmtA _ _ _ _ _ _) ((primary_20 (fOp_fmtA _ _ _ _ _ _)).trans (by
  simp (disch := decide) only [decodeAmoW, fF6_fmtA, fB_fmtA, fA_fmtA, fF3_fmtA, fD_fmtA, BitVec.extractLsb'_append_eq_of_le,
    BitVec.extractLsb'_append_eq_of_add_le, BitVec.extractLsb'_eq_self, Nat.sub_self]))
theorem amoorW x0 x1 x2 x3 x4 : Statement (.amoorW x0 x1 x2 x3 x4) :=
  word_ok (bit0_fmtA _ _ _ _ _ _) ((primary_20 (fOp_fmtA _ _ _ _ _ _)).trans (by
  simp (disch := decide) only [decodeAmoW, fF6_fmtA, fB_fmtA, fA_fmtA, fF3_fmtA, fD_fmtA, BitVec.extractLsb'_append_eq_of_le,
    BitVec.extractLsb'_append_eq_of_add_le, BitVec.extractLsb'_eq_self, Nat.sub_self]))
theorem amoxorW x0 x1 x2 x3 x4 : Statement (.amoxorW x0 x1 x2 x3 x4) :=
  word_ok (bit0_fmtA _ _ _ _ _ _) ((primary_20 (fOp_fmtA _ _ _ _ _ _)).trans (by
  simp (disch := decide) only [decodeAmoW, fF6_fmtA, fB_fmtA, fA_fmtA, fF3_fmtA, fD_fmtA, BitVec.extractLsb'_append_eq_of_le,
    BitVec.extractLsb'_append_eq_of_add_le, BitVec.extractLsb'_eq_self, Nat.sub_self]))
theorem amominW x0 x1 x2 x3 x4 : Statement (.amominW x0 x1 x2 x3 x4) :=
  word_ok (bit0_fmtA _ _ _ _ _ _) ((primary_20 (fOp_fmtA _ _ _ _ _ _)).trans (by
  simp (disch := decide) only [decodeAmoW, fF6_fmtA, fB_fmtA, fA_fmtA, fF3_fmtA, fD_fmtA, BitVec.extractLsb'_append_eq_of_le,
    BitVec.extractLsb'_append_eq_of_add_le, BitVec.extractLsb'_eq_self, Nat.sub_self]))
theorem amomaxW x0 x1 x2 x3 x4 : Statement (.amomaxW x0 x1 x2 x3 x4) :=
  word_ok (bit0_fmtA _ _ _ _ _ _) ((primary_20 (fOp_fmtA _ _ _ _ _ _)).trans (by
  simp (disch := decide) only [decodeAmoW, fF6_fmtA, fB_fmtA, fA_fmtA, fF3_fmtA, fD_fmtA, BitVec.extractLsb'_append_eq_of_le,
    BitVec.extractLsb'_append_eq_of_add_le, BitVec.extractLsb'_eq_self, Nat.sub_self]))
theorem amominuW x0 x1 x2 x3 x4 : Statement (.amominuW x0 x1 x2 x3 x4) :=
  word_ok (bit0_fmtA _ _ _ _ _ _) ((primary_20 (fOp_fmtA _ _ _ _ _ _)).trans (by
  simp (disch := decide) only [decodeAmoW, fF6_fmtA, fB_fmtA, fA_fmtA, fF3_fmtA, fD_fmtA, BitVec.extractLsb'_append_eq_of_le,
    BitVec.extractLsb'_append_eq_of_add_le, BitVec.extractLsb'_eq_self, Nat.sub_self]))
theorem amomaxuW x0 x1 x2 x3 x4 : Statement (.amomaxuW x0 x1 x2 x3 x4) :=
  word_ok (bit0_fmtA _ _ _ _ _ _) ((primary_20 (fOp_fmtA _ _ _ _ _ _)).trans (by
  simp (disch := decide) only [decodeAmoW, fF6_fmtA, fB_fmtA, fA_fmtA, fF3_fmtA, fD_fmtA, BitVec.extractLsb'_append_eq_of_le,
    BitVec.extractLsb'_append_eq_of_add_le, BitVec.extractLsb'_eq_self, Nat.sub_self]))
theorem amoswapW x0 x1 x2 x3 x4 : Statement (.amoswapW x0 x1 x2 x3 x4) :=
  word_ok (bit0_fmtA _ _ _ _ _ _) ((primary_20 (fOp_fmtA _ _ _ _ _ _)).trans (by
  simp (disch := decide) only [decodeAmoW, fF6_fmtA, fB_fmtA, fA_fmtA, fF3_fmtA, fD_fmtA, BitVec.extractLsb'_append_eq_of_le,
    BitVec.extractLsb'_append_eq_of_add_le, BitVec.extractLsb'_eq_self, Nat.sub_self]))
theorem amocasW x0 x1 x2 x3 x4 : Statement (.amocasW x0 x1 x2 x3 x4) :=
  word_ok (bit0_fmtA _ _ _ _ _ _) ((primary_20 (fOp_fmtA _ _ _ _ _ _)).trans (by
  simp (disch := decide) only [decodeAmoW, fF6_fmtA, fB_fmtA, fA_fmtA, fF3_fmtA, fD_fmtA, BitVec.extractLsb'_append_eq_of_le,
    BitVec.extractLsb'_append_eq_of_add_le, BitVec.extractLsb'_eq_self, Nat.sub_self]))
theorem amoaddD x0 x1 x2 x3 x4 : Statement (.amoaddD x0 x1 x2 x3 x4) :=
  word_ok (bit0_fmtA _ _ _ _ _ _) ((primary_21 (fOp_fmtA _ _ _ _ _ _)).trans (by
  simp (disch := decide) only [decodeAmoD, fF6_fmtA, fB_fmtA, fA_fmtA, fF3_fmtA, fD_fmtA, BitVec.extractLsb'_append_eq_of_le,
    BitVec.extractLsb'_append_eq_of_add_le, BitVec.extractLsb'_eq_self, Nat.sub_self]))
theorem amoandD x0 x1 x2 x3 x4 : Statement (.amoandD x0 x1 x2 x3 x4) :=
  word_ok (bit0_fmtA _ _ _ _ _ _) ((primary_21 (fOp_fmtA _ _ _ _ _ _)).trans (by
  simp (disch := decide) only [decodeAmoD, fF6_fmtA, fB_fmtA, fA_fmtA, fF3_fmtA, fD_fmtA, BitVec.extractLsb'_append_eq_of_le,
    BitVec.extractLsb'_append_eq_of_add_le, BitVec.extractLsb'_eq_self, Nat.sub_self]))
theorem amoorD x0 x1 x2 x3 x4 : Statement (.amoorD x0 x1 x2 x3 x4) :=
  word_ok (bit0_fmtA _ _ _ _ _ _) ((primary_21 (fOp_fmtA _ _ _ _ _ _)).trans (by
  simp (disch := decide) only [decodeAmoD, fF6_fmtA, fB_fmtA, fA_fmtA, fF3_fmtA, fD_fmtA, BitVec.extractLsb'_append_eq_of_le,
    BitVec.extractLsb'_append_eq_of_add_le, BitVec.extractLsb'_eq_self, Nat.sub_self]))
theorem amoxorD x0 x1 x2 x3 x4 : Statement (.amoxorD x0 x1 x2 x3 x4) :=
  word_ok (bit0_fmtA _ _ _ _ _ _) ((primary_21 (fOp_fmtA _ _ _ _ _ _)).trans (by
  simp (disch := decide) only [decodeAmoD, fF6_fmtA, fB_fmtA, fA_fmtA, fF3_fmtA, fD_fmtA, BitVec.extractLsb'_append_eq_of_le,
    BitVec.extractLsb'_append_eq_of_add_le, BitVec.extractLsb'_eq_self, Nat.sub_self]))
theorem amominD x0 x1 x2 x3 x4 : Statement (.amominD x0 x1 x2 x3 x4) :=
  word_ok (bit0_fmtA _ _ _ _ _ _) ((primary_21 (fOp_fmtA _ _ _ _ _ _)).trans (by
  simp (disch := decide) only [decodeAmoD, fF6_fmtA, fB_fmtA, fA_fmtA, fF3_fmtA, fD_fmtA, BitVec.extractLsb'_append_eq_of_le,
    BitVec.extractLsb'_append_eq_of_add_le, BitVec.extractLsb'_eq_self, Nat.sub_self]))
theorem amomaxD x0 x1 x2 x3 x4 : Statement (.amomaxD x0 x1 x2 x3 x4) :=
  word_ok (bit0_fmtA _ _ _ _ _ _) ((primary_21 (fOp_fmtA _ _ _ _ _ _)).trans (by
  simp (disch := decide) only [decodeAmoD, fF6_fmtA, fB_fmtA, fA_fmtA, fF3_fmtA, fD_fmtA, BitVec.extractLsb'_append_eq_of_le,
    BitVec.extractLsb'_append_eq_of_add_le, BitVec.extractLsb'_eq_self, Nat.sub_self]))
theorem amominuD x0 x1 x2 x3 x4 : Statement (.amominuD x0 x1 x2 x3 x4) :=
  word_ok (bit0_fmtA _ _ _ _ _ _) ((primary_21 (fOp_fmtA _ _ _ _ _ _)).trans (by
  simp (disch := decide) only [decodeAmoD, fF6_fmtA, fB_fmtA, fA_fmtA, fF3_fmtA, fD_fmtA, BitVec.extractLsb'_append_eq_of_le,
    BitVec.extractLsb'_append_eq_of_add_le, BitVec.extractLsb'_eq_self, Nat.sub_self]))
theorem amomaxuD x0 x1 x2 x3 x4 : Statement (.amomaxuD x0 x1 x2 x3 x4) :=
  word_ok (bit0_fmtA _ _ _ _ _ _) ((primary_21 (fOp_fmtA _ _ _ _ _ _)).trans (by
  simp (disch := decide) only [decodeAmoD, fF6_fmtA, fB_fmtA, fA_fmtA, fF3_fmtA, fD_fmtA, BitVec.extractLsb'_append_eq_of_le,
    BitVec.extractLsb'_append_eq_of_add_le, BitVec.extractLsb'_eq_self, Nat.sub_self]))
theorem amoswapD x0 x1 x2 x3 x4 : Statement (.amoswapD x0 x1 x2 x3 x4) :=
  word_ok (bit0_fmtA _ _ _ _ _ _) ((primary_21 (fOp_fmtA _ _ _ _ _ _)).trans (by
  simp (disch := decide) only [decodeAmoD, fF6_fmtA, fB_fmtA, fA_fmtA, fF3_fmtA, fD_fmtA, BitVec.extractLsb'_append_eq_of_le,
    BitVec.extractLsb'_append_eq_of_add_le, BitVec.extractLsb'_eq_self, Nat.sub_self]))
theorem amocasD x0 x1 x2 x3 x4 : Statement (.amocasD x0 x1 x2 x3 x4) :=
  word_ok (bit0_fmtA _ _ _ _ _ _) ((primary_21 (fOp_fmtA _ _ _ _ _ _)).trans (by
  simp (disch := decide) only [decodeAmoD, fF6_fmtA, fB_fmtA, fA_fmtA, fF3_fmtA, fD_fmtA, BitVec.extractLsb'_append_eq_of_le,
    BitVec.extractLsb'_append_eq_of_add_le, BitVec.extractLsb'_eq_self, Nat.sub_self]))
theorem cas128 x0 x1 x2 x3 x4 : Statement (.cas128 x0 x1 x2 x3 x4) :=
  word_ok (bit0_fmtA _ _ _ _ _ _) ((primary_22 (fOp_fmtA _ _ _ _ _ _)).trans (by
  simp (disch := decide) only [decodeCas128, fF6_fmtA, fB_fmtA, fA_fmtA, fF3_fmtA, fD_fmtA, BitVec.extractLsb'_append_eq_of_le,
    BitVec.extractLsb'_append_eq_of_add_le, BitVec.extractLsb'_eq_self, Nat.sub_self]))
theorem atomicResult x0 x1 : Statement (.atomicResult x0 x1) := fun _ => rfl
theorem ldacq x0 x1 x2 x3 : Statement (.ldacq x0 x1 x2 x3) :=
  word_ok (bit0_fmtL _ _ _ _ _) ((primary_23 (fOp_fmtL _ _ _ _ _)).trans (by
  cases x3 <;> simp (disch := decide) only [decodeLdacq, imm11_fmtL, fA_fmtL, fF3_fmtL, fD_fmtL,
    BitVec.extractLsb'_append_eq_of_le, BitVec.extractLsb'_append_eq_of_add_le, BitVec.extractLsb'_eq_self, Nat.sub_self]
  all_goals rfl))
theorem strel x0 x1 x2 x3 : Statement (.strel x0 x1 x2 x3) :=
  word_ok (bit0_fmtA _ _ _ _ _ _) ((primary_24 (fOp_fmtA _ _ _ _ _ _)).trans (by
  cases x3 <;> simp (disch := decide) only [decodeStrel, fF6_fmtA, fB_fmtA, fA_fmtA, fF3_fmtA, fD_fmtA,
    BitVec.extractLsb'_append_eq_of_le, BitVec.extractLsb'_append_eq_of_add_le, BitVec.extractLsb'_eq_self, Nat.sub_self]
  all_goals rfl))
theorem fenceAcq x0 : Statement (.fenceAcq x0) := word_ok (bit0_fmtL _ _ _ _ _) ((primary_25 (fOp_fmtL _ _ _ _ _)).trans (by
  simp (disch := decide) only [decodeFence, imm11_fmtL, fA_fmtL, fF3_fmtL, fD_fmtL, BitVec.extractLsb'_append_eq_of_le,
    BitVec.extractLsb'_append_eq_of_add_le, BitVec.extractLsb'_eq_self, Nat.sub_self, Nat.reduceSub]
  all_goals rfl))
theorem fenceRel x0 : Statement (.fenceRel x0) := word_ok (bit0_fmtL _ _ _ _ _) ((primary_25 (fOp_fmtL _ _ _ _ _)).trans (by
  simp (disch := decide) only [decodeFence, imm11_fmtL, fA_fmtL, fF3_fmtL, fD_fmtL, BitVec.extractLsb'_append_eq_of_le,
    BitVec.extractLsb'_append_eq_of_add_le, BitVec.extractLsb'_eq_self, Nat.sub_self, Nat.reduceSub]
  all_goals rfl))
theorem fenceFull x0 : Statement (.fenceFull x0) := word_ok (bit0_fmtL _ _ _ _ _) ((primary_25 (fOp_fmtL _ _ _ _ _)).trans (by
  simp (disch := decide) only [decodeFence, imm11_fmtL, fA_fmtL, fF3_fmtL, fD_fmtL, BitVec.extractLsb'_append_eq_of_le,
    BitVec.extractLsb'_append_eq_of_add_le, BitVec.extractLsb'_eq_self, Nat.sub_self, Nat.reduceSub]
  all_goals rfl))
theorem xfence x0 x1 x2 : Statement (.xfence x0 x1 x2) :=
  word_ok (bit0_fmtL _ _ _ _ _) ((primary_25 (fOp_fmtL _ _ _ _ _)).trans (by
  simp (disch := decide) only [decodeFence, imm11_fmtL, fA_fmtL, fF3_fmtL, fD_fmtL, BitVec.extractLsb'_append_eq_of_le,
    BitVec.extractLsb'_append_eq_of_add_le, BitVec.extractLsb'_eq_self, Nat.sub_self, Nat.reduceSub]
  all_goals rfl))
theorem cpy x0 x1 x2 : Statement (.cpy x0 x1 x2) := word_ok (bit0_fmtA _ _ _ _ _ _) ((primary_26 (fOp_fmtA _ _ _ _ _ _)).trans (by
  simp (disch := decide) only [decodeCopy, fF6_fmtA, fB_fmtA, fA_fmtA, fF3_fmtA, fD_fmtA, wBit_hi, wBit_lo]
  all_goals rfl))
theorem cpys x0 x1 x2 x3 : Statement (.cpys x0 x1 x2 x3) :=
  word_ok (bit0_fmtA _ _ _ _ _ _) ((primary_26 (fOp_fmtA _ _ _ _ _ _)).trans (by
  simp (disch := decide) only [decodeCopy, fF6_fmtA, fB_fmtA, fA_fmtA, fF3_fmtA, fD_fmtA, wBit_hi, wBit_lo]
  all_goals rfl))
theorem cpyg x0 x1 x2 x3 : Statement (.cpyg x0 x1 x2 x3) :=
  word_ok (bit0_fmtA _ _ _ _ _ _) ((primary_26 (fOp_fmtA _ _ _ _ _ _)).trans (by
  simp (disch := decide) only [decodeCopy, fF6_fmtA, fB_fmtA, fA_fmtA, fF3_fmtA, fD_fmtA, wBit_hi, wBit_lo]
  all_goals rfl))
theorem cfill x0 x1 x2 : Statement (.cfill x0 x1 x2) :=
  word_ok (bit0_fmtA _ _ _ _ _ _) ((primary_26 (fOp_fmtA _ _ _ _ _ _)).trans (by
  simp (disch := decide) only [decodeCopy, fF6_fmtA, fB_fmtA, fA_fmtA, fF3_fmtA, fD_fmtA, wBit_hi, wBit_lo]
  all_goals rfl))
theorem copyStart x0 : Statement (.copyStart x0) := fun _ => rfl
theorem copyComplete x0 x1 : Statement (.copyComplete x0 x1) := fun _ => rfl
theorem copyFault x0 x1 : Statement (.copyFault x0 x1) := fun _ => rfl
theorem notify x0 x1 : Statement (.notify x0 x1) := word_ok (bit0_fmtA _ _ _ _ _ _) ((primary_27 (fOp_fmtA _ _ _ _ _ _)).trans (by
  simp (disch := decide) only [decodeSync, fF6_fmtA, fB_fmtA, fA_fmtA, fF3_fmtA, fD_fmtA]
  all_goals rfl))
theorem syncw x0 x1 x2 : Statement (.syncw x0 x1 x2) :=
  word_ok (bit0_fmtA _ _ _ _ _ _) ((primary_27 (fOp_fmtA _ _ _ _ _ _)).trans (by
  simp (disch := decide) only [decodeSync, fF6_fmtA, fB_fmtA, fA_fmtA, fF3_fmtA, fD_fmtA]
  all_goals rfl))
theorem syncinit x0 x1 : Statement (.syncinit x0 x1) :=
  word_ok (bit0_fmtA _ _ _ _ _ _) ((primary_27 (fOp_fmtA _ _ _ _ _ _)).trans (by
  simp (disch := decide) only [decodeSync, fF6_fmtA, fB_fmtA, fA_fmtA, fF3_fmtA, fD_fmtA]
  all_goals rfl))
theorem syncrd x0 x1 x2 : Statement (.syncrd x0 x1 x2) :=
  word_ok (bit0_fmtA _ _ _ _ _ _) ((primary_27 (fOp_fmtA _ _ _ _ _ _)).trans (by
  simp (disch := decide) only [decodeSync, fF6_fmtA, fB_fmtA, fA_fmtA, fF3_fmtA, fD_fmtA]
  all_goals rfl))
theorem syncBlockPost x0 : Statement (.syncBlockPost x0) := fun _ => rfl
theorem syncwRecheck x0 x1 : Statement (.syncwRecheck x0 x1) := fun _ => rfl
theorem spawn x0 x1 x2 x3 : Statement (.spawn x0 x1 x2 x3) :=
  word_ok (bit0_fmtA _ _ _ _ _ _) ((primary_28 (fOp_fmtA _ _ _ _ _ _)).trans (by
  cases x3 <;> simp (disch := decide) only [decodeTask, fF6_fmtA, fB_fmtA, fA_fmtA, fF3_fmtA, fD_fmtA,
    BitVec.extractLsb'_append_eq_of_le, BitVec.extractLsb'_eq_self, Nat.sub_self]
  all_goals rfl))
theorem join x0 x1 : Statement (.join x0 x1) := word_ok (bit0_fmtA _ _ _ _ _ _) ((primary_28 (fOp_fmtA _ _ _ _ _ _)).trans (by
  simp (disch := decide) only [decodeTask, fF6_fmtA, fB_fmtA, fA_fmtA, fF3_fmtA, fD_fmtA]
  all_goals rfl))
theorem joinRecheck x0 x1 : Statement (.joinRecheck x0 x1) := fun _ => rfl
theorem callat x0 x1 x2 x3 : Statement (.callat x0 x1 x2 x3) :=
  word_ok (bit0_fmtA _ _ _ _ _ _) ((primary_28 (fOp_fmtA _ _ _ _ _ _)).trans (by
  cases x3 <;> simp (disch := decide) only [decodeTask, fF6_fmtA, fB_fmtA, fA_fmtA, fF3_fmtA, fD_fmtA,
    BitVec.extractLsb'_append_eq_of_le, BitVec.extractLsb'_eq_self, Nat.sub_self]
  all_goals rfl))
theorem callatAccept x0 x1 : Statement (.callatAccept x0 x1) := fun _ => rfl
theorem callatRetry x0 x1 : Statement (.callatRetry x0 x1) := fun _ => rfl
theorem callatReply x0 x1 : Statement (.callatReply x0 x1) := fun _ => rfl
theorem remoteCallFailed x0 x1 x2 : Statement (.remoteCallFailed x0 x1 x2) := fun _ => rfl
theorem rett : Statement (.rett) := word_ok (bit0_fmtA _ _ _ _ _ _) ((primary_28 (fOp_fmtA _ _ _ _ _ _)).trans (by
  simp (disch := decide) only [decodeTask, fF6_fmtA, fB_fmtA, fA_fmtA, fF3_fmtA, fD_fmtA]
  all_goals rfl))
theorem yield : Statement (.yield) := word_ok (bit0_fmtA _ _ _ _ _ _) ((primary_28 (fOp_fmtA _ _ _ _ _ _)).trans (by
  simp (disch := decide) only [decodeTask, fF6_fmtA, fB_fmtA, fA_fmtA, fF3_fmtA, fD_fmtA]
  all_goals rfl))
theorem tcancel x0 x1 : Statement (.tcancel x0 x1) :=
  word_ok (bit0_fmtA _ _ _ _ _ _) ((primary_28 (fOp_fmtA _ _ _ _ _ _)).trans (by
  simp (disch := decide) only [decodeTask, fF6_fmtA, fB_fmtA, fA_fmtA, fF3_fmtA, fD_fmtA]
  all_goals rfl))
theorem taskCancelRequest x0 x1 : Statement (.taskCancelRequest x0 x1) := fun _ => rfl
theorem tend : Statement (.tend) := word_ok (bit0_fmtA _ _ _ _ _ _) ((primary_28 (fOp_fmtA _ _ _ _ _ _)).trans (by
  simp (disch := decide) only [decodeTask, fF6_fmtA, fB_fmtA, fA_fmtA, fF3_fmtA, fD_fmtA]
  all_goals rfl))
theorem joinCounterFailure x0 : Statement (.joinCounterFailure x0) := fun _ => rfl
theorem taskDispatch x0 x1 : Statement (.taskDispatch x0 x1) := fun _ => rfl
theorem taskSteal x0 x1 : Statement (.taskSteal x0 x1) := fun _ => rfl
theorem send x0 x1 x2 x3 x4 : Statement (.send x0 x1 x2 x3 x4) :=
  word_ok (bit0_fmtA _ _ _ _ _ _) ((primary_29 (fOp_fmtA _ _ _ _ _ _)).trans (by
  cases x3 <;> cases x4 <;> simp (disch := decide) only [decodeMessage, fF6_fmtA, fB_fmtA, fA_fmtA, fF3_fmtA, fD_fmtA,
    BitVec.extractLsb'_append_eq_of_le, BitVec.extractLsb'_eq_self, Nat.sub_self, Nat.reduceSub]
  all_goals rfl))
theorem sendDelivery x0 x1 : Statement (.sendDelivery x0 x1) := fun _ => rfl
theorem sendRetry x0 x1 : Statement (.sendRetry x0 x1) := fun _ => rfl
theorem sendTimeOut x0 x1 : Statement (.sendTimeOut x0 x1) := fun _ => rfl
theorem sopen x0 x1 : Statement (.sopen x0 x1) := word_ok (bit0_fmtA _ _ _ _ _ _) ((primary_29 (fOp_fmtA _ _ _ _ _ _)).trans (by
  cases x1 <;> simp (disch := decide) only [decodeMessage, fF6_fmtA, fB_fmtA, fA_fmtA, fF3_fmtA, fD_fmtA,
    BitVec.extractLsb'_append_eq_of_le, BitVec.extractLsb'_eq_self, Nat.sub_self]
  all_goals rfl))
theorem sput x0 x1 x2 : Statement (.sput x0 x1 x2) :=
  word_ok (bit0_fmtA _ _ _ _ _ _) ((primary_29 (fOp_fmtA _ _ _ _ _ _)).trans (by
  cases x2 <;> simp (disch := decide) only [decodeMessage, fF6_fmtA, fB_fmtA, fA_fmtA, fF3_fmtA, fD_fmtA,
    BitVec.extractLsb'_append_eq_of_le, BitVec.extractLsb'_append_eq_of_add_le, BitVec.extractLsb'_eq_self, Nat.sub_self,
    Nat.reduceSub]
  all_goals rfl))
theorem sclose : Statement (.sclose) := word_ok (bit0_fmtA _ _ _ _ _ _) ((primary_29 (fOp_fmtA _ _ _ _ _ _)).trans (by
  simp (disch := decide) only [decodeMessage, fF6_fmtA, fB_fmtA, fA_fmtA, fF3_fmtA, fD_fmtA]
  all_goals rfl))
theorem streamHeader x0 x1 : Statement (.streamHeader x0 x1) := fun _ => rfl
theorem streamWord x0 x1 : Statement (.streamWord x0 x1) := fun _ => rfl
theorem streamCloseMarker x0 x1 : Statement (.streamCloseMarker x0 x1) := fun _ => rfl
theorem qpop x0 x1 : Statement (.qpop x0 x1) := word_ok (bit0_fmtA _ _ _ _ _ _) ((primary_29 (fOp_fmtA _ _ _ _ _ _)).trans (by
  simp (disch := decide) only [decodeMessage, fF6_fmtA, fB_fmtA, fA_fmtA, fF3_fmtA, fD_fmtA,
    BitVec.extractLsb'_append_eq_of_le, BitVec.extractLsb'_append_eq_of_add_le, BitVec.extractLsb'_eq_self, Nat.sub_self]
  all_goals rfl))
theorem qprobe x0 x1 : Statement (.qprobe x0 x1) := word_ok (bit0_fmtA _ _ _ _ _ _) ((primary_29 (fOp_fmtA _ _ _ _ _ _)).trans (by
  simp (disch := decide) only [decodeMessage, fF6_fmtA, fB_fmtA, fA_fmtA, fF3_fmtA, fD_fmtA,
    BitVec.extractLsb'_append_eq_of_le, BitVec.extractLsb'_append_eq_of_add_le, BitVec.extractLsb'_eq_self, Nat.sub_self]
  all_goals rfl))
theorem barw x0 x1 : Statement (.barw x0 x1) := word_ok (bit0_fmtA _ _ _ _ _ _) ((primary_2b (fOp_fmtA _ _ _ _ _ _)).trans (by
  simp (disch := decide) only [decodeBarrier, fF6_fmtA, fB_fmtA, fA_fmtA, fF3_fmtA, fD_fmtA]
  all_goals rfl))
theorem barwa x0 x1 : Statement (.barwa x0 x1) := word_ok (bit0_fmtA _ _ _ _ _ _) ((primary_2b (fOp_fmtA _ _ _ _ _ _)).trans (by
  simp (disch := decide) only [decodeBarrier, fF6_fmtA, fB_fmtA, fA_fmtA, fF3_fmtA, fD_fmtA]
  all_goals rfl))
theorem barww x0 x1 : Statement (.barww x0 x1) := word_ok (bit0_fmtA _ _ _ _ _ _) ((primary_2b (fOp_fmtA _ _ _ _ _ _)).trans (by
  simp (disch := decide) only [decodeBarrier, fF6_fmtA, fB_fmtA, fA_fmtA, fF3_fmtA, fD_fmtA]
  all_goals rfl))
theorem barwr x0 x1 : Statement (.barwr x0 x1) := word_ok (bit0_fmtA _ _ _ _ _ _) ((primary_2b (fOp_fmtA _ _ _ _ _ _)).trans (by
  simp (disch := decide) only [decodeBarrier, fF6_fmtA, fB_fmtA, fA_fmtA, fF3_fmtA, fD_fmtA]
  all_goals rfl))
theorem barrierRelease x0 x1 : Statement (.barrierRelease x0 x1) := fun _ => rfl
theorem barrierTimeOut x0 x1 : Statement (.barrierTimeOut x0 x1) := fun _ => rfl
theorem vadd x0 x1 x2 : Statement (.vadd x0 x1 x2) := word_ok (bit0_fmtV _ _ _ _ _) ((primary_30 (fOp_fmtV _ _ _ _ _)).trans (by
  simp (disch := decide) only [decodeVArith, fF3v_fmtV, fVb_fmtV, fVa_fmtV, fVd_fmtV]))
theorem vsub x0 x1 x2 : Statement (.vsub x0 x1 x2) := word_ok (bit0_fmtV _ _ _ _ _) ((primary_30 (fOp_fmtV _ _ _ _ _)).trans (by
  simp (disch := decide) only [decodeVArith, fF3v_fmtV, fVb_fmtV, fVa_fmtV, fVd_fmtV]))
theorem vmul x0 x1 x2 : Statement (.vmul x0 x1 x2) := word_ok (bit0_fmtV _ _ _ _ _) ((primary_30 (fOp_fmtV _ _ _ _ _)).trans (by
  simp (disch := decide) only [decodeVArith, fF3v_fmtV, fVb_fmtV, fVa_fmtV, fVd_fmtV]))
theorem vmulh x0 x1 x2 : Statement (.vmulh x0 x1 x2) := word_ok (bit0_fmtV _ _ _ _ _) ((primary_30 (fOp_fmtV _ _ _ _ _)).trans (by
  simp (disch := decide) only [decodeVArith, fF3v_fmtV, fVb_fmtV, fVa_fmtV, fVd_fmtV]))
theorem vmulhu x0 x1 x2 : Statement (.vmulhu x0 x1 x2) :=
  word_ok (bit0_fmtV _ _ _ _ _) ((primary_30 (fOp_fmtV _ _ _ _ _)).trans (by
  simp (disch := decide) only [decodeVArith, fF3v_fmtV, fVb_fmtV, fVa_fmtV, fVd_fmtV]))
theorem vabsd x0 x1 x2 : Statement (.vabsd x0 x1 x2) := word_ok (bit0_fmtV _ _ _ _ _) ((primary_30 (fOp_fmtV _ _ _ _ _)).trans (by
  simp (disch := decide) only [decodeVArith, fF3v_fmtV, fVb_fmtV, fVa_fmtV, fVd_fmtV]))
theorem vqadd x0 x1 x2 : Statement (.vqadd x0 x1 x2) := word_ok (bit0_fmtV _ _ _ _ _) ((primary_30 (fOp_fmtV _ _ _ _ _)).trans (by
  simp (disch := decide) only [decodeVArith, fF3v_fmtV, fVb_fmtV, fVa_fmtV, fVd_fmtV]))
theorem vqsub x0 x1 x2 : Statement (.vqsub x0 x1 x2) := word_ok (bit0_fmtV _ _ _ _ _) ((primary_30 (fOp_fmtV _ _ _ _ _)).trans (by
  simp (disch := decide) only [decodeVArith, fF3v_fmtV, fVb_fmtV, fVa_fmtV, fVd_fmtV]))
theorem vmin x0 x1 x2 : Statement (.vmin x0 x1 x2) := word_ok (bit0_fmtV _ _ _ _ _) ((primary_31 (fOp_fmtV _ _ _ _ _)).trans (by
  simp (disch := decide) only [decodeVLogic, fF3v_fmtV, fVb_fmtV, fVa_fmtV, fVd_fmtV]))
theorem vmax x0 x1 x2 : Statement (.vmax x0 x1 x2) := word_ok (bit0_fmtV _ _ _ _ _) ((primary_31 (fOp_fmtV _ _ _ _ _)).trans (by
  simp (disch := decide) only [decodeVLogic, fF3v_fmtV, fVb_fmtV, fVa_fmtV, fVd_fmtV]))
theorem vminu x0 x1 x2 : Statement (.vminu x0 x1 x2) := word_ok (bit0_fmtV _ _ _ _ _) ((primary_31 (fOp_fmtV _ _ _ _ _)).trans (by
  simp (disch := decide) only [decodeVLogic, fF3v_fmtV, fVb_fmtV, fVa_fmtV, fVd_fmtV]))
theorem vmaxu x0 x1 x2 : Statement (.vmaxu x0 x1 x2) := word_ok (bit0_fmtV _ _ _ _ _) ((primary_31 (fOp_fmtV _ _ _ _ _)).trans (by
  simp (disch := decide) only [decodeVLogic, fF3v_fmtV, fVb_fmtV, fVa_fmtV, fVd_fmtV]))
theorem vand x0 x1 x2 : Statement (.vand x0 x1 x2) := word_ok (bit0_fmtV _ _ _ _ _) ((primary_31 (fOp_fmtV _ _ _ _ _)).trans (by
  simp (disch := decide) only [decodeVLogic, fF3v_fmtV, fVb_fmtV, fVa_fmtV, fVd_fmtV]))
theorem vor x0 x1 x2 : Statement (.vor x0 x1 x2) := word_ok (bit0_fmtV _ _ _ _ _) ((primary_31 (fOp_fmtV _ _ _ _ _)).trans (by
  simp (disch := decide) only [decodeVLogic, fF3v_fmtV, fVb_fmtV, fVa_fmtV, fVd_fmtV]))
theorem vxor x0 x1 x2 : Statement (.vxor x0 x1 x2) := word_ok (bit0_fmtV _ _ _ _ _) ((primary_31 (fOp_fmtV _ _ _ _ _)).trans (by
  simp (disch := decide) only [decodeVLogic, fF3v_fmtV, fVb_fmtV, fVa_fmtV, fVd_fmtV]))
theorem vandn x0 x1 x2 : Statement (.vandn x0 x1 x2) := word_ok (bit0_fmtV _ _ _ _ _) ((primary_31 (fOp_fmtV _ _ _ _ _)).trans (by
  simp (disch := decide) only [decodeVLogic, fF3v_fmtV, fVb_fmtV, fVa_fmtV, fVd_fmtV]))
theorem vsll x0 x1 x2 : Statement (.vsll x0 x1 x2) := word_ok (bit0_fmtV _ _ _ _ _) ((primary_32 (fOp_fmtV _ _ _ _ _)).trans (by
  simp (disch := decide) only [decodeVShift, fF3v_fmtV, fVb_fmtV, fVa_fmtV, fVd_fmtV]))
theorem vsrl x0 x1 x2 : Statement (.vsrl x0 x1 x2) := word_ok (bit0_fmtV _ _ _ _ _) ((primary_32 (fOp_fmtV _ _ _ _ _)).trans (by
  simp (disch := decide) only [decodeVShift, fF3v_fmtV, fVb_fmtV, fVa_fmtV, fVd_fmtV]))
theorem vsra x0 x1 x2 : Statement (.vsra x0 x1 x2) := word_ok (bit0_fmtV _ _ _ _ _) ((primary_32 (fOp_fmtV _ _ _ _ _)).trans (by
  simp (disch := decide) only [decodeVShift, fF3v_fmtV, fVb_fmtV, fVa_fmtV, fVd_fmtV]))
theorem vmac x0 x1 x2 : Statement (.vmac x0 x1 x2) := word_ok (bit0_fmtV _ _ _ _ _) ((primary_32 (fOp_fmtV _ _ _ _ _)).trans (by
  simp (disch := decide) only [decodeVShift, fF3v_fmtV, fVb_fmtV, fVa_fmtV, fVd_fmtV]))
theorem vdot4 x0 x1 x2 : Statement (.vdot4 x0 x1 x2) := word_ok (bit0_fmtV _ _ _ _ _) ((primary_32 (fOp_fmtV _ _ _ _ _)).trans (by
  simp (disch := decide) only [decodeVShift, fF3v_fmtV, fVb_fmtV, fVa_fmtV, fVd_fmtV]))
theorem vslls x0 x1 x2 : Statement (.vslls x0 x1 x2) :=
  word_ok (bit0_fmtVS _ _ _ _ _) ((primary_33 (fOp_fmtVS _ _ _ _ _)).trans (by
  simp (disch := decide) only [decodeVScalar, fF5_fmtVS, fBv_fmtVS, fVa_fmtVS, fVd_fmtVS]))
theorem vsrls x0 x1 x2 : Statement (.vsrls x0 x1 x2) :=
  word_ok (bit0_fmtVS _ _ _ _ _) ((primary_33 (fOp_fmtVS _ _ _ _ _)).trans (by
  simp (disch := decide) only [decodeVScalar, fF5_fmtVS, fBv_fmtVS, fVa_fmtVS, fVd_fmtVS]))
theorem vsras x0 x1 x2 : Statement (.vsras x0 x1 x2) :=
  word_ok (bit0_fmtVS _ _ _ _ _) ((primary_33 (fOp_fmtVS _ _ _ _ _)).trans (by
  simp (disch := decide) only [decodeVScalar, fF5_fmtVS, fBv_fmtVS, fVa_fmtVS, fVd_fmtVS]))
theorem vadds x0 x1 x2 : Statement (.vadds x0 x1 x2) :=
  word_ok (bit0_fmtVS _ _ _ _ _) ((primary_33 (fOp_fmtVS _ _ _ _ _)).trans (by
  simp (disch := decide) only [decodeVScalar, fF5_fmtVS, fBv_fmtVS, fVa_fmtVS, fVd_fmtVS]))
theorem vmuls x0 x1 x2 : Statement (.vmuls x0 x1 x2) :=
  word_ok (bit0_fmtVS _ _ _ _ _) ((primary_33 (fOp_fmtVS _ _ _ _ _)).trans (by
  simp (disch := decide) only [decodeVScalar, fF5_fmtVS, fBv_fmtVS, fVa_fmtVS, fVd_fmtVS]))
theorem vceq x0 x1 x2 : Statement (.vceq x0 x1 x2) := word_ok (bit0_fmtV _ _ _ _ _) ((primary_34 (fOp_fmtV _ _ _ _ _)).trans (by
  simp (disch := decide) only [decodeVCompare, fF3v_fmtV, fVb_fmtV, fVa_fmtV, fVd_fmtV]))
theorem vcne x0 x1 x2 : Statement (.vcne x0 x1 x2) := word_ok (bit0_fmtV _ _ _ _ _) ((primary_34 (fOp_fmtV _ _ _ _ _)).trans (by
  simp (disch := decide) only [decodeVCompare, fF3v_fmtV, fVb_fmtV, fVa_fmtV, fVd_fmtV]))
theorem vclt x0 x1 x2 : Statement (.vclt x0 x1 x2) := word_ok (bit0_fmtV _ _ _ _ _) ((primary_34 (fOp_fmtV _ _ _ _ _)).trans (by
  simp (disch := decide) only [decodeVCompare, fF3v_fmtV, fVb_fmtV, fVa_fmtV, fVd_fmtV]))
theorem vcle x0 x1 x2 : Statement (.vcle x0 x1 x2) := word_ok (bit0_fmtV _ _ _ _ _) ((primary_34 (fOp_fmtV _ _ _ _ _)).trans (by
  simp (disch := decide) only [decodeVCompare, fF3v_fmtV, fVb_fmtV, fVa_fmtV, fVd_fmtV]))
theorem vcltu x0 x1 x2 : Statement (.vcltu x0 x1 x2) := word_ok (bit0_fmtV _ _ _ _ _) ((primary_34 (fOp_fmtV _ _ _ _ _)).trans (by
  simp (disch := decide) only [decodeVCompare, fF3v_fmtV, fVb_fmtV, fVa_fmtV, fVd_fmtV]))
theorem vcleu x0 x1 x2 : Statement (.vcleu x0 x1 x2) := word_ok (bit0_fmtV _ _ _ _ _) ((primary_34 (fOp_fmtV _ _ _ _ _)).trans (by
  simp (disch := decide) only [decodeVCompare, fF3v_fmtV, fVb_fmtV, fVa_fmtV, fVd_fmtV]))
theorem vsel x0 x1 x2 : Statement (.vsel x0 x1 x2) := word_ok (bit0_fmtV _ _ _ _ _) ((primary_34 (fOp_fmtV _ _ _ _ _)).trans (by
  simp (disch := decide) only [decodeVCompare, fF3v_fmtV, fVb_fmtV, fVa_fmtV, fVd_fmtV]))
theorem vperm x0 x1 x2 : Statement (.vperm x0 x1 x2) := word_ok (bit0_fmtV _ _ _ _ _) ((primary_35 (fOp_fmtV _ _ _ _ _)).trans (by
  simp (disch := decide) only [decodeVPermute, fF3v_fmtV, fVb_fmtV, fVa_fmtV, fVd_fmtV]))
theorem vrev x0 x1 : Statement (.vrev x0 x1) := word_ok (bit0_fmtV _ _ _ _ _) ((primary_35 (fOp_fmtV _ _ _ _ _)).trans (by
  simp (disch := decide) only [decodeVPermute, fF3v_fmtV, fVb_fmtV, fVa_fmtV, fVd_fmtV]
  all_goals rfl))
theorem vredadd x0 x1 : Statement (.vredadd x0 x1) := word_ok (bit0_fmtV _ _ _ _ _) ((primary_37 (fOp_fmtV _ _ _ _ _)).trans (by
  simp (disch := decide) only [decodeVReduce, fF3v_fmtV, fVb_fmtV, fVa_fmtV, fVd_fmtV]
  all_goals rfl))
theorem vredmin x0 x1 : Statement (.vredmin x0 x1) := word_ok (bit0_fmtV _ _ _ _ _) ((primary_37 (fOp_fmtV _ _ _ _ _)).trans (by
  simp (disch := decide) only [decodeVReduce, fF3v_fmtV, fVb_fmtV, fVa_fmtV, fVd_fmtV]
  all_goals rfl))
theorem vredmax x0 x1 : Statement (.vredmax x0 x1) := word_ok (bit0_fmtV _ _ _ _ _) ((primary_37 (fOp_fmtV _ _ _ _ _)).trans (by
  simp (disch := decide) only [decodeVReduce, fF3v_fmtV, fVb_fmtV, fVa_fmtV, fVd_fmtV]
  all_goals rfl))
theorem vredminu x0 x1 : Statement (.vredminu x0 x1) := word_ok (bit0_fmtV _ _ _ _ _) ((primary_37 (fOp_fmtV _ _ _ _ _)).trans (by
  simp (disch := decide) only [decodeVReduce, fF3v_fmtV, fVb_fmtV, fVa_fmtV, fVd_fmtV]
  all_goals rfl))
theorem vredmaxu x0 x1 : Statement (.vredmaxu x0 x1) := word_ok (bit0_fmtV _ _ _ _ _) ((primary_37 (fOp_fmtV _ _ _ _ _)).trans (by
  simp (disch := decide) only [decodeVReduce, fF3v_fmtV, fVb_fmtV, fVa_fmtV, fVd_fmtV]
  all_goals rfl))
theorem vfredadd x0 x1 : Statement (.vfredadd x0 x1) := word_ok (bit0_fmtV _ _ _ _ _) ((primary_37 (fOp_fmtV _ _ _ _ _)).trans (by
  simp (disch := decide) only [decodeVReduce, fF3v_fmtV, fVb_fmtV, fVa_fmtV, fVd_fmtV]
  all_goals rfl))
theorem vfredmax x0 x1 : Statement (.vfredmax x0 x1) := word_ok (bit0_fmtV _ _ _ _ _) ((primary_37 (fOp_fmtV _ _ _ _ _)).trans (by
  simp (disch := decide) only [decodeVReduce, fF3v_fmtV, fVb_fmtV, fVa_fmtV, fVd_fmtV]
  all_goals rfl))
theorem vfadd x0 x1 x2 : Statement (.vfadd x0 x1 x2) := word_ok (bit0_fmtV _ _ _ _ _) ((primary_38 (fOp_fmtV _ _ _ _ _)).trans (by
  simp (disch := decide) only [decodeVFloat, fF3v_fmtV, fVb_fmtV, fVa_fmtV, fVd_fmtV]))
theorem vfsub x0 x1 x2 : Statement (.vfsub x0 x1 x2) := word_ok (bit0_fmtV _ _ _ _ _) ((primary_38 (fOp_fmtV _ _ _ _ _)).trans (by
  simp (disch := decide) only [decodeVFloat, fF3v_fmtV, fVb_fmtV, fVa_fmtV, fVd_fmtV]))
theorem vfmul x0 x1 x2 : Statement (.vfmul x0 x1 x2) := word_ok (bit0_fmtV _ _ _ _ _) ((primary_38 (fOp_fmtV _ _ _ _ _)).trans (by
  simp (disch := decide) only [decodeVFloat, fF3v_fmtV, fVb_fmtV, fVa_fmtV, fVd_fmtV]))
theorem vfma x0 x1 x2 : Statement (.vfma x0 x1 x2) := word_ok (bit0_fmtV _ _ _ _ _) ((primary_38 (fOp_fmtV _ _ _ _ _)).trans (by
  simp (disch := decide) only [decodeVFloat, fF3v_fmtV, fVb_fmtV, fVa_fmtV, fVd_fmtV]))
theorem vfms x0 x1 x2 : Statement (.vfms x0 x1 x2) := word_ok (bit0_fmtV _ _ _ _ _) ((primary_38 (fOp_fmtV _ _ _ _ _)).trans (by
  simp (disch := decide) only [decodeVFloat, fF3v_fmtV, fVb_fmtV, fVa_fmtV, fVd_fmtV]))
theorem vfmin x0 x1 x2 : Statement (.vfmin x0 x1 x2) := word_ok (bit0_fmtV _ _ _ _ _) ((primary_38 (fOp_fmtV _ _ _ _ _)).trans (by
  simp (disch := decide) only [decodeVFloat, fF3v_fmtV, fVb_fmtV, fVa_fmtV, fVd_fmtV]))
theorem vfmax x0 x1 x2 : Statement (.vfmax x0 x1 x2) := word_ok (bit0_fmtV _ _ _ _ _) ((primary_38 (fOp_fmtV _ _ _ _ _)).trans (by
  simp (disch := decide) only [decodeVFloat, fF3v_fmtV, fVb_fmtV, fVa_fmtV, fVd_fmtV]))
theorem vfdiv x0 x1 x2 : Statement (.vfdiv x0 x1 x2) := word_ok (bit0_fmtV _ _ _ _ _) ((primary_38 (fOp_fmtV _ _ _ _ _)).trans (by
  simp (disch := decide) only [decodeVFloat, fF3v_fmtV, fVb_fmtV, fVa_fmtV, fVd_fmtV]))
theorem vfsqrt x0 x1 : Statement (.vfsqrt x0 x1) := word_ok (bit0_fmtV _ _ _ _ _) ((primary_39 (fOp_fmtV _ _ _ _ _)).trans (by
  simp (disch := decide) only [decodeVFloatOne, fF3v_fmtV, fVb_fmtV, fVa_fmtV, fVd_fmtV]
  all_goals rfl))
theorem vfrcp x0 x1 : Statement (.vfrcp x0 x1) := word_ok (bit0_fmtV _ _ _ _ _) ((primary_39 (fOp_fmtV _ _ _ _ _)).trans (by
  simp (disch := decide) only [decodeVFloatOne, fF3v_fmtV, fVb_fmtV, fVa_fmtV, fVd_fmtV]
  all_goals rfl))
theorem vfrsq x0 x1 : Statement (.vfrsq x0 x1) := word_ok (bit0_fmtV _ _ _ _ _) ((primary_39 (fOp_fmtV _ _ _ _ _)).trans (by
  simp (disch := decide) only [decodeVFloatOne, fF3v_fmtV, fVb_fmtV, fVa_fmtV, fVd_fmtV]
  all_goals rfl))
theorem vfexp2 x0 x1 : Statement (.vfexp2 x0 x1) := word_ok (bit0_fmtV _ _ _ _ _) ((primary_39 (fOp_fmtV _ _ _ _ _)).trans (by
  simp (disch := decide) only [decodeVFloatOne, fF3v_fmtV, fVb_fmtV, fVa_fmtV, fVd_fmtV]
  all_goals rfl))
theorem vflog2 x0 x1 : Statement (.vflog2 x0 x1) := word_ok (bit0_fmtV _ _ _ _ _) ((primary_39 (fOp_fmtV _ _ _ _ _)).trans (by
  simp (disch := decide) only [decodeVFloatOne, fF3v_fmtV, fVb_fmtV, fVa_fmtV, fVd_fmtV]
  all_goals rfl))
theorem vfabs x0 x1 : Statement (.vfabs x0 x1) := word_ok (bit0_fmtV _ _ _ _ _) ((primary_39 (fOp_fmtV _ _ _ _ _)).trans (by
  simp (disch := decide) only [decodeVFloatOne, fF3v_fmtV, fVb_fmtV, fVa_fmtV, fVd_fmtV]
  all_goals rfl))
theorem vfneg x0 x1 : Statement (.vfneg x0 x1) := word_ok (bit0_fmtV _ _ _ _ _) ((primary_39 (fOp_fmtV _ _ _ _ _)).trans (by
  simp (disch := decide) only [decodeVFloatOne, fF3v_fmtV, fVb_fmtV, fVa_fmtV, fVd_fmtV]
  all_goals rfl))
theorem vfclass x0 x1 : Statement (.vfclass x0 x1) := word_ok (bit0_fmtV _ _ _ _ _) ((primary_39 (fOp_fmtV _ _ _ _ _)).trans (by
  simp (disch := decide) only [decodeVFloatOne, fF3v_fmtV, fVb_fmtV, fVa_fmtV, fVd_fmtV]
  all_goals rfl))
theorem vfceq x0 x1 x2 : Statement (.vfceq x0 x1 x2) := word_ok (bit0_fmtV _ _ _ _ _) ((primary_3a (fOp_fmtV _ _ _ _ _)).trans (by
  simp (disch := decide) only [decodeVFloatCompare, fF3v_fmtV, fVb_fmtV, fVa_fmtV, fVd_fmtV]))
theorem vfclt x0 x1 x2 : Statement (.vfclt x0 x1 x2) := word_ok (bit0_fmtV _ _ _ _ _) ((primary_3a (fOp_fmtV _ _ _ _ _)).trans (by
  simp (disch := decide) only [decodeVFloatCompare, fF3v_fmtV, fVb_fmtV, fVa_fmtV, fVd_fmtV]))
theorem vfcle x0 x1 x2 : Statement (.vfcle x0 x1 x2) := word_ok (bit0_fmtV _ _ _ _ _) ((primary_3a (fOp_fmtV _ _ _ _ _)).trans (by
  simp (disch := decide) only [decodeVFloatCompare, fF3v_fmtV, fVb_fmtV, fVa_fmtV, fVd_fmtV]))
theorem vfcun x0 x1 x2 : Statement (.vfcun x0 x1 x2) := word_ok (bit0_fmtV _ _ _ _ _) ((primary_3a (fOp_fmtV _ _ _ _ _)).trans (by
  simp (disch := decide) only [decodeVFloatCompare, fF3v_fmtV, fVb_fmtV, fVa_fmtV, fVd_fmtV]))
theorem vcvt x0 x1 : Statement (.vcvt x0 x1) := word_ok (bit0_fmtV _ _ _ _ _) ((primary_3b (fOp_fmtV _ _ _ _ _)).trans (by
  simp (disch := decide) only [decodeVConvert, fF3v_fmtV, fVb_fmtV, fVa_fmtV, fVd_fmtV]
  all_goals rfl))
theorem vpack x0 x1 x2 : Statement (.vpack x0 x1 x2) := word_ok (bit0_fmtV _ _ _ _ _) ((primary_3b (fOp_fmtV _ _ _ _ _)).trans (by
  simp (disch := decide) only [decodeVConvert, fF3v_fmtV, fVb_fmtV, fVa_fmtV, fVd_fmtV]))
theorem vunpkl x0 x1 : Statement (.vunpkl x0 x1) := word_ok (bit0_fmtV _ _ _ _ _) ((primary_3b (fOp_fmtV _ _ _ _ _)).trans (by
  simp (disch := decide) only [decodeVConvert, fF3v_fmtV, fVb_fmtV, fVa_fmtV, fVd_fmtV]
  all_goals rfl))
theorem vunpkh x0 x1 : Statement (.vunpkh x0 x1) := word_ok (bit0_fmtV _ _ _ _ _) ((primary_3b (fOp_fmtV _ _ _ _ _)).trans (by
  simp (disch := decide) only [decodeVConvert, fF3v_fmtV, fVb_fmtV, fVa_fmtV, fVd_fmtV]
  all_goals rfl))
theorem vqnt4 x0 x1 x2 : Statement (.vqnt4 x0 x1 x2) := word_ok (bit0_fmtV _ _ _ _ _) ((primary_3b (fOp_fmtV _ _ _ _ _)).trans (by
  simp (disch := decide) only [decodeVConvert, fF3v_fmtV, fVb_fmtV, fVa_fmtV, fVd_fmtV]))
theorem vdqnt4 x0 x1 : Statement (.vdqnt4 x0 x1) := word_ok (bit0_fmtV _ _ _ _ _) ((primary_3b (fOp_fmtV _ _ _ _ _)).trans (by
  simp (disch := decide) only [decodeVConvert, fF3v_fmtV, fVb_fmtV, fVa_fmtV, fVd_fmtV]
  all_goals rfl))
theorem vmadd x0 x1 x2 : Statement (.vmadd x0 x1 x2) := word_ok (bit0_fmtV _ _ _ _ _) ((primary_3c (fOp_fmtV _ _ _ _ _)).trans (by
  simp (disch := decide) only [decodeVModular, fF3v_fmtV, fVb_fmtV, fVa_fmtV, fVd_fmtV]))
theorem vmsub x0 x1 x2 : Statement (.vmsub x0 x1 x2) := word_ok (bit0_fmtV _ _ _ _ _) ((primary_3c (fOp_fmtV _ _ _ _ _)).trans (by
  simp (disch := decide) only [decodeVModular, fF3v_fmtV, fVb_fmtV, fVa_fmtV, fVd_fmtV]))
theorem vmmul x0 x1 x2 : Statement (.vmmul x0 x1 x2) := word_ok (bit0_fmtV _ _ _ _ _) ((primary_3c (fOp_fmtV _ _ _ _ _)).trans (by
  simp (disch := decide) only [decodeVModular, fF3v_fmtV, fVb_fmtV, fVa_fmtV, fVd_fmtV]))
theorem vmmac x0 x1 x2 : Statement (.vmmac x0 x1 x2) := word_ok (bit0_fmtV _ _ _ _ _) ((primary_3c (fOp_fmtV _ _ _ _ _)).trans (by
  simp (disch := decide) only [decodeVModular, fF3v_fmtV, fVb_fmtV, fVa_fmtV, fVd_fmtV]))
theorem vntbf x0 x1 x2 : Statement (.vntbf x0 x1 x2) := word_ok (bit0_fmtV _ _ _ _ _) ((primary_3c (fOp_fmtV _ _ _ _ _)).trans (by
  simp (disch := decide) only [decodeVModular, fF3v_fmtV, fVb_fmtV, fVa_fmtV, fVd_fmtV]))
theorem vintbf x0 x1 x2 : Statement (.vintbf x0 x1 x2) :=
  word_ok (bit0_fmtV _ _ _ _ _) ((primary_3c (fOp_fmtV _ _ _ _ _)).trans (by
  simp (disch := decide) only [decodeVModular, fF3v_fmtV, fVb_fmtV, fVa_fmtV, fVd_fmtV]))
theorem vmred x0 x1 : Statement (.vmred x0 x1) := word_ok (bit0_fmtV _ _ _ _ _) ((primary_3c (fOp_fmtV _ _ _ _ _)).trans (by
  simp (disch := decide) only [decodeVModular, fF3v_fmtV, fVb_fmtV, fVa_fmtV, fVd_fmtV]
  all_goals rfl))
theorem vmov x0 x1 : Statement (.vmov x0 x1) := word_ok (bit0_fmtVS _ _ _ _ _) ((primary_3d (fOp_fmtVS _ _ _ _ _)).trans (by
  simp (disch := decide) only [decodeVMove, fF5_fmtVS, fBv_fmtVS, fVa_fmtVS, fVd_fmtVS]
  all_goals rfl))
theorem vsplat x0 x1 : Statement (.vsplat x0 x1) := word_ok (bit0_fmtVS _ _ _ _ _) ((primary_3d (fOp_fmtVS _ _ _ _ _)).trans (by
  simp (disch := decide) only [decodeVMove, fF5_fmtVS, fBv_fmtVS, fVa_fmtVS, fVd_fmtVS]
  all_goals rfl))
theorem vqpop x0 x1 : Statement (.vqpop x0 x1) := word_ok (bit0_fmtVS _ _ _ _ _) ((primary_3d (fOp_fmtVS _ _ _ _ _)).trans (by
  simp (disch := decide) only [decodeVMove, fF5_fmtVS, fBv_fmtVS, fVa_fmtVS, fVd_fmtVS, BitVec.extractLsb'_append_eq_of_le,
    BitVec.extractLsb'_append_eq_of_add_le, BitVec.extractLsb'_eq_self, Nat.sub_self]
  all_goals rfl))
theorem sputv x0 : Statement (.sputv x0) := word_ok (bit0_fmtVS _ _ _ _ _) ((primary_3d (fOp_fmtVS _ _ _ _ _)).trans (by
  simp (disch := decide) only [decodeVMove, fF5_fmtVS, fBv_fmtVS, fVa_fmtVS, fVd_fmtVS]
  all_goals rfl))
theorem vext x0 x1 x2 : Statement (.vext x0 x1 x2) := word_ok (bit0_fmtVS _ _ _ _ _) ((primary_3d (fOp_fmtVS _ _ _ _ _)).trans (by
  simp (disch := decide) only [decodeVMove, fF5_fmtVS, fBv_fmtVS, fVa_fmtVS, fVd_fmtVS]))
theorem vins x0 x1 x2 : Statement (.vins x0 x1 x2) := word_ok (bit0_fmtVS _ _ _ _ _) ((primary_3d (fOp_fmtVS _ _ _ _ _)).trans (by
  simp (disch := decide) only [decodeVMove, fF5_fmtVS, fBv_fmtVS, fVa_fmtVS, fVd_fmtVS]))
theorem fmt x0 x1 x2 x3 x4 x5 x6 : Statement (.fmt x0 x1 x2 x3 x4 x5 x6) :=
  word_ok (bit0_fmtP _ _ _ _ _ _ _ _) ((primary_78 (fOp_fmtP _ _ _ _ _ _ _ _)).trans (by
  simp (disch := decide) only [fRsvP_fmtP, pSp_fmtP, pSc_fmtP, pSat_fmtP, pRnd_fmtP, pC_fmtP, pB_fmtP, pA_fmtP, ofBool_bit]
  all_goals rfl))
theorem mlease x0 : Statement (.mlease x0) := word_ok (bit0_fmtA _ _ _ _ _ _) ((primary_50 (fOp_fmtA _ _ _ _ _ _)).trans (by
  simp (disch := decide) only [decodeMLease, fF6_fmtA, fB_fmtA, fA_fmtA, fF3_fmtA, fD_fmtA]
  all_goals rfl))
theorem mrelease : Statement (.mrelease) := word_ok (bit0_fmtA _ _ _ _ _ _) ((primary_50 (fOp_fmtA _ _ _ _ _ _)).trans (by
  simp (disch := decide) only [decodeMLease, fF6_fmtA, fB_fmtA, fA_fmtA, fF3_fmtA, fD_fmtA]
  all_goals rfl))
theorem mtry x0 : Statement (.mtry x0) := word_ok (bit0_fmtA _ _ _ _ _ _) ((primary_50 (fOp_fmtA _ _ _ _ _ _)).trans (by
  simp (disch := decide) only [decodeMLease, fF6_fmtA, fB_fmtA, fA_fmtA, fF3_fmtA, fD_fmtA]
  all_goals rfl))
theorem leaseGrant x0 : Statement (.leaseGrant x0) := fun _ => rfl
theorem leaseTimeLimit x0 : Statement (.leaseTimeLimit x0) := fun _ => rfl
theorem leaseIdleEnd x0 : Statement (.leaseIdleEnd x0) := fun _ => rfl
theorem leaseOverrunStop x0 : Statement (.leaseOverrunStop x0) := fun _ => rfl
theorem mseta x0 x1 : Statement (.mseta x0 x1) := word_ok (bit0_fmtA _ _ _ _ _ _) ((primary_51 (fOp_fmtA _ _ _ _ _ _)).trans (by
  simp (disch := decide) only [decodeMSet, fF6_fmtA, fB_fmtA, fA_fmtA, fF3_fmtA, fD_fmtA]
  all_goals rfl))
theorem msetb x0 x1 : Statement (.msetb x0 x1) := word_ok (bit0_fmtA _ _ _ _ _ _) ((primary_51 (fOp_fmtA _ _ _ _ _ _)).trans (by
  simp (disch := decide) only [decodeMSet, fF6_fmtA, fB_fmtA, fA_fmtA, fF3_fmtA, fD_fmtA]
  all_goals rfl))
theorem msetc x0 x1 : Statement (.msetc x0 x1) := word_ok (bit0_fmtA _ _ _ _ _ _) ((primary_51 (fOp_fmtA _ _ _ _ _ _)).trans (by
  simp (disch := decide) only [decodeMSet, fF6_fmtA, fB_fmtA, fA_fmtA, fF3_fmtA, fD_fmtA]
  all_goals rfl))
theorem mscla x0 x1 : Statement (.mscla x0 x1) := word_ok (bit0_fmtA _ _ _ _ _ _) ((primary_51 (fOp_fmtA _ _ _ _ _ _)).trans (by
  simp (disch := decide) only [decodeMSet, fF6_fmtA, fB_fmtA, fA_fmtA, fF3_fmtA, fD_fmtA]
  all_goals rfl))
theorem msclb x0 x1 : Statement (.msclb x0 x1) := word_ok (bit0_fmtA _ _ _ _ _ _) ((primary_51 (fOp_fmtA _ _ _ _ _ _)).trans (by
  simp (disch := decide) only [decodeMSet, fF6_fmtA, fB_fmtA, fA_fmtA, fF3_fmtA, fD_fmtA]
  all_goals rfl))
theorem msetm x0 x1 : Statement (.msetm x0 x1) := word_ok (bit0_fmtA _ _ _ _ _ _) ((primary_51 (fOp_fmtA _ _ _ _ _ _)).trans (by
  simp (disch := decide) only [decodeMSet, fF6_fmtA, fB_fmtA, fA_fmtA, fF3_fmtA, fD_fmtA]
  all_goals rfl))
theorem mshape x0 x1 : Statement (.mshape x0 x1) := word_ok (bit0_fmtA _ _ _ _ _ _) ((primary_51 (fOp_fmtA _ _ _ _ _ _)).trans (by
  simp (disch := decide) only [decodeMSet, fF6_fmtA, fB_fmtA, fA_fmtA, fF3_fmtA, fD_fmtA]
  all_goals rfl))
theorem msync x0 : Statement (.msync x0) := word_ok (bit0_fmtA _ _ _ _ _ _) ((primary_51 (fOp_fmtA _ _ _ _ _ _)).trans (by
  simp (disch := decide) only [decodeMSet, fF6_fmtA, fB_fmtA, fA_fmtA, fF3_fmtA, fD_fmtA]
  all_goals rfl))
theorem mma x0 x1 : Statement (.mma x0 x1) := word_ok (bit0_fmtA _ _ _ _ _ _) ((primary_52 (fOp_fmtA _ _ _ _ _ _)).trans (by
  simp (disch := decide) only [decodeMCommand, fF6_fmtA, fB_fmtA, fA_fmtA, fF3_fmtA, fD_fmtA,
    BitVec.extractLsb'_append_eq_of_le, BitVec.extractLsb'_append_eq_of_add_le, BitVec.extractLsb'_eq_self, Nat.sub_self]
  all_goals rfl))
theorem mmaz x0 x1 : Statement (.mmaz x0 x1) := word_ok (bit0_fmtA _ _ _ _ _ _) ((primary_52 (fOp_fmtA _ _ _ _ _ _)).trans (by
  simp (disch := decide) only [decodeMCommand, fF6_fmtA, fB_fmtA, fA_fmtA, fF3_fmtA, fD_fmtA,
    BitVec.extractLsb'_append_eq_of_le, BitVec.extractLsb'_append_eq_of_add_le, BitVec.extractLsb'_eq_self, Nat.sub_self]
  all_goals rfl))
theorem mmas x0 x1 : Statement (.mmas x0 x1) := word_ok (bit0_fmtA _ _ _ _ _ _) ((primary_52 (fOp_fmtA _ _ _ _ _ _)).trans (by
  simp (disch := decide) only [decodeMCommand, fF6_fmtA, fB_fmtA, fA_fmtA, fF3_fmtA, fD_fmtA,
    BitVec.extractLsb'_append_eq_of_le, BitVec.extractLsb'_append_eq_of_add_le, BitVec.extractLsb'_eq_self, Nat.sub_self]
  all_goals rfl))
theorem mmod x0 x1 : Statement (.mmod x0 x1) := word_ok (bit0_fmtA _ _ _ _ _ _) ((primary_52 (fOp_fmtA _ _ _ _ _ _)).trans (by
  simp (disch := decide) only [decodeMCommand, fF6_fmtA, fB_fmtA, fA_fmtA, fF3_fmtA, fD_fmtA,
    BitVec.extractLsb'_append_eq_of_le, BitVec.extractLsb'_append_eq_of_add_le, BitVec.extractLsb'_eq_self, Nat.sub_self]
  all_goals rfl))
theorem mntt x0 x1 : Statement (.mntt x0 x1) := word_ok (bit0_fmtA _ _ _ _ _ _) ((primary_52 (fOp_fmtA _ _ _ _ _ _)).trans (by
  simp (disch := decide) only [decodeMCommand, fF6_fmtA, fB_fmtA, fA_fmtA, fF3_fmtA, fD_fmtA,
    BitVec.extractLsb'_append_eq_of_le, BitVec.extractLsb'_append_eq_of_add_le, BitVec.extractLsb'_eq_self, Nat.sub_self]
  all_goals rfl))
theorem mintt x0 x1 : Statement (.mintt x0 x1) := word_ok (bit0_fmtA _ _ _ _ _ _) ((primary_52 (fOp_fmtA _ _ _ _ _ _)).trans (by
  simp (disch := decide) only [decodeMCommand, fF6_fmtA, fB_fmtA, fA_fmtA, fF3_fmtA, fD_fmtA,
    BitVec.extractLsb'_append_eq_of_le, BitVec.extractLsb'_append_eq_of_add_le, BitVec.extractLsb'_eq_self, Nat.sub_self]
  all_goals rfl))
theorem mtwid x0 x1 : Statement (.mtwid x0 x1) := word_ok (bit0_fmtA _ _ _ _ _ _) ((primary_52 (fOp_fmtA _ _ _ _ _ _)).trans (by
  simp (disch := decide) only [decodeMCommand, fF6_fmtA, fB_fmtA, fA_fmtA, fF3_fmtA, fD_fmtA,
    BitVec.extractLsb'_append_eq_of_le, BitVec.extractLsb'_append_eq_of_add_le, BitVec.extractLsb'_eq_self, Nat.sub_self]
  all_goals rfl))
theorem matrixCommandStart x0 x1 x2 : Statement (.matrixCommandStart x0 x1 x2) := fun _ => rfl
theorem matrixCommandComplete x0 x1 x2 : Statement (.matrixCommandComplete x0 x1 x2) := fun _ => rfl
theorem matrixSuspend x0 x1 x2 x3 : Statement (.matrixSuspend x0 x1 x2 x3) := fun _ => rfl
theorem mdrain x0 x1 x2 : Statement (.mdrain x0 x1 x2) :=
  word_ok (bit0_fmtA _ _ _ _ _ _) ((primary_53 (fOp_fmtA _ _ _ _ _ _)).trans (by
  simp (disch := decide) only [decodeMTile, fF6_fmtA, fB_fmtA, fA_fmtA, fF3_fmtA, fD_fmtA, BitVec.extractLsb'_append_eq_of_le,
    BitVec.extractLsb'_append_eq_of_add_le, BitVec.extractLsb'_eq_self, Nat.sub_self]
  all_goals rfl))
theorem mdrainq x0 x1 x2 : Statement (.mdrainq x0 x1 x2) :=
  word_ok (bit0_fmtA _ _ _ _ _ _) ((primary_53 (fOp_fmtA _ _ _ _ _ _)).trans (by
  simp (disch := decide) only [decodeMTile, fF6_fmtA, fB_fmtA, fA_fmtA, fF3_fmtA, fD_fmtA, BitVec.extractLsb'_append_eq_of_le,
    BitVec.extractLsb'_append_eq_of_add_le, BitVec.extractLsb'_eq_self, Nat.sub_self]
  all_goals rfl))
theorem mzero x0 : Statement (.mzero x0) := word_ok (bit0_fmtA _ _ _ _ _ _) ((primary_53 (fOp_fmtA _ _ _ _ _ _)).trans (by
  simp (disch := decide) only [decodeMTile, fF6_fmtA, fB_fmtA, fA_fmtA, fF3_fmtA, fD_fmtA, BitVec.extractLsb'_append_eq_of_le,
    BitVec.extractLsb'_append_eq_of_add_le, BitVec.extractLsb'_eq_self, Nat.sub_self]
  all_goals rfl))
theorem mresume x0 x1 : Statement (.mresume x0 x1) :=
  word_ok (bit0_fmtA _ _ _ _ _ _) ((primary_53 (fOp_fmtA _ _ _ _ _ _)).trans (by
  simp (disch := decide) only [decodeMTile, fF6_fmtA, fB_fmtA, fA_fmtA, fF3_fmtA, fD_fmtA, BitVec.extractLsb'_append_eq_of_le,
    BitVec.extractLsb'_append_eq_of_add_le, BitVec.extractLsb'_eq_self, Nat.sub_self]
  all_goals rfl))
theorem mstat x0 x1 x2 : Statement (.mstat x0 x1 x2) :=
  word_ok (bit0_fmtA _ _ _ _ _ _) ((primary_53 (fOp_fmtA _ _ _ _ _ _)).trans (by
  simp (disch := decide) only [decodeMTile, fF6_fmtA, fB_fmtA, fA_fmtA, fF3_fmtA, fD_fmtA, BitVec.extractLsb'_append_eq_of_le,
    BitVec.extractLsb'_append_eq_of_add_le, BitVec.extractLsb'_eq_self, Nat.sub_self]
  all_goals rfl))
theorem mabort x0 x1 : Statement (.mabort x0 x1) := word_ok (bit0_fmtA _ _ _ _ _ _) ((primary_53 (fOp_fmtA _ _ _ _ _ _)).trans (by
  simp (disch := decide) only [decodeMTile, fF6_fmtA, fB_fmtA, fA_fmtA, fF3_fmtA, fD_fmtA, BitVec.extractLsb'_append_eq_of_le,
    BitVec.extractLsb'_append_eq_of_add_le, BitVec.extractLsb'_eq_self, Nat.sub_self]
  all_goals rfl))
theorem drainComplete x0 x1 x2 : Statement (.drainComplete x0 x1 x2) := fun _ => rfl
theorem drainqComplete x0 x1 x2 : Statement (.drainqComplete x0 x1 x2) := fun _ => rfl
theorem drainFault x0 x1 x2 : Statement (.drainFault x0 x1 x2) := fun _ => rfl
theorem gbadd x0 x1 x2 x3 : Statement (.gbadd x0 x1 x2 x3) :=
  word_ok (bit0_fmtV _ _ _ _ _) ((primary_60 (fOp_fmtV _ _ _ _ _)).trans (by
  simp (disch := decide) only [decodeGbAdd, fF3v_fmtV, fVb_fmtV, fVa_fmtV, fVd_fmtV, BitVec.extractLsb'_append_eq_of_le,
    BitVec.extractLsb'_append_eq_of_add_le, BitVec.extractLsb'_eq_self, Nat.sub_self]))
theorem gbsub x0 x1 x2 x3 : Statement (.gbsub x0 x1 x2 x3) :=
  word_ok (bit0_fmtV _ _ _ _ _) ((primary_60 (fOp_fmtV _ _ _ _ _)).trans (by
  simp (disch := decide) only [decodeGbAdd, fF3v_fmtV, fVb_fmtV, fVa_fmtV, fVd_fmtV, BitVec.extractLsb'_append_eq_of_le,
    BitVec.extractLsb'_append_eq_of_add_le, BitVec.extractLsb'_eq_self, Nat.sub_self]))
theorem gbschur x0 x1 x2 x3 x4 : Statement (.gbschur x0 x1 x2 x3 x4) :=
  word_ok (bit0_fmtV _ _ _ _ _) ((primary_61 (fOp_fmtV _ _ _ _ _)).trans (by
  simp (disch := decide) only [flag_top, fF3v_fmtV, fVb_fmtV, fVa_fmtV, fVd_fmtV, BitVec.extractLsb'_append_eq_of_le,
    BitVec.extractLsb'_append_eq_of_add_le, BitVec.extractLsb'_eq_self, Nat.sub_self]
  all_goals rfl))
theorem gbsolve x0 x1 x2 : Statement (.gbsolve x0 x1 x2) :=
  word_ok (bit0_fmtV _ _ _ _ _) ((primary_62 (fOp_fmtV _ _ _ _ _)).trans (by
  simp (disch := decide) only [decodeGbSolve, fF3v_fmtV, fVb_fmtV, fVa_fmtV, fVd_fmtV, BitVec.extractLsb'_append_eq_of_le,
    BitVec.extractLsb'_append_eq_of_add_le, BitVec.extractLsb'_eq_self, Nat.sub_self]
  all_goals rfl))
theorem gbsolveVar x0 x1 x2 : Statement (.gbsolveVar x0 x1 x2) :=
  word_ok (bit0_fmtV _ _ _ _ _) ((primary_62 (fOp_fmtV _ _ _ _ _)).trans (by
  simp (disch := decide) only [decodeGbSolve, fF3v_fmtV, fVb_fmtV, fVa_fmtV, fVd_fmtV, BitVec.extractLsb'_append_eq_of_le,
    BitVec.extractLsb'_append_eq_of_add_le, BitVec.extractLsb'_eq_self, Nat.sub_self]
  all_goals rfl))
theorem gbdamp x0 x1 x2 : Statement (.gbdamp x0 x1 x2) :=
  word_ok (bit0_fmtV _ _ _ _ _) ((primary_63 (fOp_fmtV _ _ _ _ _)).trans (by
  simp (disch := decide) only [fF3v_fmtV, fVb_fmtV, fVa_fmtV, fVd_fmtV, BitVec.extractLsb'_append_eq_of_le,
    BitVec.extractLsb'_append_eq_of_add_le, BitVec.extractLsb'_eq_self, Nat.sub_self]
  all_goals rfl))
theorem gbsend x0 x1 x2 : Statement (.gbsend x0 x1 x2) :=
  word_ok (bit0_fmtVS _ _ _ _ _) ((primary_64 (fOp_fmtVS _ _ _ _ _)).trans (by
  simp (disch := decide) only [fF5_fmtVS, fBv_fmtVS, fVa_fmtVS, fVd_fmtVS, BitVec.extractLsb'_append_eq_of_le,
    BitVec.extractLsb'_append_eq_of_add_le, BitVec.extractLsb'_eq_self, Nat.sub_self]
  all_goals rfl))
theorem gbpoll x0 : Statement (.gbpoll x0) := word_ok (bit0_fmtA _ _ _ _ _ _) ((primary_65 (fOp_fmtA _ _ _ _ _ _)).trans (by
  simp (disch := decide) only [decodeGbPoll, fF6_fmtA, fB_fmtA, fA_fmtA, fF3_fmtA, fD_fmtA]
  all_goals rfl))
theorem gbpolln x0 : Statement (.gbpolln x0) := word_ok (bit0_fmtA _ _ _ _ _ _) ((primary_65 (fOp_fmtA _ _ _ _ _ _)).trans (by
  simp (disch := decide) only [decodeGbPoll, fF6_fmtA, fB_fmtA, fA_fmtA, fF3_fmtA, fD_fmtA]
  all_goals rfl))
theorem gbres x0 x1 x2 : Statement (.gbres x0 x1 x2) :=
  word_ok (bit0_fmtA _ _ _ _ _ _) ((primary_65 (fOp_fmtA _ _ _ _ _ _)).trans (by
  simp (disch := decide) only [decodeGbPoll, fF6_fmtA, fB_fmtA, fA_fmtA, fF3_fmtA, fD_fmtA]
  all_goals rfl))
theorem gbclr x0 x1 x2 : Statement (.gbclr x0 x1 x2) :=
  word_ok (bit0_fmtA _ _ _ _ _ _) ((primary_65 (fOp_fmtA _ _ _ _ _ _)).trans (by
  simp (disch := decide) only [decodeGbPoll, fF6_fmtA, fB_fmtA, fA_fmtA, fF3_fmtA, fD_fmtA]
  all_goals rfl))
theorem mailboxConfigure x0 x1 : Statement (.mailboxConfigure x0 x1) := fun _ => rfl
theorem gbld x0 x1 x2 x3 : Statement (.gbld x0 x1 x2 x3) :=
  word_ok (bit0_fmtVM _ _ _ _ _) ((primary_66 (fOp_fmtVM _ _ _ _ _)).trans (by
  simp (disch := decide) only [imm11_fmtVM, fA_fmtVM, nt_fmtVM, fVd_fmtVM, ofBool_bit]))
theorem mailboxDelivery x0 x1 : Statement (.mailboxDelivery x0 x1) := fun _ => rfl
theorem htag x0 x1 x2 : Statement (.htag x0 x1 x2) :=
  word_ok (bit0_fmtA _ _ _ _ _ _) ((primary_68 (fOp_fmtA _ _ _ _ _ _)).trans (by
  simp (disch := decide) only [decodeHDir, fF6_fmtA, fB_fmtA, fA_fmtA, fF3_fmtA, fD_fmtA, BitVec.extractLsb'_append_eq_of_le,
    BitVec.extractLsb'_append_eq_of_add_le, BitVec.extractLsb'_eq_self, Nat.sub_self]
  all_goals rfl))
theorem htagrd x0 x1 : Statement (.htagrd x0 x1) := word_ok (bit0_fmtA _ _ _ _ _ _) ((primary_68 (fOp_fmtA _ _ _ _ _ _)).trans (by
  simp (disch := decide) only [decodeHDir, fF6_fmtA, fB_fmtA, fA_fmtA, fF3_fmtA, fD_fmtA]
  all_goals rfl))
theorem hdirrd x0 x1 : Statement (.hdirrd x0 x1) := word_ok (bit0_fmtA _ _ _ _ _ _) ((primary_68 (fOp_fmtA _ _ _ _ _ _)).trans (by
  simp (disch := decide) only [decodeHDir, fF6_fmtA, fB_fmtA, fA_fmtA, fF3_fmtA, fD_fmtA]
  all_goals rfl))
theorem hdirwr x0 x1 x2 x3 : Statement (.hdirwr x0 x1 x2 x3) :=
  word_ok (bit0_fmtA _ _ _ _ _ _) ((primary_68 (fOp_fmtA _ _ _ _ _ _)).trans (by
  cases x3 <;> simp (disch := decide) only [decodeHDir, fF6_fmtA, fB_fmtA, fA_fmtA, fF3_fmtA, fD_fmtA,
    BitVec.extractLsb'_append_eq_of_le, BitVec.extractLsb'_eq_self, Nat.sub_self]
  all_goals rfl))
theorem hbusy x0 x1 : Statement (.hbusy x0 x1) := word_ok (bit0_fmtA _ _ _ _ _ _) ((primary_68 (fOp_fmtA _ _ _ _ _ _)).trans (by
  simp (disch := decide) only [decodeHDir, fF6_fmtA, fB_fmtA, fA_fmtA, fF3_fmtA, fD_fmtA]
  all_goals rfl))
theorem hfree x0 : Statement (.hfree x0) := word_ok (bit0_fmtA _ _ _ _ _ _) ((primary_68 (fOp_fmtA _ _ _ _ _ _)).trans (by
  simp (disch := decide) only [decodeHDir, fF6_fmtA, fB_fmtA, fA_fmtA, fF3_fmtA, fD_fmtA]
  all_goals rfl))
theorem hsendReq x0 x1 x2 : Statement (.hsendReq x0 x1 x2) :=
  word_ok (bit0_fmtA _ _ _ _ _ _) ((primary_69 (fOp_fmtA _ _ _ _ _ _)).trans (by
  cases x2 <;> simp (disch := decide) only [decodeHSend, fF6_fmtA, fB_fmtA, fA_fmtA, fF3_fmtA, fD_fmtA,
    BitVec.extractLsb'_append_eq_of_le, BitVec.extractLsb'_eq_self, Nat.sub_self]
  all_goals rfl))
theorem hsendRep x0 x1 : Statement (.hsendRep x0 x1) :=
  word_ok (bit0_fmtA _ _ _ _ _ _) ((primary_69 (fOp_fmtA _ _ _ _ _ _)).trans (by
  simp (disch := decide) only [decodeHSend, fF6_fmtA, fB_fmtA, fA_fmtA, fF3_fmtA, fD_fmtA]
  all_goals rfl))
theorem hblk x0 x1 x2 : Statement (.hblk x0 x1 x2) :=
  word_ok (bit0_fmtA _ _ _ _ _ _) ((primary_69 (fOp_fmtA _ _ _ _ _ _)).trans (by
  simp (disch := decide) only [decodeHSend, fF6_fmtA, fB_fmtA, fA_fmtA, fF3_fmtA, fD_fmtA]
  all_goals rfl))
theorem hblkComplete x0 : Statement (.hblkComplete x0) := fun _ => rfl
theorem hresume x0 : Statement (.hresume x0) := word_ok (bit0_fmtA _ _ _ _ _ _) ((primary_69 (fOp_fmtA _ _ _ _ _ _)).trans (by
  simp (disch := decide) only [decodeHSend, fF6_fmtA, fB_fmtA, fA_fmtA, fF3_fmtA, fD_fmtA]
  all_goals rfl))
theorem hend : Statement (.hend) := word_ok (bit0_fmtA _ _ _ _ _ _) ((primary_6a (fOp_fmtA _ _ _ _ _ _)).trans (by
  simp (disch := decide) only [decodeHEnd, fF6_fmtA, fB_fmtA, fA_fmtA, fF3_fmtA, fD_fmtA]
  all_goals rfl))
theorem hdefer : Statement (.hdefer) := word_ok (bit0_fmtA _ _ _ _ _ _) ((primary_6a (fOp_fmtA _ _ _ _ _ _)).trans (by
  simp (disch := decide) only [decodeHEnd, fF6_fmtA, fB_fmtA, fA_fmtA, fF3_fmtA, fD_fmtA]
  all_goals rfl))
theorem hfault x0 : Statement (.hfault x0) := word_ok (bit0_fmtA _ _ _ _ _ _) ((primary_6a (fOp_fmtA _ _ _ _ _ _)).trans (by
  simp (disch := decide) only [decodeHEnd, fF6_fmtA, fB_fmtA, fA_fmtA, fF3_fmtA, fD_fmtA]
  all_goals rfl))
theorem handlerWatchdog x0 x1 : Statement (.handlerWatchdog x0 x1) := fun _ => rfl
theorem requestDeferred x0 : Statement (.requestDeferred x0) := fun _ => rfl
theorem handlerRd x0 x1 : Statement (.handlerRd x0 x1) := fun _ => rfl
theorem handlerWr x0 x1 : Statement (.handlerWr x0 x1) := fun _ => rfl
theorem handlerAmo x0 x1 : Statement (.handlerAmo x0 x1) := fun _ => rfl
theorem handlerWb x0 x1 : Statement (.handlerWb x0 x1) := fun _ => rfl
theorem handlerEvs x0 x1 : Statement (.handlerEvs x0 x1) := fun _ => rfl
theorem handlerHint x0 x1 : Statement (.handlerHint x0 x1) := fun _ => rfl
theorem handlerDone x0 x1 : Statement (.handlerDone x0 x1) := fun _ => rfl
theorem handlerRecall x0 x1 : Statement (.handlerRecall x0 x1) := fun _ => rfl
theorem handlerProxyTag x0 x1 : Statement (.handlerProxyTag x0 x1) := fun _ => rfl
theorem handlerGrant x0 x1 : Statement (.handlerGrant x0 x1) := fun _ => rfl
theorem handlerBlkdone x0 x1 : Statement (.handlerBlkdone x0 x1) := fun _ => rfl
theorem handlerProtocolMsg x0 x1 : Statement (.handlerProtocolMsg x0 x1) := fun _ => rfl
theorem tagChange x0 : Statement (.tagChange x0) := fun _ => rfl
theorem tagAck x0 : Statement (.tagAck x0) := fun _ => rfl
theorem grantReceive x0 : Statement (.grantReceive x0) := fun _ => rfl
theorem releaseNotice x0 : Statement (.releaseNotice x0) := fun _ => rfl
theorem resumeReceive x0 : Statement (.resumeReceive x0) := fun _ => rfl
theorem accessRefused x0 : Statement (.accessRefused x0) := fun _ => rfl
theorem peerAckSubstitute x0 : Statement (.peerAckSubstitute x0) := fun _ => rfl
theorem loadFill x0 x1 : Statement (.loadFill x0 x1) := fun _ => rfl
theorem storePerform x0 x1 : Statement (.storePerform x0 x1) := fun _ => rfl
theorem mergeWindowClose x0 : Statement (.mergeWindowClose x0) := fun _ => rfl
theorem pageWalk x0 : Statement (.pageWalk x0) := fun _ => rfl
theorem remoteOutcome x0 x1 x2 : Statement (.remoteOutcome x0 x1 x2) := fun _ => rfl
theorem remoteTimeOut x0 x1 : Statement (.remoteTimeOut x0 x1) := fun _ => rfl
theorem trap x0 : Statement (.trap x0) := word_ok (bit0_fmtL _ _ _ _ _) ((primary_70 (fOp_fmtL _ _ _ _ _)).trans (by
  simp (disch := decide) only [decodeTrap, imm11_fmtL, fA_fmtL, fF3_fmtL, fD_fmtL]
  all_goals rfl))
theorem sysc x0 : Statement (.sysc x0) := word_ok (bit0_fmtL _ _ _ _ _) ((primary_70 (fOp_fmtL _ _ _ _ _)).trans (by
  simp (disch := decide) only [decodeTrap, imm11_fmtL, fA_fmtL, fF3_fmtL, fD_fmtL]
  all_goals rfl))
theorem tret : Statement (.tret) := word_ok (bit0_fmtL _ _ _ _ _) ((primary_70 (fOp_fmtL _ _ _ _ _)).trans (by
  simp (disch := decide) only [decodeTrap, imm11_fmtL, fA_fmtL, fF3_fmtL, fD_fmtL]
  all_goals rfl))
theorem wfe : Statement (.wfe) := word_ok (bit0_fmtL _ _ _ _ _) ((primary_70 (fOp_fmtL _ _ _ _ _)).trans (by
  simp (disch := decide) only [decodeTrap, imm11_fmtL, fA_fmtL, fF3_fmtL, fD_fmtL]
  all_goals rfl))
theorem brk x0 : Statement (.brk x0) := word_ok (bit0_fmtL _ _ _ _ _) ((primary_70 (fOp_fmtL _ _ _ _ _)).trans (by
  simp (disch := decide) only [decodeTrap, imm11_fmtL, fA_fmtL, fF3_fmtL, fD_fmtL]
  all_goals rfl))
theorem eventInterrupt x0 : Statement (.eventInterrupt x0) := fun _ => rfl
theorem tlbinv x0 : Statement (.tlbinv x0) := word_ok (bit0_fmtA _ _ _ _ _ _) ((primary_71 (fOp_fmtA _ _ _ _ _ _)).trans (by
  simp (disch := decide) only [decodeTlb, fF6_fmtA, fB_fmtA, fA_fmtA, fF3_fmtA, fD_fmtA]
  all_goals rfl))
theorem tlbinva : Statement (.tlbinva) := word_ok (bit0_fmtA _ _ _ _ _ _) ((primary_71 (fOp_fmtA _ _ _ _ _ _)).trans (by
  simp (disch := decide) only [decodeTlb, fF6_fmtA, fB_fmtA, fA_fmtA, fF3_fmtA, fD_fmtA]
  all_goals rfl))
theorem rgnwr x0 x1 x2 : Statement (.rgnwr x0 x1 x2) :=
  word_ok (bit0_fmtA _ _ _ _ _ _) ((primary_71 (fOp_fmtA _ _ _ _ _ _)).trans (by
  simp (disch := decide) only [decodeTlb, fF6_fmtA, fB_fmtA, fA_fmtA, fF3_fmtA, fD_fmtA]
  all_goals rfl))
theorem ctxsave x0 x1 x2 : Statement (.ctxsave x0 x1 x2) :=
  word_ok (bit0_fmtA _ _ _ _ _ _) ((primary_72 (fOp_fmtA _ _ _ _ _ _)).trans (by
  simp (disch := decide) only [decodeCtx, fF6_fmtA, fB_fmtA, fA_fmtA, fF3_fmtA, fD_fmtA]
  all_goals rfl))
theorem ctxload x0 x1 x2 : Statement (.ctxload x0 x1 x2) :=
  word_ok (bit0_fmtA _ _ _ _ _ _) ((primary_72 (fOp_fmtA _ _ _ _ _ _)).trans (by
  simp (disch := decide) only [decodeCtx, fF6_fmtA, fB_fmtA, fA_fmtA, fF3_fmtA, fD_fmtA]
  all_goals rfl))
theorem ctxstat x0 x1 : Statement (.ctxstat x0 x1) :=
  word_ok (bit0_fmtA _ _ _ _ _ _) ((primary_72 (fOp_fmtA _ _ _ _ _ _)).trans (by
  simp (disch := decide) only [decodeCtx, fF6_fmtA, fB_fmtA, fA_fmtA, fF3_fmtA, fD_fmtA]
  all_goals rfl))
theorem gswitch x0 x1 x2 : Statement (.gswitch x0 x1 x2) :=
  word_ok (bit0_fmtA _ _ _ _ _ _) ((primary_72 (fOp_fmtA _ _ _ _ _ _)).trans (by
  simp (disch := decide) only [decodeCtx, fF6_fmtA, fB_fmtA, fA_fmtA, fF3_fmtA, fD_fmtA]
  all_goals rfl))
theorem gangSwitchAgreement x0 : Statement (.gangSwitchAgreement x0) := fun _ => rfl
theorem gangSwitchStop x0 : Statement (.gangSwitchStop x0) := fun _ => rfl
theorem contextImageWrite x0 : Statement (.contextImageWrite x0) := fun _ => rfl
theorem contextRestore x0 : Statement (.contextRestore x0) := fun _ => rfl
theorem guestOpPause x0 : Statement (.guestOpPause x0) := fun _ => rfl
theorem guestOpContinue x0 : Statement (.guestOpContinue x0) := fun _ => rfl
theorem fatalStop x0 x1 : Statement (.fatalStop x0 x1) := fun _ => rfl
theorem haltTreeStop x0 : Statement (.haltTreeStop x0) := fun _ => rfl
theorem launch x0 x1 : Statement (.launch x0 x1) := word_ok (bit0_fmtA _ _ _ _ _ _) ((primary_73 (fOp_fmtA _ _ _ _ _ _)).trans (by
  simp (disch := decide) only [decodeLaunch, fF6_fmtA, fB_fmtA, fA_fmtA, fF3_fmtA, fD_fmtA]
  all_goals rfl))
theorem lcancel x0 x1 : Statement (.lcancel x0 x1) :=
  word_ok (bit0_fmtA _ _ _ _ _ _) ((primary_73 (fOp_fmtA _ _ _ _ _ _)).trans (by
  simp (disch := decide) only [decodeLaunch, fF6_fmtA, fB_fmtA, fA_fmtA, fF3_fmtA, fD_fmtA]
  all_goals rfl))
theorem distributorRound : Statement (.distributorRound) := fun _ => rfl
theorem launchLoad x0 : Statement (.launchLoad x0) := fun _ => rfl
theorem launchEnd x0 : Statement (.launchEnd x0) := fun _ => rfl
theorem powerDecision : Statement (.powerDecision) := fun _ => rfl
theorem clockBoundary : Statement (.clockBoundary) := fun _ => rfl
theorem dramRefresh x0 x1 : Statement (.dramRefresh x0 x1) := fun _ => rfl
theorem stackTempSample x0 x1 x2 : Statement (.stackTempSample x0 x1 x2) := fun _ => rfl
theorem packageReset x0 : Statement (.packageReset x0) := fun _ => rfl
theorem recoveryDoorbell x0 : Statement (.recoveryDoorbell x0) := fun _ => rfl
theorem raiseSecurityVersion : Statement (.raiseSecurityVersion) := fun _ => rfl
theorem queueEnable x0 x1 : Statement (.queueEnable x0 x1) := fun _ => rfl
theorem queueDisable x0 x1 : Statement (.queueDisable x0 x1) := fun _ => rfl
theorem queueReset x0 x1 : Statement (.queueReset x0 x1) := fun _ => rfl
theorem queueDescriptorWrite x0 x1 x2 x3 : Statement (.queueDescriptorWrite x0 x1 x2 x3) := fun _ => rfl
theorem doorbellWrite x0 x1 x2 : Statement (.doorbellWrite x0 x1 x2) := fun _ => rfl
theorem queuePacketStart : Statement (.queuePacketStart) := fun _ => rfl
theorem packetStepLimit x0 x1 : Statement (.packetStepLimit x0 x1) := fun _ => rfl
theorem qpLi x0 x1 : Statement (.qpLi x0 x1) := fun _ => by
  simp (disch := decide) only [encode, decodeQueueOp, qOp_fmtQ, qImm_fmtQ, qA_fmtQ, qD_fmtQ, qW_fmtQ]
  all_goals rfl
theorem qpLsh x0 x1 : Statement (.qpLsh x0 x1) := fun _ => by
  simp (disch := decide) only [encode, decodeQueueOp, qOp_fmtQ, qImm_fmtQ, qA_fmtQ, qD_fmtQ, qW_fmtQ]
  all_goals rfl
theorem qpAdd x0 x1 x2 : Statement (.qpAdd x0 x1 x2) := fun _ => by
  simp (disch := decide) only [encode, decodeQueueOp, qOp_fmtQ, qImm_fmtQ, qA_fmtQ, qD_fmtQ, qW_fmtQ,
    BitVec.extractLsb'_append_eq_of_le, BitVec.extractLsb'_append_eq_of_add_le, BitVec.extractLsb'_eq_self, Nat.sub_self]
  all_goals rfl
theorem qpAddi x0 x1 x2 : Statement (.qpAddi x0 x1 x2) := fun _ => by
  simp (disch := decide) only [encode, decodeQueueOp, qOp_fmtQ, qImm_fmtQ, qA_fmtQ, qD_fmtQ, qW_fmtQ]
  all_goals rfl
theorem qpAnd x0 x1 x2 : Statement (.qpAnd x0 x1 x2) := fun _ => by
  simp (disch := decide) only [encode, decodeQueueOp, qOp_fmtQ, qImm_fmtQ, qA_fmtQ, qD_fmtQ, qW_fmtQ,
    BitVec.extractLsb'_append_eq_of_le, BitVec.extractLsb'_append_eq_of_add_le, BitVec.extractLsb'_eq_self, Nat.sub_self]
  all_goals rfl
theorem qpShr x0 x1 x2 : Statement (.qpShr x0 x1 x2) := fun _ => by
  simp (disch := decide) only [encode, decodeQueueOp, qOp_fmtQ, qImm_fmtQ, qA_fmtQ, qD_fmtQ, qW_fmtQ,
    BitVec.extractLsb'_append_eq_of_le, BitVec.extractLsb'_append_eq_of_add_le, BitVec.extractLsb'_eq_self, Nat.sub_self]
  all_goals rfl
theorem qpLd x0 x1 x2 x3 : Statement (.qpLd x0 x1 x2 x3) := fun _ => by
  simp (disch := decide) only [encode, decodeQueueOp, qOp_fmtQ, qImm_fmtQ, qA_fmtQ, qD_fmtQ, qW_fmtQ]
theorem qpSt x0 x1 x2 x3 : Statement (.qpSt x0 x1 x2 x3) := fun _ => by
  simp (disch := decide) only [encode, decodeQueueOp, qOp_fmtQ, qImm_fmtQ, qA_fmtQ, qD_fmtQ, qW_fmtQ]
theorem qpBeq x0 x1 x2 : Statement (.qpBeq x0 x1 x2) := fun _ => by
  simp (disch := decide) only [encode, decodeQueueOp, qOp_fmtQ, qImm_fmtQ, qA_fmtQ, qD_fmtQ, qW_fmtQ]
  all_goals rfl
theorem qpBne x0 x1 x2 : Statement (.qpBne x0 x1 x2) := fun _ => by
  simp (disch := decide) only [encode, decodeQueueOp, qOp_fmtQ, qImm_fmtQ, qA_fmtQ, qD_fmtQ, qW_fmtQ]
  all_goals rfl
theorem qpSetlc x0 : Statement (.qpSetlc x0) := fun _ => by
  simp (disch := decide) only [encode, decodeQueueOp, qOp_fmtQ, qImm_fmtQ, qA_fmtQ, qD_fmtQ, qW_fmtQ]
  all_goals rfl
theorem qpLoop x0 : Statement (.qpLoop x0) := fun _ => by
  simp (disch := decide) only [encode, decodeQueueOp, qOp_fmtQ, qImm_fmtQ, qA_fmtQ, qD_fmtQ, qW_fmtQ]
  all_goals rfl
theorem qpLaunch x0 x1 x2 : Statement (.qpLaunch x0 x1 x2) := fun _ => by
  simp (disch := decide) only [encode, decodeQueueOp, qOp_fmtQ, qImm_fmtQ, qA_fmtQ, qD_fmtQ, qW_fmtQ]
  all_goals rfl
theorem qpDma x0 x1 x2 : Statement (.qpDma x0 x1 x2) := fun _ => by
  simp (disch := decide) only [encode, decodeQueueOp, qOp_fmtQ, qImm_fmtQ, qA_fmtQ, qD_fmtQ, qW_fmtQ,
    BitVec.extractLsb'_append_eq_of_le, BitVec.extractLsb'_append_eq_of_add_le, BitVec.extractLsb'_eq_self, Nat.sub_self,
    Nat.reduceSub]
  all_goals rfl
theorem qpDwait : Statement (.qpDwait) := fun _ => by
  simp (disch := decide) only [encode, decodeQueueOp, qOp_fmtQ, qImm_fmtQ, qA_fmtQ, qD_fmtQ, qW_fmtQ]
  all_goals rfl
theorem qpLwait x0 x1 : Statement (.qpLwait x0 x1) := fun _ => by
  simp (disch := decide) only [encode, decodeQueueOp, qOp_fmtQ, qImm_fmtQ, qA_fmtQ, qD_fmtQ, qW_fmtQ]
  all_goals rfl
theorem qpSignal x0 x1 x2 x3 : Statement (.qpSignal x0 x1 x2 x3) := fun _ => by
  simp (disch := decide) only [encode, decodeQueueOp, qOp_fmtQ, qImm_fmtQ, qA_fmtQ, qD_fmtQ, qW_fmtQ]
theorem qpIrq x0 : Statement (.qpIrq x0) := fun _ => by
  simp (disch := decide) only [encode, decodeQueueOp, qOp_fmtQ, qImm_fmtQ, qA_fmtQ, qD_fmtQ, qW_fmtQ]
  all_goals rfl
theorem qpDone : Statement (.qpDone) := fun _ => by
  simp (disch := decide) only [encode, decodeQueueOp, qOp_fmtQ, qImm_fmtQ, qA_fmtQ, qD_fmtQ, qW_fmtQ]
  all_goals rfl
theorem qpFail x0 : Statement (.qpFail x0) := fun _ => by
  simp (disch := decide) only [encode, decodeQueueOp, qOp_fmtQ, qImm_fmtQ, qA_fmtQ, qD_fmtQ, qW_fmtQ]
  all_goals rfl
theorem dmaComplete x0 x1 x2 : Statement (.dmaComplete x0 x1 x2) := fun _ => rfl
theorem tdiConfigViolation x0 : Statement (.tdiConfigViolation x0) := fun _ => rfl
theorem tdispStopInterface x0 x1 : Statement (.tdispStopInterface x0 x1) := fun _ => rfl
theorem functionLevelReset x0 : Statement (.functionLevelReset x0) := fun _ => rfl
theorem nonIdeRequest x0 : Statement (.nonIdeRequest x0) := fun _ => rfl
theorem setPowerCap x0 : Statement (.setPowerCap x0) := fun _ => rfl
theorem fabricMapUpdate x0 : Statement (.fabricMapUpdate x0) := fun _ => rfl
theorem vfBinding x0 x1 : Statement (.vfBinding x0 x1) := fun _ => rfl
theorem vtimeSet x0 x1 x2 : Statement (.vtimeSet x0 x1 x2) := fun _ => rfl
theorem laneWeak x0 x1 x2 x3 : Statement (.laneWeak x0 x1 x2 x3) := fun _ => rfl
theorem quietPointTimeout x0 : Statement (.quietPointTimeout x0) := fun _ => rfl
theorem laneSwapMarker x0 : Statement (.laneSwapMarker x0) := fun _ => rfl
theorem rekeyDue x0 : Statement (.rekeyDue x0) := fun _ => rfl
theorem linkKeyLoad x0 : Statement (.linkKeyLoad x0) := fun _ => rfl
theorem keySwitchMarker x0 : Statement (.keySwitchMarker x0) := fun _ => rfl
theorem keyExhausted x0 : Statement (.keyExhausted x0) := fun _ => rfl
theorem keyDownTimeout x0 : Statement (.keyDownTimeout x0) := fun _ => rfl
theorem flitAuthFail x0 x1 : Statement (.flitAuthFail x0 x1) := fun _ => rfl
theorem replayRequest x0 x1 : Statement (.replayRequest x0 x1) := fun _ => rfl
theorem linkKeyUpdate x0 x1 : Statement (.linkKeyUpdate x0 x1) := fun _ => rfl
theorem getMeasurements x0 x1 : Statement (.getMeasurements x0 x1) := fun _ => rfl
theorem keyDeliver x0 x1 x2 : Statement (.keyDeliver x0 x1 x2) := fun _ => rfl
theorem policyKey x0 x1 : Statement (.policyKey x0 x1) := fun _ => rfl
theorem sessionEnd x0 : Statement (.sessionEnd x0) := fun _ => rfl
theorem operatorCounterRead x0 x1 x2 x3 : Statement (.operatorCounterRead x0 x1 x2 x3) := fun _ => rfl
theorem pcSample x0 : Statement (.pcSample x0) := fun _ => rfl
theorem debugStop x0 x1 : Statement (.debugStop x0 x1) := fun _ => rfl
theorem operatorDebugCommand x0 x1 x2 : Statement (.operatorDebugCommand x0 x1 x2) := fun _ => rfl
theorem obsRawCounter x0 x1 : Statement (.obsRawCounter x0 x1) := fun _ => rfl
theorem obsRecordRing x0 x1 : Statement (.obsRecordRing x0 x1) := fun _ => rfl
theorem obsSetBreakpoint x0 x1 : Statement (.obsSetBreakpoint x0 x1) := fun _ => rfl
theorem obsDebugResume x0 x1 : Statement (.obsDebugResume x0 x1) := fun _ => rfl
theorem freeze : Statement (.freeze) := fun _ => rfl
theorem unfreeze : Statement (.unfreeze) := fun _ => rfl
theorem freezeMarker x0 : Statement (.freezeMarker x0) := fun _ => rfl
theorem thawMarker x0 : Statement (.thawMarker x0) := fun _ => rfl
theorem freezeMarkerExpiry x0 : Statement (.freezeMarkerExpiry x0) := fun _ => rfl
theorem correctedError x0 : Statement (.correctedError x0) := fun _ => rfl
theorem dramRowRepair x0 : Statement (.dramRowRepair x0) := fun _ => rfl
theorem l2WayRepair x0 : Statement (.l2WayRepair x0) := fun _ => rfl
theorem uncorrectedError x0 : Statement (.uncorrectedError x0) := fun _ => rfl
theorem pldmMonitor x0 : Statement (.pldmMonitor x0) := fun _ => rfl
theorem cAddi x0 x1 : Statement (.cAddi x0 x1) := fun _ => by
  simp only [encode]
  refine ⟨by simp only [BitVec.getLsbD_append]; rfl, ?_⟩
  simp (disch := decide) only [decodeParcel, cForm, cD, cImm7, BitVec.extractLsb'_append_eq_of_le,
    BitVec.extractLsb'_append_eq_of_add_le, BitVec.extractLsb'_eq_self, Nat.sub_self, Nat.reduceSub]
theorem cAdd x0 x1 : Statement (.cAdd x0 x1) := fun _ => by
  simp only [encode]
  refine ⟨by simp only [BitVec.getLsbD_append]; rfl, ?_⟩
  simp (disch := decide) only [decodeParcel, cForm, cD, cA, cHi3, BitVec.extractLsb'_append_eq_of_le,
    BitVec.extractLsb'_append_eq_of_add_le, BitVec.extractLsb'_eq_self, Nat.sub_self, Nat.reduceSub]
  all_goals rfl
theorem cSub x0 x1 : Statement (.cSub x0 x1) := fun _ => by
  simp only [encode]
  refine ⟨by simp only [BitVec.getLsbD_append]; rfl, ?_⟩
  simp (disch := decide) only [decodeParcel, cForm, cD, cA, cHi3, BitVec.extractLsb'_append_eq_of_le,
    BitVec.extractLsb'_append_eq_of_add_le, BitVec.extractLsb'_eq_self, Nat.sub_self, Nat.reduceSub]
  all_goals rfl
theorem cMov x0 x1 : Statement (.cMov x0 x1) := fun _ => by
  simp only [encode]
  refine ⟨by simp only [BitVec.getLsbD_append]; rfl, ?_⟩
  simp (disch := decide) only [decodeParcel, cForm, cD, cA, cHi3, BitVec.extractLsb'_append_eq_of_le,
    BitVec.extractLsb'_append_eq_of_add_le, BitVec.extractLsb'_eq_self, Nat.sub_self, Nat.reduceSub]
  all_goals rfl
theorem cLi x0 x1 : Statement (.cLi x0 x1) := fun _ => by
  simp only [encode]
  refine ⟨by simp only [BitVec.getLsbD_append]; rfl, ?_⟩
  simp (disch := decide) only [decodeParcel, cForm, cD, cImm7, BitVec.extractLsb'_append_eq_of_le,
    BitVec.extractLsb'_append_eq_of_add_le, BitVec.extractLsb'_eq_self, Nat.sub_self, Nat.reduceSub]
theorem cSlli x0 x1 : Statement (.cSlli x0 x1) := fun _ => by
  simp only [encode]
  refine ⟨by simp only [BitVec.getLsbD_append]; rfl, ?_⟩
  simp (disch := decide) only [zero_top, decodeParcel, cForm, cD, cImm7, BitVec.extractLsb'_append_eq_of_le,
    BitVec.extractLsb'_append_eq_of_add_le, BitVec.extractLsb'_eq_self, Nat.sub_self, Nat.reduceSub]
  all_goals rfl
theorem cAnd x0 x1 : Statement (.cAnd x0 x1) := fun _ => by
  simp only [encode]
  refine ⟨by simp only [BitVec.getLsbD_append]; rfl, ?_⟩
  simp (disch := decide) only [decodeParcel, cForm, cD, cA, cHi3, BitVec.extractLsb'_append_eq_of_le,
    BitVec.extractLsb'_append_eq_of_add_le, BitVec.extractLsb'_eq_self, Nat.sub_self, Nat.reduceSub]
  all_goals rfl
theorem cLdD x0 x1 x2 : Statement (.cLdD x0 x1 x2) := fun _ => by
  simp only [encode]
  refine ⟨by simp only [BitVec.getLsbD_append]; rfl, ?_⟩
  simp (disch := decide) only [decodeParcel, cForm, cD, cA, cHi3, BitVec.extractLsb'_append_eq_of_le,
    BitVec.extractLsb'_append_eq_of_add_le, BitVec.extractLsb'_eq_self, Nat.sub_self, Nat.reduceSub]
theorem cStD x0 x1 x2 : Statement (.cStD x0 x1 x2) := fun _ => by
  simp only [encode]
  refine ⟨by simp only [BitVec.getLsbD_append]; rfl, ?_⟩
  simp (disch := decide) only [decodeParcel, cForm, cD, cA, cHi3, BitVec.extractLsb'_append_eq_of_le,
    BitVec.extractLsb'_append_eq_of_add_le, BitVec.extractLsb'_eq_self, Nat.sub_self, Nat.reduceSub]
theorem cBeqz x0 x1 : Statement (.cBeqz x0 x1) := fun _ => by
  simp only [encode]
  refine ⟨by simp only [BitVec.getLsbD_append]; rfl, ?_⟩
  simp (disch := decide) only [decodeParcel, cForm, cD, cImm7, BitVec.extractLsb'_append_eq_of_le,
    BitVec.extractLsb'_append_eq_of_add_le, BitVec.extractLsb'_eq_self, Nat.sub_self, Nat.reduceSub]
theorem cBnez x0 x1 : Statement (.cBnez x0 x1) := fun _ => by
  simp only [encode]
  refine ⟨by simp only [BitVec.getLsbD_append]; rfl, ?_⟩
  simp (disch := decide) only [decodeParcel, cForm, cD, cImm7, BitVec.extractLsb'_append_eq_of_le,
    BitVec.extractLsb'_append_eq_of_add_le, BitVec.extractLsb'_eq_self, Nat.sub_self, Nat.reduceSub]
theorem cJ x0 : Statement (.cJ x0) := fun _ => by
  simp only [encode]
  refine ⟨by simp only [BitVec.getLsbD_append]; rfl, ?_⟩
  simp (disch := decide) only [decodeParcel, cForm, cOff11, BitVec.extractLsb'_append_eq_of_le,
    BitVec.extractLsb'_append_eq_of_add_le, BitVec.extractLsb'_eq_self, Nat.sub_self, Nat.reduceSub]
theorem cJr x0 : Statement (.cJr x0) := fun _ => by
  simp only [encode]
  refine ⟨by simp only [BitVec.getLsbD_append]; rfl, ?_⟩
  simp (disch := decide) only [decodeParcel, cForm, cD, cImm7, BitVec.extractLsb'_append_eq_of_le,
    BitVec.extractLsb'_append_eq_of_add_le, BitVec.extractLsb'_eq_self, Nat.sub_self, Nat.reduceSub]
  all_goals rfl
theorem cNop : Statement (.cNop) := fun _ => by
  simp only [encode]
  refine ⟨by simp only [BitVec.getLsbD_append]; rfl, ?_⟩
  simp (disch := decide) only [decodeParcel, cForm, cOff11, BitVec.extractLsb'_append_eq_of_le,
    BitVec.extractLsb'_append_eq_of_add_le, BitVec.extractLsb'_eq_self, Nat.sub_self, Nat.reduceSub]
  all_goals rfl
theorem cQpop x0 x1 : Statement (.cQpop x0 x1) := fun _ => by
  simp only [encode]
  refine ⟨by simp only [BitVec.getLsbD_append]; rfl, ?_⟩
  simp (disch := decide) only [decodeParcel, cForm, cD, cImm7, BitVec.extractLsb'_append_eq_of_le,
    BitVec.extractLsb'_append_eq_of_add_le, BitVec.extractLsb'_eq_self, Nat.sub_self, Nat.reduceSub]
  all_goals rfl
theorem tdiConfigLock x0 x1 : Statement (.tdiConfigLock x0 x1) := fun _ => rfl
theorem tdiRunStart x0 x1 : Statement (.tdiRunStart x0 x1) := fun _ => rfl
theorem ideKmKeyProgram x0 x1 x2 x3 : Statement (.ideKmKeyProgram x0 x1 x2 x3) := fun _ => rfl
theorem spdmSessionStart x0 : Statement (.spdmSessionStart x0) := fun _ => rfl
theorem counterBucketBoundary x0 x1 : Statement (.counterBucketBoundary x0 x1) := fun _ => rfl

end Sys2Proof.Laws.RoundTrip
end

