-- ==== Sys2Proof/Laws/Tables.lean ====
section
/-! SUPPORT. Keyed tables, and what reading a thread, a core, a PP, a link, a function or a queue gives after it was changed. -/

namespace Sys2Proof.Machine

open Sys2Proof

/-! ## Keyed tables -/

theorem find_storeBy {α : Type} (key : α → Nat) (r : α) (l : List α) (k : Nat) :
    (storeBy key r l).find? (fun q => key q == k) = if k = key r then .some r else l.find? fun q => key q == k := by
  induction l with
  | nil =>
    by_cases h : key r = k
    · simp [storeBy, h]
    · rw [if_neg fun c => h c.symm]; simp [storeBy, h]
  | cons q l ih =>
    simp only [storeBy]
    split
    · rename_i e
      by_cases h : key r = k
      · simp [h]
      · rw [if_neg (fun c => h c.symm), List.find?_cons_of_neg (by simpa using h), List.find?_cons_of_neg (by simpa [e] using h)]
    · rename_i e
      by_cases h : key q = k
      · rw [List.find?_cons_of_pos (by simpa using h), List.find?_cons_of_pos (by simpa using h), if_neg (by omega)]
      · rw [List.find?_cons_of_neg (by simpa using h), List.find?_cons_of_neg (by simpa using h), ih]

theorem lookup_storeBy {α : Type} (key : α → Nat) (d r : α) (l : List α) (k : Nat) :
    lookupBy key d k (storeBy key r l) = if k = key r then r else lookupBy key d k l := by
  unfold lookupBy; rw [find_storeBy]; split <;> rfl

/-- A record that a table gives has the key asked for. -/
theorem key_lookupBy {α : Type} (key : α → Nat) (d : α) (l : List α) {k : Nat} (h : key d = k) : key (lookupBy key d k l) = k := by
  unfold lookupBy
  cases e : l.find? fun q => key q == k with
  | none => exact h
  | some q => simpa using List.find?_some e

/-! ## Cores, PPs, links, functions and queues -/

theorem coreOf_id (s : State) (c : CoreId) : (s.coreOf c).id = c := key_lookupBy Core.id _ _ rfl

theorem coreOf_setCore (s : State) (k : Core) (c : CoreId) : (s.setCore k).coreOf c = if c = k.id then k else s.coreOf c :=
  lookup_storeBy Core.id _ _ _ _

/-- A core after a change that keeps its number. -/
theorem coreOf_withCore (s : State) (c d : CoreId) (f : Core → Core) (h : (f (s.coreOf c)).id = c) :
    (s.withCore c f).coreOf d = if d = c then f (s.coreOf c) else s.coreOf d := by
  unfold State.withCore; rw [coreOf_setCore, h]

theorem ppOf_id (s : State) (p : PpId) : (s.ppOf p).id = p := key_lookupBy Pp.id _ _ rfl

theorem ppOf_withPp (s : State) (p q : PpId) (f : Pp → Pp) (h : (f (s.ppOf p)).id = p) :
    (s.withPp p f).ppOf q = if q = p then f (s.ppOf p) else s.ppOf q := by
  unfold State.withPp State.setPp State.ppOf; rw [lookup_storeBy]; simp only [State.ppOf] at h; rw [h]

theorem linkOf_port (s : State) (p : Nat) : (s.linkOf p).port = p := key_lookupBy Link.port _ _ rfl

theorem linkOf_withLink (s : State) (p q : Nat) (f : Link → Link) (h : (f (s.linkOf p)).port = p) :
    (s.withLink p f).linkOf q = if q = p then f (s.linkOf p) else s.linkOf q := by
  unfold State.withLink State.linkOf; rw [lookup_storeBy]; simp only [State.linkOf] at h; rw [h]

theorem vfOf_num (s : State) (n : Nat) : (s.vfOf n).num = n := key_lookupBy Vf.num _ _ rfl

theorem vfOf_withVf (s : State) (n k : Nat) (f : Vf → Vf) (h : (f (s.vfOf n)).num = n) (h1 : 1 ≤ n) (h2 : n ≤ 64) :
    (s.withVf n f).vfOf k = if k = n then f (s.vfOf n) else s.vfOf k := by
  unfold State.withVf; rw [if_neg (by omega)]
  show lookupBy Vf.num _ _ (storeBy Vf.num _ _) = _
  rw [lookup_storeBy, h]; rfl

/-! ## Threads -/

theorem hartOf_cur (s : State) : s.hartOf s.cur.who = s.cur := by simp [State.hartOf]

/-- A thread after a change that keeps its name, when the table held it under that name. -/
theorem hartOf_withHart (s : State) (w : Who) (f : Hart → Hart) (h : (f (s.hartOf w)).who = w) :
    (s.withHart w f).hartOf w = f (s.hartOf w) := by
  unfold State.withHart
  generalize f (s.hartOf w) = k at h
  unfold State.setHart
  rw [h]
  by_cases c : s.cur.who = w
  · rw [if_pos c]; exact if_pos h
  · rw [if_neg c]
    show (if s.cur.who = w then s.cur else lookupBy Hart.key _ _ (storeBy Hart.key k s.harts)) = k
    rw [if_neg c, lookup_storeBy, if_pos (by rw [Hart.key, h])]

/-- Making a thread the executing one changes no thread. -/
theorem focus_cur (s : State) (w : Who) : (s.focus w).cur = s.hartOf w := by
  unfold State.focus State.hartOf; split <;> rfl

end Sys2Proof.Machine
end

