-- ==== Sys2Proof/Tests/Slice0.lean ====
section
/-! SUPPORT. The model's own tests: words of the encoding tables, ill-formed operands, states that meet the hypotheses of each
statement, and results that the spec works out in its examples. -/

namespace Sys2Proof.Tests

set_option Elab.async false

open Sys2Proof Sys2Proof.Machine

/-! ## Well-formedness: one operand that each check refuses (R34) -/

/-- An ill-formed term for each arm of the check. -/
theorem smoke_ill_formed : ∀ i ∈ ([
    .slli 1 2 32 true, .srli 1 2 32 true, .srai 1 2 63 true, .rori 1 2 40 true, .gang 1 2 0, .cas128 3 4 5 0 0, .cas128 2 0 5 0 0,
    .xfence 7 0 0, .xfence 0 4 0, .cpy 1 6 false, .cpy 0 4 true, .cpys 1 4 2 false, .cpyg 1 0 8 false, .cfill 1 3 false,
    .syncrd 1 2 4, .spawn 1 29 2 false, .spawn 1 0 2 true, .callat 1 4 3 false, .send 1 2 3 false true, .send 1 2 4 false false,
    .sput 0 3 true, .sput 1 2 false, .gbschur 1 2 2 2 false, .gbsend 1 0 0, .gbclr 1 2 3, .hsendReq 1 3 false, .hsendRep 1 5,
    .hblk 1 3 2, .rgnwr 1 2 0, .gswitch 1 2 3] : List Instr), wellFormed i = false := by decide

/-- Their neighbours within the checks. -/
theorem smoke_well_formed : ∀ i ∈ ([
    .slli 1 2 31 true, .srli 1 2 63 false, .gang 1 2 1, .cas128 2 4 5 0 0, .xfence 6 3 0, .cpy 0 28 false, .cpyg 1 4 8 true,
    .syncrd 1 2 3, .spawn 1 28 2 true, .send 1 2 4 false true, .send 0 2 4 false false, .sput 1 2 true, .gbschur 1 2 1 2 false,
    .gbsend 1 30 0, .hblk 1 2 3, .rgnwr 1 2 2] : List Instr), wellFormed i = true := by decide

/-! ## Words of every encoded row, computed from the fields of the encoding tables (R31 to R42, R354) -/

theorem decode_core_1 : ∀ e ∈ ([
    (0x2c43703#32, .add 23 4 22 true), (0x5953703#32, .sub 23 21 12 true), (0x8543a03#32, .and 26 20 2 true),
    (0xd532c03#32, .or 12 19 10 true), (0x13052c03#32, .xor 12 5 24 true), (0x15973b03#32, .andn 27 23 12 true),
    (0x19423703#32, .sll 23 2 10 true), (0x1f792203#32, .srl 2 25 27 true), (0x20932303#32, .sra 3 19 4 true),
    (0x24e43a03#32, .rol 26 4 7 true), (0x29123003#32, .ror 16 18 8 true), (0x2e263103#32, .slt 17 6 17 true),
    (0x32c22f03#32, .sltu 15 2 22 true), (0x34c82e03#32, .min 14 8 6 true), (0x3a4a2103#32, .max 1 10 18 true),
    (0x3ece2f03#32, .minu 15 14 22 true), (0x43773303#32, .maxu 19 23 27 true), (0x44c13b03#32, .mul 27 1 6 true),
    (0x4a952a03#32, .mulh 10 21 20 true), (0x4c472203#32, .mulhu 2 7 2 true), (0x52373903#32, .mulhsu 25 23 17 true),
    (0x56453503#32, .div 21 5 18 true), (0x5ace2f03#32, .divu 15 14 22 true), (0x5d092703#32, .rem 7 9 8 true),
    (0x61c73703#32, .remu 23 7 14 true), (0x64293603#32, .sel 22 9 1 true), (0x68162f03#32, .clz 15 22 true),
    (0x6c012e03#32, .ctz 14 1 true), (0x700e3b03#32, .popc 27 14 true), (0x74103403#32, .bswap 20 16 true),
    (0xa382e705#32, .addi 7 2 10471), (0xf0482507#32, .andi 5 8 15377), (0x8baece09#32, .ori 14 14 8942),
    (0x2a45d70b#32, .xori 23 5 2710), (0xd578550d#32, .slti 21 24 13658)] : List (BitVec 32 × Instr)),
    (decodeWord e.1).toOption = .some e.2 ∧ encode e.2 = .word e.1 := by decide +kernel

theorem decode_core_2 : ∀ e ∈ ([
    (0xd414cb0f#32, .sltui 11 20 13574), (0x279911#32, .slli 25 7 1 true), (0x2c5aa11#32, .srli 10 5 22 true),
    (0xa2d911#32, .srai 25 2 5 true), (0x16fe311#32, .rori 3 15 11 true), (0x2d774513#32, .ldhi 5 93114),
    (0x95a26715#32, .pcaddhi 7 306451), (0xc0c00817#32, .crd 8 1542), (0x17d42017#32, .cwr 190 20),
    (0x90645a17#32, .crs 26 1155 4), (0x5c977417#32, .crc 20 740 23), (0x95651321#32, .beq 5 11 1203),
    (0x8c993421#32, .bne 25 4 1140), (0xb2294f21#32, .blt 9 17 1423), (0x55416e21#32, .bge 1 10 686),
    (0x59989721#32, .bltu 24 12 727), (0xe330a821#32, .bgeu 16 25 1800), (0x5c9c5423#32, .jal 20 189666),
    (0xa8b80425#32, .jalr 4 24 1349), (0x49ca0027#32, .rep 73 6 2 4), (0xa70b29#32, .gang 11 7 5), (0x2029#32, .ungang),
    (0x5471931#32, .ldB 25 7 42), (0xdb252a31#32, .ldH 10 5 1753), (0x53565231#32, .ldW 18 22 666),
    (0x3aae7631#32, .ldD 22 14 469), (0x68ee9731#32, .ldBz 23 14 839), (0x8b38a631#32, .ldHz 6 24 1113),
    (0x2217cd31#32, .ldWz 13 23 272), (0x48f00033#32, .stB 7 16 576), (0xf2e42433#32, .stH 23 4 1924),
    (0x80395933#32, .stW 1 25 1049), (0xd1637f33#32, .stD 11 3 1695), (0x5b72a135#32, .vld 33 18 731 true),
    (0x69e2e737#32, .vst 103 2 847 true)] : List (BitVec 32 × Instr)),
    (decodeWord e.1).toOption = .some e.2 ∧ encode e.2 = .word e.1 := by decide +kernel

theorem decode_core_3 : ∀ e ∈ ([
    (0x4213f39#32, .vldx 63 1 16 true), (0x22f25139#32, .vstx 81 18 11 true), (0x426f0639#32, .vlds 6 15 9 true),
    (0x60797839#32, .vsts 120 25 1 true), (0x7a72003b#32, .pref 18 979), (0x3b56203b#32, .prefl2 22 474),
    (0x3959403b#32, .discard 25 458), (0x3678603b#32, .flush 24 435), (0x9398803b#32, .clean 24 1180),
    (0xa32da03b#32, .inval 13 1305), (0x3318d41#32, .amoaddW 13 25 17 0 4), (0x8a6d543#32, .amoaddD 21 5 6 2 6),
    (0x1f4c3141#32, .amoandW 17 26 12 3 1), (0x19fbcd43#32, .amoandD 13 15 27 2 6), (0x2e257a41#32, .amoorW 26 17 5 3 3),
    (0x2072c943#32, .amoorD 9 3 18 0 6), (0x32d86a41#32, .amoxorW 10 22 24 0 3), (0x308c4e43#32, .amoxorD 14 4 12 0 2),
    (0x4a116941#32, .amominW 9 16 17 2 3), (0x4a211543#32, .amominD 21 17 1 2 0), (0x5e15b441#32, .amomaxW 20 16 21 3 5),
    (0x58a9d243#32, .amomaxD 18 5 9 2 6), (0x69ba4c41#32, .amominuW 12 13 26 2 2), (0x67538743#32, .amominuD 7 26 19 1 4),
    (0x79248641#32, .amomaxuW 6 9 4 2 4), (0x7b51cd43#32, .amomaxuD 13 26 17 2 6), (0x884bee41#32, .amoswapW 14 2 11 2 7),
    (0x814f0143#32, .amoswapD 1 10 15 0 0), (0x9cc82341#32, .amocasW 3 6 8 3 1), (0x914ea843#32, .amocasD 8 10 14 0 5),
    (0x5c74445#32, .cas128 4 14 7 1 2), (0xf67047#32, .ldacq 16 22 7 true), (0x826649#32, .strel 4 2 6 true),
    (0xa0004b#32, .fenceAcq 5), (0x1e0004b#32, .fenceRel 7)] : List (BitVec 32 × Instr)),
    (decodeWord e.1).toOption = .some e.2 ∧ encode e.2 = .word e.1 := by decide +kernel

theorem decode_core_4 : ∀ e ∈ ([
    (0x220004b#32, .fenceFull 1), (0x54c0204b#32, .xfence 5 2 6), (0x182f4d#32, .cpy 15 24 true),
    (0x50c324d#32, .cpys 18 12 8 true), (0xa8c364d#32, .cpyg 22 12 20 true), (0xc043a4d#32, .cfill 26 4 true),
    (0x10a004f#32, .notify 10 8), (0x2822d4f#32, .syncw 13 2 20), (0x87404f#32, .syncinit 7 4), (0x7a774f#32, .syncrd 23 26 3),
    (0x6ca1651#32, .spawn 22 10 22 true), (0x92351#32, .join 3 9), (0x4915b51#32, .callat 27 17 4 true), (0x6051#32, .rett),
    (0x8051#32, .yield), (0x19b351#32, .tcancel 19 25), (0xc051#32, .tend), (0xe071953#32, .send 25 7 16 true true),
    (0x4102053#32, .sopen 16 true), (0x8065053#32, .sput 16 6 true), (0x6053#32, .sclose), (0x18c53#32, .qpop 12 1),
    (0xae53#32, .qprobe 14 0), (0x10957#32, .barw 9 1), (0x63157#32, .barwa 17 6), (0xa4e57#32, .barww 14 10),
    (0xf6c57#32, .barwr 12 15), (0x11587461#32, .vadd 116 48 69), (0x3ec43361#32, .vsub 51 8 123),
    (0x4278d661#32, .vmul 86 113 9), (0x67fc4561#32, .vmulh 69 120 31), (0x8f5b7c61#32, .vmulhu 124 54 61),
    (0xbcbb3d61#32, .vabsd 61 118 114), (0xd5693861#32, .vqadd 56 82 85), (0xe866ad61#32, .vqsub 45 77 33)] : List (BitVec 32 × Instr)),
    (decodeWord e.1).toOption = .some e.2 ∧ encode e.2 = .word e.1 := by decide +kernel

theorem decode_core_5 : ∀ e ∈ ([
    (0x11f84263#32, .vmin 66 112 71), (0x27a77863#32, .vmax 120 78 30), (0x4eb29963#32, .vminu 25 101 58),
    (0x7fd47863#32, .vmaxu 120 40 127), (0x88a8df63#32, .vand 95 81 34), (0xbbb5cf63#32, .vor 79 107 110),
    (0xd9cb5463#32, .vxor 84 22 103), (0xea5c7363#32, .vandn 115 56 41), (0x14e0da65#32, .vsll 90 65 83),
    (0x3dcdbb65#32, .vsrl 59 27 119), (0x5db45465#32, .vsra 84 104 118), (0x6ab8cb65#32, .vmac 75 113 42),
    (0x8403a165#32, .vdot4 33 7 16), (0x1363db69#32, .vceq 91 71 77), (0x39a19769#32, .vcne 23 67 102),
    (0x5d18fe69#32, .vclt 126 49 116), (0x727f4069#32, .vcle 64 126 73), (0x9360f469#32, .vcltu 116 65 77),
    (0xba5b3569#32, .vcleu 53 54 105), (0xd4556569#32, .vsel 101 42 81), (0x243fe6b#32, .vperm 126 7 9),
    (0x2022bf6b#32, .vrev 63 69), (0x1c626f#32, .vredadd 98 56), (0x2025286f#32, .vredmin 40 74),
    (0x402a806f#32, .vredmax 0 85), (0x600fa26f#32, .vredminu 34 31), (0x800d2b6f#32, .vredmaxu 43 26),
    (0xa03ac76f#32, .vfredadd 71 117), (0xc03b506f#32, .vfredmax 80 118), (0x12c8a671#32, .vfadd 38 17 75),
    (0x3f337671#32, .vfsub 118 102 124), (0x5b01a271#32, .vfmul 34 3 108), (0x752b8871#32, .vfma 8 87 84),
    (0x9a1edb71#32, .vfms 91 61 104), (0xad4d5571#32, .vfmin 85 26 53)] : List (BitVec 32 × Instr)),
    (decodeWord e.1).toOption = .some e.2 ∧ encode e.2 = .word e.1 := by decide +kernel

theorem decode_core_6 : ∀ e ∈ ([
    (0xd8af3071#32, .vfmax 48 94 98), (0xe37fdd71#32, .vfdiv 93 127 13), (0x23e473#32, .vfsqrt 100 71),
    (0x2013d373#32, .vfrcp 83 39), (0x401fee73#32, .vfrsq 110 63), (0x601c6b73#32, .vfexp2 107 56),
    (0x8019e773#32, .vflog2 103 51), (0xa01c7373#32, .vfabs 115 56), (0xc0023b73#32, .vfneg 59 4),
    (0xe0252873#32, .vfclass 40 74), (0x123c1f75#32, .vfceq 31 120 72), (0x266e0575#32, .vfclt 5 92 25),
    (0x49d6f375#32, .vfcle 115 45 39), (0x6189a175#32, .vfcun 33 19 6), (0x3e3e77#32, .vcvt 62 124),
    (0x2b423b77#32, .vpack 59 4 45), (0x403d6677#32, .vunpkl 102 122), (0x603e5277#32, .vunpkh 82 124),
    (0x8006d577#32, .vqnt4 85 13 0), (0xa0279777#32, .vdqnt4 23 79), (0x1d09979#32, .vmadd 25 33 7),
    (0x3219d579#32, .vmsub 85 51 72), (0x469ebf79#32, .vmmul 63 61 26), (0x7412a979#32, .vmmac 41 37 80),
    (0x83344f79#32, .vntbf 79 104 12), (0xb51f9979#32, .vintbf 25 63 84), (0xc0061679#32, .vmred 22 12),
    (0x6d39d67#32, .vslls 29 39 27), (0x94b9667#32, .vsrls 22 23 5), (0x10bc0667#32, .vsras 6 120 2),
    (0x1d185567#32, .vadds 85 48 20), (0x258aca67#32, .vmuls 74 21 22), (0x21287b#32, .vmov 40 66),
    (0xcc0207b#32, .vsplat 32 19), (0x1080697b#32, .vqpop 105 2)] : List (BitVec 32 × Instr)),
    (decodeWord e.1).toOption = .some e.2 ∧ encode e.2 = .word e.1 := by decide +kernel

theorem decode_core_7 : ∀ e ∈ ([
    (0x1806007b#32, .sputv 12), (0x204f657b#32, .vext 1 30 101), (0x2d97187b#32, .vins 24 22 46),
    (0xbb66af1#32, .fmt 2 3 true 3 6 6 10), (0xda1#32, .mlease 13), (0x20a1#32, .mrelease), (0x42a1#32, .mtry 2),
    (0x7100a3#32, .mseta 17 3), (0x5520a3#32, .msetb 21 2), (0x30b40a3#32, .msetc 11 24), (0x2b360a3#32, .mscla 19 21),
    (0x36580a3#32, .msclb 5 27), (0x62a0a3#32, .msetm 2 3), (0x1b2c0a3#32, .mshape 18 13), (0x11e0a3#32, .msync 17),
    (0xc0009a5#32, .mma 9 3), (0x80038a5#32, .mmaz 24 2), (0x40052a5#32, .mmas 18 1), (0x6ba5#32, .mmod 11 0),
    (0xc008aa5#32, .mntt 10 3), (0x800b8a5#32, .mintt 24 2), (0xd4a5#32, .mtwid 20 0), (0xc1a11a7#32, .mdrain 17 26 3),
    (0xc0f28a7#32, .mdrainq 8 15 3), (0x80040a7#32, .mzero 2), (0x8006ea7#32, .mresume 14 2), (0xc0c90a7#32, .mstat 16 12 3),
    (0x400a7a7#32, .mabort 7 1), (0x1ed000c1#32, .gbadd 0 32 123 0), (0xfe634bc1#32, .gbsub 75 70 121 3),
    (0xa0b118c3#32, .gbschur 24 98 1 2 true), (0x2023dcc5#32, .gbsolve 92 71 1), (0xc02244c5#32, .gbsolveVar 68 68 2),
    (0x20ac7#32, .gbdamp 10 4 0), (0x19400c9#32, .gbsend 40 6 0)] : List (BitVec 32 × Instr)),
    (decodeWord e.1).toOption = .some e.2 ∧ encode e.2 = .word e.1 := by decide +kernel

theorem decode_core_8 : ∀ e ∈ ([
    (0xbcb#32, .gbpoll 11), (0x3acb#32, .gbpolln 26), (0x1c744cb#32, .gbres 4 7 14), (0x2037acb#32, .gbclr 26 3 16),
    (0xf12bcbcd#32, .gbld 75 11 1929 true), (0x60800d1#32, .htag 8 16 1), (0xd32d1#32, .htagrd 18 13),
    (0xb56d1#32, .hdirrd 22 11), (0x5ab67d1#32, .hdirwr 7 11 13 true), (0x58dd1#32, .hbusy 13 5), (0x3a0d1#32, .hfree 3),
    (0x4c800d3#32, .hsendReq 8 6 true), (0x21120d3#32, .hsendRep 17 16), (0x28456d3#32, .hblk 22 4 20),
    (0x360d3#32, .hresume 3), (0xd5#32, .hend), (0x20d5#32, .hdefer), (0x1240d5#32, .hfault 18), (0x7ca000e1#32, .trap 997),
    (0x6ac020e1#32, .sysc 854), (0x40e1#32, .tret), (0x60e1#32, .wfe), (0xa7e080e1#32, .brk 1343), (0x700e3#32, .tlbinv 7),
    (0x20e3#32, .tlbinva), (0x574be3#32, .rgnwr 11 23 2), (0x2930de5#32, .ctxsave 13 19 20), (0x2883ae5#32, .ctxload 26 8 20),
    (0x195be5#32, .ctxstat 27 25), (0x1d57be5#32, .gswitch 27 21 14), (0x1419e7#32, .launch 25 20), (0x321e7#32, .lcancel 1 3)] : List (BitVec 32 × Instr)),
    (decodeWord e.1).toOption = .some e.2 ∧ encode e.2 = .word e.1 := by decide +kernel

theorem decode_compact : ∀ e ∈ ([
    (0x3a22#16, .cAddi 1 29), (0x3e4#16, .cAdd 15 1), (0x1726#16, .cSub 9 11), (0xe8#16, .cMov 7 0), (0x8a4a#16, .cLi 2 69),
    (0x6ec#16, .cSlli 7 3), (0x38e#16, .cAnd 12 1), (0xd4f0#16, .cLdD 7 10 6), (0x4fb2#16, .cStD 13 7 2),
    (0x83d4#16, .cBeqz 14 65), (0x7d76#16, .cBnez 11 62), (0xa5b8#16, .cJ 1325), (0x17a#16, .cJr 11), (0x1c#16, .cNop),
    (0x67e#16, .cQpop 3 3)] : List (BitVec 16 × Instr)),
    (decodeParcel e.1).toOption = .some e.2 ∧ encode e.2 = .parcel e.1 := by decide +kernel

theorem decode_queue : ∀ e ∈ ([
    (0x45040301#32, .qpLi 3 17668), (0x446f0e02#32, .qpLsh 14 17519), (0x49903#32, .qpAdd 9 9 4),
    (0x8915704#32, .qpAddi 7 5 2193), (0x5a705#32, .qpAnd 7 10 5), (0x32fc06#32, .qpShr 12 15 50),
    (0x435a907#32, .qpLd 9 10 0 1077), (0x1fe048#32, .qpSt 0 14 1 31), (0x5d7c8d09#32, .qpBeq 13 8 23932),
    (0xf65bd0a#32, .qpBne 13 11 3941), (0x259d000b#32, .qpSetlc 9629), (0x6a56000c#32, .qpLoop 27222),
    (0xd0cd#32, .qpLaunch 0 13 3), (0xa000e#32, .qpDma 0 2 2), (0xf#32, .qpDwait), (0xb810#32, .qpLwait 8 11),
    (0x4ea229d1#32, .qpSignal 9 2 3 20130), (0xb8870012#32, .qpIrq 47239), (0x13#32, .qpDone), (0x5a9f0014#32, .qpFail 23199)] : List (BitVec 32 × Instr)),
    (decodeQueueOp e.1).toOption = .some e.2 ∧ encode e.2 = .queueOp e.1 := by decide +kernel

/-- The canonical no-operation of R38, and words of the holes of the map (R34, R35, R41). -/
theorem decode_nop : (decodeParcel 0x001c#16).toOption = .some .cNop := by decide +kernel
theorem decode_holes : (decodeParcel 0#16).toOption = .none ∧ (decodeWord 0xffffffff#32).toOption = .none ∧
    legalParcel 0x0020 = false ∧ legalWord 0xffffffff = false := by decide +kernel

/-- The same words as the host lays them out: the table's bits, in whole bytes. -/
theorem decode_table : decodeTableWord 32 46413571 = .some (.add 23 4 22 true) ∧ decodeTableWord 16 14882 = .some (.cAddi 1 29) ∧
    decodeTableWord 32 1148128770 = .some (.qpLsh 14 17519) := by decide +kernel
/-! ## The machine that the tests run on -/

theorem ok_of {ε α : Type} {e : Except ε α} {a : α} (h : e.toOption = .some a) : e = .ok a := by
  cases e with
  | error _ => simp [Except.toOption] at h
  | ok b => simp [Except.toOption] at h; rw [h]

theorem error_of {ε α : Type} {e : Except ε α} {x : ε}
    (h : (match e with | .ok _ => Option.none | .error y => Option.some y) = Option.some x) : e = .error x := by
  cases e with
  | ok _ => simp at h
  | error y => simp at h; rw [h]

/-- Block 0 of memory, writable in the L1 of core 0. -/
def line0 : Line := ⟨0, 2, true, 0x8877665544332211#256, plainRegion 5 0⟩

/-- Core 0 runs a partition of its cluster for context 5, whose page 0 is the first page of memory; its slot 0 executes at U, with
x[r] = r. -/
def lab : State :=
  { cur := { who := .core 0 0, life := .live, pc := 0x100, x := Vector.ofFn fun i => BitVec.ofNat 64 i
             v := Vector.ofFn fun i => BitVec.ofNat 128 (i + 2 ^ 64 * i) }
    cores := [{ id := 0, part := .some 1, l1 := [line0] }]
    parts := [{ id := 1, launch := 3, ctx := 5, tenant := 7, state := .running, groups := [⟨0, 0, 0⟩], gw := 1, gh := 1
                stopScope := 0, seed := 1, priority := 0, weight := 1 }]
    ctxs := [{ num := 5, tenant := 7, key := 0, state := .running, launch := 3, tbase := 0x200 }]
    tlb := [fetchPage 5] }

/-- The thread with another register, status, prefix or pc. -/
def lx (s : State) (r : Reg) (v : Word) : State := { s with cur := s.cur.setX r v }
def atS (s : State) : State := { s with cur := s.cur.setStatus 1 }
def latched (s : State) (w : BitVec 32) : State := { s with cur := { s.cur with latch := .some w } }

/-- What an outcome leaves in a part of the next state. -/
def look {α : Type} (f : State → α) : Host.Outcome State Fault Refusal → Option α
  | .next t => .some (f t)
  | _ => .none

/-! ## Witnesses: states that meet the hypotheses of each statement, clause by clause -/

theorem lab_issues : lab.mayIssue .both = .ok () ∧ lab.mayIssue .coreOnly = .ok () ∧ lab.mayIssue .vector = .ok () ∧
    (atS lab).mayIssue .coreOnly = .ok () :=
  ⟨ok_of (by decide +kernel), ok_of (by decide +kernel), ok_of (by decide +kernel), ok_of (by decide +kernel)⟩

theorem witness_scalarResults : lab.mayIssue .both = .ok () ∧ lab.cur.FullX [31, 0, 31] :=
  ⟨ok_of (by decide +kernel), by unfold Hart.FullX; decide +kernel⟩

theorem witness_scalarImmediates : lab.mayIssue .both = .ok () ∧ lab.cur.FullX [0, 31] ∧ (true = true → (31#6).toNat < 32) :=
  ⟨ok_of (by decide +kernel), by unfold Hart.FullX; decide +kernel, by decide⟩

theorem witness_branchResults : lab.mayIssue .both = .ok () ∧ lab.cur.FullX [0, 31, 1] ∧ lab.cur.FullX [wideReg 0, wideReg 15] :=
  ⟨ok_of (by decide +kernel), by unfold Hart.FullX; decide +kernel, by unfold Hart.FullX; decide +kernel⟩

/-- Under no prefix, and under one that names INT8 with saturation (a `fmt` word of R75). -/
theorem witness_vectorLaneResults : lab.VecReady noPrefix Prefix.intSat noPrefix [0, 15, 7] ∧
    lab.VecReady noPrefix Prefix.intOnly noPrefix [0, 15, 7] ∧
    (latched lab (fmtP 0 0 true 0 6 6 6 0x78#7)).VecReady noPrefix Prefix.intSat ⟨6, 6, 6, 0, true, 0, 0⟩ [1, 2, 3] := by
  refine ⟨⟨ok_of ?_, ok_of ?_, ok_of ?_, ?_⟩, ⟨ok_of ?_, ok_of ?_, ok_of ?_, ?_⟩, ⟨ok_of ?_, ok_of ?_, ok_of ?_, ?_⟩⟩ <;>
    first | (unfold Hart.FullV; decide +kernel) | decide +kernel

theorem witness_vectorScalarResults : lab.cur.FullX [31] ∧ lab.VecReady noPrefix Prefix.intSat noPrefix [0, 15] ∧
    lab.VecReady noPrefix Prefix.intOnly noPrefix [0, 15, 1] ∧ lab.VecReady noPrefix Prefix.moves noPrefix [0, 15] ∧
    3 < 128 / (intFmt noPrefix.afmt).width := by
  refine ⟨?_, ⟨ok_of ?_, ok_of ?_, ok_of ?_, ?_⟩, ⟨ok_of ?_, ok_of ?_, ok_of ?_, ?_⟩, ⟨ok_of ?_, ok_of ?_, ok_of ?_, ?_⟩, ?_⟩ <;>
    first | (unfold Hart.FullV; decide +kernel) | (unfold Hart.FullX; decide +kernel) | decide +kernel

theorem witness_vectorReductionResults : lab.VecReady noPrefix Prefix.intOnly noPrefix [0, 15] ∧
    lab.VecReady ⟨6, 6, 0, 0, false, 0, 0⟩ Prefix.dot ⟨6, 6, 0, 0, false, 0, 0⟩ [0, 15, 7] := by
  refine ⟨⟨ok_of ?_, ok_of ?_, ok_of ?_, ?_⟩, ⟨ok_of ?_, ok_of ?_, ok_of ?_, ?_⟩⟩ <;>
    first | (unfold Hart.FullV; decide +kernel) | decide +kernel

theorem witness_floatLaneResults : lab.VecReady noPrefix Prefix.floating noPrefix [0, 15, 7] ∧
    lab.VecReady noPrefix Prefix.floatOnly noPrefix [0, 15, 7] ∧
    (latched lab (fmtP 0 0 true 5 4 4 4 0x78#7)).VecReady noPrefix Prefix.floating ⟨4, 4, 4, 5, true, 0, 0⟩ [1, 2] := by
  refine ⟨⟨ok_of ?_, ok_of ?_, ok_of ?_, ?_⟩, ⟨ok_of ?_, ok_of ?_, ok_of ?_, ?_⟩, ⟨ok_of ?_, ok_of ?_, ok_of ?_, ?_⟩⟩ <;>
    first | (unfold Hart.FullV; decide +kernel) | decide +kernel

theorem witness_conversionResults :
    (latched lab (fmtP 0 0 false 0 2 1 1 0x78#7)).VecReady noPrefix vcvtOk ⟨1, 1, 2, 0, false, 0, 0⟩ [0, 15] ∧
    lab.VecReady ⟨0, 0, 1, 0, false, 0, 0⟩ vpackOk ⟨0, 0, 1, 0, false, 0, 0⟩ [0, 15, 7] ∧
    lab.VecReady ⟨1, 1, 0, 0, false, 0, 0⟩ vunpkOk ⟨1, 1, 0, 0, false, 0, 0⟩ [0, 15] ∧
    lab.VecReady ⟨0, 0, 5, 0, false, 0, 0⟩ vqnt4Ok ⟨0, 0, 5, 0, false, 0, 0⟩ [0, 15, 7] ∧
    (latched lab (fmtP 0 0 false 0 5 1 1 0x78#7)).VecReady ⟨0, 0, 5, 0, false, 0, 0⟩ vqnt4Ok ⟨1, 1, 5, 0, false, 0, 0⟩ [0, 15] ∧
    lab.VecReady ⟨5, 5, 1, 0, false, 0, 0⟩ vdqnt4Ok ⟨5, 5, 1, 0, false, 0, 0⟩ [0, 15] := by
  refine ⟨⟨ok_of ?_, ok_of ?_, ok_of ?_, ?_⟩, ⟨ok_of ?_, ok_of ?_, ok_of ?_, ?_⟩, ⟨ok_of ?_, ok_of ?_, ok_of ?_, ?_⟩,
    ⟨ok_of ?_, ok_of ?_, ok_of ?_, ?_⟩, ⟨ok_of ?_, ok_of ?_, ok_of ?_, ?_⟩, ⟨ok_of ?_, ok_of ?_, ok_of ?_, ?_⟩⟩ <;>
    first | (unfold Hart.FullV; decide +kernel) | decide +kernel

/-- The greatest modulus of R70, the least, and one past each end. -/
theorem witness_modularResults : lab.VecReady noPrefix Prefix.modular noPrefix [0, 15, 7] ∧ goodModulus (2 ^ 62 - 1) = true ∧
    goodModulus 3 = true ∧ goodModulus (2 ^ 62) = false ∧ goodModulus 1 = false := by
  refine ⟨⟨ok_of ?_, ok_of ?_, ok_of ?_, ?_⟩, ?_⟩ <;> first | (unfold Hart.FullV; decide +kernel) | decide +kernel

/-- The trap base of the context can be fetched from; another one cannot. -/
theorem witness_trapEntry : lab.trapBase ≠ 0 ∧ lab.fetchFaults lab.cur.who.core' (lab.trapBase &&& ~~~1#64).toNat = false ∧
    ({ lab with tlb := [] } : State).fetchFaults 0 (lab.trapBase &&& ~~~1#64).toNat = true ∧
    ({ lab with ctxs := [] } : State).trapBase = 0 := by decide +kernel

theorem witness_trapReturn : (atS lab).mayIssue .coreOnly = .ok () ∧ (atS lab).cur.pl ≠ 0 ∧ (atS lab).cur.rf = false ∧
    lab.cur.pl = 0 ∧ ({ atS lab with cur := (atS lab).cur.setStatus 0x401 } : State).cur.pp = true :=
  ⟨ok_of (by decide +kernel), by decide +kernel⟩

/-- Inside a repeat frame: the sixteen instructions are captured again. -/
theorem witness_trapReturn_frame :
    let s : State := { atS lab with
      mem := writeBytes [] 0x104 64 0x001c001c001c001c001c001c001c001c001c001c001c001c001c001c001c001c001c001c001c001c001c001c001c001c001c001c001c001c001c001c001c001c
      cores := [{ id := 0, part := .some 1 }]
      cur := { lab.cur.setStatus 0x801 with sys := { (lab.cur.setStatus 0x801).sys with tepc := 0x104 } } }
    s.cur.pl ≠ 0 ∧ s.cur.rf = true ∧ (s.capture ((s.cur.sys.tepc &&& ~~~1#64) - BitVec.ofNat 64 (2 * s.cur.bofs)) 0 .none
      16).toOption.isSome = true := by decide +kernel

theorem witness_systemResults : (atS lab).mayIssue .coreOnly = .ok () ∧ lab.cur.pl = 0 ∧ (atS lab).cur.pl ≠ 0 ∧
    (atS lab).cur.FullX [3, 4, 5, 6] ∧ (255#11).toNat < 256 ∧ 259 < (260#11).toNat ∧ lab.attached 0 0 = false ∧
    ((lab.withCore 0 fun k => { k with queues := k.queues.set 3 [1] }).coreOf 0).queues[3] ≠ [] :=
  ⟨ok_of (by decide +kernel), by decide +kernel, by decide +kernel, by unfold Hart.FullX; decide +kernel, by decide +kernel⟩

/-- A core thread; with a prefix; with each source in turn the first empty one. -/
theorem witness_issueOrder : lab.cur.who.isPp = false ∧ (latched lab 1).cur.latch = .some 1 ∧ lab.cur.latch = .none ∧
    (lab.cur.markX 1).emptyX 1 = true ∧ (lab.cur.markX 1).xr.getLsbD 1 = false ∧
    (lab.cur.markX 31).emptyX 31 = true ∧ (lab.cur.markX 31).emptyX 1 = false ∧ (lab.cur.markX 31).emptyX 2 = false := by
  decide +kernel

/-- A register that is written, one that is read only, one for S alone, and a number that names none. -/
theorem witness_systemRegisterResults : (atS lab).mayIssue .coreOnly = .ok () ∧ lab.cur.FullX [0, 31] ∧
    SysReg.ofNumber 0x040 = .some .modq ∧ SysReg.modq.writable = true ∧ SysReg.ofNumber 0x068 = .some .time ∧
    SysReg.time.writable = false ∧ SysReg.ofNumber 0x070 = .some .errq ∧ SysReg.errq.writable = true ∧
    SysReg.errq.userWrites = false ∧ SysReg.ofNumber 0x7ff = .none ∧ lab.cur.pl = 0 ∧ (atS lab).cur.pl ≠ 0 :=
  ⟨ok_of (by decide +kernel), by unfold Hart.FullX; decide +kernel, by decide +kernel⟩

/-- Sixteen compact no-operations, which a frame takes. -/
def nops : State := { lab with cores := [{ id := 0, part := .some 1 }], mem := writeBytes [] 0x104 64 0x001c001c001c001c001c001c001c001c001c001c001c001c001c001c001c001c001c001c001c001c001c001c001c001c001c001c001c001c001c001c001c001c }

theorem witness_controlResults : nops.mayIssue .coreOnly = .ok () ∧ (nops.capture (nops.cur.pc + 4) 0 .none 16).toOption.isSome ∧
    lab.cur.FullX [1, 2] ∧ lab.gangCheck 0 (lab.cur.readX 0) 1 = 0 ∧ lab.gangCheck 0 (lab.cur.readX 1) 1 = 1 ∧
    (lab.coreOf 0).gang = .none :=
  ⟨ok_of (by decide +kernel), by decide +kernel, by unfold Hart.FullX; decide +kernel, by decide +kernel⟩

/-- Two cores of a row at the rendezvous of a gang, with the same slot or with another; and in it, the last but one and the last
of their threads at `ungang`. -/
def meeting (slot : Nat) : State := { lab with
  cur := { lab.cur with wait := .gang 0 2 4 }
  harts := [{ who := .core 1 slot, life := .live, wait := .gang 0 2 0 }]
  cores := [{ id := 0, part := .some 1 }, { id := 1, part := .some 1 }] }
def together (w : Wait) : State := { lab with
  harts := [{ who := .core 1 0, life := .live, wait := w }]
  cores := [{ id := 0, part := .some 1, gang := .some ⟨0, 2⟩ }, { id := 1, part := .some 1, gang := .some ⟨0, 2⟩ }] }

theorem witness_controlResults_gang :
    (∀ k ∈ [0, 1], (meeting k).gangWidth 0 = .some 2 ∧ 0 ∈ gangCores 0 (coreX 0) 2 ∧
      (gangCores 0 (coreX 0) 2).all (fun m => (meeting k).occupied m == (meeting k).occupied 0) = (k == 0) ∧
      (∀ c ∈ gangCores 0 (coreX 0) 2, ∀ i ∈ (meeting k).occupied c, ((meeting k).hartOf (.core c i)).who = .core c i)) ∧
    (together .none).mayIssue .coreOnly = .ok () ∧ (together .none).allUngang 0 = false ∧
    ((together .ungang).withCur { lab.cur with wait := .ungang, ended := .waited }).allUngang 0 = true ∧
    (together .ungang).occupied 1 = [0] :=
  ⟨by decide +kernel, ok_of (by decide +kernel), by decide +kernel⟩

/-- The last bytes of the line in the L1, and the last bytes of the cluster's scratchpad. -/
theorem witness_loadResults : lab.cur.who.isPp = false ∧ lab.mayIssue .both = .ok () ∧ lab.cur.FullX [31, 24] ∧
    lab.translate (lab.cur.readX 24 + (0#11).signExtend 64) 8 .read = .ok ⟨24, 24, false⟩ ∧
    lab.AtHand [lab.loadAccess ⟨24, 24, false⟩ 8 false] ∧
    lab.translate (lab.cur.readX 0 + (2040#11).signExtend 64) 8 .read = .ok ⟨2 ^ 64 - 8, 0x80000ffff8, false⟩ ∧
    lab.AtHand [lab.loadAccess ⟨2 ^ 64 - 8, 0x80000ffff8, false⟩ 8 false] ∧
    lab.AtHand [{ lab.loadAccess ⟨24, 24, false⟩ 8 false with acquire := .some 7 }] ∧ lab.seenAll 24 8 :=
  ⟨by decide, ok_of (by decide +kernel), by unfold Hart.FullX; decide +kernel, ok_of (by decide +kernel),
    by unfold State.AtHand; decide +kernel, ok_of (by decide +kernel), by unfold State.AtHand; decide +kernel,
    by unfold State.AtHand; decide +kernel, by unfold State.seenAll; decide +kernel⟩

theorem witness_storeResults : lab.translate (lab.cur.readX 24 + (0#11).signExtend 64) 8 .write = .ok ⟨24, 24, false⟩ ∧
    lab.StoresFit [lab.storeAccess ⟨24, 24, false⟩ 8 31 false] ∧ lab.cur.FullX [24, 31] :=
  ⟨ok_of (by decide +kernel), by unfold State.StoresFit; decide +kernel, by unfold Hart.FullX; decide +kernel⟩

/-- Four elements from the start of a line, all of it, and a stride that leads past nothing. -/
theorem witness_vectorMemoryResults : lab.cur.FullX [0, 4] ∧ lab.cur.FullV [15, 1] ∧ lab.needReg 15 = .ok () ∧
    lab.translateAll 16 .read [lab.cur.readX 0 + (1#11).signExtend 64 * 16] = .ok [⟨16, 16, false⟩] ∧
    lab.translateAll (elemSize false) .read (elemAddrs false (lab.cur.readX 0) fun i => BitVec.ofNat 64 i * lab.cur.readX 4) =
      .ok [⟨0, 0, false⟩, ⟨4, 4, false⟩, ⟨8, 8, false⟩, ⟨12, 12, false⟩] ∧
    lab.translateAll (elemSize true) .write (elemAddrs true (lab.cur.readX 8) (indexOffset true (lab.cur.readV 0))) =
      .ok [⟨8, 8, false⟩, ⟨8, 8, false⟩] ∧
    lab.AtHand ([⟨0, 0, false⟩, ⟨4, 4, false⟩, ⟨8, 8, false⟩, ⟨12, 12, false⟩].map fun t => lab.loadAccess t 4 false) ∧
    lab.StoresFit ([⟨8, 8, false⟩, ⟨8, 8, false⟩].zipIdx.map fun q => lab.storeAccess q.1 8 q.2 false) ∧ lab.cur.elemsDone = [] := by
  refine ⟨?_, ?_, ok_of ?_, ok_of ?_, ok_of ?_, ok_of ?_, ?_, ?_, ?_⟩ <;>
    first
    | (unfold Hart.FullX; decide +kernel) | (unfold Hart.FullV; decide +kernel) | (unfold State.AtHand; decide +kernel)
    | (unfold State.StoresFit; decide +kernel) | decide +kernel

/-- Page 0 uncached: nothing is at hand. -/
def slow : State := { lab with tlb := [{ fetchPage 5 with uncached := true }] }

/-- A load that is out, and two stores in the buffer: to the next cluster's scratchpad, and to the line in the L1. -/
def underway : State := slow.withCore 0 fun k =>
  { k with
    loads := [⟨0, .scalar 3, true, [(slow.loadAccess ⟨24, 24, true⟩ 8 false, .none)], .none, 0, false, false⟩]
    stores := [⟨slow.storeAccess ⟨0xfffffff000100000, 0x8000100000, false⟩ 8 7 false, .none, .none, .none, .none⟩,
      ⟨slow.storeAccess ⟨0, 0, false⟩ 8 7 false, .none, .none, .none, .none⟩] }

/-- The second of them stands forwarded to a load of the same slot. -/
theorem witness_forwardByte : (underway.coreOf 0).forwardByte 0 0 = .some 7 := by decide +kernel

theorem witness_accessesCompleted :
    slow.translate (slow.cur.readX 24 + (0#11).signExtend 64) 8 .read = .ok ⟨24, 24, true⟩ ∧
    slow.reach 0 false ⟨24, 24, true⟩ = .later ∧ (slow.coreOf 0).loadWaits 0 24 8 = false ∧
    (∃ l, (underway.coreOf 0).loads[0]? = .some l ∧ l.waits = .none ∧ (∀ q ∈ l.elems, underway.poisoned q.1.pa = false) ∧
      ∀ q ∈ l.elems.map (underway.readElem 0 0 l), q.2.isSome = true) ∧
    (∃ e, (underway.coreOf 0).stores[0]? = .some e ∧ underway.heldBack 0 0 e = false ∧ e.acc.kind = .store ∧
      e.sent = .none ∧ e.req = .none ∧ e.waits = .none ∧ e.acc.around = false ∧
      underway.reach 0 true e.acc.target = .later ∧ placeOf e.acc.pa = .scratch) ∧
    ∃ e, (underway.coreOf 0).stores[1]? = .some e ∧ underway.heldBack 0 1 e = false ∧ e.acc.kind = .store ∧
      e.sent = .none ∧ e.req = .none ∧ e.waits = .none ∧ e.acc.around = false ∧ underway.reach 0 true e.acc.target = .now ∧ placeOf e.acc.pa = .dram := by
  refine ⟨ok_of ?_, ?_, ?_, ⟨_, rfl, ?_⟩, ⟨_, rfl, ?_⟩, ⟨_, rfl, ?_⟩⟩ <;> decide +kernel

/-- An atomic on the L1 line, and on the last word of the cluster's scratchpad; x24 and x0 as destinations. -/
theorem witness_atomicResults : lab.cur.FullX [24, 0, 31] ∧ lab.translate (lab.cur.readX 24) 8 .write = .ok ⟨24, 24, false⟩ ∧
    lab.reach 0 true ⟨24, 24, false⟩ = .now ∧ (lab.coreOf 0).storePending 0 24 8 = false ∧ lab.poisoned 24 = false ∧
    (lab.coreOf 0).readPending 0 24 8 = false ∧ (lab.coreOf 0).acquiring 0 = false ∧ lab.quiet (.core 0 0) 7 = true ∧
    (lx lab 5 (BitVec.ofNat 64 (2 ^ 64 - 4))).translate (BitVec.ofNat 64 (2 ^ 64 - 4)) 4 .write =
      .ok ⟨2 ^ 64 - 4, 0x80000ffffc, false⟩ ∧
    lab.reach 0 true ⟨2 ^ 64 - 4, 0x80000ffffc, false⟩ = .now ∧ placeOf 0x80000ffffc = .scratch ∧
    (lab.coreOf 0).stores.length < 16 := by
  and_intros <;> first | exact ok_of (by decide +kernel) | (unfold Hart.FullX; decide +kernel) | decide +kernel

theorem witness_fenceResults : lab.cur.FullX [2, regPlus 2 1, 5, 30, regPlus 30 1] ∧
    (lx lab 5 (BitVec.ofNat 64 (2 ^ 64 - 16))).translate ((lx lab 5 (BitVec.ofNat 64 (2 ^ 64 - 16))).cur.readX 5) 16 .write =
      .ok ⟨2 ^ 64 - 16, 0x80000ffff0, false⟩ ∧ lab.attachedDone 0 0 2 7 = true ∧ (underway.coreOf 0).readsBack 0 (underway.stamps + 1) = false ∧
    underway.quiet (.core 0 0) 7 = false ∧ lab.quiet (.core 0 0) 7 = true ∧ (lab.coreOf 0).readsBack 0 (lab.stamps + 1) = true ∧
    underway.attachedDone 0 0 0 7 = false ∧
    (lx lab 5 (BitVec.ofNat 64 (2 ^ 64 - 16))).reach 0 true ⟨2 ^ 64 - 16, 0x80000ffff0, false⟩ = .now := by
  refine ⟨?_, ok_of ?_, ?_⟩ <;> first | (unfold Hart.FullX; decide +kernel) | decide +kernel

/-- The dirty line of the L1, homed on the die. -/
theorem witness_hintResults : lab.translate (lab.cur.readX 31 + (0#11).signExtend 64) 1 .write = .ok ⟨31, 31, false⟩ ∧
    lab.translate (lab.cur.readX 31 + (0#11).signExtend 64) 1 .read = .ok ⟨31, 31, false⟩ ∧ lab.hintable ⟨31, 31, false⟩ = true ∧
    (lab.regionOf ⟨31, 31, false⟩).hint = false ∧ ((List.range 5).all fun k => !(lab.coreOf 0).hintWaits k 0 0) = true ∧
    (lab.coreOf 0).line? 0 = .some line0 ∧ line0.dirty = true ∧ homeDie line0.region.homePa = coreDie 0 ∧
    (lab.coreOf 0).line? 32 = .none ∧ lab.writeBackOpen 0 32 (plainRegion 5 32) = false ∧
    ((lab.coreOf 0).requests.filter (·.slotUsed)).length < 16 ∧ isRemote lab.pkg 31 = false ∧ homeDie 31 = coreDie 0 ∧
    (let s : State := { lab with tlb := [{ fetchPage 5 with pa := 2 ^ 37 }] }
     s.translate (s.cur.readX 31) 1 .read = .ok ⟨31, 2 ^ 37 + 31, false⟩ ∧ homeDie (2 ^ 37 + 31) ≠ coreDie 0 ∧
       isRemote s.pkg (2 ^ 37 + 31) = false ∧ s.hintable ⟨31, 2 ^ 37 + 31, false⟩ = true) := by
  refine ⟨ok_of ?_, ok_of ?_, ?_, ?_, ?_, ?_, ?_, ?_, ?_, ?_, ?_, ?_, ?_, ok_of ?_, ?_⟩ <;> decide +kernel

/-- The quad of x4 to x7 asks for 2^40 - 1 bytes, the most, without a sync block; a queue of 32 has room, and one of 32 entries none. -/
theorem witness_copyIssued :
    let s := lx (lx lab 6 (BitVec.ofNat 64 (2 ^ 40 - 1))) 7 0
    s.cur.FullX (1 :: run4 4 ++ run4 8) ∧ copyCheck ((⟨s.cur.quad 4, []⟩ : CopyArgs).shape 0).1 1 0 = .ok () ∧
    s.syncArgument ((⟨s.cur.quad 4, []⟩ : CopyArgs).x 3) (trapOf .copyArgument 0) = .ok .none ∧ s.copyRoom 0 = true ∧
    ({ s with copies := List.replicate 32 (s.newCopy 0 ⟨s.cur.quad 4, []⟩ .none .nowhere) } : State).copyRoom 0 = false := by
  refine ⟨?_, ok_of ?_, ok_of ?_, ?_⟩ <;> first | (unfold Hart.FullX; decide +kernel) | decide +kernel

/-- A cluster with a copy that waits, one that has finished, and one that has failed; a post for its scratchpad. -/
def copying : State :=
  let k := lab.newCopy 0 ⟨[0, 32, 32, 0], []⟩ (.some 0x8000000000) (.scalar 1)
  { lab with
    copies := [{ k with id := 1, running := true, row := 1, done := 32 }, { k with id := 2, running := true, fault := .some (2, 64, .poison) },
      { k with id := 3 }]
    posts := [⟨0x8000000000, 2 ^ 40 - 1, 0, true, .none, [], 1, 0⟩]
    nTicks := Vector.replicate 4 640
    mem := writeBytes [] 0x8000000000 8 3 }

theorem witness_copyEvents : (copying.copies.filter fun q => q.cl == 0).countP (·.running) < 4 ∧
    (copying.copies.find? fun q => q.cl == 0 && !q.running).isSome = true ∧
    (∃ k, copying.copyAt 0 0 = .some k ∧ k.running = true ∧ k.finished = true ∧ k.fault = .none ∧
      (copying.hartOf (.core k.core k.slot)).who = .core k.core k.slot) ∧
    (∃ k, copying.copyAt 0 1 = .some k ∧ k.fault = .some (2, 64, .poison) ∧ isRemote copying.pkg 0x8000000000 = false) ∧
    (let here := copying.posts.filter fun q => scratchCluster q.pa == 0 && decide (q.arrives < copying.unitCycles q.pa)
     ∃ p, here.find? (fun q => !here.any fun r => r.before q) = .some p ∧ 0 < copying.syncTarget p.pa ∧ p.broken = true) ∧
    lab.syncTarget 0x8000000000 = 0 := by
  refine ⟨?_, ?_, ⟨_, rfl, ?_⟩, ⟨_, rfl, ?_⟩, ⟨_, rfl, ?_⟩, ?_⟩ <;> decide +kernel

/-- The last block of the scratchpad, whose generation is not the one that x0 names, and the first, whose is. -/
theorem witness_syncResults :
    let a := BitVec.ofNat 64 (2 ^ 64 - 32)
    let s := lx (lx { lab with mem := writeBytes [] 0x80000ffff4 4 9 } 5 a) 6 (BitVec.ofNat 64 (2 ^ 40 - 1))
    s.cur.FullX [31, 5, 6] ∧ s.syncAddress (s.cur.readX 5) .write = .ok 0x80000fffe0 ∧ (s.cur.readX 6).toNat < 2 ^ 40 ∧
    s.syncBusy 0x80000fffe0 = false ∧ s.postDue 0x80000fffe0 (s.unitCycles 0x80000fffe0) = false ∧ s.quiet (.core 0 0) 7 = true ∧
    isRemote s.pkg 0x80000fffe0 = false ∧ s.syncReadWaits 0x80000fffe0 = false ∧ copying.postDue 0x8000000000 (copying.unitCycles 0x8000000000) = true ∧
    copying.syncReadWaits 0x8000000000 = true ∧ scratchCluster 0x80000fffe0 = clusterOf 0 ∧ scratchCluster 0x8000100000 ≠ clusterOf 0 ∧
    underway.quiet (.core 0 0) 7 = false ∧ s.syncAddress (s.cur.readX 5) .read = .ok 0x80000fffe0 ∧
    s.syncGen 0x8000000000 = (s.cur.readX 0).toNat % 2 ^ 32 ∧ s.syncFlags 0x8000000000 % 2 = 0 ∧
    (let w : State := s.withHart (.core 0 1) fun h => { h with life := .live, wait := .sync 0x8000000000 1 3 true }
     (w.hartOf (.core 0 1)).wait = .sync 0x8000000000 1 3 true ∧ w.syncOpen 0x8000000000 1 = true) := by
  and_intros <;> first | exact ok_of (by decide +kernel) | (unfold Hart.FullX; decide +kernel) | decide +kernel

theorem witness_syncGenerations : let s : State := { lab with mem := writeBytes [] 0x8000000014 4 9 }
    s.syncGen 0x8000000000 ≠ 0 ∨ s.syncFlags 0x8000000000 % 2 = 1 := by decide +kernel

/-- A core with the full task queue of 32 and the full call buffer of 8. -/
def crowded : State := lab.withCore 0 fun k => { k with
  threads := 1
  tasks := (List.range 32).map fun i => ⟨i, 0, Vector.replicate 4 0, ⟨.none, 0, false⟩, false, 3, []⟩
  calls := List.replicate 8 { slot := 0, pc := 0, args := Vector.replicate 4 0, target := 0, reply := .none, retryAt := 0, sentAt := .none } }

theorem witness_taskResults : lab.cur.FullX (1 :: run4 28 ++ [2, regPlus 2 1]) ∧ lab.quiet (.core 0 0) 3 = true ∧
    lab.queueTaken 0 = false ∧ crowded.queueTaken 0 = false ∧ crowded.quiet (.core 0 0) 3 = true ∧ underway.quiet (.core 0 0) 3 = false ∧
    ((List.range 32).filter fun i => !(lab.coreOf 0).tasks.any (·.index == i)) ≠ [] ∧
    ((List.range 32).filter fun i => !(crowded.coreOf 0).tasks.any (·.index == i)) = [] ∧
    (lx lab 3 0).targetCore 0 ((lx lab 3 0).cur.readX 3) true = .ok (.some 0) ∧ (lab.coreOf 0).freeReply = .some 0 ∧
    (lab.coreOf 0).calls.length < 8 ∧ 8 ≤ (crowded.coreOf 0).calls.length := by
  refine ⟨?_, ?_, ?_, ?_, ?_, ?_, ?_, ?_, ok_of ?_, ?_⟩ <;> first | (unfold Hart.FullX; decide +kernel) | decide +kernel

/-- A counter at 24 within reach; a task that reports to a counter at the start of the scratchpad, and one that reports to none. -/
theorem witness_taskEnds : lab.translate (lab.cur.readX 24) 8 .read = .ok ⟨24, 24, false⟩ ∧
    (lab.coreOf 0).loadWaits 0 24 8 = false ∧ lab.reach 0 false ⟨24, 24, false⟩ = .now ∧ lab.poisoned 24 = false ∧
    lab.cur.xe = 0 ∧ lab.cur.ve = 0 ∧ lab.cur.stream = .none ∧ (lab.coreOf 0).openFlow 0 = .none ∧ lab.cur.task.join = 0 ∧
    (lab.checkWalk 0 true (2 ^ 64 - 8) 8 .write).toOption = .some (lab, ⟨2 ^ 64 - 8, 0x80000ffff8, false⟩) := by
  refine ⟨ok_of ?_, ?_⟩
  · decide +kernel
  · refine ⟨?_, ?_, ?_, ?_, ?_, ?_, ?_, ?_, rfl⟩ <;> decide +kernel

/-- A call at the head of its buffer, one whose target's queue was full, one to a peer; a reply on its way; and a queued task. -/
def calling : State :=
  let s := lab.withCore 0 fun k => { k with
    calls := [⟨1, 0x40, Vector.replicate 4 9, 0, .none, 0, .none, [], 0⟩, ⟨2, 0x40, Vector.replicate 4 9, 0, .none, 70, .none, [], 0⟩,
      ⟨3, 0x40, Vector.replicate 4 9, 0x10000, .some ⟨0, 3, 5, 1⟩, 0, .some 0, [], 0⟩]
    tasks := [⟨7, 0x80, Vector.replicate 4 3, ⟨.none, 0, false⟩, false, 3, []⟩]
    owed := [⟨0, 4, 6, 2⟩] }
  { s with replies := [(⟨0, 3, 5, 1⟩, 44, [])], joinFails := [(5, 24)] }

/-- The queue of the calls' target is free to take one, or full. -/
theorem witness_callatAccept :
    (∀ s ∈ [calling.withCore 0 fun k => { k with tasks := [] }, crowded.withCore 0 fun k => { k with calls := (calling.coreOf 0).calls }],
      s.queueTaken 0 = false ∧ ∃ e, (s.coreOf 0).calls[0]? = .some e ∧ e.retryAt = 0 ∧ s.quietBefore (.core 0 e.slot) 7 e.stamp = true) ∧
    ((List.range 32).filter fun i => !(crowded.coreOf 0).tasks.any (·.index == i)) = [] := by
  refine ⟨?_, by decide +kernel⟩
  intro s h
  simp only [List.mem_cons, List.not_mem_nil, or_false] at h
  rcases h with rfl | rfl <;> exact ⟨by decide +kernel, _, rfl, by decide +kernel⟩

theorem witness_taskEvents : (∃ e, (calling.coreOf 0).calls[0]? = .some e ∧ e.retryAt = 0 ∧
      (∀ q ∈ (calling.coreOf 0).calls.take 0, q.target ≠ e.target) ∧ calling.quietBefore (.core 0 e.slot) 7 e.stamp = true ∧
      designatedPkg e.target = calling.pkg) ∧
    (∃ e, (calling.coreOf 0).calls[1]? = .some e ∧ e.retryAt ≠ 0) ∧
    (∃ e r, (calling.coreOf 0).calls[2]? = .some e ∧ designatedPkg e.target ≠ calling.pkg ∧ e.reply = .some r) ∧
    calling.replies[0]? = .some (⟨0, 3, 5, 1⟩, 44, []) ∧ (calling.coreOf 0).owed ≠ [] ∧ (calling.hartOf (.core 0 3)).who = .core 0 3 ∧
    calling.vacantSlot 0 = .some 1 ∧ (calling.coreOf 0).tasks ≠ [] ∧ calling.joinFails[0]? = .some (5, 24) := by
  refine ⟨⟨_, rfl, ?_⟩, ⟨_, rfl, ?_⟩, ⟨_, _, rfl, ?_, rfl⟩, ?_⟩ <;> decide +kernel

/-- Core 1 of the cluster has a vacant slot and core 0, whose slots are taken, a task to steal. -/
def stealing : State :=
  let s := (calling.withCore 0 fun k => { k with threads := 1 }).withCore 1 fun k => { k with part := .some 1 }
  s.withHart (.core 1 0) fun h => { h with life := .live }

theorem witness_taskSteal : stealing.vacantSlot 1 = .some 1 ∧ stealing.stealFrom 1 = .some 0 ∧
    (stealing.vacantSlot 0).isNone = true ∧ stealing.wantsHead 0 = false ∧ (clusterAfter 0).find? (fun q => stealing.stealFrom q == .some 0) = .some 1 ∧
    (stealing.coreOf 0).stealable.isSome = true := by decide +kernel

/-- Threads that wait on a counter at 24 and for the status of a cancel request for entry 7 of core 0. -/
def waiting : State :=
  let s := calling.withHart (.core 0 1) fun h =>
    { h with life := .live, wait := .join (lab.loadAccess ⟨24, 24, false⟩ 8 false) (.scalar 3) }
  s.withHart (.core 0 2) fun h => { h with life := .live, wait := .cancel (calling.handle 0 7 0) 3 }

theorem witness_taskWaits : (waiting.hartOf (.core 0 1)).life = .live ∧
    waiting.reach 0 false (lab.loadAccess ⟨24, 24, false⟩ 8 false).target = .now ∧ waiting.poisoned 24 = false ∧
    (waiting.hartOf (.core 0 2)).wait = .cancel (calling.handle 0 7 0) 3 ∧ designatedPkg (calling.handle 0 7 0) = waiting.pkg ∧
    field (calling.handle 0 7 0) 28 4 = 0 ∧ field (calling.handle 0 7 0) 37 3 = 0 ∧ field (calling.handle 0 7 0) 13 3 = 0 ∧
    waiting.sameLaunch 0 ((calling.handle 0 7 0).toNat % 8192) = true ∧ waiting.sameLaunch 0 9 = false ∧
    ((waiting.coreOf 0).tasks.find? fun e => e.index == field (calling.handle 0 7 0) 32 5 &&
      ((waiting.coreOf 0).seqs.getD (field (calling.handle 0 7 0) 32 5) 0).toNat == field (calling.handle 0 7 0) 40 24).isSome = true ∧
    ((waiting.coreOf 0).tasks.find? fun e => e.index == field (calling.handle 0 8 0) 32 5 &&
      ((waiting.coreOf 0).seqs.getD (field (calling.handle 0 8 0) 32 5) 0).toNat == field (calling.handle 0 8 0) 40 24) = .none := by
  decide +kernel

/-- Slot 0 with an open stream that has claimed its route; queue 2 with an entry of which half is left, and queue 1 empty. -/
def talking : State :=
  let s : State := lab.withCore 0 fun k =>
    { k with flows := [⟨0, 0, false, 1, true, [], false, 0⟩], queues := k.queues.set 2 [0x11112222], halves := 4 }
  { s with cur := { s.cur with stream := .some ⟨0, false, true, false⟩ } }

theorem witness_messageResults : lab.cur.FullX [31, 4, regPlus 4 1, 30, regPlus 30 1, wideReg 15] ∧ lab.cur.FullV [15] ∧
    lab.needRegs [15] = .ok () ∧ lab.targetCore 0 (lab.cur.readX 0) false = .ok (.some 0) ∧ coreDie 0 = coreDie 0 ∧
    lab.cur.stream = .none ∧
    ((List.range (lab.coreOf 0).threads).filter fun i => (lab.hartOf (.core 0 i)).stream.isSome).length < 2 ∧
    (talking.coreOf 0).openFlow 0 = .some ⟨0, 0, false, 1, true, [], false, 0⟩ ∧ (talking.coreOf 0).queue 2 ≠ [] ∧
    (talking.coreOf 0).half 2 = true ∧ (talking.coreOf 0).queue 1 = [] ∧ lab.routeFree 0 0 ⟨0, false, false, false⟩ ((lab.coreOf 0).claimed 0) = true ∧
    (lab.coreOf 0).openFlow 0 = .none ∧
    (lab.withCore 0 fun k => k.setHolder false (.some (.core 0 3))).routeFree 0 0 ⟨0, false, false, false⟩ 0 = false := by
  refine ⟨?_, ?_, ok_of ?_, ok_of ?_, ?_⟩ <;>
    first | (unfold Hart.FullX; decide +kernel) | (unfold Hart.FullV; decide +kernel) | decide +kernel

theorem witness_routeRoom : ([] : List Vec).length ≤ Config.routeRoom := Nat.zero_le _

/-- Words on their way: one just sent, one that a full port refused and that may go again, one past its limit; an unclaimed stream
that its put waits for, and a route with a word and a closed one. -/
def sending : State :=
  let s := lab.withCore 0 fun k => { k with
    sending := [⟨0, 0, false, 5, .none, 0, 0, [], false⟩, ⟨1, 0, true, 5, .some 3, 0, 0, [], false⟩, ⟨2, 0, true, 5, .none, 0, 16, [], false⟩]
    queues := k.queues.set 2 (List.replicate 8 1)
    flows := [⟨3, 0, false, 1, true, [(77, [])], false, 0⟩, ⟨4, 0, true, 1, true, [], true, 0⟩, ⟨5, 0, false, 0, false, [], false, 0⟩] }
  let s := s.withHart (.core 0 2) fun h => { h with life := .live, sys := { h.sys with sendto := 1 } }
  let s := s.withHart (.core 0 5) fun h => { h with life := .live, wait := .put, stream := .some ⟨0, false, false, false⟩ }
  { s with nTicks := Vector.replicate 4 (64 * 16), parts := s.parts.map fun p => { p with vTicks := 64 * 5 } }

theorem witness_messageEvents : (∃ e, (sending.coreOf 0).sendOf 0 = .some e ∧ e.retryAt = 0 ∧
      ((sending.coreOf e.target).queue 1).length < 8 ∧ ((sending.coreOf e.target).holder false).isNone = true) ∧
    (∃ e, (sending.coreOf 0).sendOf 1 = .some e ∧ e.retryAt = 0 ∧ e.nb.isSome = true ∧
      ¬ ((sending.coreOf e.target).queue 2).length < 8) ∧
    (∃ e, (sending.coreOf 0).sendOf 2 = .some e ∧ e.retryAt ≠ 0 ∧ e.retryAt ≤ sending.nCycles 0 ∧
      sending.sendExpired 0 e = true ∧ (sending.hartOf (.core 0 2)).life = .live) ∧
    (∃ st, (sending.hartOf (.core 0 5)).stream = .some st ∧ st.claimed = false ∧ (sending.hartOf (.core 0 5)).waitsPut = true ∧
      (sending.hartOf (.core 0 5)).who = .core 0 5) ∧
    (∃ f, (sending.coreOf 0).flows[2]? = .some f ∧ (sending.coreOf 0).flows.findIdx? (fun f => f.slot == 5 && !f.arrived) = .some 2 ∧
      f.closing = false ∧ (route 0 f.target)[f.links]? = .none ∧ sending.portOpen 0 5 ((sending.coreOf 0).flows.take 2) f.target f.port = true ∧
      sending.portOpen 0 3 ((sending.coreOf 0).flows.take 2) f.target false = false ∧
      (lab.withCore 0 fun k => k.setHolder false (.some (.core 0 3))).portOpen 0 5 [] 0 false = false) ∧
    (∃ l, (route 0 9)[0]? = .some l ∧ lab.linkUse l < 2 ∧ 2 ≤ (lab.withCore 0 fun k =>
      { k with flows := [⟨1, 9, false, 1, false, [], false, 0⟩, ⟨2, 9, false, 1, false, [], false, 0⟩] }).linkUse l) ∧
    (∃ f, (sending.coreOf 0).flows[0]? = .some f ∧ f.words = [(77, [])] ∧ f.arrived = true ∧ ((sending.coreOf f.target).queue 1).length < 8) ∧
    ∃ f, (sending.coreOf 0).flows[1]? = .some f ∧ f.closing = true ∧ f.arrived = true ∧ f.words = [] := by
  refine ⟨⟨_, rfl, ?_⟩, ⟨_, rfl, ?_⟩, ⟨_, rfl, ?_⟩, ⟨_, rfl, ?_⟩, ⟨_, rfl, ?_⟩, ⟨_, rfl, ?_⟩, ⟨_, rfl, ?_⟩, ⟨_, rfl, ?_⟩⟩ <;> decide +kernel

/-- Channel 3 of core 0 is a group of that core alone with two arrivals a phase, of which the first has come; channel 2 is broken;
channel 0 is of no group. -/
def barred : State := lab.withCore 0 fun k => { k with
  channels := (k.channels.set 3 ⟨.some (0, 0), 2, 5, 1, 7, false, .some 0, [.core 0 1], [], [], []⟩).set 2
    ⟨.some (0, 0), 2, 5, 2, 7, true, .none, [], [], [], []⟩ }

def arrivedAt (s : State) (p : Nat) : State := { s with cur := s.cur.setBarwa 3 p }

theorem witness_barrierResults : lab.cur.FullX [1, 3] ∧ (lab.cur.readX 3).toNat % 4 = 3 ∧
    lab.barwrStatus 0 3 (lab.cur.sys.barwRect &&& rectMask) = 0 ∧ lab.barwrStatus 0 3 0x10000 ≠ 0 ∧
    barred.rootOf 0 0 = .none ∧ barred.rootOf 0 3 = .some 0 ∧ barred.quiet (.core 0 0) 5 = true ∧ underway.quiet (.core 0 0) 5 = false ∧
    ((barred.coreOf 0).channel 3).broken = false ∧
    ((barred.coreOf 0).channel 3).arrived < ((barred.coreOf 0).channel 3).count ∧
    barred.cur.who ∉ ((barred.coreOf 0).channel 3).members ∧ .core 0 1 ∈ ((barred.coreOf 0).channel 3).members ∧ ((barred.coreOf 0).channel 2).broken = true ∧
    (arrivedAt barred 7).cur.barwa.getD 3 .none = .some 7 ∧ (arrivedAt barred 6).cur.barwa.getD 3 .none = .some 6 := by
  refine ⟨?_, ?_⟩ <;> first | (unfold Hart.FullX; decide +kernel) | decide +kernel

/-- The phase of channel 3 is met while the executing thread waits for it; before that, its limit of 5 V-cycles has passed. -/
theorem witness_barrierEvents :
    let s := barred.withCore 0 fun k => k.withChannel 3 fun q => { q with arrived := 2 }
    let s : State := { s with cur := { s.cur with wait := .barrier 3 7 2 } }
    s.rootOf 0 3 = .some 0 ∧ ((s.coreOf 0).channel 3).held = [] ∧
    ((s.coreOf 0).channel 3).count ≤ ((s.coreOf 0).channel 3).arrived ∧ s.cur.who ∈ s.groupThreads 0 3 ∧
    (s.groupThreads 0 3).Nodup ∧ (∀ w ∈ s.groupThreads 0 3, (s.hartOf w).who = w) ∧ s.cur.wait = .barrier 3 7 2 ∧
    (let t : State := { barred with parts := barred.parts.map fun p => { p with bTicks := 64 * 5 } }
     ((t.coreOf 0).channel 3).firstAt = .some 0 ∧ ((t.coreOf 0).channel 3).limit ≤ t.barCycles 0 - 0 ∧
     ((t.coreOf 0).channel 3).limit ≠ 0) := by decide +kernel

theorem witness_stopResults :
    let s : State := lab.withCore 0 fun k => { k with queues := k.queues.set 3 [1] }
    let s : State := { s with cur := s.cur.setStatus 8 }
    (s.coreOf 0).queues[3] = [1] ∧ (s.coreOf 0).gang = .none ∧
    (List.range (s.coreOf 0).threads).find? (fun i => (s.hartOf (.core 0 i)).interruptible &&
      (s.hartOf (.core 0 i)).landed.isNone) = .some 0 ∧
    (let t : State := { lab with cur := { lab.cur with wait := .fatal false } }
     (t.hartOf (.core 0 0)).life = .live ∧ (t.hartOf (.core 0 0)).wait = .fatal false ∧ (t.coreOf 0).stop = .none ∧
     (t.coreOf 0).part = .some 1 ∧ (t.partOfCore 0).map (·.stopScope) = .some 0) ∧
    (let t : State := { lab with parts := lab.parts.map fun p => { p with state := .halting, stopScope := 3 } }
     (t.partOfCore 0).map (·.stopScope) = .some 3 ∧ (t.partOfCtx 5).map (·.state) = .some .halting) := by decide +kernel

/-- At S: an address that a translation covers, the last entry of the region table, a region of the library's protocol 0, and one
past the table. -/
theorem witness_mapResults : (atS lab).cur.user = false ∧ (atS lab).cur.FullX [1, 31, 2, regPlus 2 1] ∧
    canonical ((atS lab).cur.readX 31).toNat = true ∧ (atS lab).inFlight 5 (fun _ => true) = false ∧
    (atS lab).quiet (.core 0 0) 6 = true ∧ underway.quiet (.core 0 0) 6 = false ∧
    (∃ k, (atS lab).ctxOfCore 0 = .some k ∧ (atS lab).rgnStatus k 63 0 0 = 0 ∧ (atS lab).rgnStatus k 64 0 0 ≠ 0 ∧
      (k.regions.getD 63 (0, 0)).2.getLsbD 8 = false) := by
  refine ⟨?_, ?_, ?_, ?_, ?_, ?_, ⟨_, rfl, ?_⟩⟩ <;> first | (unfold Hart.FullX; decide +kernel) | decide +kernel

/-- Groups of five registers from 0, 5 and 10 on; from v0 the identity, which has a factorisation; from v10
one whose first pivot is negative. -/
def grouped : State :=
  let put := fun (h : Hart) (e : VReg × Vec) => h.setV e.1 e.2
  { lab with cur := ([(0, 0), (1, 0x3f800000), (2, 0x3f800000 <<< 32), (3, 0x3f800000 <<< 64), (4, 0x3f800000 <<< 96),
      (11, 0xbf800000)] : List (VReg × Vec)).foldl put lab.cur }

theorem witness_gaussianResults : grouped.GroupReady 0 5 ∧ grouped.GroupReady 5 5 ∧ grouped.GroupReady 10 2 ∧ grouped.GroupReady 8 1 ∧
    grouped.cur.FullV [8] ∧
    (cholesky grouped.cur 4 (groupMat (grouped.groupValues 0 5))).toOption.isSome = true ∧
    (cholesky grouped.cur 1 (groupMat (grouped.groupValues 10 2))).toOption.isSome = false := by
  refine ⟨⟨ok_of ?_, ?_⟩, ⟨ok_of ?_, ?_⟩, ⟨ok_of ?_, ?_⟩, ⟨ok_of ?_, ?_⟩, ?_⟩ <;>
    first | decide +kernel | (unfold Hart.FullV; decide +kernel)

/-- A mailbox of two slots at the start of the scratchpad; slot 1 holds a fresh residual. -/
def mailed : State := lab.withMailbox 0 fun m =>
  { m with base := 0x8000000000, shadows := [{}, { seq := 4, res := 0x3f800000, fresh := true, valid := true }], position := 1 }

theorem witness_mailboxResults : mailed.cur.FullX [1, 31, 0, regPlus 0 1] ∧ mailed.GroupReady 5 5 ∧ mailed.GroupReady 5 6 ∧
    field ((lx mailed 2 0x0000050300000000).cur.readX 2) 40 24 = 5 ∧
    field (mailed.cur.readX 2) 40 24 = 0 ∧ field (mailed.cur.readX 3) 16 48 = 0 ∧
    mailed.targetCore 0 (mailed.cur.readX 0 &&& 0xffffffff) false = .ok (.some 0) ∧ mailed.sendRoom 0 = true ∧
    mailed.pollPending = false ∧ (mailed.withMailbox 0 fun m => { m with polls := [⟨0, .scalar 3, 0, false, 0⟩] }).pollPending = true ∧ ((mailed.coreOf 0).mailbox.choose mailed.cur.threshold mailed.cur.roundRobin) = .some 1 ∧
    ((lab.coreOf 0).mailbox.choose lab.cur.threshold lab.cur.roundRobin) = .none ∧
    (mailed.cur.readX 1).toNat < (mailed.coreOf 0).mailbox.count ∧ (mailed.coreOf 0).mailbox.count ≤ (mailed.cur.readX 2).toNat ∧
    (lx mailed 4 (BitVec.ofNat 64 (2 ^ 64 - 128))).scratchAddress 128 ((lx mailed 4 (BitVec.ofNat 64 (2 ^ 64 - 128))).cur.readX 4 +
      (0#11).signExtend 64 * 16) .read false = .ok 0x80000fff80 ∧
    (lx mailed 4 (BitVec.ofNat 64 (2 ^ 64 - 128))).GroupReady 5 6 ∧ (mailed.coreOf 0).storePending 0 0x80000fff80 96 = false ∧
    (mailed.coreOf 0).acquiring 0 = false ∧ scratchCluster 0x80000fff80 = clusterOf 0 ∧ scratchCluster 0x8000100080 ≠ clusterOf 0 ∧
    ([0, 32, 64].any fun k => mailed.poisoned (0x80000fff80 + k)) = false := by
  and_intros <;> first
    | exact ok_of (by decide +kernel) | (unfold Hart.FullX; decide +kernel) | decide +kernel | (unfold Hart.FullV; decide +kernel)

/-- The most slots of a mailbox that R265 takes, in the lower part of the scratchpad; a base that is no block boundary; a message
for the last slot, and one past it. -/
theorem witness_mailboxEvents :
    let s := mailed.withHart (.core 0 1) fun h => { h with life := .live, wait := .mailbox (BitVec.ofNat 64 (2 ^ 64 - 2 ^ 20)) 256 0 3 }
    (s.hartOf (.core 0 1)).wait = .mailbox (BitVec.ofNat 64 (2 ^ 64 - 2 ^ 20)) 256 0 3 ∧
    s.mailboxBase 0 (BitVec.ofNat 64 (2 ^ 64 - 2 ^ 20)) = .some 0x8000000000 ∧ 0x8000000000 % 128 = 0 ∧
    (s.ownSpace 0).1 ≤ 0x8000000000 ∧ 0x8000000000 + 128 * 256 ≤ (s.ownSpace 0).2 ∧ s.mailboxBase 0 8 = .none ∧
    (let g : GbMessage := ⟨0, 0, 0, 1, 9, 0x3c00, 4, 0, Vector.replicate 4 0, .some 0, []⟩
     let t : State := { mailed with sends := [g, { g with index := 2 }] }
     (t.sends.filter fun m => clusterOf m.core == 0)[0]? = .some g ∧ g.accepted.isSome = true ∧ t.deliveredAfter g = false ∧
     mailed.deliveryOpen 0 = false ∧ t.deliveryOpen 0 = true ∧ g.beta < 2 ^ 16 ∧ g.edge < 2 ^ 16 ∧ g.dim ≤ 4 ∧
     ({ t with sends := [{ g with accepted := .some 5 }, g] } : State).deliveredAfter { g with accepted := .some 5 } = true ∧
 g.index < (t.coreOf 0).mailbox.count ∧
     (t.coreOf 0).mailbox.polls = [] ∧ (t.coreOf 0).mailbox.count ≤ 2 ∧ (t.coreOf 0).mailbox.sync = .none) := by decide +kernel

/-- Bank 0 of cluster 0 holds the lease, with units to spare; a descriptor set of a product of depth 64. -/
def leased : State :=
  let s : State := { lab with cur := { lab.cur with desc := (Vector.replicate 16 0).set 13 64 } }
  s.withArray 0 fun a => { a.withBank 0 (fun k => { k with lease := 2, left := 4 }) with holder := .some 0, grants := 1 }

/-- The other bank of the cluster belongs to another partition, which waits for the lease. -/
def rivalled : State :=
  let q : Partition := { id := 2, launch := 4, ctx := 6, tenant := 8, state := .running, groups := [⟨0, 0, 2⟩], gw := 1, gh := 1
                         stopScope := 0, seed := 1, priority := 0, weight := 1 }
  let s : State := { leased with parts := lab.parts.map (fun p => { p with groups := [⟨0, 0, 1⟩] }) ++ [q] }
  let s := s.withCore 64 fun k => { k with part := .some 2 }
  let s := s.withBank 0 1 fun k => { k with lease := 1 }
  s.withHart (.core 64 0) fun h => { h with life := .live, wait := .lease 3 }

theorem witness_leaseResults : lab.cur.FullX [1, 2, 3] ∧ (leased.bank 0 (leased.bankOf 0)).lease = 2 ∧
    (lab.bank 0 (lab.bankOf 0)).lease ≠ 2 ∧ (lab.arrayOf 0).holder = .none ∧ (lab.arrayOf 0).ending = .none ∧
    (lab.arrayOf 0).cellsFree = true ∧ lab.competes 0 1 = false ∧ rivalled.competes 0 1 = true ∧
    (leased.bank 0 0).computing = false ∧
    ((leased.withBank 0 0 fun k => { k with queue := [leased.newCommand (.compute 0) 0 1 0 .plain k] }).bank 0 0).computing = true := by
  refine ⟨by unfold Hart.FullX; decide +kernel, ?_⟩; decide +kernel

/-- A product, a modular product of moduli at the least value, a drain, and a suspended command that may resume. -/
theorem witness_matrixIssued : leased.mayIssue .vector = .ok () ∧
    leased.cur.prefixFields matrixDefault (Prefix.product false) = .ok matrixDefault ∧
    (leased.newCommand (.compute 0) 3 1 0 .plain (leased.bank 0 0)).checkCompute = .ok () ∧
    (leased.newCommand (.compute 3) 3 1 0 (.modular 3) (leased.bank 0 0)).checkModular .zero = .ok () ∧
    ({ leased.cur with sys := { leased.cur.sys with modq := 3 } } : Hart).modulus = .ok 3 ∧
    leased.syncArgument 0 (matrixBad 0) = .ok .none ∧ (leased.bank 0 0).lease ≠ 0 ∧ (lab.bank 0 0).lease = 0 ∧
    (leased.bank 0 0).queue.length < 16 ∧ goodControl (leased.cur.readX 9) = true ∧
    (leased.newCommand .drain 3 1 0 .plain (leased.bank 0 0)).checkShape = .ok () ∧
    leased.cur.readX 3 &&& ~~~0x103#64 = 0 ∧
    (let c : MatrixCommand := { leased.newCommand (.compute 0) 3 1 0 .plain (leased.bank 0 0) with suspended := true }
     c.canResume 0 0 = true) := by
  refine ⟨ok_of ?_, ok_of ?_, ok_of ?_, ok_of ?_, ok_of ?_, ok_of ?_, ?_, ?_, ?_, ?_, ok_of ?_, ?_⟩ <;> decide +kernel

/-- A queued command of each kind, a finished one, a failed one, and drains that have written all they have. -/
def queued (s : State) (f : MatrixCommand → MatrixCommand) : State :=
  s.withBank 0 0 fun k => { k with queue := [f (s.newCommand (.compute 0) 0 1 0 .plain k)] }

theorem witness_matrixEvents : (∃ c, (queued leased id).commandAt 0 0 0 = .some c ∧ c.running = false ∧ c.suspended = false ∧
      (queued leased id).commandLive c = true ∧ c.isCompute = true ∧ ((queued leased id).arrayOf 0).holder = .some 0 ∧
      ((queued leased id).arrayOf 0).cellsFree = true ∧ ((queued leased id).bank 0 0).tileClear c = true ∧
      (((queued leased id).bank 0 0).nextCompute.map (·.id)) = .some c.id ∧ 1 < ((queued leased id).bank 0 0).left ∧
      c.charged ≠ .some ((queued leased id).arrayOf 0).grants) ∧
    (let s := queued leased fun c => { c with op := .zero }
     ∃ c, s.commandAt 0 0 0 = .some c ∧ c.op = .zero ∧ s.commandLive c = true ∧ (s.bank 0 0).tileClear c = true ∧
      ((s.bank 0 0).nextPort.map (·.id)) = .some c.id) ∧
    (let s := queued leased fun c => { c with running := true, finished := true }
     ∃ c, s.commandAt 0 0 0 = .some c ∧ c.isCompute = true ∧ c.running = true ∧ c.finished = true) ∧
    (let s := queued leased fun c => { c with running := true, failed := .some (2, 64, .poison) }
     ∃ c, s.commandAt 0 0 0 = .some c ∧ c.finished = false ∧ c.failed = .some (2, 64, .poison)) ∧
    (let s := queued leased fun c => { c with op := .drain, running := true, put := List.range 5000 }
     ∃ c, s.commandAt 0 0 0 = .some c ∧ c.drainPieces.length ≤ c.put.length ∧ c.control.getLsbD 8 = false) := by
  refine ⟨⟨_, rfl, ?_⟩, ⟨_, rfl, ?_⟩, ⟨_, rfl, ?_⟩, ⟨_, rfl, ?_⟩, ⟨_, rfl, ?_⟩⟩ <;> decide +kernel

/-- One bank alone competes for a lease nobody holds; a holder at its time limit, and an idle one, while the other competes. -/
theorem witness_leaseEvents :
    (let s := rivalled.withArray 0 fun a => { a with holder := .none }
     [0, 1].filter (s.competes 0) = [1] ∧ (s.arrayOf 0).holder = .none) ∧
    (rivalled.arrayOf 0).holder = .some 0 ∧ rivalled.competes 0 (1 - 0) = true ∧
    (rivalled.arrayOf 0).grantedAt + (rivalled.arrayOf 0).limit ≤ rivalled.bankCycles 0 0 ∧
    (let s : State := { rivalled with parts := rivalled.parts.map fun p => { p with mTicks := 64 * 1024 } }
     0 + 1024 ≤ s.bankCycles 0 0) := by decide +kernel

/-- PP 0 runs a handler of the library protocol 0 for a request of core 0, whose block is busy. -/
def ppMsg : PpMsg := plainMsg 0 64 (agentOfCore 0 5) (plainRegion 5 64)

def ppLab : State :=
  { lab with
    harts := [lab.cur]
    cur := { who := .pp 0 0, life := .live, pc := 0x40, x := lab.cur.x, handler := .some ⟨ppMsg, 0, 0, false, false, false, false, 0⟩ }
    pps := [{ id := 0, busy := [⟨96, 0, false, [], false, 5, 0, 0, 0⟩] }] }

theorem witness_handlerResults : ppLab.mayIssue .handler = .ok () ∧ ppLab.cur.FullX [1, 2, regPlus 2 1, 0] ∧
    ppLab.blockOperand (ppLab.cur.readX 2) = .ok 0 ∧ ppLab.cur.ctxOfHandler.replies < 32 ∧
    agentNo (ppLab.cur.readX 0) / 2 ^ 14 < 3 ∧ ppLab.cur.readX 0 = 0 ∧ (ppLab.dirSetOf 0 0).length < 16 ∧
    ((ppLab.ppOf 0).busyOf 96).isSome = true ∧ (ppLab.ppOf 0).busyOf 0 = .none ∧ (2#5).getLsbD 0 = false ∧
    ppLab.moveEnd (ppLab.cur.readX 0) 0 = .ok (false, 0) ∧ (ppLab.ppOf 0).move = .none ∧ ppLab.cur.ctxOfHandler.ownBusy = false ∧
    (lx (lx ppLab 4 (2#64 ^ 63)) 5 65536).moveEnd (2#64 ^ 63) 65536 = .ok (true, 0) := by
  refine ⟨ok_of ?_, ?_, ok_of ?_, ?_, ?_, ?_, ?_, ?_, ?_, ?_, ok_of ?_, ?_, ?_, ok_of ?_⟩ <;>
    first | decide +kernel | (unfold Hart.FullX; decide +kernel)

/-- A request, a grant to a core, a message to the PP at a die port; and the last word of data memory. -/
theorem witness_handlerSends : ppLab.mayIssue .both = .ok () ∧ ppLab.cur.who.isPp = true ∧ ppLab.cur.FullX [1, 0, 2, regPlus 2 1] ∧
    ppLab.cur.ctxOfHandler.lane = 0 ∧ ppLab.cur.ctxOfHandler.sentReq = false ∧ (ppLab.cur.readX 2).toNat ≤ 2 ∧
    ppLab.forwardPp 0 { ppLab.cur.ctxOfHandler.msg with home := 1 } = .some (homePp 0) ∧
    (ppLab.ppOf (homePp 0)).fwdQueue.length < 64 ∧ agentAt 0 (agentNo (BitVec.ofNat 64 (3 * 2 ^ 14 + 32))) = .pp 32 ∧
    replyReserved 2 = false ∧ replyTag 2 ≠ 3 ∧ replyType 2 = 0 ∧ (∀ q, agentAt 0 (agentNo 0) ≠ .pp q) ∧
    replyReserved 0x1000 = false ∧ 16 ≤ replyType 0x1000 ∧
    handlerAddress (ppLab.ppOf 0) ppLab.handlerMsg (2 ^ 63 + 2 ^ 18 - 8) 8 = .ok (true, 2 ^ 18 - 8) ∧
    handlerAddress (ppLab.ppOf 0) ppLab.handlerMsg 0 8 = .ok (false, 0) := by
  refine ⟨ok_of ?_, ?_, ?_, ?_, ?_, ?_, ?_, ?_, ?_, ?_, ?_, ?_, ?_, ?_, ?_, ok_of ?_, ok_of ?_⟩ <;>
    first | decide +kernel | (unfold Hart.FullX; decide +kernel) | (intro q h; cases h)

/-- A PP with a free thread and a request of each lane; a busy block whose acknowledgements have all come; a transfer into data
memory; and a handler at its last step. -/
def serving : State :=
  let q : Pp := { id := 0 }
  { lab with pps := [{ q with
      reqQueue := [ppMsg, { ppMsg with block := 96 }]
      busy := [⟨96, 0, true, [], false, 5, 0, 0, 0⟩]
      move := .some ⟨0, 0, false, true, 32, 32, 64, 5, 0, 0⟩ }] }

theorem witness_handlerEvents : serving.threadFree 0 7 = true ∧ serving.threadFree 0 0 = true ∧
    (serving.hartOf (.pp 0 0)).who = .pp 0 0 ∧ serving.nextMessage 0 0 = .some (0, 0, ppMsg) ∧ ppMsg.type = 0 ∧
    serving.summary 0 64 ≠ 3 ∧ (serving.setHome ⟨64, 3, 0, 5, 0, 0, 0, .none⟩).summary 0 64 = 3 ∧ isProxy 0 = false ∧
    (serving.ppOf 0).faulted ppMsg = false ∧ ((serving.ppOf 0).entryFor ppMsg).isSome = true ∧
    ((serving.ppOf 0).entryFor { ppMsg with proto := 9 }) = .none ∧
    (serving.ppOf 0).busy.find? (fun b => b.any && b.count == 0 && !serving.handlerRuns 0 b.block) =
      .some ⟨96, 0, true, [], false, 5, 0, 0, 0⟩ ∧
    ((serving.ppOf 0).entryFor { plainMsg 6 96 0 (plainRegion 5 96) with proto := 0, reply := true }).isSome = true ∧
    (serving.ppOf 0).reqQueue.findIdx? (fun m => ((serving.ppOf 0).busyOf m.block).isSome) = .some 1 ∧
    (∃ m, (serving.ppOf 0).move = .some m ∧ m.dstLocal = true ∧ m.srcLocal = false) ∧
    (let s : State := { ppLab with cur := ppLab.cur.setHandler fun k => { k with steps := 256 } }
     (s.hartOf (.pp 0 0)).life = .live ∧ 256 ≤ (s.hartOf (.pp 0 0)).ctxOfHandler.steps) := by
  refine ⟨?_, ?_, ?_, ?_, ?_, ?_, ?_, ?_, ?_, ?_, ?_, ?_, ?_, ?_, ⟨_, rfl, ?_⟩, ?_⟩ <;> decide +kernel

theorem witness_collect : serving.collect 0 = serving := by decide +kernel

/-- Each kind of message at the head of the network; a request that a grant answers; an atomic performed; a window due. -/
def arriving : State :=
  let s := lab.withCore 0 fun k => { k with
    requests := [{ rtag := 5, block := 64, type := 0, slotUsed := true, prefetch := false, retry := .none, region := plainRegion 5 64
                   va := 64, size := 8 }]
    atomics := [⟨2, lab.loadAccess ⟨24, 24, false⟩ 8 false, .scalar 3, .none, .some 9, 0⟩] }
  { s with
    net := [.tagChange 0 0 0 0 true (plainRegion 5 0) 0, .tagAck 0 0 96 true .none 0, .grant 1 (agentOfCore 0 5) 64 2 false 7 0,
      .release 2 (agentOfCore 0 5) 64, .refuse 3 (agentOfCore 0 5) 64 9 5, .refusePp 4 0 64 9, .tagChange 5 0x8007 64 0 true (plainRegion 5 64) 0,
      .grant 6 (agentOfCore 0 5) 64 0 true 7 0, .grant 7 (agentOfCore 0 6) 64 2 false 7 0, .resume 8 (agentOfCore 0 5) 64]
    windows := [⟨0, 0, 1, 0, false, 7⟩, ⟨0, 1, 1, 0, true, 7⟩]
    nTicks := Vector.replicate 4 (64 * 8) }

theorem witness_cacheEvents : (∀ k < 10, ∃ m s, arriving.takeNet k = .some (m, s) ∧ arriving.net[k]? = .some m) ∧
    agentAt 0 0 = .core 0 ∧ (arriving.coreOf 0).line? 0 = .some line0 ∧ agentNo (agentOfCore 0 5) = 0 ∧
    (arriving.coreOf 0).request? (rtagOf (agentOfCore 0 5)) ≠ .none ∧ (arriving.coreOf 0).line? 64 = .none ∧
    (arriving.coreOf 0).request? (rtagOf (agentOfCore 0 6)) = .none ∧ (arriving.coreOf 0).engine = [] ∧
    agentAt 5 0x8007 = .peer 7 ∧ ((arriving.coreOf 0).atomics.find? fun a => a.slot == 2).isSome = true ∧
    (∃ w, arriving.windows[0]? = .some w ∧ w.inFlight = false ∧ w.openedAt + 8 ≤ arriving.nCycles (w.holder / 2)) ∧
    (∃ w, arriving.windows[1]? = .some w ∧ w.inFlight = true) := by
  refine ⟨?_, ?_, ?_, ?_, ?_, ?_, ?_, ?_, ?_, ?_, ⟨_, rfl, ?_⟩, ⟨_, rfl, ?_⟩⟩
  · intro k h
    match k, h with
    | 0, _ | 1, _ | 2, _ | 3, _ | 4, _ | 5, _ | 6, _ | 7, _ | 8, _ | 9, _ => exact ⟨_, _, rfl, rfl⟩
  all_goals decide +kernel

/-- A package that can be reached, and one that cannot; a change whose acknowledgement is counted. -/
theorem witness_peerAck :
    ({ arriving with fabric := { arriving.fabric with map := { extents := #v[2, 1, 1, 1] } } } : State).reachable 1 false = true ∧
    arriving.reachable 7 false = false ∧ (arriving.ppOf 5).busyOf 64 = .none ∧
    (((arriving.withPp 5 fun q => { q with busy := [⟨64, 1, true, [], false, 5, 0, 0, 0⟩] }).ppOf 5).busyOf 64).isSome = true := by
  decide +kernel

/-- A load and a store to package 1, with and without a way there; walks for a page that has no entry and for one that has. -/
def remote : State :=
  let s := lab.withCore 0 fun k => { k with
    loads := [⟨0, .scalar 3, true, [(lab.loadAccess ⟨0, 0x8008000000000, false⟩ 8 false, .none)], .some 4, 0, false, false⟩] }
  { s with time := 2 ^ 20 }

def mapped : FabricMap := { extents := #v[2, 1, 1, 1] }

theorem witness_remoteEvents : (∃ op, (remote.remoteOps 0)[0]? = .some (op, 0)) ∧
    remote.reachable (peerPkg 0x8008000000000) false = false ∧
    ({ remote with fabric := { remote.fabric with map := mapped } } : State).reachable (peerPkg 0x8008000000000) false = true ∧
    remote.suspended (remote.portFrom 0 0x8008000000000) = false ∧ remote.canReach 0 0x8008000000000 = false ∧
    ({ remote with fabric := { remote.fabric with map := mapped } } : State).canReach 0 0x8008000000000 = true ∧ 0 + 2 ^ 20 ≤ remote.time ∧
    ({ remote with parts := [] } : State).partOfCore 0 = .none := by
  refine ⟨⟨_, rfl⟩, ?_⟩; decide +kernel

def walking (m : List Host.Cell) : State :=
  { lab with
    cur := { lab.cur with wait := .walk 0x10000 .read }
    mem := m
    ctxs := lab.ctxs.map fun c => { c with root := 0x20000 }
    walks := [⟨0, 0, 5, 0x10000, 0⟩] }

/-- Three levels of tables whose third entry of the last maps the page, readable at U. -/
def tables : List Host.Cell :=
  writeBytes (writeBytes (writeBytes [] 0x20000 8 0x30001) 0x30000 8 0x40001) 0x40008 8 0x5000f

theorem witness_pageWalk : (∃ w c, (walking []).walks[0]? = .some w ∧ (walking []).ctxOf? w.ctx = .some c ∧
      (walking []).walkOf w (walking []).cur = .some (0x10000, .read) ∧ (walking []).walkRuns 0 w = true ∧ (walking []).harts = [] ∧
      (walkTables (fun a => (walking []).coherentRead a 8) c.root.toNat w.va).toOption = .none) ∧
    ∃ w c l, (walking tables).walks[0]? = .some w ∧ (walking tables).ctxOf? w.ctx = .some c ∧
      (walking tables).walkOf w (walking tables).cur = .some (0x10000, .read) ∧ (walking tables).walkRuns 0 w = true ∧
      walkTables (fun a => (walking tables).coherentRead a 8) c.root.toNat w.va = .ok l ∧
      rightsCover l.entry .read (walking tables).cur.user = true ∧ l.large = false := by
  refine ⟨⟨_, _, rfl, rfl, ?_⟩, ⟨_, _, ⟨0x40008, 0x5000f, false⟩, rfl, rfl, ?_, ?_, ok_of ?_, ?_⟩⟩
  all_goals decide +kernel

/-- At S, with the tables of the context, whose page at 0x10000 is the one at 0x50000. -/
def hosted : State :=
  { atS lab with
    mem := tables
    ctxs := lab.ctxs.map fun c => { c with root := 0x20000 } }

def asCtx (s : State) (f : Ctx → Ctx) : State := { s with ctxs := s.ctxs.map f }

theorem witness_contextResults : hosted.cur.user = false ∧ hosted.cur.FullX [1, 5, 2, regPlus 2 1] ∧
    hosted.mayIssue .coreOnly = .ok () :=
  ⟨by decide +kernel, by unfold Hart.FullX; decide +kernel, ok_of (by decide +kernel)⟩

theorem witness_gswitch : ((hosted.ctxOf? 5).any fun c => hosted.mayName c && c.resident) = true ∧ hosted.ctxOf? 6 = .none ∧
    hosted.badImage hosted.ownCtx 1 = true ∧ hosted.badImage hosted.ownCtx 0x10000 = false ∧
    (((asCtx hosted fun k => { k with state := .free }).ctxOf? 5).any fun c => !c.resident) = true := by decide +kernel

/-- A stopped context whose partition is still, an operation of the thread's own, and a page that holds no header. -/
theorem witness_ctxsave :
    let s := asCtx hosted fun k => { k with state := .stop }
    let o : CtxOp := ⟨0, .some (.core 0 0), 0x10000, 5, 0, 0, 0, false⟩
    ((s.ctxOf? 5).any fun c => c.state == .stop && c.op.isNone) = true ∧ ((s.partOfCtx 5).any s.still) = true ∧
    s.opMine o 0 0x10000 = true ∧ o.paused = false := by decide +kernel

/-- A saved context whose page holds no header, and one with an operation of the thread's own. -/
theorem witness_ctxload :
    (let s := asCtx hosted fun k => { k with state := .saved }
     ((s.ctxOf? 5).any fun c => c.state == .saved && (s.checkHeader c (fun s va => s.imagePage 5 va .read) 0x20000).2.1 == 7) = true) ∧
    (let o : CtxOp := ⟨1, .some (.core 0 0), 0x10000, 5, 0, 0, 0, false⟩
     let s := asCtx hosted fun k => { k with state := .saved, op := .some o }
     s.opMine o 1 0x10000 = true ∧ ((s.ctxOf? 5).any fun c => c.op == .some o && !o.paused) = true) := by decide +kernel

/-- Another tenant's context. -/
theorem witness_contextTenants :
    let s : State := { hosted with ctxs := hosted.ctxs ++ [{ num := 6, tenant := 8, key := 0 }] }
    ∃ c, s.ctxOf? 6 = .some c ∧ s.mayName c = false := ⟨_, rfl, by decide +kernel⟩

/-- A switch asked for, one agreed whose time has come, one whose time has not; a stopped partition that is still; an image to
restore; and an operation of a guest's context. -/
def switching (plan : Option SwitchPlan) (st : CtxState) (op : Option CtxOp) (ps : PartState) : State :=
  { asCtx hosted fun k => { k with plan := plan, state := st, op := op, vf := .some 3 } with
    switches := [⟨5, 9, 0x10000, 5⟩], parts := hosted.parts.map fun p => { p with state := ps }
    images := hosted.ctxs.flatMap fun c => hosted.parts.map fun p => ⟨0, 5, 1, 0, 0, 0, ⟨p, c, [], [], [], [], [], []⟩⟩ }

theorem witness_contextEvents :
    (let s := switching .none .running .none .running
     ∃ c p, s.ctxOf? 5 = .some c ∧ s.partOfCtx 5 = .some p ∧ p.state = .running ∧ s.switches[0]? = .some ⟨5, 9, 0x10000, 5⟩) ∧
    (let s := switching (.some ⟨5, 0, 0x10000, 5⟩) .agreed .none .running
     ∃ c p, s.ctxOf? 5 = .some c ∧ s.partOfCtx 5 = .some p ∧ c.plan = .some ⟨5, 0, 0x10000, 5⟩ ∧ 0 ≤ s.time ∧ p.state = .running) ∧
    (let s := switching (.some ⟨5, 1, 0x10000, 5⟩) .agreed .none .running
     ∃ c, s.ctxOf? 5 = .some c ∧ c.plan = .some ⟨5, 1, 0x10000, 5⟩ ∧ s.time < 1) ∧
    (let s := switching (.some ⟨5, 0, 0x10000, 5⟩) .saving (.some ⟨2, .none, 0x10000, 5, 0, 0, 0, false⟩) .saving
     ∃ c p, s.ctxOf? 5 = .some c ∧ s.partOfCtx 5 = .some p ∧ c.plan = .some ⟨5, 0, 0x10000, 5⟩ ∧ p.state = .saving ∧
      s.still p = true ∧ c.op = .some ⟨2, .none, 0x10000, 5, 0, 0, 0, false⟩) ∧
    (let s := switching .none .restoring (.some ⟨1, .none, 0x10000, 5, 0, 0, 0, false⟩) .loading
     ∃ c p i, s.ctxOf? 5 = .some c ∧ s.partOfCtx 5 = .some p ∧ c.state = .restoring ∧ p.state = .loading ∧ s.imageOf c = .some i ∧
      c.vf = .some 3 ∧ s.ctxOf? 5 = .some c) := by
  refine ⟨⟨_, _, rfl, rfl, rfl, rfl⟩, ⟨_, _, rfl, rfl, rfl, Nat.zero_le _, rfl⟩, ⟨_, rfl, rfl, by decide +kernel⟩,
    ⟨_, _, rfl, rfl, rfl, rfl, by decide +kernel, rfl⟩, ⟨_, _, _, rfl, rfl, rfl, rfl, rfl, rfl, rfl⟩⟩

/-- An accepted launch of one cluster, in a given state. -/
def launchOf5 (num : Nat) (st : LaunchState) : Launch :=
  { num := num
    record := { tenant := 7, ctx := 9, prio := 0, pwt := 1, mode := 0, stop := 0, clk := Vector.replicate 4 0, lmax := 0, ltim := 0
                lwt := 1, key := 0, seed := 1, image := 0, args := 0, argsz := 0, done := 0, rgn := 0, root := 0, tbase := 0, errq := 0
                pol := 0, pold := 0, unit := 1, gw := 1, gh := 1, gn := 1, dies := 0, fidx := 0, fcnt := 0, ftab := 0, stk := 0, stksz := 0
                cdp := 0, levels := Vector.replicate 8 ⟨false, false, 1, 1⟩ }
    image := ⟨[], [], [], [], 0⟩, regions := [], prio := 0, weight := 1, via := 5, arrived := 0, state := st }

theorem witness_launchResults : hosted.cur.FullX [1, 0] ∧ hosted.quiet (.core 0 0) 7 = true ∧
    ((List.range 8).mapM (fun (i : Nat) => hosted.translate (hosted.cur.readX 0 + BitVec.ofNat 64 (64 * i)) 64 .read)).toOption.isSome =
      true ∧
    hosted.launchRec 0 = .none ∧ (((hosted.ctxOfCore 0).map (·.tenant)).getD 0 = 7) ∧
    (let s : State := { hosted with dist := { hosted.dist with launches := [launchOf5 4 .queued], queue := [.launch 4] } }
     (∃ l, s.launchRec 4 = .some l ∧ l.record.tenant = 7 ∧ l.state = .queued) ∧ s.dist.placing = .none ∧
      s.reservedLaunch.isNone = true ∧ s.heads = [.launch 4]) := by
  refine ⟨?_, ?_, ?_, ?_, ?_, ⟨⟨_, rfl, ?_⟩, ?_, ?_, ?_⟩⟩ <;> first | decide +kernel | rfl | (unfold Hart.FullX; decide +kernel)

/-- A running launch of the tenant that no one has cancelled, and one that the executing thread cancelled and that has ended. -/
theorem witness_lcancel :
    (let s : State := { hosted with dist := { hosted.dist with launches := [launchOf5 3 .running] } }
     ∃ l p, s.launchRec 3 = .some l ∧ l.record.tenant = 7 ∧ l.state = .running ∧ l.cancelled = false ∧
      s.ctxOf? l.record.ctx = .none ∧ s.parts.find? (fun p => p.launch == l.num) = .some p ∧ p.state ≠ .saving) ∧
    (let s : State := { hosted with dist := { hosted.dist with launches := [{ launchOf5 3 (.ended 2) with cancellers := [.core 0 0] }] } }
     ∃ l, s.launchRec 3 = .some l ∧ l.state = .ended 2 ∧ hosted.cur.who ∈ l.cancellers) := by
  refine ⟨⟨_, _, rfl, rfl, rfl, rfl, ?_, rfl, ?_⟩, ⟨_, rfl, rfl, ?_⟩⟩ <;> decide +kernel

/-- The launch of the running partition: it runs, with every slot vacant and with the partition stopped; and it loads. -/
theorem witness_launchEvents :
    (let s : State := { lab with cur := { lab.cur with life := .vacant }, dist := { lab.dist with launches := [launchOf5 3 .running] } }
     ∃ l p, s.launchRec 3 = .some l ∧ s.parts.find? (fun p => p.launch == 3) = .some p ∧ l.state = .running ∧ p.state = .running ∧
      s.partDone p = true) ∧
    (let s : State := { lab with parts := lab.parts.map (fun p => { p with state := .stopped }),
                                 dist := { lab.dist with launches := [launchOf5 3 .running] } }
     ∃ l p, s.launchRec 3 = .some l ∧ s.parts.find? (fun p => p.launch == 3) = .some p ∧ p.state = .stopped ∧ l.cancelled = false) ∧
    (let s : State := { lab with parts := lab.parts.map (fun p => { p with state := .loading }),
                                 dist := { lab.dist with launches := [launchOf5 3 .loading] } }
     ∃ l p, s.launchRec 3 = .some l ∧ s.parts.find? (fun p => p.launch == 3 && p.state == .loading) = .some p ∧
      (s.ctxOf? l.record.ctx).bind (s.loadParts l p) = .none) := by
  refine ⟨⟨_, _, rfl, rfl, rfl, rfl, by decide +kernel⟩, ⟨_, _, rfl, rfl, rfl, rfl⟩, ⟨_, _, rfl, rfl, rfl⟩⟩

/-- The package's operator runs queue 15 of the physical function in memory of context 5: windows of 4096 bytes from the
first mapped page on. -/
def queueing : State :=
  let q : HostQueue := { fn := 0, num := 15, enable := true, st := 1, ctx := 5, lgn := 1, plen := 1, ring := 0x10000, prog := 0x10000
                         active := true, win := Vector.replicate 4 (0x10000, 4096) }
  { hosted.setQueue q with host := { (hosted.setQueue q).host with current := .some 15 } }

theorem witness_queueOps : (queueing.running?.any fun q => q.range 3 4088 8 == .some (false, 0x10ff8) &&
      (q.range 3 4089 8).isNone && (queueing.queueRead q false 0x10ff8 8).isSome && (queueing.queueRead q false 0 8).isNone &&
      (queueing.queueWrite q false 0x10ff8 (wordBytes 3)).isSome && (queueing.queueWrite q false 0 (wordBytes 3)).isNone &&
      q.range 0 0 512 == .some (false, 0x10000) && q.dmas.isEmpty && queueing.launchEnded q 1 == .some 0) = true := by
  decide +kernel

/-- The same with a launch record in scratchpad, which the policy lets the operator read. -/
def queueingScratch : State :=
  asCtx { queueing with host := { queueing.host with queues := queueing.host.queues.map fun q =>
            { q with win := Vector.replicate 4 (0xfffffff000000000, 4096) } } }
    fun c => { c with policy := { classes := List.replicate 16 (3, 0) } }

theorem witness_queueLaunch : (queueingScratch.running?.any fun q => q.range 0 0 512 == .some (false, 0xfffffff000000000) &&
      (queueingScratch.queueRead q false 0xfffffff000000000 512).isSome) = true := by
  decide +kernel

theorem witness_queueEvents : ((queueing.queue? 0 15).any fun q => q.enable && q.active) = true ∧
    ((queueing.queue? 64 15).any fun q => !q.enable && !q.formed) = true ∧
    (let s := queueing.setQueue { queueing.queueAt 15 with enable := false }
     ((s.queue? 0 15).any fun q => !q.enable && q.formed && (s.queueRead q false 0x10000 4).isSome) = true) ∧
    (let s := queueing.setQueue { queueing.queueAt 15 with active := false, tail := 1 }
     let s : State := { s with host := { s.host with current := .none } }
     s.host.current = .none ∧ s.nextQueue = s.queue? 0 15 ∧ s.nextQueue.isSome = true) ∧
    (let s := queueing.setQueue { queueing.queueAt 15 with steps := 256, dmas := [⟨0x10000, false, 0x10020, false, 32, 0⟩] }
     ((s.queue? 0 15).any fun q => q.active && decide (256 ≤ q.steps) && s.host.current == .some q.key && q.dmas.length == 1 &&
      ((s.queueRead q false 0x10020 32).bind fun r => r.1.queueWrite q false 0x10000 r.2).isSome) = true) := by
  decide +kernel

/-- Function 64, the last, in each state of R351, of tenant 7 that has a session; with its running context, and with none. -/
def trusted (tdi : Tdi) : State := { lab with trust := { lab.trust with
  vfs := [{ num := 64, tenant := .some 7, tdi := tdi }], sessions := [.tenant 7], keys := [⟨0, 9, 1, 0⟩] } }

theorem witness_trustEvents : (1 ≤ 64 ∧ Party.tenant 7 ∈ (trusted .locked).trust.sessions ∧
      ((trusted .locked).vfOf 64).tenant = .some 7 ∧ ((trusted .locked).vfOf 64).tdi = .locked ∧
      ((trusted .run).vfOf 64).tdi = .run ∧ ((trusted .unlocked).vfOf 64).tdi = .unlocked) ∧
    ((trusted .run).ctxsOfVf 64).isEmpty = true ∧
    ((asCtx (trusted .run) fun c => { c with vf := .some 64 }).ctxsOfVf 64).length = 1 ∧
    ((asCtx (trusted .run) fun c => { c with vf := .some 64 }).partOfCtx 5).isSome = true ∧
    Party.operator ∉ (trusted .run).trust.sessions ∧ Party.tenant 8 ∉ (trusted .run).trust.sessions ∧
    (trusted .run).trust.signatures ≠ 0 ∧ (∃ k ∈ (trusted .run).trust.keys, k.slot = (0#8).toNat ∧ k.tenant ≠ 7) ∧
    ¬ (∃ k ∈ (trusted .run).trust.keys, k.slot = (1#8).toNat ∧ k.tenant ≠ 7) ∧ (trusted .run).slotInUse 1 = false ∧
    (asCtx (trusted .run) fun c => { c with key := 1 }).slotInUse 1 = true := by decide +kernel

theorem witness_trustLaunch : let s : State := { asCtx (trusted .run) (fun c => { c with vf := .some 64 }) with
      dist := { lab.dist with launches := [launchOf5 3 .running] } }
    ((s.ctxsOfVf 64).all fun c => (s.launchRec c.launch).isSome && c.state != .free) = true := by decide +kernel

/-- Links: one that is up, with a lane that is weak, with none, one and two lanes swapped, with a key fetched, out of keys, and
with a peer that froze; and one that is down. -/
def linked (l : Link) : State := { lab with fabric := { lab.fabric with links := [l] }, time := 10 ^ 10, nTicks := Vector.replicate 4 (2 ^ 22) }

theorem witness_linkEvents : (∀ i, i < 4 → 1 ≤ mapped.extents.getD i 0 ∧ mapped.extents.getD i 0 ≤ (if i < 2 then 4 else 16)) ∧
    mapped.self = lab.pkg ∧ mapped.self < 4096 ∧ (lab.residentTenants.map (slotMinimum mapped)).sum ≤ 512 ∧
    ((linked { port := 11 }).linkOf 11).down = false ∧ ((linked { port := 11, down := true }).linkOf 11).down = true ∧
    ((linked { port := 11, weak := .some 8 }).linkOf 11).weak = .some 8 ∧
    ((linked { port := 11 }).linkOf 11).weakAt + 2 ^ 16 ≤ (linked { port := 11 }).nCycles 3 ∧
    ((linked { port := 11, weakAt := 1 }).linkOf 11).weakAt + 2 ^ 16 > (linked { port := 11 }).nCycles 3 ∧
    ((linked { port := 11, swapped := [0] }).linkOf 11).swapped = [0] ∧
    2 ≤ ((linked { port := 11, swapped := [0, 8] }).linkOf 11).swapped.length ∧
    ((linked { port := 11, fetched := .some 5, slot := 1 }).linkOf 11).slot < 2 ∧
    ((linked { port := 11, exhausted := .some 0 }).linkOf 11).exhausted = .some 0 ∧ 0 + 10 ^ 7 ≤ (linked { port := 11 }).time ∧
    ((linked { port := 11, fails := 2 }).linkOf 11).fails = 2 ∧
    ((linked { port := 11, frozenAt := .some 0 }).linkOf 11).frozenAt = .some 0 ∧ 0 + 10 ^ 10 ≤ (linked { port := 11 }).time := by
  refine ⟨?_, ?_⟩
  · intro i h
    match i, h with
    | 0, _ | 1, _ | 2, _ | 3, _ => decide
  · decide +kernel

/-- Power, temperatures, bring-up and errors at the ends of their ranges. -/
def plantIs (f : Plant → Plant) : State := { lab with plant := f lab.plant }

theorem witness_plantEvents : lab.parts.length = 1 ∧ (∀ i : Fin 4, 8 ≤ (clkOf 0x08080808)[i]) ∧
    lab.time / 64000 ≤ lab.plant.boundary ∧ lab.plant.boundary < ({ lab with time := 64000 } : State).time / 64000 ∧
    ([106, 20].foldl max (0 : Int)) > 105 ∧ ([105].foldl max (0 : Int)) ≤ 105 ∧
    (plantIs fun p => { p with recovery := true }).plant.recovery = true ∧
    (plantIs fun p => { p with frozen := .some (10 ^ 10) }).plant.frozen = .some (10 ^ 10) ∧ lab.plant.frozen = .none ∧
    lab.plant.off = false ∧ lab.plant.recovery = false ∧ lab.plant.firmware.isNone = true := by decide +kernel

theorem witness_errors : let row := ErrLoc.dramRow 3 31 0 0
    let s := plantIs fun p => { p with errors := [⟨(errUnit row).1, row, 0, 3⟩], lasting := [row, .l2Way 0 0 0] }
    row ∉ s.plant.repaired ∧ row ∈ s.plant.lasting ∧ ErrLoc.l2Way 0 0 0 ∈ s.plant.lasting ∧
    s.plant.errors.find? (fun e => e.unit == (errUnit row).1 && e.loc == row) = .some ⟨(errUnit row).1, row, 0, 3⟩ ∧
    s.dCycles (errUnit row).2 < 0 + 2 ^ 30 ∧ (plantIs id).plant.errors.find? (fun e => e.loc == row) = .none := by decide +kernel

/-- Classes 0 to 3 at levels 0 to 3, and the debugger's class 14 open; a core that runs a thread, and one that runs none; a thread
that waits for each service, with arguments at the ends of their ranges. -/
def open14 : State := asCtx lab fun c => { c with policy := { classes := (List.range 16).map fun i => (i % 4, 10) } }

def closed : State := asCtx lab fun c => { c with policy := { classes := (List.range 16).map fun i => (if i = 14 then 3 else i % 4, 10) } }

def serviced (n : Nat) (x3 x4 x5 x6 : Word) : State :=
  lab.withHart (.core 0 1) fun h => { (((h.setX 3 x3).setX 4 x4).setX 5 x5).setX 6 x6 with life := .live, wait := .service n }

theorem witness_observeEvents : ((List.range 4).map fun i => (open14.policyOfCtx 5).level i) = [0, 1, 2, 3] ∧
    open14.time % 2 ^ (open14.policyOfCtx 5).param 2 = 0 ∧ lab.partOfCore 1 = .none ∧ (lab.partOfCore 0).isSome = true ∧
    lab.nextSlot 0 = .some 0 ∧ ({ lab with cur := { lab.cur with life := .vacant } } : State).nextSlot 0 = .none ∧
    lab.attached 0 0 = false ∧ (lab.withHart (.core 0 0) fun h => { h with debugger := true }).attached 0 0 = true ∧
    (lab.coreOf 0).gang = .none ∧ lab.cur.wait.restarts = true ∧ lab.cur.landed = .none ∧ Wait.restarts .outcome = false ∧ (closed.ctxOfCore 0).any (fun k => k.policy.level 14 == 3) = true ∧
    ((serviced 256 7 0 0 0).hartOf (.core 0 1)).wait = .service 256 ∧ (serviced 256 7 0 0 0).ownCore 0 0 = .some 0 ∧
    (serviced 256 7 0 1 0).ownCore 0 1 = .none ∧ ((serviced 258 5 0 0 0).hartOf (.core 0 1)).wait = .service 258 ∧
    ((serviced 259 0 0 15 0).hartOf (.core 0 1)).wait = .service 259 ∧
    ((serviced 259 0 0 15 0).withHart (.core 0 15) fun h => { h with life := .debug }).ownCore 0 0 = .some 0 := by decide +kernel

theorem witness_recordRing : let s : State := { serviced 257 1 0x10000 4096 0 with
      mem := tables, ctxs := lab.ctxs.map fun c => { c with root := 0x20000 } }
    (s.hartOf (.core 0 1)).wait = .service 257 ∧ ((s.ctxOfCore 0).any fun k => (s.hostPath k 0x10000 .write).isSome) = true ∧
    (s.partOfCore 0).isSome = true ∧ 0x10000 % 4096 = 0 := by decide +kernel

/-! ## Witnesses for encodings, issue and invariants -/

theorem witness_encodingUnique : (0xfffff0ff#32).getLsbD 0 = true ∧ (0x001c#16).getLsbD 0 = false ∧
    (decodeParcel 0x001c#16).toOption.isSome = true ∧ (decodeWord 0xa382e705#32).toOption.isSome = true := by decide +kernel

/-- Core 0 issues next, from 0x100, where a word stands; from the end of page 0, where a word begins whose other half faults. -/
def issuing (pc : Word) (w : Nat) : State :=
  { lab with
    cur := { lab.cur with pc := pc, walkFault := .some (pc.toNat + 2, .fetch, .page) }
    mem := writeBytes [] pc.toNat 4 w
    agenda := [.issue 0] }

theorem witness_stepRunsDecoded : (issuing 0x100 0xa382e705).alive = true ∧ (issuing 0x100 0xa382e705).nextSlot 0 = .some 0 ∧
    ((issuing 0x100 0xa382e705).coreOf 0).ganged = false ∧
    ((issuing 0x100 0xa382e705).issuing 0 0).nextWord.toOption = .some (0xa382e705, 4) ∧
    (decodeNext 0xa382e705 4).toOption.isSome = true ∧ (issuing 0x100 0xa382e705).fetchBreak = .none ∧
    (issuing 0x100 0xa382e705).cur.frame = [] ∧
    (issuing 0x100 0xa382e705).coherentRead 0x100 2 % 2 = 1 ∧ (issuing 0xfffe 0xe705).coherentRead 0xfffe 2 % 2 = 1 ∧
    isRemote 0 0x100 = false ∧ isEvent (.dramRefresh 0 0) = true ∧
    (issuing 0x100 0xa382e705).cachedParcel 0 0x100 = .none := by decide +kernel

theorem witness_fetchFaults : (issuing 0xfffe 0xe705).translate 0xfffe 2 .fetch = .ok ⟨0xfffe, 0xfffe, false⟩ ∧
    (issuing 0xfffe 0xe705).translate (0xfffe + 2) 2 .fetch = .error (.trap { cause := .pageFault, tval := 0x10000, fetch := true }) ∧
    (issuing 0x10000 0).translate 0x10000 2 .fetch = .error (.walk 0x10000 .fetch) ∧
    ({ issuing 0x10000 0 with cur := { lab.cur with pc := 0x10000, walkFault := .some (0x10000, .fetch, .page) } } : State).translate
      0x10000 2 .fetch = .error (.trap { cause := .pageFault, tval := 0x10000, fetch := true }) :=
  ⟨ok_of (by decide +kernel), error_of (by decide +kernel), error_of (by decide +kernel), error_of (by decide +kernel)⟩

/-- The command processor runs an op, and PP 0 a handler's word. -/
theorem witness_agents :
    (let s := queueing.setQueue { queueing.queueAt 15 with ops := [0x4ea229d1] }
     (s.running?.any fun q => decide (q.steps < 256) && q.ops[q.pc]? == .some 0x4ea229d1) = true ∧
      (decodeQueueOp 0x4ea229d1#32).toOption.isSome = true) ∧
    (let s : State := { ppLab with pps := [{ id := 0, imem := [] }] }
     s.alive = true ∧ s.nextHandler 0 = .some 0 ∧ s.cur.ctxOfHandler.steps < 256 ∧
      ((((s.withPp 0 fun q => { q with lastThread := 0 }).focus (.pp 0 0)).nextWord).toOption.any fun e =>
        (decodeNext e.1 e.2).toOption.isSome) = true) := by decide +kernel

theorem witness_illegalParcel : (0xffffffff#32).getLsbD 0 = true ∧ legalWord 0xffffffff = false ∧ legalParcel 0xffe0 = false ∧
    (issuing 0x100 0xffe0).translate 0x100 2 .fetch = .ok ⟨0x100, 0x100, false⟩ ∧
    (issuing 0x100 0xffe0).coherentRead 0x100 2 / 2 % 16 = 0 ∧ (issuing 0x100 0xffe0).poisoned 0x100 = false ∧
    (issuing 0x100 0xffe0).cachedParcel 0 0x100 = .none :=
  ⟨by decide +kernel, by decide +kernel, by decide +kernel, ok_of (by decide +kernel), by decide +kernel⟩

/-- A block of code that the instruction cache has taken keeps its bytes when memory changes (log 11). -/
theorem test_cached_code : (let s := (issuing 0x100 0xa382e705).codeFill 0 0x100
    (({ s with mem := [] } : State).cachedParcel 0 0x102, s.cachedParcel 0 0x120)) = (.some 0xa382, .none) := by decide +kernel

theorem witness_registerFrame : look (fun u => (u.cur.ended, u.cur.readX 3)) (exec (.add 3 1 2 false) lab) = .some (.done, 3) ∧
    ownWrites (.add 3 1 2 false) = .some ([3], []) := by decide +kernel

theorem witness_memoryFormKept : Memory.wf (issuing 0x100 0xa382e705).mem = true ∧
    (look (fun u => u.cur.pc) (step (issuing 0x100 0xa382e705))).isSome = true := by decide +kernel

/-! ## Further clauses of the statements -/

/-- A partition of which no switch is agreed, and one stopped before its agreed switch; an array list without any. -/
theorem witness_stopClauses : lab.switchedBefore 0 = false ∧ lab.arrays = [] ∧
    ({ asCtx lab (fun c => { c with plan := .some ⟨5, 3, 0x10000, 5⟩ }) with time := 4 } : State).switchedBefore 0 = true := by
  decide +kernel

/-- Entry 63 binds a region to protocol 1: a directory entry of it is to be recalled, and with none the scan is over at once. -/
def binding : State := asCtx (atS lab) fun c => { c with regions := c.regions.setIfInBounds 63 (0, 0x101) }

theorem witness_recall : let s : State := { binding with home := [⟨64, 1, 1, 5, 1, 0, 0, .none⟩] }
    (s.recallBinding 5 1).2 = false ∧ (binding.recallBinding 5 1).2 = true ∧ binding.boundEntries 5 1 = [] ∧
    ((binding.ctxOf? 5).any fun k => (k.regions.getD 63 (0, 0)).2.getLsbD 8 && binding.rgnStatus k 63 0 0 == 0) = true := by
  decide +kernel

/-- A delivery accepted in this N-cycle, and one accepted in an earlier one. -/
theorem witness_deliveryOrder :
    let g : GbMessage := ⟨0, 0, 0, 1, 9, 0x3c00, 4, 0, Vector.replicate 4 0, .some 0, []⟩
    let s : State := { mailed with sends := [g] }
    s.deliveryOpen 0 = true ∧ s.slotBusy 0x8000000080 = true ∧ mailed.slotBusy 0x8000000080 = false ∧ s.deliveryEarlier 0 = false ∧
    ({ s with nTicks := Vector.replicate 4 64 } : State).deliveryEarlier 0 = true ∧ mailed.deliveryEarlier 0 = false := by decide +kernel

/-- The bank releases a lease that the other bank's end had left ending; every thread of its cores answers to its own name. -/
theorem witness_leaseEnding :
    let s := (rivalled.withArray 0 fun a => { a with holder := .none, ending := .some 1 }).withBank 0 1 fun k => { k with lease := 2 }
    (s.bank 0 0).computing = false ∧ (s.arrayOf 0).holder = .none ∧ (s.arrayOf 0).ending = .some (1 - 0) ∧
    (s.bank 0 (1 - 0)).lease = 2 ∧
    (∀ m ∈ s.bankCores 0 1, ∀ j < (s.coreOf m).threads, (s.hartOf (.core m j)).who = .core m j) := by decide +kernel

/-- A full queue of commands, whose numbers differ; none of tile 1, and none of tile 0 that writes. -/
theorem witness_matrixQueue :
    let s := leased.withBank 0 0 fun k => { k with queue := (List.range 16).map fun i =>
      { leased.newCommand (.compute 0) 0 1 0 .plain k with id := i } }
    16 ≤ (s.bank 0 0).queue.length ∧ (∀ q ∈ (s.bank 0 0).queue, q.tile ≠ 1) ∧ ((s.bank 0 0).queue.map (·.id)).Nodup ∧
    (∀ q ∈ (s.bank 0 0).queue, q.tile = 0 → q.finished = false ∧ q.writing = false) ∧
    (∀ q ∈ (s.bank 0 0).queue, q.tile = 0 → q.suspended = false) := by decide +kernel

/-- The directory set of a block is full, and its entries' blocks are busy, or not; a handler that keeps its own block busy. -/
theorem witness_handlerClauses :
    let full := (List.range 16).map fun i => (⟨96 + 2 ^ 22 * (i + 1), 1, 1, 5, 0, 0, 0, .none⟩ : HomeBlock)
    let s : State := { ppLab with home := full }
    let b : State := { s with pps := [{ id := 0, busy := full.map fun e => ⟨e.block, 0, false, [], false, 5, 0, 0, 0⟩ }] }
    (s.homeOf 0 96).entry = 0 ∧ (s.dirSetOf 0 96).length = 16 ∧ s.entryWaits 0 96 = false ∧ b.entryWaits 0 96 = true ∧
    (let k : State := { ppLab with cur := ppLab.cur.setHandler fun k => { k with ownBusy := true } }
     k.cur.ctxOfHandler.ownBusy = true ∧ k.cur.ctxOfHandler.counted = false ∧ k.cur.ctxOfHandler.freed = false) := by decide +kernel

/-- The forward queue of the home is full; a proxy's handler behind an open write-back of its die, and one with none open. -/
theorem witness_handlerSendWaits :
    let wb : PpMsg := { plainMsg 3 64 (BitVec.ofNat 64 (agentOfRdc 0)) (plainRegion 5 64) with reply := true }
    let s := ppLab.withPp 16 fun q => { q with fwdQueue := List.replicate 64 ppMsg }
    let t := ppLab.withPp 16 fun q => { q with repQueue := [wb] }
    64 ≤ (s.ppOf 16).fwdQueue.length ∧ t.rdcWriteBack 0 16 64 = true ∧ ppLab.rdcWriteBack 0 16 64 = false ∧
    isRemote ppLab.pkg 0x8008000000000 = true ∧ ppLab.poisoned 0 = false := by decide +kernel

/-- A request for a busy block that has room on its list, and stands behind none that was replayed. -/
theorem witness_deferral : serving.deferRoom 0 = true ∧ ppMsg.reply = false ∧
    (serving.ppOf 0).behindReplay { ppMsg with block := 96 } = false ∧
    (serving.ppOf 0).fwdQueue.findIdx? (fun m => ((serving.ppOf 0).busyOf m.block).isSome) = .none ∧
    (∀ i < 64 / 32, serving.poisoned (0 + 32 * i) = false) := by decide +kernel

/-- Nothing else waits for the block that a grant brings; a request that no element is to be tried again for; no way is off. -/
theorem witness_grantClauses : (∀ e ∈ (arriving.coreOf 0).stores, blockOf e.acc.pa ≠ 64) ∧
    (∀ b ∈ (arriving.coreOf 0).atomics, b.req ≠ .some 5) ∧ (arriving.coreOf 0).onlyNt 64 = false ∧
    (((arriving.coreOf 0).request? (rtagOf (agentOfCore 0 5))).any fun q => q.retry.isNone) = true ∧ arriving.wayOff 0 1 = false ∧
    arriving.poisoned 24 = false := by decide +kernel

/-- A store, an atomic and an engine's access to package 1, over links that pass flits, while the partition runs. -/
theorem witness_remoteKinds :
    let acc := lab.storeAccess ⟨0, 0x8008000000000, false⟩ 8 7 false
    let s := ({ lab with fabric := { lab.fabric with map := mapped } } : State).withCore 0 fun k => { k with
      stores := [⟨acc, .none, .none, .none, .some 4⟩], atomics := [⟨2, { acc with kind := .amo 0 }, .scalar 3, .none, .none, 4⟩]
      engine := [{ rtag := 9, block := 0, write := true, granted := false, refused := .none, remote := true, pa := 0x8008000000000
                   sentAt := 4 }] }
    let ops := (s.remoteOps 0).map (·.1)
    RemoteOp.store 0 ∈ ops ∧ RemoteOp.atomic 0 ∈ ops ∧ (ops.any fun o => match o with
      | .engine _ => true
      | _ => false) = true ∧ s.canReach 0 0x8008000000000 = true ∧
    s.unsent (s.portFrom 0 0x8008000000000) 4 = false ∧ (s.partOfCore 0).all (fun p => p.state != .saving) = true := by decide +kernel

/-- A context that is leaving, and one that is not; tables free of poison. -/
theorem witness_contextClauses : ((hosted.ctxOf? 5).any fun c => !c.leaving) = true ∧
    (((asCtx hosted fun c => { c with leaving := true }).ctxOf? 5).any (·.leaving)) = true ∧
    ((hosted.ctxOf? 5).any fun c => !hosted.walkPoisoned c 0x10000) = true := by decide +kernel

/-- A stopped partition whose engines are still, of a launch that nobody cancelled or discarded, and of one that was cancelled. -/
theorem witness_launchStops :
    let s : State := { lab with parts := lab.parts.map (fun p => { p with state := .stopped }),
                                dist := { lab.dist with launches := [launchOf5 3 .running] } }
    let t : State := { s with dist := { s.dist with launches := [{ launchOf5 3 .running with cancelled := true }] } }
    ((s.parts.find? (·.launch == 3)).any fun p => p.state == .stopped && s.enginesStill p) = true ∧
    ((s.launchRec 3).any fun l => !l.cancelled && !l.discarded) = true ∧
    ((t.launchRec 3).any (·.cancelled)) = true ∧ ((t.parts.find? (·.launch == 3)).any t.settled) = true ∧
    hosted.poisoned 0x50000 = false := by decide +kernel

/-- A queue behind a `dma` that writes host memory, and one behind none. -/
theorem witness_postedWrites :
    let s := queueing.setQueue { queueing.queueAt 15 with dmas := [⟨0x10000, true, 0x10020, false, 32, 0⟩] }
    (s.running?.any fun q => q.dmas.any (·.dstHost)) = true ∧ (queueing.running?.any fun q => !q.dmas.any (·.dstHost)) = true ∧
    (s.running?.any fun q => !q.dmas.isEmpty) = true := by decide +kernel

/-- The operator's session, streams that no function uses, and one that another function has. -/
theorem witness_streams :
    let s : State := { trusted .run with trust := { (trusted .run).trust with sessions := [.operator, .tenant 7] } }
    Party.operator ∈ s.trust.sessions ∧ (∀ g ∈ s.trust.vfs, ∀ e ∈ g.streams, e.1 ≠ 8) ∧ s.streamTaken 64 8 = false ∧
    ({ s with trust := { s.trust with streams := [(8, 0)] } } : State).streamTaken 64 8 = true ∧ s.trust.signatures ≠ 0 ∧
    ({ s with trust := { s.trust with signatures := 0 } } : State).trust.signatures = 0 := by decide +kernel

/-- No launch that has not ended, and one; links without operations; a lane that has not been swapped. -/
theorem witness_linkClauses : lab.launched = false ∧
    ({ lab with dist := { lab.dist with launches := [launchOf5 3 .running] } } : State).launched = true ∧
    (∀ k ∈ (linked { port := 11 }).cores, (linked { port := 11 }).remoteOps k.id = []) ∧
    8 ∉ ((linked { port := 11 }).linkOf 11).swapped := by decide +kernel

/-- A sample that is due, and one whose period has not passed; a thread that is asked to stop, one at a breakpoint, one at none. -/
theorem witness_observeClauses :
    let s := lab.withCore 0 fun k => { k with sample := .some 10 }
    lab.sampleDue 0 = true ∧ s.sampleDue 0 = false ∧ s.vCycles 0 / 2 ^ 10 = (s.coreOf 0).sampledAt ∧
    (lab.hartOf (.core 0 0)).stopAsked = false ∧ (lab.focus (.core 0 0)).fetchBreak = .none ∧
    (let t := lab.withCore 0 fun k => { k with breaks := k.breaks.set 3 ⟨lab.cur.pc, 1, true, 1, false⟩ }
     (t.focus (.core 0 0)).fetchBreak = .some 3 ∧ (t.hartOf (.core 0 0)).stopAsked = false) ∧
    (lab.withHart (.core 0 0) fun h => { h with stopAsked := true }).cur.stopAsked = true ∧
    lab.serviceUnit 0 0 63 = .some (0, 63) ∧ lab.serviceUnit 0 0 64 = .none ∧ lab.serviceUnit 0 1 17 = .none ∧
    4 * (lab.coreOf 0).threads ≤ 64 := by decide +kernel

/-- A barrier's limit that the first arrival's V-cycles have not reached. -/
theorem witness_barrierInTime : ((barred.coreOf 0).channel 3).firstAt = .some 0 ∧
    barred.barCycles 0 - 0 < ((barred.coreOf 0).channel 3).limit ∧ barred.cur.wait = .none := by decide +kernel

/-- A word of a gang's member for which an entry may be kept. -/
theorem witness_gangSend : let s := sending.withCore 0 fun k => { k with gang := .some ⟨0, 1⟩ }
    (s.coreOf 0).ganged = true ∧ ((s.coreOf 0).sendOf 0).isSome = true ∧ s.kept 0 false = 0 ∧ (s.portRoom 0 false) = true ∧
    ((sending.coreOf 0).flows[1]?.any fun f => decide (f.freed + f.words.length < f.links)) = true ∧
    ((sending.withCore 0 fun k => { k with flows := k.flows.map fun f => { f with freed := 1 } }).coreOf 0).flows[1]?.any
      (fun f => decide (f.links ≤ f.freed)) = true := by decide +kernel

/-- No frame is to be filled again, no debugger asks for a stop, and an event that no stop comes before. -/
theorem witness_issueClauses : ((issuing 0x100 0xa382e705).issuing 0 0).cur.recapture = false ∧
    (issuing 0x100 0xa382e705).mayHappen (.dramRefresh 0 0) = true ∧ ppLab.cur.recapture = false := by decide +kernel

/-! ## Results that the spec works out itself -/

/-- The thread with another vector register. -/
def lv (s : State) (r : VReg) (v : Vec) : State := { s with cur := s.cur.setV r v }

/-- R88's example: with x6 = 0x0000_0001_8000_0000, x7 = 1 and x8 = −1. -/
def r88 : State := lx (lx (lx lab 6 0x180000000) 7 1) 8 (-1)

theorem test_shift_of_a_word : look (fun t => t.cur.readX 5) (exec (.sll 5 6 7 true) r88) = .some 0 ∧
    look (fun t => t.cur.readX 5) (exec (.sll 5 6 7 false) r88) = .some 0x300000000 := by decide +kernel

theorem test_division_of_a_word : look (fun t => t.cur.readX 5) (exec (.div 5 6 8 true) r88) = .some 0xffffffff80000000 ∧
    look (fun t => t.cur.readX 5) (exec (.clz 5 0 true) r88) = .some 32 := by decide +kernel

/-- The example of `vdot4`, in INT8 and under `fmt uint8, int8, int32`. -/
theorem test_vdot4 :
    look (fun t => (t.cur.readV 4).extractLsb' 0 32) (exec (.vdot4 4 1 2) (lv (lv (lv lab 1 0xff02807f) 2 0x04030202) 4 10)) =
      .some 10 ∧
    look (fun t => (t.cur.readV 4).extractLsb' 0 32)
      (exec (.vdot4 4 1 2) (latched (lv (lv (lv lab 1 0xff02807f) 2 0x04030202) 4 10) (fmtP 0 0 false 0 9 6 7 0x78#7))) =
      .some 1546 := by decide +kernel

/-- The example of `vperm`, in INT32. -/
theorem test_vperm : look (fun t => t.cur.readV 4)
    (exec (.vperm 4 1 2) (lv (lv (lv lab 1 0x0000000d0000000c0000000b0000000a) 2 0x00000005800000000000000000000007) 4
      0x00000017000000160000001500000014)) = .some 0x00000015000000000000000a00000017 := by decide +kernel

/-- The example of `vfma`: 2^24 × (1 + 2^−23) − 2^24 is 2. -/
theorem test_vfma : look (fun t => (t.cur.readV 4).extractLsb' 0 32)
    (exec (.vfma 4 1 2) (lv (lv (lv lab 1 0x4b800000) 2 0x3f800001) 4 0xcb800000)) = .some 0x40000000 := by decide +kernel

/-- The example of R82: 2^24, 1, 1 and −2^24 sum pairwise to 1. -/
theorem test_vfredadd : look (fun t => (t.cur.readV 4).extractLsb' 0 32)
    (exec (.vfredadd 4 1) (lv lab 1 0xcb8000003f8000003f8000004b800000)) = .some 0x3f800000 := by decide +kernel

/-- The example of R66: 300, 464 and 465 in E4M3, here from FP16, with and without saturation. -/
theorem test_pack_e4m3 :
    look (fun t => ((t.cur.readV 4).extractLsb' 0 24, t.cur.sys.fflags &&& 0x20))
      (exec (.vpack 4 1 2) (latched (lv (lv lab 1 0x5f445f405cb0) 2 0) (fmtP 0 0 true 0 3 2 2 0x78#7))) = .some (0x7e7e79, 0x20) ∧
    look (fun t => ((t.cur.readV 4).extractLsb' 0 24, t.cur.sys.fflags &&& 0x20))
      (exec (.vpack 4 1 2) (latched (lv (lv lab 1 0x5f445f405cb0) 2 0) (fmtP 0 0 false 0 3 2 2 0x78#7))) = .some (0x7f7e79, 0) := by
  decide +kernel

/-- The example of `vpack`: 40000.7 saturates and −2.5 becomes −2. -/
theorem test_vpack : look (fun t => (t.cur.readV 5).extractLsb' 0 32)
    (exec (.vpack 5 6 7) (latched (lv (lv lab 6 0x00000000000000000000000000000000c0200000471c40b3) 7 0) (fmtP 0 0 true 0 8 0 0 0x78#7))) =
    .some 0xfffe7fff := by decide +kernel

/-- The example of R204. -/
theorem test_vqnt4 : look (fun t => t.cur.readV 8)
    (exec (.vqnt4 8 1 2) (lv (lv lab 1 0x404000003f99999abf4000003dcccccd) 2 0x3e851eb8c019999a3f00000000000000)) =
    .some 0x401e2074b0 := by decide +kernel

/-- The example of R207, with q = 17. -/
theorem test_vntbf :
    look (fun t => t.cur.readV 6) (exec (.vntbf 6 5 7)
      (lv (lv ({ lab with cur := { lab.cur with sys := { lab.cur.sys with modq := 17 } } } : State) 5 (20#64 ++ 5#64)) 7 4)) =
      .some (10#64 ++ 0#64) ∧
    look (fun t => t.cur.readV 8) (exec (.vintbf 8 6 7)
      (lv (lv ({ lab with cur := { lab.cur with sys := { lab.cur.sys with modq := 17 } } } : State) 6 (10#64 ++ 0#64)) 7 13)) =
      .some (6#64 ++ 10#64) := by decide +kernel

/-- One step of the machine after reset runs a word placed for it: `addi x3, x3, -1`, its compact form (the example of R37), and
the op `li b3, -1` of a queue program (R354). -/
theorem test_step_core : look (fun t => (t.cur.readX 3, t.cur.pc)) (step (State.reset.withFetchWord 32 0xffe3e305)) = .some (-1, 4) := by
  decide +kernel

theorem test_step_compact : look (fun t => (t.cur.readX 3, t.cur.pc)) (step (State.reset.withFetchWord 16 0xfe62)) = .some (-1, 2) := by decide +kernel

theorem test_step_queue : look (fun t => ((t.queueAt 0).b[3], (t.queueAt 0).pc)) (step (State.reset.withFetchWord 32 0xffff0301)) =
    .some (-1, 1) := by decide +kernel

end Sys2Proof.Tests
end

/-! ## The checks before an instruction, in their order (O13) -/

namespace Sys2Proof.Machine

open Sys2Proof

/-- R42: a core does not execute an instruction of the handlers. -/
theorem mayIssue_handler_core {s : State} (c : s.cur.who.isPp = false) :
    s.mayIssue .handler = .error (trapOf .illegalInstruction (s.cur.word.setWidth 64)) := by
  simp [State.mayIssue, Shape.handler, c]

/-- R44: a latched word before an instruction that does not take it traps with that word. -/
theorem mayIssue_both_latched {s : State} {p : BitVec 32} (c : s.cur.who.isPp = false) (l : s.cur.latch = .some p) :
    s.mayIssue .both = .error (trapOf .illegalPrefix (p.setWidth 64)) := by
  simp [State.mayIssue, Shape.both, c, l]

theorem mayIssue_both_unlatched {s : State} (c : s.cur.who.isPp = false) (l : s.cur.latch = .none) :
    s.mayIssue .both = .ok () := by
  simp [State.mayIssue, Shape.both, c, l]

theorem getX_error {h : Hart} {r : Reg} {e : Exc} (n : h.needX r = .error e) : h.getX r = .error e := by
  simp [Hart.getX, n]

theorem issueHart_exc {s : State} {e : Exc} {sh : Shape} {body : Hart → Except Exc Hart} (m : s.mayIssue sh = .ok ())
    (b : body s.cur = .error e) : s.issueHart sh body = .next (s.raise e) := by
  unfold State.issueHart; exact issue_exc m (by rw [b]; rfl)

theorem issueHart_refused {s : State} {e : Exc} {sh : Shape} {body : Hart → Except Exc Hart} (m : s.mayIssue sh = .error e) :
    s.issueHart sh body = .next (s.raise e) := issue_refused m

/-- R110: an operation on three registers takes the exception of the first of `d`, `a` and `b` that has one. -/
theorem aluThree_exc {f : (n : Nat) → BitVec n → BitVec n → BitVec n} {d a b r : Reg} {w : Bool} {len : Nat} {s : State} {e : Exc}
    (m : s.mayIssue .both = .ok ())
    (first : r = d ∨ r = a ∧ s.cur.emptyX d = false ∨ r = b ∧ s.cur.emptyX d = false ∧ s.cur.emptyX a = false)
    (n : s.cur.needX r = .error e) : aluThree f d a b w len s = .next (s.raise e) := by
  refine issueHart_exc m ?_
  rcases first with rfl | ⟨rfl, hd⟩ | ⟨rfl, hd, ha⟩
  · rw [n]; rfl
  · rw [needX_ok hd, getX_error n]; rfl
  · rw [needX_ok hd, getX_ok ha, getX_error n]; rfl

/-- Settles O13: the shape's check comes first, then the operands are needed from left to right. -/
theorem issueOrder : Obligations.IssueOrder := by
  intro s d a b w core
  refine ⟨?_, fun p latched => ?_, fun unlatched r first empty unmarked => ?_⟩
  · change execHend s = _
    exact issue_refused (mayIssue_handler_core core)
  · change aluThree aluAdd d a b w 4 s = _
    exact issueHart_refused (mayIssue_both_latched core latched)
  · change aluThree aluAdd d a b w 4 s = _
    rw [aluThree_exc (mayIssue_both_unlatched core unlatched) first (needX_empty empty unmarked)]
    split <;> rfl

end Sys2Proof.Machine

/-! ## Memory keeps its canonical form (O59)

For each operation of the model, in the model's order: what leaves memory alone (`_mem`, for `simp`), and what writes it
and keeps the canonical form (`wf_`). An effect that may throw keeps it in every state it ends in (`OkFormed`), an
instruction, event or op in every state it goes on with (`NextFormed`). -/

namespace Sys2Proof.Machine

open Sys2Proof

/-! ## What an operation may answer -/

/-- Every state that an outcome goes on with has its memory in the canonical form. -/
def NextFormed (r : Host.Outcome State Fault Refusal) : Prop := ∀ u, r = .next u → Memory.wf u.mem = true

/-- Every state that an effect ends in has its memory in the canonical form. -/
def OkFormed (r : Except Exc State) : Prop := ∀ t, r = .ok t → Memory.wf t.mem = true

@[simp] theorem nextFormed_next {u : State} : NextFormed (.next u) ↔ Memory.wf u.mem = true := by simp [NextFormed]
@[simp] theorem nextFormed_fault {f : Fault} : NextFormed (.fault f) := by simp [NextFormed]
@[simp] theorem nextFormed_refused {f : Refusal} : NextFormed (.refused f) := by simp [NextFormed]
@[simp] theorem okFormed_ok {t : State} : OkFormed (.ok t) ↔ Memory.wf t.mem = true := by simp [OkFormed]
@[simp] theorem okFormed_error {e : Exc} : OkFormed (.error e) := by simp [OkFormed]

/-- An effect in steps: each step's value goes into the rest. -/
theorem okFormed_bind {α : Type} {x : Except Exc α} {f : α → Except Exc State} (H : ∀ a, x = .ok a → OkFormed (f a)) :
    OkFormed (x >>= f) := by
  cases x with
  | error e => exact okFormed_error
  | ok a => exact H a rfl

/-- A step that fails ends the effect. -/
@[simp] theorem okFormed_throw {α : Type} {e : Exc} {f : α → Except Exc State} :
    OkFormed ((.error e : Except Exc α) >>= f) := okFormed_error

/-- An effect in steps, the first of which changes the state. -/
theorem okFormed_bindState {x : Except Exc State} {f : State → Except Exc State} (hx : OkFormed x)
    (H : ∀ t : State, Memory.wf t.mem = true → OkFormed (f t)) : OkFormed (x >>= f) :=
  okFormed_bind fun t e => H t (hx t e)

theorem okFormed_ite {c : Prop} [Decidable c] {x y : Except Exc State} (hx : OkFormed x) (hy : OkFormed y) :
    OkFormed (if c then x else y) := by
  split
  · exact hx
  · exact hy

/-- A check that throws comes before the rest of the effect. -/
theorem okFormed_guard {c : Prop} [Decidable c] {α : Type} {e : Exc} {f : α → Except Exc State} {x : Except Exc State}
    (hx : OkFormed x) : OkFormed (if c then .error e >>= f else x) := okFormed_ite okFormed_throw hx

/-- A fold of steps that leave memory alone leaves it alone. -/
theorem foldl_mem {α : Type} {f : State → α → State} (H : ∀ s a, (f s a).mem = s.mem) (l : List α) (s : State) :
    (l.foldl f s).mem = s.mem := by
  induction l generalizing s with
  | nil => rfl
  | cons a l ih => rw [List.foldl_cons, ih, H]

/-- A state that an operation may answer, or else the old one, has the old memory when every answer has it. -/
theorem getD_mem {o : Option State} {s : State} (H : ∀ t, o = .some t → t.mem = s.mem) : (o.getD s).mem = s.mem := by
  cases o with
  | none => rfl
  | some t => exact H t rfl

/-- A fold of steps that keep the canonical form keeps it. -/
theorem wf_foldl {α : Type} {f : State → α → State} (H : ∀ s a, Memory.wf s.mem = true → Memory.wf (f s a).mem = true)
    (l : List α) {s : State} (h : Memory.wf s.mem = true) : Memory.wf (l.foldl f s).mem = true := by
  induction l generalizing s with
  | nil => exact h
  | cons a l ih => exact ih (H s a h)

/-! ### Access -/

@[simp] theorem State.countTenant_mem (s : State) (t : TenantNo) (unit cls idx : Nat) :
    (s.countTenant t unit cls idx).mem = s.mem := by
  unfold State.countTenant; exact foldl_mem (fun _ _ => by simp) _ _

/-- A walk writes only the accessed and dirty bits of its leaf. -/
theorem wf_walkNow {s t : State} {ctx : Ctx} {user : Bool} {va : Nat} {r : Right} {l : Leaf} (h : Memory.wf s.mem = true)
    (e : s.walkNow ctx user va r = .ok (t, l)) : Memory.wf t.mem = true := by
  unfold State.walkNow at e
  split at e
  · cases e
  · split at e
    · cases e
    · cases e; exact wf_coherentWrite h _ _ _

theorem wf_checkWalk {s t : State} {c : CoreId} {user : Bool} {va size : Nat} {r : Right} {g : Target}
    (h : Memory.wf s.mem = true) (e : s.checkWalk c user va size r = .ok (t, g)) : Memory.wf t.mem = true := by
  unfold State.checkWalk at e
  repeat' split at e
  all_goals cases e
  · exact h
  · exact wf_walkNow h ‹_›

@[simp] theorem State.cacheCode_mem (s : State) (c : CoreId) (pa : Nat) : (s.cacheCode c pa).mem = s.mem := rfl

/-! ### Order -/

@[simp] theorem State.orderIds_mem (s : State) (w : Who) (ids : List Nat) : (s.orderIds w ids).mem = s.mem := rfl

@[simp] theorem State.hear_mem (s : State) (w : Who) (acquire : Option Nat) (cs : Cover) :
    (s.hear w acquire cs).mem = s.mem := by unfold State.hear; split <;> rfl

@[simp] theorem State.sawPast_mem (s : State) (w : Who) (acquire : Option Nat) (issued pa n : Nat) :
    (s.sawPast w acquire issued pa n).mem = s.mem := by simp [State.sawPast]

@[simp] theorem State.notePast_mem (s : State) (w : Who) (path level id : Nat) (cover : Cover) (pa n old : Nat) :
    (s.notePast w path level id cover pa n old).mem = s.mem := rfl

@[simp] theorem State.settlePast_mem (s : State) (k : Nat) :
    (s.settlePast k).mem = s.mem := by
  unfold State.settlePast; repeat' split
  all_goals rfl

@[simp] theorem State.markPerformed_mem (s : State) (w : Who) (scope below : Nat) :
    (s.markPerformed w scope below).mem = s.mem := rfl

@[simp] theorem State.markCover_mem (s : State) (cs : Cover) :
    (s.markCover cs).mem = s.mem := by unfold State.markCover; split <;> rfl

@[simp] theorem State.spreadPast_mem (s : State) (k : Nat) : (s.spreadPast k).mem = s.mem := rfl

@[simp] theorem State.fenceRel_mem (s : State) (w : Who) (scope : Nat) : (s.fenceRel w scope).mem = s.mem := rfl

@[simp] theorem State.fenceAcq_mem (s : State) (w : Who) (scope : Nat) : (s.fenceAcq w scope).mem = s.mem := rfl

@[simp] theorem State.fullFence_mem (s : State) (w : Who) (scope : Nat) : (s.fullFence w scope).mem = s.mem := rfl

@[simp] theorem State.orderPath_mem (s : State) (w : Who) (p q : Nat) : (s.orderPath w p q).mem = s.mem := rfl

/-! ### Ops -/

@[simp] theorem State.hearHead_mem (s : State) (c : CoreId) (slot q : Nat) :
    (s.hearHead c slot q).mem = s.mem := by simp [State.hearHead]

@[simp] theorem State.serveQueue_mem (s : State) (c : CoreId) (q : Nat) :
    (s.serveQueue c q).mem = s.mem := by
  simp only [State.serveQueue]; repeat' split
  all_goals simp

@[simp] theorem State.arrive_mem (s : State) (c : CoreId) (q : Nat) (e : Vec) :
    (s.arrive c q e).mem = s.mem := by
  simp only [State.arrive]; repeat' split
  all_goals simp

@[simp] theorem State.postEventAt_mem (s : State) (c : CoreId) (code detail time : Nat) :
    (s.postEventAt c code detail time).mem = s.mem := by
  simp only [State.postEventAt]; repeat' split
  all_goals simp

@[simp] theorem State.postEvent_mem (s : State) (c : CoreId) (code detail : Nat) :
    (s.postEvent c code detail).mem = s.mem := by simp [State.postEvent]

@[simp] theorem State.postEvents_mem (s : State) (p : Partition) (code detail : Nat) :
    (s.postEvents p code detail).mem = s.mem := by
  simp only [State.postEvents]
  simp [foldl_mem]

@[simp] theorem State.postEventsCtx_mem (s : State) (n : CtxNo) (code detail : Nat) :
    (s.postEventsCtx n code detail).mem = s.mem := by unfold State.postEventsCtx; split <;> simp

@[simp] theorem State.postHeld_mem (s : State) (p : Partition) (es : List (Nat × Nat × Nat)) :
    (s.postHeld p es).mem = s.mem := by
  simp only [State.postHeld]
  simp [foldl_mem]

theorem wf_hostPath {s t : State} {ctx : Ctx} {va pa : Nat} {r : Right} (h : Memory.wf s.mem = true)
    (e : s.hostPath ctx va r = .some (t, pa)) : Memory.wf t.mem = true := by
  simp only [State.hostPath] at e
  repeat' split at e
  all_goals cases e
  · exact h
  · exact wf_walkNow h ‹_›

@[simp] theorem State.dropErrorQueue_mem (s : State) (c : Ctx) :
    (s.dropErrorQueue c).mem = s.mem := by simp [State.dropErrorQueue]

/-- An entry of the error queue, or the count of a lost one, is written through the ring's translation (R168). -/
theorem wf_postError {s : State} (h : Memory.wf s.mem = true) (n : CtxNo) (e : ErrorEntry) :
    Memory.wf (s.postError n e).mem = true := by
  simp only [State.postError]
  split
  · exact h
  · split
    · split <;> simp [h]
    · split
      · simp [h]
      · next w =>
        have ht := wf_hostPath h w
        split
        · exact wf_coherentWrite ht _ _ _
        · split
          · simp [ht]
          · next w' =>
            have hu := wf_hostPath ht w'
            split
            · rw [State.postEventsCtx_mem, State.noteFault_mem]
              iterate 6 refine wf_coherentWrite ?_ _ _ _
              exact hu
            · rw [State.noteFault_mem]
              iterate 6 refine wf_coherentWrite ?_ _ _ _
              exact hu

@[simp] theorem State.refuseMsg_mem (s : State) (p : PpId) (m : PpMsg) (code : Nat) :
    (s.refuseMsg p m code).mem = s.mem := by
  unfold State.refuseMsg; repeat' split
  all_goals rfl

@[simp] theorem State.freeBlock_mem (s : State) (p : PpId) (block : Nat) (retry : Bool) :
    (s.freeBlock p block retry).mem = s.mem := by
  simp only [State.freeBlock]; repeat' split
  all_goals simp

theorem State.freeBlocks_mem (s : State) (l : List Pp) (f : Pp → List Busy) :
    (l.foldl (fun s q => (f q).foldl (fun s b => s.freeBlock q.id b.block true) s) s).mem = s.mem :=
  foldl_mem (fun _ _ => foldl_mem (fun _ _ => freeBlock_mem _ _ _ _) _ _) _ _

theorem wf_handlerFault {s : State} (h : Memory.wf s.mem = true) (kind : Nat) : Memory.wf (s.handlerFault kind).mem = true := by
  simp only [State.handlerFault]
  split
  · refine wf_postError ?_ _ _
    split
    · simp [h]
    · rw [State.freeBlocks_mem]; simp [h]
  · exact h

theorem wf_raise {s : State} (h : Memory.wf s.mem = true) (a1 : Exc) :
    Memory.wf (s.raise a1).mem = true := by
  unfold State.raise; split
  all_goals simp [h, wf_handlerFault]

theorem wf_illegal {s : State} (h : Memory.wf s.mem = true) :
    Memory.wf (s.illegal).mem = true := by
  unfold State.illegal; split
  all_goals simp [h, wf_raise]

/-! ### Routes -/

@[simp] theorem State.flitPasses_mem (s : State) (p : Option Nat) :
    (s.flitPasses p).mem = s.mem := by unfold State.flitPasses; split <;> rfl

/-! ### Paths -/

@[simp] theorem State.pushRequest_mem (s : State) (p : PpId) (m : PpMsg) : (s.pushRequest p m).mem = s.mem := rfl

@[simp] theorem State.pushForward_mem (s : State) (p : PpId) (m : PpMsg) : (s.pushForward p m).mem = s.mem := rfl

@[simp] theorem State.pushReply_mem (s : State) (sender : Nat) (p : PpId) (m : PpMsg) :
    (s.pushReply sender p m).mem = s.mem := rfl

@[simp] theorem State.sendRequest_mem (s : State) (c : CoreId) (q : Request) : (s.sendRequest c q).mem = s.mem := rfl

theorem wf_returnData {s : State} (h : Memory.wf s.mem = true) (c : CoreId) (block : Nat) (r : Region) (d : BitVec 256) :
    Memory.wf (s.returnData c block r d).mem = true := by
  simp only [State.returnData]
  split
  · exact wf_putHomeData h _ _
  · exact h

theorem wf_evict {s : State} (h : Memory.wf s.mem = true) (c : CoreId) (l : Line) :
    Memory.wf (s.evict c l).mem = true := by
  unfold State.evict; repeat' split
  all_goals simp [h, wf_returnData]

theorem wf_install {s : State} (h : Memory.wf s.mem = true) (c : CoreId) (l : Line) :
    Memory.wf (s.install c l).mem = true := by
  simp only [State.install]; repeat' split
  all_goals simp [h, wf_evict]

theorem State.wantBlock_mem {s t : State} {c : CoreId} {type : Nat} {slotUsed : Bool} {a : Access}
    (e : s.wantBlock c type slotUsed a = .some t) : t.mem = s.mem := by
  simp only [State.wantBlock] at e
  split at e
  · cases e; rfl
  · split at e
    · cases e
    · split at e
      · cases e
      · cases e; rfl

theorem State.wantBlocks_mem {s t : State} {c : CoreId} {l : List Access} (e : s.wantBlocks c l = .some t) : t.mem = s.mem := by
  induction l generalizing s with
  | nil => cases e; rfl
  | cons a l ih =>
    unfold State.wantBlocks at e
    split at e
    · cases e
    · next w => rw [ih e, wantBlock_mem w]

@[simp] theorem State.hasRead_mem (s : State) (c : CoreId) (a : Access) : (s.hasRead c a).mem = s.mem := by simp [State.hasRead]

theorem State.wantLoad_mem {s t : State} {c : CoreId} {accs : List Access} (e : s.wantLoad c accs = .some t) :
    t.mem = s.mem := by
  unfold State.wantLoad at e
  split at e
  · exact wantBlock_mem e
  · exact wantBlocks_mem e

theorem okFormed_load {s : State} (h : Memory.wf s.mem = true) (accs : List Access) (dest : Dest) (signed blocking : Bool)
    (len : Nat) : OkFormed (s.load accs dest signed blocking len) := by
  simp only [State.load]
  split
  · exact okFormed_error
  · split
    · split
      · exact okFormed_error
      · simp [foldl_mem, h]
    · split
      · exact okFormed_error
      · next w => simp [foldl_mem, State.wantLoad_mem w, h]

@[simp] theorem State.noteAccess_mem (s : State) (c : CoreId) (a : Access) (level old : Nat) :
    (s.noteAccess c a level old).mem = s.mem := by
  unfold State.noteAccess; repeat' split
  all_goals simp

theorem wf_performHome {s : State} (h : Memory.wf s.mem = true) (c : CoreId) (a : Access) :
    Memory.wf (s.performHome c a).1.mem = true := by
  simp only [State.performHome]; repeat' split
  all_goals simp [h, wf_writeThrough]

@[simp] theorem State.performL1_mem (s : State) (c : CoreId) (a : Access) :
    (s.performL1 c a).1.mem = s.mem := by
  simp only [State.performL1]; repeat' split
  all_goals simp

@[simp] theorem State.clearPoison_mem (s : State) (pa n : Nat) :
    (s.clearPoison pa n).mem = s.mem := by unfold State.clearPoison; split <;> rfl

theorem State.wantWrite_mem {s t : State} {c : CoreId} {a : Access} (e : s.wantWrite c a = .some t) : t.mem = s.mem := by
  unfold State.wantWrite at e
  split at e
  iterate 3 cases e; rfl
  all_goals exact wantBlock_mem e

theorem okFormed_suspendScatter {s : State} (h : Memory.wf s.mem = true) (type : Nat) (a : Access) :
    OkFormed (s.suspendScatter type a) := by
  simp only [State.suspendScatter]; repeat' split
  all_goals simp [h]

theorem okFormed_store {s : State} (h : Memory.wf s.mem = true) (a : Access) (release : Option Nat) (len : Nat) :
    OkFormed (s.store a release len) := by
  simp only [State.store]
  split
  · exact okFormed_error
  · split
    · split
      · exact okFormed_error
      · simp [wf_performHome, h]
    · split
      · exact okFormed_suspendScatter h _ _
      · split
        · exact okFormed_error
        · next w =>
          split at w
          · simp [State.wantWrite_mem w, h]
          · cases w; simp [h]

theorem State.wantWrites_mem {s t : State} {c : CoreId} {l : List Access} (e : s.wantWrites c l = .some t) : t.mem = s.mem := by
  induction l generalizing s with
  | nil => cases e; rfl
  | cons a l ih =>
    unfold State.wantWrites at e
    split at e
    · cases e
    · next w => rw [ih e, wantWrite_mem w]

theorem okFormed_storeAll {s : State} (h : Memory.wf s.mem = true) (accs : List Access) (len : Nat) :
    OkFormed (s.storeAll accs len) := by
  simp only [State.storeAll]
  split
  · exact okFormed_suspendScatter h _ _
  · split
    · exact okFormed_error
    · split
      · exact okFormed_error
      · next w =>
        simp only [okFormed_ok, State.withCore_mem]
        refine wf_foldl (fun _ _ h => ?_) _ ?_
        · exact wf_performHome h _ _
        · rw [State.wantWrites_mem w]; exact h

theorem State.wantAtomic_mem {s t : State} {c : CoreId} {a : Access} {tag : Nat} (e : s.wantAtomic c a = .some (t, tag)) :
    t.mem = s.mem := by
  simp only [State.wantAtomic] at e
  split at e
  · cases e
  · cases e; rfl

theorem okFormed_atomic {s : State} (h : Memory.wf s.mem = true) (a : Access) (dest : Dest) (waits : Bool)
    (release : Option Nat) (len : Nat) : OkFormed (s.atomic a dest waits release len) := by
  simp only [State.atomic]
  split
  · refine okFormed_ite okFormed_error (okFormed_ite (okFormed_suspendScatter h _ _) (okFormed_ite (by simp [h]) ?_))
    split
    · exact okFormed_error
    next w => simp [State.wantAtomic_mem w, h]
  · refine okFormed_ite okFormed_error (okFormed_ite okFormed_error (okFormed_ite (by simp [wf_performHome, h]) ?_))
    split
    · split
      · simp [wf_performHome, h]
      · simp [h]
    · split
      · simp [wf_performHome, h]
      · simp [h]
    · refine okFormed_ite ?_ (by simp [h])
      split
      · exact okFormed_error
      next w => simp [State.wantAtomic_mem w, h]
    all_goals
      refine okFormed_ite (okFormed_suspendScatter h _ _) ?_
      split
      · exact okFormed_error
      next w => simp [State.wantAtomic_mem w, h]

theorem okFormed_handlerLoad {s : State} (h : Memory.wf s.mem = true) (d : Reg) (va : Word) (n : Nat) (signed : Bool)
    (len : Nat) : OkFormed (s.handlerLoad d va n signed len) := by
  unfold State.handlerLoad
  refine okFormed_bind fun p _ => ?_
  obtain ⟨data, a⟩ := p
  dsimp only
  split
  · exact okFormed_throw
  · exact okFormed_ok.2 h

theorem okFormed_handlerStore {s : State} (h : Memory.wf s.mem = true) (va : Word) (n v len : Nat) :
    OkFormed (s.handlerStore va n v len) := by
  unfold State.handlerStore
  refine okFormed_bind fun p _ => okFormed_ok.2 ?_
  obtain ⟨data, a⟩ := p
  cases data
  · exact wf_homeWrite h _ _ _
  · exact h

theorem okFormed_handlerAtomic {s : State} (h : Memory.wf s.mem = true) (op : Nat) (d : Reg) (va : Word) (n b e : Nat) :
    OkFormed (s.handlerAtomic op d va n b e) := by
  unfold State.handlerAtomic
  refine okFormed_bind fun p _ => ?_
  obtain ⟨data, a⟩ := p
  dsimp only
  split
  · exact okFormed_error
  · refine okFormed_ok.2 ?_
    split <;> exact h

theorem wf_codeFill {s : State} (h : Memory.wf s.mem = true) (c : CoreId) (va : Nat) :
    Memory.wf (s.codeFill c va).mem = true := by
  unfold State.codeFill; repeat' split
  all_goals simp [h]

@[simp] theorem State.gangStops_mem (s : State) (leader : CoreId) (slot : Nat) (epc : Option Word) (own : CoreId → Option Trap)
    (fatal : CoreId → Option Bool) : (s.gangStops leader slot epc own fatal).mem = s.mem := by
  simp only [State.gangStops]
  refine foldl_mem (fun t m => ?_) _ _
  split
  all_goals simp [apply_ite State.mem]

@[simp] theorem State.gangTrap_mem (s : State) (leader : CoreId) (slot : Nat) (epc : Option Word) (own : CoreId → Option Trap) :
    (s.gangTrap leader slot epc own).mem = s.mem := by simp [State.gangTrap]

/-! ### Memory -/

theorem okFormed_gather {s : State} (h : Memory.wf s.mem = true) (vd : VReg) (st : Bool) (addrs : List Word) :
    OkFormed (s.gather vd st addrs) := by
  unfold State.gather
  refine okFormed_bind fun _ _ => ?_
  simp [h, okFormed_load]

theorem okFormed_scatter {s : State} (h : Memory.wf s.mem = true) (v : Vec) (st : Bool) (addrs : List Word) :
    OkFormed (s.scatter v st addrs) := by
  unfold State.scatter
  refine okFormed_bind fun _ _ => ?_
  simp [h, okFormed_storeAll]

@[simp] theorem State.tellHint_mem (s : State) (c : CoreId) (t : Target) (kind : Nat) :
    (s.tellHint c t kind).mem = s.mem := by
  simp only [State.tellHint]; repeat' split
  all_goals simp

theorem wf_dropLine {s : State} (h : Memory.wf s.mem = true) (c : CoreId) (l : Line) :
    Memory.wf (dropLine s c l).mem = true := wf_evict h _ _

theorem wf_cleanLine {s : State} (h : Memory.wf s.mem = true) (c : CoreId) (l : Line) :
    Memory.wf (cleanLine s c l).mem = true := by
  unfold cleanLine
  split
  · exact h
  · exact wf_putHomeData h _ _

theorem wf_cleanRdc {s : State} (h : Memory.wf s.mem = true) (c : CoreId) (t : Target) :
    Memory.wf (cleanRdc s c t).mem = true := by
  unfold cleanRdc
  split
  · exact h
  · exact wf_putHomeData h _ _

theorem wf_evictRdc {s : State} (h : Memory.wf s.mem = true) (r : RdcBlock) : Memory.wf (s.evictRdc r).mem = true := by
  simp only [State.evictRdc]
  repeat' split
  case isFalse.isTrue => exact wf_putHomeData h _ _
  all_goals exact h

theorem wf_dropCacheLine {s : State} (h : Memory.wf s.mem = true) (holder line : Nat) :
    Memory.wf (s.dropCacheLine holder line).mem = true := by
  simp only [State.dropCacheLine]
  split
  · exact h
  · exact wf_foldl (fun _ _ h => wf_evictRdc h _) _ h

@[simp] theorem State.countEviction_mem (s : State) (holder : Nat) (filler evicted : TenantNo) :
    (s.countEviction holder filler evicted).mem = s.mem := by unfold State.countEviction; split <;> simp

theorem wf_fillSectors {s : State} (h : Memory.wf s.mem = true) (holder line : Nat) (sectors : BitVec 8) (tenant : TenantNo) :
    Memory.wf (s.fillSectors holder line sectors tenant).mem = true := by
  simp only [State.fillSectors]; repeat' split
  all_goals simp [h, wf_dropCacheLine]

@[simp] theorem State.dropSector_mem (s : State) (holder block : Nat) : (s.dropSector holder block).mem = s.mem := rfl

theorem wf_flushDie {s : State} (h : Memory.wf s.mem = true) (c : CoreId) (t : Target) :
    Memory.wf (flushDie s c t).mem = true := by
  unfold flushDie; split
  all_goals simp [h, wf_evictRdc]

@[simp] theorem keepDie_mem (s : State) (a1 : CoreId) (a2 : Target) : (keepDie s a1 a2).mem = s.mem := rfl

theorem okFormed_fetchLine {s : State} (h : Memory.wf s.mem = true) (c : CoreId) (t : Target) :
    OkFormed (fetchLine s c t) := by
  simp only [fetchLine]; repeat' split
  all_goals simp [h]

@[simp] theorem State.rdcAsk_mem (s : State) (die block : Nat) (r : Region) :
    (s.rdcAsk die block r).mem = s.mem := by unfold State.rdcAsk; split <;> rfl

theorem okFormed_fetchL2 {s : State} (h : Memory.wf s.mem = true) (c : CoreId) (t : Target) : OkFormed (fetchL2 s c t) := by
  simp only [fetchL2]
  split
  · exact okFormed_ok.2 (wf_fillSectors h _ _ _ _)
  · split
    · exact okFormed_error
    · refine okFormed_ok.2 ?_
      rw [foldl_mem fun _ _ => State.rdcAsk_mem _ _ _ _]; exact h

/-! ### Control -/

@[simp] theorem State.formGang_mem (s : State) (leader : CoreId) : (s.formGang leader).mem = s.mem := by
  simp only [State.formGang]
  split
  · rfl
  · rw [foldl_mem fun _ _ => foldl_mem (fun _ _ => withHart_mem _ _ _) _ _]
    split
    · exact foldl_mem (fun _ _ => withCore_mem _ _ _) _ _
    · rfl

@[simp] theorem State.dissolve_mem (s : State) (c : CoreId) :
    (s.dissolve c).mem = s.mem := by
  simp only [State.dissolve]
  simp [foldl_mem]

@[simp] theorem State.tryDissolve_mem (s : State) (c : CoreId) :
    (s.tryDissolve c).mem = s.mem := by unfold State.tryDissolve; split <;> simp

/-! ### CoreEvents -/

@[simp] theorem State.finish_mem (s : State) (w : Who) (len : Nat) (f : Hart → Hart) :
    (s.finish w len f).mem = s.mem := by simp [State.finish]

@[simp] theorem State.land_mem (s : State) (w : Who) (len : Nat) (d : Dest) (f : Hart → Hart) :
    (s.land w len d f).mem = s.mem := by simp [State.land]

@[simp] theorem State.wake_mem (s : State) (w : Who) : (s.wake w).mem = s.mem := by simp [State.wake]

@[simp] theorem State.trapThread_mem (s : State) (w : Who) (t : Trap) :
    (s.trapThread w t).mem = s.mem := by simp [State.trapThread]

@[simp] theorem State.poisonThread_mem (s : State) (w : Who) : (s.poisonThread w).mem = s.mem := by simp [State.poisonThread]

@[simp] theorem State.feed_mem (s : State) (c : CoreId) (block : Nat) (d : BitVec 256) :
    (s.feed c block d).mem = s.mem := by
  simp only [State.feed]
  simp [foldl_mem]

@[simp] theorem State.askAgain_mem (s : State) (c : CoreId) (k : Nat) (es : List (Access × Option Nat)) :
    (s.askAgain c k es).mem = s.mem := by
  simp only [State.askAgain]
  split
  · split
    · rfl
    · next w => simp [wantBlock_mem w]
  · refine foldl_mem (fun t a => ?_) _ _
    split
    · exact getD_mem fun _ => wantBlock_mem
    · rfl

@[simp] theorem State.fillLoad_mem (s : State) (c : CoreId) (k : Nat) :
    (s.fillLoad c k).mem = s.mem := by
  simp only [State.fillLoad]; repeat' split
  all_goals simp [foldl_mem, apply_ite State.mem]

@[simp] theorem State.leaveBuffer_mem (s : State) (c : CoreId) (k : Nat) (e : StoreEntry) :
    (s.leaveBuffer c k e).mem = s.mem := by unfold State.leaveBuffer; split <;> simp

@[simp] theorem State.askFor_mem (s : State) (c : CoreId) (k : Nat) (e : StoreEntry) (slotUsed : Bool) :
    (s.askFor c k e slotUsed).mem = s.mem := by
  unfold State.askFor
  split
  · exact getD_mem fun _ => wantBlock_mem
  · split
    · rfl
    · next w => simp [wantAtomic_mem w]

theorem wf_performStore {s : State} (h : Memory.wf s.mem = true) (c : CoreId) (k : Nat) :
    Memory.wf (s.performStore c k).mem = true := by
  simp only [State.performStore]; repeat' split
  all_goals simp [h, wf_performHome, wf_evict]

@[simp] theorem State.endAtomic_mem (s : State) (c : CoreId) (a : PendingAtomic) (old : Nat) :
    (s.endAtomic c a old).mem = s.mem := by simp [State.endAtomic]

theorem wf_atomicResult {s : State} (h : Memory.wf s.mem = true) (c : CoreId) (slot : Nat) :
    Memory.wf (s.atomicResult c slot).mem = true := by
  simp only [State.atomicResult]
  split
  · exact h
  · split
    · simp [h]
    · split
      · exact h
      · split
        · simp [h]
        · split
          · simp [wf_performHome, h]
          · split <;> simp [wf_performHome, h]
          · exact h
          all_goals
            split
            · exact h
            · next w => simp [State.wantAtomic_mem w, h]

theorem State.takeNet_mem {s t : State} {k : Nat} {m : NetMsg} (e : s.takeNet k = .some (m, t)) : t.mem = s.mem := by
  unfold State.takeNet at e
  split at e
  · cases e
  · split at e
    · cases e
    · cases e; rfl

@[simp] theorem State.changeCore_mem (s : State) (c : CoreId) (block tag : Nat) :
    (s.changeCore c block tag).1.mem = s.mem := by unfold State.changeCore; split <;> rfl

@[simp] theorem State.changeRdc_mem (s : State) (die block tag : Nat) :
    (s.changeRdc die block tag).1.mem = s.mem := by unfold State.changeRdc; split <;> rfl

@[simp] theorem State.collect_mem (s : State) (p : PpId) :
    (s.collect p).mem = s.mem := by
  unfold State.collect; exact foldl_mem (fun _ _ => by simp) _ _

@[simp] theorem State.tagChange_mem (s : State) (k : Nat) : (s.tagChange k).mem = s.mem := by
  simp only [State.tagChange]
  split
  · next w =>
    split
    · simp [takeNet_mem w]
    · split <;> simp [takeNet_mem w]
    · rfl
    · exact takeNet_mem w
  · rfl

theorem wf_ackData {s : State} (h : Memory.wf s.mem = true) (p : PpId) (a block : Nat) (d : BitVec 256) :
    Memory.wf (s.ackData p a block d).mem = true := by
  unfold State.ackData
  split
  · split
    · exact h
    · exact wf_putHomeData h _ _
  · exact wf_putHomeData h _ _

theorem wf_tagAck {s : State} (h : Memory.wf s.mem = true) (k : Nat) : Memory.wf (s.tagAck k).mem = true := by
  simp only [State.tagAck]
  split
  · next w =>
    rw [← State.takeNet_mem w] at h
    repeat' split
    all_goals simp [wf_ackData, h]
  · exact h

theorem wf_peerAck {s : State} (h : Memory.wf s.mem = true) (k : Nat) :
    Memory.wf (s.peerAck k).mem = true := by
  simp only [State.peerAck]; repeat' split
  all_goals simp [h, wf_postError]

@[simp] theorem State.wakeRetry_mem (s : State) (c : CoreId) (q : Request) (performed : Bool) :
    (s.wakeRetry c q performed).mem = s.mem := by unfold State.wakeRetry; split <;> simp

theorem wf_storeAround {s : State} (h : Memory.wf s.mem = true) (c : CoreId) (block n : Nat) :
    Memory.wf (s.storeAround c block n).mem = true := by
  induction n generalizing s with
  | zero => exact h
  | succ n ih =>
    simp only [State.storeAround]
    split
    · exact h
    · exact ih (by simp [wf_performHome, h])

@[simp] theorem State.completeStores_mem (s : State) (c : CoreId) (block n : Nat) :
    (s.completeStores c block n).mem = s.mem := by
  induction n generalizing s with
  | zero => rfl
  | succ n ih =>
    simp only [State.completeStores]
    split
    · rfl
    · simp [ih]

@[simp] theorem State.completeAtomics_mem (s : State) (c : CoreId) (as : List PendingAtomic) :
    (s.completeAtomics c as).mem = s.mem := by
  simp only [State.completeAtomics]
  simp [foldl_mem, apply_ite State.mem]

theorem wf_grantTag {s : State} (h : Memory.wf s.mem = true) (c : CoreId) (q : Request) (tag : Nat) (data : BitVec 256) :
    Memory.wf (s.grantTag c q tag data).mem = true := by
  simp only [State.grantTag]; repeat' split
  all_goals simp [h, wf_install, wf_storeAround]

@[simp] theorem State.grantHome_mem (s : State) (c : CoreId) (q : Request) (data : BitVec 256) :
    (s.grantHome c q data).mem = s.mem := by
  simp only [State.grantHome]; repeat' split
  all_goals simp [foldl_mem]

theorem wf_putRdc {s : State} (h : Memory.wf s.mem = true) (b : RdcBlock) :
    Memory.wf (s.putRdc b).mem = true := wf_fillSectors h _ _ _ _

theorem wf_grantRdc {s : State} (h : Memory.wf s.mem = true) (sender : Nat) (proxy : PpId) (agent : Word) (block tag : Nat)
    (home : Bool) (data : BitVec 256) (payload : Word) (r : Region) :
    Memory.wf (s.grantRdc sender proxy agent block tag home data payload r).mem = true := by
  simp only [State.grantRdc]; repeat' split
  all_goals simp [h, wf_putRdc]

theorem wf_grantReceive {s : State} (h : Memory.wf s.mem = true) (k : Nat) : Memory.wf (s.grantReceive k).mem = true := by
  simp only [State.grantReceive]
  split
  · next w =>
    have ht := State.takeNet_mem w ▸ h
    repeat' split
    all_goals simp [wf_grantTag, wf_grantRdc, ht]
  · exact h

@[simp] theorem State.recheck_mem (s : State) (c : CoreId) (rtag : Nat) :
    (s.recheck c rtag).mem = s.mem := by unfold State.recheck; split <;> simp

@[simp] theorem State.nudgeRdc_mem (s : State) (p proxy : PpId) (block : Nat) : (s.nudgeRdc p proxy block).mem = s.mem := rfl

@[simp] theorem State.recheckAgent_mem (s : State) (p : PpId) (a : Word) (block : Nat) :
    (s.recheckAgent p a block).mem = s.mem := by unfold State.recheckAgent; split <;> simp

@[simp] theorem State.releaseNotice_mem (s : State) (k : Nat) : (s.releaseNotice k).mem = s.mem := by
  unfold State.releaseNotice
  split
  · next w => rw [recheckAgent_mem, takeNet_mem w]
  · rfl

@[simp] theorem State.resumeReceive_mem (s : State) (k : Nat) : (s.resumeReceive k).mem = s.mem := by
  unfold State.resumeReceive
  split
  · next w => rw [recheckAgent_mem, takeNet_mem w]
  · rfl

theorem wf_postRefusal {s : State} (h : Memory.wf s.mem = true) (ctx : CtxNo) (va size code : Nat) :
    Memory.wf (s.postRefusal ctx va size code).mem = true := wf_postError h _ _

theorem wf_refuseLoads {s : State} (h : Memory.wf s.mem = true) (c : CoreId) (ctx : CtxNo) (block code : Nat) :
    Memory.wf (s.refuseLoads c ctx block code).mem = true := by
  simp only [State.refuseLoads]
  refine wf_foldl (fun t l ht => ?_) _ h
  repeat' split
  all_goals simp [ht, wf_postRefusal]

theorem wf_refuseStores {s : State} (h : Memory.wf s.mem = true) (c : CoreId) (ctx : CtxNo) (code : Nat)
    (mine : StoreEntry → Bool) : Memory.wf (s.refuseStores c ctx code mine).mem = true := by
  simp only [State.refuseStores]
  refine wf_foldl (fun t e ht => ?_) _ h
  split
  all_goals simp [ht, wf_postRefusal]

theorem wf_refuseAtomics {s : State} (h : Memory.wf s.mem = true) (c : CoreId) (ctx : CtxNo) (rtag code : Nat) :
    Memory.wf (s.refuseAtomics c ctx rtag code).mem = true := by
  unfold State.refuseAtomics; exact wf_foldl (fun _ _ h => by simp [h, wf_postRefusal]) _ h

theorem wf_refuseCore {s : State} (h : Memory.wf s.mem = true) (c : CoreId) (rtag code : Nat) (ctx : CtxNo) :
    Memory.wf (s.refuseCore c rtag code ctx).mem = true := by
  unfold State.refuseCore
  split
  · exact h
  · extract_lets t u
    have hu : Memory.wf u.mem = true := by
      dsimp only [u]
      split
      all_goals simp [t, h, wf_postRefusal]
    split
    · exact wf_refuseLoads hu _ _ _ _
    · exact wf_refuseStores hu _ _ _ _
    · exact wf_refuseAtomics (wf_refuseStores hu _ _ _ _) _ _ _ _

@[simp] theorem State.refuseAtPp_mem (s : State) (p : PpId) (block code : Nat) :
    (s.refuseAtPp p block code).mem = s.mem := by
  simp only [State.refuseAtPp]; repeat' split
  all_goals simp [foldl_mem]

theorem wf_accessRefused {s : State} (h : Memory.wf s.mem = true) (k : Nat) : Memory.wf (s.accessRefused k).mem = true := by
  unfold State.accessRefused
  split
  · next w =>
    rw [← State.takeNet_mem w] at h
    split
    all_goals simp [wf_refuseCore, h]
  · next w => simp [State.takeNet_mem w, h]
  · exact h

theorem wf_postRemote {s : State} (h : Memory.wf s.mem = true) (c : CoreId) (cause : Nat) (a : Access) (reason : Nat) :
    Memory.wf (s.postRemote c cause a reason).mem = true := wf_postError h _ _

@[simp] theorem State.remoteDone_mem (s : State) (c : CoreId) (op : RemoteOp) (v : Nat) :
    (s.remoteDone c op v).mem = s.mem := by
  simp only [State.remoteDone]
  split
  · split
    · rfl
    · next l _ =>
      split
      · rfl
      · next j _ => cases l.elems[j]? <;> simp
  · split <;> simp
  · split <;> simp
  · rfl

@[simp] theorem State.dropAsk_mem (s : State) (c : CoreId) (type pa : Nat) : (s.dropAsk c type pa).mem = s.mem := rfl

theorem wf_remoteFailed {s : State} (h : Memory.wf s.mem = true) (c : CoreId) (op : RemoteOp) (reason : Nat) :
    Memory.wf (s.remoteFailed c op reason).mem = true := by
  unfold State.remoteFailed; repeat' split
  all_goals simp [h, wf_postRemote]

theorem wf_remoteEnds {s : State} (h : Memory.wf s.mem = true) (c : CoreId) (op : RemoteOp) (a3 : RemoteResult) :
    Memory.wf (s.remoteEnds c op a3).mem = true := by
  unfold State.remoteEnds; split
  all_goals simp [h, wf_remoteFailed]

theorem wf_endsOr {s : State} (h : Memory.wf s.mem = true) (c : CoreId) (op : RemoteOp) (a3 : Option RemoteResult) :
    Memory.wf (s.endsOr c op a3).mem = true := by
  unfold State.endsOr; split
  all_goals simp [h, wf_remoteEnds, wf_remoteFailed]

theorem wf_absorb {s : State} (h : Memory.wf s.mem = true) (c : CoreId) (ctx : CtxNo) (op : RemoteOp)
    (r : Option RemoteResult) :
    Memory.wf (s.absorb c ctx op r).mem = true := by
  unfold State.absorb; repeat' split
  all_goals simp [h, wf_endsOr]

theorem wf_remoteArrives {s : State} (h : Memory.wf s.mem = true) (c : CoreId) (op : RemoteOp) (r : Option RemoteResult) :
    Memory.wf (s.remoteArrives c op r).mem = true := by
  unfold State.remoteArrives; repeat' split
  all_goals simp [h, wf_absorb, wf_endsOr]

theorem wf_remoteOutcome {s : State} (h : Memory.wf s.mem = true) (c : CoreId) (k : Nat) (r : RemoteResult) :
    Memory.wf (s.remoteOutcome c k r).mem = true := by
  simp only [State.remoteOutcome]; repeat' split
  all_goals simp [h, wf_remoteArrives]

theorem wf_remoteTimeOut {s : State} (h : Memory.wf s.mem = true) (c : CoreId) (k : Nat) :
    Memory.wf (s.remoteTimeOut c k).mem = true := by
  unfold State.remoteTimeOut; repeat' split
  all_goals simp [h, wf_remoteArrives]

@[simp] theorem State.walkFailed_mem (s : State) (w : Walk) (f : MemFault) :
    (s.walkFailed w f).mem = s.mem := by
  simp only [State.walkFailed]
  simp [foldl_mem]

theorem wf_walkFound {s : State} (h : Memory.wf s.mem = true) (w : Walk) (l : Leaf) :
    Memory.wf (s.walkFound w l).mem = true := by
  simp only [State.walkFound]
  rw [foldl_mem fun _ _ => State.wake_mem _ _]
  refine wf_foldl (fun _ _ ht => ?_) _ ?_
  · exact ht
  · dsimp only
    repeat' split
    all_goals simp [h, wf_coherentWrite]

theorem wf_pageWalk {s : State} (h : Memory.wf s.mem = true) (k : Nat) : Memory.wf (s.pageWalk k).mem = true := by
  simp only [State.pageWalk]
  repeat' split
  all_goals simp [h, foldl_mem, wf_walkFound]

theorem wf_closeWindow {s : State} (h : Memory.wf s.mem = true) (k : Nat) :
    Memory.wf (s.closeWindow k).mem = true := by
  unfold State.closeWindow; repeat' split
  all_goals simp [h, wf_fillSectors]

/-! ### Tasks -/

theorem State.pushTask_mem {s u : State} {c : CoreId} {head : Bool} {t : TaskEntry} {v : Word}
    (e : s.pushTask c head t = .some (u, v)) : u.mem = s.mem := by
  simp only [State.pushTask] at e
  split at e
  · cases e
  · rw [← (Prod.mk.inj (Option.some.inj e)).1]; rfl

@[simp] theorem State.startTask_mem (s : State) (c : CoreId) (slot : Nat) (t : TaskEntry) :
    (s.startTask c slot t).mem = s.mem := by simp [State.startTask]

@[simp] theorem State.taskDispatch_mem (s : State) (c : CoreId) (slot : Nat) :
    (s.taskDispatch c slot).mem = s.mem := by
  unfold State.taskDispatch; repeat' split
  all_goals simp

@[simp] theorem State.taskSteal_mem (s : State) (c : CoreId) (slot : Nat) :
    (s.taskSteal c slot).mem = s.mem := by
  unfold State.taskSteal; repeat' split
  all_goals simp

@[simp] theorem State.callatAccept_mem (s : State) (c : CoreId) (k : Nat) : (s.callatAccept c k).mem = s.mem := by
  simp only [State.callatAccept]
  split
  · rfl
  · split
    · rfl
    · split
      · split
        · simp
        · split
          · next w => simp [pushTask_mem w]
          · simp
      · repeat' split
        all_goals simp

@[simp] theorem State.callatRetry_mem (s : State) (c : CoreId) (k : Nat) : (s.callatRetry c k).mem = s.mem := rfl

@[simp] theorem State.reply_mem (s : State) (r : Reply) (v : Word) (cover : List Nat) :
    (s.reply r v cover).mem = s.mem := by simp [State.reply]

@[simp] theorem State.callatReply_mem (s : State) (k : Nat) (peer : Word) :
    (s.callatReply k peer).mem = s.mem := by
  simp only [State.callatReply]; repeat' split
  all_goals simp

theorem wf_remoteCallFailed {s : State} (h : Memory.wf s.mem = true) (c : CoreId) (k reason : Nat) :
    Memory.wf (s.remoteCallFailed c k reason).mem = true := by
  unfold State.remoteCallFailed; repeat' split
  all_goals simp [h, wf_postError]

theorem wf_countDown {s t : State} {c : CoreId} {user : Bool} {slot : Nat} {cover : Cover} {join : Word}
    (h : Memory.wf s.mem = true) (e : s.countDown c user slot cover join = .some t) : Memory.wf t.mem = true := by
  simp only [State.countDown] at e
  split at e
  · cases e; exact h
  · next w =>
    split at e
    · cases e
    · cases e; exact (wf_checkWalk h w :)

theorem wf_joinCounterFailure {s : State} (h : Memory.wf s.mem = true) (k : Nat) :
    Memory.wf (s.joinCounterFailure k).mem = true := by
  unfold State.joinCounterFailure; split
  all_goals simp [h, wf_postError]

@[simp] theorem State.readCounter_mem (s : State) (c : CoreId) (a : Access) :
    (s.readCounter c a).1.mem = s.mem := by simp [State.readCounter]

@[simp] theorem State.joinRecheck_mem (s : State) (c : CoreId) (slot : Nat) : (s.joinRecheck c slot).mem = s.mem := by
  simp only [State.joinRecheck]
  split
  · split
    · rfl
    · split
      · repeat' split
        all_goals simp
      · split
        · rfl
        · next w => simp [wantLoad_mem w]
  · rfl

theorem State.closeStream_mem {s t : State} (e : s.closeStream = .some t) : t.mem = s.mem := by
  simp only [State.closeStream] at e
  split at e
  · cases e; rfl
  · split at e
    · cases e; rfl
    · cases e

theorem wf_cancelHere {s t : State} {a : Word} {v : Nat} (h : Memory.wf s.mem = true)
    (e : s.cancelHere a = .some (t, v)) : Memory.wf t.mem = true := by
  simp only [State.cancelHere] at e
  split at e
  · cases e
  · split at e
    · cases e; exact h
    · split at e
      · cases e; exact h
      · split at e
        · cases e
        · obtain ⟨u, w, q⟩ := Option.map_eq_some_iff.1 e
          cases q; exact wf_countDown (s := s.setCore _) h w

theorem wf_cancelTask {s t : State} {c : CoreId} {a : Word} {v : Nat} (h : Memory.wf s.mem = true)
    (e : s.cancelTask c a = .some (t, v)) : Memory.wf t.mem = true := by
  simp only [State.cancelTask] at e
  repeat' split at e
  case isFalse.isFalse.isFalse => exact wf_cancelHere h e
  all_goals cases e; exact h

theorem wf_cancelRequest {s : State} (h : Memory.wf s.mem = true) (c : CoreId) (slot : Nat) :
    Memory.wf (s.cancelRequest c slot).mem = true := by
  simp only [State.cancelRequest]
  split
  · split
    · exact h
    · split
      · exact h
      · next w => simp [wf_cancelTask h w]
  · exact h

/-! ### Barriers -/

@[simp] theorem State.completeBarrier_mem (s : State) (root : CoreId) (ch : Nat) (w : Who) (d : Reg) (v : Word) :
    (s.completeBarrier root ch w d v).mem = s.mem := by simp [State.completeBarrier]

@[simp] theorem State.releaseWaiters_mem (s : State) (root : CoreId) (ch : Nat) (r : Nat → Word) :
    (s.releaseWaiters root ch r).mem = s.mem := by
  simp only [State.releaseWaiters]
  refine foldl_mem (fun t w => ?_) _ _
  repeat' split
  all_goals simp

@[simp] theorem State.configure_mem (s : State) (c : CoreId) (ch : Nat) (w : Word) (count limit : Nat) :
    (s.configure c ch w count limit).mem = s.mem := by
  unfold State.configure; split
  all_goals simp [foldl_mem]

@[simp] theorem State.countArrival_mem (s : State) (root : CoreId) (ch : Nat) (w : Who) :
    (s.countArrival root ch w).mem = s.mem := rfl

@[simp] theorem State.barrierTimeOut_mem (s : State) (root : CoreId) (ch : Nat) :
    (s.barrierTimeOut root ch).mem = s.mem := by
  simp only [State.barrierTimeOut]; repeat' split
  all_goals simp [foldl_mem]

@[simp] theorem State.admitHeld_mem (s : State) (root : CoreId) (ch : Nat) (w : Who) :
    (s.admitHeld root ch w).mem = s.mem := by
  simp only [State.admitHeld]; repeat' split
  all_goals simp

@[simp] theorem State.barrierRelease_mem (s : State) (root : CoreId) (ch : Nat) : (s.barrierRelease root ch).mem = s.mem := by
  simp only [State.barrierRelease]
  split
  · rfl
  · rw [foldl_mem fun _ _ => admitHeld_mem _ _ _ _, withCore_mem]
    refine foldl_mem (fun t w => ?_) _ _
    repeat' split
    all_goals simp

/-! ### Messages -/

@[simp] theorem State.countSent_mem (s : State) (c : CoreId) : (s.countSent c).mem = s.mem := rfl

@[simp] theorem State.enterPort_mem (s : State) (c : CoreId) (port : Bool) (w : Vec) (cover : Cover) :
    (s.enterPort c port w cover).mem = s.mem := by simp [State.enterPort]

@[simp] theorem State.endSend_mem (s : State) (c : CoreId) (e : Sending) (status : Word) :
    (s.endSend c e status).mem = s.mem := by simp [State.endSend]

@[simp] theorem State.deliverSend_mem (s : State) (c : CoreId) (e : Sending) :
    (s.deliverSend c e).mem = s.mem := by simp [State.deliverSend]

@[simp] theorem State.commitSends_mem (s : State) (c : CoreId) (slot : Nat) : (s.commitSends c slot).mem = s.mem := by
  simp only [State.commitSends]
  split
  · rfl
  · refine foldl_mem (fun t m => ?_) _ _
    split <;> simp

@[simp] theorem State.sendDelivery_mem (s : State) (c : CoreId) (slot : Nat) :
    (s.sendDelivery c slot).mem = s.mem := by
  unfold State.sendDelivery; repeat' split
  all_goals simp

@[simp] theorem State.sendRetry_mem (s : State) (c : CoreId) (slot : Nat) :
    (s.sendRetry c slot).mem = s.mem := by
  unfold State.sendRetry; repeat' split
  all_goals rfl

@[simp] theorem State.sendTimesOut_mem (s : State) (c : CoreId) (slot : Nat) :
    (s.sendTimesOut c slot).mem = s.mem := by
  simp only [State.sendTimesOut]; repeat' split
  all_goals simp

@[simp] theorem State.sendHeader_mem (s : State) (c : CoreId) (slot : Nat) (st : Stream) :
    (s.sendHeader c slot st).mem = s.mem := by unfold State.sendHeader; split <;> rfl

@[simp] theorem State.takePort_mem (s : State) (c : CoreId) (slot : Nat) (st : Stream) :
    (s.takePort c slot st).mem = s.mem := by simp [State.takePort]

@[simp] theorem State.waitPut_mem (s : State) : (s.waitPut).mem = s.mem := rfl

@[simp] theorem State.putWord_mem (s : State) (w : Vec) : (s.putWord w).mem = s.mem := rfl

theorem okFormed_put {s : State} (h : Memory.wf s.mem = true) (w : Vec) (nb : Option Reg) :
    OkFormed (s.put w nb) := by
  simp only [State.put]; repeat' split
  all_goals simp [h]

@[simp] theorem State.wakePut_mem (s : State) (c : CoreId) (slot : Nat) :
    (s.wakePut c slot).mem = s.mem := by simp [State.wakePut]

@[simp] theorem State.streamHeader_mem (s : State) (c : CoreId) (slot : Nat) :
    (s.streamHeader c slot).mem = s.mem := by
  unfold State.streamHeader; repeat' split
  all_goals simp

@[simp] theorem State.streamWord_mem (s : State) (c : CoreId) (k : Nat) :
    (s.streamWord c k).mem = s.mem := by
  unfold State.streamWord; repeat' split
  all_goals simp

@[simp] theorem State.streamClose_mem (s : State) (c : CoreId) (k : Nat) :
    (s.streamClose c k).mem = s.mem := by
  unfold State.streamClose; repeat' split
  all_goals rfl

theorem okFormed_pop {s : State} (h : Memory.wf s.mem = true) (q : Nat) (d : Dest) (len : Nat) :
    OkFormed (s.pop q d len) := by
  simp only [State.pop]; repeat' split
  all_goals simp [h]

/-- The state in which the engine's access leaves the package, however it answers. -/
def EngineAnswer.state : EngineAnswer → State
  | .ok s _ | .wait s _ | .fail s _ => s

/-- The same of an access that is still to be performed. -/
def EngineReady.state : EngineReady → State
  | .ok s _ _ _ | .wait s _ | .fail s _ => s

@[simp] theorem EngineReady.state_ok (s : State) (t : Target) (tag : Option Nat) (v : Nat) : (ok s t tag v).state = s := rfl
@[simp] theorem EngineReady.state_wait (s : State) (tag : Nat) : (wait s tag).state = s := rfl
@[simp] theorem EngineReady.state_fail (s : State) (f : EngineFail) : (fail s f).state = s := rfl

/-! ### Engine -/

@[simp] theorem engineAsk_mem (s : State) (cl : ClusterId) (path : Nat) (r : Region) (t : Target) (n : Nat)
    (write : Option Nat) (remote : Bool) : (s.engineAsk cl path r t n write remote).state.mem = s.mem := by
  simp only [State.engineAsk]
  repeat' split
  all_goals rfl

@[simp] theorem State.engineDrop_mem (s : State) (cl : ClusterId) (tag : Nat) : (s.engineDrop cl tag).mem = s.mem := rfl

theorem wf_enginePerform {s : State} (h : Memory.wf s.mem = true) (w : Who) (path : Nat) (own : List Nat) (pa n : Nat)
    (write : Option Nat) : Memory.wf (s.enginePerform w path own pa n write).state.mem = true := by
  unfold State.enginePerform
  cases write with
  | none => exact h
  | some v =>
    show Memory.wf (State.clearPoison _ _ _).mem = true
    rw [State.clearPoison_mem]
    exact wf_writeThrough (by exact h) _ _ _

@[simp] theorem rdcPerform_mem (s : State) (r : RdcBlock) (pa n : Nat) (write : Option Nat) :
    (s.rdcPerform r pa n write).state.mem = s.mem := by
  cases write <;> rfl

@[simp] theorem ofAnswer_state (a : EngineAnswer) : (EngineReady.ofAnswer a).state = a.state := by
  cases a <;> rfl

theorem wf_engineResolve {s : State} {cl : ClusterId} {c : CoreId} {user : Bool} {path : Nat} {req : Option Nat} {va n : Nat}
    {write : Option Nat} {a : EngineReady} (h : Memory.wf s.mem = true)
    (e : s.engineResolve cl c user path req va n write = a) : Memory.wf a.state.mem = true := by
  subst e
  unfold State.engineResolve
  extract_lets missing
  split
  · exact h
  · split
    · exact h
    · next w =>
      have ht := wf_checkWalk h w
      repeat' split
      all_goals simp [ht]

theorem wf_engineCommit {s : State} {cl : ClusterId} {w : Who} {path : Nat} {own : List Nat} {rtag : Option Nat} {pa n v : Nat}
    {write : Option Nat} {a : EngineAnswer} (h : Memory.wf s.mem = true)
    (e : s.engineCommit cl w path own rtag pa n v write = a) : Memory.wf a.state.mem = true := by
  subst e
  unfold State.engineCommit
  extract_lets s1
  have h1 : Memory.wf s1.mem = true := by
    simp only [s1]
    split <;> simp [h]
  split
  · rw [rdcPerform_mem]; exact h1
  · split
    · exact h1
    · exact wf_enginePerform h1 _ _ _ _ _ _

theorem wf_engineAccess {s : State} {cl : ClusterId} {c : CoreId} {slot : Nat} {user : Bool} {path : Nat} {own : List Nat}
    {req : Option Nat} {va n : Nat} {write : Option Nat} {a : EngineAnswer} (h : Memory.wf s.mem = true)
    (e : s.engineAccess cl c slot user path own req va n write = a) : Memory.wf a.state.mem = true := by
  subst e
  unfold State.engineAccess
  split
  · next w => exact wf_engineCommit (wf_engineResolve h w :) rfl
  · next w => exact (wf_engineResolve h w :)
  · next w => exact (wf_engineResolve h w :)

theorem wf_postEngine {s : State} (h : Memory.wf s.mem = true) (ctx : CtxNo) (cause : Nat) (va : Word) (code size : Nat)
    (f : EngineFail) :
    Memory.wf (s.postEngine ctx cause va code size f).mem = true := by
  unfold State.postEngine; split
  all_goals simp [h, wf_postError]

theorem wf_setSync {s : State} (h : Memory.wf s.mem = true) (pa off n v : Nat) :
    Memory.wf (s.setSync pa off n v).mem = true := wf_homeWrite h _ _ _

@[simp] theorem State.acquireSync_mem (s : State) (w : Who) (pa : Nat) : (s.acquireSync w pa).mem = s.mem := rfl

@[simp] theorem State.endSyncw_mem (s : State) (w : Who) (pa : Nat) (d : Reg) :
    (s.endSyncw w pa d).mem = s.mem := by simp [State.endSyncw]

@[simp] theorem State.wakeSync_mem (s : State) (pa : Nat) : (s.wakeSync pa).mem = s.mem := by
  unfold State.wakeSync
  refine foldl_mem (fun t k => ?_) _ _
  repeat' split
  all_goals simp

@[simp] theorem State.coverSync_mem (s : State) (p : Post) (changes : Bool) : (s.coverSync p changes).mem = s.mem := rfl

/-- A post writes four fields of its sync block (R163). -/
theorem wf_post {s : State} (h : Memory.wf s.mem = true) (p : Post) : Memory.wf (s.post p).mem = true := by
  unfold State.post
  extract_lets tg count gens left flags s1 s2 s3 s4 s5
  have h5 : Memory.wf s5.mem = true := by
    iterate 4 refine wf_setSync ?_ _ _ _ _
    simp [s1, h]
  split
  · rw [State.wakeSync_mem]; exact h5
  · exact h5

theorem wf_breakSync {s : State} (h : Memory.wf s.mem = true) (pa : Nat) :
    Memory.wf (s.breakSync pa).mem = true := by simp [State.breakSync, h, wf_setSync]

@[simp] theorem State.sendPost_mem (s : State) (p : Post) :
    (s.sendPost p).mem = s.mem := by unfold State.sendPost; split <;> rfl

theorem wf_takePost {s : State} (h : Memory.wf s.mem = true) (cl : ClusterId) : Memory.wf (s.takePost cl).mem = true := by
  simp only [State.takePost]
  split
  · exact h
  · exact wf_post (by exact h) _

/-! ### Copies -/

@[simp] theorem State.copyStart_mem (s : State) (cl : ClusterId) :
    (s.copyStart cl).mem = s.mem := by
  simp only [State.copyStart]; repeat' split
  all_goals simp

theorem wf_copyAccess {s : State} (h : Memory.wf s.mem = true) (k : Copy) (va : Word) (n : Nat) (write : Option Nat)
    (next : Copy → Nat → Nat → Copy) : Memory.wf (s.copyAccess k va n write next).mem = true := by
  simp only [State.copyAccess]
  split
  · next w => exact (wf_engineResolve h w :)
  · next w => exact (wf_engineResolve h w :)
  · next w =>
    have ht := wf_engineResolve h w
    split
    all_goals next w' => exact (wf_engineCommit ht w' :)

theorem wf_copyPiece {s : State} (h : Memory.wf s.mem = true) (k : Copy) :
    Memory.wf (s.copyPiece k).mem = true := by
  simp only [State.copyPiece]; repeat' split
  all_goals simp [h, wf_copyAccess]

@[simp] theorem State.fillTicket_mem (s : State) (c : CoreId) (slot : Nat) (d : Dest) (v : Word) :
    (s.fillTicket c slot d v).mem = s.mem := by simp [State.fillTicket]

@[simp] theorem State.endCopy_mem (s : State) (k : Copy) (status bits : Nat) :
    (s.endCopy k status bits).mem = s.mem := by unfold State.endCopy; split <;> simp

theorem wf_copyComplete {s : State} (h : Memory.wf s.mem = true) (cl : ClusterId) (i : Nat) :
    Memory.wf (s.copyComplete cl i).mem = true := by
  unfold State.copyComplete; repeat' split
  all_goals simp [h, wf_postEngine]

theorem wf_copyFault {s : State} (h : Memory.wf s.mem = true) (cl : ClusterId) (i : Nat) :
    Memory.wf (s.copyFault cl i).mem = true := by
  unfold State.copyFault; repeat' split
  all_goals simp [h, wf_postEngine]

@[simp] theorem State.cancelCopy_mem (s : State) (k : Copy) :
    (s.cancelCopy k).mem = s.mem := by unfold State.cancelCopy; split <;> simp

@[simp] theorem State.syncwRecheck_mem (s : State) (c : CoreId) (slot : Nat) :
    (s.syncwRecheck c slot).mem = s.mem := by
  simp only [State.syncwRecheck]; repeat' split
  all_goals simp

/-! ### Matrix -/

@[simp] theorem State.withBank_mem (s : State) (cl : ClusterId) (b : Nat) (f : Bank → Bank) :
    (s.withBank cl b f).mem = s.mem := rfl

@[simp] theorem State.withTile_mem (s : State) (cl : ClusterId) (b t : Nat) (f : Tile → Tile) :
    (s.withTile cl b t f).mem = s.mem := rfl

@[simp] theorem State.touchLease_mem (s : State) (cl : ClusterId) :
    (s.touchLease cl).mem = s.mem := by
  simp only [State.touchLease]; repeat' split
  all_goals simp

@[simp] theorem State.wakeLease_mem (s : State) (cl : ClusterId) (b : Nat) : (s.wakeLease cl b).mem = s.mem := by
  unfold State.wakeLease
  refine foldl_mem (fun t c => foldl_mem (fun u i => ?_) _ _) _ _
  split <;> simp

@[simp] theorem State.traceLease_mem (s : State) (type : Nat) (cl : ClusterId) (b : Nat) :
    (s.traceLease type cl b).mem = s.mem := rfl

@[simp] theorem State.grantLease_mem (s : State) (cl : ClusterId) (b : Nat) :
    (s.grantLease cl b).mem = s.mem := by simp [State.grantLease]

@[simp] theorem State.endLease_mem (s : State) (cl : ClusterId) :
    (s.endLease cl).mem = s.mem := by
  simp only [State.endLease]; repeat' split
  all_goals simp

@[simp] theorem State.settleLease_mem (s : State) (cl : ClusterId) :
    (s.settleLease cl).mem = s.mem := by
  simp only [State.settleLease]; repeat' split
  all_goals simp

@[simp] theorem State.chooseLease_mem (s : State) (cl : ClusterId) (comp : List Nat) :
    (s.chooseLease cl comp).1.mem = s.mem := by
  simp only [State.chooseLease]; repeat' split
  all_goals simp

@[simp] theorem State.revokeLease_mem (s : State) (cl : ClusterId) (b : Nat) :
    (s.revokeLease cl b).mem = s.mem := by
  simp only [State.revokeLease]; repeat' split
  all_goals simp [foldl_mem]

@[simp] theorem State.leaseGrant_mem (s : State) (cl : ClusterId) :
    (s.leaseGrant cl).mem = s.mem := by
  simp only [State.leaseGrant]; repeat' split
  all_goals simp

@[simp] theorem State.leaseTimeLimit_mem (s : State) (cl : ClusterId) :
    (s.leaseTimeLimit cl).mem = s.mem := by
  simp only [State.leaseTimeLimit]; repeat' split
  all_goals simp

@[simp] theorem State.leaseIdleEnd_mem (s : State) (cl : ClusterId) :
    (s.leaseIdleEnd cl).mem = s.mem := by
  simp only [State.leaseIdleEnd]; repeat' split
  all_goals simp

@[simp] theorem State.dropRequests_mem (s : State) (cl : ClusterId) (c : MatrixCommand) :
    (s.dropRequests cl c).mem = s.mem := by
  unfold State.dropRequests; exact foldl_mem (fun _ _ => by simp) _ _

@[simp] theorem State.matrixTicket_mem (s : State) (c : MatrixCommand) (st count : Nat) :
    (s.matrixTicket c st count).mem = s.mem := by simp [State.matrixTicket]

@[simp] theorem State.matrixPost_mem (s : State) (cl : ClusterId) (b : Nat) (c : MatrixCommand) (bits : Nat) (broken : Bool) :
    (s.matrixPost cl b c bits broken).mem = s.mem := by unfold State.matrixPost; split <;> simp

@[simp] theorem State.releaseLease_mem (s : State) (cl : ClusterId) (b : Nat) :
    (s.releaseLease cl b).mem = s.mem := by
  simp only [State.releaseLease]; repeat' split
  all_goals simp

@[simp] theorem State.wakeMatrixThread_mem (s : State) (w : Who) :
    (s.wakeMatrixThread w).mem = s.mem := by
  unfold State.wakeMatrixThread; repeat' split
  all_goals simp

@[simp] theorem State.afterMatrix_mem (s : State) (cl : ClusterId) : (s.afterMatrix cl).mem = s.mem := by
  unfold State.afterMatrix
  rw [settleLease_mem]
  exact foldl_mem (fun t i => foldl_mem (fun u k => wakeMatrixThread_mem u _) _ t) _ s

@[simp] theorem State.retire_mem (s : State) (cl : ClusterId) (b : Nat) (c : MatrixCommand) (st count : Nat) :
    (s.retire cl b c st count).mem = s.mem := by simp [State.retire]

@[simp] theorem State.completeCompute_mem (s : State) (cl : ClusterId) (b : Nat) (c : MatrixCommand) :
    (s.completeCompute cl b c).mem = s.mem := by
  simp only [State.completeCompute]
  split
  · simp
  · split <;> simp

@[simp] theorem State.killCommand_mem (s : State) (cl : ClusterId) (b : Nat) (c : MatrixCommand) :
    (s.killCommand cl b c).mem = s.mem := by
  unfold State.killCommand; repeat' split
  all_goals simp

theorem okFormed_enqueue {s : State} (h : Memory.wf s.mem = true) (cl : ClusterId) (b : Nat) (c : MatrixCommand)
    (kind : Option TileKind) (d : Reg) :
    OkFormed (s.enqueue cl b c kind d) := by
  unfold State.enqueue; repeat' split
  all_goals simp [h]

@[simp] theorem State.abortTile_mem (s : State) (cl : ClusterId) (b t : Nat) : (s.abortTile cl b t).1.mem = s.mem := by
  simp only [State.abortTile, withTile_mem]
  rw [foldl_mem, foldl_mem]
  all_goals
    intro u c
    split <;> simp

/-! ### MatrixRun -/

@[simp] theorem State.setCommand_mem (s : State) (cl : ClusterId) (b : Nat) (c : MatrixCommand) :
    (s.setCommand cl b c).mem = s.mem := rfl

@[simp] theorem State.startCompute_mem (s : State) (cl : ClusterId) (b : Nat) (c : MatrixCommand) :
    (s.startCompute cl b c).mem = s.mem := by
  simp only [State.startCompute]; repeat' split
  all_goals simp

@[simp] theorem State.startPort_mem (s : State) (cl : ClusterId) (b : Nat) (c : MatrixCommand) :
    (s.startPort cl b c).mem = s.mem := by
  simp only [State.startPort]; repeat' split
  all_goals simp

@[simp] theorem State.matrixStart_mem (s : State) (cl : ClusterId) (b i : Nat) :
    (s.matrixStart cl b i).mem = s.mem := by
  unfold State.matrixStart; repeat' split
  all_goals simp

theorem wf_fetchPiece {s : State} (h : Memory.wf s.mem = true) (cl : ClusterId) (b : Nat) (c : MatrixCommand) (p : Piece)
    (due : Bool) : Memory.wf (s.fetchPiece cl b c p due).mem = true := by
  unfold State.fetchPiece
  split
  all_goals next w => rw [State.setCommand_mem]; exact (wf_engineAccess h w :)

theorem wf_writePiece {s : State} (h : Memory.wf s.mem = true) (cl : ClusterId) (b : Nat) (c : MatrixCommand) (p : Piece)
    (i v : Nat) : Memory.wf (s.writePiece cl b c p i v).mem = true := by
  simp only [State.writePiece]
  split
  all_goals
    next w =>
      have ht := wf_engineAccess h w
      dsimp only [EngineAnswer.state] at ht
      repeat' split
      all_goals simp [ht]

@[simp] theorem State.advanceGroup_mem (s : State) (cl : ClusterId) (b : Nat) (c : MatrixCommand) (t : Tile) (kpos row : Nat)
    (done : Bool) (used : List Piece) :
    (s.advanceGroup cl b c t kpos row done used).mem = s.mem := rfl

@[simp] theorem State.doGroup_mem (s : State) (cl : ClusterId) (b : Nat) (c : MatrixCommand) :
    (s.doGroup cl b c).mem = s.mem := by
  simp only [State.doGroup]; repeat' split
  all_goals simp

theorem wf_holdPeer {s : State} (h : Memory.wf s.mem = true) (cl : ClusterId) (r : Region) (t : Target) :
    Memory.wf (s.holdPeer cl r t).mem = true := by
  simp only [State.holdPeer]; repeat' split
  all_goals simp [h, wf_putRdc]

theorem wf_resolvePiece {s : State} (h : Memory.wf s.mem = true) (cl : ClusterId) (b : Nat) (c : MatrixCommand) (p : Piece)
    (v : Nat) : Memory.wf (s.resolvePiece cl b c p v).mem = true := by
  unfold State.resolvePiece
  split
  next w => rw [State.setCommand_mem]; exact wf_holdPeer (wf_engineResolve h w :) _ _ _
  next w => rw [State.setCommand_mem]; exact (wf_engineResolve h w :)
  next w => rw [State.setCommand_mem]; exact (wf_engineResolve h w :)

@[simp] theorem State.renewPiece_mem (s : State) (cl : ClusterId) (c : MatrixCommand) (p : Piece) :
    (s.renewPiece cl c p).1.mem = s.mem := by
  unfold State.renewPiece
  split
  · cases c.request p <;> simp
  · rfl

theorem wf_commitBlock {s : State} (h : Memory.wf s.mem = true) (cl : ClusterId) (c : MatrixCommand)
    (ws : List (Piece × Nat)) : Memory.wf (s.commitBlock cl c ws).mem = true := by
  simp only [State.commitBlock]
  refine wf_foldl (fun t g ht => ?_) _ h
  split
  · exact ht
  · split
    all_goals next w => exact (wf_engineCommit ht w :)

theorem wf_transformStep {s : State} (h : Memory.wf s.mem = true) (cl : ClusterId) (b : Nat) (c : MatrixCommand) :
    Memory.wf (s.transformStep cl b c).mem = true := by
  simp only [State.transformStep]; repeat' split
  all_goals simp [h, wf_fetchPiece, wf_resolvePiece, wf_commitBlock]

theorem wf_twiddleStep {s : State} (h : Memory.wf s.mem = true) (cl : ClusterId) (b : Nat) (c : MatrixCommand) :
    Memory.wf (s.twiddleStep cl b c).mem = true := by
  simp only [State.twiddleStep]; repeat' split
  all_goals simp [h, wf_fetchPiece, wf_writePiece]

theorem wf_drainPiece {s : State} (h : Memory.wf s.mem = true) (cl : ClusterId) (b : Nat) (c : MatrixCommand) (i : Nat) :
    Memory.wf (s.drainPiece cl b c i).mem = true := by
  unfold State.drainPiece; repeat' split
  all_goals simp [h, wf_writePiece]

theorem wf_rowGroup {s : State} (h : Memory.wf s.mem = true) (cl : ClusterId) (b i : Nat) :
    Memory.wf (s.rowGroup cl b i).mem = true := by
  simp only [State.rowGroup]; repeat' split
  all_goals simp [h, wf_fetchPiece, wf_twiddleStep, wf_transformStep, wf_drainPiece]

theorem wf_matrixPiece {s : State} (h : Memory.wf s.mem = true) (cl : ClusterId) (b i kc g n : Nat) :
    Memory.wf (s.matrixPiece cl b i kc g n).mem = true := by
  simp only [State.matrixPiece]; repeat' split
  all_goals simp [h, wf_fetchPiece, wf_drainPiece]

@[simp] theorem State.matrixComplete_mem (s : State) (cl : ClusterId) (b i : Nat) :
    (s.matrixComplete cl b i).mem = s.mem := by
  unfold State.matrixComplete; repeat' split
  all_goals simp

theorem wf_suspend {s : State} (h : Memory.wf s.mem = true) (cl : ClusterId) (b : Nat) (c : MatrixCommand) (cause : Nat)
    (va : Word) (f : EngineFail) :
    Memory.wf (s.suspend cl b c cause va f).mem = true := by simp [State.suspend, h, wf_postEngine]

theorem wf_matrixSuspend {s : State} (h : Memory.wf s.mem = true) (cl : ClusterId) (b i : Nat) (mismatch : Bool) :
    Memory.wf (s.matrixSuspend cl b i mismatch).mem = true := by
  unfold State.matrixSuspend; repeat' split
  all_goals simp [h, wf_suspend]

@[simp] theorem State.drainComplete_mem (s : State) (cl : ClusterId) (b i : Nat) : (s.drainComplete cl b i).mem = s.mem := by
  simp only [State.drainComplete]
  split
  · rfl
  · split
    · rfl
    · split <;> simp

@[simp] theorem State.bufferEntry_mem (s : State) (c : CoreId) (e : Vec) :
    (s.bufferEntry c e).mem = s.mem := by
  simp only [State.bufferEntry]; repeat' split
  all_goals simp

@[simp] theorem State.drainqComplete_mem (s : State) (cl : ClusterId) (b i : Nat) : (s.drainqComplete cl b i).mem = s.mem := by
  simp only [State.drainqComplete]
  split
  · rfl
  · split
    · rfl
    · split <;> simp [foldl_mem]

theorem wf_drainFault {s : State} (h : Memory.wf s.mem = true) (cl : ClusterId) (b i : Nat) :
    Memory.wf (s.drainFault cl b i).mem = true := by
  unfold State.drainFault; repeat' split
  all_goals simp [h, wf_postEngine]

theorem wf_stopCommand {s : State} (h : Memory.wf s.mem = true) (cl : ClusterId) (b : Nat) (c : MatrixCommand) :
    Memory.wf (s.stopCommand cl b c).mem = true := by
  unfold State.stopCommand; repeat' split
  all_goals simp [h, wf_suspend]

theorem wf_leaseOverrun {s : State} (h : Memory.wf s.mem = true) (cl : ClusterId) :
    Memory.wf (s.leaseOverrun cl).mem = true := by
  unfold State.leaseOverrun; exact wf_foldl (fun _ _ h => by split <;> simp [h, wf_stopCommand]) _ h

/-! ### Gaussian -/

theorem wf_writeHeader {s : State} (h : Memory.wf s.mem = true) (pa : Nat) (k : Shadow) :
    Memory.wf (s.writeHeader pa k).mem = true := by
  unfold State.writeHeader
  exact wf_homeWrite (wf_homeWrite (wf_homeWrite h _ _ _) _ _ _) _ _ _

@[simp] theorem State.withMailbox_mem (s : State) (c : CoreId) (f : Mailbox → Mailbox) : (s.withMailbox c f).mem = s.mem := rfl

theorem wf_takeSlot {s : State} (h : Memory.wf s.mem = true) (c : CoreId) (i : Nat) :
    Memory.wf (s.takeSlot c i).mem = true := wf_writeHeader h _ _

@[simp] theorem State.acquireSlot_mem (s : State) (w : Who) (c : CoreId) (i : Nat) : (s.acquireSlot w c i).mem = s.mem := rfl

theorem wf_pollTake {s : State} (h : Memory.wf s.mem = true) (c : CoreId) (slot : Nat) (rr : Bool) (i : Nat) :
    Memory.wf (s.pollTake c slot rr i).1.mem = true := by
  unfold State.pollTake; split
  all_goals simp [h, wf_takeSlot]

theorem wf_servePolls {s : State} (h : Memory.wf s.mem = true) (c : CoreId) : Memory.wf (s.servePolls c).mem = true := by
  simp only [State.servePolls]
  split
  · exact h
  · refine wf_foldl (fun t p ht => ?_) _ h
    split
    · exact ht
    · simp [wf_pollTake, ht]

theorem wf_clearHeaders {s : State} (h : Memory.wf s.mem = true) (pa n : Nat) :
    Memory.wf (s.clearHeaders pa n).mem = true := by
  unfold State.clearHeaders; exact wf_foldl (fun _ _ h => by simp [h, wf_homeWrite]) _ h

theorem wf_mailboxConfigure {s : State} (h : Memory.wf s.mem = true) (c : CoreId) (slot : Nat) :
    Memory.wf (s.mailboxConfigure c slot).mem = true := by
  simp only [State.mailboxConfigure]; repeat' split
  all_goals simp [h, wf_clearHeaders]

@[simp] theorem State.mailboxPost_mem (s : State) (g : GbMessage) (m : Mailbox) (bits : Nat) :
    (s.mailboxPost g m bits).mem = s.mem := by unfold State.mailboxPost; split <;> simp

theorem wf_refuseMessage {s : State} (h : Memory.wf s.mem = true) (g : GbMessage) (m : Mailbox) :
    Memory.wf (s.refuseMessage g m).mem = true := by simp [State.refuseMessage, h, wf_postError]

@[simp] theorem State.clearSlot_mem (s : State) (pa : Nat) : (s.clearSlot pa).mem = s.mem := rfl

theorem wf_deliver {s : State} (h : Memory.wf s.mem = true) (g : GbMessage) :
    Memory.wf (s.deliver g).mem = true := by
  simp only [State.deliver]; repeat' split
  all_goals simp [h, wf_refuseMessage, wf_homeWrite]

@[simp] theorem State.acceptMessage_mem (s : State) (g : GbMessage) : (s.acceptMessage g).mem = s.mem := rfl

theorem wf_mailboxDelivery {s : State} (h : Memory.wf s.mem = true) (cl : ClusterId) (k : Nat) :
    Memory.wf (s.mailboxDelivery cl k).mem = true := by
  simp only [State.mailboxDelivery]; repeat' split
  all_goals simp [h, wf_deliver]

theorem wf_readSlot {s : State} (h : Memory.wf s.mem = true) (w : Who) (pa : Nat) (take : Bool) :
    Memory.wf (s.readSlot w pa take).mem = true := by
  unfold State.readSlot; repeat' split
  all_goals simp [h, wf_takeSlot]

theorem wf_serveUnit {s : State} (h : Memory.wf s.mem = true) (c : CoreId) (k : Nat) :
    Memory.wf (s.serveUnit c k).mem = true := by
  unfold State.serveUnit; repeat' split
  all_goals simp [h, wf_readSlot]

/-! ### Handler -/

@[simp] theorem State.noteSector_mem (s : State) (p : PpId) (block : Nat) (ctx : CtxNo) :
    (s.noteSector p block ctx).mem = s.mem := by
  simp only [State.noteSector]; repeat' split
  all_goals simp

@[simp] theorem startHandler_mem (s : State) (p : PpId) (tid : Nat) (m : PpMsg) (lane pc : Nat) :
    (startHandler s p tid m lane pc).mem = s.mem := by simp [startHandler]

@[simp] theorem State.markSent_mem (s : State) (c : CoreId) (q : Request) :
    (s.markSent c q).mem = s.mem := by
  unfold State.markSent; repeat' split
  all_goals rfl

theorem wf_performFor {s : State} (h : Memory.wf s.mem = true) (c : CoreId) (rtag : Nat) :
    Memory.wf (s.performFor c rtag).mem = true := by
  unfold State.performFor; repeat' split
  all_goals simp [h, wf_performHome]

theorem wf_performMsg {s : State} (h : Memory.wf s.mem = true) (p : PpId) (m : PpMsg) :
    Memory.wf (s.performMsg p m).mem = true := by
  unfold State.performMsg; split
  all_goals simp [h, wf_performFor]

theorem wf_sendGrant {s : State} (h : Memory.wf s.mem = true) (p : PpId) (agent : Word) (block tag : Nat) (home : Bool)
    (payload : Word) (ctx : CtxNo) :
    Memory.wf (s.sendGrant p agent block tag home payload ctx).mem = true := by
  simp only [State.sendGrant]; repeat' split
  all_goals simp [h, wf_performFor, wf_performMsg]

@[simp] theorem State.recallEntry_mem (s : State) (b : HomeBlock) : (s.recallEntry b).mem = s.mem := rfl

@[simp] theorem State.putEntry_mem (s : State) (p : PpId) (m : PpMsg) (block : Nat) (e : Word) (o : Bool) :
    (s.putEntry p m block e o).mem = s.mem := by
  simp only [State.putEntry]; repeat' split
  all_goals simp

@[simp] theorem State.holdBlock_mem (s : State) (p : PpId) (m : PpMsg) :
    (s.holdBlock p m).mem = s.mem := by
  simp only [State.holdBlock]; repeat' split
  all_goals simp

@[simp] theorem State.sendTag_mem (s : State) (p : PpId) (agent block tag : Nat) (r : Region) :
    (s.sendTag p agent block tag r).mem = s.mem := rfl

@[simp] theorem State.lowerThenRetry_mem (s : State) (p : PpId) (m : PpMsg) (agents keep : List Nat) (exclusive : Bool) :
    (s.lowerThenRetry p m agents keep exclusive).mem = s.mem := by
  simp only [State.lowerThenRetry]
  split
  · exact holdBlock_mem s p m
  · rw [putEntry_mem, foldl_mem fun t a => sendTag_mem t _ _ _ _ _, holdBlock_mem]

@[simp] theorem State.forwardHome_mem (s : State) (p : PpId) (m : PpMsg) :
    (s.forwardHome p m).mem = s.mem := by
  simp only [State.forwardHome]; repeat' split
  all_goals simp

@[simp] theorem State.atomicAtRdc_mem (s : State) (p : PpId) (m : PpMsg) (r : RdcBlock) :
    (s.atomicAtRdc p m r).mem = s.mem := by
  simp only [State.atomicAtRdc]; repeat' split
  all_goals simp

@[simp] theorem State.proxyTag_mem (s : State) (p : PpId) (m : PpMsg) (copies : List Nat) :
    (s.proxyTag p m copies).mem = s.mem := by
  simp only [State.proxyTag]; repeat' split
  all_goals simp

@[simp] theorem State.proxyDone_mem (s : State) (p : PpId) (m : PpMsg) : (s.proxyDone p m).mem = s.mem := by
  simp only [State.proxyDone, freeBlock_mem, withPp_mem]
  refine foldl_mem (fun t k => ?_) _ _
  split <;> rfl

@[simp] theorem State.recallCopies_mem (s : State) (p : PpId) (m : PpMsg) (agents : List Nat) :
    (s.recallCopies p m agents).mem = s.mem := by
  unfold State.recallCopies
  split
  · exact freeBlock_mem s _ _ _
  · exact foldl_mem (fun t a => sendTag_mem t _ _ _ _ _) _ s

theorem wf_proxyRead {s : State} (h : Memory.wf s.mem = true) (p : PpId) (m : PpMsg) (me : Nat) (copies : List Nat) :
    Memory.wf (s.proxyRead p m me copies).mem = true := by
  unfold State.proxyRead; repeat' split
  all_goals simp [h, wf_sendGrant]

theorem wf_proxyHandle {s : State} (h : Memory.wf s.mem = true) (p : PpId) (m : PpMsg) :
    Memory.wf (s.proxyHandle p m).mem = true := by
  simp only [State.proxyHandle]; repeat' split
  all_goals simp [h, wf_proxyRead, wf_sendGrant]

@[simp] theorem State.useBlock_mem (s : State) (p : PpId) (m : PpMsg) : (s.useBlock p m).mem = s.mem := by simp [State.useBlock]

@[simp] theorem State.markWritten_mem (s : State) (p : PpId) (m : PpMsg) : (s.markWritten p m).mem = s.mem := rfl

theorem wf_libraryHandle {s : State} (h : Memory.wf s.mem = true) (p : PpId) (m : PpMsg) :
    Memory.wf (s.libraryHandle p m).mem = true := by
  simp only [State.libraryHandle]; repeat' split
  all_goals simp [h, wf_sendGrant]

@[simp] theorem State.noHandler_mem (s : State) (p : PpId) (m : PpMsg) (lane : Nat) :
    (s.noHandler p m lane).mem = s.mem := by
  unfold State.noHandler; repeat' split
  all_goals simp

theorem wf_dispatch {s : State} (h : Memory.wf s.mem = true) (p : PpId) (tid : Nat) (m : PpMsg) :
    Memory.wf (s.dispatch p tid m).mem = true := by
  simp only [State.dispatch]; repeat' split
  all_goals simp [h, wf_sendGrant, wf_proxyHandle, wf_libraryHandle]

@[simp] theorem State.countDispatch_mem (s : State) (p : PpId) (m : PpMsg) : (s.countDispatch p m).mem = s.mem := rfl

@[simp] theorem State.releaseHints_mem (s : State) (p : PpId) (m : PpMsg) : (s.releaseHints p m).mem = s.mem := by
  simp only [State.releaseHints]
  split
  · split
    · rfl
    · rw [foldl_mem fun t k => pushRequest_mem t _ _]; simp
  · rfl

theorem wf_takeType {s : State} (h : Memory.wf s.mem = true) (p : PpId) (tid : Nat) (ok : Nat → Bool) :
    Memory.wf (s.takeType p tid ok).mem = true := by
  simp only [State.takeType]; repeat' split
  all_goals simp [h, wf_dispatch]

theorem wf_handlerDone {s : State} (h : Memory.wf s.mem = true) (p : PpId) (tid : Nat) :
    Memory.wf (s.handlerDone p tid).mem = true := by
  simp only [State.handlerDone]; repeat' split
  all_goals simp [h, wf_dispatch]

@[simp] theorem State.deferRequest_mem (s : State) (p : PpId) :
    (s.deferRequest p).mem = s.mem := by
  simp only [State.deferRequest]; repeat' split
  all_goals simp

@[simp] theorem State.step4_mem (s : State) : (s.step4).mem = s.mem := rfl

@[simp] theorem State.result4_mem (s : State) (d : Reg) (v : Nat) : (s.result4 d v).mem = s.mem := rfl

theorem okFormed_useReply {s : State} (h : Memory.wf s.mem = true) :
    OkFormed (s.useReply) := by
  unfold State.useReply; repeat' split
  all_goals simp [h]

theorem wf_moveBlock {s : State} (h : Memory.wf s.mem = true) (p : PpId) (m : BlockMove) :
    Memory.wf (s.moveBlock p m).mem = true := by
  simp only [State.moveBlock]; repeat' split
  all_goals simp [h, wf_homeWrite]

theorem wf_hblkComplete {s : State} (h : Memory.wf s.mem = true) (p : PpId) :
    Memory.wf (s.hblkComplete p).mem = true := by
  unfold State.hblkComplete; split
  all_goals simp [h, wf_moveBlock]

@[simp] theorem State.endHandler_mem (s : State) : (s.endHandler).mem = s.mem := rfl

theorem wf_watchdog {s : State} (h : Memory.wf s.mem = true) (p : PpId) (tid : Nat) :
    Memory.wf (s.watchdog p tid).mem = true := by
  simp only [State.watchdog]; repeat' split
  all_goals simp [h, wf_handlerFault]

/-! ### System -/

@[simp] theorem State.debugStop_mem (s : State) (c : CoreId) (slot n : Nat) :
    (s.debugStop c slot n).mem = s.mem := by
  unfold State.debugStop; split
  all_goals simp [foldl_mem, apply_ite State.mem]

@[simp] theorem State.eventInterrupt_mem (s : State) (c : CoreId) :
    (s.eventInterrupt c).mem = s.mem := by unfold State.eventInterrupt; split <;> simp

theorem okFormed_invalidate {s : State} (h : Memory.wf s.mem = true) (drop : TlbEntry → Bool) (va : Option Nat) (used : Bool) :
    OkFormed (invalidate drop va used s) := by
  unfold invalidate
  refine okFormed_bind fun _ _ => ?_
  dsimp only
  split
  · exact okFormed_throw
  · split
    · exact okFormed_ok.2 h
    · exact okFormed_ok.2 h

@[simp] theorem State.scanOn_mem (s : State) (ctx proto : Nat) (l : List (PpId × Nat)) :
    (s.scanOn ctx proto l).1.mem = s.mem := by
  induction l generalizing s with
  | nil => rfl
  | cons e l ih =>
    simp only [State.scanOn]
    repeat' split
    all_goals simp [ih]

@[simp] theorem State.recallBinding_mem (s : State) (ctx proto : Nat) :
    (s.recallBinding ctx proto).1.mem = s.mem := by
  simp only [State.recallBinding]; repeat' split
  all_goals simp

@[simp] theorem State.forgetWritten_mem (s : State) (ctx : CtxNo) (e : Word × Word) : (s.forgetWritten ctx e).mem = s.mem := rfl

@[simp] theorem State.writeRegion_mem (s : State) (c : Ctx) (i : Nat) (w0 w1 : Word) :
    (s.writeRegion c i w0 w1).mem = s.mem := rfl

@[simp] theorem State.noteStop_mem (s : State) (c : CoreId) (r : StopRecord) : (s.noteStop c r).mem = s.mem := rfl

@[simp] theorem State.stopCore_mem (s : State) (c : CoreId) (origin : Option Nat) :
    (s.stopCore c origin).mem = s.mem := by
  unfold State.stopCore; split
  all_goals simp [foldl_mem]

@[simp] theorem State.fatalStop_mem (s : State) (c : CoreId) (slot : Nat) :
    (s.fatalStop c slot).mem = s.mem := by
  simp only [State.fatalStop]; repeat' split
  all_goals simp [foldl_mem]

/-! ### Power -/

@[simp] theorem State.announce_mem (s : State) (p : Partition) (c : Clk) :
    (s.announce p c).mem = s.mem := by
  simp only [State.announce]; repeat' split
  all_goals simp

/-- Announcing is taken as a variable `g` here: the kernel would otherwise compute `State.announce`. -/
theorem foldl_announce_mem {g : State → Partition → Clk → State} (H : ∀ t p c, (g t p c).mem = t.mem) (s : State)
    (l : List (Partition × Clk)) : (l.foldl (fun t e => g t e.1 e.2) s).mem = s.mem :=
  foldl_mem (fun t e => H t e.1 e.2) l s

theorem foldl_announceFound_mem {g : State → Partition → Clk → State} (H : ∀ t p c, (g t p c).mem = t.mem) (s : State)
    (l : List (Partition × Clk)) :
    (l.foldl (fun t e => ((t.parts.find? fun q => q.id == e.1.id).map fun q => g t q e.2).getD t) s).mem = s.mem := by
  refine foldl_mem (fun t e => ?_) l s
  cases t.parts.find? fun q => q.id == e.1.id with
  | none => rfl
  | some q => exact H t q e.2

@[simp] theorem State.powerDecision_mem (s : State) : s.powerDecision.mem = s.mem := by
  unfold State.powerDecision
  exact foldl_announce_mem announce_mem _ _

@[simp] theorem State.placeClocks_mem (s : State) (id : Nat) : (s.placeClocks id).mem = s.mem := by
  unfold State.placeClocks
  extract_lets all t
  rw [foldl_announceFound_mem announce_mem]
  exact foldl_mem (fun t _ => withPart_mem t _ _) _ _

@[simp] theorem State.writeClkreq_mem (s : State) (p : Partition) (v : Word) :
    (s.writeClkreq p v).mem = s.mem := by simp [State.writeClkreq]

@[simp] theorem State.applyGrants_mem (s : State) : (s.applyGrants).mem = s.mem := rfl

@[simp] theorem State.clockBoundary_mem (s : State) :
    (s.clockBoundary).mem = s.mem := by unfold State.clockBoundary; split <;> simp

@[simp] theorem State.refresh_mem (s : State) (die ch : Nat) : (s.refresh die ch).mem = s.mem := rfl

/-- A trip ends in the memory of a reset, which is empty (R420, R421). -/
theorem wf_thermalTrip (s : State) (w : Nat) (t : Int) : Memory.wf (s.thermalTrip w t).mem = true := rfl

theorem wf_tempSample {s : State} (h : Memory.wf s.mem = true) (die : Nat) (sensors : List Int) (logic : Int) :
    Memory.wf (s.tempSample die sensors logic).mem = true := by
  simp only [State.tempSample]
  split
  · exact wf_thermalTrip s _ _
  · split
    · exact wf_thermalTrip s _ _
    · exact h

/-! ### SysRegs -/

@[simp] theorem State.writeSys_mem (s : State) (r : SysReg) (v : Word) :
    (s.writeSys r v).mem = s.mem := by
  simp only [State.writeSys]; repeat' split
  all_goals simp

/-- A reader that keeps the canonical form. -/
def Reader.Keeps (rd : Reader) : Prop :=
  ∀ (s t : State) (va pa : Nat), Memory.wf s.mem = true → rd s va = .some (t, pa) → Memory.wf t.mem = true

theorem coreReader_keeps (c : CoreId) (user : Bool) : Reader.Keeps (coreReader c user) := by
  intro s t va pa h e
  unfold coreReader at e
  split at e
  · next w => cases e; exact wf_checkWalk h w
  · cases e

theorem hostReader_keeps (ctx : Ctx) : Reader.Keeps (hostReader ctx) := fun _ _ _ _ h e => wf_hostPath h e

/-! ### Records -/

theorem wf_readVia {rd : Reader} (k : Reader.Keeps rd) {s t : State} {n va : Nat} {l : List Byte} (h : Memory.wf s.mem = true)
    (e : readVia rd n va s = .some (t, l)) : Memory.wf t.mem = true := by
  induction n generalizing va s t l with
  | zero => cases e; exact h
  | succ n ih =>
    unfold readVia at e
    split at e
    · cases e
    · next w =>
      split at e
      · cases e
      · split at e
        · cases e
        · next w' => cases e; exact ih (k _ _ _ _ h w) w'

/-! ### Launch -/

theorem wf_readOr {rd : Reader} (k : Reader.Keeps rd) {s t : State} {n va : Nat} {l : Option (List Byte)}
    (h : Memory.wf s.mem = true) (e : readOr rd n va s = (t, l)) : Memory.wf t.mem = true := by
  unfold readOr at e
  split at e
  · next w => cases e; exact wf_readVia k h w
  · cases e; exact h

theorem wf_imageTables {rd : Reader} (k : Reader.Keeps rd) {s t : State} {va : Nat} {hd : List Byte} {g : Glitas}
    (h : Memory.wf s.mem = true) (e : imageTables rd va hd s = .some (t, g)) : Memory.wf t.mem = true := by
  unfold imageTables at e
  split at e
  · cases e
  · next w1 =>
    split at e
    · cases e
    · next w2 =>
      split at e
      · cases e
      · next w3 =>
        split at e
        · cases e
        · next w4 => cases e; exact wf_readVia k (wf_readVia k (wf_readVia k (wf_readVia k h w1) w2) w3) w4

theorem wf_readImage {s : State} (h : Memory.wf s.mem = true) (r : LaunchRecord) : Memory.wf (s.readImage r).1.mem = true := by
  have k := hostReader_keeps r.context
  simp only [State.readImage]
  split
  · exact h
  · split
    · next w => exact wf_readOr k h w
    · next w =>
      have h1 := wf_readOr k h w
      split
      · exact h1
      · split
        · exact h1
        · next w2 =>
          have h2 := wf_imageTables k h1 w2
          split
          all_goals next w3 => exact wf_readOr k h2 w3

theorem wf_readRegions {rd : Reader} (k : Reader.Keeps rd) {s : State} (h : Memory.wf s.mem = true) (r : LaunchRecord) :
    Memory.wf (readRegions rd r s).1.mem = true := by
  unfold readRegions
  split
  · exact h
  · exact wf_readOr k h rfl

theorem wf_readPolicy {rd : Reader} (k : Reader.Keeps rd) {s : State} (h : Memory.wf s.mem = true) (r : LaunchRecord) :
    Memory.wf (readPolicy rd r s).1.mem = true := by
  unfold readPolicy
  split
  · exact h
  · split
    · next w => exact wf_readOr k h w
    · next w => exact wf_readOr k (wf_readOr k h w) rfl

theorem wf_readMembers {rd : Reader} (k : Reader.Keeps rd) {s : State} (h : Memory.wf s.mem = true) (r : LaunchRecord) :
    Memory.wf (s.readMembers rd r).1.mem = true := by
  unfold State.readMembers
  split
  · exact h
  · split
    all_goals next w => exact wf_readOr k h w

@[simp] theorem State.claimSlot_mem (s : State) (i : Issuer) (r : LaunchRecord) (num : LaunchNo) (policy : List Byte) :
    (s.claimSlot i r num policy).mem = s.mem := rfl

theorem wf_submit {s : State} (h : Memory.wf s.mem = true) {i : Issuer} (k : Reader.Keeps i.reader) (raw : List Byte) :
    Memory.wf (s.submit i raw).1.mem = true := by
  have hm := wf_readMembers k (wf_readImage (wf_readPolicy k (wf_readRegions k h (recordOf raw)) (recordOf raw))
    (recordOf raw)) (recordOf raw)
  simp only [State.submit]
  split
  · rw [show ∀ (u : State) (d : Distributor) (t : Trust), ({ u with dist := d, trust := t } : State).mem = u.mem from
      fun _ _ _ => rfl, State.claimSlot_mem]
    exact hm
  · exact hm

theorem wf_flushL1s {s : State} (h : Memory.wf s.mem = true) (p : Partition) : Memory.wf (s.flushL1s p).mem = true :=
  wf_foldl (fun _ _ ht => wf_foldl (fun _ _ hu => wf_evict hu _ _) _ ht) _ h

@[simp] theorem State.settleArrays_mem (s : State) (p : Partition) :
    (s.settleArrays p).mem = s.mem := by
  simp only [State.settleArrays]
  simp [foldl_mem]

/-- The partition's scratchpad bytes go (R21), which leaves the others in their order. -/
theorem wf_clearPart {s : State} (h : Memory.wf s.mem = true) (p : Partition) : Memory.wf (s.clearPart p).mem = true := by
  simp only [State.clearPart, State.powerDecision_mem, State.settleArrays_mem]
  exact wf_filter (wf_flushL1s h p) _

@[simp] theorem State.dropBindings_mem (s : State) (ctx : CtxNo) : (s.dropBindings ctx).mem = s.mem := rfl

@[simp] theorem State.withLaunch_mem (s : State) (num : LaunchNo) (f : Launch → Launch) :
    (s.withLaunch num f).mem = s.mem := rfl

@[simp] theorem State.dequeue_mem (s : State) (w : Waiting) : (s.dequeue w).mem = s.mem := rfl

theorem wf_postDone {s : State} (h : Memory.wf s.mem = true) (l : Launch) (how : Nat) :
    Memory.wf (s.postDone l how).mem = true := by
  unfold State.postDone
  split
  · exact h
  · split
    · exact h
    · next w =>
      obtain ⟨c, _, wc⟩ := Option.bind_eq_some_iff.1 w
      have ht := wf_hostPath h wc
      split <;> simp [ht]

theorem wf_closeLaunch {s : State} (h : Memory.wf s.mem = true) (num : LaunchNo) (how : Nat) :
    Memory.wf (s.closeLaunch num how).mem = true := by
  unfold State.closeLaunch; split
  all_goals simp [h, wf_postDone]

theorem wf_endEngines {s : State} (h : Memory.wf s.mem = true) (p : Partition) : Memory.wf (s.endEngines p).mem = true := by
  simp only [State.endEngines]
  refine wf_foldl (fun t m ht => ?_) _ ?_
  · split
    · exact wf_breakSync ht _
    · exact ht
  · rw [foldl_mem fun t k => State.cancelCopy_mem t k]
    exact h

@[simp] theorem State.dropLeaving_mem (s : State) (n : CtxNo) : (s.dropLeaving n).mem = s.mem := rfl

theorem wf_releaseLaunch {s : State} (h : Memory.wf s.mem = true) (l : Launch) :
    Memory.wf (s.releaseLaunch l).mem = true := by
  unfold State.releaseLaunch; split
  all_goals simp [h, wf_clearPart]

theorem wf_launchEnd {s : State} (h : Memory.wf s.mem = true) (num : LaunchNo) : Memory.wf (s.launchEnd num).mem = true := by
  have he := wf_endEngines h
  simp only [State.launchEnd]
  repeat' split
  all_goals simp [h, he, wf_closeLaunch, wf_releaseLaunch]

theorem wf_haltCommand {s : State} (h : Memory.wf s.mem = true) (cl : ClusterId) (b : Nat) (c : MatrixCommand) :
    Memory.wf (s.haltCommand cl b c).mem = true := by
  unfold State.haltCommand; repeat' split
  all_goals simp [h, wf_stopCommand]

theorem wf_haltArrays {s : State} (h : Memory.wf s.mem = true) (p : Partition) : Memory.wf (s.haltArrays p).mem = true := by
  unfold State.haltArrays
  refine wf_foldl (fun t a ht => wf_foldl (fun u b hu => ?_) _ ht) _ h
  split
  · exact hu
  · have hq := wf_foldl (fun v c hv => wf_haltCommand hv a.cl b c) ((u.bank a.cl b).queue.filter (·.isCompute)) hu
    dsimp only
    split <;> simp [hq]

theorem wf_stopPart {s : State} (h : Memory.wf s.mem = true) (p : Partition) : Memory.wf (s.stopPart p).mem = true := by
  simp only [State.stopPart, State.settleArrays_mem, State.withCtx_mem, State.withPart_mem]
  refine wf_haltArrays ?_ p
  rw [foldl_mem fun t c => State.stopCore_mem t c _]
  exact h

theorem wf_haltTreeStop {s : State} (h : Memory.wf s.mem = true) (ctx : CtxNo) :
    Memory.wf (s.haltTreeStop ctx).mem = true := by
  unfold State.haltTreeStop; repeat' split
  all_goals simp [h, wf_stopPart]

theorem wf_cancelLaunch {s : State} (h : Memory.wf s.mem = true) (l : Launch) (who : Option Who) :
    Memory.wf (s.cancelLaunch l who).1.mem = true := by
  simp only [State.cancelLaunch]; repeat' split
  all_goals simp [h, wf_releaseLaunch, wf_closeLaunch, wf_stopPart]

/-! ### Placement -/

@[simp] theorem State.placePart_mem (s : State) (p : Partition) (threads : Nat) : (s.placePart p threads).mem = s.mem := by
  simp only [State.placePart, placeClocks_mem]
  exact foldl_mem (fun t c => withCore_mem t c _) _ _

@[simp] theorem State.takeBindings_mem (s : State) (l : Launch) : (s.takeBindings l).mem = s.mem := by
  unfold State.takeBindings
  generalize allPps = ps
  exact foldl_mem (fun t p => withPp_mem t p _) _ _

@[simp] theorem State.place_mem (s : State) (w : Waiting) (groups : List Group) :
    (s.place w groups).mem = s.mem := by
  simp only [State.place]; repeat' split
  all_goals simp

@[simp] theorem State.reserve_mem (s : State) (w : Waiting) (got rest : List Group) :
    (s.reserve w got rest).mem = s.mem := by unfold State.reserve; split <;> simp

@[simp] theorem State.startRound_mem (s : State) :
    (s.startRound).mem = s.mem := by
  simp only [State.startRound]; repeat' split
  all_goals simp

@[simp] theorem State.distributorRound_mem (s : State) :
    (s.distributorRound).mem = s.mem := by
  unfold State.distributorRound; repeat' split
  all_goals simp

theorem State.loadRegions_mem {s t : State} {ctx : CtxNo} {i : Nat} {l : List (Word × Word)}
    (e : s.loadRegions ctx i l = .some t) : t.mem = s.mem := by
  induction l generalizing s i with
  | nil => cases e; rfl
  | cons w l ih =>
    unfold State.loadRegions at e
    split at e
    · exact ih e
    · split at e
      · cases e
      · split at e
        · cases e
        · rw [ih e, writeRegion_mem]

theorem wf_handlerCodes {rd : Reader} (k : Reader.Keeps rd) {image a : Nat} {l : List HandlerImage} {s t : State}
    {v : List (Nat × Nat × List Byte)} (h : Memory.wf s.mem = true) (e : handlerCodes rd image a l s = .some (t, v)) :
    Memory.wf t.mem = true := by
  induction l generalizing a s t v with
  | nil => cases e; exact h
  | cons c l ih =>
    unfold handlerCodes at e
    split at e
    · cases e
    · next w =>
      split at e
      · cases e
      · next w' => cases e; exact ih (wf_readVia k h w) w'

theorem wf_loadHandlers {s t : State} {l : Launch} {rd : Reader} (k : Reader.Keeps rd) {ps : List Nat}
    (h : Memory.wf s.mem = true) (e : s.loadHandlers l rd ps = .some t) : Memory.wf t.mem = true := by
  induction ps generalizing s with
  | nil => cases e; exact h
  | cons p ps ih =>
    unfold State.loadHandlers at e
    split at e
    · cases e
    · next w =>
      split at e
      · cases e
      · refine ih ?_ e
        rw [foldl_mem fun t p => State.withPp_mem t p _]
        exact wf_handlerCodes k h w

theorem wf_loadScratch {s t : State} {l : Launch} {rd : Reader} (k : Reader.Keeps rd) {rs : List (ClusterId × Nat × Role)}
    (h : Memory.wf s.mem = true) (e : s.loadScratch l rd rs = .some t) : Memory.wf t.mem = true := by
  induction rs generalizing s with
  | nil => cases e; exact h
  | cons r rs ih =>
    unfold State.loadScratch at e
    split at e
    · cases e
    · next w => exact ih (wf_storeBytes (wf_readVia k h w) _ _) e

@[simp] theorem State.preloadCode_mem (s : State) (l : Launch) (p : Partition) (rd : Reader) :
    (s.preloadCode l p rd).mem = s.mem := by
  unfold State.preloadCode
  refine foldl_mem (fun t ⟨c, x, y⟩ => ?_) _ _
  dsimp only
  split <;> simp

@[simp] theorem State.startThreads_mem (s : State) (l : Launch) (p : Partition) : (s.startThreads l p).mem = s.mem := by
  unfold State.startThreads
  refine foldl_mem (fun t ⟨c, x, y⟩ => ?_) _ _
  dsimp only
  split
  · rfl
  · exact foldl_mem (fun u i => setHart_mem u _) _ _

@[simp] theorem State.loadLeases_mem (s : State) (r : LaunchRecord) (p : Partition) :
    (s.loadLeases r p).mem = s.mem := by
  simp only [State.loadLeases]
  simp [foldl_mem, apply_ite State.mem]

theorem wf_loadParts {s t : State} {l : Launch} {p : Partition} {c : Ctx} (h : Memory.wf s.mem = true)
    (e : s.loadParts l p c = .some t) : Memory.wf t.mem = true := by
  have k := hostReader_keeps c
  simp only [State.loadParts] at e
  split at e
  · cases e
  · next w1 =>
    split at e
    · cases e
    · next w2 =>
      split at e
      · cases e
      · next w3 =>
        split at e
        · cases e
        · obtain ⟨⟨u, b⟩, w4, rfl⟩ := Option.map_eq_some_iff.1 e
          have h2 := State.loadRegions_mem w2 ▸ wf_loadHandlers k h w1
          rw [State.preloadCode_mem]
          exact wf_readVia k (wf_loadScratch k h2 w3) w4

theorem wf_launchLoad {s : State} (h : Memory.wf s.mem = true) (num : LaunchNo) : Memory.wf (s.launchLoad num).mem = true := by
  simp only [State.launchLoad]
  split
  · split
    · simp [wf_releaseLaunch, wf_closeLaunch, h]
    · next w =>
      obtain ⟨c, _, wc⟩ := Option.bind_eq_some_iff.1 w
      simp [wf_loadParts h wc]
  · exact h

/-! ### Contexts -/

theorem wf_imagePage {s t : State} {via : CtxNo} {va pa : Nat} {r : Right} (h : Memory.wf s.mem = true)
    (e : s.imagePage via va r = .some (t, pa)) : Memory.wf t.mem = true := by
  unfold State.imagePage at e
  split at e
  · cases e
  · next w =>
    obtain ⟨c, _, wc⟩ := Option.bind_eq_some_iff.1 w
    split at e
    · cases e; exact wf_hostPath h wc
    · cases e

@[simp] theorem State.switchAgreement_mem (s : State) (k : Nat) :
    (s.switchAgreement k).mem = s.mem := by
  simp only [State.switchAgreement]; repeat' split
  all_goals simp

@[simp] theorem State.unroute_mem (s : State) (p : Partition) : (s.unroute p).mem = s.mem := rfl

@[simp] theorem State.cancelLoads_mem (s : State) (p : Partition) : (s.cancelLoads p).mem = s.mem := rfl

theorem wf_switchStop {s : State} (h : Memory.wf s.mem = true) (n : CtxNo) :
    Memory.wf (s.switchStop n).mem = true := by
  unfold State.switchStop; repeat' split
  all_goals simp [h, wf_haltArrays]

theorem wf_writePages {s : State} (h : Memory.wf s.mem = true) (via : CtxNo) (image : Word) (page : Nat → List Byte)
    (i n : Nat) : Memory.wf (s.writePages via image page i n).1.mem = true := by
  induction n generalizing s i with
  | zero => exact h
  | succ n ih =>
    unfold State.writePages
    split
    · exact h
    · next w => exact ih (wf_foldl (fun _ ⟨_, _⟩ ht => wf_coherentWrite ht _ _ _) _ (wf_imagePage h w)) _

theorem State.beginSave_mem {s t : State} {c : Ctx} {p : Partition} {kind : Nat} {who : Option Who} {image : Word} {via : CtxNo}
    (e : s.beginSave c p kind who image via = .some t) : t.mem = s.mem := by
  simp only [State.beginSave] at e
  split at e
  · cases e
  · split at e
    · cases e
    · cases e; rfl

@[simp] theorem State.ctxDone_mem (s : State) (n : CtxNo) (st : Nat) : (s.ctxDone n st).mem = s.mem := rfl

theorem wf_imageFault {s : State} (h : Memory.wf s.mem = true) (n : CtxNo) (image : Word) :
    Memory.wf (s.imageFault n image).mem = true := wf_postError h _ _

theorem wf_endSave {s : State} (h : Memory.wf s.mem = true) (c : Ctx) (p : Partition) (o : CtxOp) :
    Memory.wf (s.endSave c p o).1.mem = true := by
  have hf := wf_flushL1s h p
  simp only [State.endSave]
  split
  · exact wf_imageFault hf _ _
  · split
    next w => exact wf_imageFault ((congrArg (fun r => Memory.wf r.1.mem) w).symm.trans (wf_writePages hf _ _ _ _ _)) _ _
    next w => exact (congrArg (fun r => Memory.wf r.1.mem) w).symm.trans (wf_writePages hf _ _ _ _ _)

theorem wf_discardCancelled {s : State} (h : Memory.wf s.mem = true) (num : LaunchNo) :
    Memory.wf (s.discardCancelled num).mem = true := by
  unfold State.discardCancelled; repeat' split
  all_goals simp [h, wf_releaseLaunch, wf_closeLaunch]

theorem wf_switchWrite {s : State} (h : Memory.wf s.mem = true) (c : Ctx) (p : Partition) (q : SwitchPlan) :
    Memory.wf (s.switchWrite c p q).mem = true := by
  simp only [State.switchWrite]
  split
  · split
    · next w => rw [State.beginSave_mem w]; exact h
    · simp [h]
  · next o _ =>
    have he := wf_endSave h c p o
    split
    · exact h
    · split
      all_goals
        next w =>
          rw [w] at he
          simp [wf_discardCancelled, wf_clearPart, he]

theorem wf_contextImageWrite {s : State} (h : Memory.wf s.mem = true) (n : CtxNo) :
    Memory.wf (s.contextImageWrite n).mem = true := by
  unfold State.contextImageWrite; repeat' split
  all_goals simp [h, wf_switchWrite]

@[simp] theorem State.ctxStatus_mem (s : State) (d : Reg) (n : CtxNo) (st : Nat) : (s.ctxStatus d n st).mem = s.mem := rfl

@[simp] theorem State.ctxRefuse_mem (s : State) (d : Reg) (c : Ctx) (st : Nat) :
    (s.ctxRefuse d c st).mem = s.mem := by unfold State.ctxRefuse; split <;> rfl

theorem wf_checkGranules {rd : Reader} (k : Reader.Keeps rd) {s : State} (h : Memory.wf s.mem = true) (image : Nat)
    (m : Option Image) (g i n : Nat) : Memory.wf (checkGranules rd image m g i n s).1.mem = true := by
  induction n generalizing s i with
  | zero => exact h
  | succ n ih =>
    unfold checkGranules
    split
    · exact h
    · next w1 =>
      have h1 := wf_readVia k h w1
      split
      · exact h1
      · next w2 =>
        have h2 := wf_readVia k h1 w2
        split
        · exact ih h2 _
        · exact h2

theorem wf_checkHeader {rd : Reader} (k : Reader.Keeps rd) {s : State} (h : Memory.wf s.mem = true) (c : Ctx) (image : Nat) :
    Memory.wf (s.checkHeader c rd image).1.mem = true := by
  unfold State.checkHeader
  split
  · exact h
  · next w => exact wf_readVia k h w

theorem wf_endLoad {s : State} (h : Memory.wf s.mem = true) (d : Reg) (n : CtxNo) (image : Word) (st : Nat) (i : Option Image)
    (via : CtxNo) :
    Memory.wf (s.endLoad d n image st i via).mem = true := by
  unfold State.endLoad; split
  all_goals simp [h, wf_imageFault]

@[simp] theorem State.returnCopies_mem (s : State) (l : List Copy) : (s.returnCopies l).mem = s.mem := rfl

theorem wf_deliverAbsorbed {s : State} (h : Memory.wf s.mem = true) (a : Absorbed) :
    Memory.wf (s.deliverAbsorbed a).mem = true := by
  unfold State.deliverAbsorbed; split
  all_goals simp [h, wf_endsOr]

@[simp] theorem State.resend_mem (s : State) (c : CoreId) :
    (s.resend c).mem = s.mem := by
  simp only [State.resend]
  simp [foldl_mem]

/-- Of an image's payload only the scratchpad bytes go to memory, one after the other (R326). -/
theorem wf_unpack {s : State} (h : Memory.wf s.mem = true) (y : Payload) (p : Partition) :
    Memory.wf (s.unpack y p).mem = true := by
  simp only [State.unpack, State.settleArrays_mem, State.withPart_mem, State.withCtx_mem, State.returnCopies_mem]
  rw [foldl_mem fun t e => State.withBank_mem t _ _ _, foldl_mem fun t k => State.setHart_mem t _,
    foldl_mem fun t k => State.setCore_mem t _]
  exact wf_restore h _

theorem wf_contextRestore {s : State} (h : Memory.wf s.mem = true) (n : CtxNo) : Memory.wf (s.contextRestore n).mem = true := by
  simp only [State.contextRestore]
  split
  · split
    · exact h
    · split
      · exact h
      · rw [State.postHeld_mem]
        refine wf_foldl (fun t a ht => wf_deliverAbsorbed ht a) _ ?_
        rw [foldl_mem fun t c => State.resend_mem t c]
        exact wf_unpack h _ _
  · exact h

@[simp] theorem State.withGuestOps_mem (s : State) (vf : Nat) (f : CtxOp → CtxOp) : (s.withGuestOps vf f).mem = s.mem := rfl

@[simp] theorem State.setOut_mem (s : State) (vf : Nat) (out : Bool) : (s.setOut vf out).mem = s.mem := rfl

@[simp] theorem State.guestPause_mem (s : State) (vf : Nat) : (s.guestPause vf).mem = s.mem := rfl

@[simp] theorem State.guestContinue_mem (s : State) (vf : Nat) : (s.guestContinue vf).mem = s.mem := rfl

theorem queueReader_keeps (q : HostQueue) (c : Ctx) : Reader.Keeps (q.reader c) := by
  intro s t va pa h e
  exact wf_hostPath h (Option.filter_eq_some_iff.1 e).1

/-! ### HostQueues -/

theorem wf_queueRead {s t : State} {q : HostQueue} {host : Bool} {va n : Nat} {l : List Byte} (h : Memory.wf s.mem = true)
    (e : s.queueRead q host va n = .some (t, l)) : Memory.wf t.mem = true := by
  unfold State.queueRead at e
  split at e
  · split at e
    · cases e
    · cases e; exact h
  · obtain ⟨c, _, wc⟩ := Option.bind_eq_some_iff.1 e
    exact wf_readVia (queueReader_keeps q c) h wc

theorem wf_writePlaces {s t : State} {c : Ctx} {va n : Nat} {l : List Nat} (h : Memory.wf s.mem = true)
    (e : s.writePlaces c va n = .some (t, l)) : Memory.wf t.mem = true := by
  induction n generalizing s va t l with
  | zero => cases e; exact h
  | succ n ih =>
    unfold State.writePlaces at e
    split at e
    · cases e
    · next w =>
      split at e
      · cases e
      · next w' => cases e; exact ih (wf_hostPath h w) w'

theorem wf_putBytes {s : State} (h : Memory.wf s.mem = true) (ps : List Nat) (bs : List Byte) :
    Memory.wf (s.putBytes ps bs).mem = true := by
  induction ps generalizing s bs with
  | nil => exact h
  | cons p ps ih =>
    cases bs with
    | nil => exact h
    | cons b bs =>
      refine ih ?_ bs
      split
      · exact h
      · exact wf_coherentWrite h _ _ _

theorem wf_queueWrite {s t : State} {q : HostQueue} {host : Bool} {va : Nat} {l : List Byte} (h : Memory.wf s.mem = true)
    (e : s.queueWrite q host va l = .some t) : Memory.wf t.mem = true := by
  unfold State.queueWrite at e
  split at e
  · split at e
    · cases e
    · cases e; exact h
  · obtain ⟨c, _, wc⟩ := Option.bind_eq_some_iff.1 e
    obtain ⟨⟨u, ps⟩, wp, rfl⟩ := Option.map_eq_some_iff.1 wc
    exact wf_putBytes (wf_writePlaces h wp) _ _

theorem wf_queueEnable {s : State} (h : Memory.wf s.mem = true) (fn q : Nat) : Memory.wf (s.queueEnable fn q).mem = true := by
  simp only [State.queueEnable]
  split
  · exact h
  · split
    · exact h
    · split
      · exact h
      · split
        · exact h
        · next w => split <;> exact (wf_queueRead h w :)

@[simp] theorem State.queueDisable_mem (s : State) (fn q : Nat) :
    (s.queueDisable fn q).mem = s.mem := by
  unfold State.queueDisable; repeat' split
  all_goals rfl

@[simp] theorem State.queueReset_mem (s : State) (fn q : Nat) :
    (s.queueReset fn q).mem = s.mem := by
  unfold State.queueReset; repeat' split
  all_goals rfl

@[simp] theorem State.descriptorWrite_mem (s : State) (fn q off : Nat) (v : Word) :
    (s.descriptorWrite fn q off v).mem = s.mem := by
  unfold State.descriptorWrite; repeat' split
  all_goals rfl

@[simp] theorem State.doorbell_mem (s : State) (fn q : Nat) (v : Word) :
    (s.doorbell fn q v).mem = s.mem := by unfold State.doorbell; split <;> rfl

@[simp] theorem State.leaveQueue_mem (s : State) : (s.leaveQueue).mem = s.mem := rfl

@[simp] theorem State.queueFail_mem (s : State) (q : HostQueue) (code op : Nat) :
    (s.queueFail q code op).mem = s.mem := by
  simp only [State.queueFail]; repeat' split
  all_goals simp

@[simp] theorem State.queueDone_mem (s : State) (q : HostQueue) : (s.queueDone q).mem = s.mem := rfl

theorem wf_loadPacket {s : State} (h : Memory.wf s.mem = true) (q : HostQueue) : Memory.wf (s.loadPacket q).mem = true := by
  unfold State.loadPacket
  split
  · simp [h]
  · split
    · simp [h]
    · next w => exact (wf_queueRead h w :)

theorem wf_packetStart {s : State} (h : Memory.wf s.mem = true) :
    Memory.wf (s.packetStart).mem = true := by
  unfold State.packetStart; repeat' split
  all_goals simp [h, wf_loadPacket]

@[simp] theorem State.stepLimit_mem (s : State) (fn q : Nat) :
    (s.stepLimit fn q).mem = s.mem := by
  unfold State.stepLimit; repeat' split
  all_goals simp

theorem wf_dmaComplete {s : State} (h : Memory.wf s.mem = true) (fn q k : Nat) : Memory.wf
    (s.dmaComplete fn q k).mem = true := by
  simp only [State.dmaComplete]
  split
  · exact h
  · split
    · exact h
    · split
      · exact h
      · split
        · simp [h]
        · next w =>
          obtain ⟨⟨u, l⟩, wr, ww⟩ := Option.bind_eq_some_iff.1 w
          exact (wf_queueWrite (wf_queueRead h wr) ww :)

/-! ### Trust -/

@[simp] theorem State.emit_mem (s : State) (o : Output) : (s.emit o).mem = s.mem := rfl

theorem wf_stopCtx {s : State} (h : Memory.wf s.mem = true) (c : Ctx) :
    Memory.wf (s.stopCtx c).mem = true := by
  simp only [State.stopCtx]; repeat' split
  all_goals simp [h, wf_contextRestore, wf_launchLoad, wf_stopPart]

theorem wf_tdiError {s : State} (h : Memory.wf s.mem = true) (vf : Nat) : Memory.wf (s.tdiError vf).mem = true :=
  wf_foldl (fun _ c ht => wf_stopCtx ht c) _ (by simp [h])

theorem wf_configViolation {s : State} (h : Memory.wf s.mem = true) (vf : Nat) :
    Memory.wf (s.configViolation vf).mem = true := by
  unfold State.configViolation; split
  all_goals simp [h, wf_tdiError]

@[simp] theorem State.moveTdi_mem (s : State) (vf : Nat) (t : TenantNo) (ok : Tdi → Bool) (goal : Tdi) :
    (s.moveTdi vf t ok goal).mem = s.mem := by unfold State.moveTdi; split <;> simp

theorem wf_discardCtx {s : State} (h : Memory.wf s.mem = true) (c : Ctx) :
    Memory.wf (s.discardCtx c).mem = true := by
  unfold State.discardCtx; repeat' split
  all_goals simp [h, wf_cancelLaunch]

theorem wf_functionReset {s : State} (h : Memory.wf s.mem = true) (vf : Nat) : Memory.wf (s.functionReset vf).mem = true :=
  wf_foldl (fun _ c ht => wf_discardCtx ht c) _ (by simp [h])

theorem wf_bindVf {s : State} (h : Memory.wf s.mem = true) (vf : Nat) (t : TenantNo) :
    Memory.wf (s.bindVf vf t).mem = true := by
  unfold State.bindVf; repeat' split
  all_goals simp [h, wf_tdiError]

@[simp] theorem State.setVtime_mem (s : State) (vf : Nat) (o m : Word) :
    (s.setVtime vf o m).mem = s.mem := by unfold State.setVtime; split <;> simp

theorem wf_programPfKey {s : State} (h : Memory.wf s.mem = true) (stream : Nat) (key : Key256) :
    Memory.wf (s.programPfKey stream key).mem = true := by
  simp only [State.programPfKey]
  split
  · exact h
  · split
    · exact wf_foldl (fun _ vf ht => wf_tdiError ht vf) _ h
    · split
      · exact h
      · simp [h]

theorem wf_programKey {s : State} (h : Memory.wf s.mem = true) (vf stream : Nat) (key : Key256) (t : TenantNo) :
    Memory.wf (s.programKey vf stream key t).mem = true := by
  unfold State.programKey; repeat' split
  all_goals simp [h, wf_programPfKey, wf_tdiError]

@[simp] theorem State.sessionStart_mem (s : State) (p : Party) :
    (s.sessionStart p).mem = s.mem := by
  simp only [State.sessionStart]; repeat' split
  all_goals simp

@[simp] theorem State.getMeasurements_mem (s : State) (p : Party) (index : Nat) :
    (s.getMeasurements p index).mem = s.mem := by
  unfold State.getMeasurements; repeat' split
  all_goals rfl

@[simp] theorem State.keyDeliver_mem (s : State) (t : TenantNo) (slot : Nat) (key : Option Key256) :
    (s.keyDeliver t slot key).mem = s.mem := by
  simp only [State.keyDeliver]; repeat' split
  all_goals simp

@[simp] theorem State.policyKey_mem (s : State) (t : TenantNo) (key : List Byte) :
    (s.policyKey t key).mem = s.mem := by unfold State.policyKey; split <;> rfl

theorem wf_sessionEnd {s : State} (h : Memory.wf s.mem = true) (t : TenantNo) : Memory.wf (s.sessionEnd t).mem = true := by
  simp only [State.sessionEnd]
  split
  · exact h
  · exact wf_foldl (fun _ c ht => wf_discardCtx ht c) _ h

/-! ### Links -/

@[simp] theorem State.mapUpdate_mem (s : State) (m : FabricMap) :
    (s.mapUpdate m).mem = s.mem := by unfold State.mapUpdate; split <;> rfl

theorem wf_failUnacknowledged {s : State} (h : Memory.wf s.mem = true) (p : Nat) :
    Memory.wf (s.failUnacknowledged p).mem = true := by
  unfold State.failUnacknowledged
  refine wf_foldl (fun t k ht => wf_foldl (fun u ⟨⟨op, _⟩, i⟩ hu => ?_) _ ht) _ h
  dsimp only
  split
  · exact wf_remoteArrives hu _ _ _
  · exact hu

theorem wf_linkDown {s : State} (h : Memory.wf s.mem = true) (p : Nat) :
    Memory.wf (s.linkDown p).mem = true := wf_failUnacknowledged h _

theorem State.onLink_mem {s : State} {f : State → State} (hf : (f s).mem = s.mem) (p : Nat) : (s.onLink p f).mem = s.mem := by
  unfold State.onLink
  split
  · exact hf
  · rfl

theorem wf_onLink {s : State} (h : Memory.wf s.mem = true) {f : State → State} (hf : Memory.wf (f s).mem = true) (p : Nat) :
    Memory.wf (s.onLink p f).mem = true := by
  unfold State.onLink
  split
  · exact hf
  · exact h

@[simp] theorem State.laneWeak_mem (s : State) (p lane count margin : Nat) : (s.laneWeak p lane count margin).mem = s.mem := by
  refine State.onLink_mem ?_ p
  dsimp only; split
  · rfl
  · simp

@[simp] theorem State.quietTimeout_mem (s : State) (p : Nat) : (s.quietTimeout p).mem = s.mem := by
  refine State.onLink_mem ?_ p
  dsimp only; split
  · simp
  · rfl

theorem wf_laneSwap {s : State} (h : Memory.wf s.mem = true) (p : Nat) : Memory.wf (s.laneSwap p).mem = true := by
  refine wf_onLink h ?_ p
  dsimp only; split
  · exact h
  · split
    · simp [h]
    · simp [h]
    · exact wf_linkDown h p

@[simp] theorem State.rekeyDue_mem (s : State) (p : Nat) : (s.rekeyDue p).mem = s.mem := State.onLink_mem
    (State.withLink_mem ..) p

@[simp] theorem State.linkKeyUpdate_mem (s : State) (p : Nat) (k : Key256) :
    (s.linkKeyUpdate p k).mem = s.mem := State.onLink_mem (State.withLink_mem ..) p

@[simp] theorem State.sendFlit_mem (s : State) (p : Nat) : (s.sendFlit p).mem = s.mem := rfl

@[simp] theorem State.linkKeyLoad_mem (s : State) (p : Nat) : (s.linkKeyLoad p).mem = s.mem := by
  refine State.onLink_mem ?_ p
  split
  · rfl
  · simp [apply_ite State.mem]

@[simp] theorem State.keySwitch_mem (s : State) (p : Nat) : (s.keySwitch p).mem = s.mem := State.onLink_mem
    (State.withLink_mem ..) p

@[simp] theorem State.keyExhausted_mem (s : State) (p : Nat) : (s.keyExhausted p).mem = s.mem := State.onLink_mem
    (State.withLink_mem ..) p

theorem wf_keyDown {s : State} (h : Memory.wf s.mem = true) (p : Nat) : Memory.wf (s.keyDown p).mem = true := by
  refine wf_onLink h ?_ p
  split
  · exact wf_linkDown h p
  · exact h

theorem wf_flitFail {s : State} (h : Memory.wf s.mem = true) (p seq : Nat) : Memory.wf (s.flitFail p seq).mem = true := by
  refine wf_onLink h ?_ p
  split
  · exact wf_linkDown h p
  · simp [h]

@[simp] theorem State.replay_mem (s : State) (p seq : Nat) : (s.replay p seq).mem = s.mem := by
  refine State.onLink_mem ?_ p
  split
  · rfl
  · simp

@[simp] theorem State.shiftOps_mem (s : State) (p since : Nat) : (s.shiftOps p since).mem = s.mem := rfl

@[simp] theorem State.peerFroze_mem (s : State) (p : Nat) : (s.peerFroze p).mem = s.mem := State.onLink_mem
    (State.withLink_mem ..) p

@[simp] theorem State.thaw_mem (s : State) (p : Nat) : (s.thaw p).mem = s.mem := by unfold State.thaw; split <;> rfl

@[simp] theorem State.markerExpiry_mem (s : State) (p : Nat) :
    (s.markerExpiry p).mem = s.mem := by unfold State.markerExpiry; split <;> simp

/-! ### Plant -/

theorem wf_packageReset (s : State) (b : BootInputs) : Memory.wf (s.packageReset b).mem = true := rfl

theorem wf_recoveryDoorbell {s : State} (h : Memory.wf s.mem = true) (f : FirmwareImage) :
    Memory.wf (s.recoveryDoorbell f).mem = true := by
  simp only [State.recoveryDoorbell]; repeat' split
  all_goals simp [h, wf_packageReset]

@[simp] theorem State.raiseSecurity_mem (s : State) :
    (s.raiseSecurity).mem = s.mem := by unfold State.raiseSecurity; split <;> rfl

@[simp] theorem State.setCap_mem (s : State) (w : Nat) : (s.setCap w).mem = s.mem := by unfold State.setCap; split <;> simp

@[simp] theorem State.pldmMonitor_mem (s : State) (n : Nat) : (s.pldmMonitor n).mem = s.mem := rfl

@[simp] theorem State.sendMarkers_mem (s : State) (frozen : Bool) : (s.sendMarkers frozen).mem = s.mem :=
  foldl_mem (fun t p => State.emit_mem t (.marker p frozen)) _ _

@[simp] theorem State.freeze_mem (s : State) : (s.freeze).mem = s.mem := by unfold State.freeze; split <;> simp

theorem wf_unfreeze {s : State} (h : Memory.wf s.mem = true) :
    Memory.wf (s.unfreeze).mem = true := by
  unfold State.unfreeze; repeat' split
  all_goals simp [h, wf_packageReset]

@[simp] theorem State.correctedError_mem (s : State) (loc : ErrLoc) :
    (s.correctedError loc).mem = s.mem := by
  simp only [State.correctedError]; repeat' split
  all_goals simp

@[simp] theorem State.markRepaired_mem (s : State) (loc : ErrLoc) : (s.markRepaired loc).mem = s.mem := rfl

@[simp] theorem State.rowRepair_mem (s : State) (loc : ErrLoc) :
    (s.rowRepair loc).mem = s.mem := by
  unfold State.rowRepair; repeat' split
  all_goals rfl

@[simp] theorem State.wayRepair_mem (s : State) (loc : ErrLoc) : (s.wayRepair loc).mem = s.mem := by
  unfold State.wayRepair
  split
  · split
    · rfl
    · dsimp only
      rw [markRepaired_mem]
      exact foldl_mem (fun t c => noteFault_mem t _ _ _) _ s
  · rfl

@[simp] theorem State.uncorrectedError_mem (s : State) (pa : Nat) :
    (s.uncorrectedError pa).mem = s.mem := by unfold State.uncorrectedError; split <;> rfl

/-! ### Rotation -/

@[simp] theorem State.countCore_mem (s : State) (cycles : Nat) (k : Core) :
    (s.countCore cycles k).mem = s.mem := by
  unfold State.countCore; split
  all_goals simp [foldl_mem]

@[simp] theorem State.passTime_mem (s : State) (dt : Nat) : (s.passTime dt).mem = s.mem := rfl

/-! ### Observe -/

theorem wf_ringWrite {s : State} (h : Memory.wf s.mem = true) (g : Ring) (r : TraceRecord) :
    Memory.wf (s.ringWrite g r).mem = true := by
  simp only [State.ringWrite]
  split
  · exact h
  · next w =>
    obtain ⟨c, _, wc⟩ := Option.bind_eq_some_iff.1 w
    obtain ⟨⟨u, pa⟩, wp, q⟩ := Option.map_eq_some_iff.1 wc
    cases q
    have hu := wf_hostPath h wp
    split
    · exact wf_coherentWrite hu _ _ _
    · split
      · exact hu
      · next w' => exact wf_coherentWrite (wf_coherentWrite (wf_hostPath hu w') _ _ _) _ _ _

theorem wf_deliverRecord {s : State} (h : Memory.wf s.mem = true) (r : TraceRecord) :
    Memory.wf (s.deliverRecord r).mem = true := by
  have hr := wf_foldl (fun t g ht => wf_ringWrite (s := t) ht g r) (s.oper.rings.filter fun g => g.takes r) h
  unfold State.deliverRecord; extract_lets
  split
  · exact hr
  · exact hr

@[simp] theorem State.deliverFault_mem (s : State) (r : FaultRecord) :
    (s.deliverFault r).mem = s.mem := by
  unfold State.deliverFault; repeat' split
  all_goals rfl

@[simp] theorem State.deliverStop_mem (s : State) (n : CtxNo) (r : StopRecord) :
    (s.deliverStop n r).mem = s.mem := by
  simp only [State.deliverStop]; repeat' split
  all_goals simp

theorem wf_deliverAll {s : State} (h : Memory.wf s.mem = true) : Memory.wf s.deliverAll.mem = true := by
  simp only [State.deliverAll]
  rw [foldl_mem fun t e => State.deliverStop_mem t _ _, foldl_mem fun t f => State.deliverFault_mem t f]
  exact wf_foldl (fun _ r ht => wf_deliverRecord ht r) _ h

@[simp] theorem State.latch_mem (s : State) (ctx : CtxNo) (cls : Nat) (from' : State) :
    (s.latch ctx cls from').mem = s.mem := rfl

@[simp] theorem State.bucketBoundary_mem (s : State) (ctx : CtxNo) (cls : Nat) :
    (s.bucketBoundary ctx cls).mem = s.mem := by
  simp only [State.bucketBoundary]; repeat' split
  all_goals simp

@[simp] theorem State.goOn_mem (s : State) (dt : Nat) : (s.goOn dt).mem = s.mem :=
  (foldl_mem (fun t _ => State.latch_mem t _ _ _) _ _).trans (State.passTime_mem s dt)

@[simp] theorem State.operatorRead_mem (s : State) (ctx : CtxNo) (unit cls idx : Nat) :
    (s.operatorRead ctx unit cls idx).mem = s.mem := rfl

@[simp] theorem State.pcSample_mem (s : State) (c : CoreId) :
    (s.pcSample c).mem = s.mem := by
  simp only [State.pcSample]; repeat' split
  all_goals simp

@[simp] theorem State.debugResume_mem (s : State) (c : CoreId) (slot : Nat) :
    (s.debugResume c slot).mem = s.mem := by
  simp only [State.debugResume]
  simp [foldl_mem]

@[simp] theorem State.setBreak_mem (s : State) (c : CoreId) (n : Nat) (addr : Word) (mask : BitVec 16) (control : Word) :
    (s.setBreak c n addr mask control).mem = s.mem := rfl

@[simp] theorem State.attach_mem (s : State) (c : CoreId) (slot : Nat) : (s.attach c slot).mem = s.mem := by simp [State.attach]

@[simp] theorem State.debugCommand_mem (s : State) (c : CoreId) (slot : Nat) (cmd : DebugCmd) :
    (s.debugCommand c slot cmd).mem = s.mem := by
  unfold State.debugCommand; repeat' split
  all_goals simp

theorem wf_serve {s : State} (h : Memory.wf s.mem = true) (c : CoreId) (slot kind : Nat)
    {answer : State → Word → Word → Word → Word → Option (State × Word)}
    (k : ∀ t v a b d e, answer s a b d e = .some (t, v) → t.mem = s.mem) :
    Memory.wf (s.serve c slot kind answer).mem = true := by
  simp only [State.serve]
  split
  · exact h
  · split
    · next w => simp [k _ _ _ _ _ _ w, h]
    · simp [h]

theorem State.rawService_mem {s t : State} {c : CoreId} {cls idx core v : Word}
    (e : s.rawService c cls idx core = .some (t, v)) : t.mem = s.mem := by
  obtain ⟨k, _, wk⟩ := Option.bind_eq_some_iff.1 e
  obtain ⟨u, _, q⟩ := Option.map_eq_some_iff.1 wk
  cases q; rfl

theorem State.ringService_mem {s t : State} {c : CoreId} {kind base size arg v : Word}
    (e : s.ringService c kind base size arg = .some (t, v)) : t.mem = s.mem := by
  simp only [State.ringService] at e
  split at e
  · split at e
    · cases e
    · split at e
      · cases e; exact foldl_mem (fun t k => withCore_mem t k _) _ _
      · cases e; rfl
  · cases e

/-! ### Peers -/

theorem wf_peerAtomic {s : State} (h : Memory.wf s.mem = true) (op pa size value compare : Nat) :
    Memory.wf (s.peerAtomic op pa size value compare).mem = true := by
  unfold State.peerAtomic; repeat' split
  all_goals simp [h, wf_coherentWrite]

/-- What an operation answers, or else the old state, has what both have. -/
theorem map_fst_getD {β : Type} {P : State → Prop} {o : Option (State × β)} {s : State} (hs : P s)
    (H : ∀ t v, o = .some (t, v) → P t) : P ((o.map (·.1)).getD s) := by
  cases o with
  | none => exact hs
  | some r => exact H r.1 r.2 rfl

@[simp] theorem State.peerTask_mem (s : State) (target pc : Word) (args : Vector Word 4) (reply : Bool) :
    (s.peerTask target pc args reply).mem = s.mem := by
  unfold State.peerTask; extract_lets
  split
  · rfl
  · exact map_fst_getD (P := fun u => u.mem = s.mem) rfl fun _ _ e => State.pushTask_mem e

@[simp] theorem State.peerRequest_mem (s : State) (pkg type block rtag : Nat) (r : Region) :
    (s.peerRequest pkg type block rtag r).mem = s.mem := by unfold State.peerRequest; split <;> rfl

theorem wf_peerWriteBack {s : State} (h : Memory.wf s.mem = true) (pkg block : Nat) (data : Option (BitVec 256)) (r : Region) :
    Memory.wf (s.peerWriteBack pkg block data r).mem = true := by
  unfold State.peerWriteBack
  split
  · exact h
  · cases data with
    | none => exact h
    | some d => exact wf_putHomeData h block d

@[simp] theorem State.peerAcks_mem (s : State) (k : Nat) (data : Option (BitVec 256)) : (s.peerAcks k data).mem = s.mem := by
  unfold State.peerAcks
  split
  next e =>
    split
    · exact (State.takeNet_mem e :)
    · rfl
  next => rfl

theorem wf_peerOp {s : State} (h : Memory.wf s.mem = true) (op : PeerOp) : Memory.wf (s.peerOp op).mem = true := by
  cases op with
  | read => exact h
  | write pa size value =>
    unfold State.peerOp; dsimp only; split
    · exact wf_coherentWrite h pa size value
    · exact h
  | atomic op pa size value compare => exact wf_peerAtomic h op pa size value compare
  | post pa bytes bits =>
    unfold State.peerOp; dsimp only; split
    · rw [State.sendPost_mem]; exact h
    · exact h
  | task target pc args reply => exact (State.peerTask_mem s target pc args reply).symm ▸ h
  | cancel handle => exact map_fst_getD (P := fun u => Memory.wf u.mem = true) h fun _ _ e => wf_cancelHere h e
  | request pkg type block rtag r => exact (State.peerRequest_mem s pkg type block rtag r).symm ▸ h
  | writeBack pkg block data r => exact wf_peerWriteBack h pkg block data r
  | ack k data => exact (State.peerAcks_mem s k data).symm ▸ h
  | grant => exact wf_grantRdc h ..
  | tagChange => exact h
  | refuse p block code => exact (State.refuseAtPp_mem s p block code).symm ▸ h

/-! ### Issue -/

theorem okFormed_refill {s : State} (h : Memory.wf s.mem = true) :
    OkFormed (s.refill) := by
  unfold State.refill; repeat' split
  all_goals simp [h]

@[simp] theorem State.countIssue_mem (s : State) (c : CoreId) :
    (s.countIssue c).mem = s.mem := by
  unfold State.countIssue; repeat' split
  all_goals rfl

@[simp] theorem State.gangFails_mem (s : State) (leader : CoreId) (slot : Nat) (w : BitVec 32) (len : Nat)
    (bad : List (CoreId × Hart)) :
    (s.gangFails leader slot w len bad).mem = s.mem := by
  unfold State.gangFails; split
  all_goals simp [foldl_mem]

@[simp] theorem State.countActivity_mem (s t : State) : (s.countActivity t).mem = t.mem := by
  unfold State.countActivity; extract_lets
  refine (foldl_mem (fun u l => ?_) _ _).trans ((foldl_mem (fun u k => ?_) _ _).trans (foldl_mem (fun u r => ?_) _ t))
  · dsimp only; split
    · rfl
    · exact foldl_mem (fun u c => State.count_mem u _ _ _ _ _) _ _
  · simp only [apply_ite State.mem, State.count_mem, ite_self]
  · split
    · exact State.count_mem u _ _ _ _ _
    · rfl

@[simp] theorem State.countStep_mem (s : State) (p : PpId) :
    (s.countStep p).mem = s.mem := by unfold State.countStep; split <;> rfl

theorem wf_issueCopy {s : State} (h : Memory.wf s.mem = true) (cl : ClusterId) (k : Nat) :
    Memory.wf (s.issueCopy cl k).mem = true := by
  unfold State.issueCopy; repeat' split
  all_goals simp [h, wf_copyPiece]

theorem wf_issueGroup {s : State} (h : Memory.wf s.mem = true) (cl : ClusterId) (bank k : Nat) :
    Memory.wf (s.issueGroup cl bank k).mem = true := by
  unfold State.issueGroup; split
  all_goals simp [h, wf_rowGroup]

theorem wf_issuePiece {s : State} (h : Memory.wf s.mem = true) (cl : ClusterId) (bank k kc g i : Nat) :
    Memory.wf (s.issuePiece cl bank k kc g i).mem = true := by
  unfold State.issuePiece; split
  all_goals simp [h, wf_matrixPiece]

theorem wf_whenAlive {s : State} (h : Memory.wf s.mem = true) {f : State → State} (hf : Memory.wf (f s).mem = true) :
    Memory.wf (s.whenAlive f).mem = true := by
  unfold State.whenAlive
  split
  · exact hf
  · exact h

theorem wf_issueCode {s : State} (h : Memory.wf s.mem = true) (c : CoreId) (va : Nat) :
    Memory.wf (s.issueCode c va).mem = true := by
  unfold State.issueCode; split
  all_goals simp [h, wf_codeFill]

theorem wf_pass {s : State} (h : Memory.wf s.mem = true) (dt : Nat) :
    Memory.wf (s.pass dt).mem = true := by
  unfold State.pass; repeat' split
  all_goals simp [h, wf_deliverAll]

/-! ### Instructions of Ops -/

theorem nextFormed_issue {s : State} (h : Memory.wf s.mem = true) {sh : Shape} {body : State → Except Exc State}
    (b : OkFormed (body s)) : NextFormed (s.issue sh body) := by
  obtain ⟨t, ok, -, e⟩ | ⟨x, e⟩ := issue_next s sh body
  · rw [e]; exact nextFormed_next.mpr (b t ok)
  · rw [e]; exact nextFormed_next.mpr (wf_raise h x)

/-- An instruction that changes its thread alone keeps memory. -/
theorem nextFormed_issueHart {s : State} (h : Memory.wf s.mem = true) (sh : Shape) (body : Hart → Except Exc Hart) :
    NextFormed (s.issueHart sh body) :=
  nextFormed_issue h (by cases body s.cur <;> simp [Except.map, h])

/-! ### Instructions of Legal -/

theorem nextFormed_issueLegal {s : State} (h : Memory.wf s.mem = true) {sh : Shape} (i : Instr)
    {body : State → Except Exc State}
    (b : OkFormed (body s)) : NextFormed (s.issueLegal sh i body) := by
  unfold State.issueLegal
  split
  · exact nextFormed_next.mpr (wf_illegal h)
  · exact nextFormed_issue h b

/-! ### Instructions of Memory -/

theorem nextFormed_loadScalar {s : State} (h : Memory.wf s.mem = true) (n : Nat) (signed : Bool) (d a : Reg) (imm : Word)
    (len : Nat) :
    NextFormed (loadScalar n signed d a imm len s) := by
  refine nextFormed_issue h (okFormed_bind fun _ _ => okFormed_bind fun _ _ => okFormed_ite ?_ ?_)
  · exact okFormed_handlerLoad h _ _ _ _ _
  · exact okFormed_bind fun _ _ => okFormed_load h _ _ _ _ _

theorem nextFormed_storeScalar {s : State} (h : Memory.wf s.mem = true) (n : Nat) (b a : Reg) (imm : Word) (len : Nat) :
    NextFormed (storeScalar n b a imm len s) := by
  refine nextFormed_issue h (okFormed_bind fun _ _ => okFormed_bind fun _ _ => ?_)
  split
  · exact okFormed_handlerStore h _ _ _ _
  · exact okFormed_bind fun _ _ => okFormed_store h _ _ _

theorem nextFormed_execVld {s : State} (h : Memory.wf s.mem = true) (vd : VReg) (a : Reg) (imm : BitVec 11) (nt : Bool) :
    NextFormed (execVld vd a imm nt s) := by
  refine nextFormed_issue h ?_
  iterate 4 refine okFormed_bind fun _ _ => ?_
  simp [h, okFormed_load]

theorem nextFormed_execVst {s : State} (h : Memory.wf s.mem = true) (vd : VReg) (a : Reg) (imm : BitVec 11) (nt : Bool) :
    NextFormed (execVst vd a imm nt s) := by
  refine nextFormed_issue h ?_
  iterate 4 refine okFormed_bind fun _ _ => ?_
  simp [h, okFormed_store]

theorem nextFormed_execVldx {s : State} (h : Memory.wf s.mem = true) (vd : VReg) (a : Reg) (vb : VReg) (st : Bool) :
    NextFormed (execVldx vd a vb st s) := by
  refine nextFormed_issue h ?_
  iterate 5 refine okFormed_bind fun _ _ => ?_
  simp [h, okFormed_gather]

theorem nextFormed_execVstx {s : State} (h : Memory.wf s.mem = true) (vd : VReg) (a : Reg) (vb : VReg) (st : Bool) :
    NextFormed (execVstx vd a vb st s) := by
  refine nextFormed_issue h ?_
  iterate 5 refine okFormed_bind fun _ _ => ?_
  simp [h, okFormed_scatter]

theorem nextFormed_execVlds {s : State} (h : Memory.wf s.mem = true) (vd : VReg) (a b : Reg) (st : Bool) :
    NextFormed (execVlds vd a b st s) := by
  refine nextFormed_issue h ?_
  iterate 4 refine okFormed_bind fun _ _ => ?_
  simp [h, okFormed_gather]

theorem nextFormed_execVsts {s : State} (h : Memory.wf s.mem = true) (vd : VReg) (a b : Reg) (st : Bool) :
    NextFormed (execVsts vd a b st s) := by
  refine nextFormed_issue h ?_
  iterate 4 refine okFormed_bind fun _ _ => ?_
  simp [h, okFormed_scatter]

theorem nextFormed_hint {s : State} (h : Memory.wf s.mem = true) (kind : Nat) (r : Right) {eff : State → CoreId → Line → State}
    {away : State → CoreId → Target → State}
    (hEff : ∀ {s : State}, Memory.wf s.mem = true → ∀ c l, Memory.wf (eff s c l).mem = true)
    (hAway : ∀ {s : State}, Memory.wf s.mem = true → ∀ c t, Memory.wf (away s c t).mem = true) (a : Reg) (imm : BitVec 11) :
    NextFormed (hint kind r eff away a imm s) := by
  refine nextFormed_issue h (okFormed_bind fun _ _ => okFormed_bind fun t _ => okFormed_ite (okFormed_ok.mpr h) ?_)
  refine okFormed_ite okFormed_error (okFormed_ok.mpr ?_)
  dsimp only
  rw [State.tellHint_mem]
  refine hAway ?_ _ _
  split
  · exact h
  · exact hEff h _ _

theorem nextFormed_prefetch {s : State} (h : Memory.wf s.mem = true) {eff : State → CoreId → Target → Except Exc State}
    (hEff : ∀ c t, OkFormed (eff s c t)) (a : Reg) (imm : BitVec 11) : NextFormed (prefetch eff a imm s) := by
  refine nextFormed_issue h (okFormed_bind fun _ _ => ?_)
  split
  · simp [h]
  · simp
  · split
    · simp [h]
    · exact okFormed_bindState (hEff _ _) fun t ht => by simp [ht]

/-! ### Instructions of Atomics -/

theorem nextFormed_atomicOp {s : State} (h : Memory.wf s.mem = true) (op n : Nat) (d b a : Reg) (ord : BitVec 2)
    (scope : BitVec 3) :
    NextFormed (atomicOp op n d b a ord scope s) := by
  refine nextFormed_issue h (okFormed_bind fun _ _ => okFormed_bind fun _ _ => okFormed_bind fun _ _ => ?_)
  dsimp only
  split
  · exact okFormed_handlerAtomic h _ _ _ _ _ _
  · exact okFormed_bind fun _ _ => okFormed_atomic h _ _ _ _ _

theorem nextFormed_execCas128 {s : State} (h : Memory.wf s.mem = true) (d b a : Reg) (ord : BitVec 2) (scope : BitVec 3) :
    NextFormed (execCas128 d b a ord scope s) := by
  refine nextFormed_issue h ?_
  iterate 4 refine okFormed_bind fun _ _ => ?_
  simp [h, okFormed_atomic]

theorem nextFormed_execLdacq {s : State} (h : Memory.wf s.mem = true) (d a : Reg) (scope : BitVec 3) (dbl : Bool) :
    NextFormed (execLdacq d a scope dbl s) := by
  refine nextFormed_issue h ?_
  iterate 3 refine okFormed_bind fun _ _ => ?_
  simp [h, okFormed_load]

theorem nextFormed_execStrel {s : State} (h : Memory.wf s.mem = true) (b a : Reg) (scope : BitVec 3) (dbl : Bool) :
    NextFormed (execStrel b a scope dbl s) := by
  refine nextFormed_issue h ?_
  iterate 3 refine okFormed_bind fun _ _ => ?_
  simp [h, okFormed_store]

theorem nextFormed_fence {s : State} (h : Memory.wf s.mem = true) (ready : State → Bool) {order : State → State}
    (hOrder : (order s).mem = s.mem) : NextFormed (fence ready order s) := by
  refine nextFormed_issue h ?_
  split
  · simp [h]
  · split
    · simp [hOrder, h]
    · simp

/-! ### Instructions of Control -/

theorem nextFormed_execRep {s : State} (h : Memory.wf s.mem = true) (cnt : BitVec 8) (sd sa sb : BitVec 3) :
    NextFormed (execRep cnt sd sa sb s) := by
  refine nextFormed_issue h ?_
  dsimp only
  split
  all_goals simp [h]

theorem nextFormed_execGang {s : State} (h : Memory.wf s.mem = true) (d a : Reg) (w : BitVec 3) :
    NextFormed (execGang d a w s) := by
  refine nextFormed_issue h (okFormed_bind fun _ _ => okFormed_bind fun _ _ => ?_)
  dsimp only
  split
  all_goals simp [h]

theorem nextFormed_execUngang {s : State} (h : Memory.wf s.mem = true) : NextFormed (execUngang s) := by
  refine nextFormed_issue h ?_
  dsimp only
  split
  all_goals simp [h]

/-! ### Instructions of Tasks -/

theorem nextFormed_execSpawn {s : State} (h : Memory.wf s.mem = true) (d a b : Reg) (nb : Bool) :
    NextFormed (execSpawn d a b nb s) := by
  refine nextFormed_issue h (okFormed_bind fun _ _ => okFormed_bind fun _ _ => okFormed_bind fun ⟨pc, join⟩ _ => ?_)
  dsimp only
  split
  · exact okFormed_throw
  · split
    next e => simpa [h] using congrArg Memory.wf (State.pushTask_mem e)
    next => split <;> simp [h]

theorem nextFormed_execCallat {s : State} (h : Memory.wf s.mem = true) (d a b : Reg) (nb : Bool) :
    NextFormed (execCallat d a b nb s) := by
  refine nextFormed_issue h ?_
  iterate 4 refine okFormed_bind fun _ _ => ?_
  dsimp only
  repeat' split
  all_goals simp [h]

theorem nextFormed_execJoin {s : State} (h : Memory.wf s.mem = true) (d a : Reg) : NextFormed (execJoin d a s) := by
  refine nextFormed_issue h (okFormed_bind fun _ _ => okFormed_bind fun _ _ => okFormed_bind fun t _ => ?_)
  dsimp only
  split
  · simp
  · split
    · split
      · simp
      · split <;> simp [h]
    · exact okFormed_bindState (okFormed_load h _ _ _ _ _) fun u hu => by simp [hu]

theorem nextFormed_endTask {s : State} (h : Memory.wf s.mem = true) (value : Hart → Word) : NextFormed (endTask value s) := by
  refine nextFormed_issue h (okFormed_bind fun _ _ => okFormed_guard ?_)
  dsimp only
  split
  · exact okFormed_error
  next closed =>
    have hc := (congrArg Memory.wf (State.closeStream_mem closed)).trans (by split <;> simp [h] : _ = true)
    split
    · exact okFormed_error
    next counted =>
      rw [okFormed_ok, State.tryDissolve_mem]
      split at counted
      · cases counted; exact hc
      · exact (wf_countDown hc counted :)

theorem nextFormed_execTcancel {s : State} (h : Memory.wf s.mem = true) (d a : Reg) : NextFormed (execTcancel d a s) := by
  refine nextFormed_issue h (okFormed_bind fun _ _ => okFormed_bind fun _ _ => ?_)
  simp [h]

/-! ### Instructions of Barriers -/

theorem nextFormed_execBarwr {s : State} (h : Memory.wf s.mem = true) (d a : Reg) : NextFormed (execBarwr d a s) := by
  refine nextFormed_issue h (okFormed_bind fun _ _ => okFormed_bind fun _ _ => ?_)
  dsimp only
  split
  all_goals simp [h]

theorem nextFormed_arrival {s : State} (h : Memory.wf s.mem = true) (goesOn : Bool) (d a : Reg) :
    NextFormed (arrival goesOn d a s) := by
  refine nextFormed_issue h (okFormed_bind fun _ _ => okFormed_bind fun _ _ => ?_)
  dsimp only
  repeat' split
  all_goals simp [h]

theorem nextFormed_execBarww {s : State} (h : Memory.wf s.mem = true) (d a : Reg) : NextFormed (execBarww d a s) := by
  refine nextFormed_issue h (okFormed_bind fun _ _ => okFormed_bind fun _ _ => ?_)
  dsimp only
  repeat' split
  all_goals simp [h]

/-! ### Instructions of Messages -/

theorem nextFormed_execSend {s : State} (h : Memory.wf s.mem = true) (d a b : Reg) (port nb : Bool) :
    NextFormed (execSend d a b port nb s) := by
  refine nextFormed_issue h ?_
  iterate 3 refine okFormed_bind fun _ _ => ?_
  refine okFormed_bind fun target _ => ?_
  cases target <;> simp [h]

theorem nextFormed_execSopen {s : State} (h : Memory.wf s.mem = true) (a : Reg) (port : Bool) :
    NextFormed (execSopen a port s) := by
  refine nextFormed_issue h (okFormed_bind fun _ _ => okFormed_bind fun target _ => ?_)
  cases target with
  | none => exact okFormed_error
  | some t => exact okFormed_ite okFormed_error (okFormed_ite okFormed_error (okFormed_ite okFormed_error (okFormed_ok.mpr h)))

theorem nextFormed_execSput {s : State} (h : Memory.wf s.mem = true) (d a : Reg) (nb : Bool) :
    NextFormed (execSput d a nb s) := by
  refine nextFormed_issue h (okFormed_bind fun _ _ => okFormed_bind fun _ _ => ?_)
  simp [h, okFormed_put]

theorem nextFormed_execSclose {s : State} (h : Memory.wf s.mem = true) : NextFormed (execSclose s) := by
  refine nextFormed_issue h ?_
  split
  · simp
  · split
    · simp
    next e => simp [State.closeStream_mem e, h]

theorem nextFormed_popTo {s : State} (h : Memory.wf s.mem = true) (d : Reg) (q : BitVec 2) (len : Nat) :
    NextFormed (popTo d q len s) := by
  refine nextFormed_issue h (okFormed_bind fun _ _ => ?_)
  simp [h, okFormed_pop]

theorem nextFormed_execQprobe {s : State} (h : Memory.wf s.mem = true) (d : Reg) (q : BitVec 2) :
    NextFormed (execQprobe d q s) := by
  refine nextFormed_issue h (okFormed_bind fun _ _ => ?_)
  simp [h]

/-! ### Instructions of Copies -/

theorem nextFormed_copyOp {s : State} (h : Memory.wf s.mem = true) (op : Nat) (quads : Bool) (d a b : Reg) (nb : Bool) :
    NextFormed (copyOp op quads d a b nb s) := by
  refine nextFormed_issue h (okFormed_bind fun _ _ => okFormed_bind fun _ _ => ?_)
  refine okFormed_ite (okFormed_bind fun ys _ => ?_) (okFormed_bind fun ys _ => ?_)
  all_goals
    refine okFormed_bind fun _ _ => okFormed_bind fun _ _ => okFormed_ite ?_ (okFormed_ite ?_ okFormed_error)
    · exact okFormed_ok.mpr h
    · exact okFormed_ok.mpr h

theorem nextFormed_execNotify {s : State} (h : Memory.wf s.mem = true) (a b : Reg) : NextFormed (execNotify a b s) := by
  refine nextFormed_issue h ?_
  iterate 3 refine okFormed_bind fun _ _ => ?_
  dsimp only
  split
  all_goals simp [h]

theorem nextFormed_execSyncw {s : State} (h : Memory.wf s.mem = true) (d a b : Reg) : NextFormed (execSyncw d a b s) := by
  refine nextFormed_issue h ?_
  iterate 4 refine okFormed_bind fun _ _ => ?_
  dsimp only
  repeat' split
  all_goals simp [h]

theorem nextFormed_execSyncinit {s : State} (h : Memory.wf s.mem = true) (a b : Reg) : NextFormed (execSyncinit a b s) := by
  refine nextFormed_issue h (okFormed_bind fun _ _ => okFormed_bind fun v _ => okFormed_bind fun pa _ => ?_)
  refine okFormed_ite okFormed_error (okFormed_ite okFormed_error (okFormed_ok.mpr ?_))
  dsimp only
  exact wf_setSync (wf_setSync (wf_setSync (wf_setSync h pa 0 8 v.toNat) pa 8 8 0) pa 20 4 0) pa 24 8 0

theorem nextFormed_execSyncrd {s : State} (h : Memory.wf s.mem = true) (d a : Reg) (sel : BitVec 5) :
    NextFormed (execSyncrd d a sel s) := by
  refine nextFormed_issue h ?_
  iterate 3 refine okFormed_bind fun _ _ => ?_
  dsimp only
  repeat' split
  all_goals simp [h]

/-! ### Instructions of Vector -/

theorem nextFormed_vecThree {s : State} (h : Memory.wf s.mem = true) (dflt : Prefix) (ok : Prefix → Bool) (steps : Prefix → Nat)
    (f : Hart → Prefix → List Nat → VecArgs → Except Exc VecResult) (vd va vb : VReg) :
    NextFormed (vecThree dflt ok steps f vd va vb s) := by
  refine nextFormed_issue h ?_
  iterate 6 refine okFormed_bind fun _ _ => ?_
  simp [h]

theorem nextFormed_vecTwo {s : State} (h : Memory.wf s.mem = true) (dflt : Prefix) (ok : Prefix → Bool) (steps : Prefix → Nat)
    (f : Hart → Prefix → List Nat → VecArgs → Except Exc VecResult) (vd va : VReg) :
    NextFormed (vecTwo dflt ok steps f vd va s) := by
  refine nextFormed_issue h ?_
  iterate 5 refine okFormed_bind fun _ _ => ?_
  simp [h]

theorem nextFormed_vecScalar {s : State} (h : Memory.wf s.mem = true) (f : Prefix → VecArgs → VecResult) (vd va : VReg)
    (b : Reg) :
    NextFormed (vecScalar f vd va b s) := by
  refine nextFormed_issue h ?_
  iterate 5 refine okFormed_bind fun _ _ => ?_
  simp [h]

theorem nextFormed_execVqnt4 {s : State} (h : Memory.wf s.mem = true) (vd va vb : VReg) :
    NextFormed (execVqnt4 vd va vb s) := by
  refine nextFormed_issueLegal h _ ?_
  iterate 4 refine okFormed_bind fun _ _ => ?_
  refine okFormed_ite (okFormed_bind fun _ _ => ?_) (okFormed_bind fun _ _ => ?_)
  all_goals exact okFormed_ok.mpr h

theorem nextFormed_execVsplat {s : State} (h : Memory.wf s.mem = true) (vd : VReg) (b : Reg) :
    NextFormed (execVsplat vd b s) := by
  refine nextFormed_issue h ?_
  iterate 4 refine okFormed_bind fun _ _ => ?_
  simp [h]

theorem nextFormed_execVext {s : State} (h : Memory.wf s.mem = true) (b : Reg) (va : VReg) (idx : BitVec 7) :
    NextFormed (execVext b va idx s) := by
  refine nextFormed_issueLegal h _ ?_
  iterate 4 refine okFormed_bind fun _ _ => ?_
  simp [h]

theorem nextFormed_execVins {s : State} (h : Memory.wf s.mem = true) (vd : VReg) (b : Reg) (idx : BitVec 7) :
    NextFormed (execVins vd b idx s) := by
  refine nextFormed_issueLegal h _ ?_
  iterate 4 refine okFormed_bind fun _ _ => ?_
  simp [h]

theorem nextFormed_execVqpop {s : State} (h : Memory.wf s.mem = true) (vd : VReg) (q : BitVec 2) :
    NextFormed (execVqpop vd q s) := by
  refine nextFormed_issue h ?_
  iterate 3 refine okFormed_bind fun _ _ => ?_
  simp [h, okFormed_pop]

theorem nextFormed_execSputv {s : State} (h : Memory.wf s.mem = true) (va : VReg) : NextFormed (execSputv va s) := by
  refine nextFormed_issue h ?_
  iterate 3 refine okFormed_bind fun _ _ => ?_
  simp [h, okFormed_put]

/-! ### Instructions of Matrix -/

theorem nextFormed_execMlease {s : State} (h : Memory.wf s.mem = true) (d : Reg) : NextFormed (execMlease d s) := by
  refine nextFormed_issue h (okFormed_bind fun _ _ => ?_)
  dsimp only
  split
  all_goals simp [h]

theorem nextFormed_execMrelease {s : State} (h : Memory.wf s.mem = true) : NextFormed (execMrelease s) := by
  refine nextFormed_issue h ?_
  dsimp only
  split
  all_goals simp [h]

theorem nextFormed_execMtry {s : State} (h : Memory.wf s.mem = true) (d : Reg) : NextFormed (execMtry d s) := by
  refine nextFormed_issue h (okFormed_bind fun _ _ => ?_)
  dsimp only
  repeat' split
  all_goals simp [h]

theorem nextFormed_computeOp {s : State} (h : Memory.wf s.mem = true) (f3 : Nat) (d : Reg) (t : BitVec 2) :
    NextFormed (computeOp f3 d t s) := by
  refine nextFormed_issue h (okFormed_bind fun _ _ => okFormed_bind fun _ _ => ?_)
  refine okFormed_ite (okFormed_bind fun q _ => ?_) (okFormed_bind fun q _ => ?_)
  all_goals
    refine okFormed_bind fun _ _ => okFormed_bind fun sync _ => okFormed_ite (okFormed_bind fun _ _ => ?_) ?_
    all_goals
      refine okFormed_ite okFormed_error (okFormed_bindState (okFormed_enqueue h _ _ _ _ _) fun t ht => ?_)
      exact okFormed_ok.mpr ht

theorem nextFormed_drainOp {s : State} (h : Memory.wf s.mem = true) (op : MatrixOp) (d a : Reg) (t : BitVec 2) :
    NextFormed (drainOp op d a t s) := by
  refine nextFormed_issue h (okFormed_bind fun _ _ => okFormed_bind fun _ _ => okFormed_ite okFormed_error ?_)
  iterate 3 refine okFormed_bind fun _ _ => ?_
  exact okFormed_ite okFormed_error (okFormed_enqueue h _ _ _ _ _)

theorem nextFormed_execMzero {s : State} (h : Memory.wf s.mem = true) (t : BitVec 2) : NextFormed (execMzero t s) := by
  refine nextFormed_issue h ?_
  simp [h, okFormed_enqueue]

theorem nextFormed_execMresume {s : State} (h : Memory.wf s.mem = true) (d : Reg) (t : BitVec 2) :
    NextFormed (execMresume d t s) := by
  refine nextFormed_issue h (okFormed_bind fun _ _ => ?_)
  dsimp only
  repeat' split
  all_goals simp [h]

theorem nextFormed_execMstat {s : State} (h : Memory.wf s.mem = true) (d a : Reg) (t : BitVec 2) :
    NextFormed (execMstat d a t s) := by
  refine nextFormed_issue h (okFormed_bind fun _ _ => okFormed_bind fun _ _ => ?_)
  dsimp only
  repeat' split
  all_goals simp [h]

theorem nextFormed_execMabort {s : State} (h : Memory.wf s.mem = true) (d : Reg) (t : BitVec 2) :
    NextFormed (execMabort d t s) := by
  refine nextFormed_issue h (okFormed_bind fun _ _ => ?_)
  dsimp only
  split
  all_goals simp [h]

/-! ### Instructions of Gaussian -/

theorem nextFormed_groupSum {s : State} (h : Memory.wf s.mem = true) (minus : Bool) (vd va vb : VReg) (dim : BitVec 2) :
    NextFormed (groupSum minus vd va vb dim s) := by
  refine nextFormed_issue h ?_
  iterate 6 refine okFormed_bind fun _ _ => ?_
  simp [h]

theorem nextFormed_execGbdamp {s : State} (h : Memory.wf s.mem = true) (vd va : VReg) (dim : BitVec 2) :
    NextFormed (execGbdamp vd va dim s) := by
  refine nextFormed_issue h ?_
  iterate 4 refine okFormed_bind fun _ _ => ?_
  simp [h]

theorem nextFormed_execGbschur {s : State} (h : Memory.wf s.mem = true) (vd va : VReg) (keep joint : BitVec 2) (hi : Bool) :
    NextFormed (execGbschur vd va keep joint hi s) := by
  refine nextFormed_issue h ?_
  iterate 5 refine okFormed_bind fun _ _ => ?_
  simp [h]

theorem nextFormed_solveOp {s : State} (h : Memory.wf s.mem = true) (var : Bool) (vd va : VReg) (dim : BitVec 2) :
    NextFormed (solveOp var vd va dim s) := by
  refine nextFormed_issue h ?_
  iterate 5 refine okFormed_bind fun _ _ => ?_
  simp [h]

theorem nextFormed_execGbpoll {s : State} (h : Memory.wf s.mem = true) (d : Reg) : NextFormed (execGbpoll d s) := by
  refine nextFormed_issue h (okFormed_bind fun _ _ => ?_)
  dsimp only
  split
  all_goals simp [h]

theorem nextFormed_execGbpolln {s : State} (h : Memory.wf s.mem = true) (d : Reg) : NextFormed (execGbpolln d s) := by
  refine nextFormed_issue h (okFormed_bind fun _ _ => ?_)
  dsimp only
  repeat' split
  all_goals simp [h, wf_pollTake]

theorem nextFormed_execGbres {s : State} (h : Memory.wf s.mem = true) (d a b : Reg) : NextFormed (execGbres d a b s) := by
  refine nextFormed_issue h ?_
  iterate 3 refine okFormed_bind fun _ _ => ?_
  dsimp only
  repeat' split
  all_goals simp [h, wf_takeSlot]

theorem nextFormed_execGbclr {s : State} (h : Memory.wf s.mem = true) (d a b : Reg) : NextFormed (execGbclr d a b s) := by
  refine nextFormed_issue h ?_
  iterate 3 refine okFormed_bind fun _ _ => ?_
  simp [h]

theorem nextFormed_execGbsend {s : State} (h : Memory.wf s.mem = true) (va : VReg) (b : Reg) (dim : BitVec 2) :
    NextFormed (execGbsend va b dim s) := by
  refine nextFormed_issue h ?_
  iterate 3 refine okFormed_bind fun _ _ => ?_
  dsimp only
  repeat' split
  all_goals simp [h]

theorem nextFormed_execGbld {s : State} (h : Memory.wf s.mem = true) (vd : VReg) (a : Reg) (imm : BitVec 11) (take : Bool) :
    NextFormed (execGbld vd a imm take s) := by
  refine nextFormed_issue h ?_
  iterate 4 refine okFormed_bind fun _ _ => ?_
  dsimp only
  repeat' split
  all_goals simp [h, wf_readSlot]

/-! ### Instructions of Handler -/

theorem nextFormed_execHtag {s : State} (h : Memory.wf s.mem = true) (a b : Reg) (tag : BitVec 2) :
    NextFormed (execHtag a b tag s) := by
  refine nextFormed_issue h (okFormed_bind fun _ _ => okFormed_bind fun _ _ => okFormed_bind fun _ _ => ?_)
  split
  · exact okFormed_throw
  · exact okFormed_bindState (okFormed_useReply h) fun t ht => by simp [ht]

theorem nextFormed_execHtagrd {s : State} (h : Memory.wf s.mem = true) (d a : Reg) : NextFormed (execHtagrd d a s) := by
  refine nextFormed_issue h (okFormed_bind fun _ _ => okFormed_bind fun _ _ => ?_)
  simp [h]

theorem nextFormed_execHdirrd {s : State} (h : Memory.wf s.mem = true) (d a : Reg) : NextFormed (execHdirrd d a s) := by
  refine nextFormed_issue h ?_
  iterate 3 refine okFormed_bind fun _ _ => ?_
  simp [h]

theorem nextFormed_execHdirwr {s : State} (h : Memory.wf s.mem = true) (d a b : Reg) (o : Bool) :
    NextFormed (execHdirwr d a b o s) := by
  refine nextFormed_issue h (okFormed_bind fun _ _ => okFormed_bind fun _ _ => okFormed_bind fun _ _ => ?_)
  dsimp only
  split
  · exact okFormed_throw
  · refine okFormed_bind fun _ _ => ?_
    split
    · exact okFormed_error
    · simp [h]

theorem nextFormed_execHbusy {s : State} (h : Memory.wf s.mem = true) (d a : Reg) : NextFormed (execHbusy d a s) := by
  refine nextFormed_issue h ?_
  iterate 3 refine okFormed_bind fun _ _ => ?_
  dsimp only
  repeat' split
  all_goals simp [h]

theorem nextFormed_execHfree {s : State} (h : Memory.wf s.mem = true) (a : Reg) : NextFormed (execHfree a s) := by
  refine nextFormed_issue h (okFormed_bind fun _ _ => okFormed_bind fun _ _ => ?_)
  simp [h]

theorem nextFormed_execHsendReq {s : State} (h : Memory.wf s.mem = true) (a b : Reg) (pp : Bool) :
    NextFormed (execHsendReq a b pp s) := by
  refine nextFormed_issue h (okFormed_bind fun _ _ => okFormed_bind fun ⟨w, payload⟩ _ => okFormed_guard (okFormed_guard ?_))
  refine okFormed_ite (okFormed_bind fun dest _ => ?_) ?_
  · refine okFormed_guard ?_
    cases dest <;> exact okFormed_ok.mpr h
  · split
    · refine okFormed_bind fun dest _ => okFormed_guard ?_
      cases dest <;> exact okFormed_ok.mpr h
    · exact okFormed_throw

theorem nextFormed_execHsendRep {s : State} (h : Memory.wf s.mem = true) (a b : Reg) : NextFormed (execHsendRep a b s) := by
  refine nextFormed_issue h (okFormed_bind fun _ _ => okFormed_bind fun ⟨w, payload⟩ _ => okFormed_guard ?_)
  have used := okFormed_useReply h
  dsimp only
  split
  · refine okFormed_guard (okFormed_bindState used fun t ht => okFormed_ok.mpr ht)
  · refine okFormed_guard (okFormed_bindState used fun t ht => ?_)
    split
    · exact okFormed_ok.mpr ht
    · exact okFormed_ite (by simp [wf_sendGrant ht]) (okFormed_ok.mpr ht)

theorem nextFormed_execHblk {s : State} (h : Memory.wf s.mem = true) (d a b : Reg) : NextFormed (execHblk d a b s) := by
  refine nextFormed_issue h (okFormed_bind fun _ _ => ?_)
  dsimp only
  split
  · exact okFormed_throw
  · refine okFormed_bind fun ⟨dst, src⟩ _ => okFormed_bind fun n _ => ?_
    dsimp only
    split
    · exact okFormed_throw
    · refine okFormed_bind fun ⟨dl, da⟩ _ => okFormed_bind fun ⟨sl, sa⟩ _ => ?_
      dsimp only
      split <;> simp [h]

theorem nextFormed_execHresume {s : State} (h : Memory.wf s.mem = true) (a : Reg) : NextFormed (execHresume a s) := by
  refine nextFormed_issue h (okFormed_bind fun _ _ => ?_)
  simp [h]

theorem nextFormed_execHend {s : State} (h : Memory.wf s.mem = true) : NextFormed (execHend s) := by
  refine nextFormed_issue h (okFormed_bind fun _ _ => ?_)
  simp [h]

theorem nextFormed_execHdefer {s : State} (h : Memory.wf s.mem = true) : NextFormed (execHdefer s) := by
  refine nextFormed_issue h (okFormed_bind fun _ _ => ?_)
  dsimp only
  split
  all_goals simp [h]

theorem nextFormed_execHfault {s : State} (h : Memory.wf s.mem = true) (a : Reg) : NextFormed (execHfault a s) := by
  refine nextFormed_issue h (okFormed_bind fun _ _ => ?_)
  simp [h]

/-! ### Instructions of System -/

theorem nextFormed_execTrap {s : State} (h : Memory.wf s.mem = true) (imm : BitVec 11) : NextFormed (execTrap imm s) := by
  refine nextFormed_issue h ?_
  dsimp only
  split
  all_goals simp [h]

theorem nextFormed_execSysc {s : State} (h : Memory.wf s.mem = true) (imm : BitVec 11) : NextFormed (execSysc imm s) := by
  refine nextFormed_issue h (okFormed_guard ?_)
  iterate 4 refine okFormed_bind fun _ _ => ?_
  exact okFormed_ite (okFormed_ok.mpr h) (okFormed_ok.mpr h)

theorem nextFormed_execTret {s : State} (h : Memory.wf s.mem = true) : NextFormed (execTret s) := by
  refine nextFormed_issue h (okFormed_bind fun _ _ => ?_)
  dsimp only
  repeat' split
  all_goals simp [h]

theorem nextFormed_execWfe {s : State} (h : Memory.wf s.mem = true) : NextFormed (execWfe s) := by
  refine nextFormed_issue h ?_
  split
  all_goals simp [h]

theorem nextFormed_execBrk {s : State} (h : Memory.wf s.mem = true) (imm : BitVec 11) : NextFormed (execBrk imm s) := by
  refine nextFormed_issue h ?_
  dsimp only
  split
  all_goals simp [h]

theorem nextFormed_execTlbinv {s : State} (h : Memory.wf s.mem = true) (a : Reg) : NextFormed (execTlbinv a s) := by
  refine nextFormed_issue h (okFormed_bind fun _ _ => okFormed_bind fun _ _ => ?_)
  simp [h, okFormed_invalidate]

theorem nextFormed_execTlbinva {s : State} (h : Memory.wf s.mem = true) : NextFormed (execTlbinva s) := by
  refine nextFormed_issue h ?_
  simp [h, okFormed_invalidate]

theorem nextFormed_execRgnwr {s : State} (h : Memory.wf s.mem = true) (d a b : Reg) : NextFormed (execRgnwr d a b s) := by
  refine nextFormed_issue h ?_
  iterate 4 refine okFormed_bind fun _ _ => ?_
  dsimp only
  repeat' split
  all_goals simp [h]

/-! ### Instructions of SysRegs -/

theorem nextFormed_sysModify {s : State} (h : Memory.wf s.mem = true) (i : Instr) (f : Word → Word → Word) (d : Reg) (n : SysNo)
    (a : Reg) :
    NextFormed (sysModify i f d n a s) := by
  refine nextFormed_issueLegal h _ ?_
  iterate 3 refine okFormed_bind fun _ _ => ?_
  simp [h]

theorem nextFormed_execCrd {s : State} (h : Memory.wf s.mem = true) (d : Reg) (n : BitVec 11) : NextFormed (execCrd d n s) := by
  refine nextFormed_issueLegal h _ (okFormed_guard ?_)
  iterate 2 refine okFormed_bind fun _ _ => ?_
  exact okFormed_ok.mpr h

theorem nextFormed_execCwr {s : State} (h : Memory.wf s.mem = true) (n : BitVec 11) (a : Reg) : NextFormed (execCwr n a s) := by
  refine nextFormed_issueLegal h _ (okFormed_bind fun _ _ => okFormed_bind fun _ _ => ?_)
  simp [h]

/-! ### Instructions of Launch -/

theorem nextFormed_execLaunch {s : State} (h : Memory.wf s.mem = true) (d a : Reg) : NextFormed (execLaunch d a s) := by
  refine nextFormed_issue h (okFormed_bind fun _ _ => okFormed_bind fun _ _ => okFormed_guard ?_)
  refine okFormed_bind fun ts _ => okFormed_guard ?_
  have quieted : Memory.wf (s.markPerformed s.cur.who 7 s.stamps).mem = true := by simp [h]
  exact okFormed_ok.mpr (wf_submit (i := (s.markPerformed s.cur.who 7 s.stamps).coreIssuer) quieted (coreReader_keeps _ _) _ :)

theorem nextFormed_execLcancel {s : State} (h : Memory.wf s.mem = true) (d a : Reg) : NextFormed (execLcancel d a s) := by
  refine nextFormed_issue h (okFormed_bind fun _ _ => okFormed_bind fun _ _ => ?_)
  dsimp only
  split
  · simp [h]
  next l _ =>
    have hc := wf_cancelLaunch h l (.some s.cur.who)
    split
    · simp [h]
    · split
      next e => rw [e] at hc; exact okFormed_ok.mpr hc
      next e =>
        rw [e] at hc
        split <;> exact okFormed_ok.mpr hc

/-! ### Instructions of Contexts -/

theorem nextFormed_execGswitch {s : State} (h : Memory.wf s.mem = true) (d a b : Reg) : NextFormed (execGswitch d a b s) := by
  refine nextFormed_issue h ?_
  iterate 4 refine okFormed_bind fun _ _ => ?_
  dsimp only
  repeat' split
  all_goals simp [h]

theorem nextFormed_execCtxsave {s : State} (h : Memory.wf s.mem = true) (d a b : Reg) : NextFormed (execCtxsave d a b s) := by
  refine nextFormed_issue h (okFormed_bind fun _ _ => okFormed_bind fun _ _ => okFormed_bind fun _ _ =>
    okFormed_bind fun image _ => ?_)
  split
  · exact okFormed_ok.mpr h
  next c _ =>
    split
    · simp [h]
    · split
      · simp [h]
      · split
        · simp [h]
        next p _ =>
          split
          · simp [h]
          · split
            · exact okFormed_error
            · extract_lets begun
              have begunFormed : Memory.wf begun.mem = true := by
                dsimp only [begun]
                split
                · simp [h]
                next e => simp [State.beginSave_mem e, h]
              split
              · exact okFormed_ok.mpr begunFormed
              next o _ =>
                split
                · split
                  · exact okFormed_error
                  · exact okFormed_ok.mpr begunFormed
                · split
                  · exact okFormed_error
                  · exact okFormed_ok.mpr (wf_endSave h c p o :)

theorem nextFormed_execCtxload {s : State} (h : Memory.wf s.mem = true) (d a b : Reg) : NextFormed (execCtxload d a b s) := by
  refine nextFormed_issue h (okFormed_bind fun _ _ => okFormed_bind fun _ _ => okFormed_bind fun _ _ =>
    okFormed_bind fun image _ => ?_)
  split
  · exact okFormed_ok.mpr h
  next c _ =>
    split
    · simp [h]
    · split
      · simp [h]
      · split
        · simp [h]
        · extract_lets via rd
          have hrd : Reader.Keeps rd := fun _ _ _ _ hs e => wf_imagePage hs e
          have checked := wf_checkHeader hrd h c image.toNat
          split
          next e =>
            rw [e] at checked
            split
            · exact okFormed_ok.mpr (wf_endLoad checked _ _ _ _ _ _)
            · split
              · exact okFormed_ok.mpr checked
              · split
                · split
                  · exact okFormed_error
                  · exact okFormed_ok.mpr checked
                · split
                  · exact okFormed_error
                  · exact okFormed_ok.mpr (wf_endLoad (wf_checkGranules hrd checked _ _ _ _ _) _ _ _ _ _ _)

theorem nextFormed_execCtxstat {s : State} (h : Memory.wf s.mem = true) (d a : Reg) : NextFormed (execCtxstat d a s) := by
  refine nextFormed_issue h ?_
  iterate 3 refine okFormed_bind fun _ _ => ?_
  simp [h]

/-! ### Instructions of PathFence -/

theorem nextFormed_execXfence {s : State} (h : Memory.wf s.mem = true) (p q scope : BitVec 3) :
    NextFormed (execXfence p q scope s) := by
  refine nextFormed_issue h ?_
  dsimp only
  repeat' split
  all_goals simp [h]

theorem nextFormed_kept {s u : State} (h : Memory.wf s.mem = true) (e : u.mem = s.mem) : NextFormed (.next u) :=
  nextFormed_next.mpr (e ▸ h)

/-- How an op of a queue program ends, without a state of its own or with one whose memory has the canonical form. -/
def OpEnd.Formed : OpEnd → Prop
  | .go t _ _ | .fail t _ => Memory.wf t.mem = true
  | .wait _ | .done => True

theorem nextFormed_runOp {s : State} (h : Memory.wf s.mem = true) {body : HostQueue → OpEnd} (b : ∀ q, (body q).Formed) :
    NextFormed (s.runOp body) := by
  unfold State.runOp
  split
  · exact nextFormed_next.mpr h
  next q _ =>
    have hb := b q
    split
    next e => rw [e] at hb; exact nextFormed_next.mpr hb
    next => exact nextFormed_next.mpr h
    next e => rw [e] at hb; exact nextFormed_next.mpr ((State.queueFail_mem ..).symm ▸ hb)
    next => exact nextFormed_next.mpr h

theorem opEndFormed_ite {c : Prop} [Decidable c] {x y : OpEnd} (hx : x.Formed) (hy : y.Formed) :
    (if c then x else y).Formed := by
  split
  · exact hx
  · exact hy

theorem nextFormed_opResult {s : State} (h : Memory.wf s.mem = true) (d : BitVec 4) (f : HostQueue → Word) :
    NextFormed (s.opResult d f) := nextFormed_runOp h fun _ => h

theorem nextFormed_opBranch {s : State} (h : Memory.wf s.mem = true) (imm : BitVec 16) (taken : HostQueue → Bool) :
    NextFormed (s.opBranch imm taken) := nextFormed_runOp h fun _ => h

theorem nextFormed_opStore {s : State} (h : Memory.wf s.mem = true) (d a : BitVec 4) (w : BitVec 2) (imm : BitVec 16) :
    NextFormed (s.opStore d a w imm) := by
  refine nextFormed_runOp h fun q => ?_
  split
  · exact h
  · refine opEndFormed_ite trivial ?_
    split
    · exact h
    next e => exact wf_queueWrite h e

theorem nextFormed_execQpLd {s : State} (h : Memory.wf s.mem = true) (d a : BitVec 4) (w : BitVec 2) (imm : BitVec 16) :
    NextFormed (execQpLd d a w imm s) := by
  refine nextFormed_runOp h fun q => ?_
  split
  · exact h
  · split
    · exact h
    next e => exact wf_queueRead h e

/-- What a queue's launch is read through keeps memory in its form. -/
theorem queueIssuer_keeps (s : State) (q : HostQueue) (raw : List Byte) : Reader.Keeps (s.queueIssuer q raw).reader := by
  intro u t va pa h e
  obtain ⟨c, -, e⟩ := Option.bind_eq_some_iff.1 e
  exact queueReader_keeps q c u t va pa h e

theorem nextFormed_execQpLaunch {s : State} (h : Memory.wf s.mem = true) (d a : BitVec 4) (w : BitVec 2) :
    NextFormed (execQpLaunch d a w s) := by
  refine nextFormed_runOp h fun q => ?_
  split
  · exact h
  · refine opEndFormed_ite h ?_
    split
    · exact h
    next e => exact wf_submit (wf_queueRead h e) (queueIssuer_keeps _ q _) _

theorem nextFormed_execQpDma {s : State} (h : Memory.wf s.mem = true) (a : BitVec 4) (ws wd : BitVec 2) :
    NextFormed (execQpDma a ws wd s) := by
  refine nextFormed_runOp h fun q => ?_
  dsimp only
  split
  · exact opEndFormed_ite trivial h
  · exact h

theorem nextFormed_execQpLwait {s : State} (h : Memory.wf s.mem = true) (d a : BitVec 4) : NextFormed (execQpLwait d a s) := by
  refine nextFormed_runOp h fun q => ?_
  split
  · trivial
  · exact h

theorem nextFormed_branch {s : State} (h : Memory.wf s.mem = true) (c : Word → Word → Bool) (a b : Reg) (off : Word)
    (len : Nat) :
    NextFormed (branch c a b off len s) :=
  nextFormed_issueHart h _ _

theorem nextFormed_jumpTo {s : State} (h : Memory.wf s.mem = true) (d : Reg) (off : Word) (len : Nat) :
    NextFormed (jumpTo d off len s) :=
  nextFormed_issueHart h _ _

theorem nextFormed_jumpReg {s : State} (h : Memory.wf s.mem = true) (d a : Reg) (imm : Word) (len : Nat) :
    NextFormed (jumpReg d a imm len s) :=
  nextFormed_issueHart h _ _

theorem nextFormed_execYield {s : State} (h : Memory.wf s.mem = true) : NextFormed (execYield s) := nextFormed_issueHart h _ _

theorem nextFormed_aluThree {s : State} (h : Memory.wf s.mem = true) (f : (n : Nat) → BitVec n → BitVec n → BitVec n)
    (d a b : Reg) (w : Bool) (len : Nat) :
    NextFormed (aluThree f d a b w len s) :=
  nextFormed_issueHart h _ _

theorem nextFormed_aluTwo {s : State} (h : Memory.wf s.mem = true) (f : (n : Nat) → BitVec n → BitVec n) (d a : Reg)
    (w : Bool) :
    NextFormed (aluTwo f d a w s) :=
  nextFormed_issueHart h _ _

theorem nextFormed_aluImm {s : State} (h : Memory.wf s.mem = true) (f : Word → Word → Word) (d a : Reg) (imm : Word)
    (len : Nat) :
    NextFormed (aluImm f d a imm len s) :=
  nextFormed_issueHart h _ _

theorem nextFormed_execSel {s : State} (h : Memory.wf s.mem = true) (d a b : Reg) (w : Bool) :
    NextFormed (execSel d a b w s) :=
  nextFormed_issueHart h _ _

theorem nextFormed_execLdhi {s : State} (h : Memory.wf s.mem = true) (d : Reg) (imm : BitVec 19) :
    NextFormed (execLdhi d imm s) :=
  nextFormed_issueHart h _ _

theorem nextFormed_execPcaddhi {s : State} (h : Memory.wf s.mem = true) (d : Reg) (imm : BitVec 19) :
    NextFormed (execPcaddhi d imm s) :=
  nextFormed_issueHart h _ _

theorem nextFormed_execFmt {s : State} (h : Memory.wf s.mem = true) (sp sc : BitVec 2) (sat : Bool) (rnd : BitVec 3)
    (cfmt bfmt afmt : BitVec 4) :
    NextFormed (execFmt sp sc sat rnd cfmt bfmt afmt s) :=
  nextFormed_issueHart h _ _

theorem nextFormed_describe {s : State} (h : Memory.wf s.mem = true) (i : Nat) (a b : Reg) : NextFormed (describe i a b s) :=
  nextFormed_issueHart h _ _

theorem nextFormed_aluShift {s : State} (h : Memory.wf s.mem = true) (f : (n : Nat) → BitVec n → BitVec n → BitVec n)
    (d a : Reg) (sh : BitVec 6) (w : Bool) (len : Nat) :
    NextFormed (aluShift f d a sh w len s) :=
  nextFormed_aluImm h _ _ _ _ _

theorem nextFormed_intOp {s : State} (h : Memory.wf s.mem = true) (ok : Prefix → Bool) (f : IntLane) (vd va vb : VReg) :
    NextFormed (intOp ok f vd va vb s) :=
  nextFormed_vecThree h _ _ _ _ _ _ _

theorem nextFormed_bitOp {s : State} (h : Memory.wf s.mem = true) (f : Vec → Vec → Vec → Vec) (vd va vb : VReg) :
    NextFormed (bitOp f vd va vb s) :=
  nextFormed_vecThree h _ _ _ _ _ _ _

theorem nextFormed_scalarOp {s : State} (h : Memory.wf s.mem = true) (f : IntLane) (vd va : VReg) (b : Reg) :
    NextFormed (scalarOp f vd va b s) :=
  nextFormed_vecScalar h _ _ _ _

theorem nextFormed_reduceOp {s : State} (h : Memory.wf s.mem = true) (f : Fmt → List Nat → Nat) (vd va : VReg) :
    NextFormed (reduceOp f vd va s) :=
  nextFormed_vecTwo h _ _ _ _ _ _

theorem nextFormed_floatOp3 {s : State} (h : Memory.wf s.mem = true) (ok : Prefix → Bool) (steps : Prefix → Nat)
    (f : FloatLane → Nat × Cond) (vd va vb : VReg) :
    NextFormed (floatOp3 ok steps f vd va vb s) :=
  nextFormed_vecThree h _ _ _ _ _ _ _

theorem nextFormed_floatOp2 {s : State} (h : Memory.wf s.mem = true) (steps : Prefix → Nat) (f : FloatLane → Nat × Cond)
    (vd va : VReg) :
    NextFormed (floatOp2 steps f vd va s) :=
  nextFormed_vecTwo h _ _ _ _ _ _

theorem nextFormed_floatReduce {s : State} (h : Memory.wf s.mem = true) (steps : Prefix → Nat) (f : FloatLane → Nat × Cond)
    (vd va : VReg) :
    NextFormed (floatReduce steps f vd va s) :=
  nextFormed_vecTwo h _ _ _ _ _ _

theorem nextFormed_unpack {s : State} (h : Memory.wf s.mem = true) (high : Bool) (vd va : VReg) :
    NextFormed (unpack high vd va s) :=
  nextFormed_vecTwo h _ _ _ _ _ _

theorem nextFormed_modOp {s : State} (h : Memory.wf s.mem = true) (f : Nat → Nat → Nat → Nat → Nat) (vd va vb : VReg) :
    NextFormed (modOp f vd va vb s) :=
  nextFormed_vecThree h _ _ _ _ _ _ _

theorem nextFormed_butterfly {s : State} (h : Memory.wf s.mem = true) (f : Nat → Nat → Nat → Nat → Nat × Nat)
    (vd va vb : VReg) :
    NextFormed (butterfly f vd va vb s) :=
  nextFormed_vecThree h _ _ _ _ _ _ _

/-- R379: setting a breakpoint writes no memory. -/
theorem setBreakService_mem {s t : State} {c : CoreId} {n addr mask control v : Word}
    (e : (if 5 < n.toNat then (.none : Option (State × Word))
      else .some (s.setBreak c n.toNat addr (mask.setWidth 16) control, 0)) = .some (t, v)) :
    t.mem = s.mem := by
  split at e
  · cases e
  · cases e; rfl

theorem debugResumeService_mem {s t : State} {core : CoreId} {zero c k v : Word}
    (e : ((s.ownCore core c).bind fun m =>
      if zero = 0 ∧ k.toNat < 16 ∧ (s.hartOf (.core m k.toNat)).life = .debug then .some (s.debugResume m k.toNat, 0)
      else .none) = .some (t, v)) : t.mem = s.mem := by
  obtain ⟨m, -, e⟩ := Option.bind_eq_some_iff.1 e
  split at e
  · cases e; exact State.debugResume_mem ..
  · cases e

/-- Every instruction, op and event goes on from a memory in the canonical form to one. -/
theorem nextFormed_exec {s : State} (h : Memory.wf s.mem = true) (i : Instr) : NextFormed (exec i s) := by
  unfold exec
  cases i with
  | add | sub | and | or | xor | andn | sll | srl | sra | rol | ror | slt | sltu | min | max | minu | maxu | mul | mulh |
      mulhu | mulhsu | div | divu | rem | remu | cAdd | cSub | cAnd =>
    exact nextFormed_aluThree h _ _ _ _ _ _
  | sel => exact nextFormed_execSel h _ _ _ _
  | clz | ctz | popc | bswap => exact nextFormed_aluTwo h _ _ _ _
  | addi | andi | ori | xori | slti | sltui | cAddi | cMov | cLi | cNop => exact nextFormed_aluImm h _ _ _ _ _
  | slli | srli | srai | rori | cSlli => exact nextFormed_aluShift h _ _ _ _ _ _
  | ldhi => exact nextFormed_execLdhi h _ _
  | pcaddhi => exact nextFormed_execPcaddhi h _ _
  | crd => exact nextFormed_execCrd h _ _
  | cwr => exact nextFormed_execCwr h _ _
  | crs | crc => exact nextFormed_sysModify h _ _ _ _ _
  | beq | bne | blt | bge | bltu | bgeu | cBeqz | cBnez => exact nextFormed_branch h _ _ _ _ _
  | jal | cJ => exact nextFormed_jumpTo h _ _ _
  | jalr | cJr => exact nextFormed_jumpReg h _ _ _ _
  | rep => exact nextFormed_execRep h _ _ _ _
  | gang => exact nextFormed_execGang h _ _ _
  | gangFormation => exact nextFormed_kept h (State.formGang_mem ..)
  | ungang => exact nextFormed_execUngang h
  | ldB | ldH | ldW | ldD | ldBz | ldHz | ldWz | cLdD => exact nextFormed_loadScalar h _ _ _ _ _ _
  | stB | stH | stW | stD | cStD => exact nextFormed_storeScalar h _ _ _ _ _
  | vld => exact nextFormed_execVld h _ _ _ _
  | vst => exact nextFormed_execVst h _ _ _ _
  | vldx => exact nextFormed_execVldx h _ _ _ _
  | vstx => exact nextFormed_execVstx h _ _ _ _
  | vlds => exact nextFormed_execVlds h _ _ _ _
  | vsts => exact nextFormed_execVsts h _ _ _ _
  | pref => exact nextFormed_prefetch h (okFormed_fetchLine h) _ _
  | prefl2 => exact nextFormed_prefetch h (okFormed_fetchL2 h) _ _
  | discard => exact nextFormed_hint h _ _ wf_dropLine (fun ht _ _ => ht) _ _
  | flush => exact nextFormed_hint h _ _ wf_evict wf_flushDie _ _
  | clean => exact nextFormed_hint h _ _ wf_cleanLine wf_cleanRdc _ _
  | inval => exact nextFormed_hint h _ _ wf_evict (fun ht _ _ => ht) _ _
  | amoaddW | amoandW | amoorW | amoxorW | amominW | amomaxW | amominuW | amomaxuW | amoswapW | amocasW | amoaddD | amoandD
      | amoorD | amoxorD | amominD | amomaxD | amominuD | amomaxuD | amoswapD | amocasD =>
    exact nextFormed_atomicOp h _ _ _ _ _ _ _
  | cas128 => exact nextFormed_execCas128 h _ _ _ _ _
  | atomicResult => exact nextFormed_next.mpr (wf_atomicResult h ..)
  | ldacq => exact nextFormed_execLdacq h _ _ _ _
  | strel => exact nextFormed_execStrel h _ _ _ _
  | fenceAcq | fenceRel | fenceFull => exact nextFormed_fence h _ rfl
  | xfence => exact nextFormed_execXfence h _ _ _
  | cpy | cpys | cpyg | cfill => exact nextFormed_copyOp h _ _ _ _ _ _
  | copyStart => exact nextFormed_kept h (State.copyStart_mem ..)
  | copyComplete => exact nextFormed_next.mpr (wf_copyComplete h ..)
  | copyFault => exact nextFormed_next.mpr (wf_copyFault h ..)
  | notify => exact nextFormed_execNotify h _ _
  | syncw => exact nextFormed_execSyncw h _ _ _
  | syncinit => exact nextFormed_execSyncinit h _ _
  | syncrd => exact nextFormed_execSyncrd h _ _ _
  | syncBlockPost => exact nextFormed_next.mpr (wf_takePost h ..)
  | syncwRecheck => exact nextFormed_kept h (State.syncwRecheck_mem ..)
  | spawn => exact nextFormed_execSpawn h _ _ _ _
  | join => exact nextFormed_execJoin h _ _
  | joinRecheck => exact nextFormed_kept h (State.joinRecheck_mem ..)
  | callat => exact nextFormed_execCallat h _ _ _ _
  | callatAccept => exact nextFormed_kept h (State.callatAccept_mem ..)
  | callatRetry => exact nextFormed_kept h (State.callatRetry_mem ..)
  | callatReply => exact nextFormed_kept h (State.callatReply_mem ..)
  | remoteCallFailed => exact nextFormed_next.mpr (wf_remoteCallFailed h ..)
  | rett | tend => exact nextFormed_endTask h _
  | yield => exact nextFormed_execYield h
  | tcancel => exact nextFormed_execTcancel h _ _
  | taskCancelRequest => exact nextFormed_next.mpr (wf_cancelRequest h ..)
  | joinCounterFailure => exact nextFormed_next.mpr (wf_joinCounterFailure h ..)
  | taskDispatch => exact nextFormed_kept h (State.taskDispatch_mem ..)
  | taskSteal => exact nextFormed_kept h (State.taskSteal_mem ..)
  | send => exact nextFormed_execSend h _ _ _ _ _
  | sendDelivery => exact nextFormed_kept h (State.sendDelivery_mem ..)
  | sendRetry => exact nextFormed_kept h (State.sendRetry_mem ..)
  | sendTimeOut => exact nextFormed_kept h (State.sendTimesOut_mem ..)
  | sopen => exact nextFormed_execSopen h _ _
  | sput => exact nextFormed_execSput h _ _ _
  | sclose => exact nextFormed_execSclose h
  | streamHeader => exact nextFormed_kept h (State.streamHeader_mem ..)
  | streamWord => exact nextFormed_kept h (State.streamWord_mem ..)
  | streamCloseMarker => exact nextFormed_kept h (State.streamClose_mem ..)
  | qpop | cQpop => exact nextFormed_popTo h _ _ _
  | qprobe => exact nextFormed_execQprobe h _ _
  | barw | barwa => exact nextFormed_arrival h _ _ _
  | barww => exact nextFormed_execBarww h _ _
  | barwr => exact nextFormed_execBarwr h _ _
  | barrierRelease => exact nextFormed_kept h (State.barrierRelease_mem ..)
  | barrierTimeOut => exact nextFormed_kept h (State.barrierTimeOut_mem ..)
  | vadd | vsub | vmul | vmulh | vmulhu | vabsd | vqadd | vqsub | vmin | vmax | vminu | vmaxu | vsll | vsrl | vsra | vmac |
      vceq | vcne | vclt | vcle | vcltu | vcleu =>
    exact nextFormed_intOp h _ _ _ _ _
  | vand | vor | vxor | vandn | vsel => exact nextFormed_bitOp h _ _ _ _
  | vdot4 | vperm | vpack => exact nextFormed_vecThree h _ _ _ _ _ _ _
  | vslls | vsrls | vsras | vadds | vmuls => exact nextFormed_scalarOp h _ _ _ _
  | vrev | vcvt | vdqnt4 | vmred | vmov => exact nextFormed_vecTwo h _ _ _ _ _ _
  | vredadd | vredmin | vredmax | vredminu | vredmaxu => exact nextFormed_reduceOp h _ _ _
  | vfredadd | vfredmax => exact nextFormed_floatReduce h _ _ _ _
  | vfadd | vfsub | vfmul | vfma | vfms | vfmin | vfmax | vfdiv | vfceq | vfclt | vfcle | vfcun =>
    exact nextFormed_floatOp3 h _ _ _ _ _ _
  | vfsqrt | vfrcp | vfrsq | vfexp2 | vflog2 | vfabs | vfneg | vfclass => exact nextFormed_floatOp2 h _ _ _ _
  | vunpkl | vunpkh => exact nextFormed_unpack h _ _ _
  | vqnt4 => exact nextFormed_execVqnt4 h _ _ _
  | vmadd | vmsub | vmmul | vmmac => exact nextFormed_modOp h _ _ _ _
  | vntbf | vintbf => exact nextFormed_butterfly h _ _ _ _
  | vsplat => exact nextFormed_execVsplat h _ _
  | vqpop => exact nextFormed_execVqpop h _ _
  | sputv => exact nextFormed_execSputv h _
  | vext => exact nextFormed_execVext h _ _ _
  | vins => exact nextFormed_execVins h _ _ _
  | fmt => exact nextFormed_execFmt h _ _ _ _ _ _ _
  | mlease => exact nextFormed_execMlease h _
  | mrelease => exact nextFormed_execMrelease h
  | mtry => exact nextFormed_execMtry h _
  | leaseGrant => exact nextFormed_kept h (State.leaseGrant_mem ..)
  | leaseTimeLimit => exact nextFormed_kept h (State.leaseTimeLimit_mem ..)
  | leaseIdleEnd => exact nextFormed_kept h (State.leaseIdleEnd_mem ..)
  | leaseOverrunStop => exact nextFormed_next.mpr (wf_leaseOverrun h ..)
  | mseta | msetb | msetc | mscla | msclb | msetm | mshape | msync => exact nextFormed_describe h _ _ _
  | mma | mmaz | mmas | mmod | mntt | mintt | mtwid => exact nextFormed_computeOp h _ _ _
  | matrixCommandStart => exact nextFormed_kept h (State.matrixStart_mem ..)
  | matrixCommandComplete => exact nextFormed_kept h (State.matrixComplete_mem ..)
  | matrixSuspend => exact nextFormed_next.mpr (wf_matrixSuspend h ..)
  | mdrain | mdrainq => exact nextFormed_drainOp h _ _ _ _
  | mzero => exact nextFormed_execMzero h _
  | mresume => exact nextFormed_execMresume h _ _
  | mstat => exact nextFormed_execMstat h _ _ _
  | mabort => exact nextFormed_execMabort h _ _
  | drainComplete => exact nextFormed_kept h (State.drainComplete_mem ..)
  | drainqComplete => exact nextFormed_kept h (State.drainqComplete_mem ..)
  | drainFault => exact nextFormed_next.mpr (wf_drainFault h ..)
  | gbadd | gbsub => exact nextFormed_groupSum h _ _ _ _ _
  | gbschur => exact nextFormed_execGbschur h _ _ _ _ _
  | gbsolve | gbsolveVar => exact nextFormed_solveOp h _ _ _ _
  | gbdamp => exact nextFormed_execGbdamp h _ _ _
  | gbsend => exact nextFormed_execGbsend h _ _ _
  | gbpoll => exact nextFormed_execGbpoll h _
  | gbpolln => exact nextFormed_execGbpolln h _
  | gbres => exact nextFormed_execGbres h _ _ _
  | gbclr => exact nextFormed_execGbclr h _ _ _
  | mailboxConfigure => exact nextFormed_next.mpr (wf_mailboxConfigure h ..)
  | gbld => exact nextFormed_execGbld h _ _ _ _
  | mailboxDelivery => exact nextFormed_next.mpr (wf_mailboxDelivery h ..)
  | htag => exact nextFormed_execHtag h _ _ _
  | htagrd => exact nextFormed_execHtagrd h _ _
  | hdirrd => exact nextFormed_execHdirrd h _ _
  | hdirwr => exact nextFormed_execHdirwr h _ _ _ _
  | hbusy => exact nextFormed_execHbusy h _ _
  | hfree => exact nextFormed_execHfree h _
  | hsendReq => exact nextFormed_execHsendReq h _ _ _
  | hsendRep => exact nextFormed_execHsendRep h _ _
  | hblk => exact nextFormed_execHblk h _ _ _
  | hblkComplete => exact nextFormed_next.mpr (wf_hblkComplete h ..)
  | hresume => exact nextFormed_execHresume h _
  | hend => exact nextFormed_execHend h
  | hdefer => exact nextFormed_execHdefer h
  | hfault => exact nextFormed_execHfault h _
  | handlerWatchdog => exact nextFormed_next.mpr (wf_watchdog h ..)
  | requestDeferred => exact nextFormed_kept h (State.deferRequest_mem ..)
  | handlerRd | handlerWr | handlerAmo | handlerWb | handlerEvs | handlerHint | handlerRecall | handlerProxyTag |
      handlerGrant | handlerBlkdone | handlerProtocolMsg =>
    exact nextFormed_next.mpr (wf_takeType h ..)
  | handlerDone => exact nextFormed_next.mpr (wf_handlerDone h ..)
  | tagChange => exact nextFormed_kept h (State.tagChange_mem ..)
  | tagAck => exact nextFormed_next.mpr (wf_tagAck h ..)
  | grantReceive => exact nextFormed_next.mpr (wf_grantReceive h ..)
  | releaseNotice => exact nextFormed_kept h (State.releaseNotice_mem ..)
  | resumeReceive => exact nextFormed_kept h (State.resumeReceive_mem ..)
  | accessRefused => exact nextFormed_next.mpr (wf_accessRefused h ..)
  | peerAckSubstitute => exact nextFormed_next.mpr (wf_peerAck h ..)
  | loadFill => exact nextFormed_kept h (State.fillLoad_mem ..)
  | storePerform => exact nextFormed_next.mpr (wf_performStore h ..)
  | mergeWindowClose => exact nextFormed_next.mpr (wf_closeWindow h ..)
  | pageWalk => exact nextFormed_next.mpr (wf_pageWalk h ..)
  | remoteOutcome => exact nextFormed_next.mpr (wf_remoteOutcome h ..)
  | remoteTimeOut => exact nextFormed_next.mpr (wf_remoteTimeOut h ..)
  | trap => exact nextFormed_execTrap h _
  | sysc => exact nextFormed_execSysc h _
  | tret => exact nextFormed_execTret h
  | wfe => exact nextFormed_execWfe h
  | brk => exact nextFormed_execBrk h _
  | eventInterrupt => exact nextFormed_kept h (State.eventInterrupt_mem ..)
  | tlbinv => exact nextFormed_execTlbinv h _
  | tlbinva => exact nextFormed_execTlbinva h
  | rgnwr => exact nextFormed_execRgnwr h _ _ _
  | ctxsave => exact nextFormed_execCtxsave h _ _ _
  | ctxload => exact nextFormed_execCtxload h _ _ _
  | ctxstat => exact nextFormed_execCtxstat h _ _
  | gswitch => exact nextFormed_execGswitch h _ _ _
  | gangSwitchAgreement => exact nextFormed_kept h (State.switchAgreement_mem ..)
  | gangSwitchStop => exact nextFormed_next.mpr (wf_switchStop h ..)
  | contextImageWrite => exact nextFormed_next.mpr (wf_contextImageWrite h ..)
  | contextRestore => exact nextFormed_next.mpr (wf_contextRestore h ..)
  | guestOpPause => exact nextFormed_kept h (State.guestPause_mem ..)
  | guestOpContinue => exact nextFormed_kept h (State.guestContinue_mem ..)
  | fatalStop => exact nextFormed_kept h (State.fatalStop_mem ..)
  | haltTreeStop => exact nextFormed_next.mpr (wf_haltTreeStop h ..)
  | launch => exact nextFormed_execLaunch h _ _
  | lcancel => exact nextFormed_execLcancel h _ _
  | distributorRound => exact nextFormed_kept h (State.distributorRound_mem ..)
  | launchLoad => exact nextFormed_next.mpr (wf_launchLoad h ..)
  | launchEnd => exact nextFormed_next.mpr (wf_launchEnd h ..)
  | powerDecision => exact nextFormed_kept h (State.powerDecision_mem ..)
  | clockBoundary => exact nextFormed_kept h (State.clockBoundary_mem ..)
  | dramRefresh => exact nextFormed_kept h (State.refresh_mem ..)
  | stackTempSample => exact nextFormed_next.mpr (wf_tempSample h ..)
  | packageReset => exact nextFormed_next.mpr (wf_packageReset _ _)
  | recoveryDoorbell => exact nextFormed_next.mpr (wf_recoveryDoorbell h ..)
  | raiseSecurityVersion => exact nextFormed_kept h (State.raiseSecurity_mem ..)
  | queueEnable => exact nextFormed_next.mpr (wf_queueEnable h ..)
  | queueDisable => exact nextFormed_kept h (State.queueDisable_mem ..)
  | queueReset => exact nextFormed_kept h (State.queueReset_mem ..)
  | queueDescriptorWrite => exact nextFormed_kept h (State.descriptorWrite_mem ..)
  | doorbellWrite => exact nextFormed_kept h (State.doorbell_mem ..)
  | queuePacketStart => exact nextFormed_next.mpr (wf_packetStart h ..)
  | packetStepLimit => exact nextFormed_kept h (State.stepLimit_mem ..)
  | qpLi | qpLsh | qpAdd | qpAddi | qpAnd | qpShr => exact nextFormed_opResult h _ _
  | qpLd => exact nextFormed_execQpLd h _ _ _ _
  | qpSt | qpSignal => exact nextFormed_opStore h _ _ _ _
  | qpBeq | qpBne => exact nextFormed_opBranch h _ _
  | qpSetlc | qpLoop | qpIrq | qpFail => exact nextFormed_runOp h fun _ => h
  | qpLaunch => exact nextFormed_execQpLaunch h _ _ _
  | qpDma => exact nextFormed_execQpDma h _ _ _
  | qpDwait => exact nextFormed_runOp h fun _ => opEndFormed_ite h trivial
  | qpLwait => exact nextFormed_execQpLwait h _ _
  | qpDone => exact nextFormed_runOp h fun _ => trivial
  | dmaComplete => exact nextFormed_next.mpr (wf_dmaComplete h ..)
  | tdiConfigViolation => exact nextFormed_next.mpr (wf_configViolation h ..)
  | tdispStopInterface | tdiConfigLock | tdiRunStart => exact nextFormed_kept h (State.moveTdi_mem ..)
  | functionLevelReset => exact nextFormed_next.mpr (wf_functionReset h ..)
  | nonIdeRequest | replayRequest => exact nextFormed_next.mpr (by simp [apply_ite State.mem, h])
  | setPowerCap => exact nextFormed_kept h (State.setCap_mem ..)
  | fabricMapUpdate => exact nextFormed_kept h (State.mapUpdate_mem ..)
  | vfBinding => exact nextFormed_next.mpr (wf_bindVf h ..)
  | vtimeSet => exact nextFormed_kept h (State.setVtime_mem ..)
  | laneWeak => exact nextFormed_kept h (State.laneWeak_mem ..)
  | quietPointTimeout => exact nextFormed_kept h (State.quietTimeout_mem ..)
  | laneSwapMarker => exact nextFormed_next.mpr (wf_laneSwap h ..)
  | rekeyDue => exact nextFormed_kept h (State.rekeyDue_mem ..)
  | linkKeyLoad => exact nextFormed_kept h (State.linkKeyLoad_mem ..)
  | keySwitchMarker => exact nextFormed_kept h (State.keySwitch_mem ..)
  | keyExhausted => exact nextFormed_kept h (State.keyExhausted_mem ..)
  | keyDownTimeout => exact nextFormed_next.mpr (wf_keyDown h ..)
  | flitAuthFail => exact nextFormed_next.mpr (wf_flitFail h ..)
  | linkKeyUpdate => exact nextFormed_kept h (State.linkKeyUpdate_mem ..)
  | getMeasurements => exact nextFormed_kept h (State.getMeasurements_mem ..)
  | keyDeliver => exact nextFormed_kept h (State.keyDeliver_mem ..)
  | policyKey => exact nextFormed_kept h (State.policyKey_mem ..)
  | sessionEnd => exact nextFormed_next.mpr (wf_sessionEnd h ..)
  | operatorCounterRead => exact nextFormed_kept h (State.operatorRead_mem ..)
  | pcSample => exact nextFormed_kept h (State.pcSample_mem ..)
  | debugStop => exact nextFormed_next.mpr (by split <;> simp [h])
  | operatorDebugCommand => exact nextFormed_kept h (State.debugCommand_mem ..)
  | obsRawCounter => exact nextFormed_next.mpr (wf_serve h _ _ _ fun _ _ _ _ _ _ e => State.rawService_mem e)
  | obsRecordRing => exact nextFormed_next.mpr (wf_serve h _ _ _ fun _ _ _ _ _ _ e => State.ringService_mem e)
  | obsSetBreakpoint => exact nextFormed_next.mpr (wf_serve h _ _ _ fun _ _ _ _ _ _ e => setBreakService_mem e)
  | obsDebugResume => exact nextFormed_next.mpr (wf_serve h _ _ _ fun _ _ _ _ _ _ e => debugResumeService_mem e)
  | freeze => exact nextFormed_kept h (State.freeze_mem ..)
  | unfreeze => exact nextFormed_next.mpr (wf_unfreeze h ..)
  | freezeMarker => exact nextFormed_kept h (State.peerFroze_mem ..)
  | thawMarker => exact nextFormed_kept h (State.thaw_mem ..)
  | freezeMarkerExpiry => exact nextFormed_kept h (State.markerExpiry_mem ..)
  | correctedError => exact nextFormed_kept h (State.correctedError_mem ..)
  | dramRowRepair => exact nextFormed_kept h (State.rowRepair_mem ..)
  | l2WayRepair => exact nextFormed_kept h (State.wayRepair_mem ..)
  | uncorrectedError => exact nextFormed_kept h (State.uncorrectedError_mem ..)
  | pldmMonitor => exact nextFormed_kept h (State.pldmMonitor_mem ..)
  | ideKmKeyProgram => exact nextFormed_next.mpr (wf_programKey h ..)
  | spdmSessionStart => exact nextFormed_kept h (State.sessionStart_mem ..)
  | counterBucketBoundary => exact nextFormed_kept h (State.bucketBoundary_mem ..)

theorem nextFormed_runWord {s : State} (h : Memory.wf s.mem = true) (w : BitVec 32) (len : Nat) : NextFormed
    (s.runWord w len) := by
  unfold State.runWord
  extract_lets _ t
  have ht : Memory.wf t.mem = true := h
  split
  · exact nextFormed_exec ht _
  · exact nextFormed_next.mpr (wf_illegal ht)

theorem nextFormed_runCur {s : State} (h : Memory.wf s.mem = true) : NextFormed s.runCur := by
  have filled := okFormed_refill h
  unfold State.runCur
  split
  · exact nextFormed_next.mpr (wf_raise h _)
  next t e =>
    have ht := filled t e
    split
    · exact nextFormed_next.mpr (wf_raise ht _)
    · exact nextFormed_runWord ht _ _

/-! ## Gangs -/

theorem bind_eq_ok {ε α β : Type} {x : Except ε α} {f : α → Except ε β} {v : β} (e : x.bind f = .ok v) :
    ∃ a, x = .ok a ∧ f a = .ok v := by
  cases x with
  | error _ => cases e
  | ok a => exact ⟨a, rfl, e⟩

theorem map_eq_ok {ε α β : Type} {x : Except ε α} {f : α → β} {v : β} (e : x.map f = .ok v) : ∃ a, x = .ok a ∧ f a = v := by
  cases x with
  | error _ => cases e
  | ok a => exact ⟨a, rfl, Except.ok.inj e⟩

theorem nextFormed_runMember {s : State} (h : Memory.wf s.mem = true) (m : CoreId) (slot : Nat) (lead : Hart) (w : BitVec 32)
    (len : Nat) : NextFormed (s.runMember m slot lead w len) := by
  have hf : Memory.wf (s.focus (.core m slot)).mem = true := by simp [h]
  unfold State.runMember
  extract_lets f _ g
  have hg : Memory.wf g.mem = true := hf
  split
  · exact nextFormed_next.mpr hf
  · split
    · split
      · exact nextFormed_next.mpr (wf_raise hg _)
      · exact nextFormed_next.mpr hg
    · exact nextFormed_runWord hg _ _

theorem nextFormed_runMembers {s : State} (h : Memory.wf s.mem = true) (slot : Nat) (lead : Hart) (w : BitVec 32) (len : Nat)
    (ms : List CoreId) : NextFormed (s.runMembers slot lead w len ms) := by
  induction ms generalizing s with
  | nil => exact nextFormed_next.mpr h
  | cons m rest ih =>
    have hm := nextFormed_runMember h m slot lead w len
    unfold State.runMembers
    split
    next t e => exact ih (hm t e)
    · exact hm

theorem nextFormed_gangCommits {s : State} (h : Memory.wf s.mem = true) (leader : CoreId) (slot : Nat) (lead : Hart)
    (w : BitVec 32) (len : Nat) : NextFormed (s.gangCommits leader slot lead w len) := by
  have hr := nextFormed_runMembers h slot lead w len (s.gangOf leader)
  unfold State.gangCommits
  dsimp only
  split
  next t e =>
    have ht := hr t e
    split
    · simp [h]
    · have counted : ((s.gangOf leader).foldl
          (fun t m => if (t.hartOf (.core m slot)).hasIssued then t.count (t.ctxNoOf m) m 2 0 1 else t) t).mem = t.mem :=
        foldl_mem (fun u m => by split <;> simp) _ _
      split
      · refine nextFormed_kept ht ((foldl_mem (fun u m => ?_) _ _).trans counted)
        split
        · rfl
        · simp
      · exact nextFormed_kept ht counted
  · exact hr

theorem nextFormed_runGang {s : State} (h : Memory.wf s.mem = true) (leader : CoreId) (slot : Nat) :
    NextFormed (s.runGang leader slot) := by
  have hf : Memory.wf (s.focus (.core leader slot)).mem = true := by simp [h]
  unfold State.runGang
  extract_lets f
  split
  · simp [h]
  · simp [h]
  · exact nextFormed_next.mpr (wf_raise hf _)
  next u w len e =>
    obtain ⟨t, filled, fetched⟩ := bind_eq_ok e
    obtain ⟨v, -, same⟩ := map_eq_ok fetched
    have hu : Memory.wf u.mem = true := (Prod.mk.inj same).1 ▸ okFormed_refill hf t filled
    extract_lets s lead tried pick only bad again late acts
    have honly : ∀ es, NextFormed (only es) := fun es => nextFormed_runMembers hu _ _ _ _ _
    split
    · exact nextFormed_kept hu (State.gangFails_mem ..)
    · split
      · exact nextFormed_kept hu (State.debugStop_mem ..)
      · split
        · exact honly again
        · split
          · exact honly late
          · split
            · exact honly acts
            · exact nextFormed_gangCommits hu _ _ _ _ _

/-! ## One activity -/

theorem nextFormed_counted {r : Host.Outcome State Fault Refusal} (s : State) (f : NextFormed r) : NextFormed
    (s.counted r) := by
  cases r with
  | next t => exact nextFormed_kept (nextFormed_next.mp f) (State.countActivity_mem s t)
  | fault x => exact nextFormed_fault
  | refused x => exact nextFormed_refused

theorem nextFormed_countedBy {r : Host.Outcome State Fault Refusal} (s : State) (c : CoreId) (f : NextFormed r) :
    NextFormed (s.countedBy c r) := by
  cases r with
  | next t =>
    exact nextFormed_kept (nextFormed_next.mp f) ((State.countActivity_mem s _).trans (State.countIssue_mem t c))
  | fault x => exact nextFormed_fault
  | refused x => exact nextFormed_refused

theorem nextFormed_issueCore {s : State} (h : Memory.wf s.mem = true) (c : CoreId) : NextFormed (s.issueCore c) := by
  unfold State.issueCore
  split
  · exact nextFormed_next.mpr h
  next i _ =>
    extract_lets t
    have ht : Memory.wf t.mem = true := h
    split
    · exact nextFormed_counted _ (nextFormed_runGang ht c i)
    · exact nextFormed_countedBy _ c (nextFormed_runCur (by simp [ht]))

theorem nextFormed_issuePp {s : State} (h : Memory.wf s.mem = true) (p : PpId) : NextFormed (s.issuePp p) := by
  unfold State.issuePp
  split
  · exact nextFormed_next.mpr h
  next k _ =>
    extract_lets t
    have ht : Memory.wf t.mem = true := by simp [t, h]
    have ran := nextFormed_runCur ht
    split
    · exact nextFormed_next.mpr (wf_handlerFault ht 1)
    · split
      next u e => exact nextFormed_kept (ran u e) (State.countStep_mem u p)
      · exact ran

theorem wf_stopFirst {s t : State} {c : CoreId} (h : Memory.wf s.mem = true) (e : s.stopFirst c = .some t) :
    Memory.wf t.mem = true := by
  obtain ⟨k, -, e⟩ := Option.bind_eq_some_iff.1 e
  have ran : NextFormed (if (s.coreOf c).ganged then s.runGang ((s.gangOf c).headD c) k else (s.focus (.core c k)).runCur) := by
    split
    · exact nextFormed_runGang h _ k
    · exact nextFormed_runCur (by simp [h])
  split at e
  next u o =>
    split at e
    · cases e; exact ran _ o
    · cases e
  · cases e

theorem nextFormed_happens {s : State} (h : Memory.wf s.mem = true) (i : Instr) : NextFormed (s.happens i) := by
  unfold State.happens
  split
  · split
    next e => exact nextFormed_next.mpr (wf_stopFirst h e)
    · exact nextFormed_exec h _
  · exact nextFormed_exec h i

theorem nextFormed_happen {s : State} (h : Memory.wf s.mem = true) (i : Instr) : NextFormed (s.happen i) := by
  unfold State.happen
  split
  · exact nextFormed_counted s (nextFormed_happens h i)
  · exact nextFormed_next.mpr h

theorem nextFormed_issueQueue {s : State} (h : Memory.wf s.mem = true) : NextFormed s.issueQueue := by
  unfold State.issueQueue
  split
  · exact nextFormed_next.mpr h
  · split
    · exact nextFormed_next.mpr (wf_packetStart h)
    · split
      · exact nextFormed_kept h (State.queueDone_mem ..)
      · split
        · exact nextFormed_kept h (State.stepLimit_mem ..)
        · split
          · exact nextFormed_exec h _
          · exact nextFormed_kept h (State.queueFail_mem ..)

theorem nextFormed_perform {s : State} (h : Memory.wf s.mem = true) (a : Activity) : NextFormed (s.perform a) := by
  cases a with
  | issue c => exact nextFormed_issueCore h c
  | handler p => exact nextFormed_issuePp h p
  | event i =>
    unfold State.perform
    dsimp only
    split
    · exact nextFormed_happen h i
    · exact nextFormed_fault
  | queue => exact nextFormed_issueQueue h
  | copyPiece cl k => exact nextFormed_next.mpr (wf_issueCopy h cl k)
  | rowGroup cl bank k => exact nextFormed_next.mpr (wf_issueGroup h cl bank k)
  | matrixPiece cl bank k kc g i => exact nextFormed_next.mpr (wf_issuePiece h cl bank k kc g i)
  | codeFill c va => exact nextFormed_next.mpr (wf_issueCode h c va)
  | spread k => exact nextFormed_next.mpr (wf_whenAlive h (State.spreadPast_mem s k ▸ h))
  | settle k => exact nextFormed_next.mpr (wf_whenAlive h (State.settlePast_mem s k ▸ h))
  | polls c =>
    refine nextFormed_next.mpr (wf_whenAlive h ?_)
    split
    · exact wf_servePolls h c
    · exact h
  | unitRead c k => exact nextFormed_next.mpr (wf_whenAlive h (wf_serveUnit h c k))
  | peer op => exact nextFormed_next.mpr (wf_whenAlive h (wf_peerOp h op))

/-- Settles O59: every activity keeps the canonical form, for every effect, event and op does. -/
theorem memoryFormKept : Obligations.MemoryFormKept := by
  intro s u h e
  unfold step at e
  split at e
  next a rest _ => exact nextFormed_perform (s := { s with agenda := rest }) h a u e
  next =>
    have passed := wf_pass (s := { s with turn := s.turn + 1 }) h (Config.elapsed s.turn)
    exact nextFormed_perform passed _ u e

end Sys2Proof.Machine

/-! ## Scalar arithmetic (O1, O2)

First the functions of R87 in any width: those that the model defines by a circuit (a slice of a double-width product, a
comparison bit, a logarithm, a recursion over bytes) as the integers and bits that R87 speaks of. Then each shape of
instruction with its operands full, in which one of these functions may stand for the model's. -/

namespace Sys2Proof.Machine

open Sys2Proof

/-! ### Comparisons -/

theorem aluSlt_eq_toInt (n : Nat) (x y : BitVec n) : aluSlt n x y = if x.toInt < y.toInt then 1#n else 0#n := by
  simp only [aluSlt, BitVec.slt_iff_toInt_lt]; rfl

theorem aluSltu_eq_toNat (n : Nat) (x y : BitVec n) : aluSltu n x y = if x.toNat < y.toNat then 1#n else 0#n := by
  simp only [aluSltu, BitVec.ult_iff_lt, BitVec.lt_def]; rfl

theorem aluMin_eq_toInt (n : Nat) (x y : BitVec n) : aluMin n x y = BitVec.ofInt n (min x.toInt y.toInt) := by
  simp only [aluMin, BitVec.slt_iff_toInt_lt]
  split
  next less => rw [Int.min_eq_left (Int.le_of_lt less), BitVec.ofInt_toInt]
  next less => rw [Int.min_eq_right (Int.not_lt.mp less), BitVec.ofInt_toInt]

theorem aluMax_eq_toInt (n : Nat) (x y : BitVec n) : aluMax n x y = BitVec.ofInt n (max x.toInt y.toInt) := by
  simp only [aluMax, BitVec.slt_iff_toInt_lt]
  split
  next less => rw [Int.max_eq_right (Int.le_of_lt less), BitVec.ofInt_toInt]
  next less => rw [Int.max_eq_left (Int.not_lt.mp less), BitVec.ofInt_toInt]

theorem aluMinu_eq_toNat (n : Nat) (x y : BitVec n) : aluMinu n x y = BitVec.ofNat n (min x.toNat y.toNat) := by
  simp only [aluMinu, BitVec.ult_iff_lt, BitVec.lt_def]
  split
  next less => rw [Nat.min_eq_left (Nat.le_of_lt less), BitVec.ofNat_toNat, BitVec.setWidth_eq]
  next less => rw [Nat.min_eq_right (Nat.not_lt.mp less), BitVec.ofNat_toNat, BitVec.setWidth_eq]

theorem aluMaxu_eq_toNat (n : Nat) (x y : BitVec n) : aluMaxu n x y = BitVec.ofNat n (max x.toNat y.toNat) := by
  simp only [aluMaxu, BitVec.ult_iff_lt, BitVec.lt_def]
  split
  next less => rw [Nat.max_eq_right (Nat.le_of_lt less), BitVec.ofNat_toNat, BitVec.setWidth_eq]
  next less => rw [Nat.max_eq_left (Nat.not_lt.mp less), BitVec.ofNat_toNat, BitVec.setWidth_eq]

/-! ### Products and quotients -/

theorem aluMul_eq_toInt (n : Nat) (x y : BitVec n) : aluMul n x y = BitVec.ofInt n (x.toInt * y.toInt) := by
  rw [BitVec.ofInt_mul, BitVec.ofInt_toInt, BitVec.ofInt_toInt]; rfl

/-- Of an integer in twice the width, the upper half is its quotient by 2^n, rounded down. -/
theorem extractLsb'_ofInt_double (n : Nat) (p : Int) :
    (BitVec.ofInt (2 * n) p).extractLsb' n n = BitVec.ofInt n (p / 2 ^ n) := by
  have pos : (2 : Int) ^ n ≠ 0 := Int.pow_ne_zero (by decide)
  have upperHalf : p / 2 ^ n % 2 ^ n = p % (2 ^ n * 2 ^ n) / 2 ^ n % 2 ^ n := by
    conv => lhs; rw [← Int.emod_add_mul_ediv p (2 ^ n * 2 ^ n), Int.mul_assoc, Int.add_mul_ediv_left _ _ pos,
      Int.add_mul_emod_self_left]
  apply BitVec.eq_of_toNat_eq
  have nonneg : 0 ≤ p % (2 ^ n * 2 ^ n) := Int.emod_nonneg _ (Int.mul_ne_zero pos pos)
  apply Int.ofNat_inj.mp
  simp only [BitVec.extractLsb'_toNat, BitVec.toNat_ofInt, Nat.shiftRight_eq_div_pow, Nat.two_mul, Nat.pow_add]
  push_cast
  rw [Int.toNat_of_nonneg nonneg, Int.toNat_of_nonneg (Int.emod_nonneg _ pos), upperHalf]

theorem setWidth_eq_ofInt_toNat {n : Nat} (m : Nat) (x : BitVec n) : x.setWidth m = BitVec.ofInt m x.toNat := by
  rw [BitVec.ofInt_natCast, BitVec.ofNat_toNat]

theorem aluMulh_eq_toInt (n : Nat) (x y : BitVec n) : aluMulh n x y = BitVec.ofInt n (x.toInt * y.toInt / 2 ^ n) := by
  rw [← extractLsb'_ofInt_double, BitVec.ofInt_mul]; rfl

theorem aluMulhsu_eq_toInt (n : Nat) (x y : BitVec n) :
    aluMulhsu n x y = BitVec.ofInt n (x.toInt * y.toNat / 2 ^ n) := by
  rw [← extractLsb'_ofInt_double, BitVec.ofInt_mul, ← setWidth_eq_ofInt_toNat]; rfl

theorem aluMulhu_eq_toNat (n : Nat) (x y : BitVec n) : aluMulhu n x y = BitVec.ofNat n (x.toNat * y.toNat / 2 ^ n) := by
  have ofNat : ((x.toNat * y.toNat / 2 ^ n : Nat) : Int) = (x.toNat * y.toNat : Int) / 2 ^ n := by push_cast; rfl
  rw [← BitVec.ofInt_natCast, ofNat, ← extractLsb'_ofInt_double, BitVec.ofInt_mul, ← setWidth_eq_ofInt_toNat,
    ← setWidth_eq_ofInt_toNat]; rfl

theorem allOnes_eq_ofInt (n : Nat) : BitVec.allOnes n = BitVec.ofInt n (-1) := by
  rw [← BitVec.neg_one_eq_allOnes, BitVec.ofInt_neg]; rfl

theorem aluDiv_eq_toInt (n : Nat) (x y : BitVec n) :
    aluDiv n x y = if y = 0 then BitVec.ofInt n (-1) else BitVec.ofInt n (x.toInt.tdiv y.toInt) := by
  have quotient : x.sdiv y = BitVec.ofInt n (x.toInt.tdiv y.toInt) :=
    BitVec.eq_of_toInt_eq (by rw [BitVec.toInt_sdiv, BitVec.toInt_ofInt])
  rw [aluDiv, quotient, allOnes_eq_ofInt]

theorem aluDivu_eq_toNat (n : Nat) (x y : BitVec n) :
    aluDivu n x y = if y = 0 then BitVec.ofInt n (-1) else BitVec.ofNat n (x.toNat / y.toNat) := by
  rw [aluDivu, ← BitVec.toNat_udiv, BitVec.ofNat_toNat, BitVec.setWidth_eq, allOnes_eq_ofInt]

theorem aluRem_eq_toInt (n : Nat) (x y : BitVec n) :
    aluRem n x y = if y = 0 then x else BitVec.ofInt n (x.toInt.tmod y.toInt) := by
  rw [aluRem, ← BitVec.toInt_srem, BitVec.ofInt_toInt]

theorem aluRemu_eq_toNat (n : Nat) (x y : BitVec n) :
    aluRemu n x y = if y = 0 then x else BitVec.ofNat n (x.toNat % y.toNat) := by
  rw [aluRemu, ← BitVec.toNat_umod, BitVec.ofNat_toNat, BitVec.setWidth_eq]

/-! ### Counting zero bits -/

/-- `m` is the number of zero bits above the highest 1 of `u`, or all bits when there is none. -/
def LeadingZeros (n : Nat) (u : BitVec n) (m : Nat) : Prop :=
  u.toNat < 2 ^ (n - m) ∧ (m < n → 2 ^ (n - 1 - m) ≤ u.toNat)

/-- `m` is the number of zero bits below the lowest 1 of `u`, or all bits when there is none. -/
def TrailingZeros (n : Nat) (u : BitVec n) (m : Nat) : Prop :=
  (∀ k, k < m → u.getLsbD k = false) ∧ (m < n → u.getLsbD m = true)

theorem aluClz_leadingZeros (n : Nat) (u : BitVec n) : ∃ m ≤ n, aluClz n u = BitVec.ofNat n m ∧ LeadingZeros n u m := by
  by_cases zero : u = 0
  · exact ⟨n, Nat.le_refl n, if_pos zero, by simp [zero], fun less => absurd less (Nat.lt_irrefl n)⟩
  · have pos : u.toNat ≠ 0 := fun e => zero (BitVec.eq_of_toNat_eq e)
    have top : u.toNat.log2 < n := (Nat.log2_lt pos).mpr u.isLt
    refine ⟨n - 1 - u.toNat.log2, by omega, if_neg zero, ?_, fun _ => ?_⟩
    · rw [show n - (n - 1 - u.toNat.log2) = u.toNat.log2 + 1 by omega]
      exact Nat.lt_log2_self
    · rw [show n - 1 - (n - 1 - u.toNat.log2) = u.toNat.log2 by omega]
      exact Nat.log2_self_le pos

/-- A number and its negative have only the lowest 1 in common. -/
theorem and_neg_eq_twoPow {n m : Nat} {u : BitVec n} (low : ∀ k, k < m → u.getLsbD k = false)
    (one : u.getLsbD m = true) : u &&& -u = BitVec.twoPow n m := by
  have less : m < n := BitVec.lt_of_getLsbD one
  apply BitVec.eq_of_getLsbD_eq
  intro i inside
  rw [BitVec.getLsbD_and, BitVec.getLsbD_neg, BitVec.getLsbD_twoPow]
  rcases Nat.lt_trichotomy i m with below | rfl | above
  · simp [low i below, Nat.ne_of_gt below]
  · have noLower : ¬ ∃ j < i, u.getLsbD j = true := fun ⟨j, l, e⟩ => by simp [low j l] at e
    simp [one, noLower, less]
  · have lower : ∃ j < i, u.getLsbD j = true := ⟨m, above, one⟩
    simp [lower, inside, Nat.ne_of_lt above]

theorem aluCtz_trailingZeros (n : Nat) (u : BitVec n) :
    ∃ m ≤ n, aluCtz n u = BitVec.ofNat n m ∧ TrailingZeros n u m := by
  by_cases zero : u = 0
  · exact ⟨n, Nat.le_refl n, if_pos zero, fun k _ => by simp [zero], fun less => absurd less (Nat.lt_irrefl n)⟩
  · have one := BitVec.getLsbD_true_ctz_of_ne_zero zero
    have low : ∀ k, k < u.ctz.toNat → u.getLsbD k = false := fun _ => BitVec.getLsbD_false_of_lt_ctz
    have less := BitVec.lt_of_getLsbD one
    refine ⟨u.ctz.toNat, Nat.le_of_lt less, ?_, low, fun _ => one⟩
    rw [aluCtz, if_neg zero, and_neg_eq_twoPow low one, BitVec.toNat_twoPow,
      Nat.mod_eq_of_lt (Nat.pow_lt_pow_right (by decide) less), Nat.log2_two_pow]

/-- A count of at most 32 bits has no sign to extend: the two widths of a count write the same number. -/
theorem signExtend_ofNat_count {m : Nat} (le : m ≤ 32) : (BitVec.ofNat 32 m).signExtend 64 = BitVec.ofNat 64 m := by
  have positive : (BitVec.ofNat 32 m).msb = false := by
    rw [BitVec.msb_eq_false_iff_two_mul_lt, BitVec.toNat_ofNat]; omega
  rw [BitVec.signExtend_eq_setWidth_of_msb_false positive,
    BitVec.setWidth_ofNat_of_le_of_lt (by decide) (Nat.lt_of_le_of_lt le (by decide))]

/-- A function that counts at most all bits of its source writes that count in either width. -/
theorem inWidth_count {f : (n : Nat) → BitVec n → BitVec n} {P : (n : Nat) → BitVec n → Nat → Prop}
    (counts : ∀ n u, ∃ m ≤ n, f n u = BitVec.ofNat n m ∧ P n u m) (w : Bool) (x : Word) :
    ∃ m, inWidth w (fun n u _ => f n u) x 0 = BitVec.ofNat 64 m ∧ m ≤ (if w then 32 else 64) ∧
      if w then P 32 (x.setWidth 32) m else P 64 x m := by
  cases w with
  | false =>
    obtain ⟨m, le, e, p⟩ := counts 64 x
    exact ⟨m, e, le, p⟩
  | true =>
    obtain ⟨m, le, e, p⟩ := counts 32 (x.setWidth 32)
    exact ⟨m, (congrArg (BitVec.signExtend 64) e).trans (signExtend_ofNat_count le), le, p⟩

/-- In either width the zero bits at the low end are those of the register itself. -/
theorem trailingZeros_ofWidth {w : Bool} {x : Word} {m : Nat} (le : m ≤ if w then 32 else 64)
    (z : if w then TrailingZeros 32 (x.setWidth 32) m else TrailingZeros 64 x m) :
    (∀ k, k < m → x.getLsbD k = false) ∧ (m < (if w then 32 else 64) → x.getLsbD m = true) := by
  cases w with
  | false => exact z
  | true =>
    obtain ⟨low, one⟩ := z
    have same : ∀ k, k < 32 → (x.setWidth 32).getLsbD k = x.getLsbD k := fun k l => by simp [l]
    exact ⟨fun k l => same k (Nat.lt_of_lt_of_le l le) ▸ low k l, fun l => same m l ▸ one l⟩

/-! ### Reversing bytes -/

theorem swapBytes_lt (m v : Nat) : swapBytes m v < 256 ^ m := by
  induction m generalizing v with
  | zero => exact Nat.one_pos
  | succ m ih =>
    have first := Nat.mod_lt v (show 256 > 0 by decide)
    calc v % 256 * 256 ^ m + swapBytes m (v / 256)
        < (v % 256 + 1) * 256 ^ m := by rw [Nat.succ_mul]; exact Nat.add_lt_add_left (ih _) _
      _ ≤ 256 ^ (m + 1) := by rw [Nat.pow_succ']; exact Nat.mul_le_mul_right _ first

/-- Byte `k` of the reversed number is byte `m - 1 - k` of the number. -/
theorem swapBytes_byte {m k : Nat} (v : Nat) (less : k < m) :
    swapBytes m v / 256 ^ k % 256 = v / 256 ^ (m - 1 - k) % 256 := by
  induction m generalizing v with
  | zero => exact absurd less (Nat.not_lt_zero k)
  | succ m ih =>
    rw [swapBytes]
    rcases Nat.lt_succ_iff_lt_or_eq.mp less with below | rfl
    · have powers : 256 ^ m = 256 ^ k * (256 * 256 ^ (m - 1 - k)) := by
        rw [← Nat.pow_succ', ← Nat.pow_add]; congr 1; omega
      have shifted : v % 256 * 256 ^ m = 256 ^ k * (256 * (v % 256 * 256 ^ (m - 1 - k))) := by
        rw [powers]; ac_rfl
      rw [shifted, Nat.mul_add_div (Nat.pow_pos (by decide)), Nat.mul_add_mod, ih _ below, Nat.div_div_eq_div_mul,
        ← Nat.pow_succ']
      congr 3; omega
    · rw [Nat.mul_comm, Nat.mul_add_div (Nat.pow_pos (by decide)), Nat.div_eq_of_lt (swapBytes_lt k _)]
      simp

theorem aluBswap_byte {n k : Nat} (x : BitVec n) (less : k < n / 8) :
    (aluBswap n x).extractLsb' (8 * k) 8 = x.extractLsb' (8 * (n / 8 - 1 - k)) 8 := by
  have bytes : ∀ j, (2 : Nat) ^ (8 * j) = 256 ^ j := fun j => Nat.pow_mul 2 8 j
  have fits : swapBytes (n / 8) x.toNat < 2 ^ n :=
    calc swapBytes (n / 8) x.toNat < 2 ^ (8 * (n / 8)) := bytes _ ▸ swapBytes_lt ..
      _ ≤ 2 ^ n := Nat.pow_le_pow_right (by decide) (Nat.mul_div_le n 8)
  apply BitVec.eq_of_toNat_eq
  simp only [aluBswap, BitVec.extractLsb'_toNat, BitVec.toNat_ofNat, Nat.mod_eq_of_lt fits, Nat.shiftRight_eq_div_pow, bytes]
  exact swapBytes_byte _ less

/-- A byte of a 32-bit value is the same byte of its sign extension. -/
theorem extractLsb'_signExtend {j : Nat} (u : BitVec 32) (le : j + 8 ≤ 32) :
    (u.signExtend 64).extractLsb' j 8 = u.extractLsb' j 8 := by
  apply BitVec.eq_of_getLsbD_eq
  intro i inside
  simp only [BitVec.getLsbD_extractLsb', BitVec.getLsbD_signExtend, if_pos (show j + i < 32 by omega),
    decide_eq_true (show j + i < 64 by omega), Bool.true_and]

theorem inWidth_bswap_byte {w : Bool} {k : Nat} (x : Word) (less : k < if w then 4 else 8) :
    (inWidth w (fun n u _ => aluBswap n u) x 0).extractLsb' (8 * k) 8 =
      x.extractLsb' (8 * ((if w then 3 else 7) - k)) 8 := by
  cases w with
  | false => exact aluBswap_byte x less
  | true =>
    have less : k < 4 := less
    calc ((aluBswap 32 (x.setWidth 32)).signExtend 64).extractLsb' (8 * k) 8
        = (aluBswap 32 (x.setWidth 32)).extractLsb' (8 * k) 8 := extractLsb'_signExtend _ (by omega)
      _ = (x.setWidth 32).extractLsb' (8 * (3 - k)) 8 := aluBswap_byte _ less
      _ = x.extractLsb' (8 * (3 - k)) 8 := BitVec.extractLsb'_setWidth_of_le (by omega)

/-! ### Shifts by a constant -/

/-- R90: the constant is below the width, so that the operation's reduction of the count leaves it as it is. -/
theorem inWidth_constant {f : (n : Nat) → BitVec n → BitVec n → BitVec n} {g : (n : Nat) → BitVec n → Nat → BitVec n}
    (reduces : ∀ n u y, f n u y = g n u (y.toNat % n)) {w : Bool} {sh : BitVec 6} (x : Word)
    (short : w = true → sh.toNat < 32) :
    inWidth w f x (sh.setWidth 64) = inWidth w (fun n u _ => g n u sh.toNat) x 0 := by
  have fits := sh.isLt
  cases w with
  | false =>
    have count : (sh.setWidth 64).toNat % 64 = sh.toNat := by rw [BitVec.toNat_setWidth]; omega
    exact (reduces ..).trans (congrArg (g 64 x) count)
  | true =>
    have short := short rfl
    have count : ((sh.setWidth 64).setWidth 32).toNat % 32 = sh.toNat := by simp only [BitVec.toNat_setWidth]; omega
    exact congrArg (BitVec.signExtend 64) ((reduces ..).trans (congrArg (g 32 _) count))

/-! ### The shapes of instructions -/

theorem inWidth_congr {f g : (n : Nat) → BitVec n → BitVec n → BitVec n} (same : ∀ n x y, f n x y = g n x y) (w : Bool)
    (x y : Word) : inWidth w f x y = inWidth w g x y := by
  unfold inWidth; rw [same, same]

/-- R86, R87: with its registers full, an operation on two sources writes its value, by any function that agrees with the
model's, and moves on. -/
theorem aluThree_gives {f g : (n : Nat) → BitVec n → BitVec n → BitVec n} {s : State} {d a b : Reg} {w : Bool} {len : Nat}
    (m : s.mayIssue .both = .ok ()) (full : s.cur.FullX [d, a, b]) (same : ∀ n x y, f n x y = g n x y) :
    aluThree f d a b w len s =
      .next (s.withCur ((s.cur.setX d (inWidth w g (s.cur.readX a) (s.cur.readX b))).advance len)) := by
  refine issueHart_ok m ?_
  rw [needX_ok (full d (by simp)), getX_ok (full a (by simp)), getX_ok (full b (by simp)), ← inWidth_congr same]; rfl

/-- `sel` reads its destination in 64 bits, whatever the width of the value that it writes. -/
theorem execSel_gives {s : State} {d a b : Reg} {w : Bool} (m : s.mayIssue .both = .ok ())
    (full : s.cur.FullX [d, a, b]) :
    execSel d a b w s = .next (s.withCur ((s.cur.setX d
      (inWidth w (fun _ x y => if s.cur.readX d = 0 then y else x) (s.cur.readX a) (s.cur.readX b))).advance 4)) := by
  refine issueHart_ok m ?_
  rw [getX_ok (full d (by simp)), getX_ok (full a (by simp)), getX_ok (full b (by simp))]; rfl

theorem aluTwo_gives {s : State} {d a : Reg} (f : (n : Nat) → BitVec n → BitVec n) (w : Bool)
    (m : s.mayIssue .both = .ok ()) (full : s.cur.FullX [d, a]) :
    aluTwo f d a w s =
      .next (s.withCur ((s.cur.setX d (inWidth w (fun n u _ => f n u) (s.cur.readX a) 0)).advance 4)) := by
  refine issueHart_ok m ?_
  rw [needX_ok (full d (by simp)), getX_ok (full a (by simp))]; rfl

theorem aluImm_gives {f : Word → Word → Word} {s : State} {d a : Reg} {imm v : Word} {len : Nat}
    (m : s.mayIssue .both = .ok ()) (full : s.cur.FullX [d, a]) (value : f (s.cur.readX a) imm = v) :
    aluImm f d a imm len s = .next (s.withCur ((s.cur.setX d v).advance len)) := by
  refine issueHart_ok m ?_
  rw [needX_ok (full d (by simp)), getX_ok (full a (by simp)), ← value]; rfl

theorem aluShift_gives {f : (n : Nat) → BitVec n → BitVec n → BitVec n} {g : (n : Nat) → BitVec n → Nat → BitVec n}
    {s : State} {d a : Reg} {sh : BitVec 6} {w : Bool} {len : Nat} (m : s.mayIssue .both = .ok ())
    (full : s.cur.FullX [d, a]) (reduces : ∀ n u y, f n u y = g n u (y.toNat % n)) (short : w = true → sh.toNat < 32) :
    aluShift f d a sh w len s =
      .next (s.withCur ((s.cur.setX d (inWidth w (fun n u _ => g n u sh.toNat) (s.cur.readX a) 0)).advance len)) :=
  aluImm_gives m full (inWidth_constant reduces _ short)

theorem execLdhi_gives {s : State} {d : Reg} (up : BitVec 19) (m : s.mayIssue .both = .ok ())
    (full : s.cur.emptyX d = false) :
    execLdhi d up s = .next (s.withCur ((s.cur.setX d (upper up)).advance 4)) := by
  refine issueHart_ok m ?_
  rw [needX_ok full]; rfl

theorem execPcaddhi_gives {s : State} {d : Reg} (up : BitVec 19) (m : s.mayIssue .both = .ok ())
    (full : s.cur.emptyX d = false) :
    execPcaddhi d up s = .next (s.withCur ((s.cur.setX d (s.cur.pc + upper up)).advance 4)) := by
  refine issueHart_ok m ?_
  rw [needX_ok full]; rfl

/-! ### The obligations -/

/-- Settles O1: every two-source operation has one shape, and its function is the one that R87 gives. -/
theorem scalarResults : Obligations.ScalarResults := by
  refine ⟨fun s d a b w m full => ?_, fun s d a b w m full => ?_⟩
  · have asDefined := fun f => aluThree_gives (f := f) (w := w) (len := 4) m full fun _ _ _ => rfl
    exact ⟨asDefined aluAdd, asDefined aluSub, asDefined aluAnd, asDefined aluOr, asDefined aluXor, asDefined aluAndn,
      asDefined aluSll, asDefined aluSrl, asDefined aluSra, asDefined aluRol, asDefined aluRor,
      aluThree_gives m full aluSlt_eq_toInt, aluThree_gives m full aluSltu_eq_toNat,
      aluThree_gives m full aluMin_eq_toInt, aluThree_gives m full aluMax_eq_toInt,
      aluThree_gives m full aluMinu_eq_toNat, aluThree_gives m full aluMaxu_eq_toNat, execSel_gives m full⟩
  · exact ⟨aluThree_gives m full aluMul_eq_toInt, aluThree_gives m full aluMulh_eq_toInt,
      aluThree_gives m full aluMulhu_eq_toNat, aluThree_gives m full aluMulhsu_eq_toInt,
      aluThree_gives m full aluDiv_eq_toInt, aluThree_gives m full aluDivu_eq_toNat,
      aluThree_gives m full aluRem_eq_toInt, aluThree_gives m full aluRemu_eq_toNat⟩

/-- Settles O2: each shape writes its function's value; counts and reversed bytes are those of the bits. -/
theorem scalarImmediates : Obligations.ScalarImmediates := by
  intro s d a w imm sh up m full
  have fullD := full d (by simp)
  obtain ⟨clz, clzIs, clzLe, leading⟩ := inWidth_count aluClz_leadingZeros w (s.cur.readX a)
  obtain ⟨ctz, ctzIs, ctzLe, trailing⟩ := inWidth_count aluCtz_trailingZeros w (s.cur.readX a)
  refine ⟨aluImm_gives m full rfl, aluImm_gives m full rfl, aluImm_gives m full rfl, aluImm_gives m full rfl,
    aluImm_gives m full (aluSlt_eq_toInt ..), aluImm_gives m full (aluSltu_eq_toNat ..),
    aluShift_gives m full fun _ _ _ => rfl, aluShift_gives m full fun _ _ _ => rfl,
    aluShift_gives m full fun _ _ _ => rfl, aluShift_gives m full fun _ _ _ => rfl,
    execLdhi_gives up m fullD, execPcaddhi_gives up m fullD, aluTwo_gives aluPopc w m full,
    ⟨_, aluTwo_gives aluClz w m full, clz, clzIs, clzLe, leading⟩,
    ⟨_, aluTwo_gives aluCtz w m full, ctz, ctzIs, ctzLe, trailingZeros_ofWidth ctzLe trailing⟩,
    ⟨_, aluTwo_gives aluBswap w m full, fun k less => inWidth_bswap_byte _ less⟩⟩

end Sys2Proof.Machine
